-- ==== Sys2Proof/Word.lean ====
section
/-! DEFINITION. The machine's plainest words: a byte, a string of bytes, and the helpers over fixed tables.

The SL7316 is a block of engines, not a processor. Registers and fields whose values the manual counts are `Nat`
with their width in the field's docstring; bytes of memory and of messages are 8-bit vectors (R13, R69). -/
namespace Sys2Proof

/-- One byte of memory, of a message or of a record. -/
abbrev Byte := BitVec 8

/-- A string of bytes in ascending address order (little-endian fields, R13). -/
abbrev Bytes := List Byte

/-- A fixed table of `n` like things (a register file, a row of units). -/
abbrev Tab (n : Nat) (α : Type) := Vector α n

/-- The entry of a table at a unit number; a number beyond the table reads the type's default. -/
def Tab.at {n : Nat} {α : Type} [Inhabited α] (t : Tab n α) (i : Nat) : α := t[i]?.getD default

/-- The table with entry `i` changed by `f`; a number beyond the table changes nothing. -/
def Tab.mod {n : Nat} {α : Type} (t : Tab n α) (i : Nat) (f : α → α) : Tab n α :=
  if h : i < n then t.set i (f t[i]) else t

end Sys2Proof
end

