-- ==== Sys2Proof/Syntax.lean ====
section
/-! DEFINITION. The commands of the block: one constructor of `Instr` for each row of spec/opcode_table.json, and the
plain data their operands carry. The table gives no row any bits, so a command is its row and its operands; what the
operands stand for (the time of an event, an error the environment causes, a value a sensor or the host supplies) is
said at each type. -/
namespace Sys2Proof

/-! ## Operand types -/

/-- What a read of a stored word meets, as the environment decides it (R430, R431, R435). -/
inductive ReadErr where
  | clean
  /-- A single error, corrected; `bit` is the bit or byte corrected. -/
  | correctable (bit : Nat)
  | uncorrectable
  deriving DecidableEq, Repr, Inhabited

/-- What a tile's start meets: how long the core has waited for a staged B or E buffer, in ns (R186), and what the fetching engine's reads meet at an
address (R521). -/
structure TileFetch where
  stall : Nat := 0
  err : ReadErr := .clean
  addr : Nat := 0
  deriving DecidableEq, Repr, Inhabited

/-- Where an access to registers goes: BAR0, BAR2, the configuration header of the function, or the BAR Size field of BAR4's Resizable BAR capability
(R365, R367, R368). -/
inductive RegSpace where
  | bar0
  | bar2
  | header
  | bar4Size
  deriving DecidableEq, Repr, Inhabited

/-- An access to registers: a read of `n` bytes, or a write (R367). -/
inductive RegAccess where
  | read (n : Nat)
  | write (bs : Bytes)
  deriving DecidableEq, Repr, Inhabited

/-- An access from the host or from a peer: a read with what it meets, or a write with its bytes (R369, R397, R435). -/
inductive OuterAccess where
  | read (err : ReadErr)
  | write (bs : Bytes)
  deriving DecidableEq, Repr, Inhabited

/-- An upset of one lane of a beacon before it is read: the lane (0 A, 1 B, 2 C) and the value it holds instead (R46). -/
structure LaneUpset where
  lane : Nat := 0
  value : Nat := 0
  deriving DecidableEq, Repr, Inhabited

/-- A node context of a graph image: its index and bytes 0x00 to 0xBF (R37). -/
structure ImageCtx where
  index : Nat := 0
  bytes : Bytes := []
  deriving DecidableEq, Repr, Inhabited

/-- A beacon of a graph image: its index, initial value and the INFLIGHT copy it belongs to (R42). -/
structure ImageBeacon where
  index : Nat := 0
  init : Nat := 0
  copy : Nat := 0
  deriving DecidableEq, Repr, Inhabited

/-- What firmware reads from a graph image. The image's encoding is opaque (R383), so GRAPH_ADMIT carries its content
(log entry 7). Context and beacon indices are the device's, before the maps of R383. -/
structure GraphImage where
  contexts : List ImageCtx := []
  beacons : List ImageBeacon := []
  /-- INFLIGHT, 1 to 4 (R33). -/
  inflight : Nat := 1
  /-- Scratchpad partitions, in granules of 4 KiB (R78). -/
  partitions : List Nat := []
  /-- Work counters per copy (R178). -/
  counters : Nat := 0
  /-- Multicast group descriptors of 160 bytes (R57). -/
  groups : List Bytes := []
  /-- DRAM buffers: address and bytes. -/
  dram : List (Nat × Nat) := []
  /-- The minimum anchor period declared, in ns (R50). -/
  minPeriod : Option Nat := none
  /-- The cameras that CAMERA_MAP gives, as the mapping of the image fills them in (R72, R383). -/
  cameras : List Nat := []
  deriving DecidableEq, Repr, Inhabited

/-- What a DMA engine's work item belongs to: a node, by context index, or the DMA_COPY request of a mailbox pair. -/
inductive DmaOwner where
  | node (ctx : Nat)
  | copy (pair : Nat)
  deriving DecidableEq, Repr, Inhabited

/-- How a DMA engine's request ends (R91, R96, R97): served; failed by the PCIe endpoint; a coded stream that does not decode; an
uncorrectable word. -/
inductive DmaOutcome where
  | ok
  | hostFail
  | decodeFault
  | uncorrectable
  deriving DecidableEq, Repr, Inhabited

/-- A correctable error that a read met, as R442 records it. `addr` is the internal address, or the offset within the store. -/
structure WordError where
  store : Nat := 0
  unit : Nat := 0
  bank : Nat := 0
  row : Nat := 0
  bit : Nat := 0xFFFF
  addr : Nat := 0
  foundBy : Nat := 0
  deriving DecidableEq, Repr, Inhabited

/-- The outcome of an array's self-test (R154): it passes, one row fails, or the fault lies outside the rows. -/
inductive SelfTest where
  | pass
  | rowFails (row : Nat)
  | unitFault
  deriving DecidableEq, Repr, Inhabited

/-- An error that stops a whole core (R153, R154, R160): of a weight register or an activation, which name a physical row; of a partial sum at the tap or
of the accumulator file, which name none; of the weight loader, the feeder's control, the drain or the row-function unit. -/
inductive ArrayError where
  | weight (row : Nat)
  | activation (row : Nat)
  | partialSum
  | accumulator
  | weightLoader
  | feederControl
  | drain
  | rowFunction
  deriving DecidableEq, Repr, Inhabited

/-- An array with a self-test and spare rows: a Spire core's, or array `a` of an SNE. -/
inductive ArrayRef where
  | core (n : Nat)
  | sne (n a : Nat)
  deriving DecidableEq, Repr, Inhabited

/-- A sensor profile of the boot flash (R247): its 64-byte header, its entries and the static defect table of R263 (32 bits each) as the
manual lays them out, and the values that the integrator's profile gives beside them (PRESUMED; see the assumption log): frame period,
blanking, first exposure. -/
structure SensorProfile where
  header : Bytes := []
  entries : List Nat := []
  periodNs : Nat := 0
  blankNs : Nat := 0
  initCoarse : Nat := 0
  initAgain : Nat := 0
  defects : List Nat := []
  deriving DecidableEq, Repr, Inhabited

/-- What is writing flash: a commit of a pair into slot A (0) or B (1), or a repair-record update (R459). -/
inductive FlashOp where
  | commit (pair : Option Nat) (target : Nat) (image : Bytes)
  | repair
  deriving DecidableEq, Repr, Inhabited

/-- The flash profile (R458, R484, R493): per memory interface whether it is populated, its ECC_EN, CAPACITY and RATE codes; the cache share; the
selected reference, if any; THRESH; whether PMBus is present. -/
structure FlashProfile where
  mem : List (Bool × Bool × Nat × Nat) := []
  cacheEighths : Nat := 4
  calRef : Option Nat := none
  thresh : Nat := 10
  pmbus : Bool := false
  deriving DecidableEq, Repr, Inhabited

/-- A CSI-2 packet header as its code finds it (R230). -/
inductive HeaderCheck where
  | good
  | corrected
  | uncorrectable
  deriving DecidableEq, Repr, Inhabited

/-- A CSI-2 packet as a port receives it. -/
structure Packet where
  header : HeaderCheck := .good
  vc : Nat := 0
  dataType : Nat := 0
  /-- The data field of a short packet. -/
  data : Nat := 0
  payload : Bytes := []
  crcOk : Bool := true
  deriving DecidableEq, Repr, Inhabited

/-- A part of the ingress path that fails for good: a port, an I3C controller, or a camera's crossbar path (R257). -/
inductive IngressPart where
  | port (p : Nat)
  | controller (b : Nat)
  | crossbar (c : Nat)
  deriving DecidableEq, Repr, Inhabited

/-- A layer of a stripe network as firmware reads it from the layer program, whose encoding belongs to the compiler and the firmware: the formats of
its operands and of its output, its trap bits, its QPOLICY, whether it takes a DUAL input, and its limits (R220, R226, R293, R307, R315). -/
structure NetLayer where
  a : Nat := 0
  b : Nat := 0
  out : Nat := 0
  traps : Nat := 0
  qpolicy : Nat := 0
  dual : Bool := false
  satLimit : Nat := 0
  smallLimit : Nat := 0
  deriving DecidableEq, Repr, Inhabited

/-- A fault of an SNE (R310), or a correctable error that it reads at an offset in its store (R441). -/
inductive SneFault where
  | arrayParity (a : Nat) (row : Option Nat)
  | buffers
  | weights
  | control
  | corrected (off bit : Nat)
  deriving DecidableEq, Repr, Inhabited

/-- A fatal condition that no command of its own raises (R452). -/
inductive FatalCond where
  | belfryFetch
  | watchtowerData
  | protectionEntry
  | beaconLane
  | memoryTraining
  deriving DecidableEq, Repr, Inhabited

/-- A code that reports something other than success: the ranges of R16 that are assigned. -/
def statusReturned (c : Nat) : Bool := 0x0100 ≤ c && c < 0x0B00

/-- A unit that fails its training or self-test at start-up, a physical row that an array's test finds failing, an SNE's sequencer, port or loader, a
beacon lane, Belfry's lockstep pair, a boot flash whose SFDP table the ROM could not read, or a calibration reference, 0 REXT_CAL and 1 VREF_CAL, outside
its limits (R46, R104, R162, R316, R342, R448, R454, R458, R493). -/
inductive StartFail where
  | memory (m : Nat)
  | vision (u : Nat)
  | dma (e : Nat)
  | core (n : Nat)
  | array (n a : Nat)
  | coreRow (n row : Nat)
  | arrayRow (n a row : Nat)
  | sneControl (n : Nat)
  | lane (l : Nat)
  | lockstep
  | sfdp
  | calReference (k : Nat)
  deriving DecidableEq, Repr, Inhabited

/-- How an egress frame fares in a tap's write: on its way, cut by an overflow of the port's FIFO, or cut by the port's failure (R289). -/
inductive EgressCut where
  | none
  | overflow
  | portFails
  deriving DecidableEq, Repr, Inhabited

/-- A unit with a power gate (R488). -/
inductive GateUnit where
  | steeple (n : Nat)
  | sne (n : Nat)
  | rfe (n : Nat)
  | vis (n : Nat)
  deriving DecidableEq, Repr, Inhabited

/-- One lane's result of a calibration run (R496): the codes found, their quality figure, that of the codes in use measured in the same run,
with the eye heights in mV of a receiver, and whether every code lies in its fused range. -/
structure CalResult where
  lane : Nat := 0
  codes : List Nat := []
  quality : Nat := 0
  height : Nat := 0
  inUse : Nat := 0
  inUseHeight : Nat := 0
  inRange : Bool := true
  deriving DecidableEq, Repr, Inhabited

/-- What a claim on a counter of another module comes to: the FETCH_ADD leaves; its reply brings the previous value, or says that the word is
uncorrectable (R402, R435). A claim on a counter of this module is done at once, whatever this says. -/
inductive ClaimReply where
  | issue
  | value (v : Nat)
  | uncorrectable
  deriving DecidableEq, Repr, Inhabited

/-- Who waits for a response of another module: a DMA engine, for the request with a tag, or the units of the node in a context, for a module
(R397). -/
inductive RemoteUser where
  | engine (e : Nat)
  | node (i : Nat)
  deriving DecidableEq, Repr, Inhabited

/-- The graph, or the pair of the request, whose save it is, and whether a write of it to host memory fails there (R97, R380). -/
structure HostSave where
  id : Nat
  hostFail : Bool := false
  deriving DecidableEq, Repr, Inhabited

/-- The lane whose oldest group is written out, and what the next fetch of its engine meets at an address (R176, R521). -/
structure LaneWrite where
  lane : Nat
  err : ReadErr := .clean
  addr : Nat := 0
  deriving DecidableEq, Repr, Inhabited

/-- Why a peer is lost: its retrain did not complete in time, its module stopped responding during a retrain, or its port failed (R407). -/
inductive PeerLoss where
  | timeout
  | silent
  | portFailed
  deriving DecidableEq, Repr, Inhabited

/-- The port whose peer is lost, and why. -/
structure LostPort where
  port : Nat
  cause : PeerLoss := .timeout
  deriving DecidableEq, Repr, Inhabited

/-- A read of host memory that gets no completion: a pair's slot fetch, its response write, or a DMA engine's request (R97, R374). -/
inductive HostWait where
  | fetch (pair : Nat)
  | response (pair : Nat)
  | dma (engine tag : Nat)
  deriving DecidableEq, Repr, Inhabited

/-- What a channel's pins show Lantern at a loop step (R413, R417): edges of the encoder counted since the last step, the converted
current codes, TEMP_CODE, the limit inputs as levels, and the over-current comparator. -/
structure ChanIn where
  enc : Int := 0
  isa : Nat := 2048
  isb : Nat := 2048
  therm : Nat := 0
  limP : Bool := false
  limN : Bool := false
  overs : Bool := false
  deriving DecidableEq, Repr, Inhabited

/-! ## The commands -/

/-- A command of the block, one constructor per row of the table. `t` is the count of the timebase, in ns, at which the command takes effect (R52); `p` a mailbox
pair; the other operands are said at the meanings. -/
inductive Instr where
  -- Belfry (chapter 02)
  | anchorEvent (t g : Nat)
  | nodeDispatch (t i : Nat) (u : Option LaneUpset) (err : ReadErr)
  | beaconSignal (t b inc : Nat) (u : Option LaneUpset)
  | nodeComplete (t i : Nat)
  | deadlineMiss (t i : Nat)
  | fusedStageResume (t i k : Nat)
  | nodeFault (t i status : Nat)
  | cancel (t p : Nat)
  | cancelDrainComplete (t i : Nat)
  | multicastUnitWrite (t g r : Nat)
  | gapMarkerWrite (t g r : Nat)
  | holdLimitExpiry (t g r : Nat)
  | belfryLockstepMismatch (t : Nat)
  | parkDrainComplete (t : Nat) (g : HostSave)
  -- Memory and movement (chapter 03)
  | dmaWorkItemStart (t e : Nat) (o : DmaOwner)
  | dmaRequestIssue (t e : Nat) (write : Bool)
  | dmaRequestComplete (t e tag : Nat) (o : DmaOutcome) (corrected : Option WordError) (ext : Option Bytes)
  | dmaChunkWriteStart (t e : Nat)
  | dmaChunkComplete (t e : Nat)
  | fetchAdd (t init a size v : Nat) (user : Option Nat) (err : ReadErr)
  | workCounterWrite (t init a : Nat) (bs : Bytes)
  | reductionJobStart (t i k : Nat)
  | reductionPartialAdd (t slot : Nat) (err : ReadErr)
  | memoryInterfaceLoss (t m : Nat)
  | memCfgLock (t m : Nat)
  -- Spire cores (chapters 04 to 08)
  | macroStart (t i k : Nat)
  | tileClaim (t i k core : Nat) (err : ReadErr) (reply : ClaimReply)
  | tileStart (t core q : Nat) (fetch : TileFetch)
  | arrayPassIssue (t core q cycle : Nat) (err : ReadErr) (addr : Nat)
  | groupDrain (t core q : Nat) (err : ReadErr) (addr : Nat)
  | groupWriteOutRetire (t core : Nat) (q : LaneWrite)
  | mmvExecute (t core : Nat) (err : ReadErr) (addr : Nat)
  | arrayParityError (t core : Nat) (e : ArrayError)
  | arraySelftestComplete (t : Nat) (a : ArrayRef) (r : SelfTest)
  | spareRowSwitch (t : Nat) (a : ArrayRef)
  | periodicSelftest (t : Nat) (a : ArrayRef)
  | quadrantModeExit (t core : Nat)
  | splitkDrainStart (t i k : Nat)
  | quantVerdict (t i k : Nat)
  | wideFlagWrite (t i k : Nat)
  -- Sensor ingress and exposure (chapter 09)
  | csi2PacketReceive (t p : Nat) (k : Packet)
  | sensorFrameStart (t c sensorFn : Nat)
  | sensorFrameEnd (t c : Nat)
  | frameTimeout (t c : Nat)
  | genlockAnchor (t : Nat) (lead : Option Nat)
  | rfeLineRead (t r : Nat) (err : ReadErr)
  | cameraBind (t p : Nat)
  | cameraUnbind (t p : Nat)
  | portLockTimeout (t c : Nat)
  | sensorPortFailure (t : Nat) (u : IngressPart)
  | exposure (t p : Nat)
  | scuReqWrite (t e a : Nat) (b : Bytes)
  | exposureSequenceIssue (t bus : Nat)
  | i3cTransactionComplete (t bus : Nat) (nack : Bool) (data : Bytes)
  | i3cBusTimeout (t bus : Nat)
  | exposureSequenceComplete (t c : Nat)
  | i3cInBandInterrupt (t bus addr : Nat)
  | imuSample (t base entries : Nat) (rates accels : List Nat)
  | sensorXfer (t p : Nat)
  -- Raw front-ends (chapter 10)
  | psetSubmit (t p : Nat)
  | rfePsetSubmitWrite (t e r off : Nat) (b : Bytes)
  | psetLoadStart (t r : Nat)
  | psetLoadComplete (t r : Nat)
  | tapConfig (t p : Nat)
  | tapRowGroupWrite (t r tap : Nat) (bad : List Nat) (trunc : EgressCut)
  | statsBlockComplete (t r : Nat)
  | metadataRecordWrite (t r : Nat)
  -- Stripe network engines (chapter 11)
  | rowGroupDeadline (t c : Nat)
  | sneUnitStart (t n : Nat)
  | sneUnitComplete (t n group stripe : Nat)
  | networkBind (t p : Nat) (layers : List NetLayer)
  | networkWeightLoadComplete (t c : Nat)
  | networkUnbind (t p : Nat)
  | sneFault (t n : Nat) (f : SneFault)
  | sneWeightReloadComplete (t n image : Nat)
  -- Vision engines (chapters 12 and 13)
  | visionOperationStart (t u : Nat)
  | visionBandComplete (t u : Nat) (err : ReadErr)
  | visionOperationComplete (t u : Nat)
  | visionParityError (t u : Nat)
  | visionSelftestComplete (t u : Nat) (pass : Bool)
  | checkMode (t p : Nat)
  -- Host interface (chapter 14)
  | functionLevelReset (t : Nat)
  | bar4Access (t off n : Nat) (x : OuterAccess)
  | pciBar4BaseWrite (t v : Nat)
  | pciIntStatusClear (t : Nat) (hi : Bool) (mask : Nat)
  | registerWrite (t : Nat) (host : Bool) (space : RegSpace) (off : Nat) (x : RegAccess)
  | mbxEnable (t p v : Nat)
  | mbxDisable (t p v : Nat)
  | mbxReqDoorbell (t p tail : Nat) (writes : List (Nat × Bytes))
  | mbxRspHeadWrite (t p head : Nat)
  | mailboxRequestTake (t : Nat)
  | identify (t p : Nat)
  | getState (t p : Nat)
  | setEvents (t p : Nat)
  | resetFull (t p : Nat)
  | resetWarm (t p : Nat)
  | graphAdmit (t p : Nat) (image : GraphImage)
  | graphPark (t : Nat) (p : HostSave)
  | graphRestore (t p : Nat)
  | graphStop (t p : Nat)
  | contextRead (t p : Nat)
  | setCache (t p : Nat)
  | hostWindow (t p : Nat)
  | dmaCopy (t p : Nat)
  | telemetry (t p : Nat)
  | logRead (t p : Nat)
  | selftest (t p : Nat)
  | fwWrite (t p : Nat)
  | fwCommit (t p : Nat)
  | d3hotEntry (t : Nat)
  | d0Return (t : Nat)
  | firmwareReady (t : Nat) (fails : List StartFail)
  -- Peer links (chapter 15)
  | portUp (t p : Nat)
  | portDown (t p : Nat)
  | importEntry (t p : Nat)
  | counterMap (t p : Nat)
  | peerTrainingComplete (t k neighbour lanes : Nat) (half : Bool)
  | peerTrainingTimeout (t k : Nat)
  | peerFlitError (t k : Nat)
  | peerRetrainTimeout (t : Nat) (k : LostPort)
  | remoteSignal (t k imp inc : Nat)
  | remoteCounterOp (t k imp v : Nat) (err : ReadErr)
  | peerRemoteAccess (t k a n : Nat) (x : OuterAccess)
  | remoteRequestTimeout (t : Nat) (w : RemoteUser) (n : Nat)
  | relayUnit (t k : Nat)
  -- Field side (chapter 16)
  | motorSetpoint (t : Nat) (f : Bytes)
  | coolerSetpoint (t : Nat) (f : Bytes)
  | configWrite (t : Nat) (f : Bytes)
  | controlDisable (t : Nat) (f : Bytes)
  | controlEnable (t : Nat) (f : Bytes)
  | controlClearTrip (t : Nat) (f : Bytes)
  | controlSetPosition (t : Nat) (f : Bytes)
  | linkAck (t : Nat) (f : Bytes)
  | loopStep (t : Nat) (ins : List ChanIn)
  | watchdogExpiry (t ch : Nat)
  | limitTrip (t ch : Nat) (positive : Bool)
  | overcurrentTrip (t ch : Nat)
  | vfieldUndervoltageTrip (t : Nat)
  | lanternResetRelease (t mv : Nat)
  | lanternResetEntry (t : Nat)
  | lanternSelftestComplete (t : Nat) (pass : Bool)
  | channelStatusSend (t ch : Nat)
  | linkStatusSend (t mv : Nat) (temp : Int)
  | fieldStatusReceive (t : Nat) (f : Bytes)
  | fieldAckReceive (t : Nat) (f : Bytes)
  | fieldEventReceive (t : Nat) (f : Bytes)
  | linkStatusReceive (t : Nat) (f : Bytes)
  | fieldAckTimeout (t : Nat)
  | fieldLinkDown (t : Nat)
  | fieldRecordSend (t : Nat)
  | fieldConfigConfigure (t p : Nat)
  | fieldConfigControl (t p : Nat)
  | fieldConfigRead (t p : Nat)
  -- Reliability (chapter 17)
  | scrubRead (t : Nat) (w : WordError) (err : ReadErr) (last : Bool)
  | dramScrubRead (t m a : Nat) (w : WordError) (err : ReadErr) (last : Bool)
  | watchtowerFetchTrap (t page : Nat) (hashOk : Bool)
  | dmaEngineFailure (t e : Nat)
  | fatalCondition (t : Nat) (c : FatalCond)
  -- Watchtower (chapter 18)
  | resetRelease (t : Nat)
  | bootImageVerified (t : Nat)
  | temperatureSample (t : Nat) (temps : List Int)
  | throttleStep (t st : Nat)
  | voltageSample (t : Nat) (mv : List Nat)
  | ppsEdge (t : Nat)
  | ppsLoss (t : Nat)
  | devtimeRead (t p : Nat)
  | devtimeStep (t p : Nat)
  | devtimeSlew (t p : Nat)
  | devtimePps (t p : Nat)
  | wtDevtimeRead (t : Nat)
  | prtCommit (t v : Nat)
  | jtagDebugCommand (t : Nat)
  | watchtowerWatchdogExpiry (t : Nat)
  | watchtowerLockstepMismatch (t : Nat)
  -- Calibration, clocks, power, resets (chapter 19)
  | powerOnReset (t : Nat)
  | supplyFailure (t : Nat)
  | resetNAssert (t : Nat)
  | perstNAssert (t : Nat)
  | refclkSysLoss (t : Nat)
  | pcieRefclkLoss (t : Nat)
  | plRefclkLoss (t : Nat)
  | xtal32kLoss (t : Nat)
  | dvfsChange (t st point : Nat)
  | dvfsVoutSettled (t st mv : Nat)
  | dvfsRelockComplete (t st : Nat)
  | pmbusFault (t st : Nat)
  | unitUngateComplete (t : Nat) (u : GateUnit)
  | calibrationMeasureComplete (t b : Nat) (rs : List CalResult) (codes : Bytes)
  | calibrationApply (t b : Nat)
  | calibrationNoGap (t b : Nat)
  | calibrationRemeasure (t b : Nat)
  | maintenanceWindow (t m : Nat)
  | zqCalibration (t m : Nat)
  | calRead (t p : Nat)
  | calWrite (t p : Nat)
  | sensorPortLock (t p : Nat)
  | peerRetrainComplete (t k : Nat)
  | flashWriteComplete (t : Nat) (ok : Bool)
  | supplyRestore (t : Nat)
  | refclkSysRestore (t : Nat)
  | pcieCompletionTimeout (t : Nat) (w : HostWait)
  | fieldFrameDiscard (t : Nat) (toLantern : Bool) (f : Bytes)
  deriving DecidableEq, Repr, Inhabited

end Sys2Proof
end

