-- ==== Sys2Proof/Decode.lean ====
section
/-! DEFINITION. The command that a word of the table spells. The table gives no row any bits: a command of this block is its row and its
operands, so no word spells one. -/
namespace Sys2Proof

/-- No word spells a command: spec/opcode_table.json gives every row `fields: []` and no bits. -/
def decodeTableWord (_nbits _w : Nat) : Option Instr := none

end Sys2Proof
end

