-- ==== Sys2Proof/Machine/Bits.lean ====
section
/-! DEFINITION. Bit fields, little-endian bytes, saturating counters, sign extension and keyed lists: the helpers that
every family uses to read and write the manual's layouts (R6, R13, R14). -/
namespace Sys2Proof.Machine
open Sys2Proof

/-- Bits `[lo + w - 1 : lo]` of `v`. -/
def bits (v lo w : Nat) : Nat := v / 2 ^ lo % 2 ^ w

/-- Bit `i` of `v`. -/
def bit (v i : Nat) : Bool := v / 2 ^ i % 2 == 1

/-- 1 for true, 0 for false. -/
def b2n (b : Bool) : Nat := if b then 1 else 0

/-- `v` with bits `[lo + w - 1 : lo]` replaced by the low `w` bits of `x`. -/
def setBits (v lo w x : Nat) : Nat :=
  v % 2 ^ lo + (x % 2 ^ w) * 2 ^ lo + v / 2 ^ (lo + w) * 2 ^ (lo + w)

/-- The little-endian number that a string of bytes holds (R13). -/
def leNat : Bytes → Nat
  | [] => 0
  | b :: bs => b.toNat + 256 * leNat bs

/-- `n` bytes of `v`, little-endian (R13). -/
def leBytes : Nat → Nat → Bytes
  | 0, _ => []
  | n + 1, v => BitVec.ofNat 8 (v % 256) :: leBytes n (v / 256)

/-- `n` bytes of the signed value `v`, two's complement. -/
def leInt (n : Nat) (v : Int) : Bytes := leBytes n (v % (2 ^ (8 * n) : Nat)).toNat

/-- The `n`-byte field at offset `off`; bytes beyond the end read as nothing. -/
def fld (l : Bytes) (off n : Nat) : Nat := leNat ((l.drop off).take n)

/-- `n` bytes at offset `off`. -/
def sub (l : Bytes) (off n : Nat) : Bytes := (l.drop off).take n

/-- `n` zero bytes. -/
def zeros (n : Nat) : Bytes := List.replicate n 0

/-- The string cut or padded with zeros to exactly `n` bytes. -/
def padTo (n : Nat) (l : Bytes) : Bytes := l.take n ++ zeros (n - l.length)

/-- The string with the bytes from `off` on replaced by `x` (the string keeps its length). -/
def putBytes (l : Bytes) (off : Nat) (x : Bytes) : Bytes :=
  (l.take off ++ x ++ l.drop (off + x.length)).take l.length

/-- The two's-complement reading of the low `w` bits of `v`. -/
def toSigned (w v : Nat) : Int :=
  let u := v % 2 ^ w
  if w ≠ 0 ∧ u ≥ 2 ^ (w - 1) then (u : Int) - (2 ^ w : Nat) else u

/-- The low `w` bits of a signed value. -/
def ofSigned (w : Nat) (v : Int) : Nat := (v % (2 ^ w : Nat)).toNat

/-- A `w`-bit counter advanced by `k`, saturating. -/
def satAdd (w v k : Nat) : Nat := min (v + k) (2 ^ w - 1)

/-- A `w`-bit counter advanced by one, saturating. -/
def satInc (w v : Nat) : Nat := satAdd w v 1

/-- Division rounding up. -/
def ceilDiv (a b : Nat) : Nat := (a + (b - 1)) / b

/-- `v` rounded up to a multiple of `m`. -/
def roundUp (v m : Nat) : Nat := ceilDiv v m * m

/-- True when every byte is zero (a reserved field as R10 asks). -/
def allZero (l : Bytes) : Bool := l.all (· == 0)

/-- `v` clamped to `[lo, hi]`. -/
def clampInt (lo hi v : Int) : Int := max lo (min hi v)

/-- The value kept under a key of an ascending keyed list. -/
def aGet {α : Type} : List (Nat × α) → Nat → Option α
  | [], _ => none
  | (k, v) :: l, i => if k = i then some v else aGet l i

/-- An ascending keyed list with key `i` set to `v`. -/
def aSet {α : Type} : List (Nat × α) → Nat → α → List (Nat × α)
  | [], i, v => [(i, v)]
  | (k, w) :: l, i, v =>
    if i < k then (i, v) :: (k, w) :: l
    else if i = k then (i, v) :: l
    else (k, w) :: aSet l i v

/-- An ascending keyed list without key `i`. -/
def aErase {α : Type} : List (Nat × α) → Nat → List (Nat × α)
  | [], _ => []
  | (k, w) :: l, i => if k = i then l else (k, w) :: aErase l i

/-- An ascending keyed list with the value under `i`, if any, changed by `f`. -/
def aMod {α : Type} : List (Nat × α) → Nat → (α → α) → List (Nat × α)
  | [], _, _ => []
  | (k, w) :: l, i, f => if k = i then (k, f w) :: l else (k, w) :: aMod l i f

/-- Insertion of `x` into a list kept in ascending order, without a second copy. -/
def sInsert : List Nat → Nat → List Nat
  | [], x => [x]
  | y :: l, x => if x < y then x :: y :: l else if x = y then y :: l else y :: sInsert l x

/-- The last `n` elements of a list (a log that keeps its newest records). -/
def keepLast {α : Type} (n : Nat) (l : List α) : List α := l.drop (l.length - n)

/-- The position of the first element that satisfies `p`. -/
def findIdx {α : Type} (p : α → Bool) : List α → Nat → Option Nat
  | [], _ => none
  | x :: l, i => if p x then some i else findIdx p l (i + 1)

/-- The numbers `0 .. n - 1` that satisfy `p`, ascending. -/
def unitsWhere (n : Nat) (p : Nat → Bool) : List Nat := (List.range n).filter p

/-! ## CRC-32 (R414, R299, R501) -/

/-- One bit step of the reflected CRC-32 of IEEE 802.3. -/
def crcStep (c : Nat) : Nat := if c % 2 = 1 then (c / 2) ^^^ 0xEDB88320 else c / 2

/-- The CRC register after one more byte. -/
def crcByte (c : Nat) (b : Byte) : Nat := (List.range 8).foldl (fun c _ => crcStep c) (c ^^^ b.toNat)

/-- CRC-32, IEEE 802.3 polynomial, of a string of bytes. -/
def crc32 (b : Bytes) : Nat := (b.foldl crcByte 0xFFFFFFFF) ^^^ 0xFFFFFFFF

end Sys2Proof.Machine
end

