-- ==== Sys2Proof/Machine/State.lean ====
section
/-! DEFINITION. The state of the SL7316 block: every register, store, buffer, counter, mode and pin the manual names, as
plain data, with the value after device reset as each field's default; the faults and refusals; `State.reset`.
Counters and fields the manual counts are `Nat` with the width in the docstring; INVENTORY.md lists each with its rule. -/
namespace Sys2Proof.Machine
open Sys2Proof

/-! ## Outputs -/

/-- What the block puts on its pins, links and buses, as far as the manual names it. -/
inductive Output where
  /-- An MSI-X message (R385). -/
  | msix (v addr data : Nat)
  /-- A beacon signal to an import entry of another module (R400). -/
  | remoteSignal (m imp inc : Nat)
  /-- A FETCH_ADD to an import entry of another module, and a reply to one (R402). -/
  | remoteFetchAdd (m imp inc : Nat)
  | counterReply (k : Nat) (v : Option Nat)
  /-- A write through a peer window (R397). -/
  | remoteWrite (a : Nat) (bs : Bytes)
  /-- The response to a request that arrived on a port: data, status, and the poison flag (R397, R435). -/
  | remoteReply (k : Nat) (bs : Bytes) (status : Nat) (poison : Bool)
  /-- A request for a flit gap, asked of the neighbour (R498). -/
  | gapRequest (k : Nat)
  /-- What a FETCH_ADD returns (R80). -/
  | fetched (a : Nat) (v : Option Nat)
  /-- A sensor is assigned its dynamic address: SETDASA to its static address, or ENTDAA where it has none (R244). -/
  | busAddress (bus : Nat) (static : Option Nat) (dynamic : Nat)
  /-- A camera's start-up list, at an offset in flash, goes to its sensor (R247, R257). -/
  | sensorStartup (c list : Nat)
  /-- A transaction on a sensor bus, in I3C or as I2C to a legacy device (R244, R245): the device, the register in 1 or 2 bytes, and the data. -/
  | i3c (bus : Nat) (legacy : Bool) (addr regBytes reg : Nat) (read : Bool) (data : Bytes)
  /-- A CSI-2 packet of an egress port (R284). -/
  | csi2 (port vc dt : Nat) (bs : Bytes)
  /-- A deskew sequence of an egress port above 1.5 Gbps: the initial one, or a periodic one in frame blanking (R288). -/
  | deskew (port : Nat) (initial : Bool)
  /-- The completion of a BAR4 read: the bytes, or Completer Abort (R369), with the poisoned-TLP bit (R435). -/
  | bar4 (bs : Option Bytes) (poison : Bool)
  /-- What a host read of registers returns, as one little-endian number (R367, R473). -/
  | regRead (v : Nat)
  /-- A frame on the barrier, either way (R414). -/
  | toLantern (f : Bytes)
  | fromLantern (f : Bytes)
  /-- A channel's enable pin (R412). -/
  | enable (ch : Nat) (on : Bool)
  /-- The step pins: steps issued, with their direction (R413). -/
  | steps (ch : Nat) (n : Int)
  /-- Two-phase PWM mode: the phase currents that the inner loop is to hold, in 2^-24 mA, and the duties of A+, A-, B+ and B- that it gives MCn_OUT[3:0]
  at the PWM frequency in kHz (R413, R422). -/
  | phases (ch : Nat) (a b : Int) (khz : Nat) (duties : Bytes)
  /-- Every bridge output of a channel at its off level (R419). -/
  | bridgeOff (ch : Nat)
  /-- A cooler's duty in 1/256 of a unit of full scale 32,767 (R422). -/
  | duty (ch : Nat) (d : Int)
  /-- VOUT_COMMAND to a Steeple's regulator (R484). -/
  | vout (st mv : Nat)
  /-- THERMTRIP_N low (R468). -/
  | thermtrip
  deriving DecidableEq, Repr, Inhabited

/-! ## Time (R52, R473, R480) -/

/-- The timebase, DEVTIME and its discipline. -/
structure Clock where
  /-- The timebase's own count in ns, 4 ns a cycle, no steps and no trim (R52). -/
  timebase : Nat := 0
  /-- DEVTIME in ns (R473), 64 bits. -/
  devtime : Nat := 0
  /-- The rate trim in ppb (R473 SLEW and PPS). -/
  trimPpb : Int := 0
  /-- The fraction of a nanosecond the trim has accumulated, in 10^-9 ns (R473, R480). -/
  frac : Int := 0
  /-- The DEVTIME VALUE of a slew under PPS ends at this timebase count, and the trim it then takes. -/
  slewEnd : Option (Nat × Int) := none
  /-- PPS discipline enabled (R473 kind 3). -/
  ppsOn : Bool := false
  /-- Timebase count of the last PPS edge, or of the enabling. -/
  ppsLast : Nat := 0
  /-- Status 0x0A12 raised since the last edge. -/
  ppsLost : Bool := false
  /-- The last PPS error in ns. -/
  ppsError : Int := 0
  /-- The upper word latched by a read of the lower word of WT_DEVTIME. -/
  latchedHi : Nat := 0
  deriving DecidableEq, Repr, Inhabited

/-! ## Belfry (chapter 02) -/

/-- The states of a node context (R37). -/
inductive NodeState where
  | idle | waiting | ready | running | done | cancelled | faulted
  deriving DecidableEq, Repr, Inhabited

/-- A node context: the 192 bytes firmware writes, and the status area Belfry writes (R37). -/
structure Ctx where
  /-- Bytes 0x00 to 0xBF. -/
  prog : Bytes := []
  /-- Bytes 0x00 to 0xBF as admitted, before any core of the unit set was lost (R65, read by R50's run time). -/
  admitted : Bytes := []
  state : NodeState := .idle
  /-- FLAGS [0]: the deadline was missed in the current instance. -/
  missed : Bool := false
  /-- FLAGS [1]: signalled. -/
  signalled : Bool := false
  /-- LAST_STATUS, 16. -/
  lastStatus : Nat := 0
  /-- FRAME, 32. -/
  frame : Nat := 0
  /-- T_READY, T_START, T_DONE: DEVTIME, 64 each. -/
  tReady : Nat := 0
  tStart : Nat := 0
  tDone : Nat := 0
  /-- LAST_TILE, 32. -/
  lastTile : Nat := 0
  /-- RUNS, MISSES, CANCELS: 32 each, saturating. -/
  runs : Nat := 0
  misses : Nat := 0
  cancels : Nat := 0
  /-- A cancel drain is in progress: the units are not yet free (R61). -/
  draining : Bool := false
  /-- The node ran on redone tiles (record FLAGS [1], R64). -/
  redone : Bool := false
  /-- A write of the node completed poisoned (0x0309 in its record, R433). -/
  poisoned : Bool := false
  /-- Row-groups counted by a source node in this instance (EVERY_M1 of R283 and R305). -/
  events : Nat := 0
  /-- The camera frame whose events a source node reports, where the graph's anchor does not number it (R36). -/
  source : Option Nat := none
  /-- TYPE_DATA of the completion record in preparation (R64). -/
  typeData : Bytes := []
  deriving DecidableEq, Repr, Inhabited

/-- One beacon: its value as each of the three lanes holds it (R46). -/
structure Beacon where
  a : Nat := 0
  b : Nat := 0
  c : Nat := 0
  deriving DecidableEq, Repr, Inhabited

/-- A frame instance in flight (R33). -/
structure Instance where
  /-- Frame number. -/
  frame : Nat := 0
  /-- The anchor's DEVTIME. -/
  anchorDev : Nat := 0
  /-- The anchor's time on the timebase count (R52). -/
  anchorTime : Nat := 0
  deriving DecidableEq, Repr, Inhabited

/-- What happens once the last instance in flight of a graph has ended (R41, R380). -/
inductive Drain where
  | none
  | park (pair : Nat)
  | stop (pair : Nat)
  /-- Stopping without an answering mailbox pair (a graph stopped by a fault, R65, R435, R407). -/
  | halt
  deriving DecidableEq, Repr, Inhabited

/-- An entry of the protection table (R475). -/
structure PrtEntry where
  valid : Bool := false
  lock : Bool := false
  read : Bool := false
  write : Bool := false
  initId : Nat := 0
  initMask : Nat := 0
  lastPage : Nat := 0
  firstPage : Nat := 0
  deriving DecidableEq, Repr, Inhabited

/-- An admitted graph (R33). -/
structure Graph where
  /-- The image as mapped at admission (R383). -/
  image : GraphImage := {}
  /-- Admitted best-effort: it takes no part in the deadline test (R50). -/
  bestEffort : Bool := false
  /-- Parked: its contexts and beacons lie in DRAM (R41). -/
  parked : Bool := false
  /-- No further instance starts: beacon overflow (R43), an empty unit set (R65) or a lost peer (R407). -/
  stopped : Bool := false
  /-- What its drain is for, and the pair that waits for it (R41, R61). -/
  drain : Drain := .none
  /-- The copies, each with the instance it carries, if any. -/
  copies : List (Option Instance) := []
  /-- The copy the next instance takes first: copies are taken in rotation (R33). -/
  nextCopy : Nat := 0
  /-- Instances started, the frame number of a timer anchor (log entry 9). -/
  started : Nat := 0
  /-- Timebase count of the last anchor of a timer (R52). -/
  timerLast : Option Nat := none
  /-- The status last recorded against the graph. -/
  status : Nat := 0
  /-- Work counters allotted, one list per copy in image order. -/
  counters : List Nat := []
  /-- Scratchpad partitions allotted: first granule and count (R78). -/
  partitions : List (Nat × Nat) := []
  /-- Multicast groups allotted (R57). -/
  groups : List Nat := []
  /-- Protection entries made for its nodes that write request windows, by number (R72). -/
  entries : List (Nat × PrtEntry) := []
  /-- Where a parked graph's contexts and beacons lie, and how many bytes (R41). -/
  saved : Option (Nat × Nat) := none
  deriving DecidableEq, Repr, Inhabited

/-- A unit on its way to a receiver of a multicast group (R57, R59). -/
structure McUnit where
  frame : Nat := 0
  unit : Nat := 0
  last : Bool := false
  /-- A node producer's unit: where it lies in the producer buffer. -/
  addr : Nat := 0
  len : Nat := 0
  /-- A camera tap's unit: its lines, each with its offset from the data's first byte (R59). -/
  lines : List (Nat × Bytes) := []
  /-- The tap and the frame it comes from: RFE, tap, camera, and the timebase count of the frame start. -/
  rfe : Nat := 0
  tap : Nat := 0
  cam : Nat := 0
  since : Nat := 0
  deriving DecidableEq, Repr, Inhabited

/-- A gap marker waiting for a credit (R54, R56). -/
structure GapMark where
  frame : Nat := 0
  firstUnit : Nat := 0
  reason : Nat := 0
  timeLo : Nat := 0
  deriving DecidableEq, Repr, Inhabited

/-- The state of one receiver of a group (R54, R58, R59). -/
structure McRecv where
  /-- Units and gap markers delivered since admission. -/
  delivered : Nat := 0
  /-- Units and gap markers that a RELAY node has taken from the receiver's slots (R405). -/
  taken : Nat := 0
  /-- Units handed to the group and not yet written to this receiver. -/
  todo : List McUnit := []
  /-- The frame of which the receiver is shed. -/
  shedFrame : Option Nat := none
  /-- Gap markers that wait for a credit each, oldest first. -/
  gaps : List GapMark := []
  /-- Timebase count at which the producer began to wait for this receiver's credit (R53). -/
  holdFrom : Option Nat := none
  deriving DecidableEq, Repr, Inhabited

/-- A multicast group (R57). -/
structure McGroup where
  graph : Nat := 0
  /-- The 160-byte descriptor, its beacons as admitted. -/
  desc : Bytes := []
  /-- Its receivers, in the descriptor's order (R57). -/
  recvs : List McRecv := []
  /-- A node producer's buffer is with the group: FREE_BEACON is still to be signalled. -/
  bufferHeld : Bool := false
  /-- The newest frame of which units were handed to the group: its number, its next unit, and whether its last unit has come (R56). -/
  offered : Option (Nat × Nat × Bool) := none
  /-- A camera tap's units whose events are still to be signalled, without their lines (R283). -/
  report : List McUnit := []
  deriving DecidableEq, Repr, Inhabited

/-- A fused command in progress: its ring and, per stage, the slots it has passed on (R47, R48). -/
structure Fused where
  /-- Slots each stage has finished with, in stage order. -/
  passed : List Nat := []
  deriving DecidableEq, Repr, Inhabited

/-- Belfry and the beacon fabric. -/
structure Belfry where
  /-- SEQ_STATUS.FATAL, LOCKSTEP_OK, READY. -/
  fatal : Bool := false
  lockstepOk : Bool := false
  ready : Bool := false
  /-- Dispatch has stopped (R66, R453). -/
  halted : Bool := false
  /-- BCN_FABRIC.VOTE_DISAGREE_COUNT, 8 saturating. -/
  disagree : Nat := 0
  /-- BCN_FABRIC.MASKED_LANE: 0 none, 1 A, 2 B, 3 C. -/
  maskedLane : Nat := 0
  /-- Timebase count of each lane's last disagreement. -/
  laneLast : List (Nat × Nat) := []
  /-- SEQ_MISS_COUNT, SEQ_SKIP_COUNT, SEQ_CANCEL_COUNT, BCN_OVERFLOW_COUNT: 32 saturating. -/
  missCount : Nat := 0
  skipCount : Nat := 0
  cancelCount : Nat := 0
  overflowCount : Nat := 0
  /-- MCG_SHED_COUNT[g][r] under the key g x 8 + r, 32 saturating; unlisted counters read 0. -/
  shedCount : List (Nat × Nat) := []
  /-- The beacons, by index; an unlisted beacon holds 0 in every lane. -/
  beacons : List (Nat × Beacon) := []
  /-- The contexts in use, by index; an unlisted context is IDLE with ENABLE clear. -/
  ctxs : List (Nat × Ctx) := []
  /-- Context indices retired for wear (R444). -/
  retiredCtx : List Nat := []
  /-- Retired context indices that wait for their graph (R444). -/
  wornCtx : List Nat := []
  /-- The admitted graphs, by identifier, parked ones among them. -/
  graphs : List (Nat × Graph) := []
  /-- The multicast groups in use, by index. -/
  groups : List (Nat × McGroup) := []
  /-- Fused commands in progress, by context index. -/
  fused : List (Nat × Fused) := []
  deriving DecidableEq, Repr, Inhabited

/-! ## Memory, Dome, DMA (chapter 03) -/

/-- One cached line of the Dome cache: its DRAM line address (address div 128), whether it is dirty, and its way (R76). -/
structure CacheLine where
  line : Nat := 0
  dirty : Bool := false
  way : Nat := 0
  deriving DecidableEq, Repr, Inhabited

/-- A block of a compressed raw frame as the RFE stored it: its header byte, its slot, the bytes stored in it, and the plain bytes that they
decode to (R98 to R100). -/
structure RawBlock where
  head : Nat := 0
  addr : Nat := 0
  stored : Bytes := []
  plain : Bytes := []
  deriving DecidableEq, Repr, Inhabited

/-- A request of a DMA engine in flight (R91). -/
structure DmaReq where
  tag : Nat := 0
  write : Bool := false
  addr : Nat := 0
  len : Nat := 0
  /-- Offset of its first byte in the work item's byte order. -/
  off : Nat := 0
  /-- A write's bytes, as staged when it was issued. -/
  data : Bytes := []
  /-- The stream's NO_ALLOC (R76). -/
  noAlloc : Bool := false
  /-- The declared buffer of a destination that is compressed: its base and its size (R98). -/
  coded : Option (Nat × Nat) := none
  /-- The PCIe address that the window gave a request to host memory in the cycle of its issue (R388). -/
  host : Nat := 0
  /-- Timebase count of its issue (R397). -/
  issued : Nat := 0
  deriving DecidableEq, Repr, Inhabited

/-- A work item in progress (R88, R93). -/
structure DmaItem where
  owner : DmaOwner := .node 0
  /-- Number of the item in the node's work list. -/
  index : Nat := 0
  src : Bytes := []
  dst : Bytes := []
  /-- The gather index tables as read under R89. -/
  srcIndex : List Nat := []
  dstIndex : List Nat := []
  /-- Bytes of the source requested so far, and staged: (offset, data) as requests return. -/
  readIssued : Nat := 0
  staged : List (Nat × Bytes) := []
  /-- Bytes of the destination whose writes were issued, and retired. -/
  writeIssued : Nat := 0
  writeDone : Nat := 0
  /-- The chunks whose writes have begun (R93). -/
  chunksOpen : Nat := 0
  chunksDone : Nat := 0
  /-- Requests in flight. -/
  reqs : List DmaReq := []
  deriving DecidableEq, Repr, Inhabited

/-- A DMA engine (R88 to R97). -/
structure DmaEngine where
  /-- DMA_STATUS.FAULT, CANCEL_DRAIN, LAST_STATUS 16; TAGS is the number of requests in flight. -/
  fault : Bool := false
  cancelDrain : Bool := false
  lastStatus : Nat := 0
  /-- The engine has failed (R448). -/
  failed : Bool := false
  item : Option DmaItem := none
  /-- Requests of a dropped item still in flight (R61, R95). -/
  draining : List DmaReq := []
  /-- Work items and chunks of the node in progress that have completed. -/
  itemsDone : Nat := 0
  chunksDone : Nat := 0
  deriving DecidableEq, Repr, Inhabited

/-- A job of the reduction unit (R82, R83). -/
structure RedJob where
  /-- The context whose macro the job serves (R182). -/
  ctx : Nat := 0
  /-- FORMAT, ELEMS, DEST of R82. -/
  format : Nat := 0
  elems : Nat := 0
  dest : Nat := 0
  /-- The partials in ascending K_FIRST order: address and K_FIRST. -/
  parts : List (Nat × Nat) := []
  /-- Partials added so far. -/
  added : Nat := 0
  /-- The running sum, element by element: a 32-bit pattern, or a 96-bit pattern. -/
  sum : List Nat := []
  deriving DecidableEq, Repr, Inhabited

/-- MEM_CFG of one interface (R85). -/
structure MemCfg where
  lock : Bool := false
  eccEn : Bool := false
  populated : Bool := false
  /-- CAPACITY, 4, as coded. -/
  capacity : Nat := 0
  /-- RATE, 3, as coded. -/
  rate : Nat := 2
  /-- The interface failed training at start-up (R104). -/
  trainFailed : Bool := false
  deriving DecidableEq, Repr, Inhabited

/-- The Dome, its cache and the memories behind the internal address map (R69). -/
structure MemSys where
  /-- Every byte of the 40-bit internal space that holds other than zero, ascending (log entry 3). -/
  cells : List Host.Cell := []
  /-- Words that read as uncorrectable: poisoned, or struck by an error (R430 to R433); their first addresses, ascending. -/
  bad : List Nat := []
  /-- With in-line ECC, the granules of cached lines whose copy in DRAM is uncorrectable: a reader meets it once the line has left the cache clean
  (R77, R439). -/
  behind : List Nat := []
  /-- Host memory behind the endpoint: every byte that holds other than zero (log entry 4). -/
  host : List Host.Cell := []
  /-- DOM_CFG.CACHE_EIGHTHS, 4. -/
  cacheEighths : Nat := 4
  /-- The cache directory: per set, its lines, most recently used first (R76). -/
  cache : List (Nat × List CacheLine) := []
  /-- DOM_STATUS.RETIRED, 14: granules retired since manufacture. -/
  retired : Nat := 0
  /-- Scratchpad granules retired, by number. -/
  retiredGranules : List Nat := []
  /-- Worn granules that wait for their partition to be freed, each with the bank whose row wore (R79). -/
  wornGranules : List (Nat × Nat) := []
  /-- DOM_ERR_COUNT, 32 saturating. -/
  errCount : Nat := 0
  /-- Work counters in use that hold other than zero (R80), by number. -/
  counters : List (Nat × Nat) := []
  /-- The job slots (R82), by number. -/
  jobs : List (Nat × RedJob) := []
  /-- MEM_CFG of each interface (R85). -/
  cfg : Tab 4 MemCfg := Vector.replicate 4 {}
  /-- Engines 0 to 11, and the peer-transfer engines of PL0 to PL2 as 12 to 14 (R399). -/
  dma : Tab 15 DmaEngine := Vector.replicate 15 {}
  /-- The blocks of compressed raw frames that taps have stored (R98). -/
  rawBlocks : List RawBlock := []
  /-- DRAM ranges held by graphs' buffers: address, bytes, graph (R104's 0x030C). -/
  dramHeld : List (Nat × Nat × Nat) := []
  deriving DecidableEq, Repr, Inhabited

/-! ## Reliability (chapter 17) and the logs -/

/-- The health of a unit or of the device (R449). -/
inductive Health where
  | green | amber | crimson
  deriving DecidableEq, Repr, Inhabited

/-- A row of the wear table: store, unit, row, and the DEVTIMEs of its counted errors (R443). -/
structure WearRow where
  store : Nat := 0
  unit : Nat := 0
  row : Nat := 0
  times : List Nat := []
  deriving DecidableEq, Repr, Inhabited

/-- The repair record that firmware keeps in flash (R446). -/
structure RepairRecord where
  /-- Run-time spares in use: (store, unit or bank, rows). -/
  spares : List (Nat × Nat × Nat) := []
  /-- Scratchpad granules and node contexts out of service (R446). -/
  granules : List Nat := []
  /-- Node contexts out of service (R446). -/
  ctxs : List Nat := []
  /-- Retired Spire cores. -/
  cores : List Nat := []
  /-- Spare rows switched into Spire arrays: core and physical row (R152). -/
  coreRows : List (Nat × Nat) := []
  /-- SNE arrays lost (4 x SNE + array), and rows switched into SNE arrays. -/
  arrays : List Nat := []
  arrayRows : List (Nat × Nat) := []
  /-- Units failed by wear: the store that wore (2 RFE, 3 SNE, 5 engine) and the unit. -/
  units : List (Nat × Nat) := []
  /-- Granules retired for rows of each Dome bank (DOM_SPARE[b].RETIRED). -/
  banks : List Nat := []
  deriving DecidableEq, Repr, Inhabited

/-- Error counting, wear and health. -/
structure Reliab where
  /-- DOM_ECC_COUNT.CORRECTED 16, UNCORRECTABLE 8, POISONED 8, saturating. -/
  corrected : Nat := 0
  uncorrectable : Nat := 0
  poisoned : Nat := 0
  /-- DOM_SCRUB.SCRUB_MS 14, PASSES 8 wrapping. -/
  scrubMs : Nat := 0x3E8
  passes : Nat := 0
  /-- MEM_ECC_COUNT[m].CORRECTED 16, UNCORRECTABLE 8, WORN_ROWS 8, saturating. -/
  memCorrected : Tab 4 Nat := Vector.replicate 4 0
  memUncorrectable : Tab 4 Nat := Vector.replicate 4 0
  memWorn : Tab 4 Nat := Vector.replicate 4 0
  /-- MEM_SCRUB[m].SCRUB_H 5; granules read in the current pass, of which PROGRESS counts the units of 2^20. -/
  memScrubH : Tab 4 Nat := Vector.replicate 4 24
  memScrubPos : Tab 4 Nat := Vector.replicate 4 0
  /-- DEVTIME of the last counted error per word: store, address, time (R441). -/
  counted : List (Nat × Nat × Nat) := []
  wear : List WearRow := []
  /-- Spare-less rows that have worn (R444): store and row. -/
  wornKept : List (Nat × Nat) := []
  /-- Run-time spares in use: (store, unit or bank, rows) (R444). -/
  spares : List (Nat × Nat × Nat) := []
  /-- DOM_SPARE[b].RETIRED, 8: granules retired for rows of bank b. -/
  domRetired : Tab 64 Nat := Vector.replicate 64 0
  /-- Units failed by wear: the store that wore (2 RFE, 3 SNE, 5 engine) and the unit (R444, R450). -/
  wornUnits : List (Nat × Nat) := []
  /-- Watchtower pages trapped: page and DEVTIME of the last uncorrectable error (R436). -/
  wtPages : List (Nat × Nat) := []
  /-- The device health as last reported (R449). -/
  health : Health := .green
  /-- Crimson for want of an RFE (R449): cameras stopped so. -/
  camStopped : List Nat := []
  /-- The field link or Lantern is lost (R449). -/
  fieldLost : Bool := false
  /-- Peer ports lost (R447). -/
  peerLost : List Nat := []
  deriving DecidableEq, Repr, Inhabited

/-- A log with its own 32-bit sequence (R471): the number the next record takes, and the records kept, oldest first. -/
structure Log where
  next : Nat := 0
  recs : List Bytes := []
  deriving DecidableEq, Repr, Inhabited

/-! ## Watchtower (chapter 18) -/

/-- The device states of R390. -/
inductive DevState where
  | booting | ready | recovery | fatal
  deriving DecidableEq, Repr, Inhabited

/-- A staged-boot request in retention memory (R465). -/
structure StagedBoot where
  addr : Nat := 0
  len : Nat := 0
  deriving DecidableEq, Repr, Inhabited

/-- The always-on domain's retention memory: kept across every reset except power loss. -/
structure Retention where
  /-- The 16 newest event records (R471). -/
  events : List Bytes := []
  /-- The boot statuses of R462, oldest first. -/
  bootStatus : List Nat := []
  staged : Option StagedBoot := none
  /-- Memory interfaces' calibration seeds (R502): interface and block. -/
  memSeeds : List (Nat × Bytes) := []
  /-- Offsets of its words that read as uncorrectable (R435). -/
  bad : List Nat := []
  deriving DecidableEq, Repr, Inhabited

/-- The fuses and the fields loaded from them. -/
structure Fuses where
  /-- Key hashes of slots 0 to 3, 32 bytes each (R460). -/
  keyHash : List Bytes := List.replicate 4 (List.replicate 32 0)
  /-- The anti-rollback counter, 0 to 63 (R463). -/
  svn : Nat := 0
  /-- Revocation bits of slots 0 to 3. -/
  revoked : Nat := 0
  /-- DEBUG_OPEN blown (R457). -/
  debugOpen : Bool := false
  /-- The identifiers fused for the endpoint (R365). -/
  vendor : Nat := 0
  subVendor : Nat := 0
  subId : Nat := 0
  stepping : Nat := 0
  /-- 0 SL7316-C, 1 SL7316-I (R381). -/
  ordering : Nat := 0
  serial : Nat := 0
  /-- Faulty rows fused per Spire core and per SNE array: the failed physical rows (R150). -/
  coreRows : List (Nat × Nat) := []
  arrayRows : List (Nat × Nat) := []
  /-- Fused voltages of P0 to P4 in mV (R485). -/
  volts : List Nat := [750, 690, 650, 620, 600]
  /-- The factory codes of the calibrated blocks, 224 bytes each (R493). -/
  factory : List Bytes := []
  deriving DecidableEq, Repr, Inhabited

/-- The boot flash (R458). -/
structure Flash where
  /-- Slot images A and B. -/
  slots : List Bytes := [[], []]
  /-- Sensor profiles, by identifier (R247). -/
  profiles : List (Nat × SensorProfile) := []
  /-- The two copies of the repair record, the newer one first; none for a copy that fails its check (R446, R458, R459). -/
  repair : Option RepairRecord := some {}
  older : Option RepairRecord := some {}
  /-- A repair-record update is waiting for flash (R459). -/
  repairDue : Bool := false
  /-- Operations on flash, the one that writes it first; empty with a repair-record update due when that update is the one that writes. -/
  writing : List FlashOp := []
  /-- The flash profile: MEM_CFG values, DOM_CFG and the calibration reference (R458). -/
  profile : FlashProfile := {}
  deriving DecidableEq, Repr, Inhabited

/-- Watchtower and the protection unit. -/
structure Watch where
  /-- WT_STATUS.LOCKSTEP_OK, RELOAD 2, JTAG_REFUSED 8 saturating. -/
  lockstepOk : Bool := false
  reload : Nat := 0
  jtagRefused : Nat := 0
  /-- WT_BOOT.SLOT 8, SVN_RUNNING 8. -/
  slot : Nat := 0xFF
  svnRunning : Nat := 0
  /-- FW_VERSION of the running image (R381). -/
  fwVersion : Nat := 0
  /-- The REVOKE field of the running image (R463). -/
  revoke : Nat := 0
  /-- BODY_HASH of the running image (R466). -/
  bodyHash : Bytes := []
  /-- What the image has put into Watchtower memory (target 0) and the Belfry instruction store (1): target, byte offset and bytes of its sections
  (R430, R460, R462). -/
  loaded : List (Nat × Nat × Bytes) := []
  /-- The slot the ROM is verifying next: 0 A, 1 B, 2 staged; none when no boot is in progress (R462). -/
  booting : Option Nat := none
  /-- READY has been reported since the boot (R463). -/
  everReady : Bool := false
  /-- A commit has rewritten the running slot since the reset (R466). -/
  slotRewritten : Bool := false
  /-- Bytes of Dome held out of the zeroing for a staged image (R465). -/
  stagedHold : Nat := 0
  /-- WT_THERMAL.THROTTLE 8, WARN 8. -/
  throttle : Nat := 0x67
  warn : Nat := 0x5F
  /-- WT_TEMP[i], 16, signed units of 0.125 degrees C. -/
  temp : Tab 32 Int := Vector.replicate 32 0
  /-- DEVTIME at the last sample (R470). -/
  tempTime : Nat := 0
  /-- Sensors above WARN, so that the event comes once per crossing (R468). -/
  warned : List Nat := []
  /-- Throttled Steeples and the timebase count of their last step. -/
  throttled : List (Nat × Nat) := []
  /-- Steeples that have cooled and rise again, and the count of their last step. -/
  rising : List (Nat × Nat) := []
  /-- THERMTRIP_N is driven low (R468). -/
  tripped : Bool := false
  /-- The thirteen rails' last readings in mV, and samples in a row outside the window (R469). -/
  volt : Tab 13 Nat := Vector.replicate 13 0
  voltOut : Tab 13 Nat := Vector.replicate 13 0
  /-- The error log (256 records) and the event log (1,024 records) of R471. -/
  errLog : Log := {}
  evLog : Log := {}
  /-- PRT_ENTRY[e]; an unlisted entry is invalid. -/
  prt : List (Nat × PrtEntry) := []
  /-- PRT_STAGE[k], 128 each. -/
  prtStage : Tab 8 Nat := Vector.replicate 8 0
  /-- PRT_STATUS.LAST_STATUS, 16. -/
  prtStatus : Nat := 0
  /-- PRT_DENY_COUNT.COUNT 24 saturating, LAST_INIT 8. -/
  denyCount : Nat := 0
  denyLast : Nat := 0
  /-- Timebase counts of the last log of 0x0A10, 0x0108 and 0x010B, each logged at most once per second. -/
  lastLogged : List (Nat × Nat) := []
  /-- Retention memory. -/
  ret : Retention := {}
  deriving DecidableEq, Repr, Inhabited

/-! ## Host interface (chapter 14) -/

/-- A mailbox request in progress (R375, R378). -/
structure MbxReq where
  opcode : Nat := 0
  seq : Nat := 0
  tag : Nat := 0
  payload : Bytes := []
  /-- A long opcode has started its work and yielded (R378). -/
  started : Bool := false
  /-- The number of its take, by which requests take effect (R378). -/
  turn : Nat := 0
  /-- A response payload that waits because the function is in D3hot or the link is down (R489). -/
  answer : Option Bytes := none
  deriving DecidableEq, Repr, Inhabited

/-- A mailbox pair (R370 to R374). -/
structure Pair where
  /-- MBX_REQ_BASE, MBX_RSP_BASE: byte addresses, bits [11:0] zero. -/
  reqBase : Nat := 0
  rspBase : Nat := 0
  /-- MBX_CFG.ENABLE, RSP_LOG2 4, REQ_LOG2 4. -/
  enable : Bool := false
  rspLog2 : Nat := 1
  reqLog2 : Nat := 1
  /-- MBX_STATUS.ENABLED, FETCH_ERR, WRITE_ERR. -/
  enabled : Bool := false
  fetchErr : Bool := false
  writeErr : Bool := false
  /-- Ring indices, 16 each, free-running. -/
  reqHead : Nat := 0
  reqTail : Nat := 0
  rspHead : Nat := 0
  rspTail : Nat := 0
  /-- The SEQ the next message must carry; none when any will do (R377). -/
  expect : Option Nat := none
  /-- The request taken and not yet answered. -/
  cur : Option MbxReq := none
  deriving DecidableEq, Repr, Inhabited

/-- An entry of the host memory window (R387). -/
structure HostWin where
  valid : Bool := false
  write : Bool := false
  base : Nat := 0
  size : Nat := 0
  deriving DecidableEq, Repr, Inhabited

/-- One MSI-X table entry. -/
structure MsixEntry where
  addr : Nat := 0
  data : Nat := 0
  masked : Bool := true
  deriving DecidableEq, Repr, Inhabited

/-- The PCIe endpoint, the mailboxes and the device state. -/
structure Pci where
  /-- PCI_INT_STATUS_HI:LO, 64 cause bits. -/
  cause : Nat := 0
  /-- The pending-bit array, 64. -/
  pendingBits : Nat := 0
  /-- The MSI-X table. -/
  msix : Tab 64 MsixEntry := Vector.replicate 64 {}
  /-- PCI_SCRATCH, 32. -/
  scratch : Nat := 0
  /-- PCI_DISCARD.WRITES 16, BAR4_REFUSED 16, saturating. -/
  discards : Nat := 0
  bar4Refused : Nat := 0
  /-- PCI_BAR4_BASE.BASE, 12: DRAM address bits [39:28]. -/
  bar4Base : Nat := 0
  /-- BAR4's size in bytes, as the Resizable BAR capability was set: 256 MiB at reset. -/
  bar4Size : Nat := 0x1000_0000
  /-- The sixteen mailbox pairs. -/
  pairs : Tab 16 Pair := Vector.replicate 16 {}
  /-- The pair whose turn is next in the round-robin (R378). -/
  nextPair : Nat := 0
  /-- Requests taken so far (R378). -/
  takes : Nat := 0
  /-- HOST_WINDOW entries (R387). -/
  windows : Tab 64 HostWin := Vector.replicate 64 {}
  /-- The state of the device (R390). -/
  state : DevState := .booting
  /-- FATAL_STATUS of GET_STATE. -/
  fatalStatus : Nat := 0
  /-- Hokudan has started: requests are taken (R390, R492 step 3). -/
  hokudan : Bool := false
  /-- The event pair and the enabled sources (R386). -/
  eventPair : Nat := 0
  eventMask : Nat := 0
  /-- EVENTS_LOST, 32 saturating; the next event number, 32. -/
  eventsLost : Nat := 0
  eventNo : Nat := 0
  /-- Correctable and uncorrectable AER counts are the link's: poisoned completions sent through BAR4 (R435). -/
  aerPoisoned : Nat := 0
  /-- The link is up (R482, R490); the configuration space is kept across warm resets. -/
  linkUp : Bool := false
  /-- The function is in D3hot (R489). -/
  d3hot : Bool := false
  deriving DecidableEq, Repr, Inhabited

/-! ## Spire cores and macro runs (chapters 04 to 08) -/

/-- One entry of an accumulator file: the 96-bit integer of the exact path, or the FP32 patterns g and t of the ordered path
(R115, R119). -/
inductive Acc where
  | exact (acc : Int)
  | ord (g : Nat) (t : Option Nat)
  deriving DecidableEq, Repr, Inhabited

/-- A claimed run of tiles, from `first` up to but not including `last` (R178). -/
structure TileRun where
  /-- Work-list index of the macro the run is of. -/
  macroIx : Nat := 0
  /-- Its first tile in progress or to come, the tile behind its last, and whether it is an entry of the redo list (R178, R180). -/
  first : Nat := 0
  last : Nat := 0
  redo : Bool := false
  deriving DecidableEq, Repr, Inhabited

/-- What the monitors count (R209): values, saturations, small codes, non-zero inputs, invalid outputs. -/
structure Counts where
  v : Nat := 0
  sat : Nat := 0
  small : Nat := 0
  nonzero : Nat := 0
  invalid : Nat := 0
  deriving DecidableEq, Repr, Inhabited

/-- One masked write of a drain: byte address, the half written (0 low, 1 high, 2 the whole byte) and the value (R147). -/
structure MaskedByte where
  addr : Nat := 0
  half : Nat := 2
  value : Nat := 0
  deriving DecidableEq, Repr, Inhabited

/-- An accumulation group: its number in the tile, the passes issued, its entries by row and column (R143). -/
structure AccGroup where
  index : Nat := 0
  pass : Nat := 0
  acc : List (List Acc) := []
  deriving DecidableEq, Repr, Inhabited

/-- A drained group whose write-out is to retire (R176). -/
structure GroupOut where
  index : Nat := 0
  writes : List MaskedByte := []
  deriving DecidableEq, Repr, Inhabited

/-- A tile in progress (R172, R181). -/
structure TileProg where
  macroIx : Nat := 0
  tile : Nat := 0
  redo : Bool := false
  /-- The group that fills, and the group that waits for or is in the drain. -/
  fill : AccGroup := {}
  /-- The group that waits for or is in the drain. -/
  full : Option AccGroup := none
  /-- Drained groups whose write-outs are to retire, oldest first (R176). -/
  outs : List GroupOut := []
  /-- Groups written out. -/
  groupsDone : Nat := 0
  /-- What its drains have counted (R209). -/
  counts : Counts := {}
  deriving DecidableEq, Repr, Inhabited

/-- A tile whose operands the engine has fetched: the buffer, 0 to 2, of each of A, B and C with their scales, and the scale bytes and table entries
by source address (R94, R174). -/
structure Staged where
  macroIx : Nat := 0
  tile : Nat := 0
  a : Nat := 0
  b : Nat := 0
  c : Nat := 0
  side : List (Nat × Bytes) := []
  deriving DecidableEq, Repr, Inhabited

/-- What one array, or one quadrant of it, is doing: lane q is quadrant q, lane 4 the whole array (R139, R158). -/
structure Lane where
  /-- Work-list index of the macro it runs, or last claimed from. -/
  macroIx : Option Nat := none
  /-- Claimed runs, the one in progress first. -/
  runs : List TileRun := []
  /-- The tile whose groups fill, and the tiles before it while groups of theirs drain or write out, oldest first (R143). -/
  tile : Option TileProg := none
  prevs : List TileProg := []
  /-- The tiles fetched, oldest first (R94). -/
  staged : List Staged := []
  /-- A trap of the operand reader that a later cycle raises: the cycle, counted 32 late, and the status (R130, R141, R145). -/
  trap : Option (Nat × Nat) := none
  /-- The weight set loaded ahead: macro, tile, group and pass (R145). -/
  loaded : Option (Nat × Nat × Nat × Nat) := none
  /-- Cycle in which the last pass began, and the least number of cycles to the next (R144). -/
  lastPass : Nat := 0
  passGap : Nat := 0
  /-- The weight set that is active: false Ochre, true Umber (R145). -/
  umber : Bool := false
  deriving DecidableEq, Repr, Inhabited

/-- A Spire core. -/
structure Spc where
  /-- SPC_STATUS.RETIRED, SELFTEST, QUAD_MODE, LAST_STATUS 16. -/
  retired : Bool := false
  selftest : Bool := false
  quadMode : Bool := false
  lastStatus : Nat := 0
  /-- The failed physical rows, ascending (SPC_SPARE.FAIL_A, FAIL_B, FAILED). -/
  failed : List Nat := []
  /-- SPC_ERR_COUNT.PARITY_EVENTS 16, SPARE_SWITCHES 8, QUAD_ABORTS 8, saturating. -/
  parityEvents : Nat := 0
  spareSwitches : Nat := 0
  quadAborts : Nat := 0
  /-- SPC_QSTATUS[q]: ABORTED with STATUS 16. -/
  qstatus : Tab 4 (Option Nat) := Vector.replicate 4 none
  /-- The macros of its node for the rest of which the core's write port is fenced: context and macro (R153, R179). -/
  fenced : List (Nat × Nat) := []
  /-- Transient errors charged to rows: row and DEVTIME (R154). -/
  transient : List (Nat × Nat) := []
  /-- The row that the parity check under test named. -/
  suspect : Option Nat := none
  /-- A row marked failed that waits for its spare switch between macros (R152, R154). -/
  rowDue : Option Nat := none
  /-- The pair that asked for the self-test in progress (SELFTEST). -/
  testPair : Option Nat := none
  /-- DEVTIME of the last self-test (R155). -/
  lastTest : Nat := 0
  /-- The four quadrants, and the whole array as lane 4 (R139, R158). -/
  lanes : Tab 5 Lane := Vector.replicate 5 {}
  deriving DecidableEq, Repr, Inhabited

/-- Where a macro stands. -/
inductive MacroPhase where
  /-- Its tiles run: all of its work, or the split-K partials. -/
  | tiles
  /-- Split-K: every partial is complete and the reduction runs (R182). -/
  | reduce
  /-- Split-K: the sums are at DEST and the drain tiles wait for SPLITK_DRAIN_START. -/
  | reduced
  /-- Split-K: the drain tiles run. -/
  | drain
  /-- Every tile is complete; the verdicts are due (R211). -/
  | verdict
  /-- The flag word is due (R218). -/
  | flag
  | complete
  deriving DecidableEq, Repr, Inhabited

/-- A macro of a running node (R165 to R188, R209 to R225). -/
structure MacroRun where
  desc : Bytes := []
  phase : MacroPhase := .tiles
  /-- WSHIFT taken as input when the wide alternate is read under DUAL (R221). -/
  wideIn : Option Nat := none
  /-- The second run under RERUN_WIDE, with its WSHIFT (R216). -/
  rerun : Option Nat := none
  /-- The rerun is over. -/
  rerunDone : Bool := false
  /-- Tiles completed in the phase. -/
  done : List Nat := []
  /-- Tiles completed in the first run, as the record counts them. -/
  tilesDone : Nat := 0
  /-- The redo list: runs given up, lowest first (R179). -/
  redo : List TileRun := []
  /-- Tiles that the redo list has held, as the record counts them (R187). -/
  redoTiles : Nat := 0
  /-- Cores whose last claim returned nothing. -/
  exhausted : List Nat := []
  /-- Cores whose claim on a counter of another module waits for its reply (R402). -/
  claims : List Nat := []
  /-- What the monitors count in the first run, and in the rerun (R209, R216). -/
  counts : Counts := {}
  /-- What they count in the rerun (R216). -/
  counts2 : Counts := {}
  /-- The verdicts: over and under the limits, of the first run and of the rerun (R211, R216). -/
  overs : Bool := false
  under : Bool := false
  over2 : Bool := false
  under2 : Bool := false
  /-- DEVTIME of the first tile's start, of the last completion, of the verdict that started the rerun. -/
  tFirst : Option Nat := none
  tLast : Nat := 0
  tVerdict : Nat := 0
  /-- Nanoseconds that the rerun took (R187). -/
  rerunNs : Nat := 0
  /-- Time each core has waited for a staged B or E buffer, in ns (R186). -/
  stall : List (Nat × Nat) := []
  /-- The status of the macro (R187). -/
  status : Nat := 0
  deriving DecidableEq, Repr, Inhabited

/-- A running type 0x4 node: the macros that have started, by work-list index (R164). -/
structure SpireNode where
  macros : List (Nat × MacroRun) := []
  /-- The quadrants that aborted, in order, with their statuses (R159, R161). -/
  aborted : List (Nat × Nat) := []
  deriving DecidableEq, Repr, Inhabited

/-! ## Sensor ports, cameras and sensor control (chapter 09) -/

/-- An entry of a port's VC map (SPT_VC_MAP). -/
structure VcEntry where
  valid : Bool := false
  camera : Nat := 0
  vc : Nat := 0
  dataType : Nat := 0
  deriving DecidableEq, Repr, Inhabited

/-- A sensor port (R228 to R231, R257). -/
structure Port where
  /-- SPT_CFG: ENABLE, CPHY, LANES_M1 2, RATE 14, POLARITY 4, LANE_MAP 8. -/
  enable : Bool := false
  cphy : Bool := false
  lanesM1 : Nat := 0
  rate : Nat := 0
  polarity : Nat := 0
  laneMap : Nat := 0xE4
  /-- SPT_STATUS: LOCKED, DESKEWED, LAST_STATUS 16. -/
  locked : Bool := false
  deskewed : Bool := false
  lastStatus : Nat := 0
  /-- The virtual-channel map, SPT_VC_MAP. -/
  vcMap : Tab 4 VcEntry := Vector.replicate 4 {}
  /-- SPT_ERR_COUNT: 8 bits each, saturating. -/
  eccCorrected : Nat := 0
  headerUnc : Nat := 0
  crcErrors : Nat := 0
  unsupported : Nat := 0
  /-- A line start awaits its line end (R230). -/
  lineOpen : Bool := false
  deriving DecidableEq, Repr, Inhabited

/-- A line on its way to the RFE: its frame, its codes, its ring slot when it lies in the spill ring (R241), and whether it was in flight in a DMA
engine that failed (R448). -/
structure Line where
  frame : Nat := 0
  codes : List Nat := []
  slot : Option Nat := none
  lost : Bool := false
  deriving DecidableEq, Repr, Inhabited

/-- A frame of a camera, from its frame start to its metadata record (R232 to R242, R268, R278, R286). -/
structure Frame where
  num : Nat := 0
  rfe : Nat := 0
  dropped : Bool := false
  tFs : Nat := 0
  tFe : Option Nat := none
  tGroup : Nat := 0
  /-- Timebase count of the frame start, for FRAME_TIMEOUT. -/
  since : Nat := 0
  /-- The sensor's own frame number, from its frame start packet. -/
  sensorFn : Nat := 0
  /-- FLAGS of R286: REPAIRED, SHORT, LONG, SLIP, EPOCH_UNMATCHED, TIME_STEP, PSET_LATE. -/
  repaired : Bool := false
  short : Bool := false
  long : Bool := false
  slip : Bool := false
  unmatched : Bool := false
  timeStep : Bool := false
  psetLate : Bool := false
  /-- EPOCH of R286. -/
  epoch : Nat := 0
  /-- DROPS of R286. -/
  drops : Nat := 0
  /-- Lines that have arrived, and lines the RFE has read. -/
  arrived : Nat := 0
  /-- Lines repaired (R232). -/
  repairedLines : Nat := 0
  /-- Embedded-data lines seen (R254). -/
  embSeen : Nat := 0
  /-- Generic short packets kept, and those for which there was no room (R231). -/
  shortPkts : List Bytes := []
  shortLost : Nat := 0
  /-- The last line that arrived whole (R232). -/
  lastGood : List Nat := []
  /-- Lines read by the RFE: codes, in order. -/
  rows : List (List Nat) := []
  /-- The parameter set live for the frame, its EPOCH and TAG. -/
  pset : Bytes := []
  psetEpoch : Nat := 0
  psetTag : Nat := 0
  /-- START_PATH: false network, true classical; REASON; SWITCH_UNIT, none for all ones (R286). -/
  classical : Bool := true
  reason : Nat := 0
  switchUnit : Option Nat := none
  /-- Stripes of the network bound at the frame start, 0 with none; its SNE. -/
  stripes : Nat := 0
  stripeW : Nat := 0
  sne : Nat := 0
  /-- Unit results merged from the network path: unit, INT16 codes. -/
  merged : List (Nat × Bytes) := []
  /-- Row-groups returned (R305). -/
  returned : Nat := 0
  /-- The SNE's frame record of R315 has been written. -/
  sneDone : Bool := false
  /-- Per tap: the next row-group to write; a tap that has ended its frame. -/
  tapNext : Tab 4 Nat := Vector.replicate 4 0
  tapDone : Tab 4 Bool := Vector.replicate 4 false
  /-- The tap descriptors in force for the frame, and the ring buffer that each of its taps writes (R279, R281). -/
  taps : Tab 4 Bytes := Vector.replicate 4 []
  tapBuf : Tab 4 Nat := Vector.replicate 4 0
  /-- Its statistics block has been written (R285). -/
  statsDone : Bool := false
  /-- Where its statistics block lies, and the FLAGS written there (R285). -/
  statsAt : Nat := 0
  statsFlags : Nat := 0
  /-- Output lines replaced for parity in this frame (R290). -/
  parityLines : Nat := 0
  deriving DecidableEq, Repr, Inhabited

/-- A pending exposure request (R249 to R252). -/
structure ExpReq where
  /-- The 32-byte request, and whether COMPL is this camera's to write. -/
  body : Bytes := []
  epoch : Nat := 0
  /-- F', and whether it is later than TARGET. -/
  achieved : Nat := 0
  late : Bool := false
  /-- Rescheduled once already after a failure (R252). -/
  retried : Bool := false
  /-- Of a genlock group's request (R253). -/
  group : Bool := false
  /-- The camera is the one whose COMPL is written. -/
  named : Bool := true
  /-- Writes have begun; the exposure and the gain sequences that are done. -/
  begun : Bool := false
  expDone : Bool := false
  gainDone : Bool := false
  /-- The mailbox pair is answered at acceptance; the request came from a window or a mailbox alike. -/
  doneDev : Nat := 0
  deriving DecidableEq, Repr, Inhabited

/-- A completed request as the epoch rules remember it (R253, R254). -/
structure ExpSeen where
  achieved : Nat := 0
  epoch : Nat := 0
  coarse : Nat := 0
  again : Nat := 0
  written : Bool := false
  /-- Both attempts failed: the epoch is unknown from its frame on (R252). -/
  failed : Bool := false
  deriving DecidableEq, Repr, Inhabited

/-- A completion waiting to be written (R255). -/
structure ExpDone where
  req : ExpReq := {}
  status : Nat := 0
  deriving DecidableEq, Repr, Inhabited

/-- A SENSOR_XFER in progress. -/
structure Xfer where
  pair : Nat := 0
  read : Bool := false
  addr : Nat := 0
  n : Nat := 0
  data : Bytes := []
  deriving DecidableEq, Repr, Inhabited

/-- A row-group that the SNE may serve (R303, R304). -/
structure RowGroup where
  index : Nat := 0
  /-- Ready time and deadline on the timebase count. -/
  ready : Nat := 0
  deadline : Nat := 0
  /-- The lowest unstarted stripe, and units merged. -/
  next : Nat := 0
  merged : Nat := 0
  deriving DecidableEq, Repr, Inhabited

/-- The drain counts of one layer of a stripe network over a frame (R315). -/
structure LayerCount where
  layer : Nat := 0
  sat : Nat := 0
  small : Nat := 0
  nonzero : Nat := 0
  invalid : Nat := 0
  values : Nat := 0
  deriving DecidableEq, Repr, Inhabited

/-- A stripe network bound to a camera (R299, R306 to R315). -/
structure Net where
  /-- The 32-byte binding record and the 64-byte header. -/
  bindRec : Bytes := []
  header : Bytes := []
  /-- Its layers, as firmware read them at the binding. -/
  program : List NetLayer := []
  /-- The pair that waits for the weight load. -/
  pair : Option Nat := none
  /-- Its weights are loaded (R308). -/
  loaded : Bool := false
  /-- The camera is on the network path. -/
  active : Bool := false
  /-- Suspended after misses (R312), and being reloaded after an error (R313). -/
  suspended : Bool := false
  reloading : Bool := false
  /-- Refused at re-admission (R314). -/
  refused : Bool := false
  /-- Frame starts since the switch. -/
  sinceSwitch : Nat := 0
  /-- It has switched in the frame in progress, with this reason (R268). -/
  switched : Bool := false
  /-- REASON of the switch (R269). -/
  reason : Nat := 0
  /-- Timebase counts of the last deadline switches (R312). -/
  misses : List Nat := []
  /-- NETWORK_UNBIND takes effect at the next frame start (R306). -/
  unbindDue : Bool := false
  /-- Row-groups that the SNE may serve, oldest first (R303). -/
  groups : List RowGroup := []
  /-- The previous row-group's deadline (R303). -/
  lastDeadline : Nat := 0
  /-- The unbinding has taken effect; the network stays for the frames that began with it (R309, R315). -/
  ending : Bool := false
  /-- The layer program as loaded: nothing of a network streams from DRAM while it runs (R300). -/
  code : Bytes := []
  /-- Next entry of its ring of frame records (R315). -/
  ringNext : Nat := 0
  /-- For the frame record of R315. -/
  unitsNet : Nat := 0
  /-- MIN_SLACK of the record (R315). -/
  minSlack : Option Nat := none
  /-- The drains' counts by layer (R315). -/
  layers : List LayerCount := []
  /-- DEVTIME of the frame's last merge (R315). -/
  tDone : Nat := 0
  deriving DecidableEq, Repr, Inhabited

/-- A camera. -/
structure Cam where
  /-- The 64-byte binding of R384; empty when unbound. -/
  bind : Bytes := []
  /-- The binding waits for its port: the pair to answer, and the timebase count at which the wait began (R257). -/
  waiting : Option (Nat × Nat) := none
  /-- Its sensor's profile (R247). -/
  profile : SensorProfile := {}
  /-- RFE in use, and the one to use from the next frame start (R235). -/
  rfe : Nat := 0
  nextRfe : Option Nat := none
  /-- CAM_UNBIND takes effect at the next frame start (R235). -/
  unbindDue : Bool := false
  /-- Unbound at a frame start, with frames that its RFE has still to finish (R235). -/
  leaving : Bool := false
  /-- Stops at its next frame start with this status (R235, R257). -/
  stopDue : Option Nat := none
  /-- Stopped: no further frame is taken (R235, R257). -/
  stopped : Bool := false
  /-- The frame number of the last frame start, and whether there has been one. SPT_CAM_FRAME holds that of the last accepted. -/
  frameNo : Nat := 0
  started : Bool := false
  /-- SPT_CAM_FRAME: the frame number of the last accepted frame. -/
  lastAccepted : Nat := 0
  /-- DROPS, 8 saturating; frames dropped since the last delivered one. -/
  drops : Nat := 0
  dropsSince : Nat := 0
  /-- The frame being received is open; its frames not yet finished, oldest first. -/
  open_ : Bool := false
  /-- Its frames not yet finished, oldest first. -/
  frames : List Frame := []
  /-- Lines in the FIFO and the ring, in arrival order; the slot the next ring line takes; lines in the ring. -/
  lines : List Line := []
  /-- The slot that the next ring line takes (R241). -/
  ringNext : Nat := 0
  /-- Timebase counts of the last two frame starts and the last frame end, with the frame number of that end. -/
  fsLast : Nat := 0
  fsPrev : Option Nat := none
  feLast : Option (Nat × Nat) := none
  /-- Timebase counts of the last 16 frame starts and of the last 16 frame ends, oldest first (R50). -/
  fsTimes : List Nat := []
  feTimes : List Nat := []
  /-- A DEVTIME step has happened since the last stamp (R237). -/
  stepped : Bool := false
  /-- Frame starts that slipped, 16 saturating (R239). -/
  slips : Nat := 0
  /-- The last group number that a frame start of this member took (R239). -/
  lastG : Option Nat := none
  /-- EPOCH in effect for the last accepted frame, 16. -/
  epoch : Nat := 0
  /-- The last epoch given to an exposure request (R249). -/
  epochCounter : Nat := 0
  /-- Frames whose epoch matched no request, 16 saturating (R254). -/
  unmatched : Nat := 0
  /-- Exposure requests not yet completed, oldest first (R249). -/
  pending : List ExpReq := []
  /-- Completed requests as the epoch rules remember them (R253, R254). -/
  seen : List ExpSeen := []
  /-- Completions waiting to be written (R255). -/
  due : List ExpDone := []
  /-- Next entry of the exposure ring, and completions lost since the last written (R255). -/
  expRing : Nat := 0
  /-- Completions lost since the last written (R255). -/
  ringLost : Nat := 0
  /-- The request on the bus, and those that wait for the camera's write window. -/
  xfers : List Xfer := []
  /-- Next entries of the statistics and the metadata ring (R285, R286). -/
  statsNext : Nat := 0
  metaNext : Nat := 0
  /-- Entries of the statistics and the metadata ring, by position, that a node has consumed (R285). -/
  statsUsed : List Nat := []
  metaUsed : List Nat := []
  /-- The stripe network bound to the camera (R299, R306). -/
  net : Option Net := none
  deriving DecidableEq, Repr, Inhabited

/-- A genlock group (R238, R239, R253). -/
structure Genlock where
  /-- The anchor that the first member fixed: GENLOCK_IN, or a lead camera, once that is bound (R384). -/
  pin : Bool := false
  lead : Option Nat := none
  /-- Its members, its window in us (R238). -/
  members : List Nat := []
  window : Nat := 100
  /-- G, its timestamp (DEVTIME), and the timebase count of the last anchor. -/
  number : Nat := 0
  stamp : Nat := 0
  anchored : Option Nat := none
  /-- Timebase counts of the last 16 anchors, oldest first (R50). -/
  times : List Nat := []
  /-- The last epoch given to a request of the group (R253). -/
  epochCounter : Nat := 0
  deriving DecidableEq, Repr, Inhabited

/-- What an I3C bus is carrying out (R245, R248). -/
structure BusOp where
  cam : Nat := 0
  /-- 0 exposure sequence, 1 gain sequence, 2 a SENSOR_XFER. -/
  kind : Nat := 0
  /-- The request's epoch, the next entry of the sequence, the attempts made, and the timebase count of the last (R245). -/
  epoch : Nat := 0
  entry : Nat := 0
  tries : Nat := 0
  since : Nat := 0
  deriving DecidableEq, Repr, Inhabited

/-- The sensor-control unit (R244 to R256). -/
structure Scu where
  bus : Tab 8 (Option BusOp) := Vector.replicate 8 none
  /-- In-band interrupts passed to firmware: bus and address. -/
  ibi : List (Nat × Nat) := []
  /-- The IMU's ring: base and entries, the next entry, and the sample sequence number. -/
  imuRing : Option (Nat × Nat) := none
  imuNext : Nat := 0
  imuSeq : Nat := 0
  deriving DecidableEq, Repr, Inhabited

/-! ## Raw front-ends and egress (chapter 10) -/

/-- A parameter-set submission (R276). -/
structure PsetSub where
  addr : Nat := 0
  target : Nat := 0
  tag : Nat := 0
  deriving DecidableEq, Repr, Inhabited

/-- A tap of an RFE (R279, RFE_TAP_STATUS). -/
structure Tap where
  desc : Bytes := []
  /-- A descriptor that waits for the frame start. -/
  next : Option Bytes := none
  /-- BUFFER: the ring buffer of the last frame; and the one that the next frame takes (R281). -/
  buffer : Nat := 0
  turn : Nat := 0
  /-- TRUNCATED, and the low bits of the last frame's number. -/
  truncated : Nat := 0
  frameLo : Nat := 0
  /-- The egress frame in progress was truncated. -/
  cut : Bool := false
  /-- The tap's previous line of each plane (R290). -/
  prev : List (Nat × Bytes) := []
  deriving DecidableEq, Repr, Inhabited

/-- A raw front-end. -/
structure Rfe where
  enable : Bool := false
  camera : Nat := 0
  cfa : Nat := 0
  depth : Nat := 0x0C
  failed : Bool := false
  lastStatus : Nat := 0
  /-- The live set as R275 lays it out; none for the defaults of R291. -/
  live : Option Bytes := none
  /-- TAG of the live set (R276). -/
  liveTag : Nat := 0
  /-- The shadow, loaded and checked, with its submission; late once its target's frame start has passed. -/
  shadow : Option (PsetSub × Bytes) := none
  shadowLate : Bool := false
  /-- The submission being loaded (R277). -/
  loading : Option PsetSub := none
  /-- Submissions that wait, in order (R276). -/
  pending : List PsetSub := []
  /-- PARITY, FALLBACKS, PSET_REJECTS, STATS_LOST: 8 each, saturating. -/
  parity : Nat := 0
  fallbacks : Nat := 0
  rejects : Nat := 0
  statsLost : Nat := 0
  /-- Frames in a row with parity errors (R290). -/
  badFrames : Nat := 0
  /-- Its four taps. -/
  taps : Tab 4 Tap := Vector.replicate 4 {}
  deriving DecidableEq, Repr, Inhabited

/-- An egress port (RFE_EG_CFG). -/
structure Egress where
  enable : Bool := false
  contClk : Bool := false
  lanesM1 : Nat := 0
  rate : Nat := 0
  laneMap : Nat := 0xE4
  failed : Bool := false
  deriving DecidableEq, Repr, Inhabited

/-! ## Stripe network engines (chapter 11) -/

/-- An SNE array (SNE_ARRAY). -/
structure SneArray where
  retired : Bool := false
  selftest : Bool := false
  failed : List Nat := []
  transient : List (Nat × Nat) := []
  suspect : Option Nat := none
  rowDue : Option Nat := none
  testPair : Option Nat := none
  lastTest : Nat := 0
  deriving DecidableEq, Repr, Inhabited

/-- The unit in progress (R304). -/
structure SneUnit where
  cam : Nat := 0
  frame : Nat := 0
  group : Nat := 0
  stripe : Nat := 0
  deriving DecidableEq, Repr, Inhabited

/-- A stripe network engine. -/
structure Sne where
  failed : Bool := false
  lastStatus : Nat := 0
  arrays : Tab 4 SneArray := Vector.replicate 4 {}
  /-- PARITY, MISSES, STORE_UE, RELOADS: 8 each, saturating. -/
  parity : Nat := 0
  misses : Nat := 0
  storeUe : Nat := 0
  reloads : Nat := 0
  /-- The unit in progress (R304). -/
  unit : Option SneUnit := none
  /-- Images loaded in the weight store: image address, offset in the store, bytes. -/
  images : List (Nat × Nat × Nat) := []
  deriving DecidableEq, Repr, Inhabited

/-! ## Vision engines (chapters 12 and 13) -/

/-- What an engine makes of its hint (R361). -/
inductive HintUse where
  | none
  | used
  | stale
  | invalid
  deriving DecidableEq, Repr, Inhabited

/-- An operation of the flow or stereo engine as dispatched: the search window and whether the check runs. -/
structure FlowSetup where
  check : Bool := false
  mode : Nat := 0
  hint : HintUse := .none
  /-- Stereo: the disparity window. -/
  lo : Nat := 0
  hi : Nat := 0
  /-- Flow: the window's centre and radius at LC. -/
  cx : Int := 0
  cy : Int := 0
  sr : Nat := 0
  /-- Timestamp of the IMU sample used for the hint. -/
  tImu : Nat := 0
  deriving DecidableEq, Repr, Inhabited

/-- Counts of the statistics record (R362). -/
structure FlowCount where
  valid : Nat := 0
  texture : Nat := 0
  unique : Nat := 0
  occluded : Nat := 0
  range : Nat := 0
  deriving DecidableEq, Repr, Inhabited

/-- One of an engine's operand buffers: the band it serves, the lines fetched for it, and whether a word of them was uncorrectable (R94, R341). -/
structure VisBuf where
  band : Nat := 0
  lines : List (Nat × Bytes) := []
  bad : Bool := false
  deriving DecidableEq, Repr, Inhabited

/-- The node that an engine runs (R318, R339, R340). -/
structure VisRun where
  ctx : Nat := 0
  /-- The operation in progress, its PARAM resolved; none between operations. -/
  op : Option Bytes := none
  /-- Bands completed. -/
  band : Nat := 0
  /-- The operation as dispatched. -/
  setup : FlowSetup := {}
  /-- Its coefficient, mesh or pattern table as read at dispatch (R322). -/
  table : Bytes := []
  /-- What the engine has fetched, up to two bands ahead of the one in progress (R94); a flow or stereo operation's stay for its work area. -/
  bufs : List VisBuf := []
  /-- Its counts so far (R362). -/
  counts : FlowCount := {}
  /-- Records, kept features and full cells of the feature operation in progress. -/
  opFeatures : Nat := 0
  opFound : Nat := 0
  opFull : Nat := 0
  /-- OPS_DONE, SATURATED, FILLED, FEATURES, FOUND, OVERSIZE of R339. -/
  opsDone : Nat := 0
  saturated : Nat := 0
  filled : Nat := 0
  features : Nat := 0
  found : Nat := 0
  oversize : Nat := 0
  deriving DecidableEq, Repr, Inhabited

/-- A vision engine. -/
structure VisUnit where
  /-- VIS_STATUS: FAILED, SELFTEST, LAST_STATUS 16. -/
  failed : Bool := false
  selftest : Bool := false
  lastStatus : Nat := 0
  /-- VIS_ERR_COUNT: PARITY 8, UE_READS 8, OVERSIZE 16, saturating. -/
  parity : Nat := 0
  ueReads : Nat := 0
  oversize : Nat := 0
  /-- FLW_MODE, STR_MODE: MODE 2, REMAIN 16; HINT_STALE, HINT_INVALID, 8 saturating (units 4 and 5). -/
  mode : Nat := 1
  remain : Nat := 16
  hintStale : Nat := 0
  hintInvalid : Nat := 0
  /-- The pair that asked for the self-test in progress. -/
  testPair : Option Nat := none
  /-- The node that it runs. -/
  run : Option VisRun := none
  deriving DecidableEq, Repr, Inhabited

/-! ## Peer links (chapter 15) -/

/-- An entry of the import table (R400, R408): a beacon, or a work counter, of a local graph, by its number within the graph. -/
structure Import where
  counter : Bool := false
  graph : Nat := 0
  /-- Source-module mask, 4. -/
  mask : Nat := 0
  /-- The graph-relative beacon or counter index. -/
  target : Nat := 0
  deriving DecidableEq, Repr, Inhabited

/-- A counter mapping (R402): counter `index` of a graph's range stands for an import of the home module. -/
structure CtrMap where
  graph : Nat := 0
  index : Nat := 0
  home : Nat := 0
  imp : Nat := 0
  deriving DecidableEq, Repr, Inhabited

/-- A RELAY node in progress (R405): the counts of its receiver's UNIT_BEACON and of CREDIT_BEACON that it holds, units sent, and whether the
frame's last unit or gap marker has gone. -/
structure Relay where
  ctx : Nat := 0
  units : Nat := 0
  credits : Nat := 0
  sent : Nat := 0
  overs : Bool := false
  deriving DecidableEq, Repr, Inhabited

/-- A peer port (PLK_STATUS, PLK_ERR_COUNT). -/
structure Peer where
  /-- PORT_UP has enabled the port, with the fallbacks it allows. -/
  enabled : Bool := false
  allowHalf : Bool := false
  allowTwo : Bool := false
  /-- The link is up, retraining, or lost (R406, R407). -/
  up : Bool := false
  retrain : Bool := false
  lost : Bool := false
  /-- The port failed to train (R406). -/
  failed : Bool := false
  /-- The neighbour's mesh number, the lanes in use, and whether the rate is halved (R394, R406). -/
  neighbour : Nat := 0
  lanes : Nat := 0
  halfRate : Bool := false
  /-- LAST_STATUS, 16. -/
  lastStatus : Nat := 0
  /-- REPLAYS 16, RETRAINS 8, BAD_IMPORT 8, saturating. -/
  replays : Nat := 0
  retrains : Nat := 0
  badImport : Nat := 0
  /-- Timebase counts of the replays of the last millisecond. -/
  recent : List Nat := []
  /-- Timebase counts at which training, or the retrain, began. -/
  since : Nat := 0
  /-- The pair whose PORT_UP waits for the port to train. -/
  pair : Option Nat := none
  /-- What waits for the lanes through a retrain, oldest first (R407). -/
  held : List Output := []
  /-- The graphs that were admitted when the port trained again after a loss: it carries nothing for them (R407). -/
  barred : List Nat := []
  /-- The RELAY node in progress (R405). -/
  relay : Option Relay := none
  deriving DecidableEq, Repr, Inhabited

/-! ## Field side (chapter 16) -/

/-- What a frame that awaits its ACK belongs to (R420, R428). -/
structure FieldJob where
  /-- The pair to answer; none for what firmware sends on its own. -/
  pair : Option Nat := none
  /-- The channel that the frames are for. -/
  chan : Nat := 0
  /-- The frames still to send, the one in progress first: bytes 0x01 to 0x1B but SEQ. -/
  frames : List Bytes := []
  /-- Attempts made at the first frame, its last SEQ, and the timebase count at which it was sent. -/
  tries : Nat := 0
  seq : Nat := 0
  sentAt : Nat := 0
  /-- The first status other than 0 that an ACK of the job has carried. -/
  status : Nat := 0
  deriving DecidableEq, Repr, Inhabited

/-- FLD_CHAN[n], the last status frame, the slot of R427 and the stored block of R428. -/
structure FieldChan where
  state : Nat := 0
  trips : Nat := 0
  ramps : Nat := 0
  discarded : Nat := 0
  status : Bytes := []
  statusAddr : Nat := 0
  block : Option Bytes := none
  deriving DecidableEq, Repr, Inhabited

/-- A field-message node in progress (R425, R426). -/
structure FieldRun where
  ctx : Nat := 0
  sent : Nat := 0
  tLast : Nat := 0
  deriving DecidableEq, Repr, Inhabited

/-- The host-side link unit. -/
structure Field where
  up : Bool := false
  boot : Bool := false
  selftestFail : Bool := false
  vfieldMv : Nat := 0
  lastStatus : Nat := 0
  /-- CRC_ERR, GAP, UNKNOWN, MALFORMED: 8 each, saturating. -/
  crcErr : Nat := 0
  gap : Nat := 0
  unknown : Nat := 0
  malformed : Nat := 0
  /-- The link has been declared down since it was last up. -/
  lost : Bool := false
  /-- SEQ of the last accepted frame, CRC failures in a row, timebase count of the last good frame. -/
  rxSeq : Option Nat := none
  crcRun : Nat := 0
  lastGood : Nat := 0
  /-- SEQ of the next frame. -/
  txSeq : Nat := 0
  /-- Frames on the fibre to Lantern, oldest first: sent and not yet taken (R414). -/
  sent : List Bytes := []
  /-- The TOKEN that the next firmware frame carries. -/
  token : Nat := 0
  /-- FLD_CHAN and what goes with each channel. -/
  chans : Tab 6 FieldChan := Vector.replicate 6 {}
  /-- Frames that await their turn or their ACK, in order (R420, R428). -/
  jobs : List FieldJob := []
  /-- Field-message nodes in progress (R425). -/
  runs : List FieldRun := []
  deriving DecidableEq, Repr, Inhabited

/-- The states of a Lantern channel (R418). -/
inductive ChanState where
  | off | armed | run | ramp | tripped
  deriving DecidableEq, Repr, Inhabited

/-- A set-point that a channel has accepted. -/
structure Setpoint where
  target : Int := 0
  vlimit : Nat := 0
  alimit : Nat := 0
  frame : Nat := 0
  tag : Nat := 0
  /-- Timebase count at which its frame was complete. -/
  arrived : Nat := 0
  deriving DecidableEq, Repr, Inhabited

/-- A Lantern channel: motors 0 to 3, coolers 4 and 5. -/
structure LChan where
  state : ChanState := .off
  /-- The enable pin (R412). -/
  enable : Bool := false
  /-- The configuration block of R423. -/
  block : Bytes := List.replicate 64 0
  /-- Set-points not yet used, newest first; the one in use; and loop steps since the latter arrived. -/
  pending : List Setpoint := []
  use : Option Setpoint := none
  age : Nat := 0
  /-- Timebase count of the last accepted set-point, restarting the watchdog. -/
  lastSet : Nat := 0
  /-- A SET_POSITION that takes effect at the next loop step. -/
  reref : Option Int := none
  /-- Profile position in 1/65,536 count, and profile velocity in 1/20,000 count per second. -/
  pos : Int := 0
  vel : Int := 0
  /-- Encoder count and step count. -/
  enc : Int := 0
  steps : Int := 0
  /-- Sum of errors and the last error: 1/65,536 count for a motor, codes for a cooler. -/
  sumE : Int := 0
  prevE : Int := 0
  /-- The current command in 2^-24 mA (two-phase PWM mode); the duty in 1/256 (cooler). -/
  command : Int := 0
  duty : Int := 0
  /-- Pins as last latched: current codes, TEMP_CODE, limit inputs as levels, the over-current comparator. -/
  isa : Nat := 2048
  isb : Nat := 2048
  therm : Nat := 0
  limP : Bool := false
  limN : Bool := false
  overs : Bool := false
  /-- A limit trip of LIMP or of LIMN, motion toward which stays refused after CLEAR_TRIP while that input is active (R419). -/
  blockP : Bool := false
  blockN : Bool := false
  /-- The set-point in use was clamped to the limits (R418). -/
  clamped : Bool := false
  /-- Set-points discarded under R418, and the timebase count of the last 0x080C event. -/
  discards : Nat := 0
  lastDiscard : Option Nat := none
  deriving DecidableEq, Repr, Inhabited

/-- Lantern's stage of start-up (R412, R415). -/
inductive LStage where
  | reset | selftest | running
  deriving DecidableEq, Repr, Inhabited

/-- The field die. -/
structure Lantern where
  stage : LStage := .reset
  /-- BOOT: LINK_ACK has not been received since the reset. -/
  boot : Bool := true
  /-- The self-test failed, and the supply last measured, in mV (R416). -/
  selftestFail : Bool := false
  vfieldMv : Nat := 0
  /-- CRC_ERR, GAP, UNKNOWN, MALFORMED: 16 each, saturating. -/
  crcErr : Nat := 0
  gap : Nat := 0
  unknown : Nat := 0
  malformed : Nat := 0
  /-- SEQ of the last accepted frame, and of the next one sent (R415). -/
  rxSeq : Option Nat := none
  txSeq : Nat := 0
  /-- The loop-step counter, 32. -/
  step : Nat := 0
  /-- Its six channels. -/
  chans : Tab 6 LChan := Vector.replicate 6 {}
  deriving DecidableEq, Repr, Inhabited

/-! ## Calibration, clocks, power, resets (chapter 19) -/

/-- A change of a Steeple's operating point (R486): the new point and where the change stands. -/
inductive DvfsStep where
  | none
  /-- The voltage was written; READ_VOUT is awaited, from this timebase count. -/
  | vout (point since : Nat)
  /-- Issue is paused and the PLL relocks. -/
  | relock (point : Nat) (lower : Bool)
  deriving DecidableEq, Repr, Inhabited

/-- CLK_STEEPLE[s]. -/
structure Steeple where
  gated : Bool := true
  paused : Bool := false
  point : Nat := 0
  voutMv : Nat := 0
  change : DvfsStep := .none
  /-- A regulator fault holds the Steeple at its point (R484). -/
  vrmFault : Bool := false
  deriving DecidableEq, Repr, Inhabited

/-- A lane of a calibrated block: its codes, quality, discards in a row, the hold of R497, and when it is measured again. -/
structure CalLane where
  codes : List Nat := []
  quality : Nat := 0
  /-- Eye height in mV of a receiver's lane. -/
  height : Nat := 0
  /-- Results discarded in a row, and the hold that the third brings (R497). -/
  discards : Nat := 0
  held : Bool := false
  /-- Below its floor (0x0A22). -/
  low : Bool := false
  /-- When it is measured again (R497). -/
  retryAt : Option Nat := none
  deriving DecidableEq, Repr, Inhabited

/-- A calibrated block (CAL_BLOCK[i], R494 to R502). -/
structure CalBlock where
  /-- It has been calibrated since reset, and since its present enable. -/
  done : Bool := false
  live : Bool := false
  /-- A run is in progress; the last run began from a seed; results discarded in a row (R495, R497). -/
  running : Bool := false
  seeded : Bool := false
  discards : Nat := 0
  /-- Its lanes. -/
  lanes : List (Nat × CalLane) := []
  /-- Sensor reading at the start of the last run, DEVTIME of that run, and the codes as CAL_READ returns them. -/
  temp : Int := 0
  dev : Nat := 0
  codes : Bytes := []
  /-- Passing results that wait for a gap: when measured, the lanes, the codes image. -/
  waiting : Option (Nat × List (Nat × CalLane) × Bytes) := none
  /-- A port's seed for its next enable (R502). -/
  seed : Option Bytes := none
  deriving DecidableEq, Repr, Inhabited

/-- The sources that hold the device in reset (R490). -/
inductive ResetHold where
  | pins
  | supply
  | clock
  | trip
  deriving DecidableEq, Repr, Inhabited

/-- CLK_RESET_CAUSE and what holds the device in reset. -/
structure Resets where
  cause : Nat := 0
  count : Nat := 0
  /-- RESET_N or PERST_N is low at reset (R483). -/
  held : List ResetHold := [.pins]
  deriving DecidableEq, Repr, Inhabited

/-- Clocks, gates, calibration and the memory controllers' windows. -/
structure Power where
  /-- CLK_STATUS: REFCLK_SYS_OK, PCIE_REFCLK_OK, PL_REFCLK_OK, XTAL_OK, PMBUS_OK. -/
  refSys : Bool := false
  refPcie : Bool := false
  refPl : Bool := false
  xtal : Bool := false
  pmbusOk : Bool := false
  /-- CLK_STEEPLE. -/
  steeples : Tab 8 Steeple := Vector.replicate 8 {}
  /-- Gates of SNEs, RFEs and vision engines. -/
  sneGated : Tab 4 Bool := Vector.replicate 4 true
  rfeGated : Tab 16 Bool := Vector.replicate 16 true
  visGated : Tab 6 Bool := Vector.replicate 6 true
  /-- Units whose ungating is in progress (R488). -/
  ungating : List GateUnit := []
  /-- CAL_CFG.REF 2, THRESH 6. -/
  calRef : Nat := 2
  thresh : Nat := 10
  /-- The reference was missing at start-up (R493). -/
  refMissing : Bool := false
  /-- The eighteen calibrated blocks (R494). -/
  blocks : Tab 18 CalBlock := Vector.replicate 18 {}
  /-- Per memory interface: maintenance windows held; a ZQ calibration that waits to be latched (R500). -/
  windows : Tab 4 Nat := Vector.replicate 4 0
  zq : Tab 4 Bool := Vector.replicate 4 false
  zqDone : Tab 4 Nat := Vector.replicate 4 0
  deriving DecidableEq, Repr, Inhabited

/-- The strap balls (R393): the mesh number, sampled at reset. -/
structure Straps where
  module : Nat := 0
  deriving DecidableEq, Repr, Inhabited

/-! ## Faults and refusals -/

/-- A fault of the model. No command of the manual stops the block; the type has the one name that the fixed interface asks for and
no meaning answers with it. -/
inductive Fault where
  /-- Raised by no meaning: every command of the manual has an effect or is discarded. Safe. -/
  | none
  deriving DecidableEq, Repr, Inhabited

/-- A refusal of the model. -/
inductive Refusal where
  /-- A command whose meaning the model does not give, by its mnemonic. Safe. -/
  | notModelled (mnemonic : String)
  /-- A JTAG debug command while DEBUG_OPEN is blown: the manual opens debug access and says nothing of what it does (R457). Raised by
  `execJtagDebugCommand`. Safe. -/
  | debugAccess
  deriving DecidableEq, Repr, Inhabited

/-! ## The state -/

/-- The block. -/
structure State where
  clock : Clock := {}
  bf : Belfry := {}
  mem : MemSys := {}
  spc : Tab 128 Spc := Vector.replicate 128 {}
  /-- Running Spire nodes, by context index. -/
  spire : List (Nat × SpireNode) := []
  /-- Sensor ports, cameras, genlock groups and sensor control (chapter 09). -/
  ports : Tab 8 Port := Vector.replicate 8 {}
  cams : Tab 16 Cam := Vector.replicate 16 {}
  genlock : Tab 8 Genlock := Vector.replicate 8 {}
  scu : Scu := {}
  /-- Raw front-ends and egress ports (chapter 10). -/
  rfe : Tab 16 Rfe := Vector.replicate 16 {}
  egress : Tab 2 Egress := Vector.replicate 2 {}
  /-- Stripe network engines (chapter 11). -/
  sne : Tab 4 Sne := Vector.replicate 4 {}
  /-- Vision engines (chapters 12 and 13). -/
  vis : Tab 6 VisUnit := Vector.replicate 6 {}
  /-- Host interface and mailboxes (chapter 14). -/
  pci : Pci := {}
  /-- Peer ports, imports and counter maps (chapter 15). -/
  peer : Tab 3 Peer := Vector.replicate 3 {}
  imports : List (Nat × Import) := []
  ctrMaps : List CtrMap := []
  /-- The host's link unit, and the field die behind it (chapter 16). -/
  field : Field := {}
  lantern : Lantern := {}
  /-- Reliability (chapter 17), and Watchtower with its fuses and flash (chapter 18). -/
  reliab : Reliab := {}
  watch : Watch := {}
  fuses : Fuses := {}
  flash : Flash := {}
  /-- Clocks, gates and calibration; resets; strap balls (chapter 19). -/
  power : Power := {}
  resets : Resets := {}
  straps : Straps := {}
  /-- The model's own: what the block has put on its pins, links and buses, oldest first. -/
  out : List Output := []
  /-- The model's own: how many free values have been drawn. -/
  fresh : Nat := 0
  /-- The commands that wait, first in first out. -/
  pending : List Instr := []
  deriving DecidableEq, Repr, Inhabited

/-- The block right after power-on reset, with RESET_N and PERST_N low. -/
def State.reset : State := {}

end Sys2Proof.Machine
end

