-- ==== Sys2Proof/Machine/Operands.lean ====
section
/-! DEFINITION. The layouts that the commands' operands and the stores hold, read field by field: node contexts, wait and
signal entries, multicast descriptors, stream descriptors and the request payloads. -/
namespace Sys2Proof.Machine
open Sys2Proof

/-! ## Node contexts (R37, R39, R40, R47) -/

def Ctx.header (c : Ctx) : Nat := fld c.prog 0x00 4
/-- HEADER [11:0]. -/
def Ctx.index (c : Ctx) : Nat := bits c.header 0 12
/-- HEADER [19:12]. -/
def Ctx.graph (c : Ctx) : Nat := bits c.header 12 8
/-- HEADER [23:20], the type code of R35. -/
def Ctx.type (c : Ctx) : Nat := bits c.header 20 4
def Ctx.waitN (c : Ctx) : Nat := bits c.header 24 4
def Ctx.sigN (c : Ctx) : Nat := bits c.header 28 4
def Ctx.control (c : Ctx) : Nat := fld c.prog 0x04 4
def Ctx.enable (c : Ctx) : Bool := bit c.control 0
def Ctx.cancellable (c : Ctx) : Bool := bit c.control 1
/-- MISS_POLICY: 0 CONTINUE, 1 CANCEL_NODE, 2 CANCEL_INSTANCE. -/
def Ctx.missPolicy (c : Ctx) : Nat := bits c.control 2 2
def Ctx.priority (c : Ctx) : Nat := bits c.control 4 4
def Ctx.copy (c : Ctx) : Nat := bits c.control 8 2
def Ctx.deadline (c : Ctx) : Nat := fld c.prog 0x08 4
def Ctx.predict (c : Ctx) : Nat := fld c.prog 0x0C 4
def Ctx.unitMask (c : Ctx) : Nat := fld c.prog 0x50 16
def Ctx.work (c : Ctx) : Nat := fld c.prog 0x60 8
def Ctx.workAddr (c : Ctx) : Nat := bits c.work 0 40
/-- Elements of the work list, WORK_COUNT_M1 + 1. -/
def Ctx.workCount (c : Ctx) : Nat := bits c.work 40 16 + 1
def Ctx.complAddr (c : Ctx) : Nat := bits (fld c.prog 0x68 8) 0 40
def Ctx.anchor (c : Ctx) : Nat := fld c.prog 0x70 8
/-- ANCHOR_KIND: 0 camera frame start, 1 camera frame end, 2 genlock, 3 timer. -/
def Ctx.anchorKind (c : Ctx) : Nat := bits c.anchor 0 4
def Ctx.anchorCam (c : Ctx) : Nat := bits c.anchor 4 4
def Ctx.anchorPeriod (c : Ctx) : Nat := bits c.anchor 8 32
def Ctx.fuse (c : Ctx) : Nat := fld c.prog 0x78 8
def Ctx.fuseSlots (c : Ctx) : Nat := bits c.fuse 40 6 + 1
def Ctx.fuseStages (c : Ctx) : Nat := bits c.fuse 55 2 + 1
def Ctx.inline (c : Ctx) : Bytes := sub c.prog 0x80 64

/-- A wait entry: beacon, OBSERVE, required count (R39). -/
structure Wait where
  beacon : Nat
  observe : Bool
  count : Nat
  deriving DecidableEq, Repr, Inhabited

/-- A signal entry: beacon or group index, module, GROUP, increment (R40). -/
structure Sig where
  beacon : Nat
  module : Nat
  group : Bool
  inc : Nat
  deriving DecidableEq, Repr, Inhabited

/-- The wait entry a 32-bit word spells (R39). -/
def waitOf (w : Nat) : Wait := { beacon := bits w 0 14, observe := bit w 14, count := bits w 16 16 + 1 }

/-- The signal entry a 32-bit word spells (R40). -/
def sigOf (w : Nat) : Sig :=
  { beacon := if bit w 16 then bits w 0 8 else bits w 0 14, module := bits w 14 2, group := bit w 16
    inc := bits w 17 15 + 1 }

def Ctx.waits (c : Ctx) : List Wait := (List.range c.waitN).map fun k => waitOf (fld c.prog (0x10 + 4 * k) 4)
def Ctx.sigs (c : Ctx) : List Sig := (List.range c.sigN).map fun k => sigOf (fld c.prog (0x30 + 4 * k) 4)

/-- Source nodes: RFE stages and SNE networks (R36). -/
def Ctx.isSource (c : Ctx) : Bool := c.type == 1 || c.type == 2

/-- The node is over in its instance. -/
def NodeState.overs : NodeState → Bool
  | .done | .cancelled | .faulted => true
  | _ => false

/-- STATE as R37 codes it. -/
def NodeState.code : NodeState → Nat
  | .idle => 0
  | .waiting => 1
  | .ready => 2
  | .running => 3
  | .done => 4
  | .cancelled => 5
  | .faulted => 6

/-- A unit a node may name (R35). -/
inductive UnitRef where
  | spc (n : Nat)
  | rfe (n : Nat)
  | sne (n : Nat)
  | vis (n : Nat)
  | dma (n : Nat)
  | eg (n : Nat)
  | pl (n : Nat)
  | fieldLink
  deriving DecidableEq, Repr, Inhabited

/-- The units of a context's unit set (R35, R37). -/
def Ctx.units (c : Ctx) : List UnitRef :=
  let n := bits c.unitMask 0 4
  match c.type with
  | 1 => [.rfe n]
  | 2 => [.sne n]
  | 3 => [.vis n]
  | 4 => (unitsWhere 128 fun k => bit c.unitMask k).map .spc
  | 5 => [.dma n]
  | 6 => [.eg n]
  | 7 => [.pl n]
  | 8 => [.fieldLink]
  | _ => []

/-- The 256 bytes of a context as CONTEXT_READ and a save region hold it (R37). -/
def Ctx.bytes (c : Ctx) : Bytes :=
  padTo 192 c.prog ++ leBytes 1 c.state.code ++ leBytes 1 (b2n c.missed + 2 * b2n c.signalled) ++ leBytes 2 c.lastStatus
    ++ leBytes 4 c.frame ++ leBytes 8 c.tReady ++ leBytes 8 c.tStart ++ leBytes 8 c.tDone ++ leBytes 4 c.lastTile
    ++ leBytes 4 c.runs ++ leBytes 4 c.misses ++ leBytes 4 c.cancels ++ zeros 16

/-- A context as restored from a save region: STATE IDLE, FLAGS zero, the rest as saved (R41's eviction). -/
def ctxOfSaved (b admitted : Bytes) : Ctx :=
  { prog := b.take 192, admitted := admitted, lastStatus := fld b 0xC2 2, frame := fld b 0xC4 4, tReady := fld b 0xC8 8
    tStart := fld b 0xD0 8, tDone := fld b 0xD8 8, lastTile := fld b 0xE0 4, runs := fld b 0xE4 4, misses := fld b 0xE8 4
    cancels := fld b 0xEC 4 }

/-- The port a type 0x7 context names. -/
def Ctx.port (c : Ctx) : Nat := bits c.unitMask 0 4

/-- A type 0x7 node of kind RELAY, with the GROUP and the RECEIVER that it reads (R399). -/
def Ctx.relay (c : Ctx) : Bool := c.type == 7 && fld c.inline 0 1 == 1
def Ctx.relayGroup (c : Ctx) : Nat := fld c.inline 1 1
def Ctx.relayRecv (c : Ctx) : Nat := fld c.inline 2 1

/-! ## Multicast descriptors (R57, R58) -/

def McGroup.policy (g : McGroup) : Nat := bits (fld g.desc 0x00 1) 0 2
def McGroup.recvN (g : McGroup) : Nat := bits (fld g.desc 0x01 1) 0 4 + 1
def McGroup.holdLimit (g : McGroup) : Nat := fld g.desc 0x02 2
/-- SOURCE [0]: a camera tap produces. -/
def McGroup.isTap (g : McGroup) : Bool := bit (fld g.desc 0x04 1) 0
def McGroup.engine (g : McGroup) : Nat := bits (fld g.desc 0x04 1) 1 4
def McGroup.chunk (g : McGroup) : Nat := fld g.desc 0x08 4
def McGroup.freeBeacon (g : McGroup) : Nat := bits (fld g.desc 0x0C 2) 0 14
def McGroup.srcAddr (g : McGroup) : Nat := bits (fld g.desc 0x10 8) 0 40
def McGroup.srcBytes (g : McGroup) : Nat := fld g.desc 0x18 4
def McGroup.slotBase (g : McGroup) (r : Nat) : Nat := bits (fld g.desc (0x20 + 16 * r) 8) 0 40
def McGroup.slots (g : McGroup) (r : Nat) : Nat := bits (fld g.desc (0x20 + 16 * r) 8) 40 6 + 1
def McGroup.slotBytes (g : McGroup) (r : Nat) : Nat := fld g.desc (0x28 + 16 * r) 4
def McGroup.unitBeacon (g : McGroup) (r : Nat) : Nat := bits (fld g.desc (0x2C + 16 * r) 2) 0 14
def McGroup.creditBeacon (g : McGroup) (r : Nat) : Nat := bits (fld g.desc (0x2E + 16 * r) 2) 0 14

/-- The slot address of a receiver's next item (R59). -/
def McGroup.slotAddr (g : McGroup) (r delivered : Nat) : Nat :=
  g.slotBase r + (delivered % g.slots r) * g.slotBytes r

/-! ## Stream descriptors (R88) -/

/-- A stream descriptor, its 64 bytes read as R88 lays them out. -/
structure Stream where
  start : Nat
  ndimM1 : Nat
  gather : Bool
  noAlloc : Bool
  rawcomp : Bool
  wcomp : Bool
  reserved : Bool
  run : Nat
  counts : List Nat
  strides : List Int
  bufBase : Nat
  bufSize : Nat
  index : Nat
  deriving DecidableEq, Repr, Inhabited

/-- The stream descriptor that 64 bytes spell. -/
def streamOf (b : Bytes) : Stream :=
  let w := fld b 0x00 8
  { start := bits w 0 40, ndimM1 := bits w 40 3, gather := bit w 43, noAlloc := bit w 44, rawcomp := bit w 45
    wcomp := bit w 46
    reserved := bits w 47 17 != 0 || bits (fld b 0x28 8) 40 24 != 0 || bits (fld b 0x30 8) 40 24 != 0
      || bits (fld b 0x38 8) 40 24 != 0
    run := fld b 0x08 2 + 1
    counts := (List.range 5).map fun k => fld b (0x0A + 2 * k) 2 + 1
    strides := (List.range 5).map fun k => toSigned 32 (fld b (0x14 + 4 * k) 4)
    bufBase := bits (fld b 0x28 8) 0 40, bufSize := bits (fld b 0x30 8) 0 40, index := bits (fld b 0x38 8) 0 40 }

/-- Runs of a stream: the product of the counts of its outer dimensions. -/
def Stream.runs (d : Stream) : Nat := (d.counts.take d.ndimM1).foldl (· * ·) 1

/-- Bytes of a stream. -/
def Stream.total (d : Stream) : Nat := d.run * d.runs

/-- The offset of a run from START: run number `k` in walk order, dimension 1 fastest; the outermost dimension takes its
offset from the index table when GATHER is set (R88). -/
def streamOff (gather : Bool) (table : List Nat) : Nat → List Nat → List Int → Int
  | _, [], _ => 0
  | _, _, [] => 0
  | k, c :: cs, st :: sts =>
    let i := k % c
    let step : Int := if gather && cs.isEmpty then (table.getD i 0 : Nat) else i
    step * st + streamOff gather table (k / c) cs sts

/-- The address of the first byte of run `k`. -/
def Stream.runAddr (d : Stream) (table : List Nat) (k : Nat) : Int :=
  d.start + streamOff d.gather table k (d.counts.take d.ndimM1) (d.strides.take d.ndimM1)

/-- The address of byte `off` of the stream in walk order. -/
def Stream.addrOf (d : Stream) (table : List Nat) (off : Nat) : Int :=
  d.runAddr table (off / d.run) + (off % d.run : Nat)

end Sys2Proof.Machine
end

