-- ==== Sys2Proof/Config.lean ====
section
/-! DEFINITION. The values that the manual leaves open, as constants without a body: nothing can evaluate them. -/
namespace Sys2Proof

/-- The `n`-th free byte that the block draws: a value that nothing constrains. -/
opaque Config.freeByte : Nat → Byte

/-- What a byte of another module's memory reads as through a peer window, by the timebase count and the internal address (R397): it
belongs to that module. -/
opaque Config.remoteByte : Nat → Nat → Byte

/-- Code `n` of what a stripe network, by the bytes of its header, weights and layer program, makes of one unit's converted input: the layer program's
encoding belongs to the compiler and the firmware (R26, R137, R297, R298). -/
opaque Config.networkCode (image input : List Byte) (n : Nat) : BitVec 16

/-- What an 8-byte entry of the index before entropy-coded weights says of its block: the offset from the start of the coded weights, the bytes stored,
and whether the block is a raw copy (R101 names the index and does not lay it out). -/
opaque Config.weightEntry (entry : List Byte) : Nat × Nat × Bool

/-- What the bytes of a coded block decode to; none for a block that holds an undefined code (R101, R102). -/
opaque Config.weightDecode (coded : List Byte) : Option (List Byte)

/-- What a raw tap's coder predicts for the next code of a block from those that the block decodes to so far, by mode (R99 gives the residual step alone). -/
opaque Config.rawPredict (mode : Nat) (decoded : List Nat) : Int

/-- The coded form of a block of a raw frame, by mode and the codes that it decodes to (R98 to R100 do not lay it out). -/
opaque Config.rawCode (mode : Nat) (decoded : List Nat) : List Byte

/-- Byte `n` of what a compressed raw buffer decodes to where it does not hold a block as a tap stored it. -/
opaque Config.rawDecode (buffer : List Byte) (n : Nat) : Byte

/-- The physical row of a DRAM address on its interface (R442). -/
opaque Config.dramRow (addr : Nat) : Nat

/-- The scale of block `j` of column `p` of an E panel in an MX format: the descriptor, which has no field for it, is `d` (R166, R183, R522). -/
opaque Config.panelScale (d : List Byte) (p j : Nat) : Byte

/-- What the drains of a layer count while such a network makes a unit: saturated, small, non-zero and invalid values, and all of them, for kinds 0 to 4
(R209, R226). -/
opaque Config.networkCount (image input : List Byte) (layer kind : Nat) : Nat

/-- Lantern's design revision, VERSION of LINK_STATUS (R416). -/
opaque Config.lanternVersion : Byte

end Sys2Proof
end

