-- ==== Sys2Proof/Machine/Mem.lean ====
section
/-! DEFINITION. A store as a canonical list of cells: addresses strictly rising, no cell holding what an unlisted
address reads as (zero). Both the 40-bit internal space of R69 and host memory are held this way. -/
namespace Sys2Proof.Machine
open Sys2Proof

/-- What an address that no cell lists reads as: zero, as start-up leaves every store (R103; log entry 3). -/
def memEmpty : Byte := 0

/-- The byte at an address. -/
def memGet : List Host.Cell → Nat → Byte
  | [], _ => memEmpty
  | (k, v) :: m, a => if k = a then v else memGet m a

/-- The store with one byte written, in canonical form. -/
def memSet : List Host.Cell → Nat → Byte → List Host.Cell
  | [], a, b => if b = memEmpty then [] else [(a, b)]
  | (k, v) :: m, a, b =>
    if a < k then (if b = memEmpty then (k, v) :: m else (a, b) :: (k, v) :: m)
    else if a = k then (if b = memEmpty then m else (a, b) :: m)
    else (k, v) :: memSet m a b

/-- `n` bytes from address `a`. -/
def memRead (m : List Host.Cell) (a : Nat) : Nat → Bytes
  | 0 => []
  | n + 1 => memGet m a :: memRead m (a + 1) n

/-- The store with a string of bytes written from address `a`. -/
def memWrite (m : List Host.Cell) (a : Nat) : Bytes → List Host.Cell
  | [] => m
  | b :: bs => memWrite (memSet m a b) (a + 1) bs

/-- The store with every byte of `[lo, lo + n)` zero: the cells of the range are dropped. -/
def memClear (m : List Host.Cell) (lo n : Nat) : List Host.Cell :=
  m.filter fun c => c.1 < lo || lo + n ≤ c.1

/-- Addresses rise strictly from at least `lo`, and no cell holds what an unlisted address reads as. -/
def memWfFrom : Nat → List Host.Cell → Bool
  | _, [] => true
  | lo, (k, v) :: m => lo ≤ k && v != memEmpty && memWfFrom (k + 1) m

/-- The canonical form of a store. -/
def memWf (m : List Host.Cell) : Bool := memWfFrom 0 m

end Sys2Proof.Machine
end

