-- ==== Sys2Proof/Machine/Registers.lean ====
section
/-! DEFINITION. What the block's registers and its status report: capacities, health, voted beacons, binding and network records, and
the word that a read of each register of BAR0 and BAR2 returns. -/
namespace Sys2Proof.Machine
open Sys2Proof

/-! ## Capacities (R69, R74, R85, R87, R156) -/

/-- Installed bytes of one memory interface, by its CAPACITY code (R85). -/
def capacityBytes (code : Nat) : Nat :=
  match code with
  | 1 => 2 * 2 ^ 30
  | 2 => 4 * 2 ^ 30
  | 3 => 8 * 2 ^ 30
  | 4 => 12 * 2 ^ 30
  | 5 => 16 * 2 ^ 30
  | _ => 0

/-- The memory interfaces in use, lowest first. -/
def State.interfaces (s : State) : List Nat := unitsWhere 4 fun m => (s.mem.cfg.at m).populated

/-- In-line ECC is enabled (on every populated interface or on none, R87). -/
def State.ecc (s : State) : Bool := s.interfaces.any fun m => (s.mem.cfg.at m).eccEn

/-- The end of the DRAM region: installed capacity, less one eighth with in-line ECC (R69, R87). -/
def State.dramEnd (s : State) : Nat :=
  let full := (s.interfaces.map fun m => capacityBytes (s.mem.cfg.at m).capacity).sum
  if s.ecc then full / 8 * 7 else full

/-- Bytes of Dome scratchpad (R74). -/
def State.scratchBytes (s : State) : Nat := (8 - s.mem.cacheEighths) * 0x60_0000

/-- A core is out of service: retired, or without its Steeple's DMA engine (R70, R156, R448). -/
def State.coreOut (s : State) (c : Nat) : Bool := (s.spc.at c).retired || (s.mem.dma.at (c / 16)).failed

/-- The scratchpad granules in service: those of the present split that are not retired. -/
def State.granulesInService (s : State) : Nat :=
  s.scratchBytes / 4096 - (s.mem.retiredGranules.filter (· < s.scratchBytes / 4096)).length

/-! ## Health (R447, R449) -/

/-- The number a health state is coded with in R382 and R386. -/
def Health.code : Health → Nat
  | .green => 0
  | .amber => 1
  | .crimson => 2

/-- A unit's health in a tally: 0 Green, 1 Amber, 2 Crimson. -/
def unitHealth (amber crimson : Bool) : Nat := if crimson then 2 else b2n amber

/-- Arrays in service: not lost and not in self-test. -/
def Sne.inService (x : Sne) : Nat := if x.failed then 0 else (x.arrays.toList.filter fun a => !a.retired && !a.selftest).length

/-- An SNE is Crimson when it has failed, Amber with fewer than four arrays in service (R314, R449). -/
def Sne.health (x : Sne) : Nat := unitHealth (decide (x.inService < 4)) x.failed

/-- The health of every unit that reports one (R447): cores, SNEs, RFEs, engines, DMA engines with their Steeples, memory interfaces, peer
ports, the field side, the beacon fabric, regulators, calibrated blocks and spare-less rows. -/
def State.unitHealths (s : State) : List Nat :=
  (s.spc.toList.map fun x => unitHealth false x.retired)
    ++ (s.sne.toList.map Sne.health)
    ++ (s.rfe.toList.map fun x => unitHealth false x.failed)
    ++ (s.vis.toList.map fun x => unitHealth false x.failed)
    ++ (s.mem.dma.toList.map fun x => unitHealth false x.failed)
    ++ (s.mem.cfg.toList.map fun x => unitHealth false x.trainFailed)
    ++ (s.peer.toList.map fun x => unitHealth (x.up && (x.halfRate || x.lanes == 2)) (x.lost || x.failed))
    ++ [unitHealth false (s.field.lost || s.field.selftestFail), unitHealth (s.bf.maskedLane != 0) false]
    ++ (s.power.steeples.toList.map fun x => unitHealth x.vrmFault false)
    ++ (s.power.blocks.toList.map fun x => unitHealth (x.live && x.lanes.any fun l => l.2.held || l.2.low) false)
    ++ (s.reliab.wornKept.map fun _ => 1)

/-- The device's health (R449). -/
def State.deviceHealth (s : State) : Health :=
  if s.vis.toList.any (·.failed) || s.sne.toList.any (·.failed) || !s.reliab.camStopped.isEmpty || s.field.lost || s.field.selftestFail
  then .crimson
  else if s.unitHealths.any (· != 0) || s.mem.retired != 0 || !s.mem.retiredGranules.isEmpty || !s.bf.retiredCtx.isEmpty
      || s.power.refMissing then .amber
  else .green

/-! ## Voted beacons (R46) -/

/-- The beacon at an index, as its lanes hold it. -/
def State.beacon (s : State) (b : Nat) : Beacon := (aGet s.bf.beacons b).getD {}

/-- One lane's value: 0 A, 1 B, otherwise C. -/
def Beacon.lane (x : Beacon) : Nat → Nat
  | 0 => x.a
  | 1 => x.b
  | _ => x.c

/-- The beacon with one lane upset. -/
def Beacon.upset (x : Beacon) (u : LaneUpset) : Beacon :=
  match u.lane with
  | 0 => { x with a := u.value }
  | 1 => { x with b := u.value }
  | _ => { x with c := u.value }

/-- The two-out-of-three vote, or the vote of the two lanes that are not masked (`masked` as MASKED_LANE codes it): the value,
the lane that disagrees, if one does, and whether no two lanes agree. -/
def Beacon.vote (x : Beacon) (masked : Nat) : Nat × Option Nat × Bool :=
  if masked = 0 then
    if x.a = x.b then (x.a, if x.c = x.a then none else some 2, false)
    else if x.a = x.c then (x.a, some 1, false)
    else if x.b = x.c then (x.b, some 0, false)
    else (x.a, none, true)
  else if masked = 1 then (x.b, none, x.b != x.c)
  else if masked = 2 then (x.a, none, x.a != x.c)
  else (x.a, none, x.a != x.b)

/-- The voted value as the fabric reports it (BCN_VALUE). -/
def State.beaconValue (s : State) (b : Nat) : Nat := ((s.beacon b).vote s.bf.maskedLane).1

/-! ## The binding record of a camera (R384) -/

def bCam (b : Bytes) : Nat := bits (fld b 0 1) 0 4
def bRfe (b : Bytes) : Nat := bits (fld b 1 1) 0 4
def bPort (b : Bytes) : Nat := bits (fld b 2 1) 0 3
def bCphy (b : Bytes) : Bool := bit (fld b 2 1) 3
def bLanesM1 (b : Bytes) : Nat := bits (fld b 2 1) 4 2
def bVc (b : Bytes) : Nat := bits (fld b 3 1) 0 4
def bType (b : Bytes) : Nat := fld b 4 1
def bCfa (b : Bytes) : Nat := bits (fld b 5 1) 0 3
def bRate (b : Bytes) : Nat := fld b 6 2
def bW (b : Bytes) : Nat := fld b 8 2 + 1
def bH (b : Bytes) : Nat := fld b 0x0A 2 + 1
def bProfile (b : Bytes) : Nat := fld b 0x0C 2
def bBus (b : Bytes) : Nat := bits (fld b 0x0E 1) 0 3
def bAddr (b : Bytes) : Nat := bits (fld b 0x0F 1) 0 7
def bPolarity (b : Bytes) : Nat := fld b 0x10 1
def bLaneMap (b : Bytes) : Nat := fld b 0x11 1
def bGroup (b : Bytes) : Nat := bits (fld b 0x12 1) 0 3
def bMember (b : Bytes) : Bool := bit (fld b 0x12 1) 3
def bLead (b : Bytes) : Bool := bit (fld b 0x12 1) 4
def bPin (b : Bytes) : Bool := bit (fld b 0x12 1) 5
def bEmbedded (b : Bytes) : Bool := bit (fld b 0x13 1) 0
def bTimeoutMs (b : Bytes) : Nat := fld b 0x14 2
def bWindowUs (b : Bytes) : Nat := let v := fld b 0x16 2; if v = 0 then 100 else v
def bSpill (b : Bytes) : Nat := bits (fld b 0x18 8) 0 40
def bSpillFrames (b : Bytes) : Nat := bits (fld b 0x18 8) 40 2 + 1
def bStats (b : Bytes) : Nat := bits (fld b 0x20 8) 0 40
def bStatsBlocks (b : Bytes) : Nat := bits (fld b 0x20 8) 40 4 + 1
def bMeta (b : Bytes) : Nat := bits (fld b 0x28 8) 0 40
def bMetaEntries (b : Bytes) : Nat := bits (fld b 0x28 8) 40 6 + 1
def bExpRing (b : Bytes) : Nat := bits (fld b 0x30 8) 0 40
def Cam.bound (c : Cam) : Bool := !c.bind.isEmpty
/-- The camera is bound and takes frames. -/
def Cam.live (c : Cam) : Bool := c.bound && c.waiting.isNone && !c.stopped

/-- Lines in the ring. -/
def Cam.spilling (c : Cam) : Bool := c.lines.any fun l => l.slot.isSome

/-! ## The binding record and the header of a stripe network (R299, R306) -/

def nCam (r : Bytes) : Nat := bits (fld r 0 1) 0 4
def nSne (r : Bytes) : Nat := bits (fld r 1 1) 0 2
def nRank (r : Bytes) : Nat := bits (fld r 2 1) 0 4
def nLineNs (r : Bytes) : Nat := fld r 4 4
def nFrameNs (r : Bytes) : Nat := fld r 8 4
def nImage (r : Bytes) : Nat := bits (fld r 0x10 8) 0 40
def hNetId (h : Bytes) : Nat := fld h 0 2
def hCfa (h : Bytes) : Nat := bits (fld h 2 1) 0 3
def hInFmt (h : Bytes) : Nat := bits (fld h 3 1) 0 4
def hSw (h : Bytes) : Nat := fld h 4 2 + 1
def hHalo (h : Bytes) : Nat := fld h 6 1
def hVt (h : Bytes) : Nat := fld h 7 1
def hVb (h : Bytes) : Nat := fld h 8 1
def hQpolicy (h : Bytes) : Nat := bits (fld h 9 1) 0 2
def hLayers (h : Bytes) : Nat := fld h 0x0A 2 + 1
def hMacs (h : Bytes) : Nat := fld h 0x0C 4
def hWeights (h : Bytes) : Nat := fld h 0x10 4
def hSb (h : Bytes) : Nat := fld h 0x14 4
def hWeightOff (h : Bytes) : Nat := fld h 0x20 4
def hProgOff (h : Bytes) : Nat := fld h 0x24 4
def hProgBytes (h : Bytes) : Nat := fld h 0x28 4
def hCheck (h : Bytes) : Nat := fld h 0x2C 4
/-- A sum of fractions. -/
def fracAdd (x y : Nat × Nat) : Nat × Nat := (x.1 * y.2 + y.1 * x.2, x.2 * y.2)

/-- MACS_PP x P of a binding, in MACs per second, as a fraction (R301). -/
def frameLoad (k : Cam) (r h : Bytes) : Nat × Nat := (hMacs h * bW k.bind * bH k.bind * 1000000000, nFrameNs r)

/-- MACS_PP x W / LINE_NS of a binding, in MACs per second, as a fraction (R302). -/
def lineLoad (k : Cam) (r h : Bytes) : Nat × Nat := (hMacs h * bW k.bind * 1000000000, nLineNs r)

/-- A binding as admission sees it: camera, record, header. -/
abbrev NetRef := Nat × Bytes × Bytes

/-- Bindings on an SNE, in ascending RANK, then camera (R314). -/
def State.netsOn (s : State) (sn : Nat) : List NetRef :=
  let all := (List.range 16).filterMap fun c => match (s.cams.at c).net with
    | some n => if nSne n.bindRec = sn then some (c, n.bindRec, n.header) else none
    | none => none
  (List.range 16).flatMap fun rank => all.filter fun x => nRank x.2.1 == rank

/-! ## Bit fields -/

/-- A register's word from its fields: (lowest bit, value). -/
def word (fs : List (Nat × Nat)) : Nat := (fs.foldl (fun acc f => acc + f.2 * 2 ^ f.1) 0) % 2 ^ 32

/-- The failed-row map of an array: FAIL_B [17:12], FAIL_A [11:6], FAILED [1:0]; 0x3F for none (SPC_SPARE, SNE_ARRAY). -/
def failWord (failed : List Nat) : Nat :=
  word [(12, failed.getD 1 0x3F), (6, failed.getD 0 0x3F), (0, min failed.length 2)]

/-- s of R150: failed rows above the tap, which lies below the physical row of logical row 31. -/
def sparesInPath (failed : List Nat) : Nat :=
  if failed.getD 0 64 ≤ 31 then (if failed.getD 1 64 ≤ 32 then 2 else 1) else 0

/-! ## Identity, interrupts, management (chapters 14, 17, 18, 19) -/

/-- Free node contexts, and free beacons: those neither in use nor retired. -/
def State.ctxFree (s : State) : Nat := 4096 - s.bf.ctxs.length - s.bf.retiredCtx.length

/-- Beacons that no admitted graph's image or group allocates (R42). -/
def State.bcnUsed (s : State) : Nat :=
  (s.bf.graphs.map fun p => if p.2.parked then 0 else p.2.image.beacons.length).sum
    + (s.bf.groups.map fun p => 2 * p.2.recvN).sum

def State.bcnFree (s : State) : Nat := 16384 - s.bcnUsed

/-- Units are in service once start-up has tested them and the device is READY (R162, R316, R492; DEDUCED from the registers' reset values). -/
def State.inReady (s : State) : Bool := s.pci.state == .ready

/-- Cores and arrays in service, c and a of R29: one in self-test is out of service meanwhile (R154, R313). -/
def State.coresIn (s : State) : Nat := if s.inReady then (unitsWhere 128 fun k => !s.coreOut k && !(s.spc.at k).selftest).length else 0
def State.arraysIn (s : State) : Nat := if s.inReady then (s.sne.toList.map Sne.inService).sum else 0

/-- DEV_STATE as R390 codes it. -/
def DevState.code : DevState → Nat
  | .booting => 0
  | .ready => 1
  | .recovery => 2
  | .fatal => 3

/-- An entry of the protection table as R475 lays it out. -/
def PrtEntry.value (e : PrtEntry) : Nat :=
  b2n e.valid * 2 ^ 127 + b2n e.lock * 2 ^ 126 + b2n e.read * 2 ^ 125 + b2n e.write * 2 ^ 124 + e.initId * 2 ^ 112 + e.initMask * 2 ^ 104
    + e.lastPage * 2 ^ 28 + e.firstPage

/-- The registers at offsets below 0x00_0000 + 0x2_0000: identity, causes, scratch, discards, BAR4, MSI-X table and pending bits. -/
def State.regPci (s : State) (off : Nat) : Nat :=
  let p := s.pci
  if 0x1_0000 ≤ off ∧ off < 0x1_0400 then
    let e := p.msix.at ((off - 0x1_0000) / 16)
    match off % 16 with
    | 0 => bits e.addr 0 32
    | 4 => bits e.addr 32 32
    | 8 => e.data
    | _ => b2n e.masked
  else match off with
    | 0x000 => word [(16, 0x7316), (8, bits s.fuses.stepping 0 8)]
    | 0x100 => bits p.cause 0 32
    | 0x104 => bits p.cause 32 32
    | 0x110 => p.scratch
    | 0x114 => word [(16, p.discards), (0, p.bar4Refused)]
    | 0x118 => bits (p.bar4Base * 2 ^ 28) 0 32
    | 0x11C => bits (p.bar4Base * 2 ^ 28) 32 32
    | 0x1_8000 => bits p.pendingBits 0 32
    | 0x1_8004 => bits p.pendingBits 32 32
    | _ => 0

/-- Watchtower's registers, and the protection unit's. -/
def State.regWatch (s : State) (off : Nat) : Nat :=
  let w := s.watch
  let h := s.unitHealths
  if 0x02_2000 ≤ off ∧ off < 0x02_2080 then ofSigned 16 (w.temp.at ((off - 0x02_2000) / 4))
  else if 0x04_0000 ≤ off ∧ off < 0x04_0080 then bits (setBits (setBits (w.prtStage.at ((off - 0x04_0000) / 16)) 120 4 0) 56 48 0) (8 * (off % 16)) 32
  else if 0x04_1000 ≤ off ∧ off < 0x04_3000 then
    bits (((aGet w.prt ((off - 0x04_1000) / 16)).getD {}).value) (8 * (off % 16)) 32
  else match off with
    | 0x02_0000 => word [(31, b2n w.lockstepOk), (29, w.reload), (28, b2n s.fuses.debugOpen), (8, w.jtagRefused)]
    | 0x02_0004 => word [(24, w.slot), (12, s.fuses.svn), (8, s.fuses.revoked), (0, w.svnRunning)]
    | 0x02_0008 => word [(8, w.throttle), (0, w.warn)]
    | 0x02_0010 => bits s.clock.devtime 0 32
    | 0x02_0014 => s.clock.latchedHi
    | 0x02_1000 => word [(30, s.reliab.health.code), (16, min (h.filter (· == 2)).length 255), (8, min (h.filter (· == 1)).length 255),
                         (0, min (s.reliab.spares.map fun x => x.2.2).sum 255)]
    | 0x04_0084 => word [(16, 512 - (w.prt.filter fun e => e.2.valid).length), (0, w.prtStatus)]
    | 0x04_0088 => word [(8, w.denyCount), (0, w.denyLast)]
    | _ => 0

/-- Belfry's registers. -/
def State.regBelfry (s : State) (off : Nat) : Nat :=
  let b := s.bf
  let health := if b.fatal then 2 else b2n (b.maskedLane != 0 || !b.retiredCtx.isEmpty)
  if 0x08_1000 ≤ off ∧ off < 0x08_3000 then (aGet b.shedCount ((off - 0x08_1000) / 4)).getD 0
  else if 0x08_4000 ≤ off ∧ off < 0x09_4000 then s.beaconValue ((off - 0x08_4000) / 4)
  else match off with
    | 0x08_0000 => word [(31, b2n b.fatal), (16, s.ctxFree), (8, b.graphs.length), (2, health), (1, b2n b.lockstepOk), (0, b2n b.ready)]
    | 0x08_0010 => word [(16, b.disagree), (4, b.maskedLane)]
    | 0x08_0020 => b.missCount
    | 0x08_0024 => b.skipCount
    | 0x08_0028 => b.cancelCount
    | 0x08_002C => b.overflowCount
    | _ => 0

/-- Sensor ports and cameras. -/
def State.regSensor (s : State) (off : Nat) : Nat :=
  if off < 0x10_2000 then
    let p := s.ports.at ((off - 0x10_0000) / 0x400)
    match (off - 0x10_0000) % 0x400 with
    | 0x00 => word [(31, b2n p.enable), (30, b2n p.cphy), (28, p.lanesM1), (14, p.rate), (8, p.polarity), (0, p.laneMap)]
    | 0x04 => word [(31, b2n p.locked), (30, b2n p.deskewed), (0, p.lastStatus)]
    | 0x20 => word [(24, p.eccCorrected), (16, p.headerUnc), (8, p.crcErrors), (0, p.unsupported)]
    | k => if 0x10 ≤ k ∧ k < 0x20 then
        let e := p.vcMap.at ((k - 0x10) / 4)
        word [(31, b2n e.valid), (20, e.camera), (16, e.vc), (0, e.dataType)]
      else 0
  else if 0x10_4000 ≤ off ∧ off < 0x10_5000 then
    let c := s.cams.at ((off - 0x10_4000) / 0x100)
    match off % 0x100 with
    | 0 => c.lastAccepted
    | 4 => word [(31, b2n c.bound), (30, b2n c.spilling), (24, if c.bound then c.rfe else 0), (16, c.drops), (0, c.epoch)]
    | _ => 0
  else 0

/-- Raw front-ends and egress ports. -/
def State.regRfe (s : State) (off : Nat) : Nat :=
  if 0x1C_0000 ≤ off then
    let e := s.egress.at ((off - 0x1C_0000) / 0x1000)
    if off % 0x1000 = 0 ∧ off < 0x1C_2000 then
      word [(31, b2n e.enable), (30, b2n e.contClk), (28, e.lanesM1), (14, e.rate), (0, e.laneMap)] else 0
  else
    let n := (off - 0x18_0000) / 0x4000
    let r := s.rfe.at n
    let net := (s.cams.toList.find? fun c => c.bound && c.rfe == n).bind (·.net)
    match (off - 0x18_0000) % 0x4000 with
    | 0x00 => word [(31, b2n r.enable), (24, r.camera), (20, r.cfa), (0, r.depth)]
    | 0x04 => word [(31, b2n r.failed), (30, b2n (match net with
        | some x => x.active
        | none => false)), (28, match net with
        | some x => nSne x.bindRec
        | none => 0), (27, b2n net.isSome), (0, r.lastStatus)]
    | 0x08 => word [(31, b2n r.shadow.isSome), (16, min (r.pending.length + b2n r.loading.isSome) 4), (0, match r.live with
        | some b => fld b 2 2
        | none => 0)]
    | 0x0C => word [(24, r.parity), (16, r.fallbacks), (8, r.rejects), (0, r.statsLost)]
    | k => if 0x10 ≤ k ∧ k < 0x20 then
        let t := r.taps.at ((k - 0x10) / 4)
        word [(31, b2n (bit (fld t.desc 0 1) 0)), (28, t.buffer), (16, t.truncated), (0, t.frameLo)]
      else 0

/-- A load over a x 1.28 x 10^12, in thousandths, at most the field's 1,023 (R301, R302). -/
def permille (load : Nat × Nat) (a : Nat) : Nat := min (load.1 * 1000 / max (load.2 * a * 1280000000000) 1) 1023

/-- Stripe network engines. -/
def State.regSne (s : State) (off : Nat) : Nat :=
  let n := (off - 0x20_0000) / 0x1000
  let x := s.sne.at n
  let nets := s.netsOn n
  let mask := fun (l : List NetRef) => (l.map fun y => 2 ^ y.1).sum
  let sum := fun (f : Cam → Bytes → Bytes → Nat × Nat) => (nets.map fun y => f (s.cams.at y.1) y.2.1 y.2.2).foldl fracAdd (0, 1)
  if 4 ≤ n then 0
  else match off % 0x1000 with
    | 0x000 => word [(31, b2n x.failed), (30, b2n (x.arrays.toList.any (·.selftest))), (29, b2n x.unit.isSome), (26, if s.inReady then x.inService else 0),
                     (24, x.health), (0, x.lastStatus)]
    | 0x004 => word [(16, permille (sum frameLoad) x.inService), (0, permille (sum lineLoad) x.inService)]
    | 0x008 => word [(16, mask (nets.filter fun y => match (s.cams.at y.1).net with
        | some m => m.suspended
        | none => false)), (0, mask nets)]
    | 0x00C => word [(24, x.parity), (16, x.misses), (8, x.storeUe), (0, x.reloads)]
    | k => if 0x10 ≤ k ∧ k < 0x20 then
        let a := x.arrays.at ((k - 0x10) / 4)
        word [(31, b2n a.retired), (30, b2n a.selftest), (24, sparesInPath a.failed)] + failWord a.failed
      else 0

/-- Spire cores. -/
def State.regSpire (s : State) (off : Nat) : Nat :=
  let n := (off - 0x28_0000) / 0x4000
  let x := s.spc.at n
  if 128 ≤ n then 0
  else match (off - 0x28_0000) % 0x4000 with
    | 0x0000 => word [(31, b2n x.retired), (30, b2n x.selftest), (29, b2n x.quadMode), (28, b2n (x.lanes.toList.any fun l => l.macroIx.isSome)),
                      (26, if x.retired then 2 else 0), (0, x.lastStatus)]
    | 0x0004 => word [(16, 0x0C), (8, 64 + sparesInPath x.failed), (0, sparesInPath x.failed)]
    | 0x0008 => failWord x.failed
    | 0x000C => word [(16, x.parityEvents), (8, x.spareSwitches), (0, x.quadAborts)]
    | 0x2000 => if n % 16 = 0 then
        word [(16, ((unitsWhere 16 fun k => s.inReady && !s.coreOut (n + k) && !(s.spc.at (n + k)).selftest).map (2 ^ ·)).sum),
              (1, b2n (s.power.steeples.at (n / 16)).gated)]
      else 0
    | k => if 0x10 ≤ k ∧ k < 0x20 then
        match x.qstatus.at ((k - 0x10) / 4) with
        | some st => word [(31, 1), (0, st)]
        | none => 0
      else 0

/-- Requests that a DMA engine has in flight. -/
def DmaEngine.tags (e : DmaEngine) : Nat :=
  e.draining.length + match e.item with
    | some it => it.reqs.length
    | none => 0

/-- Dome, DMA engines and bank spares. -/
def State.regDome (s : State) (off : Nat) : Nat :=
  if 0x48_1000 ≤ off ∧ off < 0x48_1300 ∧ off % 0x40 = 0 then
    let e := s.mem.dma.at ((off - 0x48_1000) / 0x40)
    word [(31, b2n e.fault), (30, b2n e.cancelDrain), (16, e.tags), (0, e.lastStatus)]
  else if 0x48_2000 ≤ off ∧ off < 0x48_2100 then
    let b := (off - 0x48_2000) / 4
    word [(8, s.reliab.domRetired.at b), (0, ((s.reliab.spares.filter fun x => x.1 == 0 && x.2.1 == b).map fun x => x.2.2).sum)]
  else match off with
    | 0x48_0000 => s.mem.cacheEighths
    | 0x48_0004 => word [(16, s.granulesInService), (0, s.mem.retired)]
    | 0x48_0008 => s.mem.errCount
    | 0x48_000C => word [(18, s.reliab.scrubMs), (0, s.reliab.passes)]
    | 0x48_0010 => word [(16, s.reliab.corrected), (8, s.reliab.uncorrectable), (0, s.reliab.poisoned)]
    | _ => 0

/-- Vision engines; the flow and stereo engines are units 4 and 5. -/
def State.regVision (s : State) (off : Nat) : Nat :=
  let u := (off - 0x50_0000) / 0x1000
  let x := s.vis.at u
  if 6 ≤ u then 0
  else match off % 0x1000 with
    | 0x000 => word [(31, b2n x.failed), (30, b2n x.selftest), (29, b2n (match x.run with
        | some r => r.op.isSome
        | none => false)), (24, if x.failed then 2 else 0), (0, x.lastStatus)]
    | 0x004 => if u < 4 then word [(24, x.parity), (16, x.ueReads), (0, x.oversize)]
      else word [(24, x.parity), (16, x.ueReads), (8, x.hintStale), (0, x.hintInvalid)]
    | 0x008 => match x.run with
      | some r => word [(31, 1), (16, r.opsDone % 4096), (0, r.ctx)]
      | none => 0
    | 0x00C => if u < 4 then 0 else word [(30, x.mode), (0, x.remain)]
    | _ => 0

/-- Memory interfaces. -/
def State.regMem (s : State) (off : Nat) : Nat :=
  let m := (off - 0x58_0000) / 0x1000
  let c := s.mem.cfg.at m
  if 4 ≤ m then 0
  else match off % 0x1000 with
    | 0x000 => word [(31, b2n c.lock), (8, b2n c.eccEn), (7, b2n c.populated), (3, c.capacity), (0, c.rate)]
    | 0x010 => word [(16, s.reliab.memCorrected.at m), (8, s.reliab.memUncorrectable.at m), (0, s.reliab.memWorn.at m)]
    | 0x014 => word [(27, s.reliab.memScrubH.at m), (26, b2n (c.populated && c.eccEn)), (0, s.reliab.memScrubPos.at m / 2 ^ 20)]
    | _ => 0

/-- Peer ports and the field link. -/
def State.regLinks (s : State) (off : Nat) : Nat :=
  if off < 0x64_0000 then
    let x := s.peer.at ((off - 0x60_0000) / 0x1000)
    if 0x60_3000 ≤ off then 0
    else match off % 0x1000 with
      | 0x000 => word [(31, b2n x.up), (30, b2n x.retrain), (29, b2n x.lost), (22, x.neighbour), (19, x.lanes), (18, b2n x.halfRate),
                       (16, s.straps.module), (0, x.lastStatus)]
      | 0x004 => word [(16, x.replays), (8, x.retrains), (0, x.badImport)]
      | _ => 0
  else
    let f := s.field
    match off - 0x64_0000 with
    | 0x000 => word [(31, b2n f.up), (30, b2n f.boot), (29, b2n f.selftestFail), (16, f.vfieldMv % 2 ^ 13), (0, f.lastStatus)]
    | 0x004 => word [(24, f.crcErr), (16, f.gap), (8, f.unknown), (0, f.malformed)]
    | k => if 0x10 ≤ k ∧ k < 0x28 then
        let c := f.chans.at ((k - 0x10) / 4)
        word [(29, c.state), (16, c.trips), (8, c.ramps), (0, c.discarded)]
      else 0

/-- The least quality figure of a block's lanes. -/
def CalBlock.quality (b : CalBlock) : Nat :=
  match b.lanes with
  | [] => 0
  | l :: ls => ls.foldl (fun q x => min q x.2.quality) l.2.quality

/-- STATE of CAL_BLOCK: off, calibrated, below its floor, a lane held. -/
def CalBlock.state (b : CalBlock) : Nat :=
  if !b.live || !b.done then 0 else if b.lanes.any (·.2.held) then 3 else if b.lanes.any (·.2.low) then 2 else 1

/-- Calibration, clocks, power. -/
def State.regPower (s : State) (off : Nat) : Nat :=
  let p := s.power
  if 0x68_0100 ≤ off ∧ off < 0x68_0120 then
    let x := p.steeples.at ((off - 0x68_0100) / 4)
    word [(31, b2n x.gated), (30, b2n x.paused), (27, x.point), (0, x.voutMv)]
  else if 0x68_1000 ≤ off ∧ off < 0x68_1120 ∧ off % 16 = 0 then
    let b := p.blocks.at ((off - 0x68_1000) / 16)
    word [(30, b.state), (29, b2n b.running), (28, b2n b.seeded), (16, b.discards), (0, b.quality)]
  else match off with
    | 0x68_0000 => word [(30, p.calRef), (0, p.thresh)]
    | 0x68_0004 => word [(31, b2n p.refSys), (30, b2n p.refPcie), (29, b2n p.refPl), (28, b2n p.xtal), (27, b2n p.pmbusOk)]
    | 0x68_0008 => word [(16, s.resets.count), (0, s.resets.cause)]
    | _ => 0

/-- The word that a read of BAR0 at an aligned offset returns; an offset that no register takes reads as zero. -/
def State.regRead (s : State) (off : Nat) : Nat :=
  if off < 0x02_0000 then s.regPci off
  else if off < 0x08_0000 then s.regWatch off
  else if off < 0x10_0000 then s.regBelfry off
  else if off < 0x18_0000 then s.regSensor off
  else if off < 0x20_0000 then s.regRfe off
  else if off < 0x28_0000 then s.regSne off
  else if off < 0x48_0000 then s.regSpire off
  else if off < 0x50_0000 then s.regDome off
  else if off < 0x58_0000 then s.regVision off
  else if off < 0x60_0000 then s.regMem off
  else if off < 0x68_0000 then s.regLinks off
  else if off < 0x70_0000 then s.regPower off
  else 0

/-- The word that a read of BAR2 at an aligned offset returns (R370, R371, R390). -/
def State.pageRead (s : State) (off : Nat) : Nat :=
  let q := s.pci.pairs.at (off / 0x1000)
  match off % 0x1000 with
  | 0x000 => bits q.reqBase 0 32
  | 0x004 => bits q.reqBase 32 32
  | 0x008 => bits q.rspBase 0 32
  | 0x00C => bits q.rspBase 32 32
  | 0x010 => word [(31, b2n q.enable), (4, q.rspLog2), (0, q.reqLog2)]
  | 0x014 => word [(31, b2n q.enabled), (30, b2n q.fetchErr), (29, b2n q.writeErr), (0, s.pci.state.code)]
  | 0x018 => word [(16, q.reqHead), (0, q.reqTail)]
  | 0x01C => word [(16, q.rspTail), (0, q.rspHead)]
  | _ => 0

/-- Byte `a` of the register block as an internal read sees it. -/
def State.regByte (s : State) (a : Nat) : Byte :=
  let off := a - 0xF0_0000_0000
  BitVec.ofNat 8 (s.regRead (off / 4 * 4) / 2 ^ (8 * (off % 4)))

end Sys2Proof.Machine
end

