-- ==== Sys2Proof/Machine/Ops.lean ====
section
/-! DEFINITION. The shared operations over the state: time, the logs, events and interrupts, the address map and the
accesses that go through it, mailbox responses, health, and the entry of a fatal condition. -/
namespace Sys2Proof.Machine
open Sys2Proof

/-! ## Outcomes -/

/-- The outcome type of a meaning. -/
abbrev Out := Host.Outcome State Fault Refusal

/-! ## Time (R52, R473, R480) -/

/-- `dt` ns pass on the clock at its present trim: the timebase takes them whole, DEVTIME with the trim (R52, R473). -/
def Clock.run (c : Clock) (dt : Nat) : Clock :=
  let acc : Int := c.frac + dt * c.trimPpb
  { c with timebase := c.timebase + dt
           devtime := (c.devtime + dt + acc / 1000000000).toNat % 2 ^ 64
           frac := acc % 1000000000 }

/-- `dt` ns pass on the clock; where the slew of a PPS edge ends within them, the rest passes at the trim that it leaves (R473). -/
def Clock.advance (c : Clock) (dt : Nat) : Clock :=
  match c.slewEnd with
  | some (e, trim) =>
    if e ≤ c.timebase + dt then
      let n := min dt (e - c.timebase)
      ({ c.run n with slewEnd := none, trimPpb := trim }).run (dt - n)
    else c.run dt
  | none => c.run dt

/-- The state at timebase count `t`: time runs forward to it, in whole cycles of 4 ns, and never back. -/
def State.at (s : State) (t : Nat) : State :=
  if t ≤ s.clock.timebase then s
  else { s with clock := s.clock.advance ((t - s.clock.timebase) / 4 * 4) }

/-- The timebase count (R52). -/
def State.now (s : State) : Nat := s.clock.timebase

/-- DEVTIME (R473). -/
def State.dev (s : State) : Nat := s.clock.devtime

/-- The block's units run: the device is READY and nothing holds it in reset (R30, R453, R490). -/
def State.active (s : State) : Bool := s.pci.state == .ready && s.resets.held.isEmpty

/-! ## Outputs -/

/-- An output of the block is appended to those it has made. -/
def State.emit (s : State) (o : Output) : State := { s with out := s.out ++ [o] }

/-! ## Interrupts (R385) -/

/-- A cause bit is set by an event. The vector's message is sent when the bit changes from 0 to 1; a masked vector sets its
pending bit instead, and so does every vector while the function is in D3hot or the link is down. -/
def State.raise (s : State) (v : Nat) : State :=
  if bit s.pci.cause v then s
  else
    let s1 := { s with pci := { s.pci with cause := s.pci.cause + 2 ^ v } }
    let e := s.pci.msix.at v
    if e.masked || s.pci.d3hot || !s.pci.linkUp then
      { s1 with pci := { s1.pci with pendingBits := setBits s1.pci.pendingBits v 1 1 } }
    else s1.emit (.msix v e.addr e.data)

/-- The vectors of a list are raised in order. -/
def State.raiseAll (s : State) (vs : List Nat) : State := vs.foldl State.raise s

/-! ## The logs (R442, R471) -/

/-- A record goes to the end of a log that keeps the newest `cap`. -/
def Log.push (l : Log) (cap : Nat) (r : Bytes) : Log :=
  { next := (l.next + 1) % 2 ^ 32, recs := keepLast cap (l.recs ++ [r]) }

/-- A status of a kind that is logged at most once per second may be logged now. -/
def State.mayLog (s : State) (status : Nat) : Bool :=
  match aGet s.watch.lastLogged status with
  | some t => t + 1000000000 ≤ s.now
  | none => true

/-- The time of the last log of such a status is now. -/
def State.stampLog (s : State) (status : Nat) : State :=
  { s with watch := { s.watch with lastLogged := aSet s.watch.lastLogged status s.now } }

/-- The payload of an EVENT message (R386). -/
def eventPayload (status source unit health dev : Nat) (data : Bytes) : Bytes :=
  leBytes 2 status ++ leBytes 1 source ++ leBytes 1 unit ++ leBytes 1 health ++ zeros 3 ++ leBytes 8 dev
    ++ padTo 16 data

/-- An event record enters the event log and retention memory (R471). -/
def State.logEventRec (s : State) (r : Bytes) : State :=
  { s with watch := { s.watch with
      evLog := s.watch.evLog.push 1024 r
      ret := { s.watch.ret with events := keepLast 16 (s.watch.ret.events ++ [r]) } } }

/-! ## Host memory and mailbox responses (R372, R389) -/

/-- A posted write to host memory at a PCIe address. -/
def State.hostPut (s : State) (a : Nat) (bs : Bytes) : State :=
  { s with mem := { s.mem with host := memWrite s.mem.host a bs } }

/-- Entries of the response ring of a pair. -/
def Pair.rspEntries (p : Pair) : Nat := 2 ^ p.rspLog2

/-- Entries of the request ring of a pair. -/
def Pair.reqEntries (p : Pair) : Nat := 2 ^ p.reqLog2

/-- Free slots of the response ring (R372). -/
def Pair.rspFree (p : Pair) : Nat := p.rspEntries - (p.rspTail + 2 ^ 16 - p.rspHead) % 2 ^ 16

/-- A message goes to slot RSP_TAIL of a pair: the payload, then the 16-byte header as one write, then RSP_TAIL, then the
pair's cause bit (R372, R375). PHASE is 1 when RSP_TAIL div entries is even. -/
def State.mbxWrite (s : State) (p opcode seq tag : Nat) (event : Bool) (payload : Bytes) : State :=
  let q := s.pci.pairs.at p
  let base := q.rspBase + (q.rspTail % q.rspEntries) * 4096
  let phase := 1 - q.rspTail / q.rspEntries % 2
  let hdr := leBytes 2 opcode ++ leBytes 2 payload.length ++ leBytes 4 seq ++ leBytes 4 tag
    ++ leBytes 4 (phase + 2 * b2n event)
  let s1 := (s.hostPut (base + 16) payload).hostPut base hdr
  let s2 := { s1 with pci := { s1.pci with pairs := s1.pci.pairs.mod p fun q => { q with rspTail := (q.rspTail + 1) % 2 ^ 16 } } }
  s2.raise (2 + p)

/-- The function may write host memory: the link is up and the function is in D0 (R482, R489). -/
def State.hostWritable (s : State) : Bool := s.pci.linkUp && !s.pci.d3hot

/-- The response to a request is written when a slot is free, and the request is over; a pair whose ENABLE was cleared stops (R373). -/
def State.deliver (s : State) (p : Nat) (r : MbxReq) (payload : Bytes) : State :=
  let q := s.pci.pairs.at p
  let s0 := { s with pci := { s.pci with pairs := s.pci.pairs.mod p fun q => { q with cur := none } } }
  let s1 := if q.enabled && 0 < q.rspFree then s0.mbxWrite p r.opcode r.seq r.tag false payload else s0
  if q.enable then s1
  else { s1 with pci := { s1.pci with pairs := s1.pci.pairs.mod p fun q =>
          { q with enabled := false, reqHead := 0, reqTail := 0, rspHead := 0, rspTail := 0, expect := none } } }

/-- The response to the request in progress on a pair: its payload begins with STATUS and DETAIL (R375). It waits for D0 and for the link. -/
def State.respond (s : State) (p status detail : Nat) (rest : Bytes) : State :=
  match (s.pci.pairs.at p).cur with
  | none => s
  | some r =>
    let payload := leBytes 2 status ++ leBytes 2 detail ++ rest
    if s.hostWritable then s.deliver p r payload
    else { s with pci := { s.pci with pairs := s.pci.pairs.mod p fun q =>
            { q with cur := some { r with started := true, answer := some payload } } } }

/-- Responses that waited for D0 are written. -/
def State.deliverHeld (s : State) : State :=
  (List.range 16).foldl (fun s p => match (s.pci.pairs.at p).cur with
    | some r => match r.answer with
      | some b => if s.hostWritable then s.deliver p r b else s
      | none => s
    | none => s) s

/-- A response whose payload is STATUS and DETAIL alone. -/
def State.answer (s : State) (p status : Nat) : State := s.respond p status 0 []

/-! ## Events (R386) -/

/-- An event message is written to the event pair when that pair is enabled, the source is enabled and a response slot is
free beside the one the request in progress holds; otherwise it is dropped and counted, and 0x010B is logged at most once
per second. -/
def State.postEvent (s : State) (source : Nat) (payload : Bytes) : State :=
  let q := s.pci.pairs.at s.pci.eventPair
  if q.enabled && s.hostWritable && bit s.pci.eventMask source && b2n q.cur.isSome < q.rspFree then
    let n := s.pci.eventNo
    ({ s with pci := { s.pci with eventNo := (n + 1) % 2 ^ 32 } }).mbxWrite s.pci.eventPair 0x8000 n 0 true payload
  else
    let s1 := { s with pci := { s.pci with eventsLost := satInc 32 s.pci.eventsLost } }
    if s1.mayLog 0x010B then
      (s1.stampLog 0x010B).logEventRec (eventPayload 0x010B 0 0xFF s.deviceHealth.code s.dev [])
    else s1

/-- An event is raised, with the device health as it then is: it enters the event log, is posted or dropped, and is signalled on its vectors either way (R386). -/
def State.event (s : State) (status source unit : Nat) (vecs : List Nat) (data : Bytes := []) : State :=
  let r := eventPayload status source unit s.deviceHealth.code s.dev data
  ((s.logEventRec r).postEvent source r).raiseAll vecs

/-- A status that is logged only: a record of the event log, neither posted nor signalled. -/
def State.note (s : State) (status source unit : Nat) (data : Bytes := []) : State :=
  s.logEventRec (eventPayload status source unit s.deviceHealth.code s.dev data)

/-- A status that is logged at most once per second. -/
def State.noteRare (s : State) (status source unit : Nat) : State :=
  if s.mayLog status then (s.stampLog status).note status source unit else s

/-! ## Health (R447, R449) -/

/-- A change of device health posts an event with SOURCE 0 and status 0x090E on vector 1 (R449). -/
def State.updateHealth (s : State) : State :=
  let h := s.deviceHealth
  if h = s.reliab.health then s
  else ({ s with reliab := { s.reliab with health := h } }).event 0x090E 0 0xFF [1]

/-! ## The error log (R441, R442) -/

/-- A record of the error log (R442). -/
def errRecord (status store unit kind foundBy bitNo addr dev row count : Nat) : Bytes :=
  leBytes 2 status ++ leBytes 1 store ++ leBytes 1 unit ++ leBytes 1 kind ++ leBytes 1 foundBy ++ leBytes 2 bitNo
    ++ leBytes 8 (addr % 2 ^ 40) ++ leBytes 8 dev ++ leBytes 4 row ++ leBytes 4 count

/-- A record enters the error log. -/
def State.logError (s : State) (status store unit kind foundBy bitNo addr row count : Nat) : State :=
  { s with watch := { s.watch with
      errLog := s.watch.errLog.push 256 (errRecord status store unit kind foundBy bitNo addr s.dev row count) } }

/-! ## The internal address map (R69 to R72) -/

/-- The regions of the 40-bit internal address space (R69). -/
inductive Region where
  | dram
  | scratch
  | counters
  | jobs
  | spire (core : Nat)
  | sne (s : Nat)
  | rfe (r : Nat)
  | peer (m : Nat)
  | host
  | regs
  | unmapped
  deriving DecidableEq, Repr, Inhabited

/-- The region an address lies in (R69), whether or not it is populated. -/
def regionOf (a : Nat) : Region :=
  if a < 0x10_0000_0000 then .dram
  else if 0x40_0000_0000 ≤ a ∧ a < 0x40_0300_0000 then .scratch
  else if 0x40_1000_0000 ≤ a ∧ a < 0x40_1000_8000 then .counters
  else if 0x40_2000_0000 ≤ a ∧ a < 0x40_2001_0000 then .jobs
  else if 0x41_0000_0000 ≤ a ∧ a < 0x41_0800_0000 then
    if (a - 0x41_0000_0000) % 0x10_0000 < 0x8_0000 then .spire ((a - 0x41_0000_0000) / 0x10_0000) else .unmapped
  else if 0x42_0000_0000 ≤ a ∧ a < 0x42_0040_0000 then .sne ((a - 0x42_0000_0000) / 0x10_0000)
  else if 0x43_0000_0000 ≤ a ∧ a < 0x43_0100_0000 then .rfe ((a - 0x43_0000_0000) / 0x10_0000)
  else if 0x50_0000_0000 ≤ a ∧ a < 0x90_0000_0000 then .peer ((a - 0x50_0000_0000) / 0x10_0000_0000)
  else if 0x90_0000_0000 ≤ a ∧ a < 0xA0_0000_0000 then .host
  else if 0xF0_0000_0000 ≤ a ∧ a < 0xF0_0100_0000 then .regs
  else .unmapped

/-- The base address of a core's local memory (R69). -/
def localBase (c : Nat) : Nat := 0x41_0000_0000 + c * 0x10_0000

/-- The first address of the Dome scratchpad (R69). -/
def scratchBase : Nat := 0x40_0000_0000

/-- Address of SCU_REQ[0], the first of 16 request windows of 32 bytes (R250). -/
def scuReqBase : Nat := 0xF0_0010_9000

/-- Address of RFE_PSET_SUBMIT[r], a request window of 16 bytes (R250). -/
def psetWindow (r : Nat) : Nat := 0xF0_0018_0040 + r * 0x4000

/-- The window onto mesh module `m` is mapped: not this module's own number, and some port trained to it is not lost
(R71, R407). -/
def State.peerMapped (s : State) (m : Nat) : Bool :=
  m != s.straps.module && (List.range 3).any fun k => (s.peer.at k).up && !(s.peer.at k).lost && (s.peer.at k).neighbour == m

/-- The port that connects to module `m` (R393, R397). -/
def State.portTo (s : State) (m : Nat) : Nat := (m ^^^ s.straps.module) - 1

/-- The port to module `m` carries nothing for graph `g`: it has trained anew after a loss and serves the graphs admitted since (R407). -/
def State.shutTo (s : State) (g m : Nat) : Bool := m != s.straps.module && (s.peer.at (s.portTo m)).barred.contains g

/-- Some of the ranges lies in a window of which a condition holds. -/
def anyPeer (f : Nat → Bool) (rs : List (Nat × Nat)) : Bool := rs.any fun r => match regionOf r.1 with
  | .peer m => f m
  | _ => false

/-- Some of the ranges lies in a window whose port carries nothing for the graph. To the graph such a window is as unmapped as the loss left it (DEDUCED;
log entry 166). -/
def State.shutOut (s : State) (g : Nat) (rs : List (Nat × Nat)) : Bool := anyPeer (s.shutTo g) rs

/-- Some of the ranges lies in a window whose port retrains, so that no response comes (R407). -/
def State.peerWaits (s : State) (rs : List (Nat × Nat)) : Bool := anyPeer (fun m => (s.peer.at (s.portTo m)).retrain) rs

/-- The traffic class of what leaves on a port: SIGNAL before RESPONSE before REQUEST (R395). -/
def Output.flitClass : Output → Nat
  | .remoteReply .. => 1
  | .remoteWrite .. => 2
  | _ => 0

/-- Something leaves on a port, or waits until the port has retrained (R407). -/
def State.sendOn (s : State) (k : Nat) (o : Output) : State :=
  if (s.peer.at k).retrain then { s with peer := s.peer.mod k fun x => { x with held := x.held ++ [o] } } else s.emit o

/-- What a port holds leaves, by class and within a class in its order (R395, R407). -/
def State.sendHeld (s : State) (k : Nat) : State :=
  let l := (s.peer.at k).held
  ([0, 1, 2].flatMap fun c => l.filter fun o => o.flitClass == c).foldl State.emit
    { s with peer := s.peer.mod k fun x => { x with held := [] } }

/-- The unmapped-address status of one access by region and extent: 0, 0x0301 or 0x0302 (R70, R71, R387). The access lies
wholly in one region of R69. -/
def State.mapStatus (s : State) (a n : Nat) (write : Bool) : Nat :=
  let z := a + n - 1
  if n = 0 then 0
  else if regionOf a ≠ regionOf z then 0x0301
  else match regionOf a with
  | .dram => if z < s.dramEnd then 0 else 0x0301
  | .scratch => if z - scratchBase < s.scratchBytes then 0 else 0x0301
  | .counters | .jobs | .sne _ | .rfe _ | .regs => 0
  | .spire c => if s.coreOut c then 0x0302 else 0
  | .peer m =>
    let o := z % 0x10_0000_0000
    let o0 := a % 0x10_0000_0000
    if s.peerMapped m ∧ (o < 0xF_0000_0000 ∨ (0xF_0000_0000 ≤ o0 ∧ o < 0xF_0300_0000)) then 0 else 0x0301
  | .host =>
    let w := s.pci.windows.at ((a - 0x90_0000_0000) / 0x4000_0000)
    if (a - 0x90_0000_0000) / 0x4000_0000 = (z - 0x90_0000_0000) / 0x4000_0000 ∧ w.valid ∧
        (z - 0x90_0000_0000) % 0x4000_0000 < w.size ∧ (w.write ∨ !write) then 0 else 0x0301
  | .unmapped => 0x0301

/-- Where one region of R69 ends or another begins. -/
def regionEdges : List Nat :=
  [0x10_0000_0000, 0x40_0000_0000, 0x40_0300_0000, 0x40_1000_0000, 0x40_1000_8000, 0x40_2000_0000, 0x40_2001_0000, 0xA0_0000_0000
    , 0xF0_0000_0000, 0xF0_0100_0000]
    ++ (List.range 257).map (0x41_0000_0000 + 0x8_0000 * ·) ++ (List.range 5).map (0x42_0000_0000 + 0x10_0000 * ·)
    ++ (List.range 17).map (0x43_0000_0000 + 0x10_0000 * ·) ++ (List.range 5).map (0x50_0000_0000 + 0x10_0000_0000 * ·)

/-- A buffer spans two regions of R69: some edge of a region lies within it (R89). -/
def spansRegions (a n : Nat) : Bool := regionEdges.any fun b => a < b && b < a + n

/-- The first failing status of the bytes of a range, whatever regions they lie in: every region of R69 is a whole number of 32 KiB. -/
def State.rangeMapped (s : State) (a n : Nat) (write : Bool) : Nat :=
  if n = 0 then 0
  else (List.range ((a + n - 1) / 0x8000 - a / 0x8000 + 1)).foldl (fun acc k =>
    let lo := max a ((a / 0x8000 + k) * 0x8000)
    let hi := min (a + n) ((a / 0x8000 + k + 1) * 0x8000)
    if acc ≠ 0 then acc else s.mapStatus lo (hi - lo) write) 0

/-- The PCIe address a window address reaches (R387). -/
def State.hostAddr (s : State) (a : Nat) : Nat :=
  (s.pci.windows.at ((a - 0x90_0000_0000) / 0x4000_0000)).base + (a - 0x90_0000_0000) % 0x4000_0000

/-! ## The protection unit (R474 to R477) -/

/-- Initiator numbers of R474. -/
def initSteeple (st : Nat) : Nat := st
/-- Engines 0 to 11, then the peer-transfer engines of PL0 to PL2. -/
def initDma (e : Nat) : Nat := if e < 12 then 0x08 + e else 0x34 + (e - 12)
def initSne (n : Nat) : Nat := 0x14 + n
def initRfe (r : Nat) : Nat := 0x18 + r
def initVision (u : Nat) : Nat := 0x28 + u
def initBelfry : Nat := 0x2E
def initUserMode : Nat := 0x2F
def initPcie : Nat := 0x30
def initPeerIn (k : Nat) : Nat := 0x31 + k
def initPeerOut (k : Nat) : Nat := 0x34 + k
def initField : Nat := 0x37
def initReduce : Nat := 0x38
/-- Watchtower in machine mode, which the unit does not check (R474): a number beyond the field's 8 bits. -/
def initFirmware : Nat := 0x100

/-- An entry names an initiator (R475). -/
def PrtEntry.names (e : PrtEntry) (i : Nat) : Bool :=
  (i &&& e.initMask) == (e.initId &&& e.initMask)

/-- An entry allows an access: it is valid, names the initiator, covers every byte and grants the kind (R474). -/
def PrtEntry.allows (e : PrtEntry) (i a n : Nat) (write : Bool) : Bool :=
  e.valid && e.names i && e.firstPage ≤ a / 4096 && (a + n - 1) / 4096 ≤ e.lastPage
    && (if write then e.write else e.read)

/-- A range reaches into the staging area at the top of DRAM, which no entry grants to any initiator but Watchtower (R464; DEDUCED, log entry 170). -/
def State.inStaging (s : State) (i a n : Nat) : Bool := i != initUserMode && regionOf a == .dram && decide (s.dramEnd < a + n + 0x40_0000)

/-- The protection unit allows a transaction: at least one entry does (R474); Watchtower in machine mode is not checked. -/
def State.allowed (s : State) (i a n : Nat) (write : Bool) : Bool :=
  i == initFirmware || (!s.inStaging i a n && s.watch.prt.any fun e => e.2.allows i a n write)

/-- The protection entries that are free: not in force, and not locked. -/
def State.prtFree (s : State) : List Nat :=
  (List.range 512).filter fun k => match aGet s.watch.prt k with
    | some e => !e.valid && !e.lock
    | none => true

/-- A buffer lies in one region that the protection unit grants an initiator (R89). -/
def State.granted (s : State) (i a n : Nat) (write : Bool) : Bool := !spansRegions a n && s.allowed i a n write

/-- A refused access is counted, and logged at most once per second (R477). -/
def State.deny (s : State) (i : Nat) : State :=
  { s with watch := { s.watch with denyCount := satInc 24 s.watch.denyCount, denyLast := i % 256 } }.noteRare 0x0A10 10 0xFF

/-- The status an access meets before any data moves: 0, 0x0301, 0x0302, 0x0A10, or 0x0310 for host memory in D3hot or without a link
(R97, R489). -/
def State.accessStatus (s : State) (i a n : Nat) (write : Bool) : Nat :=
  let m := s.mapStatus a n write
  if m ≠ 0 then m
  else if !s.allowed i a n write then 0x0A10
  else if regionOf a = .host ∧ n ≠ 0 ∧ !s.hostWritable then 0x0310
  else 0

/-- An initiator whose protection refusals have a rule of their own: the DMA and peer-transfer engines (R90) and the PCIe endpoint's
BAR4 (R369). -/
def ownRefusal (i : Nat) : Bool := (0x08 ≤ i && i ≤ 0x13) || (0x34 ≤ i && i ≤ 0x36) || i == initPcie

/-- An access to an unmapped or retired target is counted in DOM_ERR_COUNT (R70); a protection refusal under R477, and in
DOM_ERR_COUNT too where it is handled as an unmapped access. -/
def State.countRefusal (s : State) (i status : Nat) : State :=
  let s1 := { s with mem := { s.mem with errCount := satInc 32 s.mem.errCount } }
  if status = 0x0310 then s
  else if status = 0x0A10 then (if ownRefusal i then s.deny i else s1.deny i)
  else s1

/-! ## Words, errors and poison (R430 to R435) -/

/-- Sets of the cache with share n: n x 3,072. -/
def State.cacheSets (s : State) : Nat := s.mem.cacheEighths * 3072

/-- The Dome cache holds a line of DRAM. -/
def State.lineCached (s : State) (line : Nat) : Bool :=
  s.mem.cacheEighths != 0 && ((aGet s.mem.cache (line % s.cacheSets)).getD []).any (·.line == line)

/-- Bytes of one coded word at an address: 32-byte granules in DRAM with in-line ECC, 4-byte words in RFE line buffers,
8-byte words elsewhere on chip, cached lines of DRAM without ECC among them; 0 where no code of this device protects the data (R430, R431, R87). -/
def State.wordBytes (s : State) (a : Nat) : Nat :=
  match regionOf a with
  | .dram => if s.ecc then 32 else if s.lineCached (a / 128) then 8 else 0
  | .rfe _ => 4
  | .peer _ | .host | .regs | .unmapped => 0
  | _ => 8

/-- STORE of R442 for an address; 0xFF when none applies. -/
def storeOf (a : Nat) : Nat :=
  match regionOf a with
  | .dram => 8
  | .scratch | .counters | .jobs => 0
  | .spire _ => 1
  | .rfe _ => 2
  | .sne _ => if (a - 0x42_0000_0000) % 0x10_0000 < 0xC_0000 then 3 else 4
  | _ => 0xFF

/-- UNIT of R442 for an address: core, bank, RFE, SNE or interface. -/
def State.unitOf (s : State) (a : Nat) : Nat :=
  match regionOf a with
  | .dram => if s.interfaces.length = 0 then 0xFF else a / 256 % s.interfaces.length
  | .scratch => (a / 128 % 64) ^^^ (a / 8192 % 64)
  | .spire c => c
  | .rfe r => r
  | .sne n => n
  | _ => 0xFF

/-- A read of an address may report an error: DRAM without in-line ECC reports none, but where the cache holds the line (R87). -/
def State.mayErr (s : State) (a : Nat) : Bool := regionOf a != .dram || s.wordBytes a != 0

/-- Some word that `[a, a + n)` touches reads as uncorrectable. -/
def State.isBad (s : State) (a n : Nat) : Bool :=
  s.mem.bad.any fun b => b < a + n && a < b + s.wordBytes b

/-- The word at an address is struck by an uncorrectable error, which stays until a whole write (R432). -/
def State.strike (s : State) (a : Nat) : State :=
  let w := s.wordBytes a
  if w = 0 then s else { s with mem := { s.mem with bad := sInsert s.mem.bad (a / w * w) } }

/-! ## The row of a word (R442, R444) -/

/-- The word at an address as the error log and the wear table name it. The spec gives no placement of addresses on the rows of local memory: its
128-byte lines are taken to stand on the 16 banks in turn, and the rows of counters and line buffers in address order (DESIGN CHOICE; log entry
120). -/
def State.wordAt (s : State) (a : Nat) : WordError :=
  let w : WordError := { store := storeOf a, unit := s.unitOf a, addr := a }
  match regionOf a with
  | .dram => { w with row := Config.dramRow a }
  | .scratch => { w with row := (a - scratchBase) / 8192 }
  | .spire c => { w with bank := (a - localBase c) / 128 % 16, row := (a - localBase c) / 2048 }
  | .counters => { w with row := (a - 0x40_1000_0000) / 128 }
  | .rfe _ => { w with row := a % 0x10_0000 / 64 }
  | _ => w

/-- Errors counted on a word's row in the preceding 24 h (R442). -/
def State.rowErrors (s : State) (w : WordError) : Nat :=
  ((s.reliab.wear.find? fun r => r.store == w.store && r.unit == w.unit && r.row == w.row + w.bank * 2 ^ 24).map fun r =>
    (r.times.filter fun t => decide (s.dev < t + 86400000000000)).length).getD 0

/-- The number of the unit that an initiator is, as an error record names the reader; 0xFF where it has none (R435, R442, R474). -/
def initUnit (i : Nat) : Nat :=
  if i < 8 then i
  else if i < 0x14 then i - 8
  else if i < 0x18 then i - 0x14
  else if i < 0x28 then i - 0x18
  else if i < 0x2E then i - 0x28
  else if 0x31 ≤ i ∧ i < 0x34 then i - 0x31
  else if 0x34 ≤ i ∧ i < 0x37 then i - 0x34
  else 0xFF

/-- An uncorrectable read is counted, and logged with the reader's unit (R435). -/
def State.countUncorrectable (s : State) (status a unit : Nat) : State :=
  let w := s.wordAt a
  let s1 :=
    if w.store = 8 then { s with reliab := { s.reliab with memUncorrectable := s.reliab.memUncorrectable.mod w.unit (satInc 8) } }
    else { s with reliab := { s.reliab with uncorrectable := satInc 8 s.reliab.uncorrectable } }
  s1.logError status w.store unit 1 0 0xFFFF a (w.row + w.bank * 2 ^ 24) (s.rowErrors w + 1)

/-- A partial write that found an uncorrectable word at `a`: 0x0904 is counted and logged (R433). -/
def State.countPoison (s : State) (a : Nat) : State :=
  let s1 := if storeOf a = 8 then s
    else { s with reliab := { s.reliab with poisoned := satInc 8 s.reliab.poisoned } }
  s1.logError 0x0904 (storeOf a) (s.unitOf a) 2 2 0xFFFF a 0 0

/-! ## The Dome cache (R74 to R77) -/

/-- A line that leaves the cache: with in-line ECC a dirty line replaces DRAM's copy and takes its poison there, and a clean one leaves the copy that
DRAM has; without, DRAM holds no error, and where the line is dirty DRAM holds the data as read, the error is logged with 0x0902 and an event with SOURCE 9
names the granule (R77, R87, R435, R439). -/
def State.evict (s : State) (l : CacheLine) : State :=
  let here := fun (b : Nat) => l.line * 128 ≤ b && b < l.line * 128 + 128
  let kept := s.mem.bad.filter fun b => !here b
  if s.ecc then
    { s with mem := { s.mem with behind := s.mem.behind.filter fun b => !here b
                                 bad := if l.dirty then s.mem.bad else (s.mem.behind.filter here).foldl sInsert kept } }
  else if s.mem.bad.any here then
    let s1 := { s with mem := { s.mem with bad := kept } }
    if l.dirty then (s1.countUncorrectable 0x0902 (l.line * 128) 0xFF).event 0x0902 9 0xFF [50] (((s.mem.bad.filter here).map (leBytes 8)).flatten) else s1
  else s

/-- The Dome granule that holds a way of a set: the cache's granules follow the scratchpad's, 32 lines each, the sets of way 0 first. The spec
places no line on a row (DESIGN CHOICE; log entry 128). -/
def State.cacheGranule (s : State) (set way : Nat) : Nat := s.scratchBytes / 4096 + (way * s.cacheSets + set) / 32

/-- The ways of a set that have not retired with their granule (R79). -/
def State.cacheWays (s : State) (set : Nat) : List Nat :=
  (List.range 16).filter fun w => !s.mem.retiredGranules.contains (s.cacheGranule set w)

/-- One line of DRAM passes through the cache lookup: a hit becomes most recently used; a miss allocates, unless the stream
says not to, and a full set gives up its least recently used line (R76). -/
def State.cacheLine (s : State) (line : Nat) (write noAlloc : Bool) : State :=
  if s.mem.cacheEighths = 0 then s
  else
    let set := line % s.cacheSets
    let ls := (aGet s.mem.cache set).getD []
    match ls.find? (·.line == line) with
    | some l =>
      let ls1 := { l with dirty := l.dirty || write } :: ls.filter (·.line != line)
      { s with mem := { s.mem with cache := aSet s.mem.cache set ls1 } }
    | none =>
      let ways := s.cacheWays set
      if noAlloc || ways.isEmpty then s
      else
        let put := fun (w : Nat) (ls : List CacheLine) (s : State) =>
          { s with mem := { s.mem with
              cache := aSet s.mem.cache set ({ line := line, dirty := write, way := w } :: ls)
              behind := if s.ecc then (s.mem.bad.filter fun b => line * 128 ≤ b && b < line * 128 + 128).foldl sInsert s.mem.behind else s.mem.behind } }
        match ways.find? fun w => !ls.any (·.way == w), ls.getLast? with
        | some w, _ => put w ls s
        | none, some l => put l.way ls.dropLast (s.evict l)
        | none, none => s

/-- Every line that an access to DRAM touches passes through the cache lookup, whoever makes the access (R77). -/
def State.cacheTouch (s : State) (a n : Nat) (write noAlloc : Bool) : State :=
  if n = 0 ∨ regionOf a ≠ .dram then s
  else (List.range ((a + n - 1) / 128 - a / 128 + 1)).foldl
    (fun s k => s.cacheLine (a / 128 + k) write noAlloc) s

/-! ## Reads and writes of the device (R70, R80, R89, R433 to R435) -/

/-- The bytes an allowed read returns, by region: host memory through the window, work counters as R80 lays them out, all
other stores from the cells. -/
def State.peek (s : State) (a n : Nat) : Bytes :=
  match regionOf a with
  | .host => memRead s.mem.host (s.hostAddr a) n
  | .peer _ => (List.range n).map fun k => Config.remoteByte s.now (a + k)
  | .regs => (List.range n).map fun k => s.regByte (a + k)
  | .counters =>
    let i := (a - 0x40_1000_0000) / 8
    let v := (aGet s.mem.counters i).getD 0
    if a % 8 = 0 ∧ n = 4 then leBytes 4 v
    else if a % 8 = 0 ∧ n = 8 then leBytes 8 v
    else zeros n
  | _ => memRead s.mem.cells a n

/-- A read by an initiator: the bytes, the status and the state after. An unmapped or refused read returns zeros and is
counted (R70, R477); an uncorrectable word gives 0x0902, counted and logged (R435). -/
def State.read (s : State) (i a n : Nat) (noAlloc : Bool := false) : Bytes × Nat × State :=
  let st := s.accessStatus i a n false
  if st ≠ 0 then (zeros n, st, s.countRefusal i st)
  else
    let s1 := s.cacheTouch a n false noAlloc
    if s1.isBad a n then (s1.peek a n, 0x0902, s1.countUncorrectable 0x0902 a (initUnit i))
    else (s1.peek a n, 0, s1)

/-- The bad words after a write of `[a, a + n)`: words it covers whole become good (R434). -/
def State.badAfter (s : State) (a n : Nat) : List Nat :=
  s.mem.bad.filter fun b => !(a ≤ b && b + s.wordBytes b ≤ a + n && 0 < s.wordBytes b)

/-- An allowed write lands, by region. Work counters are not written here (R80). -/
def State.poke (s : State) (a : Nat) (bs : Bytes) : State :=
  match regionOf a with
  | .host => s.hostPut (s.hostAddr a) bs
  | .peer m => s.sendOn (s.portTo m) (.remoteWrite a bs)
  | .counters | .regs | .unmapped => s
  | _ => { s with mem := { s.mem with cells := memWrite s.mem.cells a bs, bad := s.badAfter a bs.length } }

/-- A write that has passed its checks. A partial write over an uncorrectable word lands, leaves the word poisoned and
completes with 0x0309 (R433). A work counter is written by Belfry and firmware alone, in aligned words of 4 bytes; any other
write of one is discarded with 0x030F (R80). -/
def State.writeRaw (s : State) (i a : Nat) (bs : Bytes) (noAlloc : Bool := false) : Nat × State :=
  if bs = [] then (0, s)
  else if regionOf a = .counters then
    if (i = initBelfry ∨ i = initFirmware) ∧ a % 8 = 0 ∧ bs.length = 4 then
      (0, { s with mem := { s.mem with counters := aSet s.mem.counters ((a - 0x40_1000_0000) / 8) (leNat bs), bad := s.mem.bad.filter (· ≠ a) } })
    else (0x030F, s.note 0x030F 6 0xFF)
  else
    let s1 := (s.cacheTouch a bs.length true noAlloc).poke a bs
    let left := s1.mem.bad.filter fun b => b < a + bs.length && a < b + s1.wordBytes b
    if left.isEmpty then (0, s1) else (0x0309, left.foldl State.countPoison s1)

/-- A write by an initiator: the status and the state after. A refused write is discarded and counted (R70, R477). -/
def State.write (s : State) (i a : Nat) (bs : Bytes) : Nat × State :=
  let st := s.accessStatus i a bs.length true
  if st ≠ 0 then (st, s.countRefusal i st) else s.writeRaw i a bs

/-- A record is written where its owner asked; whatever happens to the write changes nothing else (R64). -/
def State.record (s : State) (i a : Nat) (bs : Bytes) : State := (s.write i a bs).2

/-! ## Entropy-coded weights (R101, R102) -/

/-- Where block `j` of weights coded at `base`, `total` plain bytes in all, is stored: first byte and bytes. A raw copy has its plain length; no block is
longer than that. -/
def State.weightSpan (s : State) (base total j : Nat) : Nat × Nat :=
  let e := Config.weightEntry (s.peek (base + 8 * j) 8)
  let n := min 4096 (total - 4096 * j)
  (base + e.1, if e.2.2 then n else min e.2.1 n)

/-- Block `j` of the plain weights; none where it holds an undefined code or decodes to another length (R102). -/
def State.weightBlock (s : State) (base total j : Nat) : Option Bytes :=
  let sp := s.weightSpan base total j
  let b := s.peek sp.1 sp.2
  let p := if (Config.weightEntry (s.peek (base + 8 * j) 8)).2.2 then some b else Config.weightDecode b
  p.bind fun x => if x.length = min 4096 (total - 4096 * j) then some x else none

/-- `n` plain bytes at offset `off` of the weights coded at `base`. -/
def State.plainWeights (s : State) (base total off n : Nat) : Option Bytes :=
  (List.range n).mapM fun k => (s.weightBlock base total ((off + k) / 4096)).map fun b => b.getD ((off + k) % 4096) 0

/-- The bytes that reading those weights takes from memory: the index entries and the stored blocks. -/
def State.weightReads (s : State) (base total off n : Nat) : List (Nat × Nat) :=
  if n = 0 then []
  else ((List.range ((off + n - 1) / 4096 - off / 4096 + 1)).map fun i =>
    [(base + 8 * (off / 4096 + i), 8), s.weightSpan base total (off / 4096 + i)]).flatten

/-! ## Compressed raw frames (R98 to R100) -/

/-- The block whose slot holds an address, where memory still holds it as its tap stored it. -/
def State.rawBlockAt (s : State) (a : Nat) : Option RawBlock :=
  s.mem.rawBlocks.find? fun b => b.addr ≤ a && a < b.addr + b.plain.length && s.peek b.head 1 == leBytes 1 (b.stored.length / 32)
    && s.peek b.addr b.stored.length == b.stored

/-- `n` bytes at `a` of a compressed raw frame in the buffer at `base`, decoded: a slot's address stands for the byte that the block would hold
there uncompressed (DESIGN CHOICE; log entry 129). -/
def State.rawPlain (s : State) (base size a n : Nat) : Bytes :=
  (List.range n).map fun k => match s.rawBlockAt (a + k) with
    | some b => b.plain.getD (a + k - b.addr) 0
    | none => Config.rawDecode (s.peek base size) (a + k - base)

/-- A block has been stored: it replaces what lay in its slot. -/
def State.keepBlock (s : State) (head addr slot : Nat) (b : Bytes × Bytes) : State :=
  let old := s.mem.rawBlocks.filter fun x => !(x.addr < addr + slot && addr < x.addr + x.plain.length)
  { s with mem := { s.mem with rawBlocks := old ++ [{ head := head, addr := addr, stored := b.1, plain := b.2 }] } }

/-- The bytes that reading them takes from memory: the header byte and the stored bytes of every block touched, whole (R100). -/
def State.rawReads (s : State) (a n : Nat) : List (Nat × Nat) :=
  match s.mem.rawBlocks.filter fun b => a < b.addr + b.plain.length && b.addr < a + n with
  | [] => [(a, n)]
  | bs => bs.flatMap fun b => [(b.head, 1), (b.addr, b.stored.length)]

/-! ## Scratchpad granules (R78, R79) -/

/-- A granule lies in a partition of some admitted graph. -/
def State.granuleHeld (s : State) (g : Nat) : Bool :=
  s.bf.graphs.any fun p => p.2.partitions.any fun q => q.1 ≤ g && g < q.1 + q.2

/-- A granule may be given to a partition: in the scratchpad, not retired, not worn, not held. -/
def State.granuleFree (s : State) (g : Nat) : Bool :=
  g < s.scratchBytes / 4096 && !s.mem.retiredGranules.contains g && !(s.mem.wornGranules.any (·.1 == g)) && !s.granuleHeld g

/-- The first range of `n` free granules at or after `g`, searched over `fuel` granules (first fit). -/
def State.findGranules (s : State) (n : Nat) : Nat → Nat → Nat → Option Nat
  | 0, _, _ => none
  | fuel + 1, g, run =>
    if run = n then some (g - n)
    else if s.granuleFree g then s.findGranules n fuel (g + 1) (run + 1)
    else s.findGranules n fuel (g + 1) 0

/-- A worn granule that no partition holds is retired, the capacity event follows, and the repair record is due (R79, R446).
`bank` is the bank whose row wore. -/
def State.retireGranule (s : State) (g bank : Nat) : State :=
  let s1 := { s with
    mem := { s.mem with retiredGranules := sInsert s.mem.retiredGranules g
                        wornGranules := s.mem.wornGranules.filter (·.1 ≠ g)
                        retired := satInc 14 s.mem.retired }
    flash := { s.flash with repairDue := true }
    reliab := { s.reliab with domRetired := s.reliab.domRetired.mod bank (satInc 8) } }
  (s1.event 0x0906 6 0xFF [50] (leBytes 4 s1.granulesInService)).updateHealth

/-- After partitions are freed, every worn granule that no partition holds any longer is retired (R79). -/
def State.retireFreed (s : State) : State :=
  (s.mem.wornGranules.filter fun g => !s.granuleHeld g.1).foldl (fun s g => s.retireGranule g.1 g.2) s

/-! ## Free values -/

/-- `n` free bytes: values that nothing constrains (the rest of a gap marker's slot, R56; undefined contents). -/
def State.freeBytes (s : State) (n : Nat) : Bytes × State :=
  ((List.range n).map fun k => Config.freeByte (s.fresh + k), { s with fresh := s.fresh + n })

/-! ## Calibrated blocks (R488, R494, R495) -/

/-- A block whose unit is no longer enabled: a run it overtakes is abandoned, and the next enable calibrates anew (R488, R495). -/
def CalBlock.off (b : CalBlock) : CalBlock := { b with live := false, running := false, seeded := false, waiting := none }

/-- A calibrated block changed. -/
def State.modBlock (s : State) (i : Nat) (f : CalBlock → CalBlock) : State :=
  { s with power := { s.power with blocks := s.power.blocks.mod i f } }

/-- The calibrated blocks of ports and egress ports that are no longer enabled go off. -/
def State.calOff (s : State) : State :=
  (List.range 10).foldl (fun s b =>
    let on := if b < 8 then (s.ports.at b).enable else (s.egress.at (b - 8)).enable
    if on then s else s.modBlock b CalBlock.off) s

/-! ## Requests in progress (R376, R378, R380, R390) -/

/-- Opcodes that R380 marks A. -/
def opAlways (op : Nat) : Bool := op == 1 || op == 2 || op == 4 || op == 0x40 || op == 0x41

/-- Opcodes of R380; 0x8000 is the device's own and served in no state. -/
def opKnown (op : Nat) : Bool :=
  [1, 2, 3, 4, 0x10, 0x11, 0x12, 0x13, 0x14, 0x15, 0x16, 0x20, 0x21, 0x22, 0x23, 0x24, 0x25, 0x26, 0x27, 0x28, 0x30, 0x31, 0x40, 0x41
   , 0x42, 0x43, 0x50, 0x51, 0x60, 0x61, 0x62, 0x63, 0x8000].contains op

/-- An opcode is served in a device state on a pair (R390). -/
def opServed (st : DevState) (p op : Nat) : Bool :=
  match st with
  | .booting => opAlways op
  | .ready => op != 0x8000
  | .recovery => p == 0 && (opAlways op || op == 0x50 || op == 0x51)
  | .fatal => p == 0 && opAlways op

/-- The request is of a long opcode (R380). -/
def MbxReq.long (r : MbxReq) : Bool :=
  [0x10, 0x11, 0x12, 0x20, 0x22, 0x27, 0x31, 0x42, 0x50, 0x51].contains r.opcode || (r.opcode == 0x13 && bit (fld r.payload 1 1) 0)

/-- A request that firmware took before turn `n` is still to be served on another pair: changes take effect in the order of the takes. A long one has
yielded (R378). -/
def State.servedFirst (s : State) (p n : Nat) : Bool :=
  (List.range 16).any fun k => k != p && match (s.pci.pairs.at k).cur with
    | some q => decide (q.turn < n) && !q.started && !q.long && q.answer.isNone && opServed s.pci.state k q.opcode
    | none => false

/-- The request in progress on a pair when it is of an opcode, its work not yet begun, served in the present state, and next in turn. -/
def State.req? (s : State) (p op : Nat) : Option MbxReq :=
  match (s.pci.pairs.at p).cur with
  | some r => if r.opcode = op ∧ !r.started ∧ opServed s.pci.state p op ∧ !s.pci.d3hot ∧ p < 16 ∧ !s.servedFirst p r.turn then some r else none
  | none => none

/-- A long request has begun its work and yields (R378). -/
def State.startReq (s : State) (p : Nat) : State :=
  { s with pci := { s.pci with pairs := s.pci.pairs.mod p fun q => { q with cur := q.cur.map fun r => { r with started := true } } } }

/-- The response to a SELFTEST: STATUS 0 and the outcome in DETAIL (R380). -/
def State.answerTest (s : State) (p outcome : Nat) : State := s.respond p 0 outcome []

end Sys2Proof.Machine
end

