-- ==== Sys2Proof/Machine/GraphOps.lean ====
section
/-! DEFINITION. Belfry's shared operations: voted beacon reads, signals, readiness, the end of a node and of an instance,
cancellation, shedding, and what follows when a graph must stop (R33 to R65). -/
namespace Sys2Proof.Machine
open Sys2Proof

/-! ## Small updates -/

/-- Belfry's part of the state changed. -/
def State.modBf (s : State) (f : Belfry → Belfry) : State := { s with bf := f s.bf }

/-- A context changed. -/
def State.modCtx (s : State) (i : Nat) (f : Ctx → Ctx) : State :=
  s.modBf fun b => { b with ctxs := aMod b.ctxs i f }

/-- A graph changed. -/
def State.modGraph (s : State) (g : Nat) (f : Graph → Graph) : State :=
  s.modBf fun b => { b with graphs := aMod b.graphs g f }

/-- A multicast group changed. -/
def State.modGroup (s : State) (g : Nat) (f : McGroup → McGroup) : State :=
  s.modBf fun b => { b with groups := aMod b.groups g f }

/-- A receiver of a multicast group changed. -/
def State.modRecv (s : State) (g r : Nat) (f : McRecv → McRecv) : State :=
  s.modGroup g fun q => { q with recvs := q.recvs.modify r f }

/-- The context at an index. -/
def State.ctx? (s : State) (i : Nat) : Option Ctx := aGet s.bf.ctxs i

/-- The instance a context belongs to. -/
def State.inst? (s : State) (c : Ctx) : Option Instance :=
  (aGet s.bf.graphs c.graph).bind fun g => (g.copies[c.copy]?).join

/-- The contexts of one copy of a graph, with their indices. -/
def State.copyCtxs (s : State) (g copy : Nat) : List (Nat × Ctx) :=
  s.bf.ctxs.filter fun p => p.2.graph == g && p.2.copy == copy

/-- The graph whose image allocates a beacon, group beacons among them. -/
def State.beaconOwner (s : State) (b : Nat) : Option Nat :=
  (s.bf.graphs.find? fun p =>
    !p.2.parked && (p.2.image.beacons.any (·.index == b) || p.2.groups.any fun gi =>
      match aGet s.bf.groups gi with
      | some q => (List.range q.recvN).any fun r => q.unitBeacon r == b || q.creditBeacon r == b
      | none => false)).map (·.1)

/-! ## Frame numbers (R236) -/

/-- F lies ahead of N. -/
def aheadOf (f n : Nat) : Bool :=
  let d := (f + 2 ^ 32 - n % 2 ^ 32) % 2 ^ 32
  1 ≤ d && d < 2 ^ 31

/-- The next frame number. -/
def nextFrame (n : Nat) : Nat := (n + 1) % 2 ^ 32

/-! ## Beacons (R42 to R46) -/

/-- A beacon is written in all three lanes. -/
def State.setBeacon (s : State) (b v : Nat) : State :=
  s.modBf fun f => { f with beacons := aSet f.beacons b { a := v, b := v, c := v } }

/-- An operation on flash that no pair waits for any longer. -/
def unanswered : FlashOp → FlashOp
  | .commit _ target image => .commit none target image
  | .repair => .repair

/-- No pair waits any longer for an operation that outlives the fatal condition: a write of flash, or a frame to the field side. -/
def State.dropWaiting (s : State) : State :=
  { s with
    flash := { s.flash with writing := s.flash.writing.map unanswered }
    field := { s.field with jobs := s.field.jobs.map fun j => { j with pair := none } } }

/-- A fatal condition (R452, R453): dispatch stops, every unit is quiesced, the status is logged, every request in progress
completes with 0x0106, and the device enters FATAL, signalled on vectors 1 and 0. A second condition changes nothing. -/
def State.fatal (s : State) (status : Nat) : State :=
  if s.pci.state = .fatal then s
  else
    let s1 := s.modBf fun b => { b with ready := false, halted := true
                                        fatal := b.fatal || status == 0x020C || status == 0x020E
                                        lockstepOk := b.lockstepOk && status != 0x020C }
    let s2 := { s1 with pci := { s1.pci with state := .fatal, fatalStatus := status } }
    let s3 := (List.range 16).foldl (fun s p => s.answer p 0x0106) s2
    s3.dropWaiting.event status 0 0xFF [1, 0]

/-- A lane is masked; a second one is a second lane failure, which is fatal (R46). -/
def State.maskLane (s : State) (lane : Nat) : State :=
  if s.bf.maskedLane = lane + 1 then s
  else if s.bf.maskedLane ≠ 0 then s.fatal 0x020E
  else ((s.modBf fun b => { b with maskedLane := lane + 1 }).event 0x020D 5 0xFF []).updateHealth

/-- A lane that disagrees: the count, and the mask when the same lane disagrees twice within one second (R46). -/
def State.laneDisagree (s : State) (lane : Nat) : State :=
  let s1 := s.modBf fun b => { b with disagree := satInc 8 b.disagree, laneLast := aSet b.laneLast lane s.now }
  match aGet s.bf.laneLast lane with
  | some t =>
    if s.now ≤ t + 1000000000 ∧ s.bf.maskedLane = 0 then s1.maskLane lane else s1
  | none => s1

/-- A voted read of a beacon, with an upset the environment may cause: the voted value is rewritten to every lane; a lane that
disagrees is counted and may be masked; no two agreeing lanes is a second lane failure, which is fatal (R46). -/
def State.voteRead (s : State) (b : Nat) (u : Option LaneUpset) : Nat × State :=
  let x := match u with
    | some u => (s.beacon b).upset u
    | none => s.beacon b
  let v := x.vote s.bf.maskedLane
  if v.2.2 then (v.1, s.fatal 0x020E)
  else
    match v.2.1 with
    | some lane => (v.1, (s.setBeacon b v.1).laneDisagree lane)
    | none => (v.1, if u.isSome then s.setBeacon b v.1 else s)

/-- Counts that the waits of a context take from a beacon (R44). -/
def Ctx.takes (c : Ctx) (b : Nat) : Nat := ((c.waits.filter fun w => !w.observe && w.beacon == b).map (·.count)).sum

/-- Every wait of a context is met, and no count would be taken twice (R44). -/
def State.waitsMet (s : State) (c : Ctx) : Bool :=
  c.waits.all fun w => decide (w.count ≤ s.beaconValue w.beacon ∧ c.takes w.beacon ≤ s.beaconValue w.beacon)

/-- Waiting nodes whose waits are met become READY, with T_READY (R44, R37). -/
def State.refreshReady (s : State) : State :=
  let up := fun (p : Nat × Ctx) =>
    if p.2.state == .waiting && !p.2.isSource && !s.bf.halted && s.waitsMet p.2
    then (p.1, { p.2 with state := .ready, tReady := s.dev }) else p
  s.modBf fun f => { f with ctxs := f.ctxs.map up }

/-- A signal adds its increment; a sum above 65,535 holds 65,535, is counted, and stops new instances of the graph with status
0x0209 (R43). -/
def State.signalBeacon (s : State) (b inc : Nat) (u : Option LaneUpset := none) : State :=
  let r := s.voteRead b u
  let v := r.1 + inc
  if r.2.bf.fatal then r.2
  else if v ≤ 65535 then (r.2.setBeacon b v).refreshReady
  else
    let s1 := (r.2.setBeacon b 65535).modBf fun f => { f with overflowCount := satInc 32 f.overflowCount }
    let s2 := match s1.beaconOwner b with
      | some g => (s1.modGraph g fun q => { q with status := 0x0209, stopped := true }).event 0x0209 5 g [34 + g % 16]
      | none => s1
    s2.refreshReady

/-! ## Multicast groups: handing over a buffer, shedding (R54, R56, R57) -/

/-- The units of a node producer's buffer: CHUNK bytes each, the last taking the remainder (R57). -/
def McGroup.bufferUnits (q : McGroup) (frame : Nat) : List McUnit :=
  let n := ceilDiv q.srcBytes (max q.chunk 1)
  (List.range n).map fun k =>
    { frame := frame, unit := k, last := k + 1 == n, addr := q.srcAddr + k * q.chunk
      len := min q.chunk (q.srcBytes - k * q.chunk) }

/-- A unit joins the queue of every receiver that is not shed of its frame; a receiver shed of an earlier frame resumes with
the first unit of the next (R54). -/
def State.offerUnits (s : State) (g : Nat) (us : List McUnit) : State :=
  let one := fun (r : McRecv) (u : McUnit) =>
    if r.shedFrame == some u.frame then r
    else { r with todo := r.todo ++ [u], shedFrame := if u.unit = 0 then none else r.shedFrame }
  s.modGroup g fun q => { q with
    recvs := q.recvs.map fun r => us.foldl one r
    offered := match us.getLast? with
      | some u => some (u.frame, u.unit + 1, u.last)
      | none => q.offered
    report := if q.isTap then q.report ++ us.map fun u => { u with lines := [] } else q.report }

/-- Once every unit of a node producer's buffer has been written to or shed from every receiver, the group signals FREE_BEACON
with increment 1 (R57). -/
def State.freeIfDone (s : State) (g : Nat) : State :=
  match aGet s.bf.groups g with
  | some q =>
    if q.bufferHeld && q.recvs.all (·.todo.isEmpty) then
      (s.modGroup g fun q => { q with bufferHeld := false }).signalBeacon q.freeBeacon 1
    else s
  | none => s

/-- The frame that a receiver loses when it is shed, and the first unit of it that is lost: that of its next unit; with none queued the next unit of
the frame in progress, or the first of frame `due`, where that one is still to come (R54, R56). -/
def McGroup.lost (q : McGroup) (v : McRecv) (due : Option Nat) : Option (Nat × Nat) :=
  match v.todo.head?, q.offered with
  | some u, _ => some (u.frame, u.unit)
  | none, some (f, n, false) => if v.shedFrame == some f then none else some (f, n)
  | none, o => match due with
    | some f => if v.shedFrame == some f || !(o.all fun x => aheadOf f x.1) then none else some (f, 0)
    | none => none

/-- A receiver is shed: no further unit of the frame, a gap marker for its next slot beside those that wait, and its shed counter (R54, R56;
DEDUCED, log entry 106). -/
def State.shed (s : State) (g r reason : Nat) (due : Option Nat := none) : State :=
  match aGet s.bf.groups g with
  | none => s
  | some q => match q.recvs[r]? with
    | none => s
    | some v => match q.lost v due with
      | none => s
      | some (f, n) =>
        let s1 := s.modRecv g r fun v => { v with
          todo := v.todo.filter (·.frame != f)
          shedFrame := some f
          gaps := v.gaps ++ [{ frame := f, firstUnit := n, reason := reason, timeLo := s.dev % 2 ^ 32 }]
          holdFrom := none }
        let k := g * 8 + r
        (s1.modBf fun b => { b with shedCount := aSet b.shedCount k (satInc 32 ((aGet b.shedCount k).getD 0)) }).freeIfDone g

/-- The device's group that a RELAY node reads: GROUP of the graph's own groups. -/
def State.relayGroup? (s : State) (c : Ctx) : Option Nat := (aGet s.bf.graphs c.graph).bind fun g => g.groups[c.relayGroup]?

/-- The receiver of a group that a context serves as: the one that a RELAY node names (R405), or the one on whose UNIT_BEACON the context
waits (R58). -/
def State.recvOf (s : State) (c : Ctx) : List (Nat × Nat) :=
  if c.relay then ((s.relayGroup? c).toList).map fun g => (g, c.relayRecv)
  else (s.bf.groups.map fun p =>
    ((List.range p.2.recvN).filter fun r => c.waits.any fun w => w.beacon == p.2.unitBeacon r).map fun r => (p.1, r)).flatten

/-- A receiver node that is cancelled or faults is shed at once, with REASON 0x0003, of the frame of its instance where none of it has come yet; a
timer's count names no frame of a camera (R56). -/
def State.shedNode (s : State) (c : Ctx) : State :=
  (s.recvOf c).foldl (fun s gr =>
    let tap := ((aGet s.bf.groups gr.1).map (·.isTap)).getD false
    s.shed gr.1 gr.2 3 (if tap ∧ c.anchorKind = 3 then none else some c.frame)) s

/-- A signal entry with GROUP set hands the producer's buffer to the group, which is free again at once where every receiver is shed of its frame
(R57). -/
def State.handBuffer (s : State) (g frame : Nat) : State :=
  match aGet s.bf.groups g with
  | some q =>
    if q.isTap then s
    else ((s.modGroup g fun q => { q with bufferHeld := true }).offerUnits g (q.bufferUnits frame)).freeIfDone g
  | none => s

/-- The port to module `m` takes traffic of graph `g`: it is up, and not shut to the graph (R407). -/
def State.portServes (s : State) (g m : Nat) : Bool :=
  let x := s.peer.at (s.portTo m)
  x.up && !x.lost && !s.shutTo g m

/-- A window's port carries nothing for the graph of the node in a context (R407). -/
def State.nodeShut (s : State) (i : Nat) (rs : List (Nat × Nat)) : Bool := (s.ctx? i).any fun c => s.shutOut c.graph rs

/-- A graph's signal leaves for an import entry of another module: on the lanes of its port, or held while the port retrains; a module whose port
does not serve the graph takes none, and 0x0704 is logged (R400, R407, R409). -/
def State.sendSignal (s : State) (g m imp inc : Nat) : State :=
  if s.portServes g m then s.sendOn (s.portTo m) (.remoteSignal m imp inc) else s.noteRare 0x0704 7 (s.portTo m)

/-! ## The end of a node (R42, R45, R62 to R64) -/

/-- A node's signals are applied in the order of its list; a signal to another module leaves over the peer link (R45, R400). -/
def State.issueSignals (s : State) (i : Nat) (c : Ctx) : State :=
  let s1 := c.sigs.foldl (fun s e =>
    if e.group then
      match (aGet s.bf.graphs c.graph).bind fun g => g.groups[e.beacon]? with
      | some gi => s.handBuffer gi c.frame
      | none => s
    else if e.module = s.straps.module then s.signalBeacon e.beacon e.inc
    else s.sendSignal c.graph e.module (e.beacon % 1024) e.inc) s
  if c.sigs.isEmpty then s1 else s1.modCtx i fun c => { c with signalled := true }

/-- The 64-byte completion record (R64). -/
def Ctx.record (c : Ctx) (i status : Nat) (st : NodeState) (lastTile dev : Nat) : Bytes :=
  leBytes 2 status ++ leBytes 1 st.code ++ leBytes 1 (b2n c.missed + 2 * b2n c.redone) ++ leBytes 4 c.frame
    ++ leBytes 4 lastTile ++ leBytes 2 i ++ leBytes 2 c.graph ++ leBytes 8 c.tStart ++ leBytes 8 dev ++ padTo 32 c.typeData

/-- The beacons of one copy return to their initial values (R42). -/
def State.restoreBeacons (s : State) (g copy : Nat) : State :=
  match aGet s.bf.graphs g with
  | some q => (q.image.beacons.filter (·.copy == copy)).foldl (fun s b => s.setBeacon b.index b.init) s
  | none => s

/-- A graph's contexts, beacons, counters and partitions are freed (R41), the worn contexts among them retire, which the repair record and the health take
up (R444, R446, R449), and its protection entries withdrawn where no commit has changed them since
(DESIGN CHOICE; log entry 127). -/
def State.freeGraphHold (s : State) (g : Nat) : State :=
  match aGet s.bf.graphs g with
  | none => s
  | some q =>
    let owned := q.image.beacons.map (·.index)
    let s1 := s.modBf fun b => { b with
      ctxs := b.ctxs.filter fun p => p.2.graph != g
      fused := b.fused.filter fun p => !(b.ctxs.any fun c => c.1 == p.1 && c.2.graph == g)
      beacons := b.beacons.filter fun p => !owned.contains p.1
      retiredCtx := (b.wornCtx.filter fun i => b.ctxs.any fun c => c.1 == i && c.2.graph == g).foldl sInsert b.retiredCtx
      wornCtx := b.wornCtx.filter fun i => !(b.ctxs.any fun c => c.1 == i && c.2.graph == g) }
    let s2 := { s1 with watch := { s1.watch with prt := s1.watch.prt.filter fun e => !q.entries.contains e }
                        flash := { s1.flash with repairDue := s1.flash.repairDue || s1.bf.retiredCtx != s.bf.retiredCtx } }
    ((s2.modGraph g fun q => { q with counters := [], partitions := [], entries := [], copies := q.copies.map fun _ => none }).retireFreed).updateHealth

/-- A graph leaves the device: everything it holds, its groups and its DRAM buffers are freed (R380), and the import entries and counter mappings
that name it go with it (DEDUCED). -/
def State.removeGraph (s : State) (g : Nat) : State :=
  let s1 := s.freeGraphHold g
  let gs := ((aGet s.bf.graphs g).map (·.groups)).getD []
  let gb := ((gs.filterMap fun k => aGet s.bf.groups k).map fun q =>
    ((List.range q.recvN).map fun r => [q.unitBeacon r, q.creditBeacon r]).flatten).flatten
  { s1.modBf fun b => { b with groups := b.groups.filter (fun p => !gs.contains p.1), graphs := aErase b.graphs g
                               beacons := b.beacons.filter fun p => !gb.contains p.1 } with
    mem := { s1.mem with dramHeld := s1.mem.dramHeld.filter fun d => d.2.2 != g }
    imports := s1.imports.filter fun p => p.2.graph != g, ctrMaps := s1.ctrMaps.filter fun m => m.graph != g
    peer := s1.peer.map fun x => { x with barred := x.barred.filter (· ≠ g) } }

/-- The contexts and beacon values a park saves: contexts in index order, then beacons in image order (log entry 8). -/
def State.saveBytes (s : State) (g : Nat) : Bytes :=
  ((s.bf.ctxs.filter fun p => p.2.graph == g).map fun p => p.2.bytes).flatten
    ++ (((aGet s.bf.graphs g).map fun q => q.image.beacons.map fun b => leBytes 2 (s.beaconValue b.index)).getD []).flatten

/-- The eviction itself: the save, then the graph is PARKED and its pair answered. A failed write to the host window aborts the
park; `hostFail`: the endpoint fails it (R41, R97, R380). -/
def State.evictGraph (s : State) (g pair : Nat) (hostFail : Bool) : State :=
  match (aGet s.bf.graphs g).bind (·.saved) with
  | none => s
  | some (a, _) =>
    let b := s.saveBytes g
    let w := if hostFail && regionOf a == .host then (0x0310, s) else s.write initFirmware a b
    if w.1 = 0 ∨ w.1 = 0x0309 then
      ((w.2.freeGraphHold g).modGraph g fun q => { q with parked := true, drain := .none }).respond pair 0 0
        (leBytes 4 b.length)
    else (w.2.modGraph g fun q => { q with drain := .none, saved := none }).respond pair 0x0310 0 (leBytes 4 0)

/-- A remote signal to an import entry of a graph is in flight on a port: it has arrived and waits its turn among the commands (R401; DEDUCED, log
entry 161). -/
def State.signalInFlight (s : State) (g : Nat) : Bool :=
  s.pending.any fun c => match c with
    | .remoteSignal _ _ imp _ => ((aGet s.imports imp).map (·.graph)) == some g
    | _ => false

/-- An instance all of whose nodes are done, cancelled or faulted ends: the copy's beacons are restored and the copy is free, once no remote signal to
the graph is in flight (R42, R62, R401). -/
def State.endInstance (s : State) (g copy : Nat) : State :=
  match (aGet s.bf.graphs g).bind fun q => (q.copies[copy]?).join with
  | none => s
  | some _ =>
    if (s.copyCtxs g copy).all (fun p => p.2.state.overs) && !s.signalInFlight g then
      (s.restoreBeacons g copy).modGraph g fun q => { q with copies := q.copies.set copy none }
    else s

/-- A Spire node that ends before it has started: no macro ran, none is flagged, and each has a record of zeros (R187, R224). -/
def State.closeUnrun (s : State) (i : Nat) (c : Ctx) : State :=
  if c.type = 4 ∧ (aGet s.spire i).isNone then
    ((List.range c.workCount).foldl (fun s k => s.record initBelfry (c.complAddr + 64 + 32 * k) (zeros 32)) s).modCtx i fun c =>
      { c with typeData := zeros 20 ++ leBytes 2 0xFFFF ++ zeros 10 }
  else s

/-- A node ends in a state with a status (R45, R60 to R64): times, counts, the record before any signal, the signals of a
node that is done, the shedding of one that is not and has not been shed at its cancel point, and the end of its instance. A node that is done both late and with a poisoned write carries
0x0309 (DESIGN CHOICE, log entry 113). -/
def State.endNode (s0 : State) (i : Nat) (st : NodeState) (status lastTile : Nat) : State :=
  let s := match s0.ctx? i with
    | some c => s0.closeUnrun i c
    | none => s0
  match s.ctx? i with
  | none => s
  | some c =>
    let code := if st = .done ∧ status = 0 then
        if c.poisoned then 0x0309 else if c.missed then 0x0208 else 0
      else status
    let s1 := s.modCtx i fun c => { c with
      state := st, draining := false, lastStatus := code, tDone := s.dev, lastTile := lastTile
      runs := if st = .done then satInc 32 c.runs else c.runs
      cancels := if st = .cancelled then satInc 32 c.cancels else c.cancels }
    let s2 := s1.modBf fun b => { b with fused := aErase b.fused i
                                         cancelCount := if st = .cancelled then satInc 32 b.cancelCount else b.cancelCount }
    let s3 := s2.record initBelfry c.complAddr (c.record i code st lastTile s.dev)
    let s4 := if st = .done then s3.issueSignals i c else if c.draining then s3 else s3.shedNode c
    s4.endInstance c.graph c.copy

/-- What a node's signals add to a beacon: the increments of its entries, and for a group's UNIT_BEACON the units of the buffer it hands over
(R40, R57). -/
def State.nodeAdds (s : State) (c : Ctx) (b : Nat) : Nat :=
  (c.sigs.map fun e =>
    if e.group then
      match ((aGet s.bf.graphs c.graph).bind fun g => g.groups[e.beacon]?).bind fun k => aGet s.bf.groups k with
      | some q => if (List.range q.recvN).any (fun r => q.unitBeacon r == b) then (q.bufferUnits c.frame).length else 0
      | none => 0
    else if e.module = s.straps.module ∧ e.beacon = b then e.inc else 0).sum

/-- What the units and gap markers on their way to a receiver will add to its UNIT_BEACON (R58). -/
def State.queuedAdds (s : State) (b : Nat) : Nat :=
  (s.bf.groups.map fun p => ((List.range p.2.recvN).map fun r => match p.2.recvs[r]? with
    | some v => if p.2.unitBeacon r = b then v.todo.length + v.gaps.length else 0
    | none => 0).sum).sum

/-- What the producers of the instance that are not over may still add to a beacon; `none` when a source node, or a producer
that is still to signal without limit, may (R62). -/
def State.mayStillAdd (s : State) (g copy b : Nat) : Option Nat :=
  (s.copyCtxs g copy).foldl (fun acc p =>
    match acc with
    | none => none
    | some n =>
      let inc := s.nodeAdds p.2 b
      if inc = 0 ∨ p.2.state.overs ∨ p.2.draining then some n
      else if p.2.isSource then none
      else some (n + inc)) (some (s.queuedAdds b))

/-- A node that has not started cannot start any more: some wait needs the signals of a node of the instance that was
cancelled or has faulted, and what remains cannot meet it (R62). -/
def State.starved (s : State) (c : Ctx) : Bool :=
  c.waits.any fun w =>
    let need := max w.count (c.takes w.beacon)
    s.beaconValue w.beacon < need
      && (s.copyCtxs c.graph c.copy).any (fun p =>
        (p.2.state == .cancelled || p.2.state == .faulted || p.2.draining) && s.nodeAdds p.2 w.beacon != 0)
      && match s.mayStillAdd c.graph c.copy w.beacon with
        | some n => s.beaconValue w.beacon + n < need
        | none => false

/-- Successors that can no longer start are cancelled without running, with LAST_TILE all ones, until none is left (R62). -/
def State.cascade (s : State) (g copy : Nat) : Nat → State
  | 0 => s
  | fuel + 1 =>
    match (s.copyCtxs g copy).find? fun p => (p.2.state == .waiting || p.2.state == .ready) && s.starved p.2 with
    | some p => (s.endNode p.1 .cancelled 0x0207 0xFFFFFFFF).cascade g copy fuel
    | none => s

/-- The cascade over every node of an instance. -/
def State.cascadeAll (s : State) (g copy : Nat) : State := s.cascade g copy (s.copyCtxs g copy).length

/-- A node ends FAULTED: its beacons are not signalled and its successors follow R62 (R63). -/
def State.faultNode (s : State) (i status lastTile : Nat) : State :=
  match s.ctx? i with
  | some c =>
    if c.state.overs ∨ c.state = .idle then s
    else (s.endNode i .faulted status lastTile).cascadeAll c.graph c.copy
  | none => s

/-- A node is cancelled: a running node is shed of its groups at once, stops issuing and drains, and ends at CANCEL_DRAIN_COMPLETE; a node that has
not started, or a source node, ends at once (R56, R60, R61). -/
def State.cancelNode (s : State) (i : Nat) : State :=
  match s.ctx? i with
  | some c =>
    if c.state.overs ∨ c.state = .idle ∨ c.draining then s
    else
      let s1 :=
        if c.state = .running ∧ !c.isSource then
          let s1 := (s.modCtx i fun c => { c with draining := true }).shedNode c
          match c.type with
          | 5 => { s1 with mem := { s1.mem with dma := s1.mem.dma.mod (bits c.unitMask 0 4) fun e => { e with cancelDrain := true } } }
          | 7 => { s1 with mem := { s1.mem with dma := s1.mem.dma.mod (12 + bits c.unitMask 0 4) fun e => { e with cancelDrain := true } } }
          | _ => s1
        else s.endNode i .cancelled 0x0207 0xFFFFFFFF
      s1.cascadeAll c.graph c.copy
  | none => s

/-- Every unfinished node of an instance is cancelled, CANCELLABLE or not (R60). -/
def State.cancelInstance (s : State) (g copy : Nat) : State :=
  (s.copyCtxs g copy).foldl (fun s p => s.cancelNode p.1) s

/-- Every instance in flight of a graph is cancelled. -/
def State.cancelGraph (s : State) (g : Nat) : State :=
  match aGet s.bf.graphs g with
  | some q => (List.range q.copies.length).foldl (fun s k => s.cancelInstance g k) s
  | none => s

/-- A graph has an instance in flight. -/
def Graph.inFlight (q : Graph) : Bool := q.copies.any (·.isSome)

/-- A graph stops with a status: no further instance starts, those in flight are cancelled, an event with SOURCE 5 is raised on
the graph's vector (R65, R407, R435). -/
def State.stopGraph (s : State) (g status : Nat) : State :=
  ((s.modGraph g fun q => { q with stopped := true, status := status }).event status 5 g [34 + g % 16]).cancelGraph g

/-- A graph stops with a status once its instances in flight have ended: no further instance starts (R65). -/
def State.haltGraph (s : State) (g status : Nat) : State :=
  (s.modGraph g fun q => { q with stopped := true, status := status }).event status 5 g [34 + g % 16]

/-- The nodes in progress that name a unit. -/
def State.nodesOn (s : State) (u : UnitRef) : List (Nat × Ctx) :=
  s.bf.ctxs.filter fun p => p.2.units.contains u

/-- A vision engine is in its self-test: it returns to service for the next node when the test passes (R341). -/
def State.unitTested (s : State) : UnitRef → Bool
  | .vis n => (s.vis.at n).selftest
  | _ => false

/-- A unit is free: no running or draining node names it, and it is in service (R49, R61, R341). -/
def State.unitFree (s : State) (u : UnitRef) : Bool :=
  !s.unitTested u && !(s.bf.ctxs.any fun p => (p.2.state == .running && !p.2.isSource || p.2.draining) && p.2.units.contains u)

/-- An admitted graph or a bound network names a unit (R155, R380). -/
def State.unitNamed (s : State) (u : UnitRef) : Bool := s.bf.ctxs.any fun p => p.2.units.contains u

/-! ## Source nodes (R36, R283, R305) -/

/-- Two cameras number their frames alike: they are one, or members of one genlock group (R236, R238). -/
def State.sameNumbers (s : State) (c d : Nat) : Bool :=
  let x := (s.cams.at c).bind
  let y := (s.cams.at d).bind
  c == d || (bMember x && bMember y && bGroup x == bGroup y)

/-- A frame of camera `cam`, started at timebase count `since`, is the one that a source node of an instance reports: the instance's own where its
anchor numbers that camera's frames, otherwise the first that starts after the anchor (R36; DEDUCED, log entry 107). -/
def State.reportsOn (s : State) (c : Ctx) (inst : Instance) (cam frame since : Nat) : Bool :=
  if c.anchorKind < 3 ∧ s.sameNumbers cam c.anchorCam then inst.frame == frame
  else match c.source with
    | some f => f == frame
    | none => decide (inst.anchorTime ≤ since)

/-- An event of an RFE stage or a row-group of an SNE network reaches the source nodes that name it: a node becomes RUNNING with
its first event, signals on each `every`-th, always on the last, and is done with the last. `hit` says which contexts the
event is for and gives each its `every`. -/
def State.sourceEvent (s : State) (cam frame since : Nat) (last : Bool) (hit : Ctx → Option Nat) : State :=
  s.bf.ctxs.foldl (fun s p =>
    match hit p.2, s.ctx? p.1 with
    | some every, some c =>
      match s.inst? c with
      | some inst =>
        if s.reportsOn c inst cam frame since ∧ (c.state = .waiting ∨ c.state = .running) then
          let s1 := s.modCtx p.1 fun c => { c with
            state := .running, events := c.events + 1, source := some frame
            tReady := if c.state = .waiting then s.dev else c.tReady
            tStart := if c.state = .waiting then s.dev else c.tStart }
          if last then (s1.endNode p.1 .done 0 0xFFFFFFFF).cascadeAll c.graph c.copy
          else if (c.events + 1) % every = 0 then s1.issueSignals p.1 c
          else s1
        else s
      | none => s
    | _, _ => s) s

/-- A write of a frame was completed poisoned: the source nodes that report the frame and that `hit` names carry status 0x0309 (R433). -/
def State.poisonSources (s : State) (cam frame since : Nat) (hit : Ctx → Option Nat) : State :=
  s.bf.ctxs.foldl (fun s p =>
    match hit p.2, s.inst? p.2 with
    | some _, some inst =>
      if s.reportsOn p.2 inst cam frame since ∧ (p.2.state = .waiting ∨ p.2.state = .running) then s.modCtx p.1 fun c => { c with poisoned := true } else s
    | _, _ => s) s

/-- An event of a frame reaches some node: one that names it, of an instance that reports the frame (R36, R285). -/
def State.eventTaken (s : State) (cam frame since : Nat) (hit : Ctx → Option Nat) : Bool :=
  s.bf.ctxs.any fun p => (hit p.2).isSome && (p.2.state == .waiting || p.2.state == .running) && match s.inst? p.2 with
    | some inst => s.reportsOn p.2 inst cam frame since
    | none => false

end Sys2Proof.Machine
end

