-- ==== Sys2Proof/Machine/FieldOps.lean ====
section
/-! DEFINITION. Field-message nodes and the frames of the barrier: layout, CRC, checks, and what a node holds (R410 to R428). -/
namespace Sys2Proof.Machine
open Sys2Proof

/-! ## Frames (R414 to R416) -/

def fType (f : Bytes) : Nat := fld f 1 1
def fChan (f : Bytes) : Nat := fld f 2 1
def fSeq (f : Bytes) : Nat := fld f 4 2

/-- A frame of 32 bytes: SYNC, TYPE, CHAN, SEQ, 20 bytes of payload and the CRC. -/
def frameOf (type chan seq : Nat) (payload : Bytes) : Bytes :=
  let b := leBytes 1 0xBC ++ leBytes 1 type ++ leBytes 1 chan ++ zeros 1 ++ leBytes 2 seq ++ zeros 2 ++ padTo 20 payload
  b ++ leBytes 4 (crc32 b)

/-- The CRC of a received frame holds. -/
def frameCrcOk (f : Bytes) : Bool := f.length == 32 && crc32 (f.take 28) == fld f 0x1C 4

/-- The types a receiver knows: to Lantern, or to the host. -/
def frameKnown (toLantern : Bool) (f : Bytes) : Bool :=
  if toLantern then [1, 2, 0x10, 0x11].contains (fType f) else [0x81, 0x82, 0x90, 0x91, 0x92].contains (fType f)

/-- CHAN is one that the type allows (R416). -/
def chanOk (type ch : Nat) : Bool :=
  match type with
  | 0x01 | 0x81 => ch < 4
  | 0x02 | 0x82 => ch == 4 || ch == 5
  | 0x10 => ch < 6
  | 0x11 | 0x90 | 0x91 => ch < 6 || ch == 7
  | _ => ch == 7

/-- A code of R429. -/
def fieldCode (st : Nat) : Bool := 0x0801 ≤ st && st ≤ 0x080E

/-- A channel's STATE is one of R418's; the link has none. -/
def stateOk (f : Bytes) (off : Nat) : Bool := fChan f == 7 || fld f off 1 ≤ 4

/-- The reserved bytes of a payload and the field values that R416 lists. -/
def payloadOk (f : Bytes) : Bool :=
  match fType f with
  | 0x01 => fld f 0x1A 2 == 0
  | 0x02 => fld f 0x0A 2 == 0 && allZero (sub f 0x12 10)
  | 0x10 => [0, 0x10, 0x20, 0x30].contains (fld f 8 1) && fld f 0x0A 2 == 0
  | 0x11 => fld f 0x0A 2 == 0 && allZero (sub f 0x10 12) && fld f 8 1 ≤ 4 && (fld f 8 1 == 4) == (fChan f == 7)
  | 0x81 => bits (fld f 0x13 1) 4 4 == 0 && fld f 0x12 1 ≤ 4
  | 0x82 => fld f 0x0F 1 == 0 && allZero (sub f 0x18 4) && fld f 0x0E 1 ≤ 4
  | 0x90 => allZero (sub f 0x0F 13) && (fld f 9 1 == 0x10 || fld f 9 1 == 0x11) && (fld f 0xA 2 == 0 || fieldCode (fld f 0xA 2)) && stateOk f 0xE
  | 0x91 => fld f 0x0B 1 == 0 && allZero (sub f 0x14 8) && fieldCode (fld f 8 2) && stateOk f 0xA
  | _ => bits (fld f 8 1) 2 6 == 0 && allZero (sub f 0x16 6)

/-- A frame that passed its CRC is malformed (R415). -/
def frameMalformed (f : Bytes) : Bool :=
  bits (fChan f) 3 5 != 0 || fld f 3 1 != 0 || fld f 6 2 != 0 || !chanOk (fType f) (fChan f) || !payloadOk f

/-- What the receiver of a frame finds (R415), in the order of the rule; bytes without SYNC are no frame to it (R410). -/
inductive FrameVerdict where
  | unaligned
  | crc
  | malformed
  | unknown
  | good
  deriving DecidableEq, Repr, Inhabited

/-- The check of a received frame. -/
def frameVerdict (toLantern : Bool) (f : Bytes) : FrameVerdict :=
  if fld f 0 1 ≠ 0xBC then .unaligned
  else if !frameCrcOk f then .crc
  else if !frameKnown toLantern f then .unknown
  else if frameMalformed f then .malformed
  else .good

/-- What SEQ adds to GAP: the difference from the last accepted SEQ, less one. -/
def gapOf (last : Option Nat) (seq : Nat) : Nat :=
  match last with
  | none => 0
  | some l => (seq + 2 ^ 16 - l - 1) % 2 ^ 16

/-! ## Field-message nodes (R425, R426) -/

/-- The link unit changed. -/
def State.modField (s : State) (f : Field → Field) : State := { s with field := f s.field }

/-- A field-message node is dispatched: with the link down it ends FAULTED with 0x0801. -/
def State.startField (s : State) (i : Nat) : State :=
  if s.field.up then s.modField fun x => { x with runs := x.runs ++ [{ ctx := i }] }
  else s.faultNode i 0x0801 0xFFFFFFFF

/-- The run of a node. -/
def State.fieldRun? (s : State) (i : Nat) : Option FieldRun := s.field.runs.find? (·.ctx == i)

/-- Every record of the node has been sent. -/
def State.fieldDone (s : State) (i : Nat) (c : Ctx) : Bool :=
  match s.fieldRun? i with
  | some r => c.workCount ≤ r.sent
  | none => false

/-- LAST_TILE of a field-message node: the last record sent. -/
def State.fieldLast (s : State) (i : Nat) : Nat :=
  match s.fieldRun? i with
  | some r => if r.sent = 0 then 0xFFFFFFFF else r.sent - 1
  | none => 0xFFFFFFFF

/-- TYPE_DATA of R426. -/
def State.fieldClose (s : State) (i : Nat) : State :=
  match s.fieldRun? i with
  | some r => s.modCtx i fun c => { c with typeData := leBytes 4 r.sent ++ leBytes 8 r.tLast ++ zeros 20 }
  | none => s

/-- The node's records not begun are not sent. -/
def State.fieldDrop (s : State) (i : Nat) : State := s.modField fun x => { x with runs := x.runs.filter (·.ctx != i) }

end Sys2Proof.Machine
end

