-- ==== Sys2Proof/Machine/PeerOps.lean ====
section
/-! DEFINITION. Peer-transfer nodes: what a COPY or RELAY node holds and how Belfry reads it (R397 to R399, R405). The engine of port k is
DMA engine 12 + k. -/
namespace Sys2Proof.Machine
open Sys2Proof

/-- A peer port changed. -/
def State.modPeer (s : State) (k : Nat) (f : Peer → Peer) : State := { s with peer := s.peer.mod k f }

/-! ## INLINE of a type 0x7 node (R399) -/

def Ctx.relaySlots (c : Ctx) : Nat := fld c.inline 3 1 + 1
def Ctx.relayUnitImp (c : Ctx) : Nat := fld c.inline 4 2
def Ctx.relayCredit (c : Ctx) : Nat := fld c.inline 6 2
def Ctx.relayRing (c : Ctx) : Nat := bits (fld c.inline 8 8) 0 40

/-- INLINE is malformed (R399). -/
def Ctx.peerInlineBad (c : Ctx) : Bool :=
  1 < fld c.inline 0 1 || !allZero (sub c.inline 0x10 48)
    || (if c.relay then 7 < c.relayRecv || fld c.inline 3 1 == 0 || 63 < fld c.inline 3 1 || bits (fld c.inline 8 8) 40 24 != 0
        else !allZero (sub c.inline 1 15))

/-! ## Hooks of the node's life -/

/-- A dispatched peer node: a COPY starts its engine's counts, a RELAY starts with its credits and with the units its waits consumed. -/
def State.startPeer (s : State) (i : Nat) (c : Ctx) : State :=
  if c.relay then
    let ub := match (s.relayGroup? c).bind fun g => aGet s.bf.groups g with
      | some q => q.unitBeacon c.relayRecv
      | none => 0
    let n := ((c.waits.filter fun w => w.beacon == ub && !w.observe).map (·.count)).sum
    s.modPeer c.port fun x => { x with relay := some { ctx := i, units := n, credits := c.relaySlots } }
  else { s with mem := { s.mem with dma := s.mem.dma.mod (12 + c.port) fun e => { e with itemsDone := 0, chunksDone := 0 } } }

/-- A peer node's work is done: every item of a COPY, or the frame of a RELAY. -/
def State.peerDone (s : State) (i : Nat) (c : Ctx) : Bool :=
  if c.relay then
    match (s.peer.at c.port).relay with
    | some r => r.ctx == i && r.overs
    | none => false
  else
    let e := s.mem.dma.at (12 + c.port)
    e.item.isNone && c.workCount ≤ e.itemsDone

/-- LAST_TILE of a peer node: chunks of a COPY (R93); a RELAY counts none. -/
def State.peerLast (s : State) (c : Ctx) : Nat :=
  let e := s.mem.dma.at (12 + c.port)
  if c.relay || e.chunksDone = 0 then 0xFFFFFFFF else e.chunksDone - 1

/-- A RELAY node that ends lets its port go. -/
def State.peerDrop (s : State) (i : Nat) (c : Ctx) : State :=
  s.modPeer c.port fun x => { x with relay := x.relay.filter fun r => r.ctx != i }

end Sys2Proof.Machine
end

