-- ==== Sys2Proof/Machine/Numeric.lean ====
section
/-! DEFINITION. Number formats and arithmetic (chapter 04): exact dyadic values with signed zeros, infinities and NaN; the
format codes; decoding, the one rounding rule, the conversion of R124 to R129; the exact and the ordered accumulation
paths; the row functions as their exact sequences. -/
namespace Sys2Proof.Machine
open Sys2Proof

/-! ## Exact values -/

/-- An exact value: NaN, an infinity, or (-1)^neg x mag x 2^exp, so that a zero keeps its sign (R110). -/
inductive Val where
  | nan
  | inf (neg : Bool)
  | fin (neg : Bool) (mag : Nat) (exp : Int)
  deriving DecidableEq, Repr, Inhabited

/-- Positive zero. -/
def Val.zero : Val := .fin false 0 0

/-- The exact value of an integer times 2^e; a zero is +0 (R115). -/
def Val.ofInt (i : Int) (e : Int) : Val := .fin (decide (i < 0)) i.natAbs e

/-- The integer n such that the finite value is n x 2^e, for an e at most the value's exponent. -/
def scaledInt (neg : Bool) (mag : Nat) (exp e : Int) : Int :=
  let n : Int := (mag * 2 ^ (exp - e).toNat : Nat)
  if neg then -n else n

/-- The value negated. -/
def Val.neg : Val → Val
  | .nan => .nan
  | .inf n => .inf (!n)
  | .fin n m e => .fin (!n) m e

/-- The magnitude. -/
def Val.abs : Val → Val
  | .nan => .nan
  | .inf _ => .inf false
  | .fin _ m e => .fin false m e

/-- The sign bit. -/
def Val.isNeg : Val → Bool
  | .nan => false
  | .inf n => n
  | .fin n _ _ => n

/-- The exact product; 0 x infinity is NaN (R118). -/
def Val.mul : Val → Val → Val
  | .nan, _ => .nan
  | _, .nan => .nan
  | .inf n, .inf k => .inf (n != k)
  | .inf n, .fin k m _ => if m = 0 then .nan else .inf (n != k)
  | .fin n m _, .inf k => if m = 0 then .nan else .inf (n != k)
  | .fin n m e, .fin k l f => .fin (n != k) (m * l) (e + f)

/-- The exact sum; opposite infinities give NaN; an exact zero is +0 unless both terms are -0 (R118). -/
def Val.add : Val → Val → Val
  | .nan, _ => .nan
  | _, .nan => .nan
  | .inf n, .inf k => if n = k then .inf n else .nan
  | .inf n, _ => .inf n
  | _, .inf k => .inf k
  | .fin n m e, .fin k l f =>
    let g := min e f
    let i := scaledInt n m e g + scaledInt k l f g
    if i = 0 then .fin (n && k && m == 0 && l == 0) 0 0 else .ofInt i g

/-- The value times 2^k, exactly. -/
def Val.scale (v : Val) (k : Int) : Val :=
  match v with
  | .fin n m e => .fin n m (e + k)
  | v => v

/-- Comparison of finite magnitudes: m x 2^e < l x 2^f. -/
def magLt (m : Nat) (e : Int) (l : Nat) (f : Int) : Bool :=
  let g := min e f
  m * 2 ^ (e - g).toNat < l * 2 ^ (f - g).toNat

/-- Strictly less; false when either is NaN; the two zeros are equal. -/
def Val.lt : Val → Val → Bool
  | .nan, _ => false
  | _, .nan => false
  | .inf n, .inf k => n && !k
  | .inf n, .fin .. => n
  | .fin .., .inf k => !k
  | .fin n m e, .fin k l f =>
    let g := min e f
    decide (scaledInt n m e g < scaledInt k l f g)

/-- At least; false when either is NaN. -/
def Val.ge (a b : Val) : Bool := a != .nan && b != .nan && !a.lt b

/-! ## Rounding -/

/-- n x 2^k rounded to an integer, to nearest with ties to even (R125). -/
def roundShift (n : Nat) (k : Int) : Nat :=
  if 0 ≤ k then n * 2 ^ k.toNat
  else
    let d := 2 ^ (-k).toNat
    let q := n / d
    let r := n % d
    if 2 * r < d then q else if d < 2 * r then q + 1 else if q % 2 = 0 then q else q + 1

/-- n / d rounded to an integer, to nearest with ties to even. -/
def roundRatio (n d : Nat) : Nat :=
  let q := n / d
  let r := n % d
  if 2 * r < d then q else if d < 2 * r then q + 1 else if q % 2 = 0 then q else q + 1

/-- floor(log2) of a positive magnitude m x 2^e. -/
def magLog2 (m : Nat) (e : Int) : Int := (Nat.log2 m : Int) + e

/-- A binary floating-point format (R109): exponent bits, fraction bits, bias, the code of the largest finite value, that value
plus half a spacing as num x 2^exp, whether it has infinities, the canonical NaN if it has one. -/
structure FloatFmt where
  expBits : Nat
  fracBits : Nat
  bias : Int
  hiCode : Nat
  boundNum : Nat
  boundExp : Int
  hasInf : Bool
  nanCode : Nat
  deriving DecidableEq, Repr, Inhabited

def fmtE4M3 : FloatFmt := ⟨4, 3, 7, 0x7E, 29, 4, false, 0x7F⟩
def fmtE5M2 : FloatFmt := ⟨5, 2, 15, 0x7B, 15, 12, true, 0x7F⟩
def fmtFP16 : FloatFmt := ⟨5, 10, 15, 0x7BFF, 4095, 4, true, 0x7E00⟩
def fmtBF16 : FloatFmt := ⟨8, 7, 127, 0x7F7F, 511, 119, true, 0x7FC0⟩
def fmtFP32 : FloatFmt := ⟨8, 23, 127, 0x7F7F_FFFF, 0x1FF_FFFF, 103, true, 0x7FC0_0000⟩
def fmtE2M1 : FloatFmt := ⟨2, 1, 1, 0x7, 7, 0, false, 0⟩

/-- Width of a format's code. -/
def FloatFmt.width (f : FloatFmt) : Nat := 1 + f.expBits + f.fracBits

/-- Exponent of the smallest normal value. -/
def FloatFmt.emin (f : FloatFmt) : Int := 1 - f.bias

/-- The code of an infinity: the code after the largest finite value, in a format that has one. -/
def FloatFmt.infCode (f : FloatFmt) : Nat := (2 ^ f.expBits - 1) * 2 ^ f.fracBits

/-- The value of a code (R109, R110, R111): E4M3 takes NaN at exponent 15 with fraction 0b111 alone, E2M1 has neither infinities
nor NaN. -/
def FloatFmt.decode (f : FloatFmt) (code : Nat) : Val :=
  let neg := bit code (f.expBits + f.fracBits)
  let e := bits code f.fracBits f.expBits
  let fr := bits code 0 f.fracBits
  let top := 2 ^ f.expBits - 1
  if f.hasInf && e == top then (if fr = 0 then .inf neg else .nan)
  else if f.nanCode != 0 && !f.hasInf && e == top && fr == 2 ^ f.fracBits - 1 then .nan
  else if e = 0 then .fin neg fr (f.emin - f.fracBits)
  else .fin neg (2 ^ f.fracBits + fr) ((e : Int) - f.bias - f.fracBits)

/-- The code of a finite magnitude below the format's bound, rounded to nearest even (R125, R128's procedure). -/
def FloatFmt.roundMag (f : FloatFmt) (m : Nat) (e : Int) : Nat :=
  if m = 0 then 0
  else
    let g := max (magLog2 m e) f.emin
    ((g - f.emin) * (2 ^ f.fracBits : Nat)).toNat + roundShift m (e - (g - f.fracBits))

/-- The sign bit of a format's codes. -/
def FloatFmt.signed (f : FloatFmt) (neg : Bool) (code : Nat) : Nat :=
  if neg then code + 2 ^ (f.expBits + f.fracBits) else code

/-- What a conversion counts (R126, R128). -/
inductive ConvFlag where
  | none
  | sat
  | invalid
  deriving DecidableEq, Repr, Inhabited

/-- Conversion to a floating-point format (R124 to R128): NaN becomes the canonical NaN; a magnitude at or beyond the bound
saturates, or becomes an infinity when INF_OUT asks and the format has one; every other value is rounded once. -/
def FloatFmt.convert (f : FloatFmt) (infOut : Bool) : Val → Nat × ConvFlag
  | .nan => (f.nanCode, .none)
  | .inf n => (f.signed n (if infOut && f.hasInf then f.infCode else f.hiCode), .sat)
  | .fin n m e =>
    if !(magLt m e f.boundNum f.boundExp) then (f.signed n (if infOut && f.hasInf then f.infCode else f.hiCode), .sat)
    else (f.signed n (f.roundMag m e), .none)

/-- The FP32 code nearest to a value; overflow gives an infinity (R118). -/
def round32 (v : Val) : Nat := (fmtFP32.convert true v).1

/-- The value of a 32-bit pattern. -/
def val32 (code : Nat) : Val := fmtFP32.decode code

/-- A value rounded once to FP32. -/
def Val.r32 (v : Val) : Val := val32 (round32 v)

/-- A value truncated toward zero to an integer. -/
def truncInt (neg : Bool) (m : Nat) (e : Int) : Int :=
  let q := if 0 ≤ e then m * 2 ^ e.toNat else m / 2 ^ (-e).toNat
  if neg then -(q : Int) else q

/-- A value rounded to the nearest integer, ties to even. -/
def nearInt (neg : Bool) (m : Nat) (e : Int) : Int :=
  let q : Int := roundShift m e
  if neg then -q else q

/-- Conversion to an integer format of bounds lo and hi (R125 to R128). -/
def convertInt (lo hi : Int) (rtz : Bool) : Val → Int × ConvFlag
  | .nan => (0, .invalid)
  | .inf n => (if n then lo else hi, .sat)
  | .fin n m e =>
    if rtz then
      let r := truncInt n m e
      if hi < r then (hi, .sat) else if r < lo then (lo, .sat) else (r, .none)
    else
      let v : Val := .fin n m e
      if v.ge (.ofInt (2 * hi + 1) (-1)) then (hi, .sat)
      else if (Val.ofInt (2 * lo - 1) (-1)).ge v then (lo, .sat)
      else (nearInt n m e, .none)

/-! ## Format codes (R106, R108, R113) -/

/-- Bits of one element of a format code; 0 for a reserved code. -/
def fmtWidth (c : Nat) : Nat :=
  match c with
  | 0 | 0xB => 4
  | 1 | 2 | 4 | 5 | 9 | 0xA | 0xC => 8
  | 3 | 6 | 7 => 16
  | 8 => 32
  | _ => 0

/-- An MX format, whose elements carry block scales. -/
def isMx (c : Nat) : Bool := 9 ≤ c && c ≤ 0xC

/-- An integer format that is not an MX format. -/
def isIntFmt (c : Nat) : Bool := c ≤ 3

/-- The floating-point layout of a format code's elements. -/
def floatOf (c : Nat) : Option FloatFmt :=
  match c with
  | 4 | 9 => some fmtE4M3
  | 5 | 0xA => some fmtE5M2
  | 6 => some fmtFP16
  | 7 => some fmtBF16
  | 8 => some fmtFP32
  | 0xB => some fmtE2M1
  | _ => none

/-- Bounds of an integer format (R108); MXINT8 elements are converted as INT8 codes (R129). -/
def intBounds (c : Nat) : Int × Int :=
  match c with
  | 0 => (-8, 7)
  | 2 => (0, 255)
  | 3 => (-32768, 32767)
  | _ => (-128, 127)

/-- The value of an element's code, without any block scale: two's complement, unsigned, floating-point, or an MXINT8 code
times 2^-6 (R108, R109, R113). -/
def elemVal (c code : Nat) : Val :=
  match floatOf c with
  | some f => f.decode code
  | none =>
    if c = 2 then .ofInt (code % 256) 0
    else if c = 0xC then .ofInt (toSigned 8 code) (-6)
    else .ofInt (toSigned (fmtWidth c) code) 0

/-- The value of an E8M0 scale code: 2^(x - 127), or NaN for 0xFF (R112). -/
def scaleVal (x : Nat) : Val := if x = 0xFF then .nan else .fin false 1 ((x : Int) - 127)

/-- A format code may stand as a multiplicand of a Spire array (R106); UINT8 stands in A only. -/
def multiplicandOk (c : Nat) (isA : Bool) : Bool :=
  match c with
  | 2 => isA
  | 0 | 1 | 3 | 4 | 5 | 6 | 7 | 9 | 0xA | 0xB | 0xC => true
  | _ => false

/-- A format code may stand as a multiplicand of an SNE array (R22, R106). -/
def sneMultiplicandOk (c : Nat) (isA : Bool) : Bool :=
  match c with
  | 2 => isA
  | 1 | 4 | 5 | 9 | 0xA | 0xC => true
  | _ => false

/-- A format code may stand as a multiplicand of the bypass path (R106). -/
def bypassOk (c : Nat) (isA : Bool) : Bool :=
  match c with
  | 2 => isA
  | 1 | 4 => true
  | _ => false

/-- A format code may stand as a C input (R106). -/
def cInputOk (c : Nat) : Bool := c ≤ 8

/-- A format code may stand as a drain output (R106). -/
def drainOk (c : Nat) : Bool := c ≤ 0xC

/-- The accumulation paths of R114. -/
inductive Path where
  | exact (f : Nat)
  | ordered
  | block
  deriving DecidableEq, Repr, Inhabited

/-- The path of an operand pair, or none for a pair that R114 does not list. -/
def pathOf (a b : Nat) : Option Path :=
  match a, b with
  | 1, 1 | 2, 1 | 0, 0 | 3, 3 => some (.exact 0)
  | 4, 4 => some (.exact 18)
  | 4, 5 | 5, 4 | 5, 5 | 6, 6 | 7, 7 => some .ordered
  | 9, 9 | 9, 0xA | 0xA, 9 | 0xA, 0xA | 0xB, 0xB | 0xC, 0xC => some .block
  | _, _ => none

/-- A C input that R114 allows with a pair's path (E4M3 joins the exact path with scale 18 alone). -/
def cAllowed (p : Path) (c : Nat) : Bool :=
  match p with
  | .exact 0 => c ≤ 3
  | .exact _ => c ≤ 4
  | _ => 4 ≤ c && c ≤ 8

/-! ## The exact path (R115, R116) -/

/-- The NaN marker of a 96-bit accumulator. -/
def nanMarker : Int := -(2 ^ 95 : Nat)

/-- A value in units of 2^-F, for a value that is a whole multiple; NaN is the marker (R115). -/
def exactUnits (f : Nat) : Val → Int
  | .fin n m e => scaledInt n m e (-(f : Int))
  | _ => nanMarker

/-- One term enters a 96-bit accumulator: the marker stays; a sum that would leave the range is no sum (R115, R116). -/
def exactAdd (acc x : Int) : Option Int :=
  if acc = nanMarker ∨ x = nanMarker then some nanMarker
  else
    let r := acc + x
    if -((2 ^ 95 - 1 : Nat) : Int) ≤ r ∧ r ≤ ((2 ^ 95 - 1 : Nat) : Int) then some r else none

/-- The sum of a list of terms on the exact path, or none where it leaves the range. -/
def exactSum : List Int → Int → Option Int
  | [], acc => some acc
  | x :: xs, acc => (exactAdd acc x).bind (exactSum xs)

/-- The drain's input from the exact path: acc x 2^-F, the marker as NaN, a zero as +0 (R115, R124). -/
def exactVal (f : Nat) (acc : Int) : Val := if acc = nanMarker then .nan else .ofInt acc (-(f : Int))

/-- The 16-byte form of a 96-bit partial (R82, R116). -/
def partialBytes (acc : Int) : Bytes := leBytes 12 (ofSigned 96 acc) ++ zeros 4

/-- The accumulator that a 16-byte partial holds. -/
def partialInt (b : Bytes) : Int := toSigned 96 (leNat (b.take 12))

/-! ## The ordered path (R118 to R121) -/

/-- One segment's sum: g := round32(g + p) over its products in ascending K; an absent product adds nothing (R119, R120). -/
def segmentSum (ps : List (Option Val)) : Val :=
  ps.foldl (fun g p => match p with
    | some p => (g.add p).r32
    | none => g) Val.zero

/-- The segments' sums joined: t := g of the first, then round32(t + g) (R119). -/
def joinSegments : List Val → Val
  | [] => Val.zero
  | g :: gs => gs.foldl (fun t g => (t.add g).r32) g

/-- A list cut into pieces of n, the last with the rest. -/
def cut {α : Type} (n : Nat) : Nat → List α → List (List α)
  | 0, _ => []
  | fuel + 1, l => if l.isEmpty then [] else l.take n :: cut n fuel (l.drop n)

/-- The ordered path's dot product of its products in K order, 1,024 to a segment (R119). -/
def orderedDot (ps : List (Option Val)) : Val := joinSegments ((cut 1024 ps.length ps).map segmentSum)

/-- The C input joins after the segments (R119). -/
def addC (t : Val) (c : Option Val) : Val :=
  match c with
  | some c => (t.add c).r32
  | none => t

/-- The term of a block pair: the exact sum of its present products times the block scales; NaN when either scale is 0xFF; no term
when no product is present (R121). -/
def blockTerm (ps : List (Option Val)) (xa xb : Nat) : Option Val :=
  match ps.filterMap id with
  | [] => none
  | p :: qs =>
    if xa = 0xFF ∨ xb = 0xFF then some .nan
    else some ((qs.foldl Val.add p).scale ((xa : Int) + xb - 254))

/-! ## The drain (R124, R129) -/

/-- The drain's value: input x scale + offset, exact; the input itself where there is neither (R124). -/
def drainVal (v : Val) (scale offset : Option Val) : Val :=
  let p := match scale with
    | some s => v.mul s
    | none => v
  match offset with
  | some o => p.add o
  | none => p

/-- The conversion of a value to a format that is not MX: the code and what is counted (R125 to R128). -/
def convert (c : Nat) (rtz infOut : Bool) (v : Val) : Nat × ConvFlag :=
  match floatOf c with
  | some f => f.convert infOut v
  | none =>
    let r := convertInt (intBounds c).1 (intBounds c).2 rtz v
    (ofSigned (fmtWidth c) r.1, r.2)

/-- The exponent emax of an MX element format (R129). -/
def mxEmax (c : Nat) : Int :=
  match c with
  | 9 => 8
  | 0xA => 15
  | 0xB => 2
  | _ => 0

/-- The largest of two finite magnitudes (infinities and NaN aside). -/
def maxFinite (a : Nat × Int) : Val → Nat × Int
  | .fin _ m e => if magLt a.1 a.2 m e then (m, e) else a
  | _ => a

/-- The scale exponent of an output block without NaN (R129). A block whose values are all infinite holds no finite magnitude: its a is taken as 0
(DESIGN CHOICE; log entry 125). -/
def mxScaleExp (c : Nat) (vs : List Val) : Int :=
  let a := vs.foldl maxFinite (0, 0)
  if a.1 = 0 then -127 else clampInt (-127) 127 (magLog2 a.1 a.2 - mxEmax c)

/-- One element of an output block, after division by the block's scale. -/
def mxElem (c : Nat) (rtz infOut : Bool) (x : Int) (v : Val) : Nat × ConvFlag :=
  match floatOf c with
  | some f => f.convert infOut (v.scale (-x))
  | none =>
    let r := convertInt (-128) 127 rtz (v.scale (6 - x))
    (ofSigned 8 r.1, r.2)

/-- A block of an MX output: its scale code, and each element's code with what is counted (R129). ROUND_RTZ is ignored for MX
outputs (R125). -/
def mxBlock (c : Nat) (infOut : Bool) (vs : List Val) : Nat × List (Nat × ConvFlag) :=
  if vs.any (· == .nan) then
    (0xFF, vs.map fun v => (0, if v = .nan ∧ c = 0xC then .invalid else .none))
  else
    let x := mxScaleExp c vs
    ((x + 127).toNat, vs.map (mxElem c false infOut x))

/-! ## Row functions (R131 to R136) -/

/-- FP32 operations, each rounded once. -/
def add32 (a b : Val) : Val := (a.add b).r32
def sub32 (a b : Val) : Val := (a.add b.neg).r32
def mul32 (a b : Val) : Val := (a.mul b).r32
def fma32 (a b c : Val) : Val := ((a.mul b).add c).r32

/-- The FP32 value nearest n / d. -/
def ratio32 (n d : Nat) : Val :=
  if n = 0 then Val.zero
  else
    -- the quotient with 32 or more significant bits and a sticky bit below them
    let k := Nat.log2 d + 34
    let q := n * 2 ^ k / d
    let st := if n * 2 ^ k % d = 0 then 0 else 1
    (Val.fin false (2 * q + st) (-(k : Int) - 1)).r32

/-- The FP32 value of an integer. -/
def int32 (i : Int) : Val := (Val.ofInt i 0).r32

/-- The constants Q0 to Q7 of R132: the FP32 values nearest 1/k!. -/
def expQ : List Val :=
  [0x3F800000, 0x3F800000, 0x3F000000, 0x3E2AAAAB, 0x3D2AAAAB, 0x3C088889, 0x3AB60B61, 0x39500D01].map val32

/-- The exponential (R132). -/
def exp32 (x : Val) : Val :=
  match x with
  | .nan => .nan
  | _ =>
    if x.ge (val32 0x42B17218) then .inf false
    else if x.lt (val32 0xC2CFF1B5) then Val.zero
    else
      let y := mul32 x (val32 0x3FB8AA3B)
      let n : Int := match y with
        | .fin s m e => nearInt s m e
        | _ => 0
      let r1 := fma32 (int32 (-n)) (val32 0x3F318000) x
      let r := fma32 (int32 (-n)) (val32 0xB95E8083) r1
      let p := ((expQ.take 7).reverse).foldl (fun p q => fma32 p r q) (expQ.getD 7 Val.zero)
      (p.scale n).r32

/-- A positive finite magnitude as m x 2^e with m in [1, 2): the 24-bit integer of m and e. Subnormals are normalised (R133). -/
def normal24 (mag : Nat) (exp : Int) : Nat × Int :=
  let l := Nat.log2 mag
  (roundShift mag (23 - (l : Int)), (l : Int) + exp)

/-- The reciprocal (R133). -/
def recip32 (x : Val) : Val :=
  match x with
  | .nan => .nan
  | .inf n => .fin n 0 0
  | .fin n mag exp =>
    if mag = 0 then .inf n
    else
      let me := normal24 mag exp
      let m := Val.fin false me.1 (-23)
      let i := (me.1 - 2 ^ 23) / 2 ^ 16
      let step := fun y => fma32 y (fma32 m.neg y (int32 1)) y
      let y := step (step (ratio32 256 (256 + 2 * i + 1)))
      ((if n then y.neg else y).scale (-me.2)).r32

/-- The integer square root, by bits from the top. -/
def isqrtBits (n : Nat) : Nat → Nat → Nat
  | 0, r => r
  | k + 1, r =>
    let r1 := r + 2 ^ k
    isqrtBits n k (if r1 * r1 ≤ n then r1 else r)

/-- floor(sqrt(n)). -/
def isqrt (n : Nat) : Nat := isqrtBits n (Nat.log2 n / 2 + 1) 0

/-- The seed of the reciprocal square root: the FP32 value nearest 1/sqrt(w), for w the midpoint of the interval that the exponent's
parity and the top 6 fraction bits select (R133). -/
def rsqrtSeed (parity i : Nat) : Val :=
  -- w = (129 + 2i) x 2^parity / 128; one bit more than FP32 holds, then rounded
  let y := isqrt (128 * 2 ^ 50 / ((129 + 2 * i) * 2 ^ parity))
  .fin false ((y + 1) / 2) (-24)

/-- The reciprocal square root (R133). -/
def rsqrt32 (x : Val) : Val :=
  match x with
  | .nan => .nan
  | .inf n => if n then .nan else Val.zero
  | .fin n mag exp =>
    if mag = 0 then .inf n
    else if n then .nan
    else
      let me := normal24 mag exp
      let parity := (me.2 % 2).toNat
      let j := (me.2 - parity) / 2
      let m := Val.fin false me.1 (-23 + parity)
      let i := (me.1 - 2 ^ 23) / 2 ^ 17
      let h := mul32 (val32 0x3F000000) m
      let step := fun y => fma32 y (fma32 h.neg (mul32 y y) (val32 0x3F000000)) y
      ((step (step (rsqrtSeed parity i))).scale (-j)).r32

/-- The largest of a row. -/
def maxVal (vs : List Val) : Val := vs.foldl (fun a v => if a.lt v then v else a) (.inf true)

/-- Softmax over the valid columns of a row (R134). -/
def softmax32 (vs : List Val) : List Val :=
  if vs.any (fun v => v == .nan || v == .inf false) then vs.map fun _ => .nan
  else if vs.all (· == .inf true) then vs.map fun _ => Val.zero
  else
    let mx := maxVal vs
    let es := vs.map fun v => exp32 (sub32 v mx)
    let s := match es with
      | [] => Val.zero
      | e :: es => es.foldl add32 e
    let r := recip32 s
    es.map fun e => mul32 e r

/-- GELU in its tanh form (R135). -/
def gelu32 (x : Val) : Val :=
  let w := mul32 x x
  let u := mul32 (val32 0x3F4C422A) (fma32 (mul32 (val32 0x3D372713) x) w x)
  let e := exp32 (mul32 (int32 2) u.abs)
  let t := sub32 (int32 1) (mul32 (int32 2) (recip32 (add32 e (int32 1))))
  let t := if u.lt Val.zero then t.neg else t
  let h := mul32 (val32 0x3F000000) x
  fma32 h t h

/-- SiLU (R135). -/
def silu32 (x : Val) : Val := mul32 x (recip32 (add32 (int32 1) (exp32 x.neg)))

/-- The mean and the variance of a row of n columns (R136). -/
def meanVar32 (vs : List Val) : Val × Val :=
  let rn := ratio32 1 vs.length
  let s := match vs with
    | [] => Val.zero
    | v :: vs => vs.foldl add32 v
  let mu := mul32 s rn
  let q := vs.foldl (fun q v => let d := sub32 v mu; fma32 d d q) Val.zero
  (mu, mul32 q rn)

/-- Row normalisation: each element (v - mu) x rsqrt(var + eps) (R136). -/
def normalise32 (vs : List Val) (eps : Val) : List Val :=
  let mv := meanVar32 vs
  let r := rsqrt32 (add32 mv.2 eps)
  vs.map fun v => mul32 (sub32 v mv.1) r

end Sys2Proof.Machine
end

