-- ==== Sys2Proof/Machine/MacroDesc.lean ====
section
/-! DEFINITION. The macro descriptor of R166: its fields, the geometry of tiles and convolutions, the staging area, and the
checks that firmware makes of every descriptor at admission (R170, R174, R182 to R184, R190 to R205, R214 to R220). -/
namespace Sys2Proof.Machine
open Sys2Proof

/-! ## Fields (R166, R169) -/

def mOp (d : Bytes) : Nat := bits (fld d 0 4) 0 4
def mAFmt (d : Bytes) : Nat := bits (fld d 0 4) 4 4
def mBFmt (d : Bytes) : Nat := bits (fld d 0 4) 8 4
def mCFmt (d : Bytes) : Nat := bits (fld d 0 4) 12 4
def mOutFmt (d : Bytes) : Nat := bits (fld d 0 4) 16 4
def mRowfn (d : Bytes) : Nat := bits (fld d 0 4) 20 4
def mCtrl (d : Bytes) : Nat := fld d 4 4
def mHasC (d : Bytes) : Bool := bit (mCtrl d) 0
def mRtz (d : Bytes) : Bool := bit (mCtrl d) 1
def mInfOut (d : Bytes) : Bool := bit (mCtrl d) 2
def mTrapNan (d : Bytes) : Bool := bit (mCtrl d) 3
def mTrapInf (d : Bytes) : Bool := bit (mCtrl d) 4
def mTrapInvalid (d : Bytes) : Bool := bit (mCtrl d) 5
def mQmode (d : Bytes) : Bool := bit (mCtrl d) 6
def mQuad (d : Bytes) : Nat := bits (mCtrl d) 7 2
/-- ORDER: false N_INNER, true M_INNER. -/
def mMInner (d : Bytes) : Bool := bit (mCtrl d) 9
/-- Tiles per claim. -/
def mRun (d : Bytes) : Nat := bits (mCtrl d) 10 6 + 1
def mNoBarrier (d : Bytes) : Bool := bit (mCtrl d) 16
def mWstream (d : Bytes) : Bool := bit (mCtrl d) 17
def mWcomp (d : Bytes) : Bool := bit (mCtrl d) 18
def mSplitk (d : Bytes) : Bool := bit (mCtrl d) 19
def mDual (d : Bytes) : Bool := bit (mCtrl d) 20
def mWflagOut (d : Bytes) : Bool := bit (mCtrl d) 21
def mM (d : Bytes) : Nat := bits (fld d 8 4) 0 20 + 1
def mMchunk (d : Bytes) : Nat := bits (fld d 8 4) 20 12 + 1
def mK (d : Bytes) : Nat := fld d 0x0C 2 + 1
def mN (d : Bytes) : Nat := fld d 0x0E 2 + 1
/-- The address and the pitch that an 8-byte operand field holds. -/
def mAddr (d : Bytes) (off : Nat) : Nat := bits (fld d off 8) 0 40
def mLd (d : Bytes) (off : Nat) : Nat := bits (fld d off 8) 40 24
def mTable (d : Bytes) : Nat := mAddr d 0x38
/-- QPOLICY: 0 IGNORE, 1 FLAG, 2 RERUN_WIDE. -/
def mQpolicy (d : Bytes) : Nat := bits (fld d 0x38 8) 40 2
def mSatLimit (d : Bytes) : Nat := let v := bits (fld d 0x38 8) 42 16; if v = 0 then 16 else v
def mSmallLimit (d : Bytes) : Nat := let v := bits (fld d 0x38 8) 58 6; if v = 0 then 32 else v
def mStageOff (d : Bytes) : Nat := bits (fld d 0x50 8) 0 19
def mWctr (d : Bytes) : Nat := bits (fld d 0x50 8) 19 12
def mPart (d : Bytes) : Nat := bits (fld d 0x58 8) 0 40
def mRjob (d : Bytes) : Nat := bits (fld d 0x58 8) 40 6
def mKseg (d : Bytes) : Nat := bits (fld d 0x58 8) 46 10 + 1
def mWfOut (d : Bytes) : Nat := bits (fld d 0x68 8) 0 24
def mWfIn (d : Bytes) : Nat := bits (fld d 0x68 8) 24 24
def mAltFmt (d : Bytes) : Nat := bits (fld d 0x68 8) 48 4
def mInH (d : Bytes) : Nat := fld d 0x70 2 + 1
def mInW (d : Bytes) : Nat := fld d 0x72 2 + 1
def mKh (d : Bytes) : Nat := fld d 0x74 1 + 1
def mKw (d : Bytes) : Nat := fld d 0x75 1 + 1
def mSh (d : Bytes) : Nat := bits (fld d 0x76 1) 0 4 + 1
def mSw (d : Bytes) : Nat := bits (fld d 0x76 1) 4 4 + 1
/-- PAD_MODE: 0 zero, 1 replicate, 2 reflect. -/
def mPadMode (d : Bytes) : Nat := bits (fld d 0x77 1) 0 2
def mDh (d : Bytes) : Nat := fld d 0x78 1 + 1
def mDw (d : Bytes) : Nat := fld d 0x79 1 + 1
def mPt (d : Bytes) : Nat := fld d 0x7A 1
def mPb (d : Bytes) : Nat := fld d 0x7B 1
def mPl (d : Bytes) : Nat := fld d 0x7C 1
def mPr (d : Bytes) : Nat := fld d 0x7D 1
/-- POOL_KIND: 0 maximum, 1 average over the window, 2 average over valid positions. -/
def mPoolKind (d : Bytes) : Nat := bits (fld d 0x7E 2) 0 2
def mEFmt (d : Bytes) : Nat := bits (fld d 0x78 4) 0 4
def mSFmt (d : Bytes) : Nat := bits (fld d 0x78 4) 4 4
def mP (d : Bytes) : Nat := bits (fld d 0x78 4) 16 16 + 1
def mEps (d : Bytes) : Nat := fld d 0x7C 4
def mEwOp (d : Bytes) : Nat := bits (fld d 0x70 1) 0 4
def mRowcast (d : Bytes) : Bool := bit (fld d 0x70 1) 4
def mColcast (d : Bytes) : Bool := bit (fld d 0x70 1) 5
/-- XPOS: a strided copy instead of a transpose. -/
def mStrided (d : Bytes) : Bool := bit (fld d 0x70 1) 0

/-- The opcodes that read their input as planes (R195). -/
def mPlanar (d : Bytes) : Bool := mOp d == 4 || mOp d == 5 || mOp d == 6

/-! ## Element layout (R108) -/

/-- Bytes of `n` packed elements of `w` bits. -/
def packedBytes (n w : Nat) : Nat := ceilDiv (n * w) 8

/-- Twice the element size in bytes, so that half a byte counts 1. -/
def size2 (fmt : Nat) : Nat := fmtWidth fmt / 4

/-! ## Convolution geometry (R190 to R192) -/

/-- One output extent of R190, floored towards minus infinity. -/
def convOut (h p0 p1 dil k st : Nat) : Int :=
  ((h : Int) + p0 + p1 - dil * ((k : Int) - 1) - 1) / st + 1

def mHout (d : Bytes) : Int := convOut (mInH d) (mPt d) (mPb d) (mDh d) (mKh d) (mSh d)
def mWout (d : Bytes) : Int := convOut (mInW d) (mPl d) (mPr d) (mDw d) (mKw d) (mSw d)

/-- One axis of R192: the position a tap samples, moved into the image where the padding mode says so; none is an absent value. -/
def sampleAxis (mode n : Nat) (i : Int) : Option Nat :=
  if 0 ≤ i ∧ i ≤ (n : Int) - 1 then some i.toNat
  else if mode = 0 then none
  else if mode = 1 then some (min (max i 0) ((n : Int) - 1)).toNat
  else
    let j := if i < 0 then -i else i
    some (if (n : Int) - 1 < j then 2 * ((n : Int) - 1) - j else j).toNat

/-- The input position that output pixel `m` samples under tap `t` (R192, R195, R196). -/
def samplePos (d : Bytes) (m t : Nat) : Option (Nat × Nat) :=
  let wo := (mWout d).toNat
  let oy := m / max wo 1
  let ox := m % max wo 1
  let ky := t / mKw d
  let kx := t % mKw d
  let iy : Int := oy * mSh d - mPt d + ky * mDh d
  let ix : Int := ox * mSw d - mPl d + kx * mDw d
  match sampleAxis (mPadMode d) (mInH d) iy, sampleAxis (mPadMode d) (mInW d) ix with
  | some y, some x => some (y, x)
  | _, _ => none

/-- The position lies inside the image before any padding: POOL's valid positions (R205). -/
def inImage (d : Bytes) (m t : Nat) : Bool :=
  let wo := (mWout d).toNat
  let iy : Int := (m / max wo 1) * mSh d - mPt d + (t / mKw d) * mDh d
  let ix : Int := (m % max wo 1) * mSw d - mPl d + (t % mKw d) * mDw d
  decide (0 ≤ iy ∧ iy < (mInH d : Int) ∧ 0 ≤ ix ∧ ix < (mInW d : Int))

/-! ## Tiles, passes and segments (R172, R173, R182, R197, R203) -/

/-- The input channels padded to 32: CP of R197. -/
def mCp (d : Bytes) : Nat := 32 * ceilDiv (mK d) 32

/-- The length of the reduction: K, KR of R197 for CONV, the taps for DWCV. -/
def mKr (d : Bytes) : Nat :=
  match mOp d with
  | 4 => mKh d * mKw d * mCp d
  | 5 => mKh d * mKw d
  | _ => mK d

/-- K indices per pass: KP of R172, one tap for DWCV. `afmt` is the format A is read in. -/
def mKp (d : Bytes) (afmt : Nat) : Nat :=
  if mOp d = 5 then 1
  else (if fmtWidth afmt = 4 then 64 else 32) / (if mQmode d then 2 else 1)

/-- Columns of an N tile: NT of R173. -/
def mNt (d : Bytes) : Nat := if mQmode d then 16 else 32

/-- Rows of the largest M chunk: MC of R173. -/
def mMc (d : Bytes) : Nat := min (mMchunk d) (mM d)

/-- M chunks and N tiles. An FMM2 tile covers all of N and P (R183). -/
def mMch (d : Bytes) : Nat := ceilDiv (mM d) (mMc d)
def mNtl (d : Bytes) : Nat := if mOp d = 3 then 1 else ceilDiv (mN d) (mNt d)

/-- K segments of a split-K macro that reads A in `afmt` (R182, R221). -/
def mKs (d : Bytes) (afmt : Nat) : Nat := ceilDiv (ceilDiv (mKr d) (mKp d afmt)) (mKseg d)

/-- Tiles of the macro in its present phase: T of R173; the drain phase of split-K has MCH x NTL. -/
def mTiles (d : Bytes) (afmt : Nat) (partials : Bool) : Nat :=
  mMch d * mNtl d * (if mSplitk d && partials then mKs d afmt else 1)

/-- Chunk, N tile and K segment of a tile number (R173). -/
def tileCoords (d : Bytes) (afmt : Nat) (partials : Bool) (t : Nat) : Nat × Nat × Nat :=
  let ks := if mSplitk d && partials then mKs d afmt else 1
  let u := t / ks
  if mMInner d then (u % mMch d, u / mMch d, t % ks) else (u / mNtl d, u % mNtl d, t % ks)

/-- Rows of an accumulation group: 64, 32 in quadrant mode, G of R183 for FMM2. -/
def mGroupRows (d : Bytes) : Nat :=
  if mOp d = 3 then min 64 (16384 / mN d) else if mQmode d then 32 else 64

/-- The rows of a chunk: first and count. -/
def chunkRows (d : Bytes) (mi : Nat) : Nat × Nat := (mi * mMc d, min (mMc d) (mM d - mi * mMc d))

/-- Groups of a chunk. -/
def mGroups (d : Bytes) (mi : Nat) : Nat := ceilDiv (chunkRows d mi).2 (mGroupRows d)

/-- The rows of group `g` of chunk `mi`. -/
def groupRows (d : Bytes) (mi g : Nat) : List Nat :=
  let c := chunkRows d mi
  let lo := g * mGroupRows d
  (List.range (min (mGroupRows d) (c.2 - lo))).map (· + (c.1 + lo))

/-- The columns of N tile `ni`; all of N for the first product of FMM2. -/
def tileCols (d : Bytes) (ni : Nat) : List Nat :=
  if mOp d = 3 then List.range (mN d)
  else (List.range (min (mNt d) (mN d - ni * mNt d))).map (· + ni * mNt d)

/-- The K range a tile covers: all of it, or segment `ki` (R182). -/
def tileK (d : Bytes) (partials : Bool) (ki : Nat) (afmt : Nat) : Nat × Nat :=
  if mSplitk d && partials then
    let seg := mKseg d * mKp d afmt
    (ki * seg, min ((ki + 1) * seg) (mKr d))
  else (0, mKr d)

/-- Opcodes that use the array: MMUL, FMM2, CONV, DWCV. -/
def usesArray (d : Bytes) : Bool := mOp d == 1 || mOp d == 3 || mOp d == 4 || mOp d == 5

/-- The rate of a pass: cycles per M row (R142). -/
def passRate (afmt : Nat) : Nat := if fmtWidth afmt = 16 then 4 else 1

/-- The floor of R144: 32 cycles on the exact path and for MX pairs, 37 on the ordered path without MX. -/
def passFloor (p : Path) : Nat :=
  match p with
  | .ordered => 37
  | _ => 32

/-- Cycles of an MMV: issue, pipeline, drain latency and vector reloads (R149). -/
def mmvCycles (m k : Nat) : Nat := ceilDiv m 4 * ceilDiv k 16 + 16 + 12 + 64 * (ceilDiv k 4096 - 1)

/-- Cycles a group of R rows takes to issue, without stalls (R175). -/
def groupCycles (r rate floor passes : Nat) : Nat := passes * max (r * rate) floor

/-! ## The staging area (R174, R520) -/

def up128 (n : Nat) : Nat := roundUp n 128

/-- Bytes of a word of the pre-skewed stream and of a row of the B panel: W of R174. -/
def stageWord (d : Bytes) (afmt : Nat) : Nat := (if fmtWidth afmt = 16 then 64 else 32) / (if mQmode d then 2 else 1)

/-- Input rows that a POOL tile's buffer holds of a plane (R520). -/
def poolRows (d : Bytes) : Nat :=
  let outRows := min (mHout d).toNat (ceilDiv (mMc d) (max (mWout d).toNat 1) + 1)
  min (mInH d) ((outRows - 1) * mSh d + mDh d * (mKh d - 1) + 1)

/-- The items of the staging area in the order of R174 and R520, each with the bytes of a buffer and the number of buffers: A, the A-side scales,
B, the B-side scales, C, D, the E panel and the row buffer. An item that an opcode does not stage has no bytes. -/
def stageItems (d : Bytes) (afmt bfmt outBits : Nat) : List (Nat × Nat) :=
  let mc := mMc d
  let nt := mNt d
  let w := stageWord d afmt
  let cBytes := fun n => if mHasC d then up128 (packedBytes n (fmtWidth (mCFmt d))) else 0
  match mOp d with
  | 1 | 3 | 4 | 5 =>
    let p := ceilDiv (if mSplitk d then min (mKseg d * mKp d afmt) (mKr d) else mKr d) (mKp d afmt)
    let mx := fun n => if isMx afmt then up128 n else 0
    let we := if fmtWidth (mEFmt d) = 16 then 64 else 32
    [(up128 ((mc * p + if mQmode d then 15 else 31) * w), 3), (mx (mc * p), 3), (up128 (p * (if mQmode d then 16 else 32) * w), 3),
     (mx (p * 32), 3), (cBytes (mc * nt), 3), (up128 (packedBytes ((if mQmode d then 32 else 64) * nt) outBits), 3),
     (if mOp d = 3 then up128 (ceilDiv (mN d) 32 * 32 * we) else 0, 3), (if mOp d = 3 then 65536 else 0, 1)]
  | 2 => [(up128 (mc * packedBytes (mK d) (fmtWidth afmt)), 3), (0, 3), (up128 (packedBytes (mK d) (fmtWidth bfmt)), 1), (0, 3),
      (cBytes mc, 3), (up128 (packedBytes 64 outBits), 3)]
  | 7 =>
    let nb := (if mRowcast d then 1 else mc) * (if mColcast d then 1 else nt)
    [(up128 (packedBytes (mc * nt) (fmtWidth afmt)), 3), (0, 3), (if mEwOp d = 5 then 0 else up128 (packedBytes nb (fmtWidth bfmt)), 3),
     (0, 3), (0, 3), (up128 (packedBytes (64 * nt) outBits), 3)]
  | 8 => [(0, 3), (0, 3), (0, 3), (0, 3), (cBytes (mc * nt), 3), (up128 (packedBytes (64 * nt) outBits), 3)]
  | 6 => [(up128 (32 * poolRows d * packedBytes (mInW d) (fmtWidth afmt)), 3), (0, 3), (0, 3), (0, 3), (0, 3),
      (up128 (packedBytes (64 * 32) outBits), 3)]
  | _ => []

/-- Bytes of a list of items. -/
def itemBytes (l : List (Nat × Nat)) : Nat := (l.map fun x => x.1 * x.2).sum

/-- Bytes of the staging area, with A in `afmt`, B in `bfmt` and D elements of `outBits` bits (R174, R520). -/
def stageBytes (d : Bytes) (afmt bfmt outBits : Nat) : Nat := itemBytes (stageItems d afmt bfmt outBits)

/-- The staging area fits in local memory, once for each quadrant of a quadrant macro (R174, R520). -/
def stageFits (d : Bytes) (afmt bfmt outBits : Nat) : Bool :=
  mOp d == 9 || mStageOff d + (if mQmode d then 4 else 1) * stageBytes d afmt bfmt outBits ≤ 0x8_0000

/-! ## Extents (R171, R195, R196, R207, R217, R522) -/

/-- One operand, scale array, table or output of a macro: first byte, bytes, and whether it is written. -/
structure Extent where
  addr : Nat
  len : Nat
  write : Bool
  deriving DecidableEq, Repr, Inhabited

/-- The extent of a matrix of r rows (R171). -/
def matExtent (addr ld r rowBytes : Nat) (write : Bool) : Extent := ⟨addr, (r - 1) * ld + rowBytes, write⟩

/-- The extent of planes (R171, R195). -/
def planeExtent (addr ld planes rows rowBytes : Nat) (write : Bool) : Extent :=
  ⟨addr, (planes - 1) * ld + rows * rowBytes, write⟩

/-- A and B form an MX pair of R114, in a macro that multiplies them: the only use of AXS and BXS (R166). -/
def mMxPair (d : Bytes) : Bool := usesArray d && pathOf (mAFmt d) (mBFmt d) == some .block

/-- The extents a macro uses, each with the item it is of: 0 A, 1 B, 2 C, 4 D, 3 any other; `wide` reads the alternate operand of DUAL (R221). -/
def mItems (d : Bytes) (wide : Bool) : List (Nat × Extent) :=
  let af := if wide then mAltFmt d else mAFmt d
  let aAddr := if wide then mAddr d 0x60 else mAddr d 0x10
  let aLd := if wide then mLd d 0x60 else mLd d 0x10
  let aw := fmtWidth af
  let bw := fmtWidth (mBFmt d)
  let m := mM d
  let n := mN d
  let k := mK d
  let ho := (mHout d).toNat
  let wo := (mWout d).toNat
  let op := mOp d
  let a : List Extent :=
    match op with
    | 4 => [planeExtent aAddr aLd k (mInH d) (packedBytes (mInW d) aw) false]
    | 5 | 6 => [planeExtent aAddr aLd n (mInH d) (packedBytes (mInW d) aw) false]
    | 8 => []
    | 7 | 9 => [matExtent aAddr aLd m (packedBytes n aw) false]
    | _ => [matExtent aAddr aLd m (packedBytes k aw) false]
  let b : List Extent :=
    match op with
    | 1 | 3 => [matExtent (mAddr d 0x18) (mLd d 0x18) k (packedBytes n bw) false]
    | 2 =>
      let ld := if mLd d 0x18 = 0 then packedBytes 1 bw else mLd d 0x18
      [matExtent (mAddr d 0x18) ld k (packedBytes 1 bw) false]
    | 4 => [matExtent (mAddr d 0x18) (mLd d 0x18) (mKh d * mKw d * k) (packedBytes n bw) false]
    | 5 => [matExtent (mAddr d 0x18) (mLd d 0x18) (mKh d * mKw d) (packedBytes n bw) false]
    | 7 =>
      if mEwOp d = 5 then []
      else [matExtent (mAddr d 0x18) (mLd d 0x18) (if mRowcast d then 1 else m)
        (packedBytes (if mColcast d then 1 else n) bw) false]
    | _ => []
  let shape := fun (addr ld w : Nat) (write : Bool) =>
    if mPlanar d then planeExtent addr ld n ho (packedBytes wo w) write
    else if op = 9 ∧ !mStrided d then matExtent addr ld n (packedBytes m w) write
    else if op = 3 then matExtent addr ld m (packedBytes (mP d) w) write
    else matExtent addr ld m (packedBytes n w) write
  let c := if mHasC d then [shape (mAddr d 0x20) (mLd d 0x20) (fmtWidth (mCFmt d)) false] else []
  let dd := [shape (mAddr d 0x28) (mLd d 0x28) (fmtWidth (mOutFmt d)) true]
  let mx := mMxPair d
  let sc : List Extent :=
    if !mx then []
    else if mPlanar d then
      [planeExtent (mAddr d 0x40) (mLd d 0x40) (ceilDiv k 32) (mInH d) (mInW d) false,
       matExtent (mAddr d 0x48) (mLd d 0x48) (ceilDiv (mKr d) 32) n false]
    else [matExtent (mAddr d 0x40) (mLd d 0x40) m (ceilDiv k 32) false,
          matExtent (mAddr d 0x48) (mLd d 0x48) (ceilDiv k 32) n false]
  let alt : List Extent :=
    if isMx (mOutFmt d) then
      if mPlanar d then [planeExtent (mAddr d 0x30) (mLd d 0x30) (ceilDiv n 32) ho wo true]
      else [matExtent (mAddr d 0x30) (mLd d 0x30) m (ceilDiv (if op = 3 then mP d else n) 32) true]
    else if mQpolicy d = 2 ∧ mAddr d 0x30 ≠ 0 then [shape (mAddr d 0x30) (mLd d 0x30) 16 true]
    else []
  let tab := if mTable d = 0 ∨ op = 9 then [] else [(⟨mTable d, 8 * n, false⟩ : Extent)]
  let e := if op = 3 then [matExtent (mAddr d 0x70) (mLd d 0x70) n (packedBytes (mP d) (fmtWidth (mEFmt d))) false] else []
  let tag := fun (k : Nat) (l : List Extent) => l.map fun x => (k, x)
  tag 0 a ++ tag 1 b ++ tag 2 c ++ tag 3 (sc ++ tab ++ e) ++ tag 4 dd ++ tag 3 alt

/-- The extents alone. -/
def mExtents (d : Bytes) (wide : Bool) : List Extent := (mItems d wide).map (·.2)

/-- D may coincide exactly, in address, pitch and element size, with C of MMUL and RSCL and with A of EWOP: the read `r` is that one (R167). -/
def mCoincides (d : Bytes) (r w : Nat × Extent) : Bool :=
  w.1 == 4 && r.2.addr == w.2.addr && r.2.len == w.2.len
    && (((mOp d == 1 || mOp d == 8) && r.1 == 2 && mLd d 0x20 == mLd d 0x28 && fmtWidth (mCFmt d) == fmtWidth (mOutFmt d))
      || (mOp d == 7 && r.1 == 0 && mLd d 0x10 == mLd d 0x28 && fmtWidth (mAFmt d) == fmtWidth (mOutFmt d)))

/-! ## The admission checks of a descriptor (R170) -/

/-- Every byte of a field is zero. -/
def fldZero (d : Bytes) (off n : Nat) : Bool := fld d off n == 0

/-- Row 1 of R170: a reserved opcode, a reserved field, a reserved ROWFN, EW_OP, PAD_MODE, POOL_KIND or QPOLICY code (0x040D). -/
def mReserved (d : Bytes) : Bool :=
  mOp d == 0 || 10 ≤ mOp d
  || bits (fld d 0 4) 24 8 != 0 || bits (mCtrl d) 22 10 != 0
  || bits (fld d 0x50 8) 31 33 != 0 || bits (fld d 0x58 8) 56 8 != 0 || bits (fld d 0x68 8) 52 12 != 0
  || 8 ≤ mRowfn d || mQpolicy d == 3
  || (match mOp d with
      | 1 | 2 | 8 => !fldZero d 0x70 16
      | 3 => bits (fld d 0x78 4) 8 8 != 0
      | 4 | 5 | 6 => bits (fld d 0x77 1) 2 6 != 0 || mPadMode d == 3 || bits (fld d 0x7E 2) 2 14 != 0 || mPoolKind d == 3
      | 7 => 6 ≤ mEwOp d || bits (fld d 0x70 1) 6 2 != 0 || !fldZero d 0x71 15
      | 9 => bits (fld d 0x70 1) 1 7 != 0 || !fldZero d 0x71 15
      | _ => false)

/-- A pitch is at least its row's size. -/
def pitchOk (ld row : Nat) : Bool := row ≤ ld

/-- Row 2 of R170 for the fields an opcode does not use, which must be zero (R166, R167, R169). -/
def mUnusedZero (d : Bytes) : Bool :=
  let op := mOp d
  let hasCok := if op = 8 then mHasC d else if op = 1 ∨ op = 2 ∨ op = 4 ∨ op = 5 then true else !mHasC d
  let bUnused := op == 6 || op == 8 || op == 9 || (op == 7 && mEwOp d == 5)
  hasCok
  && (mHasC d || (fldZero d 0x20 8 && mCFmt d == 0))
  && ((mQpolicy d == 2 && !isMx (mOutFmt d)) || isMx (mOutFmt d) || fldZero d 0x30 8)
  && (!isMx (mOutFmt d) || mAddr d 0x30 != 0)
  && (mMxPair d || (fldZero d 0x40 8 && fldZero d 0x48 8))
  && (mSplitk d || fldZero d 0x58 8)
  && (mDual d || (fldZero d 0x60 8 && mWfIn d == 0 && mAltFmt d == 0))
  && (mWflagOut d || mWfOut d == 0)
  && (op != 9 || fldZero d 0x38 8)
  && (!bUnused || (fldZero d 0x18 8 && mBFmt d == 0))
  && (op != 8 || (fldZero d 0x10 8 && mAFmt d == 0))
  && (op != 7 || mEwOp d != 5 || (!mRowcast d && !mColcast d))
  && (match op with
      | 3 => mRowfn d == 7 || mEps d == 0
      | 4 | 5 => fldZero d 0x7E 2
      | _ => true)
  && (if mQmode d then mWctr d == 0 else mQuad d == 0)

/-- Row 2 of R170 for the field rules of R167, the pitches and the geometry of R191 and R197 (0x040E). -/
def mFieldRules (d : Bytes) : Bool :=
  let op := mOp d
  let n := mN d
  let k := mK d
  let aw := fmtWidth (mAFmt d)
  let bw := fmtWidth (mBFmt d)
  let ow := fmtWidth (mOutFmt d)
  let wo := (mWout d).toNat
  let ho := (mHout d).toNat
  let outRow := if op = 9 ∧ !mStrided d then packedBytes (mM d) ow else if op = 3 then packedBytes (mP d) ow else packedBytes n ow
  (op != 2 || n == 1) && ((op != 5 && op != 6 && op != 7 && op != 8 && op != 9) || k == 1)
  && (op != 9 || (mOutFmt d == mAFmt d && (aw != 4 || (mM d % 2 == 0 && n % 2 == 0)) && mStageOff d == 0))
  && mStageOff d % 128 == 0
  && (if mPlanar d then
        decide (0 < mHout d) && decide (0 < mWout d) && mM d == ho * wo
        && (mPadMode d != 2 || (mPt d < mInH d && mPb d < mInH d && mPl d < mInW d && mPr d < mInW d))
        && (op != 4 || mKr d ≤ 65536)
        && pitchOk (mLd d 0x10) (mInH d * packedBytes (mInW d) aw)
        && (op == 6 || pitchOk (mLd d 0x18) (packedBytes n bw))
        && (!mHasC d || pitchOk (mLd d 0x20) (ho * packedBytes wo (fmtWidth (mCFmt d))))
        && pitchOk (mLd d 0x28) (ho * packedBytes wo ow)
        && (!mMxPair d || (pitchOk (mLd d 0x40) (mInH d * mInW d) && pitchOk (mLd d 0x48) n))
        && (!isMx (mOutFmt d) || pitchOk (mLd d 0x30) (ho * wo))
        && (isMx (mOutFmt d) || mAddr d 0x30 == 0 || pitchOk (mLd d 0x30) (ho * wo * 2))
        && (!mDual d || pitchOk (mLd d 0x60) (mInH d * packedBytes (mInW d) 16))
      else
        (op == 8 || pitchOk (mLd d 0x10) (packedBytes (if op = 7 ∨ op = 9 then n else k) aw))
        && (match op with
            | 1 | 3 => pitchOk (mLd d 0x18) (packedBytes n bw)
            | 2 => mLd d 0x18 == 0 || pitchOk (mLd d 0x18) (packedBytes 1 bw)
            | 7 => mEwOp d == 5 || pitchOk (mLd d 0x18) (packedBytes (if mColcast d then 1 else n) bw)
            | _ => true)
        && (!mHasC d || pitchOk (mLd d 0x20) (packedBytes n (fmtWidth (mCFmt d))))
        && pitchOk (mLd d 0x28) outRow
        && (!mMxPair d || (pitchOk (mLd d 0x40) (ceilDiv k 32) && pitchOk (mLd d 0x48) n))
        && (!isMx (mOutFmt d) || pitchOk (mLd d 0x30) (ceilDiv (if op = 3 then mP d else n) 32))
        && (isMx (mOutFmt d) || mAddr d 0x30 == 0 || pitchOk (mLd d 0x30) (packedBytes n 16))
        && (!mDual d || pitchOk (mLd d 0x60) (packedBytes k 16))
        && (op != 3 || pitchOk (mLd d 0x70) (packedBytes (mP d) (fmtWidth (mEFmt d)))))

/-- Row 3 of R170: a format not allowed in its position (0x0401), then a pair or C format not allowed (0x0402). The rules list no
formats for A of XPOS: any that a drain may produce (DESIGN CHOICE, log entry 144). -/
def mFormats (d : Bytes) : Nat :=
  let op := mOp d
  let a := mAFmt d
  let b := mBFmt d
  let ew := fun c => c ≤ 7
  let aOk := match op with
    | 1 | 3 | 4 | 5 => multiplicandOk a true
    | 2 => bypassOk a true
    | 6 | 7 => ew a
    | 9 => drainOk a
    | _ => true
  let bOk := match op with
    | 1 | 3 | 4 | 5 => multiplicandOk b false
    | 2 => bypassOk b false
    | 7 => mEwOp d == 5 || ew b
    | _ => true
  let eOk := op != 3 || (multiplicandOk (mSFmt d) true && multiplicandOk (mEFmt d) false)
  if !aOk || !bOk || !eOk || (mDual d && !multiplicandOk (mAltFmt d) true) || (mHasC d && !cInputOk (mCFmt d)) || !drainOk (mOutFmt d) then 0x0401
  else
    let paired := usesArray d || op == 2
    match (if paired then pathOf a b else some .ordered) with
    | none => 0x0402
    | some p =>
      if paired && mHasC d && !cAllowed p (mCFmt d) then 0x0402
      else if op = 3 ∧ (pathOf (mSFmt d) (mEFmt d)).isNone then 0x0402
      else if op = 5 ∧ isMx a then 0x0402
      else 0

/-- The quadrant rules of R184 and R201 (0x0410), with the format rule of R158 (0x0409). `cores` is the size of the node's unit
set. -/
def mQuadRules (d : Bytes) (cores : Nat) : Nat :=
  if mOp d = 6 ∧ (mQmode d ∨ mSplitk d) then 0x0410
  else if !mQmode d then 0
  else if cores ≠ 1 ∨ mSplitk d ∨ mOp d = 3 ∨ mOp d = 2 ∨ mOp d = 9 then 0x0410
  else if isMx (mAFmt d) ∨ isMx (mBFmt d) ∨ isMx (mOutFmt d) then 0x0409
  else 0

/-- Element size of a split-K partial: 16 bytes on the exact path, 4 on the ordered (R182). -/
def partSize (a b : Nat) : Nat :=
  match pathOf a b with
  | some (.exact _) => 16
  | _ => 4

/-- The whole partial area of a split-K macro: its first byte and bytes (R182). -/
def partArea (d : Bytes) : Nat × Nat := (mPart d, (mKs d (mAFmt d) + 1) * mM d * mN d * partSize (mAFmt d) (mBFmt d))

/-- The split-K rules of R182 (0x0411): `inside` says that a range lies wholly within the graph's partitions. SPLITK on an opcode other than MMUL and
CONV, which no list of R182 or R201 names, is refused with the same status, as a split-K rule broken (R170, R210; DEDUCED; log entry 126). -/
def mSplitRules (d : Bytes) (inside : Nat → Nat → Bool) : Bool :=
  !mSplitk d
  || ((mOp d == 1 || mOp d == 4) && 2 ≤ mKs d (mAFmt d) && mKs d (mAFmt d) ≤ 64 && !mQmode d
      && (match pathOf (mAFmt d) (mBFmt d) with
          | some (.exact _) => true
          | _ => mKseg d * mKp d (mAFmt d) == 1024)
      && inside (partArea d).1 (partArea d).2)

/-- ROWFN is allowed for the opcode (R168, R204). -/
def mRowfnOk (d : Bytes) : Bool :=
  if mRowfn d = 0 then true
  else match mOp d with
    | 1 | 2 | 4 | 5 | 7 | 8 => mRowfn d ≤ 5
    | 3 => mRowfn d ≤ 7
    | _ => false

/-- The RERUN_WIDE rules of R214 (0x0416). -/
def mRerunOk (d : Bytes) : Bool :=
  mQpolicy d != 2
  || (mOp d != 3 && mOp d != 9 && (mOutFmt d == 0 || mOutFmt d == 1 || mOutFmt d == 2 || mOutFmt d == 4 || mOutFmt d == 5)
      && !mNoBarrier d && stageFits d (mAFmt d) (mBFmt d) 16)

/-- The DUAL and flag-word rules of R218 and R220 (0x0417). -/
def mDualOk (d : Bytes) (inside : Nat → Nat → Bool) : Bool :=
  (!mWflagOut d || inside (0x40_0000_0000 + 4 * mWfOut d) 4)
  && (!mDual d
    || ((mOp d == 1 || mOp d == 4 || mOp d == 5)
        && inside (0x40_0000_0000 + 4 * mWfIn d) 4
        && (if mAFmt d ≤ 2 then mAltFmt d == 3 && mBFmt d ≤ 2
            else if mAFmt d = 4 ∨ mAFmt d = 5 then mAltFmt d == 7 && (mBFmt d == 4 || mBFmt d == 5)
            else false)
        && !((mAFmt d == 4 || mAFmt d == 5) && mSplitk d && mKseg d != 32)
        && stageFits d 3 3 (fmtWidth (mOutFmt d))))

/-- Every check of a descriptor at admission, in the order of R170 with those of chapters 07 and 08 beside them: 0, or the status
of the first that fails. -/
def macroCheck (d : Bytes) (cores counters : Nat) (inside : Nat → Nat → Bool) : Nat :=
  if mReserved d then 0x040D
  else if !mFieldRules d || !mUnusedZero d then 0x040E
  else if mFormats d ≠ 0 then mFormats d
  else if !stageFits d (mAFmt d) (mBFmt d) (fmtWidth (mOutFmt d)) then 0x040F
  else if mQuadRules d cores ≠ 0 then mQuadRules d cores
  else if !mSplitRules d inside then 0x0411
  else if counters ≤ mWctr d then 0x0413
  else if !mRowfnOk d then 0x0414
  else if mOp d = 3 ∧ 16384 < mN d then 0x0415
  else if mWcomp d && !mWstream d then 0x040D
  else if !mRerunOk d then 0x0416
  else if !mDualOk d inside then 0x0417
  else 0

end Sys2Proof.Machine
end

