-- ==== Sys2Proof/Machine/MacroMath.lean ====
section
/-! DEFINITION. The numbers a macro computes (chapters 04, 06 to 08): operand elements, products, accumulation over a pass, the
drain with C, table, row function, conversion and monitors, and the bytes a group writes. Every operand value is read from the staging buffers of
R174 and R520 in the core's local memory, but for those the spec gives no buffer: scales and table entries as the engine fetched them, the sums at
DEST, XPOS's codes. -/
namespace Sys2Proof.Machine
open Sys2Proof

/-! ## How a macro is being run -/

/-- The run of a macro: its descriptor, WSHIFT of the wide input taken under DUAL (R221), WSHIFT of a rerun (R215), and the
split-K phase (R182): forming partials, or draining the sums. -/
structure View where
  d : Bytes
  wide : Option Nat := none
  rerun : Option Nat := none
  partials : Bool := false
  fromDest : Bool := false
  deriving DecidableEq, Repr, Inhabited

/-- The format of A as read. -/
def View.aFmt (v : View) : Nat := if v.wide.isSome then mAltFmt v.d else mAFmt v.d
def View.aBase (v : View) : Nat := if v.wide.isSome then mAddr v.d 0x60 else mAddr v.d 0x10
def View.aLd (v : View) : Nat := if v.wide.isSome then mLd v.d 0x60 else mLd v.d 0x10
/-- The format B has in the array: widened exactly under DUAL (R221). -/
def View.bFmt (v : View) : Nat := if v.wide.isSome then v.aFmt else mBFmt v.d

/-- The accumulation path (R114). -/
def View.path (v : View) : Path := (pathOf v.aFmt v.bFmt).getD .ordered

/-- The wide format of R215. -/
def wideFmt (outFmt : Nat) : Nat := if outFmt ≤ 2 then 3 else 7

/-- WSHIFT of R215 for the verdicts overflow and underflow. -/
def wshiftOf (outFmt : Nat) (overs under : Bool) : Nat :=
  match outFmt with
  | 0 => if overs && under then 6 else if under then 12 else 0
  | 1 => if overs && under then 4 else if under then 8 else 0
  | 2 => if overs && under then 3 else if under then 7 else 0
  | _ => 0

def View.outFmt (v : View) : Nat := if v.rerun.isSome then wideFmt (mOutFmt v.d) else mOutFmt v.d
def View.dBase (v : View) : Nat := if v.rerun.isSome then mAddr v.d 0x30 else mAddr v.d 0x28
def View.dLd (v : View) : Nat := if v.rerun.isSome then mLd v.d 0x30 else mLd v.d 0x28

/-! ## Operand elements (R108, R195, R196, R202, R522) -/

/-- The code of element `i` of a packed row. -/
def State.elem (s : State) (fmt base i : Nat) : Nat :=
  let w := fmtWidth fmt
  if w = 4 then bits (leNat (s.peek (base + i / 2) 1)) (4 * (i % 2)) 4
  else leNat (s.peek (base + i * (w / 8)) (w / 8))

/-- A position of an operand: the start of its row, the element's number in it, and the format it is read in. -/
structure Pos where
  base : Nat
  idx : Nat
  fmt : Nat
  deriving DecidableEq, Repr, Inhabited

/-- The bytes a position occupies. -/
def Pos.range (p : Pos) : Nat × Nat :=
  let w := fmtWidth p.fmt
  if w = 4 then (p.base + p.idx / 2, 1) else (p.base + p.idx * (w / 8), w / 8)

/-- The value at a position, without any block scale. -/
def State.posVal (s : State) (p : Pos) : Val := elemVal p.fmt (s.elem p.fmt p.base p.idx)

/-- Tap and input channel of a K index of CONV (R197), or the tap of DWCV. -/
def convTap (d : Bytes) (k : Nat) : Nat × Nat := if mOp d = 5 then (k, 0) else (k / mCp d, k % mCp d)

/-- Where A's element for output row m, column n and K index k lies; none where it does not exist or is absent (R193). -/
def View.aPos (v : View) (m n k : Nat) : Option Pos :=
  let d := v.d
  match mOp d with
  | 4 =>
    let tc := convTap d k
    if mK d ≤ tc.2 then none
    else (samplePos d m tc.1).map fun yx =>
      ⟨v.aBase + tc.2 * v.aLd + yx.1 * packedBytes (mInW d) (fmtWidth v.aFmt), yx.2, v.aFmt⟩
  | 5 =>
    (samplePos d m k).map fun yx =>
      ⟨v.aBase + n * v.aLd + yx.1 * packedBytes (mInW d) (fmtWidth v.aFmt), yx.2, v.aFmt⟩
  | _ => some ⟨v.aBase + m * v.aLd, k, v.aFmt⟩

/-- Where B's element for column n and K index k lies. B is read in its own format and widened exactly. -/
def View.bPos (v : View) (n k : Nat) : Option Pos :=
  let d := v.d
  let base := mAddr d 0x18
  let ld := mLd d 0x18
  match mOp d with
  | 4 =>
    let tc := convTap d k
    if mK d ≤ tc.2 then none else some ⟨base + (tc.1 * mK d + tc.2) * ld, n, mBFmt d⟩
  | 2 => some (if ld = 0 then ⟨base, k, mBFmt d⟩ else ⟨base + k * ld, 0, mBFmt d⟩)
  | _ => some ⟨base + k * ld, n, mBFmt d⟩

/-- Where the A-side scale of the block that holds K index k lies (R522, R200). -/
def View.aScaleAt (v : View) (m k : Nat) : Option Nat :=
  let d := v.d
  if mOp d = 4 then
    let tc := convTap d k
    (samplePos d m tc.1).map fun yx => mAddr d 0x40 + tc.2 / 32 * mLd d 0x40 + yx.1 * mInW d + yx.2
  else some (mAddr d 0x40 + m * mLd d 0x40 + k / 32)

/-- Where the B-side scale of column n for that block lies. -/
def View.bScaleAt (v : View) (n k : Nat) : Nat := mAddr v.d 0x48 + k / 32 * mLd v.d 0x48 + n

/-! ## Passes (R140, R172, R183, R194, R203) -/

/-- A pass of a group: its columns and its K range. -/
structure Pass where
  cols : List Nat
  k0 : Nat
  k1 : Nat
  deriving DecidableEq, Repr, Inhabited

/-- A tap is skipped for a chunk: under zero padding no output pixel of it samples the tap inside the image (R194). -/
def tapSkipped (d : Bytes) (mi t : Nat) : Bool :=
  let c := chunkRows d mi
  mPadMode d == 0 && (List.range c.2).all fun j => (samplePos d (c.1 + j) t).isNone

/-- K index `k` belongs to a skipped tap (R194). -/
def kSkipped (d : Bytes) (mi k : Nat) : Bool := (mOp d == 4 || mOp d == 5) && tapSkipped d mi (convTap d k).1

/-- A pass is skipped: every K index it covers belongs to a skipped tap or does not exist (R194). -/
def passSkipped (d : Bytes) (mi k0 k1 : Nat) : Bool :=
  (mOp d == 4 || mOp d == 5) && (List.range (k1 - k0)).all fun j =>
    mKr d ≤ k0 + j || (mOp d == 4 && mK d ≤ (convTap d (k0 + j)).2) || kSkipped d mi (k0 + j)

/-- The K ranges of the passes that a tile issues for an N tile, in issue order. -/
def View.kPasses (v : View) (mi ki : Nat) : List (Nat × Nat) :=
  let d := v.d
  let kp := mKp d v.aFmt
  let k := tileK d v.partials ki v.aFmt
  ((List.range (ceilDiv (k.2 - k.1) kp)).map fun p => (k.1 + p * kp, min (k.1 + (p + 1) * kp) k.2)).filter fun p =>
    !passSkipped d mi p.1 p.2

/-- The passes of a tile, in issue order. Those of FMM2's first product follow N tile by N tile. -/
def View.passes (v : View) (mi ni ki : Nat) : List Pass :=
  let d := v.d
  let ks := v.kPasses mi ki
  if !usesArray d || v.fromDest then []
  else if mOp d = 3 then
    ((List.range (ceilDiv (mN d) (mNt d))).map fun nt =>
      ks.map fun p => (⟨(tileCols d 0).drop (nt * mNt d) |>.take (mNt d), p.1, p.2⟩ : Pass)).flatten
  else ks.map fun p => ⟨tileCols d ni, p.1, p.2⟩

/-- Passes of FMM2's second product: each panel of 32 of the P columns over N (R183). -/
def View.passes2 (v : View) : Nat :=
  if mOp v.d = 3 then ceilDiv (mP v.d) 32 * ceilDiv (mN v.d) (if fmtWidth (mSFmt v.d) = 4 then 64 else 32) else 0

/-! ## Staging (R141, R174, R177, R196, R520) -/

/-- Where a tile's operands stand staged: the staging area, the tile's coordinates, the buffer of each of A, B and C with their scales, and the scale
bytes and table entries by their source address. `own`: D lies in the core's own local memory, and is written directly (R176). -/
structure Stage where
  own : Bool := false
  base : Nat := 0
  mi : Nat := 0
  ni : Nat := 0
  ki : Nat := 0
  a : Nat := 0
  b : Nat := 0
  c : Nat := 0
  side : List (Nat × Bytes) := []
  deriving DecidableEq, Repr, Inhabited

/-- The items of the staging area as the macro is being run. -/
def View.items (v : View) : List (Nat × Nat) := stageItems v.d v.aFmt v.bFmt (fmtWidth v.outFmt)

/-- The first byte of buffer `buf` of item `ix` of the staging area at `base`. -/
def View.item (v : View) (base ix buf : Nat) : Nat := base + itemBytes (v.items.take ix) + buf * (v.items.getD ix (0, 0)).1

/-- Logical row, or feeder lane, of K index `k` of a pass from `k0`: two indices share one for 4-bit elements (R140); column `c` of the tile for
DWCV, whose weights stand on the diagonal (R203). -/
def View.lane (v : View) (k0 c k : Nat) : Nat := if mOp v.d = 5 then c else (k - k0) / (if fmtWidth v.aFmt = 4 then 2 else 1)

/-- The pass that covers K index `k`: its number among those issued, and its first K index. -/
def View.passOf (v : View) (mi ki k : Nat) : Nat × Nat :=
  let ps := v.kPasses mi ki
  let p := (ps.filter fun x => x.2 ≤ k).length
  (p, (ps.getD p (0, 0)).1)

/-- The first input row that a POOL tile's buffer holds of each plane. -/
def poolTop (d : Bytes) (mi : Nat) : Nat :=
  let c := chunkRows d mi
  ((List.range c.2).map fun j => (List.range (mKh d * mKw d)).filterMap fun t => (samplePos d (c.1 + j) t).map (·.1)).flatten.foldl min (mInH d)

/-- Where A's element for row `m`, column `n` and K index `k` stands in the buffer at `buf`. For the array it is the pre-skewed stream of R141 over all
passes of all groups: lane l of word w holds row w - l. -/
def View.aLoc (v : View) (mi ni ki buf m n k : Nat) : Pos :=
  let d := v.d
  let r := m - (chunkRows d mi).1
  let c := n - ni * mNt d
  match mOp d with
  | 2 => ⟨buf + r * packedBytes (mK d) (fmtWidth v.aFmt), k, v.aFmt⟩
  | 7 => ⟨buf, r * mNt d + c, v.aFmt⟩
  | _ =>
    let p := v.passOf mi ki k
    let g := r / mGroupRows d
    let row := g * mGroupRows d * (v.kPasses mi ki).length + p.1 * (groupRows d mi g).length + r % mGroupRows d
    ⟨buf + (row + v.lane p.2 c k) * stageWord d v.aFmt,
     if mOp d = 5 then (if fmtWidth v.aFmt = 4 then 2 * c else c) else k - p.2, v.aFmt⟩

/-- Where POOL's element of plane `n` at (y, x) stands in the buffer at `buf`. -/
def View.poolLoc (v : View) (mi ni buf n y x : Nat) : Pos :=
  ⟨buf + ((n - ni * mNt v.d) * poolRows v.d + (y - poolTop v.d mi)) * packedBytes (mInW v.d) (fmtWidth v.aFmt), x, v.aFmt⟩

/-- Where B's element for row `m`, column `n` and K index `k` stands in the buffer at `buf`: for the array one logical row of weights after the other,
pass by pass (R140); the vector of MMV; B of EWOP, row and column broadcast left out. -/
def View.bLoc (v : View) (mi ni ki buf m n k : Nat) : Pos :=
  let d := v.d
  let c := (n - ni * mNt d) % mNt d
  match mOp d with
  | 2 => ⟨buf, k, v.bFmt⟩
  | 7 => ⟨buf, (if mRowcast d then 0 else m - (chunkRows d mi).1) * (if mColcast d then 1 else mNt d) + (if mColcast d then 0 else c), v.bFmt⟩
  | _ =>
    let p := v.passOf mi ki k
    ⟨buf + (p.1 * (if mQmode d then 16 else 32) + v.lane p.2 c k) * stageWord d v.aFmt,
     if fmtWidth v.aFmt = 4 then 2 * c + (if mOp d = 5 then 0 else (k - p.2) % 2) else c, v.bFmt⟩

/-- Where C's element (m, n) stands in the buffer at `buf`. -/
def View.cLoc (v : View) (mi ni buf m n : Nat) : Pos :=
  let r := m - (chunkRows v.d mi).1
  ⟨buf, if mOp v.d = 2 then r else r * mNt v.d + (n - ni * mNt v.d), mCFmt v.d⟩

/-- The buffer that holds B for column `n`: FMM2's panels of 32 columns take the three buffers in turn. -/
def View.bBuf (v : View) (t : Stage) (n : Nat) : Nat := v.item t.base 2 (if mOp v.d = 3 then n / 32 % 3 else if mOp v.d = 2 then 0 else t.b)

/-- The staged value of A for row `m`, column `n` and K index `k`. -/
def State.aVal (s : State) (v : View) (t : Stage) (m n k : Nat) : Val :=
  s.posVal (v.aLoc t.mi t.ni t.ki (v.item t.base 0 t.a) m n k)

/-- The staged value of B for row `m`, column `n` and K index `k`. -/
def State.bVal (s : State) (v : View) (t : Stage) (m n k : Nat) : Val := s.posVal (v.bLoc t.mi t.ni t.ki (v.bBuf t n) m n k)

/-- The bytes the engine fetched from a source address of a scale array or the table. -/
def Stage.fetched (t : Stage) (a : Nat) : Bytes := ((t.side.find? fun p => p.1 == a).map (·.2)).getD []

/-- A block's scale as fetched. -/
def Stage.scale (t : Stage) (a : Nat) : Nat := leNat (t.fetched a)

/-! ## Products (R108, R120, R121) -/

/-- The product at K index k of output (m, n); none where it does not exist or is absent (R120, R193). -/
def State.product (s : State) (v : View) (t : Stage) (m n k : Nat) : Option Val :=
  if mKr v.d ≤ k then none
  else match v.aPos m n k, v.bPos n k with
  | some _, some _ => some ((s.aVal v t m n k).mul (s.bVal v t m n k))
  | _, _ => none

/-- The term of the block of 32 K indices that starts at `k` (R121). A zero block sum keeps the sign that exact addition gives it: -0 only where every
product is -0 (DEDUCED; log entry 118). -/
def State.blockAt (s : State) (v : View) (t : Stage) (m n k : Nat) : Option Val :=
  blockTerm ((List.range 32).map fun j => s.product v t m n (k + j)) (((v.aScaleAt m k).map t.scale).getD 0) (t.scale (v.bScaleAt n k))

/-! ## Accumulation (R115 to R121) -/

/-- An empty accumulator entry of a path. -/
def Path.empty : Path → Acc
  | .exact _ => .exact 0
  | _ => .ord 0 none

/-- A term joins an ordered entry; at a segment boundary the segment's sum first joins the running total (R119). -/
def ordStep (kFirst k : Nat) (term : Option Val) (g : Nat) (t : Option Nat) : Nat × Option Nat :=
  let r : Nat × Option Nat := if k % 1024 = 0 ∧ k ≠ kFirst then
      (0, some (match t with
        | some x => round32 ((val32 x).add (val32 g))
        | none => g))
    else (g, t)
  match term with
  | some p => (round32 ((val32 r.1).add p), r.2)
  | none => r

/-- One entry takes the terms of K indices `[k0, k0 + n)`; none where an exact sum would leave its range (R116). -/
def State.accumulate (s : State) (v : View) (t : Stage) (m n kFirst k0 cnt : Nat) (acc : Acc) : Option Acc :=
  match v.path, acc with
  | .exact f, .exact a =>
    ((List.range cnt).foldl (fun a j => a.bind fun a =>
      match s.product v t m n (k0 + j) with
      | some p => exactAdd a (exactUnits f p)
      | none => some a) (some a)).map .exact
  | .block, .ord g u =>
    let r := (List.range (ceilDiv cnt 32)).foldl (fun (r : Nat × Option Nat) j =>
      ordStep kFirst (k0 + 32 * j) (s.blockAt v t m n (k0 + 32 * j)) r.1 r.2) (g, u)
    some (.ord r.1 r.2)
  | _, .ord g u =>
    let r := (List.range cnt).foldl (fun (r : Nat × Option Nat) j =>
      ordStep kFirst (k0 + j) (s.product v t m n (k0 + j)) r.1 r.2) (g, u)
    some (.ord r.1 r.2)
  | _, a => some a

/-- The value of an entry of the exact or the ordered path, C joined (R115, R119); none where C would leave the range. -/
def accValue (p : Path) (acc : Acc) (c : Option Val) : Option Val :=
  match p, acc with
  | .exact f, .exact a =>
    match c with
    | some x => (exactAdd a (exactUnits f x)).map (exactVal f)
    | none => some (exactVal f a)
  | _, .ord g t =>
    let r := match t with
      | some x => (val32 x).add (val32 g) |>.r32
      | none => val32 g
    some (addC r c)
  | _, .exact a => some (exactVal 0 a)

/-- The rows of a matrix of entries, each cell changed by its row, its column and its entry; none as soon as one cell gives none. -/
def mapCells (rows cols : List Nat) (f : Nat → Nat → Acc → Option Acc) (acc : List (List Acc)) (e : Acc) :
    Option (List (List Acc)) :=
  (rows.zipIdx.mapM fun r => cols.zipIdx.mapM fun c => f r.1 c.1 (((acc[r.2]?).getD [])[c.2]?.getD e))

/-- A pass accumulates into a group. The K indices since the group's last pass that were skipped add nothing, but their segment
boundaries count (R119, R193). -/
def State.issuePass (s : State) (v : View) (t : Stage) (g : Nat) (cols : List Nat) (p : Pass) (from_ : Nat) (acc : List (List Acc)) :
    Option (List (List Acc)) :=
  let kf := (tileK v.d v.partials t.ki v.aFmt).1
  mapCells (groupRows v.d t.mi g) cols (fun m n a =>
    if p.cols.contains n then s.accumulate v t m n kf from_ (p.k1 - from_) a else some a) acc v.path.empty

/-! ## Traps of the operand reader (R130) -/

/-- What a read value traps: NaN before infinity. -/
def trapKind (d : Bytes) : Val → Option Nat
  | .nan => if mTrapNan d then some 0x0403 else none
  | .inf _ => if mTrapInf d then some 0x0404 else none
  | _ => none

/-- The earlier of two raised traps; in one cycle the lower status. -/
def earlier (a b : Nat × Nat) : Nat × Nat := if b.1 < a.1 || (b.1 == a.1 && b.2 < a.2) then b else a

/-- The first of the traps that a list of cycles raises, with its cycle. -/
def earliest (xs : List (Nat × Option Nat)) : Option (Nat × Nat) :=
  xs.foldl (fun best x => match x.2, best with
    | some st, some b => some (earlier b (x.1, st))
    | some st, none => some (x.1, st)
    | none, _ => best) none

/-- The status of the first trap of a list, or 0. -/
def firstTrap (xs : List (Nat × Option Nat)) : Nat := ((earliest xs).map (·.2)).getD 0

/-- What the loader meets as it writes a pass's set, logical row k in cycle `at_` + k, each block's scales with its first row; a scale of 0xFF is a
NaN (R130, R145). -/
def State.loadTraps (s : State) (v : View) (t : Stage) (p : Pass) (at_ : Nat) : List (Nat × Option Nat) :=
  let d := v.d
  let m := (chunkRows d t.mi).1
  ((List.range (p.k1 - p.k0)).map fun j => p.cols.map fun n =>
    let k := p.k0 + j
    let cyc := at_ + v.lane p.k0 (n - t.ni * mNt d) k
    if (v.bPos n k).isNone || kSkipped d t.mi k then [] else
      [(cyc, trapKind d (s.bVal v t m n k)),
       (cyc, if v.path == .block && k % 32 == 0 && t.scale (v.bScaleAt n k) == 0xFF then trapKind d .nan else none)]).flatten.flatten

/-- What the feeder meets as it reads a pass, lane l of row m of the group in cycle `at_` + (m + l) x r (R130, R141). -/
def State.feedTraps (s : State) (v : View) (t : Stage) (g : Nat) (p : Pass) (at_ : Nat) : List (Nat × Option Nat) :=
  let d := v.d
  let cs := if mOp d = 5 then p.cols else [p.cols.headD 0]
  ((groupRows d t.mi g).zipIdx.map fun r => (List.range (p.k1 - p.k0)).map fun j => cs.map fun n =>
    let k := p.k0 + j
    let cyc := at_ + (r.2 + v.lane p.k0 (n - t.ni * mNt d) k) * passRate v.aFmt
    if (v.aPos r.1 n k).isNone then [] else
      [(cyc, trapKind d (s.aVal v t r.1 n k)),
       (cyc, if v.path == .block && k % 32 == 0 then
          (v.aScaleAt r.1 k).bind fun a => if t.scale a = 0xFF then trapKind d .nan else none else none)]).flatten.flatten.flatten

/-- The bytes of local memory that the loader reads for a pass's set. FMM2's panels have just been staged (R174). -/
def View.loadSpans (v : View) (t : Stage) (p : Pass) : List (Nat × Nat) :=
  if mOp v.d = 3 then []
  else (List.range (p.k1 - p.k0)).flatMap fun j => p.cols.filterMap fun n =>
    if (v.bPos n (p.k0 + j)).isNone || kSkipped v.d t.mi (p.k0 + j) then none
    else some (v.bLoc t.mi t.ni t.ki (v.bBuf t n) (chunkRows v.d t.mi).1 n (p.k0 + j)).range

/-- The bytes of local memory that the feeder reads for a pass of a group. -/
def View.feedSpans (v : View) (t : Stage) (g : Nat) (p : Pass) : List (Nat × Nat) :=
  (groupRows v.d t.mi g).flatMap fun m => (List.range (p.k1 - p.k0)).flatMap fun j =>
    (if mOp v.d = 5 then p.cols else [p.cols.headD 0]).filterMap fun n =>
      (v.aPos m n (p.k0 + j)).map fun _ => (v.aLoc t.mi t.ni t.ki (v.item t.base 0 t.a) m n (p.k0 + j)).range

/-- The bytes of local memory that the drain, or the row-function unit, reads for a group: staged C, EWOP's operands, and POOL's buffer. -/
def View.drainSpans (v : View) (t : Stage) (g : Nat) : List (Nat × Nat) :=
  let d := v.d
  let cells := (groupRows d t.mi g).flatMap fun m => (tileCols d t.ni).map fun n => (m, n)
  match mOp d with
  | 6 => [(v.item t.base 0 t.a, (v.items.getD 0 (0, 0)).1)]
  | 7 => cells.flatMap fun c => (v.aLoc t.mi t.ni t.ki (v.item t.base 0 t.a) c.1 c.2 0).range
      :: (if mEwOp d = 5 then [] else [(v.bLoc t.mi t.ni t.ki (v.bBuf t c.2) c.1 c.2 0).range])
  | _ => if mHasC d && !v.partials then cells.map fun c => (v.cLoc t.mi t.ni (v.item t.base 4 t.c) c.1 c.2).range else []

/-- The cycles of the bypass path (R149), counted so that they keep its order: piece by piece of 4,096 elements the vector is loaded, then 16 K indices
of 4 rows are formed in each cycle. -/
def mmvCycle (r k : Nat) (vector : Bool) : Nat := k / 4096 * 2 ^ 40 + if vector then k % 4096 / 64 else 64 + r / 4 * 256 + k % 4096 / 16

/-- The first trap of the bypass path over a group (R130, R149), or 0. -/
def State.mmvTrap (s : State) (v : View) (t : Stage) (g : Nat) : Nat :=
  let ks := List.range (mK v.d)
  let bs := ks.map fun k => (mmvCycle 0 k true, trapKind v.d (s.bVal v t 0 0 k))
  let as_ := ((groupRows v.d t.mi g).zipIdx.map fun r => ks.map fun k => (mmvCycle r.2 k false, trapKind v.d (s.aVal v t r.1 0 k))).flatten
  firstTrap (bs ++ as_)

/-! ## The drain (R124 to R136, R168, R207, R215, R221) -/

/-- Where element (m, n) of a D-shaped operand lies, and the length of its row (R171, R195). -/
def View.shapePos (v : View) (base ld fmt m n : Nat) : Pos × Nat :=
  let d := v.d
  if mPlanar d then
    let wo := (mWout d).toNat
    (⟨base + n * ld + m / max wo 1 * packedBytes wo (fmtWidth fmt), m % max wo 1, fmt⟩, wo)
  else if mOp d = 9 ∧ !mStrided d then (⟨base + n * ld, m, fmt⟩, mM d)
  else (⟨base + m * ld, n, fmt⟩, if mOp d = 3 then mP d else mN d)

/-- The C input of (m, n). -/
def State.cVal (s : State) (v : View) (t : Stage) (m n : Nat) : Option Val :=
  if mHasC v.d then some (s.posVal (v.cLoc t.mi t.ni (v.item t.base 4 t.c) m n)) else none

/-- The reduction's sum for (m, n), read back from DEST (R182). -/
def State.destAcc (s : State) (v : View) (m n : Nat) : Acc :=
  let e := partSize v.aFmt v.bFmt
  let a := mPart v.d + (mKs v.d v.aFmt * (mM v.d * mN v.d) + (m * mN v.d + n)) * e
  if e = 16 then .exact (partialInt (s.peek a 16)) else .ord (leNat (s.peek a 4)) none

/-- MAX or MIN of R167: a NaN wins, +0 ranks above -0. -/
def pickVal (greater : Bool) (a b : Val) : Val :=
  match a, b with
  | .nan, _ => .nan
  | _, .nan => .nan
  | _, _ =>
    if a.lt b then (if greater then b else a)
    else if b.lt a then (if greater then a else b)
    else if a.isNeg == greater then b else a

/-- The element-wise operation of EWOP (R167, R169). -/
def ewVal (op : Nat) (a b : Val) : Val :=
  match op with
  | 0 => add32 a b
  | 1 => sub32 a b
  | 2 => mul32 a b
  | 3 => pickVal true a b
  | 4 => pickVal false a b
  | _ => a

/-- EWOP's operands at (m, n). -/
def State.ewArgs (s : State) (v : View) (t : Stage) (m n : Nat) : List Val :=
  if mEwOp v.d = 5 then [s.aVal v t m n 0] else [s.aVal v t m n 0, s.bVal v t m n 0]

/-- POOL's window at pixel m of channel n, in raster order: each present value with whether its position lies in the image. -/
def State.poolArgs (s : State) (v : View) (t : Stage) (m n : Nat) : List (Val × Bool) :=
  (List.range (mKh v.d * mKw v.d)).filterMap fun k =>
    (samplePos v.d m k).map fun yx => (s.posVal (v.poolLoc t.mi t.ni (v.item t.base 0 t.a) n yx.1 yx.2), inImage v.d m k)

/-- The sum of R205, each addition rounded; it starts from the first value (DESIGN CHOICE, log entry 149). -/
def sum32 (vs : List Val) : Val :=
  match vs with
  | [] => Val.zero
  | x :: xs => xs.foldl add32 x

/-- A value divided by a positive count, rounded once to FP32 (R205). -/
def divCount (v : Val) (n : Nat) : Val :=
  match v with
  | .fin neg m e =>
    if m = 0 then .fin neg 0 0
    else
      let k := Nat.log2 n + 34
      let q := m * 2 ^ k / n
      (Val.fin neg (2 * q + if m * 2 ^ k % n = 0 then 0 else 1) (e - k - 1)).r32
  | v => v

/-- POOL's result (R205). -/
def poolVal (kind taps : Nat) (xs : List (Val × Bool)) : Val :=
  match kind with
  | 0 => match xs.map (·.1) with
    | [] => Val.zero
    | y :: ys => ys.foldl (pickVal true) y
  | 1 => if xs = [] then Val.zero else divCount (sum32 (xs.map (·.1))) taps
  | _ =>
    let ys := (xs.filter (·.2)).map (·.1)
    if ys = [] then Val.zero else divCount (sum32 ys) ys.length

/-- The drain input of (m, n) before scale and offset: the accumulator with C, or the row-function unit's result; none where an
exact sum leaves its range (R116). -/
def State.drainInput (s : State) (v : View) (t : Stage) (acc : Acc) (m n : Nat) : Option Val :=
  match mOp v.d with
  | 7 =>
    match s.ewArgs v t m n with
    | [a, b] => some (ewVal (mEwOp v.d) a b)
    | a :: _ => some a
    | [] => some Val.zero
  | 8 => some ((s.cVal v t m n).getD Val.zero)
  | 6 => some (poolVal (mPoolKind v.d) (mKh v.d * mKw v.d) (s.poolArgs v t m n))
  | _ =>
    let a := if v.fromDest then s.destAcc v m n else acc
    accValue v.path a (s.cVal v t m n)

/-- The table's scale and offset for column n, with the factors of R215 and R221. -/
def View.drainFactors (v : View) (t : Stage) (n : Nat) : Option Val × Option Val :=
  let up : Int := v.rerun.getD 0
  let f : Int := up - (v.wide.getD 0 : Nat)
  if mTable v.d = 0 then (if f = 0 then none else some (.fin false 1 f), none)
  else
    let e := t.fetched (mTable v.d + 8 * n)
    (some ((val32 (fld e 0 4)).scale f), some ((val32 (fld e 4 4)).scale up))

/-- The element-wise row functions of R168. -/
def rowfn1 (code : Nat) (x : Val) : Val :=
  match code with
  | 1 => exp32 x
  | 2 => recip32 x
  | 3 => rsqrt32 x
  | 4 => gelu32 x
  | 5 => silu32 x
  | _ => x

/-- The row function of FMM2 over a complete row (R168, R183). -/
def rowfnRow (code : Nat) (eps : Val) (xs : List Val) : List Val :=
  match code with
  | 6 => softmax32 xs
  | 7 => normalise32 xs eps
  | _ => xs.map (rowfn1 code)

/-! ## Conversion with monitors (R126 to R129, R209) -/

/-- The magnitude of a code as R209 defines it. -/
def codeMag (fmt code : Nat) : Nat :=
  match floatOf fmt with
  | some f => code % 2 ^ (f.expBits + f.fracBits)
  | none => if fmt = 2 then code else (toSigned (fmtWidth fmt) code).natAbs

/-- What one conversion counts. -/
def countConv (fmt : Nat) (badBlock : Bool) (input : Val) (r : Nat × ConvFlag) : Counts :=
  let nz := match input with
    | .nan => false
    | .inf _ => true
    | .fin _ m _ => m != 0
  { v := 1, sat := b2n (r.2 == .sat), invalid := b2n (r.2 == .invalid), nonzero := b2n nz
    small := b2n (nz && codeMag fmt r.1 ≤ 1 && !badBlock) }

/-- Counts added. -/
def Counts.add (a b : Counts) : Counts :=
  { v := a.v + b.v, sat := a.sat + b.sat, small := a.small + b.small, nonzero := a.nonzero + b.nonzero
    invalid := a.invalid + b.invalid }

/-- A row of values leaves the drain: input and value of each column give each code and, for an MX format, the block scales; with
the counts and whether a NaN became an integer (TRAP_INVALID). -/
def convertRow (fmt : Nat) (rtz infOut : Bool) (cells : List (Val × Val)) : List Nat × List Nat × Counts × Bool :=
  if isMx fmt then
    let blocks := (cut 32 cells.length cells).map fun b => (b, mxBlock fmt infOut (b.map (·.2)))
    let codes := (blocks.map fun b => b.2.2.map (·.1)).flatten
    let cnt := (blocks.map fun b => (b.1.zip b.2.2).map fun x => countConv fmt (b.2.1 == 0xFF) x.1.1 x.2).flatten
    (codes, blocks.map (·.2.1), cnt.foldl Counts.add {}, fmt == 0xC && cells.any (·.2 == .nan))
  else
    let rs := cells.map fun c => (c.1, convert fmt rtz infOut c.2)
    (rs.map (·.2.1), [], (rs.map fun r => countConv fmt false r.1 r.2).foldl Counts.add {},
      (floatOf fmt).isNone && cells.any (·.2 == .nan))

/-! ## What a group writes (R147, R171, R176, R182, R522) -/

/-- The masked bytes of one element of a row of `rowLen` elements; the unused upper half of a row's last byte is zero (R108). -/
def elemWrites (p : Pos) (rowLen code : Nat) : List MaskedByte :=
  let w := fmtWidth p.fmt
  if w = 4 then
    { addr := p.base + p.idx / 2, half := p.idx % 2, value := code % 16 }
      :: (if p.idx + 1 = rowLen ∧ p.idx % 2 = 0 then [{ addr := p.base + p.idx / 2, half := 1, value := 0 }] else [])
  else (List.range (w / 8)).map fun k => { addr := p.base + p.idx * (w / 8) + k, value := code / 256 ^ k % 256 }

/-- What a drained group gives: its writes to D and ALT, the bytes it leaves in local memory (the D staging buffer, FMM2's row buffer), its counts, and
the trap or fault that ends the macro instead. -/
structure Drained where
  writes : List MaskedByte := []
  staged : List MaskedByte := []
  counts : Counts := {}
  status : Nat := 0
  deriving DecidableEq, Repr, Inhabited

/-- Two parts of a drain, one after the other; the first status stands. -/
def Drained.then (a b : Drained) : Drained :=
  { writes := a.writes ++ b.writes, staged := a.staged ++ b.staged, counts := a.counts.add b.counts
    status := if a.status = 0 then b.status else a.status }

/-- The macro's sums are of an ordered path (R114, R183). -/
def View.ordered (v : View) : Bool :=
  let p := if mOp v.d = 3 then (pathOf (mSFmt v.d) (mEFmt v.d)).getD .ordered else v.path
  usesArray v.d && p != .exact 0 && p != .exact 18

/-- An FP32 output of the ordered path with no scale, no offset, no factor and no row function is copied unchanged (R124). -/
def View.copies (v : View) : Bool :=
  v.ordered && v.outFmt == 8 && mTable v.d == 0 && v.rerun.getD 0 == 0 && v.wide.getD 0 == 0 && (mRowfn v.d == 0 || mOp v.d == 3)

/-- A row copied unchanged: an infinity stays one and counts as no saturation. -/
def copyRow (cells : List (Val × Val)) : List Nat × List Nat × Counts × Bool :=
  let rs := cells.map fun c => (c.1, (round32 c.2, ConvFlag.none))
  (rs.map (·.2.1), [], (rs.map fun r => countConv 8 false r.1 r.2).foldl Counts.add {}, false)

/-- Where the code of (m, n) stands in the D staging buffers: group by group, or, for FMM2, panel by panel of 32 columns (R174, R176). -/
def View.dLoc (v : View) (t : Stage) (m n : Nat) : Pos :=
  let r := m - (chunkRows v.d t.mi).1
  let c := n - t.ni * mNt v.d
  let gr := if mOp v.d = 3 ∨ usesArray v.d then mGroupRows v.d else 64
  ⟨v.item t.base 5 (if mOp v.d = 3 then n / 32 % 3 else r / gr % 3), r % gr * (if mOp v.d = 2 then 1 else mNt v.d) + c % mNt v.d, v.outFmt⟩

/-- A row's codes in the D staging buffer, which stay within their item. -/
def View.stageRow (v : View) (t : Stage) (m : Nat) (cols codes : List Nat) : List MaskedByte :=
  if t.own || (v.items.getD 5 (0, 0)).1 = 0 then []
  else ((cols.zip codes).map fun nc => elemWrites (v.dLoc t m nc.1) (2 ^ 20) nc.2).flatten

/-- A row drained into D and ALT, given each column's (input, value) cell. -/
def View.drainRow (v : View) (t : Stage) (m : Nat) (cols : List Nat) (cells : List (Val × Val)) : Drained :=
  let d := v.d
  let out := v.outFmt
  let r := if v.copies then copyRow cells else convertRow out (mRtz d) (mInfOut d) cells
  let ws := (cols.zip r.1).map fun nc =>
    let p := v.shapePos v.dBase v.dLd out m nc.1
    elemWrites p.1 p.2 nc.2
  let ss := r.2.1.zipIdx.map fun sc =>
    let blk := (cols.headD 0) / 32 + sc.2
    let wo := (mWout d).toNat
    let a := if mPlanar d then mAddr d 0x30 + blk * mLd d 0x30 + m / max wo 1 * wo + m % max wo 1
      else mAddr d 0x30 + m * mLd d 0x30 + blk
    ({ addr := a, value := sc.1 } : MaskedByte)
  { writes := ws.flatten ++ ss, staged := v.stageRow t m cols r.1, counts := r.2.2.1
    status := if r.2.2.2 && mTrapInvalid d then 0x0405 else 0 }

/-- A 96-bit sum read back from DEST that holds the NaN marker is a NaN to the traps (R130). -/
def accTrap (d : Bytes) : Acc → Option Nat
  | .exact a => if a = nanMarker then trapKind d .nan else none
  | .ord _ _ => none

/-- What the drain or the row-function unit meets as it reads what a row needs, by cycle: C, DEST, EWOP's, RSCL's and POOL's operands; POOL takes
one window position per cycle (R130, R204), padded ones that kind 0b10 ignores among them (DESIGN CHOICE, log entry 150). -/
def State.drainTraps (s : State) (v : View) (t : Stage) (m : Nat) (cols : List Nat) : List (Nat × Option Nat) :=
  (cols.map fun n =>
    match mOp v.d with
    | 7 => (s.ewArgs v t m n).map fun x => (0, trapKind v.d x)
    | 6 => (s.poolArgs v t m n).zipIdx.map fun x => (x.2, trapKind v.d x.1.1)
    | 9 => []
    | _ => [(0, (s.cVal v t m n).bind (trapKind v.d)), (0, if v.fromDest then accTrap v.d (s.destAcc v m n) else none)]).flatten

/-- The partials of a group under split-K (R182): FP32 or 96-bit entries at their array. -/
def View.partialWrites (v : View) (ki : Nat) (rows cols : List Nat) (acc : List (List Acc)) : List MaskedByte :=
  let d := v.d
  let e := partSize v.aFmt v.bFmt
  ((rows.zip acc).map fun ra => ((cols.zip ra.2).map fun ca =>
    let a := mPart d + (ki * (mM d * mN d) + (ra.1 * mN d + ca.1)) * e
    let bs := match ca.2 with
      | .exact x => partialBytes x
      | .ord g t => leBytes 4 (match t with
          | some x => round32 ((val32 x).add (val32 g))
          | none => g)
    bs.zipIdx.map fun b => ({ addr := a + b.2, value := b.1.toNat } : MaskedByte)).flatten).flatten

/-! ### The second product of FMM2 (R183) -/

/-- The E panel's element at K index `k` of column `p`. -/
def State.eVal (s : State) (d : Bytes) (p k : Nat) : Val := s.posVal ⟨mAddr d 0x70 + k * mLd d 0x70, p, mEFmt d⟩

/-- The second product's accumulation for column `p` of one row: `sv` are the S values and `sx` their block scales. The E panel's block scales, for
which a descriptor has no field, are free. -/
def State.secondAcc (s : State) (v : View) (sv : List Val) (sx : List Nat) (p : Nat) : Option Acc :=
  let d := v.d
  let ps := sv.zipIdx.map fun x => some (x.1.mul (s.eVal d p x.2))
  match (pathOf (mSFmt d) (mEFmt d)).getD .ordered with
  | .exact f => (exactSum (ps.map fun q => exactUnits f (q.getD Val.zero)) 0).map .exact
  | .block =>
    let r := (cut 32 ps.length ps).zipIdx.foldl (fun (r : Nat × Option Nat) b =>
      ordStep 0 (32 * b.2) (blockTerm b.1 (sx.getD b.2 0) (Config.panelScale d p b.2).toNat) r.1 r.2) (0, none)
    some (.ord r.1 r.2)
  | .ordered =>
    let r := ps.zipIdx.foldl (fun (r : Nat × Option Nat) b => ordStep 0 b.2 b.1 r.1 r.2) (0, none)
    some (.ord r.1 r.2)

/-- What the loader meets as it writes the rows of E at the K indices `ks` of a panel, row k in cycle `at_ k` (R130, R145). -/
def State.panelLoads (s : State) (d : Bytes) (block : Bool) (panel ks : List Nat) (at_ : Nat → Nat) : List (Nat × Option Nat) :=
  (ks.map fun k => panel.map fun p =>
    [(at_ k, trapKind d (s.eVal d p k)),
     (at_ k, if block && k % 32 == 0 && Config.panelScale d p (k / 32) == 0xFF then trapKind d .nan else none)]).flatten.flatten

/-- The first trap of a panel's passes: the rows of S as the feeder reads them, E's rows as the loader writes them, a set behind the pass before it, the
first set of the panel that follows behind the last, and scales of 0xFF (R130, R141, R145). `ss` holds each row's values and scales; `first` says that no
panel comes before this one. -/
def State.panelTrap (s : State) (v : View) (first : Bool) (panel next : List Nat) (ss : List (List Val × List Nat)) : Nat :=
  let d := v.d
  let wide4 := fmtWidth (mSFmt d) = 4
  let kp := if wide4 then 64 else 32
  let path2 := (pathOf (mSFmt d) (mEFmt d)).getD .ordered
  let span := max (ss.length * passRate (mSFmt d)) (passFloor path2)
  let lane := fun k => k % kp / (if wide4 then 2 else 1)
  let behind := fun (j : Nat) => j * span + 63
  let ks := List.range (mN d)
  let es := s.panelLoads d (path2 == .block) panel (if first then ks.take kp else []) lane
    ++ s.panelLoads d (path2 == .block) panel (ks.drop kp) (fun k => behind (k / kp - 1) + lane k)
    ++ s.panelLoads d (path2 == .block) next (ks.take kp) (fun k => behind (ceilDiv (mN d) kp - 1) + lane k)
  let fs := ss.zipIdx.map fun r => r.1.1.zipIdx.map fun x =>
    let cyc := x.2 / kp * span + 32 + (r.2 + lane x.2) * passRate (mSFmt d)
    [(cyc, trapKind d x.1), (cyc, if x.2 % 32 == 0 && r.1.2.getD (x.2 / 32) 0 == 0xFF then trapKind d .nan else none)]
  firstTrap (es ++ fs.flatten.flatten)

/-- A panel of 32 columns of the second product drains row by row (R183). Column p takes entry p of the table, also at and above N (DESIGN CHOICE,
log entry 147). -/
def State.drainPanel (s : State) (v : View) (t : Stage) (rows : List Nat) (first : Bool) (panel next : List Nat) (ss : List (List Val × List Nat)) : Drained :=
  let d := v.d
  let path2 := (pathOf (mSFmt d) (mEFmt d)).getD .ordered
  let st := s.panelTrap v first panel next ss
  if st ≠ 0 then { status := st }
  else (rows.zip ss).foldl (fun (out : Drained) rs =>
    match panel.mapM fun p => (s.secondAcc v rs.2.1 rs.2.2 p).bind fun a => (accValue path2 a none).map fun x =>
        (x, drainVal x (v.drainFactors t p).1 (v.drainFactors t p).2) with
    | some cells => out.then (v.drainRow t rs.1 panel cells)
    | none => out.then { status := 0x0406 }) {}

/-- A group of FMM2 (R183): the first product in FP32, into the row buffer; the row function; the conversion to S_FMT with its counts; then, panel by
panel, the second product and the drain into D. -/
def State.drainFmm2 (s : State) (v : View) (t : Stage) (rows : List Nat) (acc : List (List Acc)) : Drained :=
  let d := v.d
  let first := acc.map fun r => r.map fun a => ((accValue v.path a none).getD .nan).r32
  let buf := (first.zipIdx.map fun r => (r.1.zipIdx.map fun x =>
    elemWrites ⟨v.item t.base 7 0 + r.2 * mN d * 4, x.2, 8⟩ (2 ^ 20) (round32 x.1)).flatten).flatten
  let conv := first.map fun r => convertRow (mSFmt d) (mRtz d) (mInfOut d) (r.zip (rowfnRow (mRowfn d) (val32 (mEps d)) r))
  let counts := conv.foldl (fun c r => c.add r.2.2.1) ({} : Counts)
  let head : Drained := { staged := buf, counts := counts, status := if conv.any (·.2.2.2) && mTrapInvalid d then 0x0405 else 0 }
  let ss := conv.map fun r => (r.1.map (elemVal (mSFmt d)), r.2.1)
  let panels := cut 32 (mP d) (List.range (mP d))
  panels.zipIdx.foldl (fun out p => out.then (s.drainPanel v t rows (p.2 == 0) p.1 (panels.getD (p.2 + 1) []) ss)) head

/-- XPOS moves codes and converts nothing (R167). -/
def State.drainXpos (s : State) (v : View) (rows cols : List Nat) : Drained :=
  { writes := ((rows.map fun m => cols.map fun n =>
      let p := v.shapePos v.dBase v.dLd (mOutFmt v.d) m n
      elemWrites p.1 p.2 (s.elem v.aFmt (v.aBase + m * v.aLd) n)).flatten).flatten }

/-- A row passes through the drain: what its reads trap, then a sum out of range, then an invalid conversion (R130, R147). The value a ROWFN takes is
rounded to FP32 as every row function's operand is: overflow gives an infinity, and nothing counts (DEDUCED; log entry 119). -/
def State.drainOne (s : State) (v : View) (t : Stage) (m : Nat) (cols : List Nat) (acc : List Acc) : Drained :=
  let st := firstTrap (s.drainTraps v t m cols)
  if st ≠ 0 then { status := st }
  else
    match cols.zipIdx.mapM fun c => (s.drainInput v t (acc[c.2]?.getD v.path.empty) m c.1).map fun x =>
        let fs := v.drainFactors t c.1
        let y := drainVal x fs.1 fs.2
        (x, if mRowfn v.d = 0 then y else rowfn1 (mRowfn v.d) y.r32) with
    | none => { status := 0x0406 }
    | some cells => v.drainRow t m cols cells

/-- A group drains row by row (R147, R183): the writes, the counts, and the first trap or range fault. -/
def State.drainGroup (s : State) (v : View) (t : Stage) (g : Nat) (acc : List (List Acc)) : Drained :=
  let d := v.d
  let rows := groupRows d t.mi g
  let cols := tileCols d t.ni
  if v.partials then { writes := v.partialWrites t.ki rows cols acc }
  else if mOp d = 9 then s.drainXpos v rows cols
  else if mOp d = 3 then s.drainFmm2 v t rows acc
  else rows.zipIdx.foldl (fun out r => out.then (s.drainOne v t r.1 cols ((acc[r.2]?).getD []))) {}

/-! ## What a tile fetches (R94, R171, R173, R194, R199, R206, R207) -/

/-- The rows, columns and K indices of a tile; no K index of a skipped tap (R194). -/
def View.tileRows (v : View) (mi : Nat) : List Nat := (List.range (chunkRows v.d mi).2).map (· + (chunkRows v.d mi).1)
def View.tileKs (v : View) (mi ki : Nat) : List Nat :=
  let k := tileK v.d v.partials ki v.aFmt
  ((List.range (k.2 - k.1)).map (· + k.1)).filter fun k => !kSkipped v.d mi k

/-- The macro multiplies A by B in its present phase. -/
def View.multiplies (v : View) : Bool := (usesArray v.d || mOp v.d == 2) && !v.fromDest

/-- A's elements: where each lies at its source, and where in the buffer at 0. XPOS, which stages nothing, reads each element in place. -/
def View.aEls (v : View) (mi ni ki : Nat) : List (Pos × Pos) :=
  let d := v.d
  let rows := v.tileRows mi
  let cols := tileCols d ni
  if v.multiplies then
    (rows.map fun m => (v.tileKs mi ki).map fun k => (if mOp d = 5 then cols else [cols.headD 0]).filterMap fun n =>
      (v.aPos m n k).map fun p => (p, v.aLoc mi ni ki 0 m n k)).flatten.flatten
  else match mOp d with
  | 7 | 9 => (rows.map fun m => cols.map fun n => ((⟨v.aBase + m * v.aLd, n, v.aFmt⟩ : Pos), v.aLoc mi ni ki 0 m n 0)).flatten
  | 6 => (rows.map fun m => cols.map fun n => (List.range (mKh d * mKw d)).filterMap fun k =>
      (samplePos d m k).map fun yx =>
        ((⟨v.aBase + n * v.aLd + yx.1 * packedBytes (mInW d) (fmtWidth v.aFmt), yx.2, v.aFmt⟩ : Pos), v.poolLoc mi ni 0 n yx.1 yx.2)).flatten.flatten
  | _ => []

/-- B's elements of the given columns. -/
def View.bEls (v : View) (mi ni ki : Nat) (cols : List Nat) : List (Pos × Pos) :=
  let d := v.d
  let m0 := (chunkRows d mi).1
  if v.multiplies then
    ((v.tileKs mi ki).map fun k => cols.filterMap fun n => (v.bPos n k).map fun p => (p, v.bLoc mi ni ki 0 m0 n k)).flatten
  else if mOp d = 7 ∧ mEwOp d ≠ 5 then
    ((if mRowcast d then [m0] else v.tileRows mi).map fun m => (if mColcast d then [cols.headD 0] else cols).map fun n =>
      ((⟨mAddr d 0x18 + (if mRowcast d then 0 else m) * mLd d 0x18, if mColcast d then 0 else n, mBFmt d⟩ : Pos),
       v.bLoc mi ni ki 0 m n 0)).flatten
  else []

/-- C's elements. -/
def View.cEls (v : View) (mi ni : Nat) : List (Pos × Pos) :=
  let d := v.d
  if mHasC d && !v.partials then
    ((v.tileRows mi).map fun m => (tileCols d ni).map fun n =>
      ((v.shapePos (mAddr d 0x20) (mLd d 0x20) (mCFmt d) m n).1, v.cLoc mi ni 0 m n)).flatten
  else []

/-- The A-side scales: source address, and the byte of the buffer where a pass's first block stands. -/
def View.aScales (v : View) (mi ki : Nat) : List (Nat × Option Nat) :=
  if v.multiplies && v.path == .block then
    let p := (v.kPasses mi ki).length
    ((v.tileRows mi).map fun m => (v.tileKs mi ki).filterMap fun k => if k % 32 = 0 then
      (v.aScaleAt m k).map fun a =>
        (a, if (v.passOf mi ki k).2 = k then some ((m - (chunkRows v.d mi).1) * p + (v.passOf mi ki k).1) else none) else none).flatten
  else []

/-- The B-side scales of the given columns. -/
def View.bScales (v : View) (mi ki : Nat) (cols : List Nat) : List (Nat × Option Nat) :=
  if v.multiplies && v.path == .block then
    ((v.tileKs mi ki).map fun k => if k % 32 = 0 then cols.map fun n =>
      (v.bScaleAt n k, if (v.passOf mi ki k).2 = k then some ((v.passOf mi ki k).1 * 32 + (n - cols.headD 0)) else none) else []).flatten
  else []

/-- The table entries of the tile's output columns, for FMM2 those of D's P columns (DESIGN CHOICE, log entry 147). -/
def View.tableEntries (v : View) (ni : Nat) : List (Nat × Nat) :=
  if mTable v.d = 0 ∨ v.partials then []
  else (if mOp v.d = 3 then List.range (mP v.d) else tileCols v.d ni).map fun n => (mTable v.d + 8 * n, 8)

/-- The sums a drain tile reads at DEST (R182). -/
def View.destReads (v : View) (mi ni : Nat) : List (Nat × Nat) :=
  let d := v.d
  let e := partSize v.aFmt v.bFmt
  if v.fromDest then
    ((v.tileRows mi).map fun m => (tileCols d ni).map fun n => (mPart d + (mKs d v.aFmt * (mM d * mN d) + (m * mN d + n)) * e, e)).flatten
  else []

/-- The elements of an E panel. -/
def ePanel (d : Bytes) (panel : List Nat) : List (Pos × Pos) :=
  let w := if fmtWidth (mEFmt d) = 16 then 64 else 32
  ((List.range (mN d)).map fun k => panel.map fun p =>
    ((⟨mAddr d 0x70 + k * mLd d 0x70, p, mEFmt d⟩ : Pos),
     if fmtWidth (mEFmt d) = 4 then (⟨k / 2 * w, 2 * (p % 32) + k % 2, mEFmt d⟩ : Pos) else ⟨k * w, p % 32, mEFmt d⟩)).flatten

/-! ## Masked writes land (R147) -/

/-- The whole bytes a list of masked bytes makes, in address order, each half merged over what its target holds. -/
def State.mergeMasked (s : State) (ws : List MaskedByte) : List (Nat × Nat) :=
  ws.foldl (fun acc w =>
    let old := (aGet acc w.addr).getD (leNat (s.peek w.addr 1))
    aSet acc w.addr (match w.half with
      | 0 => old / 16 * 16 + w.value
      | 1 => old % 16 + 16 * w.value
      | _ => w.value)) []

/-- Bytes in address order cut into runs of consecutive addresses. -/
def byteRuns : List (Nat × Nat) → List (Nat × Bytes)
  | [] => []
  | (a, b) :: l =>
    match byteRuns l with
    | (a2, bs) :: rest => if a2 = a + 1 then (a, BitVec.ofNat 8 b :: bs) :: rest else (a, [BitVec.ofNat 8 b]) :: (a2, bs) :: rest
    | [] => [(a, [BitVec.ofNat 8 b])]

end Sys2Proof.Machine
end

