-- ==== Sys2Proof/Machine/SpireOps.lean ====
section
/-! DEFINITION. What a running Spire macro node holds and how Belfry reads it: its macros, its lanes, the prefix of its tiles, its
macro records and the TYPE_DATA of its node record (chapters 05, 06 and 08). -/
namespace Sys2Proof.Machine
open Sys2Proof

/-! ## Access -/

/-- The cores of a type 0x4 context's unit set (R35). -/
def Ctx.cores (c : Ctx) : List Nat := unitsWhere 128 fun k => bit c.unitMask k

/-- A core changed. -/
def State.modSpc (s : State) (core : Nat) (f : Spc → Spc) : State := { s with spc := s.spc.mod core f }

/-- A lane of a core changed. -/
def State.modLane (s : State) (core q : Nat) (f : Lane → Lane) : State :=
  s.modSpc core fun x => { x with lanes := x.lanes.mod q f }

/-- A lane of a core. -/
def State.lane (s : State) (core q : Nat) : Lane := (s.spc.at core).lanes.at q

/-- Macro `k` of the node in context `i`, once it has started. -/
def State.macro? (s : State) (i k : Nat) : Option MacroRun := (aGet s.spire i).bind fun n => aGet n.macros k

/-- A macro changed. -/
def State.modMacro (s : State) (i k : Nat) (f : MacroRun → MacroRun) : State :=
  { s with spire := aMod s.spire i fun n => { n with macros := aMod n.macros k f } }

/-- The descriptor of macro `k` as the work list holds it (R164). -/
def State.macroDesc (s : State) (c : Ctx) (k : Nat) : Bytes := s.peek (c.workAddr + 128 * k) 128

/-- The work counter a macro uses: WCTR in the range of the node's copy (R178). -/
def State.macroCounter (s : State) (c : Ctx) (d : Bytes) : Option Nat :=
  (aGet s.bf.graphs c.graph).bind fun g => g.counters[c.copy * g.image.counters + mWctr d]?

/-- How a macro is being run. -/
def MacroRun.view (m : MacroRun) : View :=
  { d := m.desc, wide := m.wideIn, rerun := m.rerun
    partials := mSplitk m.desc && m.phase == .tiles, fromDest := m.phase == .drain }

/-- Tiles of the macro's present phase (R173, R182). -/
def MacroRun.total (m : MacroRun) : Nat := mTiles m.desc m.view.aFmt (m.phase == .tiles)

/-- The macro's tiles are being run. -/
def MacroRun.tilesRun (m : MacroRun) : Bool := m.phase == .tiles || m.phase == .drain

/-- The running Spire node that a core serves, if one does. -/
def State.nodeOfCore (s : State) (core : Nat) : Option (Nat × Ctx) :=
  s.bf.ctxs.find? fun p => p.2.type == 4 && (p.2.state == .running || p.2.draining) && bit p.2.unitMask core

/-- A core may take tiles: in service, not in self-test and with no spare switch due, its Steeple not paused (R152, R154, R178, R486). -/
def State.coreReady (s : State) (core : Nat) : Bool :=
  !s.coreOut core && !(s.spc.at core).selftest && (s.spc.at core).rowDue.isNone && !(s.power.steeples.at (core / 16)).paused

/-! ## Lanes -/

/-- The first three tiles a lane has claimed and not completed, in the order it runs them: macro, tile and whether it is redone. -/
def Lane.order (l : Lane) : List (Nat × Nat × Bool) :=
  ((l.runs.map fun r => (List.range (min 3 (r.last - r.first))).map fun j => (r.macroIx, r.first + j, r.redo)).flatten).take 3

/-- Tiles in progress. -/
def Lane.busy (l : Lane) : Nat := b2n l.tile.isSome + l.prevs.length

/-- Claimed tiles that lie ahead of those in progress. -/
def Lane.ahead (l : Lane) : Nat := (l.runs.map fun r => r.last - r.first).sum - l.busy

/-- The staging of a tile, once it is fetched. -/
def Lane.stagedAt (l : Lane) (k tile : Nat) : Option Staged := l.staged.find? fun g => g.macroIx == k && g.tile == tile

/-- A tile in progress changed. -/
def Lane.put (l : Lane) (tp : TileProg) : Lane :=
  let is := fun (x : TileProg) => x.macroIx == tp.macroIx && x.tile == tp.tile
  if l.prevs.any is then { l with prevs := l.prevs.map fun x => if is x then tp else x } else { l with tile := some tp }

/-- The oldest claimed tile is done with: its run gives it up, and its staging is free (R94, R179). -/
def Lane.retire (l : Lane) (tp : TileProg) : Lane :=
  { l with
    tile := if l.prevs.isEmpty then none else l.tile
    prevs := l.prevs.drop 1
    staged := l.staged.filter fun g => !(g.macroIx == tp.macroIx && g.tile == tp.tile)
    runs := match l.runs with
      | r :: rest => if r.first + 1 < r.last then { r with first := r.first + 1 } :: rest else rest
      | [] => [] }

/-- Where a tile's operands stand staged in a core's local memory; the four quadrants' areas follow one another (R174),
each counted by its own descriptor's size (DESIGN CHOICE, log entry 148). -/
def MacroRun.stageOf (m : MacroRun) (core q : Nat) (g : Staged) : Stage :=
  let v := m.view
  let tc := tileCoords m.desc v.aFmt (m.phase == .tiles) g.tile
  { base := localBase core + mStageOff m.desc + (if mQmode m.desc then q else 0) * itemBytes v.items
    mi := tc.1, ni := tc.2.1, ki := tc.2.2, a := g.a, b := g.b, c := g.c, side := g.side
    own := regionOf v.dBase == .spire core }

/-! ## Hooks of the node's life -/

/-- A dispatched Spire node holds no started macro yet. -/
def State.startSpire (s : State) (i : Nat) : State := { s with spire := aSet s.spire i {} }

/-- Every macro is complete and no core is in quadrant mode (R45, R165, R184). -/
def State.spireDone (s : State) (i : Nat) (c : Ctx) : Bool :=
  ((List.range c.workCount).all fun k => match s.macro? i k with
    | some m => m.phase == .complete
    | none => false) && c.cores.all fun core => !(s.spc.at core).quadMode

/-- Tiles a macro holds, T of R173; the drain tiles of a split-K macro are its tiles claimed again (R182). -/
def MacroRun.allTiles (m : MacroRun) : Nat := mTiles m.desc m.view.aFmt true

/-- Tiles completed as a prefix in tile-number order, of the first run. -/
def MacroRun.prefix (m : MacroRun) : Nat :=
  if m.rerun.isSome ∨ m.phase ≠ .tiles then m.allTiles
  else ((List.range m.total).takeWhile fun t => m.done.contains t).length

/-- The longest prefix of completed tiles over the work list (R187). -/
def State.spirePrefix (s : State) (i : Nat) (c : Ctx) : Nat :=
  ((List.range c.workCount).foldl (fun (acc : Nat × Bool) k =>
    if acc.2 then acc
    else match s.macro? i k with
      | some m => (acc.1 + m.prefix, m.prefix != m.allTiles)
      | none => (acc.1, true)) (0, false)).1

/-- LAST_TILE of a Spire node (R187). -/
def State.spireLast (s : State) (i : Nat) (c : Ctx) : Nat :=
  let n := s.spirePrefix i c
  if n = 0 then 0xFFFFFFFF else n - 1

/-- STALL of a macro: the longest over its cores (R186). -/
def MacroRun.stallNs (m : MacroRun) : Nat := (m.stall.map (·.2)).foldl max 0

/-- VERDICT of R223. -/
def MacroRun.verdictByte (m : MacroRun) : Nat :=
  b2n m.overs + 2 * b2n m.under + 4 * b2n (m.rerunDone && m.phase == .complete) + 8 * b2n m.over2 + 16 * b2n m.under2
    + 32 * b2n (mQpolicy m.desc == 2 && mAddr m.desc 0x30 == 0) + 64 * b2n m.wideIn.isSome

/-- The 32-byte macro record (R187, R223). `st` is the state the node ends in, `status` its status.
WIDE shows the rerun's WSHIFT where the macro also took a wide input (DESIGN CHOICE, log entry 151). -/
def MacroRun.record (m : MacroRun) (st : NodeState) (status : Nat) : Bytes :=
  let fin := m.phase == .complete
  let run := match m.tFirst with
    | some t => m.tLast - t
    | none => 0
  leBytes 2 (if fin then 0 else if m.status ≠ 0 then m.status else status)
    ++ leBytes 1 (if fin then NodeState.code .done else st.code)
    ++ leBytes 1 (b2n (mWstream m.desc) + 2 * b2n (m.redoTiles != 0) + 4 * b2n (mQmode m.desc) + 8 * b2n (mSplitk m.desc))
    ++ leBytes 4 (min m.tilesDone (2 ^ 32 - 1)) ++ leBytes 4 (min run (2 ^ 32 - 1))
    ++ leBytes 4 (min m.stallNs (2 ^ 32 - 1))
    ++ leBytes 4 (min m.counts.sat (2 ^ 32 - 1)) ++ leBytes 4 (min m.counts.small (2 ^ 32 - 1))
    ++ leBytes 4 (min m.counts.nonzero (2 ^ 32 - 1)) ++ leBytes 2 (min m.counts.invalid 0xFFFF)
    ++ leBytes 1 m.verdictByte ++ leBytes 1 (match m.rerun, m.wideIn with
      | some w, _ => w
      | none, some w => w
      | none, none => 0)

/-- A macro is flagged: a verdict under FLAG or RERUN_WIDE (R213, R224). -/
def MacroRun.flagged (m : MacroRun) : Bool := (mQpolicy m.desc == 1 || mQpolicy m.desc == 2) && (m.overs || m.under)

/-- TYPE_DATA of a Spire node's record, with QSUMMARY (R187, R224). -/
def SpireNode.typeData (n : SpireNode) : Bytes :=
  let ms := n.macros
  let sum := fun (f : MacroRun → Nat) => min ((ms.map fun p => f p.2).sum) (2 ^ 32 - 1)
  let fl := ms.filter fun p => p.2.flagged
  leBytes 4 (ms.filter fun p => p.2.phase == .complete).length ++ leBytes 4 (sum (·.redoTiles)) ++ leBytes 4 (sum MacroRun.stallNs)
    ++ zeros 4 ++ leBytes 2 (min fl.length 0xFFFF)
    ++ leBytes 2 (min (ms.filter fun p => p.2.rerun.isSome).length 0xFFFF)
    ++ leBytes 2 (match fl.head? with
      | some p => p.1
      | none => 0xFFFF)
    ++ zeros 2 ++ leBytes 4 (sum (·.rerunNs)) ++ leBytes 4 (sum (·.counts.sat))

/-- The macro records, written before the node record; the TYPE_DATA; and, on a completion that holds a flagged macro, the graph's
interrupt (R187, R213). A macro that did not run has a record of zeros. -/
def State.spireClose (s : State) (i : Nat) (c : Ctx) (st : NodeState) (status : Nat) : State :=
  match aGet s.spire i with
  | none => s
  | some n =>
    let s1 := (List.range c.workCount).foldl (fun s k =>
      s.record initBelfry (c.complAddr + 64 + 32 * k) (match aGet n.macros k with
        | some m => m.record st status
        | none => zeros 32)) s
    let s2 := s1.modCtx i fun c => { c with typeData := n.typeData, redone := n.macros.any fun p => p.2.redoTiles != 0 }
    if st == .done && n.macros.any (·.2.flagged) then s2.raise (34 + c.graph % 16) else s2

/-- The Spire work of a node that ends is dropped: claimed runs, tiles in progress and groups not yet written (R61, R188). Its cores
leave quadrant mode; the last status stands in SPC_STATUS. -/
def State.spireDrop (s : State) (i : Nat) (c : Ctx) (status : Nat) : State :=
  match aGet s.spire i with
  | none => s
  | some _ =>
    c.cores.foldl (fun s core => s.modSpc core fun x =>
      { x with lanes := Vector.replicate 5 {}, quadMode := false, lastStatus := status, fenced := [] })
      { s with spire := aErase s.spire i, mem := { s.mem with jobs := s.mem.jobs.filter fun p => p.2.ctx != i } }

end Sys2Proof.Machine
end

