-- ==== Sys2Proof/Machine/RfeMath.lean ====
section
/-! DEFINITION. The pixel functions of a raw front-end (chapter 10): the fixed raw stages, the classical denoise and demosaic, the
colour matrix, the taps' curves, matrix, scaler and formats, and the statistics. Pixel values are integers in units of 2^-16
up to stage 8 and 16-bit codes after it (R260). -/
namespace Sys2Proof.Machine
open Sys2Proof

/-! ## Rounding (R260) -/

/-- n / d rounded to nearest with ties to even, for a positive d. -/
def rneDiv (n : Int) (d : Nat) : Int :=
  let q := n / (d : Int)
  let r := n % (d : Int)
  if 2 * r < d then q else if (d : Int) < 2 * r then q + 1 else if q % 2 = 0 then q else q + 1

/-- Saturation to the 20-bit grid of R260. -/
def sat20 (v : Int) : Int := clampInt (-524288) 524287 v

/-- n / d rounded once and saturated to the grid. -/
def grid (n : Int) (d : Nat) : Int := sat20 (rneDiv n d)

/-- A position reflected about the edge sample into `[0, n)`; one reflection suffices for the reach of these stages. -/
def mirror (n : Nat) (i : Int) : Nat :=
  let j := if i < 0 then -i else i
  (if (n : Int) - 1 < j then 2 * ((n : Int) - 1) - j else j).toNat

/-- A position clamped to `[0, n)`. -/
def edge (n : Nat) (i : Int) : Nat := (clampInt 0 ((n : Int) - 1) i).toNat

/-! ## A frame and its parameter set (R262, R275, R291) -/

/-- What the raw stages of a frame work on: its shape, sensor depth and CFA, the lines read, the static defects (column, row), and
the live parameter set as R275 lays it out. -/
structure RawFrame where
  w : Nat := 0
  h : Nat := 0
  depth : Nat := 12
  cfa : Nat := 0
  rows : List (List Nat) := []
  defects : List (Nat × Nat) := []
  pset : Bytes := []
  deriving DecidableEq, Repr, Inhabited

/-- A signed 16-bit field of a parameter set. -/
def fldS16 (b : Bytes) (off : Nat) : Int := toSigned 16 (fld b off 2)

/-- The CFA position of a pixel, 0 to 3 in raster order of its quad. -/
def cfaPos (x y : Nat) : Nat := y % 2 * 2 + x % 2

/-- The colour at a CFA position: 0 red, 1 green, 2 blue; a monochrome camera has one colour. -/
def cfaColour (cfa c : Nat) : Nat :=
  match cfa, c with
  | 0, 0 | 1, 1 | 2, 2 | 3, 3 => 0
  | 0, 3 | 1, 2 | 2, 1 | 3, 0 => 2
  | _, _ => 1

def RawFrame.mono (f : RawFrame) : Bool := f.cfa == 4
def RawFrame.colour (f : RawFrame) (x y : Nat) : Nat := if f.mono then 1 else cfaColour f.cfa (cfaPos x y)

/-- Distance between same-colour samples along an axis. -/
def RawFrame.pitch (f : RawFrame) : Int := if f.mono then 1 else 2

/-- The value of R291's default curve at node n: 65,536 x the node's input, at most 65,535. -/
def curveDefault (n : Nat) : Nat :=
  if n < 64 then n
  else min 65535 ((64 + n % 64) * 2 ^ (n / 64 - 1))

/-- A tap block of the defaults: straight curves and the identity matrix (R291). -/
def tapDefault : Bytes :=
  let curve := ((List.range 833).map fun n => leBytes 2 (curveDefault n)).flatten
  curve ++ curve ++ curve ++ zeros 2
    ++ ((List.range 9).map fun k => leBytes 2 (if k % 4 = 0 then 8192 else 0)).flatten ++ zeros 6 ++ zeros 32

/-- The live set at reset for a frame of w x h (R291). -/
def psetDefault (w h : Nat) : Bytes :=
  leBytes 2 0x3F ++ zeros 62 ++ zeros 8 ++ (List.replicate 4 (leBytes 2 4096)).flatten ++ leBytes 2 0 ++ leBytes 2 0x0100
    ++ List.replicate 4 0xFF ++ List.replicate 32 0xFF ++ leBytes 2 0 ++ (leBytes 2 0 ++ leBytes 2 0 ++ leBytes 2 w ++ leBytes 2 h)
    ++ zeros 30 ++ ((List.range 9).map fun k => leBytes 2 (if k % 4 = 0 then 4096 else 0)).flatten ++ zeros 2 ++ zeros 12
    ++ zeros 64 ++ (List.replicate 4356 (leBytes 2 16384)).flatten ++ zeros 56 ++ tapDefault ++ tapDefault ++ tapDefault

/-- A set switched in over the one that is live: a section whose VALID bit is clear keeps its live values (R275). -/
def psetMerge (live new : Bytes) : Bytes :=
  let v := fld new 0 2
  let pick := fun (i off n : Nat) => if bit v i then sub new off n else sub live off n
  sub new 0 0x40 ++ pick 0 0x40 0x60 ++ pick 1 0xA0 0x60 ++ pick 2 0x100 0x2240 ++ pick 3 0x2340 0x13C0
    ++ pick 4 0x3700 0x13C0 ++ pick 5 0x4AC0 0x13C0

/-- A set is invalid (R277): a reserved field set, SIGMA, SW[0] or RW[0] zero, or a statistics window that is
odd-valued or outside the frame. -/
def psetBad (w h : Nat) (b : Bytes) : Bool :=
  let x := fld b 0x7A 2
  let y := fld b 0x7C 2
  let ww := fld b 0x7E 2
  let hh := fld b 0x80 2
  bits (fld b 0 2) 6 10 != 0 || !allZero (sub b 4 60) || !allZero (sub b 0x82 30) || !allZero (sub b 0xB2 2)
    || !allZero (sub b 0xC0 64) || !allZero (sub b 0x2308 56)
    || [0x2340, 0x3700, 0x4AC0].any (fun o => !allZero (sub b (o + 0x1386) 2) || !allZero (sub b (o + 0x13A0) 32))
    || fld b 0x52 2 == 0 || fld b 0x54 1 == 0 || fld b 0x58 1 == 0
    || x % 2 != 0 || y % 2 != 0 || ww % 2 != 0 || hh % 2 != 0 || w < x + ww || h < y + hh

/-! ## Stages 1 to 5 (R262 to R265) -/

/-- Stage 1: the code aligned (R262). -/
def RawFrame.s1 (f : RawFrame) (x y : Nat) : Int :=
  (((f.rows.getD y []).getD x 0) * 2 ^ (16 - f.depth) : Nat)

/-- Stage 2: the black level of the CFA position taken away. -/
def RawFrame.s2 (f : RawFrame) (x y : Nat) : Int :=
  sat20 (f.s1 x y - fld f.pset (0x40 + 2 * (cfaPos x y)) 2)

/-- The stage-2 values at offsets that lie inside the frame. -/
def RawFrame.near (f : RawFrame) (x y : Nat) (offs : List (Int × Int)) : List Int :=
  offs.filterMap fun o =>
    let a := (x : Int) + o.1 * f.pitch
    let b := (y : Int) + o.2 * f.pitch
    if 0 ≤ a ∧ a < f.w ∧ 0 ≤ b ∧ b < f.h then some (f.s2 a.toNat b.toNat) else none

/-- A list of values in ascending order. -/
def sortInts (l : List Int) : List Int := l.foldl (fun s v => s.takeWhile (· ≤ v) ++ [v] ++ s.dropWhile (· ≤ v)) []

/-- The median; of an even count, the mean of the two middle values rounded once. -/
def median (l : List Int) : Int :=
  let s := sortInts l
  let n := s.length
  if n = 0 then 0
  else if n % 2 = 1 then s.getD (n / 2) 0
  else rneDiv (s.getD (n / 2 - 1) 0 + s.getD (n / 2) 0) 2

def crossOffs : List (Int × Int) := [(-1, 0), (1, 0), (0, -1), (0, 1)]
def diagOffs : List (Int × Int) := [(-1, -1), (-1, 1), (1, -1), (1, 1)]

/-- A pixel is a dynamic defect (R263). -/
def RawFrame.dynDefect (f : RawFrame) (x y : Nat) : Bool :=
  let th : Int := fld f.pset 0x50 2
  let ns := f.near x y (crossOffs ++ diagOffs)
  let v := f.s2 x y
  match ns with
  | [] => false
  | n :: rest => th ≠ 0 && (decide (rest.foldl max n + th < v) || decide (v < rest.foldl min n - th))

/-- Stage 3: defects take the median of their same-colour neighbours (R263). -/
def RawFrame.s3 (f : RawFrame) (x y : Nat) : Int :=
  if f.defects.contains (x, y) || f.dynDefect x y then sat20 (median (f.near x y crossOffs)) else f.s2 x y

/-- Stage 4: lens shading (R264). -/
def RawFrame.s4 (f : RawFrame) (x y : Nat) : Int :=
  let dw := f.w - 1
  let dh := f.h - 1
  let j := min (x * 32 / dw) 31
  let k := min (y * 32 / dh) 31
  let c := cfaPos x y
  let g := fun (a b : Nat) => fld f.pset (0x100 + ((c * 33 + a) * 33 + b) * 2) 2
  let fx := x * 32 - j * dw
  let fy := y * 32 - k * dh
  let num := (dh - fy) * ((dw - fx) * g k j + fx * g k (j + 1)) + fy * ((dw - fx) * g (k + 1) j + fx * g (k + 1) (j + 1))
  grid (f.s3 x y * num) (dw * dh * 2 ^ 14)

/-- Stage 5: white balance (R265). -/
def RawFrame.s5 (f : RawFrame) (x y : Nat) : Int :=
  grid (f.s4 x y * fld f.pset (0x48 + 2 * cfaPos x y) 2) (2 ^ 12)

/-! ## The classical path (R266, R267) -/

/-- The offset class of R266. -/
def offClass (mono : Bool) (dx dy : Int) : Nat :=
  let a := dx.natAbs
  let b := dy.natAbs
  if a = 0 ∧ b = 0 then 0
  else if mono then
    (if a = 1 ∧ b = 1 then 1 else if (a = 2 ∧ b = 0) ∨ (a = 0 ∧ b = 2) then 2 else if max a b = 1 then 1 else 3)
  else if a = 1 ∧ b = 1 then 1
  else if a = 2 ∧ b = 2 then 3
  else 2

/-- The classical denoise (R266). -/
def RawFrame.denoise (f : RawFrame) (x y : Nat) : Int :=
  let centre := f.s5 x y
  let sigma := fld f.pset 0x52 2
  let offs : List (Int × Int) := (List.range 5).flatMap fun (i : Nat) => (List.range 5).map fun (j : Nat) => ((j : Int) - 2, (i : Int) - 2)
  let r := offs.foldl (fun (acc : Int × Nat) o =>
    let a := (x : Int) + o.1
    let b := (y : Int) + o.2
    if 0 ≤ a ∧ a < f.w ∧ 0 ≤ b ∧ b < f.h ∧ f.colour a.toNat b.toNat = f.colour x y then
      let v := f.s5 a.toNat b.toNat
      let i := min 31 ((v - centre).natAbs / max sigma 1)
      let wt := fld f.pset (0x54 + offClass f.mono o.1 o.2) 1 * fld f.pset (0x58 + i) 1
      (acc.1 + wt * v, acc.2 + wt)
    else acc) (0, 0)
  grid r.1 (max r.2 1)

/-- The denoised value at a position reflected into the frame. -/
def RawFrame.dn (f : RawFrame) (x y : Int) : Int := f.denoise (mirror f.w x) (mirror f.h y)

/-- Green at a site (R267). -/
def RawFrame.green (f : RawFrame) (x y : Nat) : Int :=
  if f.colour x y = 1 then f.denoise x y
  else
    let a : Int := x
    let b : Int := y
    let dh := 2 * f.dn a b - f.dn (a - 2) b - f.dn (a + 2) b
    let dv := 2 * f.dn a b - f.dn a (b - 2) - f.dn a (b + 2)
    let gh := (f.dn (a - 1) b - f.dn (a + 1) b).natAbs + dh.natAbs
    let gv := (f.dn a (b - 1) - f.dn a (b + 1)).natAbs + dv.natAbs
    let eh := 2 * (f.dn (a - 1) b + f.dn (a + 1) b) + dh     -- in quarters
    let ev := 2 * (f.dn a (b - 1) + f.dn a (b + 1)) + dv
    if gh < gv then grid eh 4 else if gv < gh then grid ev 4 else grid (eh + ev) 8

/-- The colour difference X - green at a site reflected into the frame. -/
def RawFrame.diff (f : RawFrame) (x y : Int) : Int :=
  let a := mirror f.w x
  let b := mirror f.h y
  f.denoise a b - f.green a b

/-- Red (0) or blue (2) at a site: its own value, or the bilinear mean of the colour difference at the nearest sites plus its own
green (R267). -/
def RawFrame.redBlue (f : RawFrame) (col x y : Nat) : Int :=
  let a : Int := x
  let b : Int := y
  if f.colour x y = col then f.denoise x y
  else if f.colour x y = 1 then
    if f.colour (mirror f.w (a + 1)) y = col then grid (f.diff (a - 1) b + f.diff (a + 1) b + 2 * f.green x y) 2
    else grid (f.diff a (b - 1) + f.diff a (b + 1) + 2 * f.green x y) 2
  else grid (f.diff (a - 1) (b - 1) + f.diff (a + 1) (b - 1) + f.diff (a - 1) (b + 1) + f.diff (a + 1) (b + 1)
    + 4 * f.green x y) 4

/-- Stage 6 by the classical path: R, G, B; a monochrome camera has its one value in each. -/
def RawFrame.classical (f : RawFrame) (x y : Nat) : Int × Int × Int :=
  if f.mono then let v := f.denoise x y; (v, v, v)
  else (f.redBlue 0 x y, f.green x y, f.redBlue 2 x y)

/-! ## Stage 7 (R271) -/

/-- The colour matrix; a monochrome camera skips it (R259). -/
def RawFrame.matrix (f : RawFrame) (v : Int × Int × Int) : Int × Int × Int :=
  if f.mono then v
  else
    let row := fun (r : Nat) =>
      let m := fun (k : Nat) => fldS16 f.pset (0xA0 + 2 * (3 * r + k))
      grid (m 0 * v.1 + m 1 * v.2.1 + m 2 * v.2.2 + toSigned 32 (fld f.pset (0xB4 + 4 * r) 4) * 4096) 4096
    (row 0, row 1, row 2)

/-! ## The taps (R272 to R274, R279, R280) -/

/-- A tap descriptor's fields. -/
def tapEnable (d : Bytes) : Bool := bit (fld d 0 1) 0
def tapAfter5 (d : Bytes) : Bool := bit (fld d 0 1) 1
def tapFormat (d : Bytes) : Nat := fld d 1 1
def tapDest (d : Bytes) : Nat := bits (fld d 2 1) 0 2
def tapEgress (d : Bytes) : Nat := bits (fld d 2 1) 2 1
def tapVc (d : Bytes) : Nat := bits (fld d 2 1) 3 2
def tapComp (d : Bytes) : Nat := bits (fld d 2 1) 5 3
def tapGroup (d : Bytes) : Nat := fld d 3 1
def tapCropX (d : Bytes) : Nat := fld d 4 2
def tapCropY (d : Bytes) : Nat := fld d 6 2
def tapCropW (d : Bytes) : Nat := fld d 8 2 + 1
def tapCropH (d : Bytes) : Nat := fld d 0x0A 2 + 1
def tapOutW (d : Bytes) : Nat := fld d 0x0C 2 + 1
def tapOutH (d : Bytes) : Nat := fld d 0x0E 2 + 1
def tapBase (d : Bytes) : Nat := bits (fld d 0x10 8) 0 40
def tapBufBytes (d : Bytes) : Nat := fld d 0x18 4
def tapBufs (d : Bytes) : Nat := fld d 0x1C 1 + 1
def tapPitch (d : Bytes) : Nat := fld d 0x20 4
def tapPlane (d : Bytes) : Nat := fld d 0x24 4
def tapScaler (d : Bytes) : Nat := bits (fld d 0x28 8) 0 40

/-- A channel through a curve of 833 nodes (R272). -/
def curveAt (curve : Bytes) (v : Int) : Nat :=
  let x := (clampInt 0 262143 v).toNat
  let t := fun (i : Nat) => (fld curve (2 * i) 2 : Int)
  if x < 64 then (t x).toNat
  else
    let l := Nat.log2 x
    let step := 2 ^ (l - 6)
    let i := 64 * (l - 5) + (x - 2 ^ l) / step
    let fr := (x - 2 ^ l) % step
    (rneDiv (t i * step + fr * (t (i + 1) - t i)) step).toNat

/-- The tap block of taps 0 to 2 in a parameter set. -/
def RawFrame.block (f : RawFrame) (tap : Nat) : Bytes := sub f.pset (0x2340 + 0x13C0 * tap) 0x13C0

/-- A format of RGB, whose output matrix is the identity (R273). -/
def rgbFormat (fmt : Nat) : Bool := fmt == 1 || fmt == 2 || fmt == 0x11 || fmt == 0x13

/-- Stages 9 and 10 on one pixel: three 16-bit codes. -/
def toneCodes (fmt : Nat) (blk : Bytes) (v : Int × Int × Int) : List Nat :=
  let y0 := (curveAt (sub blk 0 1666) v.1 : Int)
  let y1 := (curveAt (sub blk 0x682 1666) v.2.1 : Int)
  let y2 := (curveAt (sub blk 0xD04 1666) v.2.2 : Int)
  (List.range 3).map fun r =>
    let m := fun (k : Nat) => if rgbFormat fmt then (if k = r then 8192 else 0) else fldS16 blk (0x1388 + 2 * (3 * r + k))
    (clampInt 0 65535 (rneDiv (m 0 * y0 + m 1 * y1 + m 2 * y2 + fldS16 blk (0x139A + 2 * r) * 8192) 8192)).toNat

/-- A signed 12-bit coefficient of the scaler's table, in the low bits of a 16-bit container. -/
def scalerCoef (table : Bytes) (phase k : Nat) : Int := toSigned 12 (fld table (2 * (6 * phase + k)) 2)

/-- One output sample of one axis (R274): `src` gives the samples, `n` of them, for an output of `m`. -/
def scaleAxis (table : Bytes) (n m : Nat) (src : Nat → Nat) (o : Nat) : Nat :=
  if n = m then src o
  else
    let num : Int := (2 * (o : Int) + 1) * n - m          -- s = num / (2m)
    let base := num / (2 * m : Nat)
    let phase := ((num - base * (2 * m : Nat)) * 64 / (2 * m : Nat)).toNat
    let sum := (List.range 6).foldl (fun (acc : Int) k => acc + scalerCoef table phase k * src (edge n (base - 2 + k))) 0
    (clampInt 0 65535 (rneDiv sum 1024)).toNat

/-- The three channels of a tap's output pixel after stage 11. `px` is stage 7 over the frame. -/
def tapPixel (d table : Bytes) (blk : Bytes) (px : Nat → Nat → Int × Int × Int) (x y : Nat) : List Nat :=
  let tone := fun (cx cy : Nat) => toneCodes (tapFormat d) blk (px (tapCropX d + cx) (tapCropY d + cy))
  (List.range 3).map fun ch =>
    scaleAxis table (tapCropH d) (tapOutH d) (fun cy =>
      scaleAxis table (tapCropW d) (tapOutW d) (fun cx => (tone cx cy).getD ch 0) x) y

/-- Stage 13: an n-bit code (R273). -/
def toBits (n y : Nat) : Nat := min (rneDiv y (2 ^ (16 - n))).toNat (2 ^ n - 1)

/-- The mean of codes, rounded once (stage 12). -/
def meanCodes (l : List Nat) : Nat := (rneDiv (l.foldl (· + ·) 0 : Nat) (max l.length 1)).toNat

/-- FP16 of a code: y / 65,535 rounded once (R273): the quotient to 40 bits with a sticky bit below. -/
def toFP16 (y : Nat) : Nat :=
  let q := y * 2 ^ 40 / 65535
  let st := if y * 2 ^ 40 % 65535 = 0 then 0 else 1
  (fmtFP16.convert false (.fin false (2 * q + st) (-41))).1

/-- A sample as stored: 8 bits, or 10 bits in [15:6] of a 16-bit container. -/
def sampleBytes (ten : Bool) (y : Nat) : Bytes := if ten then leBytes 2 (toBits 10 y * 64) else leBytes 1 (toBits 8 y)

/-- The lines a processed tap writes for output line `y`: plane number, line of the plane, and bytes (R280). `px` gives the three
codes of an output pixel. -/
def tapLine (fmt w y : Nat) (px : Nat → Nat → List Nat) : List (Nat × Nat × Bytes) :=
  let c := fun (x yy ch : Nat) => (px x yy).getD ch 0
  let xs := List.range w
  let half := List.range (w / 2)
  match fmt with
  | 1 => [(0, y, (xs.map fun x => leBytes 4 (toBits 10 (c x y 0) * 2 ^ 20 + toBits 10 (c x y 1) * 2 ^ 10 + toBits 10 (c x y 2))).flatten)]
  | 2 => [(0, y, (xs.map fun x => ((List.range 3).map fun ch => leBytes 1 (toBits 8 (c x y ch))).flatten).flatten)]
  | 3 | 4 =>
    let t := fmt == 4
    [(0, y, (half.map fun i =>
      sampleBytes t (meanCodes [c (2 * i) y 1, c (2 * i + 1) y 1]) ++ sampleBytes t (c (2 * i) y 0)
        ++ sampleBytes t (meanCodes [c (2 * i) y 2, c (2 * i + 1) y 2]) ++ sampleBytes t (c (2 * i + 1) y 0)).flatten)]
  | 5 | 6 =>
    let t := fmt == 6
    let m := fun (i ch : Nat) => meanCodes [c (2 * i) y ch, c (2 * i + 1) y ch, c (2 * i) (y + 1) ch, c (2 * i + 1) (y + 1) ch]
    (0, y, (xs.map fun x => sampleBytes t (c x y 0)).flatten)
      :: (if y % 2 = 0 then [(1, y / 2, (half.map fun i => sampleBytes t (m i 1) ++ sampleBytes t (m i 2)).flatten)] else [])
  | 0x10 => [(0, y, (xs.map fun x => leBytes 1 (toBits 8 (c x y 0))).flatten)]
  | 0x11 => (List.range 3).map fun ch => (ch, y, (xs.map fun x => leBytes 1 (toBits 8 (c x y ch))).flatten)
  | 0x12 => [(0, y, (xs.map fun x => leBytes 2 (toFP16 (c x y 0))).flatten)]
  | 0x13 => (List.range 3).map fun ch => (ch, y, (xs.map fun x => leBytes 2 (toFP16 (c x y ch))).flatten)
  | _ => []

/-- Pixels of a packed group and the low bits that each pixel leaves to the group's last bytes, by depth (R240). -/
def rawGroup (depth : Nat) : Nat × Nat :=
  match depth with
  | 8 => (1, 0)
  | 10 => (4, 2)
  | 12 => (2, 4)
  | 14 => (4, 6)
  | _ => (1, 8)

/-- Bytes of `n` packed pixels, counted in whole bytes (R240). -/
def rawBytes (depth n : Nat) : Nat := ceilDiv (n * depth) 8

/-- A group packed: the high eight bits of each code, then the low bits, the first code's lowest. -/
def packGroup (low : Nat) (g : List Nat) : Bytes :=
  g.map (fun c => BitVec.ofNat 8 (c / 2 ^ low))
    ++ leBytes (ceilDiv (g.length * low) 8) ((g.zipIdx.map fun p => p.1 % 2 ^ low * 2 ^ (low * p.2)).foldl (· + ·) 0)

/-- The codes that a packed group holds; a group cut short holds as many as its bytes allow. -/
def unpackGroup (depth low : Nat) (g : Bytes) : List Nat :=
  let n := g.length * 8 / depth
  (List.range n).map fun i => (g.getD i 0).toNat * 2 ^ low + leNat (g.drop n) / 2 ^ (low * i) % 2 ^ low

/-- CSI-2 packing of raw codes (R240, R280): the stored pixel sizes. -/
def packRaw (depth : Nat) (codes : List Nat) : Bytes :=
  ((cut (rawGroup depth).1 codes.length codes).map (packGroup (rawGroup depth).2)).flatten

/-- The codes that a CSI-2 payload of a raw data type packs. -/
def unpackRaw (depth : Nat) (b : Bytes) : List Nat :=
  ((cut ((rawGroup depth).1 * depth / 8) b.length b).map (unpackGroup depth (rawGroup depth).2)).flatten

/-- A raw tap's code of a pixel: the sensor's code, or stage 5 clamped and rounded to the depth (R280). -/
def RawFrame.rawTapCode (f : RawFrame) (after5 : Bool) (x y : Nat) : Nat :=
  if after5 then
    let v := clampInt 0 (65536 - 2 ^ (16 - f.depth) : Nat) (f.s5 x y)
    min (rneDiv v (2 ^ (16 - f.depth))).toNat (2 ^ f.depth - 1)
  else (f.rows.getD y []).getD x 0

/-- A raw tap's line (R280). -/
def RawFrame.rawTapLine (f : RawFrame) (fmt : Nat) (after5 : Bool) (y : Nat) : Bytes :=
  let codes := (List.range f.w).map fun x => f.rawTapCode after5 x y
  if fmt = 0x20 then (codes.map (leBytes 2)).flatten else packRaw f.depth codes

/-! ## Compressed raw frames (R98 to R100) -/

/-- Bits per stored pixel of a raw tap: 16, or the sensor's depth where packed (R280). -/
def rawBits (fmt depth : Nat) : Nat := if fmt = 0x20 then 16 else depth

/-- The codes of a raw tap's line, and codes stored as the tap stores them uncompressed. -/
def rawLineCodes (fmt depth : Nat) (b : Bytes) : List Nat :=
  if fmt = 0x20 then (List.range (b.length / 2)).map fun k => fld b (2 * k) 2 else unpackRaw depth b

def rawStored (fmt depth : Nat) (codes : List Nat) : Bytes :=
  if fmt = 0x20 then (codes.map (leBytes 2)).flatten else packRaw depth codes

/-- The residual step of a compression mode: 1 LOSSLESS, and 2^(k + 1) + 1 for NEARk (R99). -/
def rawStep (mode : Nat) : Nat := if mode ≤ 1 then 1 else 2 ^ (mode - 1) + 1

/-- The next code of a block decoded: the prediction plus its residual rounded to the nearest multiple of the step, so at most half a step from the
original, clamped to the raw depth (R99; DEDUCED, log entry 129). -/
def rawNext (mode depth : Nat) (decoded : List Nat) (x : Nat) : Nat :=
  let p := Config.rawPredict mode decoded
  let step : Int := rawStep mode
  (clampInt 0 (2 ^ depth - 1 : Nat) (p + ((x : Int) - p + (step - 1) / 2) / step * step)).toNat

/-- The codes that a coded block decodes to. -/
def rawDecoded (mode depth : Nat) (codes : List Nat) : List Nat := codes.foldl (fun done x => done ++ [rawNext mode depth done x]) []

/-- What is stored of a block and the plain bytes it decodes to: its code in whole units of 32 bytes, one at least, or the block itself where that would not
be shorter (R98, R100). -/
def rawBlock (mode fmt depth : Nat) (codes : List Nat) : Bytes × Bytes :=
  let plain := rawStored fmt depth codes
  let got := rawDecoded mode depth codes
  let c := Config.rawCode mode got
  let n := 32 * max 1 (ceilDiv c.length 32)
  if plain.length ≤ n then (plain, plain) else (padTo n c, rawStored fmt depth got)

/-! ## Statistics (R284, R285) -/

/-- A value clamped to 0 to 1 - 2^-16, as a 16-bit code. -/
def statCode (v : Int) : Nat := (clampInt 0 65535 v).toNat

/-- Sum of a function over a rectangle. -/
def sumRect (x y w h : Nat) (g : Nat → Nat → Nat) : Nat :=
  (List.range h).foldl (fun acc j => (List.range w).foldl (fun acc i => acc + g (x + i) (y + j)) acc) 0

/-- The second difference of stage-4 codes at a green sample along an axis, or 0 where a neighbour lies outside the frame. -/
def RawFrame.focus (f : RawFrame) (vert : Bool) (x y : Nat) : Nat :=
  let n := if vert then f.h else f.w
  let p := if vert then y else x
  if f.colour x y ≠ 1 ∨ p < 2 ∨ n ≤ p + 2 then 0
  else
    let v := fun (k : Nat) => (statCode (if vert then f.s4 x k else f.s4 k y) : Int)
    (2 * v p - v (p - 2) - v (p + 2)).natAbs

/-- The 32-byte record of a zone. -/
def RawFrame.zoneRec (f : RawFrame) (x y w h : Nat) : Bytes :=
  let sum := fun (col : Nat) => sumRect x y w h fun a b => if f.colour a b = col then statCode (f.s4 a b) / 16 else 0
  let clip := fld f.pset 0x78 2
  let clipped := sumRect 0 0 (w / 2) (h / 2) fun a b =>
    b2n ((List.range 4).any fun q => clip ≤ statCode (f.s4 (x + 2 * a + q % 2) (y + 2 * b + q / 2)))
  leBytes 4 (if f.mono then 0 else sum 0) ++ leBytes 4 (sum 1) ++ leBytes 4 (if f.mono then 0 else sum 2) ++ leBytes 4 clipped
    ++ leBytes 8 (sumRect x y w h (f.focus false)) ++ leBytes 8 (sumRect x y w h (f.focus true))

/-- The 256 zone records and the 256 bins (R284). -/
def RawFrame.statsBody (f : RawFrame) : Bytes × Bytes :=
  let wx := fld f.pset 0x7A 2
  let wy := fld f.pset 0x7C 2
  let ww := fld f.pset 0x7E 2
  let wh := fld f.pset 0x80 2
  let zw := ww / 32 * 2
  let zh := wh / 32 * 2
  let zones := ((List.range 256).map fun z => f.zoneRec (wx + z % 16 * zw) (wy + z / 16 * zh) zw zh).flatten
  let bins := (List.range (wh / 2)).foldl (fun acc j => (List.range (ww / 2)).foldl (fun (acc : List (Nat × Nat)) i =>
    let s := (List.range 4).foldl (fun t q => t + statCode (f.s5 (wx + 2 * i + q % 2) (wy + 2 * j + q / 2))) 0
    let bin := s / 4 / 256
    aSet acc bin ((aGet acc bin).getD 0 + 1)) acc) []
  (zones, ((List.range 256).map fun k => leBytes 4 ((aGet bins k).getD 0)).flatten)

end Sys2Proof.Machine
end

