-- ==== Sys2Proof/Machine/VisionMath.lean ====
section
/-! DEFINITION. What the pyramid, filter, warp and feature engines compute (chapter 12): images, borders, the checks of an operation
descriptor, its extents, and its output band by band. `rd` reads bytes of memory. -/
namespace Sys2Proof.Machine
open Sys2Proof

/-- A reader of memory: address and length. -/
abbrev Reader := Nat → Nat → Bytes

/-! ## Images and borders (R319, R320, R325) -/

/-- An image. -/
structure Img where
  addr : Nat := 0
  fmt : Nat := 2
  planesM1 : Nat := 0
  reserved : Bool := false
  w : Nat := 0
  h : Nat := 0
  pitch : Nat := 0
  plane : Nat := 0
  deriving DecidableEq, Repr, Inhabited

/-- The image that a 32-byte descriptor names. -/
def imgOf (b : Bytes) : Img :=
  let q := fld b 0 8
  { addr := bits q 0 40, fmt := bits q 40 4, planesM1 := bits q 44 2
    reserved := bits q 46 18 != 0 || bits (fld b 0x10 8) 40 24 != 0 || !allZero (sub b 0x18 8)
    w := fld b 8 2 + 1, h := fld b 0x0A 2 + 1, pitch := fld b 0x0C 4, plane := bits (fld b 0x10 8) 0 40 }

/-- Element size of a format. -/
def elemSize (fmt : Nat) : Nat := if fmt = 2 then 1 else 2

/-- Planes of an image. -/
def Img.planes (m : Img) : Nat := m.planesM1 + 1

/-- Address of an element. -/
def Img.addrOf (m : Img) (pl x y : Nat) : Nat := m.addr + pl * m.plane + y * m.pitch + x * elemSize m.fmt

/-- Bytes from an image's address to the end of its last line. -/
def Img.extent (m : Img) : Nat := (m.planes - 1) * m.plane + (m.h - 1) * m.pitch + m.w * elemSize m.fmt

/-- A position on an axis of `n` under BORDER: none takes CONST. -/
def borderPos (mode n : Nat) (i : Int) : Option Nat :=
  if 0 ≤ i ∧ i < n then some i.toNat
  else match mode with
    | 0 => none
    | 1 => some (edge n i)
    | _ =>
      let j := if i < 0 then -i else 2 * ((n : Int) - 1) - i
      some (edge n j)

/-- The code of a sample, inside the image or under BORDER. -/
def Img.sample (rd : Reader) (m : Img) (mode const pl : Nat) (x y : Int) : Nat :=
  match borderPos mode m.w x, borderPos mode m.h y with
  | some i, some j => leNat (rd (m.addrOf pl i j) (elemSize m.fmt))
  | _, _ => const

/-- The integer that a code stands for on the integer path. -/
def codeInt (fmt code : Nat) : Int := if fmt = 3 then toSigned 16 code else (code : Int)

/-- The value that a code stands for on the FP16 path: exact in FP32. -/
def codeVal (fmt code : Nat) : Val := if fmt = 6 then fmtFP16.decode code else int32 (codeInt fmt code)

/-- The integer result n / den + off rounded into a format, and whether it saturated: the quotient is rounded before the offset is added (R329), and
what counts is the exact value at half a step beyond a bound (R126, R324). -/
def satCode (fmt : Nat) (n : Int) (den : Nat) (off : Int := 0) : Nat × Nat :=
  let b := intBounds fmt
  let beyond := decide ((2 * (b.2 - off) + 1) * den ≤ 2 * n ∨ 2 * n ≤ (2 * (b.1 - off) - 1) * den)
  (ofSigned (8 * elemSize fmt) (clampInt b.1 b.2 (rneDiv n den + off)), b2n beyond)

/-- A value of the FP16 path converted once into a format, and whether it saturated (R324). -/
def valCode (fmt : Nat) (v : Val) : Nat × Nat :=
  let r := convert fmt false false v
  (r.1, if r.2 = .sat then 1 else 0)

/-- A sample that is the result as it stands, taken through the one conversion of the FP16 path: NaN canonical, an infinity the largest finite
value and counted (R111, R324). -/
def sampleCode (fmt code : Nat) : Nat × Nat := if fmt = 6 then valCode 6 (codeVal 6 code) else (code, 0)

/-- The lines of an image as they lie in memory. -/
def Img.lines (m : Img) (write : Bool) : List Extent :=
  (List.range m.planes).flatMap fun pl => (List.range m.h).map fun y => ⟨m.addrOf pl 0 y, m.w * elemSize m.fmt, write⟩

/-- What of plane `pl` is read for the positions from (x0, y0) to (x1, y1) under BORDER: a piece of each line. -/
def Img.box (m : Img) (mode pl : Nat) (x0 x1 y0 y1 : Int) : List (Nat × Nat) :=
  let xs := (List.range (x1 + 1 - x0).toNat).filterMap fun (i : Nat) => borderPos mode m.w (x0 + i)
  let ys := ((List.range (y1 + 1 - y0).toNat).filterMap fun (j : Nat) => borderPos mode m.h (y0 + j)).eraseDups
  match xs with
  | [] => []
  | x :: rest => ys.map fun y => (m.addrOf pl (rest.foldl min x) y, (rest.foldl max x + 1 - rest.foldl min x) * elemSize m.fmt)

/-! ## Fields of an operation descriptor (R319, R326, R329, R330, R337) -/

def vOp (d : Bytes) : Nat := fld d 0 1
def vBorder (d : Bytes) : Nat := bits (fld d 1 1) 0 2
def vConst (d : Bytes) : Nat := fld d 2 2
def vIndirect (d : Bytes) : Bool := bit (fld d 4 4) 0
def vSrc (d : Bytes) : Img := imgOf (sub d 0x08 32)
def vDst (d : Bytes) : Img := imgOf (sub d 0x28 32)
def vAddr (d : Bytes) (off : Nat) : Nat := bits (fld d off 8) 0 40

/-- The levels of a pyramid, from level 1: width, height, pitch, plane and offset from DST (R326, R327). -/
def pyrLevels (e np : Nat) : Nat → Nat → Nat → Nat → List (Nat × Nat × Nat × Nat × Nat)
  | 0, _, _, _ => []
  | n + 1, w, h, off =>
    let w1 := ceilDiv w 2
    let h1 := ceilDiv h 2
    let pitch := 64 * ceilDiv (w1 * e) 64
    (w1, h1, pitch, pitch * h1, off) :: pyrLevels e np n w1 h1 (off + 256 * ceilDiv (np * (pitch * h1)) 256)

/-- Level `l` of a pyramid laid out from `base` below the image `src` (R327). -/
def pyrImg (src : Img) (base l : Nat) : Img :=
  match (pyrLevels (elemSize src.fmt) src.planes l src.w src.h 0).getLast? with
  | some (w, h, pitch, plane, off) => { addr := base + off, fmt := src.fmt, planesM1 := src.planesM1, w := w, h := h, pitch := pitch, plane := plane }
  | none => src

/-- The declared extent of a pyramid of `n` levels. -/
def pyrExtent (src : Img) (n : Nat) : Nat :=
  match (pyrLevels (elemSize src.fmt) src.planes n src.w src.h 0).getLast? with
  | some (_, _, _, plane, off) => off + 256 * ceilDiv (src.planes * plane) 256
  | none => 0

def vLevels (d : Bytes) : Nat := bits (fld d 0x48 1) 0 3 + 1
def vKh (d : Bytes) : Nat := fld d 0x48 1 + 1
def vKw (d : Bytes) : Nat := fld d 0x49 1 + 1
def vShift (d : Bytes) : Nat := fld d 0x4A 1
def vMode (d : Bytes) : Nat := fld d 0x48 1
def vInterp (d : Bytes) : Nat := fld d 0x49 1
def vH (d : Bytes) (i : Nat) : Val := val32 (fld d (0x4C + 4 * i) 4)
def vGrid (d : Bytes) : Nat := bits (fld d 0x70 8) 40 4
def vThresh (d : Bytes) : Nat := fld d 0x48 1
def vArc (d : Bytes) : Nat := fld d 0x49 1
def vCell (d : Bytes) : Nat := fld d 0x4A 1
def vKmax (d : Bytes) : Nat := bits (fld d 0x4B 1) 0 6 + 1
def vDescEn (d : Bytes) : Bool := bit (fld d 0x4D 1) 0
def vMaxf (d : Bytes) : Nat := fld d 0x4E 2 + 1
def vDescSrc (d : Bytes) : Img := imgOf (sub d 0x60 32)

/-- Nodes of a mesh table along an axis of `n` output pixels. -/
def meshNodes (n g : Nat) : Nat := ceilDiv n (2 ^ g) + 1

/-! ## The checks at admission (R319, R320, R322, R326 to R330, R334 to R337) -/

/-- A field of an image descriptor is reserved or out of range. PLANE of an image of one plane, which separates nothing, may also be zero: R320 gives its
range without saying so, and R319 asks for zero of what is not used (DESIGN CHOICE; log entry 158). -/
def Img.fieldBad (m : Img) : Bool :=
  m.reserved || m.planesM1 == 1 || m.planesM1 == 3 || m.w < 16 || 8192 < m.w || m.h < 16 || 8192 < m.h
    || m.pitch < m.w * elemSize m.fmt || (m.plane < m.h * m.pitch && (m.planesM1 == 2 || m.plane != 0))

/-- A format of R320. -/
def visFmt (f : Nat) : Bool := f == 2 || f == 3 || f == 6

/-- CONST is used by an operation of unit `u`: by a warp as its fill, by any other under a constant border (R319, R325, R331). -/
def visConstUsed (u : Nat) (d : Bytes) : Bool := u == 2 || vBorder d == 0

/-- The common fields of a descriptor of unit `u` are reserved or out of range, or CONST is set where it is not used. -/
def visCommonBad (u : Nat) (d : Bytes) : Bool :=
  (!visConstUsed u d && vConst d != 0) ||
    bits (fld d 1 1) 2 6 != 0 || vBorder d == 3 || bits (fld d 4 4) 1 31 != 0 || ((vSrc d).fmt == 2 && 255 < vConst d) || (vSrc d).fieldBad

/-- PARAM fields of the first four engines that are reserved or out of range. -/
def visParamBad (u : Nat) (d : Bytes) : Bool :=
  match u with
  | 0 => bits (fld d 0x48 1) 3 5 != 0 || !allZero (sub d 0x49 55)
  | 1 =>
    let kmax := if vOp d = 1 then 7 else 15
    fld d 0x4B 1 != 0 || !allZero (sub d 0x58 40) || vKh d % 2 == 0 || vKw d % 2 == 0
      || (if vOp d = 3 then !((vKh d == 3 && vKw d == 3) || (vKh d == 5 && vKw d == 5)) else kmax < vKh d || kmax < vKw d)
      || (if vOp d ≤ 2 then 24 < vShift d || bits (fld d 0x50 8) 40 24 != 0 else vShift d != 0 || fld d 0x4C 4 != 0 || fld d 0x50 8 != 0)
  | 2 =>
    vMode d == 0 || 3 < vMode d || 2 < vInterp d || fld d 0x4A 2 != 0 || fld d 0x78 8 != 0
      || (vMode d == 1 && !allZero (sub d 0x64 12))
      || (if vMode d = 3 then !allZero (sub d 0x4C 36) || vGrid d < 3 || 7 < vGrid d || bits (fld d 0x70 8) 44 20 != 0
          else fld d 0x70 8 != 0)
  | _ =>
    vThresh d == 0 || vArc d < 9 || 12 < vArc d || vCell d < 4 || 8 < vCell d || bits (fld d 0x4B 1) 6 2 != 0
      || bits (fld d 0x4D 1) 1 7 != 0 || vAddr d 0x50 % 16 != 0 || bits (fld d 0x50 8) 40 24 != 0
      || (if vDescEn d then bits (fld d 0x58 8) 40 24 != 0 || (vDescSrc d).fieldBad else fld d 0x58 8 != 0 || !allZero (sub d 0x60 32))

/-- Formats, plane counts and sizes that an engine does not accept. -/
def visShapeBad (u : Nat) (d : Bytes) : Bool :=
  let a := vSrc d
  let b := vDst d
  !visFmt a.fmt || match u with
  | 0 =>
    let l := pyrImg a 0 (vLevels d)
    b.fmt != a.fmt || b.planesM1 != a.planesM1 || l.w < 8 || l.h < 8
  | 1 => !visFmt b.fmt || b.planesM1 != a.planesM1 || b.w != a.w || b.h != a.h || (3 ≤ vOp d && b.fmt != a.fmt)
  | 2 => a.fmt == 3 || b.fmt != a.fmt || b.planesM1 != a.planesM1
  | _ => a.fmt != 2 || a.planesM1 != 0 || (vDescEn d && ((vDescSrc d).fmt != 2 || (vDescSrc d).planesM1 != 0
      || (vDescSrc d).w != a.w || (vDescSrc d).h != a.h))

/-- The destination descriptor's fields: a pyramid's gives only address, format and planes, a feature operation has none. -/
def visDstBad (u : Nat) (d : Bytes) : Bool :=
  match u with
  | 0 => (vDst d).reserved || !allZero (sub d 0x30 24)
  | 3 => !allZero (sub d 0x28 32)
  | _ => (vDst d).fieldBad

/-- An opcode that an engine does not have. -/
def visOpBad (u : Nat) (d : Bytes) : Bool := if u = 1 then vOp d == 0 || 5 < vOp d else vOp d != 1

/-! ## The Ziggurat pyramid (R326) -/

/-- Weights of R326. -/
def binom5 : List Nat := [1, 4, 6, 4, 1]

/-- A pixel of the level below `m`. -/
def pyrPixel (rd : Reader) (m : Img) (mode const pl x y : Nat) : Nat × Nat :=
  let p := fun (i j : Nat) => m.sample rd mode const pl (2 * (x : Int) + i - 2) (2 * (y : Int) + j - 2)
  let w := fun (i j : Nat) => binom5.getD i 0 * binom5.getD j 0
  if m.fmt = 6 then
    let sum := (List.range 5).foldl (fun acc j => (List.range 5).foldl (fun acc i =>
      add32 acc (mul32 (int32 (w i j)) (codeVal 6 (p i j)))) acc) (int32 0)
    valCode 6 (mul32 sum (ratio32 1 256))
  else
    let sum : Int := (List.range 5).foldl (fun acc j => (List.range 5).foldl (fun acc i => acc + w i j * codeInt m.fmt (p i j)) acc) 0
    satCode m.fmt sum 256

/-! ## The filter engine (R328, R329) -/

/-- The place of an FP16 code in the order -inf first, -0 below +0, NaN above +inf; of an integer its value. -/
def sortKey (fmt code : Nat) : Int :=
  if fmt ≠ 6 then codeInt fmt code
  else if bits code 0 15 > 0x7C00 then 0x10000
  else if bit code 15 then 0 - ((bits code 0 15 : Nat) : Int) - 1 else bits code 0 15

/-- Insertion by key. -/
def insKey (fmt c : Nat) (l : List Nat) : List Nat :=
  l.takeWhile (fun x => sortKey fmt x ≤ sortKey fmt c) ++ [c] ++ l.dropWhile (fun x => sortKey fmt x ≤ sortKey fmt c)

/-- A filter's output pixel: its code and whether it saturated. `td` reads the table that the dispatch has read. -/
def filterPixel (rd td : Reader) (d : Bytes) (pl x y : Nat) : Nat × Nat :=
  let m := vSrc d
  let dst := (vDst d).fmt
  let kh := vKh d
  let kw := vKw d
  let p := fun (i j : Nat) => m.sample rd (vBorder d) (vConst d) pl ((x : Int) + i - ((kw - 1) / 2 : Nat)) ((y : Int) + j - ((kh - 1) / 2 : Nat))
  let coef := fun (k : Nat) => toSigned 16 (leNat (td (vAddr d 0x50 + 2 * k) 2))
  if vOp d ≥ 3 then
    let win := ((List.range kh).flatMap fun j => (List.range kw).map fun i => p i j)
    let srt := win.foldl (fun l c => insKey m.fmt c l) []
    sampleCode m.fmt (srt.getD (if vOp d = 3 then srt.length / 2 else if vOp d = 4 then 0 else srt.length - 1) 0)
  else if m.fmt = 6 ∨ dst = 6 then
    let v := fun (i j : Nat) => codeVal m.fmt (p i j)
    let sum := if vOp d = 1 then
        (List.range kh).foldl (fun acc j => (List.range kw).foldl (fun acc i => add32 acc (mul32 (int32 (coef (j * kw + i))) (v i j))) acc) (int32 0)
      else (List.range kh).foldl (fun acc j =>
        add32 acc (mul32 (int32 (coef (kw + j))) ((List.range kw).foldl (fun acc i => add32 acc (mul32 (int32 (coef i)) (v i j))) (int32 0)))) (int32 0)
    let off := if dst = 6 then val32 (fld d 0x4C 4) else Val.ofInt (toSigned 32 (fld d 0x4C 4)) 0
    valCode dst (add32 (mul32 sum (ratio32 1 (2 ^ vShift d))) off)
  else
    let v := fun (i j : Nat) => codeInt m.fmt (p i j)
    let sum : Int := (List.range kh).foldl (fun acc j => (List.range kw).foldl (fun acc i =>
      acc + (if vOp d = 1 then coef (j * kw + i) else coef i * coef (kw + j)) * v i j) acc) 0
    satCode dst sum (2 ^ vShift d) (toSigned 32 (fld d 0x4C 4))

/-! ## The warp engine (R330 to R333) -/

/-- A coordinate in 1/256 pixel, none where it is filled. -/
def coord8 (v : Val) : Option Int :=
  match (mul32 v (int32 256)) with
  | .fin n m e => let r := nearInt n m e
    if (v.abs).lt (int32 32768) then some r else none
  | _ => none

/-- The source coordinate of an output pixel, in 1/256 pixel (R331); `td` reads the mesh that the dispatch has read. -/
def warpCoord (td : Reader) (d : Bytes) (x y : Nat) : Option (Int × Int) :=
  let out := fun (u v : Val) => match coord8 u, coord8 v with
    | some a, some b => some (a, b)
    | _, _ => none
  if vMode d = 3 then
    let g := vGrid d
    let s := 2 ^ g
    let cols := meshNodes (vDst d).w g
    let node := fun (i j k : Nat) => toSigned 32 (leNat (td (vAddr d 0x70 + 8 * (j * cols + i) + 4 * k) 4))
    let i := x / s
    let j := y / s
    let fx : Int := (x % s : Nat)
    let fy : Int := (y % s : Nat)
    let blend := fun (k : Nat) => rneDiv (((s : Int) - fy) * (((s : Int) - fx) * node i j k + fx * node (i + 1) j k)
      + fy * (((s : Int) - fx) * node i (j + 1) k + fx * node (i + 1) (j + 1) k)) (s * s)
    let u := blend 0
    let v := blend 1
    if u.natAbs < 8388608 ∧ v.natAbs < 8388608 then some (u, v) else none
  else
    let fx := int32 x
    let fy := int32 y
    let row := fun (k : Nat) => fma32 (vH d k) fx (fma32 (vH d (k + 1)) fy (vH d (k + 2)))
    if vMode d = 1 then out (row 0) (row 3)
    else
      let wn := row 6
      if wn = .nan ∨ !((ratio32 1 1048576).lt wn) then none
      else
        let r := recip32 wn
        out (mul32 (row 0) r) (mul32 (row 3) r)

/-- The four bicubic coefficients of a phase of 64: a = -0.5, scaled by 1,024, adjusted at the tap nearer the coordinate (R332). -/
def cubicCoefs (q : Nat) : List Int :=
  let inner := fun (n : Int) => rneDiv (3 * n * n * n - 320 * n * n + 524288) 512
  let outer := fun (n : Int) => rneDiv (320 * n * n - n * n * n - 32768 * n + 1048576) 512
  let c : List Int := [outer (64 + q), inner q, inner (64 - (q : Int)), outer (128 - (q : Int))]
  let fix := 1024 - c.foldl (· + ·) 0
  c.modify (if q < 32 then 1 else 2) (· + fix)

/-- The position that nearest interpolation takes: the half goes to the even one (R332). -/
def nearPos (c : Int) : Int := if 128 < c % 256 ∨ (c % 256 = 128 ∧ c / 256 % 2 ≠ 0) then c / 256 + 1 else c / 256

/-- An interpolated sample of plane `pl` (R332). -/
def warpSample (rd : Reader) (d : Bytes) (pl : Nat) (u8 v8 : Int) : Nat × Nat :=
  let m := vSrc d
  let iu := u8 / 256
  let fu := u8 % 256
  let iv := v8 / 256
  let fv := v8 % 256
  let p := fun (a b : Int) => m.sample rd (vBorder d) (vConst d) pl a b
  match vInterp d with
  | 0 => sampleCode m.fmt (p (nearPos u8) (nearPos v8))
  | 1 =>
    let wt := fun (k : Nat) (f : Int) => if k = 0 then 256 - f else f
    if m.fmt = 6 then
      valCode 6 ((List.range 2).foldl (fun acc j => (List.range 2).foldl (fun acc i =>
        add32 acc (mul32 (ratio32 (wt i fu * wt j fv).toNat 65536) (codeVal 6 (p (iu + i) (iv + j))))) acc) (int32 0))
    else
      let sum : Int := (List.range 2).foldl (fun acc j => (List.range 2).foldl (fun acc i =>
        acc + wt i fu * wt j fv * codeInt m.fmt (p (iu + i) (iv + j))) acc) 0
      satCode m.fmt sum 65536
  | _ =>
    let cx := cubicCoefs (fu / 4).toNat
    let cy := cubicCoefs (fv / 4).toNat
    let wv := fun (c : Int) => if c < 0 then (ratio32 c.natAbs 1024).neg else ratio32 c.natAbs 1024
    if m.fmt = 6 then
      valCode 6 ((List.range 4).foldl (fun acc j =>
        add32 acc (mul32 (wv (cy.getD j 0)) ((List.range 4).foldl (fun acc i =>
          add32 acc (mul32 (wv (cx.getD i 0)) (codeVal 6 (p (iu - 1 + i) (iv - 1 + j))))) (int32 0)))) (int32 0))
    else
      let sum : Int := (List.range 4).foldl (fun acc j => (List.range 4).foldl (fun acc i =>
        acc + cy.getD j 0 * cx.getD i 0 * codeInt m.fmt (p (iu - 1 + i) (iv - 1 + j))) acc) 0
      satCode m.fmt sum 1048576

/-- The bounding box, in pixels, of the source coordinates of a block, widened for the interpolation (R333). -/
def boxPixels (interp : Nat) (cs : List (Int × Int)) : Nat :=
  match cs with
  | [] => 0
  | c :: rest =>
    let lo := fun (f : Int × Int → Int) => rest.foldl (fun a x => min a (f x / 256)) (f c / 256)
    let hi := fun (f : Int × Int → Int) => rest.foldl (fun a x => max a (f x / 256)) (f c / 256)
    let ext := match interp with
      | 0 => 1
      | 1 => 2
      | _ => 4
    ((hi Prod.fst - lo Prod.fst + ext) * (hi Prod.snd - lo Prod.snd + ext)).toNat

/-! ## The feature engine (R334 to R338) -/

/-- The circle of R334, in cyclic order. -/
def circle16 : List (Int × Int) :=
  [(0, -3), (1, -3), (2, -2), (3, -1), (3, 0), (3, 1), (2, 2), (1, 3), (0, 3), (-1, 3), (-2, 2), (-3, 1), (-3, 0), (-3, -1), (-2, -2), (-1, -3)]

/-- The corner score of a pixel, none when it is no candidate. -/
def cornerScore (rd : Reader) (d : Bytes) (x y : Nat) : Option Nat :=
  let m := vSrc d
  if x < 16 ∨ y < 16 ∨ m.w ≤ x + 16 ∨ m.h ≤ y + 16 then none
  else
    let px := fun (o : Int × Int) => (m.sample rd 1 0 0 ((x : Int) + o.1) ((y : Int) + o.2) : Int)
    let c := px (0, 0)
    let t : Int := vThresh d
    let vs := circle16.map px
    let run := fun (p : Int → Bool) => (List.range 16).any fun k => (List.range (vArc d)).all fun j => p (vs.getD ((k + j) % 16) 0)
    if run (fun v => decide (c + t < v)) ∨ run (fun v => decide (v < c - t)) then
      some ((vs.map fun v => (max 0 (((v - c).natAbs : Int) - t)).toNat).sum)
    else none

/-- A candidate that no neighbour beats is kept, with its score (R335). -/
def cornerKept (rd : Reader) (d : Bytes) (x y : Nat) : Option Nat :=
  match cornerScore rd d x y with
  | none => none
  | some s =>
    let ok := [((-1 : Int), (-1 : Int), false), (0, -1, false), (1, -1, false), (-1, 0, false), (1, 0, true), (-1, 1, true), (0, 1, true), (1, 1, true)].all
      fun o => match cornerScore rd d ((x : Int) + o.1).toNat ((y : Int) + o.2.1).toNat with
        | none => true
        | some q => if o.2.2 then decide (q < s) else decide (q ≤ s)
    if ok then some s else none

/-- Cells along an axis. -/
def cellsN (n lg : Nat) : Nat := ceilDiv n (2 ^ lg)

/-- A feature: column, row, score, cell. -/
structure Corner where
  x : Nat := 0
  y : Nat := 0
  score : Nat := 0
  cell : Nat := 0
  deriving DecidableEq, Repr, Inhabited

/-- The kept candidates of a cell, by descending score and then in raster order. -/
def cellCorners (rd : Reader) (d : Bytes) (cell : Nat) : List Corner :=
  let m := vSrc d
  let cw := cellsN m.w (vCell d)
  let n := 2 ^ vCell d
  let x0 := cell % cw * n
  let y0 := cell / cw * n
  let all := (List.range (min n (m.h - y0))).flatMap fun j => (List.range (min n (m.w - x0))).filterMap fun i =>
    (cornerKept rd d (x0 + i) (y0 + j)).map fun s => ({ x := x0 + i, y := y0 + j, score := s, cell := cell } : Corner)
  all.foldl (fun l c => l.takeWhile (fun x => decide (c.score ≤ x.score)) ++ [c] ++ l.dropWhile (fun x => decide (c.score ≤ x.score))) []

/-- S1.14 sines of multiples of 5.625 degrees, from 0 to 90. -/
def sine64 : List Int := [0, 1606, 3196, 4756, 6270, 7723, 9102, 10394, 11585, 12665, 13623, 14449, 15137, 15679, 16069, 16305, 16384]

/-- S1.14 sine of `k` x 5.625 degrees. -/
def sinAt (k : Nat) : Int :=
  let q := k % 64
  let v := sine64.getD (if q % 32 ≤ 16 then q % 32 else 32 - q % 32) 0
  if q < 32 then v else -v

/-- S1.14 cosine of `k` x 5.625 degrees. -/
def cosAt (k : Nat) : Int := sinAt (k + 16)

/-- The orientation bin of a feature (R336). -/
def angleBin (rd : Reader) (m : Img) (x y : Nat) : Nat :=
  let i := fun (dx dy : Int) => (m.sample rd 1 0 0 ((x : Int) + dx) ((y : Int) + dy) : Int)
  let offs := (List.range 31).flatMap fun (b : Nat) => (List.range 31).filterMap fun (a : Nat) =>
    let dx : Int := (a : Int) - 15
    let dy : Int := (b : Int) - 15
    if dx * dx + dy * dy ≤ 225 then some (dx, dy) else none
  let m10 := offs.foldl (fun s o => s + o.1 * i o.1 o.2) 0
  let m01 := offs.foldl (fun s o => s + o.2 * i o.1 o.2) 0
  let inside := fun (b : Nat) =>
    let lo := 2 * b + 63
    let hi := 2 * b + 1
    decide (0 ≤ cosAt lo * m01 - sinAt lo * m10 ∧ 0 < m10 * sinAt hi - m01 * cosAt hi)
  if m10 = 0 ∧ m01 = 0 then 0 else ((List.range 32).find? inside).getD 0

/-- The 256-bit descriptor of a feature (R336). -/
def descBytes (rd td : Reader) (m : Img) (pattern x y b : Nat) : Bytes :=
  let c := cosAt (2 * b)
  let s := sinAt (2 * b)
  let at_ := fun (dx dy : Int) =>
    m.sample rd 1 0 0 ((x : Int) + rneDiv (c * dx - s * dy) 16384) ((y : Int) + rneDiv (s * dx + c * dy) 16384)
  let pat := fun (i k : Nat) => toSigned 8 (leNat (td (pattern + 4 * i + k) 1))
  let bitAt := fun (i : Nat) => b2n (decide (at_ (pat i 0) (pat i 1) < at_ (pat i 2) (pat i 3)))
  (List.range 32).map fun k => BitVec.ofNat 8 ((List.range 8).foldl (fun a j => a + bitAt (8 * k + j) * 2 ^ j) 0)

/-- A pattern table entry lies outside x^2 + y^2 <= 169 (R336, 0x0606). -/
def patternBad (table : Bytes) : Bool :=
  (List.range 512).any fun k =>
    let x := toSigned 8 (fld table (2 * k) 1)
    let y := toSigned 8 (fld table (2 * k + 1) 1)
    169 < x * x + y * y

/-- A 48-byte record (R338). -/
def cornerRecord (rd td : Reader) (d : Bytes) (c : Corner) : Bytes :=
  let a := if vDescEn d then angleBin rd (vDescSrc d) c.x c.y else 0xFF
  leBytes 2 c.x ++ leBytes 2 c.y ++ leBytes 4 c.score ++ leBytes 1 (fld d 0x4C 1) ++ leBytes 1 a ++ zeros 2 ++ leBytes 4 c.cell
    ++ (if vDescEn d then descBytes rd td (vDescSrc d) (vAddr d 0x58) c.x c.y a else zeros 32)

/-- The list's 16-byte header. -/
def featureHeader (frame written found full valid : Nat) : Bytes :=
  leBytes 4 frame ++ leBytes 4 written ++ leBytes 4 found ++ leBytes 2 (min full 0xFFFF) ++ leBytes 1 valid ++ zeros 1

/-! ## Bands (R333, R340) -/

/-- What a band writes, and what it counts. -/
structure Band where
  writes : List (Nat × Bytes) := []
  saturated : Nat := 0
  filled : Nat := 0
  oversize : Nat := 0
  features : Nat := 0
  found : Nat := 0
  full : Nat := 0
  deriving DecidableEq, Repr, Inhabited

/-- Sixteen lines of a plane of an image, pixel by pixel. -/
def bandOf (m : Img) (pl y0 : Nat) (px : Nat → Nat → Nat × Nat) : Band :=
  let rows := (List.range (min 16 (m.h - y0))).map fun j =>
    let cs := (List.range m.w).map fun x => px x (y0 + j)
    ((m.addrOf pl 0 (y0 + j), (cs.map fun c => leBytes (elemSize m.fmt) c.1).flatten), (cs.map (·.2)).sum)
  { writes := rows.map (·.1), saturated := (rows.map (·.2)).sum }

/-- Bands of an image: its planes in turn, 16 lines each. -/
def Img.bands (m : Img) : Nat := m.planes * ceilDiv m.h 16

/-- The blocks of row `k`: the coordinates of each, line by line, and whether its box is too large to fetch (R333). -/
def warpBlocks (td : Reader) (d : Bytes) (k : Nat) : List (List (List (Option (Int × Int))) × Bool) :=
  let m := vDst d
  (List.range (ceilDiv m.w 32)).map fun b =>
    let cs := (List.range (min 16 (m.h - 16 * k))).map fun j => (List.range (min 32 (m.w - 32 * b))).map fun i =>
      warpCoord td d (32 * b + i) (16 * k + j)
    (cs, decide (65536 < boxPixels (vInterp d) ((cs.flatten).filterMap id)))

/-- A row of warp blocks: every plane of 16 output lines. -/
def warpBand (rd td : Reader) (d : Bytes) (k : Nat) : Band :=
  let m := vDst d
  let y0 := 16 * k
  let hN := min 16 (m.h - y0)
  let blocks := warpBlocks td d k
  let filled := (blocks.map fun b => (b.1.map fun r => (r.filter fun c => b.2 || c.isNone).length).sum).sum
  let px := fun (pl x j : Nat) =>
    match blocks[x / 32]? with
    | some (cs, overs) => match overs, ((cs.getD j []).getD (x % 32) none) with
      | false, some (u, v) => warpSample rd d pl u v
      | _, _ => (vConst d, 0)
    | none => (vConst d, 0)
  let rows := (List.range m.planes).flatMap fun pl => (List.range hN).map fun j =>
    let cs := (List.range m.w).map fun x => px pl x j
    ((m.addrOf pl 0 (y0 + j), (cs.map fun c => leBytes (elemSize m.fmt) c.1).flatten), (cs.map (·.2)).sum)
  { writes := rows.map (·.1), saturated := (rows.map (·.2)).sum, filled := filled, oversize := (blocks.filter (·.2)).length }

/-- A row of feature cells; `before` is how many features earlier rows kept. -/
def featureBand (rd td : Reader) (d : Bytes) (k before : Nat) : Band :=
  let cw := cellsN (vSrc d).w (vCell d)
  let cells := (List.range cw).map fun i => cellCorners rd d (k * cw + i)
  let kept := (cells.map fun c => c.take (vKmax d)).flatten
  let n := min kept.length (vMaxf d - min before (vMaxf d))
  { writes := ((kept.take n).mapIdx fun i c => (vAddr d 0x50 + 16 + 48 * (before + i), cornerRecord rd td d c))
    features := n, found := kept.length, full := (cells.filter fun c => decide (vKmax d < c.length)).length }

/-- Bands of a pyramid: level, plane and first line of band `k`. -/
def pyrBandAt (src : Img) (levels k : Nat) : Option (Nat × Nat × Nat) :=
  ((List.range levels).flatMap fun l =>
    let m := pyrImg src 0 (l + 1)
    (List.range m.planes).flatMap fun pl => (List.range (ceilDiv m.h 16)).map fun b => (l + 1, pl, 16 * b))[k]?

/-- Bands of an operation of engines 0 to 3. -/
def visBands (u : Nat) (d : Bytes) : Nat :=
  match u with
  | 0 => ((List.range (vLevels d)).map fun l => (pyrImg (vSrc d) 0 (l + 1)).bands).sum
  | 1 => (vDst d).bands
  | 2 => ceilDiv (vDst d).h 16
  | _ => cellsN (vSrc d).h (vCell d)

/-- Band `k` of an operation of engines 0 to 3; `before` is how many features earlier bands kept. -/
def visBand (rd td : Reader) (u : Nat) (d : Bytes) (k before : Nat) : Band :=
  match u with
  | 0 =>
    match pyrBandAt (vSrc d) (vLevels d) k with
    | none => {}
    | some (l, pl, y0) =>
      let m := if l = 1 then vSrc d else pyrImg (vSrc d) (vDst d).addr (l - 1)
      bandOf (pyrImg (vSrc d) (vDst d).addr l) pl y0 (pyrPixel rd m (vBorder d) (vConst d) pl)
  | 1 =>
    let n := ceilDiv (vDst d).h 16
    bandOf (vDst d) (k / max n 1) (16 * (k % max n 1)) (filterPixel rd td d (k / max n 1))
  | 2 => warpBand rd td d k
  | _ => featureBand rd td d k before

/-- The source lines that band `k` of an operation of engines 0 to 3 needs, as the engine fetches them (R94, R333, R334, R336). -/
def visReads (td : Reader) (u : Nat) (d : Bytes) (k : Nat) : List (Nat × Nat) :=
  let m := vSrc d
  match u with
  | 0 =>
    match pyrBandAt m (vLevels d) k with
    | none => []
    | some (l, pl, y0) =>
      let a := if l = 1 then m else pyrImg m (vDst d).addr (l - 1)
      let n := min 16 ((pyrImg m 0 l).h - y0)
      a.box (vBorder d) pl (-2) (a.w + 1) (2 * (y0 : Int) - 2) (2 * ((y0 : Int) + n - 1) + 2)
  | 1 =>
    let n := max (ceilDiv (vDst d).h 16) 1
    let y0 := 16 * (k % n)
    let rx := (vKw d - 1) / 2
    let ry := (vKh d - 1) / 2
    m.box (vBorder d) (k / n) (-(rx : Int)) (m.w - 1 + rx) ((y0 : Int) - ry) ((y0 + min 16 ((vDst d).h - y0) - 1 + ry : Nat) : Int)
  | 2 =>
    (warpBlocks td d k).flatMap fun b =>
      match b.2, b.1.flatten.filterMap id with
      | false, c :: cs =>
        let at_ := fun (v : Int) => if vInterp d = 0 then nearPos v else v / 256
        let before : Int := if vInterp d = 2 then 1 else 0
        let after : Int := if vInterp d = 2 then 2 else if vInterp d = 1 then 1 else 0
        let lo := fun (f : Int × Int → Int) => cs.foldl (fun a x => min a (at_ (f x))) (at_ (f c))
        let hi := fun (f : Int × Int → Int) => cs.foldl (fun a x => max a (at_ (f x))) (at_ (f c))
        (List.range m.planes).flatMap fun pl =>
          m.box (vBorder d) pl (lo Prod.fst - before) (hi Prod.fst + after) (lo Prod.snd - before) (hi Prod.snd + after)
      | _, _ => []
  | _ =>
    let y0 := k * 2 ^ vCell d
    let y1 : Int := ((y0 + 2 ^ vCell d : Nat) : Int) - 1
    m.box 0 0 0 (m.w - 1) ((y0 : Int) - 4) (y1 + 4)
      ++ (if vDescEn d then (vDescSrc d).box 0 0 0 ((vDescSrc d).w - 1) ((y0 : Int) - 15) (y1 + 15) else [])

/-- A band reads nothing that the operation itself writes: every band but those of a pyramid's levels below the first. -/
def visAhead (u : Nat) (d : Bytes) (k : Nat) : Bool := u != 0 || ((pyrBandAt (vSrc d) (vLevels d) k).map (·.1)) == some 1

/-- The table that an operation of engines 0 to 3 reads: coefficients, mesh or pattern (R322). -/
def visTable (u : Nat) (d : Bytes) : List Extent :=
  match u with
  | 1 => if vOp d ≤ 2 then [⟨vAddr d 0x50, 2 * (if vOp d = 1 then vKh d * vKw d else vKh d + vKw d), false⟩] else []
  | 2 => if vMode d = 3 then [⟨vAddr d 0x70, 8 * meshNodes (vDst d).w (vGrid d) * meshNodes (vDst d).h (vGrid d), false⟩] else []
  | 3 => if vDescEn d then [⟨vAddr d 0x58, 1024, false⟩] else []
  | _ => []

/-- The extents of an operation of engines 0 to 3 (R322). -/
def visExtents (u : Nat) (d : Bytes) : List Extent :=
  let src : Extent := ⟨(vSrc d).addr, (vSrc d).extent, false⟩
  let dst : Extent := ⟨(vDst d).addr, (vDst d).extent, true⟩
  match u with
  | 0 => [src, ⟨(vDst d).addr, pyrExtent (vSrc d) (vLevels d), true⟩]
  | 3 => [src, ⟨vAddr d 0x50, 16 + 48 * vMaxf d, true⟩] ++ visTable u d
      ++ (if vDescEn d then [⟨(vDescSrc d).addr, (vDescSrc d).extent, false⟩] else [])
  | _ => [src, dst] ++ visTable u d

/-- What an operation of engines 0 to 3 reads and writes within its extents: lines of images, whole tables and lists. -/
def visPieces (u : Nat) (d : Bytes) : List Extent :=
  (vSrc d).lines false ++ visTable u d ++ match u with
  | 0 => (List.range (vLevels d)).flatMap fun l => (pyrImg (vSrc d) (vDst d).addr (l + 1)).lines true
  | 3 => ⟨vAddr d 0x50, 16 + 48 * vMaxf d, true⟩ :: (if vDescEn d then (vDescSrc d).lines false else [])
  | _ => (vDst d).lines true

end Sys2Proof.Machine
end

