-- ==== Sys2Proof/Machine/FlowMath.lean ====
section
/-! DEFINITION. What the flow and stereo engines compute (chapter 13): census costs, winners, tests, check modes, confidence, hints,
the scratch area and the statistics record. -/
namespace Sys2Proof.Machine
open Sys2Proof

/-! ## Fields (R348, R352) -/

def tDisp (d : Bytes) : Nat := bits (fld d 0x48 2) 0 10 + 1
def tTex (d : Bytes) : Nat := fld d 0x4C 1
def tUniq (d : Bytes) : Nat := fld d 0x4D 1
def tCheck (d : Bytes) : Nat := bits (fld d 0x4E 1) 0 2
def tTol (d : Bytes) : Nat := let v := fld d 0x4F 1; if v = 0 then 32 else v

def fLc (d : Bytes) : Nat := bits (fld d 0x48 1) 0 3
def fLo (d : Bytes) : Nat := bits (fld d 0x48 1) 3 3
def fSr (d : Bytes) : Nat := fld d 0x49 1
def fRef (d : Bytes) : Nat := bits (fld d 0x4A 1) 0 2
def fCheck (d : Bytes) : Nat := bits (fld d 0x4A 1) 2 2
def fTex (d : Bytes) : Nat := fld d 0x4B 1
def fUniq (d : Bytes) : Nat := fld d 0x4C 1
def fTol (d : Bytes) : Nat := let v := fld d 0x4D 1; if v = 0 then 32 else v

/-- SCRATCH, CONF with its pitch, and HINT of an operation of unit 4 (flow) or 5 (stereo). -/
def oScratch (u : Nat) (d : Bytes) : Nat := vAddr d (if u = 4 then 0x68 else 0x58)
def oConf (u : Nat) (d : Bytes) : Nat := vAddr d (if u = 4 then 0x70 else 0x60)
def oConfPitch (u : Nat) (d : Bytes) : Nat := bits (fld d (if u = 4 then 0x70 else 0x60) 8) 40 24
def oHint (u : Nat) (d : Bytes) : Nat := vAddr d (if u = 4 then 0x78 else 0x68)
/-- CHECK ALWAYS. -/
def oAlways (u : Nat) (d : Bytes) : Bool := (if u = 4 then fCheck d else tCheck d) == 1

/-- Width and height of a level below an image (R326). -/
def levelDims (w h : Nat) : Nat → Nat × Nat
  | 0 => (w, h)
  | n + 1 => let r := levelDims w h n; (ceilDiv r.1 2, ceilDiv r.2 2)

/-- Level `l` of a frame: level 0 at its own address with SRC's pitch, the others in its pyramid (R352). -/
def flowImg (d : Bytes) (prev : Bool) (l : Nat) : Img :=
  if l = 0 then { vSrc d with addr := if prev then vAddr d 0x50 else (vSrc d).addr }
  else pyrImg (vSrc d) (vAddr d (if prev then 0x60 else 0x58)) l

/-- The right image. -/
def rightImg (d : Bytes) : Img := { vSrc d with addr := vAddr d 0x50 }

/-! ## The checks at admission (R344, R348, R352) -/

/-- PARAM fields reserved or out of range. -/
def flowParamBad (u : Nat) (d : Bytes) : Bool :=
  if u = 4 then
    bits (fld d 0x48 1) 6 2 != 0 || fLc d < fLo d || fSr d == 0 || 16 < fSr d || fRef d == 0 || fRef d == 3 || 1 < fCheck d
      || bits (fld d 0x4A 1) 4 4 != 0 || (fUniq d != 0 && (fUniq d < 64 || 127 < fUniq d)) || fld d 0x4E 2 != 0
      || bits (fld d 0x50 8) 40 24 != 0 || bits (fld d 0x58 8) 40 24 != 0 || bits (fld d 0x60 8) 40 24 != 0
      || bits (fld d 0x68 8) 40 24 != 0 || bits (fld d 0x78 8) 40 24 != 0 || oHint u d % 64 != 0
      || (oConf u d != 0 && oConfPitch u d < (levelDims (vSrc d).w (vSrc d).h (fLo d)).1)
  else
    bits (fld d 0x48 2) 10 6 != 0 || tDisp d < 16 || fld d 0x4A 2 != 0 || (tUniq d != 0 && (tUniq d < 64 || 127 < tUniq d))
      || 1 < tCheck d || bits (fld d 0x4E 1) 2 6 != 0 || bits (fld d 0x50 8) 40 24 != 0 || bits (fld d 0x58 8) 40 24 != 0
      || bits (fld d 0x68 8) 40 24 != 0 || !allZero (sub d 0x70 16) || oHint u d % 64 != 0
      || (oConf u d != 0 && oConfPitch u d < (vSrc d).w)

/-- Formats and plane counts that the engines do not accept. -/
def flowShapeBad (d : Bytes) : Bool :=
  (vSrc d).fmt != 2 || (vSrc d).planesM1 != 0 || (vDst d).fmt != 3 || (vDst d).planesM1 != 0

/-- DST's size does not suit SRC's, as far as the descriptor itself says: that of a stereo operation, whatever PARAM holds (R348). -/
def flowSizeBad (u : Nat) (d : Bytes) : Bool := u == 5 && ((vDst d).w != (vSrc d).w || (vDst d).h != (vSrc d).h)

/-- A combination that the chapter forbids (0x0608). -/
def flowComboBad (u : Nat) (d : Bytes) : Bool :=
  if u = 4 then
    let lo := levelDims (vSrc d).w (vSrc d).h (fLo d)
    (vDst d).w != 2 * lo.1 || (vDst d).h != lo.2
  else flowSizeBad u d || tDisp d % 16 != 0

/-! ## Census and costs (R345) -/

/-- Neighbours in the square window of radius `r`, in raster order. -/
def censusOffs (r : Nat) : List (Int × Int) :=
  (List.range (2 * r + 1)).flatMap fun (j : Nat) => (List.range (2 * r + 1)).filterMap fun (i : Nat) =>
    if i = r ∧ j = r then none else some ((i : Int) - r, (j : Int) - r)

/-- Hamming distance between the census signatures of two pixels. -/
def censusCost (rd : Reader) (mode const r : Nat) (a : Img) (ax ay : Int) (b : Img) (bx by_ : Int) : Nat :=
  let sa := fun (x y : Int) => a.sample rd mode const 0 (ax + x) (ay + y)
  let sb := fun (x y : Int) => b.sample rd mode const 0 (bx + x) (by_ + y)
  ((censusOffs r).filter fun o => decide (sa o.1 o.2 < sa 0 0) != decide (sb o.1 o.2 < sb 0 0)).length

/-- The 25 positions of the 5 x 5 window centred on a pixel. -/
def window25 (x y : Int) : List (Int × Int) :=
  (List.range 5).flatMap fun (j : Nat) => (List.range 5).map fun (i : Nat) => (x + i - 2, y + j - 2)

/-- The horizontal gradient sum over the window, with the vertical one for flow. -/
def gradient (rd : Reader) (mode const : Nat) (m : Img) (vert : Bool) (x y : Nat) : Nat :=
  let s := fun (a b : Int) => (m.sample rd mode const 0 a b : Int)
  ((window25 x y).map fun q =>
    (s (q.1 + 1) q.2 - s (q.1 - 1) q.2).natAbs + if vert then (s q.1 (q.2 + 1) - s q.1 (q.2 - 1)).natAbs else 0).sum

/-- Sub-pixel offset from three costs (R349 step 7). -/
def subPixel (a b c : Nat) : Int :=
  let den : Int := a - 2 * b + c
  if den ≤ 0 then 0 else clampInt (-16) 16 (rneDiv (32 * ((a : Int) - c)) (2 * den).toNat)

/-- Which test decided a pixel. -/
inductive Verdict where
  | value
  | texture
  | unique
  | occluded
  | range
  deriving DecidableEq, Repr, Inhabited

/-- Confidence of R359. -/
def confidence (v : Verdict) (s1 : Nat) (s2 : Option Nat) : Nat :=
  if v ≠ .value then 0
  else match s2 with
    | none => 255
    | some q => if q = 0 then 0 else 255 * (q - s1) / q

/-! ## Stereo (R349, R356) -/

/-- A pixel's match: its verdict, its code, the winner's cost and S2. -/
structure StereoPx where
  verdict : Verdict := .value
  code : Nat := 0
  s1 : Nat := 0
  s2 : Option Nat := none
  deriving DecidableEq, Repr, Inhabited

/-- Cost of disparity `k` at a pixel; `rev` takes the right image as the reference (R356). -/
def stereoCost (rd : Reader) (d : Bytes) (rev : Bool) (x y k : Nat) : Nat :=
  let l := vSrc d
  let r := rightImg d
  ((window25 x y).map fun q =>
    let other : Int := if rev then q.1 + k else q.1 - k
    if (!rev && decide (other < 0)) || (rev && decide ((l.w : Int) - 1 < other)) then 48
    else if rev then censusCost rd (vBorder d) (vConst d) 3 r q.1 q.2 l other q.2
    else censusCost rd (vBorder d) (vConst d) 3 l q.1 q.2 r other q.2).sum

/-- The match of a pixel over the window `lo` to `hi`, with the tests of R349 in order. -/
def stereoPx (rd : Reader) (d : Bytes) (lo hi : Nat) (rev : Bool) (x y : Nat) : StereoPx :=
  let cs := (List.range (hi + 1 - lo)).map fun i => (lo + i, stereoCost rd d rev x y (lo + i))
  match cs with
  | [] => {}
  | c0 :: rest =>
    let best := rest.foldl (fun (b : Nat × Nat) c => if c.2 < b.2 then c else b) c0
    let ds := best.1
    let far := (cs.filter fun c => decide (2 ≤ ((c.1 : Int) - ds).natAbs)).map (·.2)
    let s2 := match far with
      | [] => none
      | f :: fs => some (fs.foldl min f)
    let img := if rev then rightImg d else vSrc d
    let beyond := if rev then decide ((vSrc d).w ≤ x + ds) else decide (x < ds)
    let at_ := fun (k : Nat) => (cs.find? (·.1 == k)).map (·.2)
    let base : StereoPx := { s1 := best.2, s2 := s2 }
    if tTex d ≠ 0 ∧ gradient rd (vBorder d) (vConst d) img false x y < 16 * tTex d then { base with verdict := .texture, code := 0xFFFF }
    else if beyond || ds == hi || (ds == lo && lo != 0) then { base with verdict := .range, code := 0xFFFD }
    else if tUniq d ≠ 0 && (match s2 with
        | some q => decide (tUniq d * q < 128 * best.2)
        | none => false) then { base with verdict := .unique, code := 0xFFFE }
    else
      let f := match ds, at_ (ds - 1), at_ (ds + 1) with
        | 0, _, _ => 0
        | _, some a, some c => subPixel a best.2 c
        | _, _, _ => 0
      { base with code := (32 * (ds : Int) + f).toNat }

/-- The left pixel after the consistency check, where it applies (R356). -/
def stereoFinal (rd : Reader) (d : Bytes) (lo hi : Nat) (check : Bool) (x y : Nat) : StereoPx :=
  let p := stereoPx rd d lo hi false x y
  if !check || p.verdict ≠ .value then p
  else
    let xr := (x : Int) - rneDiv p.code 32
    let bad := { p with verdict := Verdict.occluded, code := 0xFFFE }
    if xr < 0 then bad
    else
      let q := stereoPx rd d lo hi true xr.toNat y
      if q.verdict ≠ .value ∨ tTol d < ((p.code : Int) - q.code).natAbs then bad else p

/-! ## Flow (R353, R357) -/

/-- A pixel's vector at a level: its verdict, the integer vector, the ancestor's costs. -/
structure FlowPx where
  verdict : Verdict := .value
  dx : Int := 0
  dy : Int := 0
  s1 : Nat := 0
  s2 : Option Nat := none
  deriving DecidableEq, Repr, Inhabited

/-- Cost of a candidate vector at a level; `rev` swaps the frames (R357). -/
def flowCost (rd : Reader) (d : Bytes) (rev : Bool) (l x y : Nat) (dx dy : Int) : Nat :=
  let a := flowImg d rev l
  let b := flowImg d (!rev) l
  ((window25 x y).map fun q => censusCost rd (vBorder d) (vConst d) 2 a q.1 q.2 b (q.1 + dx) (q.2 + dy)).sum

/-- Candidates of radius `r` about a centre, by rising dy and then dx, with their costs. -/
def flowCands (rd : Reader) (d : Bytes) (rev : Bool) (l x y : Nat) (cx cy : Int) (r : Nat) : List ((Int × Int) × Nat) :=
  (List.range (2 * r + 1)).flatMap fun (j : Nat) => (List.range (2 * r + 1)).map fun (i : Nat) =>
    let v : Int × Int := (cx + i - r, cy + j - r)
    (v, flowCost rd d rev l x y v.1 v.2)

/-- The first candidate of least cost. -/
def flowBest (cs : List ((Int × Int) × Nat)) : (Int × Int) × Nat :=
  match cs with
  | [] => ((0, 0), 0)
  | c :: rest => rest.foldl (fun b x => if x.2 < b.2 then x else b) c

/-- The field `k` levels below LC (R353 steps 1 to 3). `cx`, `cy` and `sr` are the window at LC. -/
def flowLevel (rd : Reader) (d : Bytes) (rev : Bool) (cx cy : Int) (sr : Nat) : Nat → Nat → Nat → FlowPx
  | 0, x, y =>
    let cs := flowCands rd d rev (fLc d) x y cx cy sr
    let b := flowBest cs
    let far := (cs.filter fun c => decide (2 ≤ max (c.1.1 - b.1.1).natAbs (c.1.2 - b.1.2).natAbs)).map (·.2)
    let s2 := match far with
      | [] => none
      | f :: fs => some (fs.foldl min f)
    let p : FlowPx := { dx := b.1.1, dy := b.1.2, s1 := b.2, s2 := s2 }
    if (b.1.1 - cx).natAbs = sr ∨ (b.1.2 - cy).natAbs = sr then { p with verdict := .range }
    else if fUniq d ≠ 0 && (match s2 with
        | some q => decide (fUniq d * q < 128 * b.2)
        | none => false) then { p with verdict := .unique }
    else p
  | k + 1, x, y =>
    let p := flowLevel rd d rev cx cy sr k (x / 2) (y / 2)
    if p.verdict ≠ .value then p
    else
      let b := flowBest (flowCands rd d rev (fLc d - (k + 1)) x y (2 * p.dx) (2 * p.dy) (fRef d))
      { p with dx := b.1.1, dy := b.1.2 }

/-- A flow vector as written: its verdict and its two components (R347, R353 steps 4 and 5). -/
structure FlowOut where
  verdict : Verdict := .value
  u : Int := 0
  v : Int := 0
  s1 : Nat := 0
  s2 : Option Nat := none
  deriving DecidableEq, Repr, Inhabited

/-- The reserved code of a verdict. -/
def flowCode : Verdict → Int
  | .texture => 0x7FFF
  | .unique | .occluded => 0x7FFE
  | _ => 0x7FFD

/-- A vector that carries a reserved code. -/
def FlowOut.mark (p : FlowOut) (v : Verdict) : FlowOut := { p with verdict := v, u := flowCode v, v := flowCode v }

/-- The vector of a pixel at LO before the consistency check. -/
def flowPx (rd : Reader) (d : Bytes) (rev : Bool) (cx cy : Int) (sr x y : Nat) : FlowOut :=
  let lo := fLo d
  let p := flowLevel rd d rev cx cy sr (fLc d - lo) x y
  let base : FlowOut := { s1 := p.s1, s2 := p.s2 }
  if fTex d ≠ 0 ∧ gradient rd (vBorder d) (vConst d) (flowImg d rev lo) true x y < 16 * fTex d then base.mark .texture
  else if p.verdict ≠ .value then base.mark p.verdict
  else
    let c := fun (a b : Int) => flowCost rd d rev lo x y (p.dx + a) (p.dy + b)
    let u := 32 * p.dx + subPixel (c (-1) 0) (c 0 0) (c 1 0)
    let v := 32 * p.dy + subPixel (c 0 (-1)) (c 0 0) (c 0 1)
    if u < -32768 ∨ 0x7FFC < u ∨ v < -32768 ∨ 0x7FFC < v then base.mark .range else { base with u := u, v := v }

/-- The vector after the consistency check, where it applies (R357). -/
def flowFinal (rd : Reader) (d : Bytes) (cx cy : Int) (sr : Nat) (check : Bool) (x y : Nat) : FlowOut :=
  let p := flowPx rd d false cx cy sr x y
  if !check || p.verdict ≠ .value then p
  else
    let dims := levelDims (vSrc d).w (vSrc d).h (fLo d)
    let qx := (x : Int) + rneDiv p.u 32
    let qy := (y : Int) + rneDiv p.v 32
    if qx < 0 ∨ qy < 0 ∨ (dims.1 : Int) ≤ qx ∨ (dims.2 : Int) ≤ qy then p.mark .occluded
    else
      let b := flowPx rd d true (-cx) (-cy) sr qx.toNat qy.toNat
      if b.verdict ≠ .value ∨ fTol d < (p.u + b.u).natAbs ∨ fTol d < (p.v + b.v).natAbs then p.mark .occluded else p

/-! ## Hints (R360, R361) -/

/-- R361's conditions on a hint block that could be read. -/
def hintUse (u : Nat) (b : Bytes) (frame : Nat) : HintUse :=
  let valid := bit (fld b 4 1) (if u = 4 then 0 else 1) && fld b 0 4 == frame
  let ok := bits (fld b 4 1) 2 6 == 0 && fld b 6 2 == 0 && allZero (sub b 0x18 40)
    && (if u = 4 then fld b 5 1 ≤ 16 else fld b 0x0C 2 ≤ fld b 0x0E 2)
  if !ok then .invalid else if valid then .used else .stale

/-- The set-up of an operation from its descriptor, the sampled mode and the hint block, if HINT names one, with the status of its read: a hint never
faults a node, and one that could not be read is invalid (R361; DEDUCED, log entry 159). -/
def flowSetup (u : Nat) (d : Bytes) (mode : Nat) (hint : Option (Bytes × Nat)) (frame : Nat) : FlowSetup :=
  let h := match hint with
    | some (b, 0) => hintUse u b frame
    | some _ => .invalid
    | none => .none
  let b := (hint.getD ([], 0)).1
  let use := h == .used
  let n := tDisp d
  { check := oAlways u d || mode != 0, mode := mode, hint := h
    lo := if use then min (fld b 0x0C 2) (n - 1) else 0
    hi := if use then min (fld b 0x0E 2) (n - 1) else n - 1
    cx := if use then rneDiv (toSigned 16 (fld b 8 2)) (32 * 2 ^ fLc d) else 0
    cy := if use then rneDiv (toSigned 16 (fld b 0x0A 2)) (32 * 2 ^ fLc d) else 0
    sr := if use ∧ fld b 5 1 ≠ 0 then fld b 5 1 else fSr d
    tImu := if use then fld b 0x10 8 else 0 }

/-- Candidates per pixel as the statistics record reports them (R362). -/
def FlowSetup.window (f : FlowSetup) (u : Nat) : Nat := if u = 4 then (2 * f.sr + 1) * (2 * f.sr + 1) else f.hi + 1 - f.lo

/-- Compute cycles of R351 and R354. -/
def FlowSetup.cycles (f : FlowSetup) (u : Nat) (d : Bytes) : Nat :=
  let one := if u = 4 then
      ((List.range (fLc d + 1 - fLo d)).map fun i =>
        let l := fLo d + i
        let dims := levelDims (vSrc d).w (vSrc d).h l
        ceilDiv (dims.1 * dims.2 * (if l = fLc d then f.window u else (2 * fRef d + 1) * (2 * fRef d + 1))) 50).sum
    else ceilDiv ((vSrc d).w * (vSrc d).h * (64 * ceilDiv (f.window u) 64)) 512
  if f.check then 2 * one else one

/-! ## Bands and the scratch area (R350, R359, R362, R363) -/

/-- One more pixel counted. -/
def FlowCount.add (c : FlowCount) : Verdict → FlowCount
  | .value => { c with valid := c.valid + 1 }
  | .texture => { c with texture := c.texture + 1 }
  | .unique => { c with unique := c.unique + 1 }
  | .occluded => { c with occluded := c.occluded + 1 }
  | .range => { c with range := c.range + 1 }

/-- Bands of an operation: 16 lines of DST for flow, 16 lines of a strip of 64 columns for stereo. -/
def flowBands (u : Nat) (d : Bytes) : Nat :=
  let n := ceilDiv (vDst d).h 16
  if u = 4 then n else ceilDiv (vDst d).w 64 * n

/-- The lines a band writes in DST and CONF, and what it counts. -/
def flowBand (rd : Reader) (u : Nat) (d : Bytes) (f : FlowSetup) (k : Nat) : List (Nat × Bytes) × FlowCount :=
  let n := ceilDiv (vDst d).h 16
  let y0 := 16 * (k % max n 1)
  let x0 := if u = 4 then 0 else 64 * (k / max n 1)
  let wAll := if u = 4 then (vDst d).w / 2 else (vDst d).w
  let wN := if u = 4 then wAll else min 64 (wAll - x0)
  (List.range (min 16 ((vDst d).h - y0))).foldl (fun acc j =>
    let y := y0 + j
    let px : List (Verdict × Bytes × Nat) := (List.range wN).map fun i =>
      if u = 4 then
        let p := flowFinal rd d f.cx f.cy f.sr f.check (x0 + i) y
        (p.verdict, leInt 2 p.u ++ leInt 2 p.v, confidence p.verdict p.s1 p.s2)
      else
        let p := stereoFinal rd d f.lo f.hi f.check (x0 + i) y
        (p.verdict, leBytes 2 p.code, confidence p.verdict p.s1 p.s2)
    let conf := if oConf u d = 0 then [] else
      [(oConf u d + y * oConfPitch u d + x0, px.map fun p => BitVec.ofNat 8 p.2.2)]
    (acc.1 ++ [((vDst d).addr + y * (vDst d).pitch + 2 * x0, (px.map (·.2.1)).flatten)] ++ conf,
      px.foldl (fun c p => c.add p.1) acc.2)) ([], {})

/-- Bytes of the work area (R362). -/
def workBytes (u : Nat) (d : Bytes) : Nat :=
  let dims := levelDims (vSrc d).w (vSrc d).h
  if u = 4 then
    ((List.range (fLc d - fLo d)).map fun i => let q := dims (fLo d + 1 + i); 8 * q.1 * q.2).sum
      + 4 * (dims (fLo d)).1 * (dims (fLo d)).2
  else 2 * (vSrc d).w * (vSrc d).h

/-- The work area: the right-referenced map of a checked stereo operation; of flow the levels above LO, with an S2 that no candidate
gives left to `noS2`, and the backward field of a checked operation. -/
def workArea (rd : Reader) (u : Nat) (d : Bytes) (f : FlowSetup) (noS2 : Nat) : Bytes :=
  if u = 4 then
    let levels := (List.range (fLc d - fLo d)).map fun i =>
      let l := fLo d + 1 + i
      let q := levelDims (vSrc d).w (vSrc d).h l
      ((List.range q.2).map fun y => ((List.range q.1).map fun x =>
        let p := flowLevel rd d false f.cx f.cy f.sr (fLc d - l) x y
        let c := if p.verdict = .value then (32 * p.dx, 32 * p.dy) else (flowCode p.verdict, flowCode p.verdict)
        leInt 2 c.1 ++ leInt 2 c.2 ++ leBytes 2 p.s1 ++ leBytes 2 (p.s2.getD noS2)).flatten).flatten
    let q := levelDims (vSrc d).w (vSrc d).h (fLo d)
    let back := if f.check then ((List.range q.2).map fun y => ((List.range q.1).map fun x =>
        let p := flowPx rd d true (-f.cx) (-f.cy) f.sr x y
        leInt 2 p.u ++ leInt 2 p.v).flatten).flatten else []
    levels.flatten ++ back
  else if f.check then
    ((List.range (vSrc d).h).map fun y => ((List.range (vSrc d).w).map fun x => leBytes 2 (stereoPx rd d f.lo f.hi true x y).code).flatten).flatten
  else []

/-- The 64-byte statistics record (R362). -/
def statsRecord (u : Nat) (d : Bytes) (f : FlowSetup) (c : FlowCount) (frame dev : Nat) : Bytes :=
  leBytes 4 frame ++ leBytes 1 (f.mode + 4 * b2n f.check + 8 * b2n (f.hint == .used) + 16 * b2n (f.hint == .stale) + 32 * b2n (f.hint == .invalid))
    ++ zeros 1 ++ leBytes 2 (f.window u) ++ leBytes 4 c.valid ++ leBytes 4 c.texture ++ leBytes 4 c.unique ++ leBytes 4 c.occluded
    ++ leBytes 4 c.range ++ leBytes 4 (min (f.cycles u d) (2 ^ 32 - 1)) ++ leBytes 8 f.tImu ++ leBytes 8 dev ++ zeros 16

/-- The images of a flow or stereo operation that are read: both frames at the levels in use, or left and right. -/
def flowImages (u : Nat) (d : Bytes) : List Img :=
  if u = 4 then (List.range (fLc d + 1 - fLo d)).flatMap fun j => [flowImg d false (fLo d + j), flowImg d true (fLo d + j)]
  else [vSrc d, rightImg d]

/-- The confidence plane, where one is written. -/
def confImg (u : Nat) (d : Bytes) : List Img :=
  if oConf u d = 0 then [] else
    let q := if u = 4 then levelDims (vSrc d).w (vSrc d).h (fLo d) else ((vSrc d).w, (vSrc d).h)
    [{ addr := oConf u d, fmt := 2, w := q.1, h := q.2, pitch := oConfPitch u d }]

/-- The extents of a flow or stereo operation (R322, R362). -/
def flowExtents (u : Nat) (d : Bytes) : List Extent :=
  let src := vSrc d
  let others : List Extent := if u = 4 then
      [⟨vAddr d 0x50, src.extent, false⟩] ++ (if fLc d = 0 then [] else
        [⟨vAddr d 0x58, pyrExtent src (fLc d), false⟩, ⟨vAddr d 0x60, pyrExtent src (fLc d), false⟩])
    else [⟨vAddr d 0x50, src.extent, false⟩]
  [⟨src.addr, src.extent, false⟩, ⟨(vDst d).addr, (vDst d).extent, true⟩, ⟨oScratch u d, 64 + workBytes u d, true⟩] ++ others
    ++ (confImg u d).map fun m => ⟨m.addr, m.extent, true⟩

/-- What a flow or stereo operation reads and writes within its extents. -/
def flowPieces (u : Nat) (d : Bytes) : List Extent :=
  ((flowImages u d).flatMap fun m => m.lines false) ++ (vDst d).lines true ++ ((confImg u d).flatMap fun m => m.lines true)
    ++ [⟨oScratch u d, 64 + workBytes u d, true⟩]

/-- How far the vectors of a flow operation reach `k` levels below LC. -/
def FlowSetup.reach (f : FlowSetup) (d : Bytes) : Nat → Nat
  | 0 => max f.cx.natAbs f.cy.natAbs + f.sr
  | k + 1 => 2 * f.reach d k + fRef d

/-- The lines that band `k` of an operation of the flow or the stereo engine needs, as the engine fetches them: of stereo the strip with its halo
and the right image over the search window (R350); of flow, whose fetch runs ahead of the vectors, whole lines as far as a vector can reach: the spec does
not say how far the fetch goes (DESIGN CHOICE; log entry 160). -/
def flowReads (u : Nat) (d : Bytes) (f : FlowSetup) (k : Nat) : List (Nat × Nat) :=
  let n := max (ceilDiv (vDst d).h 16) 1
  let y0 := 16 * (k % n)
  let y1 := y0 + min 16 ((vDst d).h - y0) - 1
  if u = 4 then
    (List.range (fLc d + 1 - fLo d)).flatMap fun j =>
      let far := f.reach d (fLc d - fLo d - j) + 5 + (if f.check then (f.reach d (fLc d - fLo d) + 2) / 2 ^ j + 1 else 0)
      let rows := fun (m : Img) (e : Nat) => m.box (vBorder d) 0 0 (m.w - 1) ((y0 / 2 ^ j : Nat) - (e : Int)) ((y1 / 2 ^ j + e : Nat) : Int)
      rows (flowImg d false (fLo d + j)) (if f.check then far else 4) ++ rows (flowImg d true (fLo d + j)) far
  else
    let x0 : Int := (64 * (k / n) : Nat)
    let x1 : Int := x0 + min 64 ((vDst d).w - 64 * (k / n)) - 1
    (vSrc d).box (vBorder d) 0 (x0 - 5) (x1 + 5) ((y0 : Int) - 5) ((y1 : Int) + 5)
      ++ (rightImg d).box (vBorder d) 0 (x0 - f.hi - 5) (x1 + 5) ((y0 : Int) - 5) ((y1 : Int) + 5)

end Sys2Proof.Machine
end

