-- ==== Sys2Proof/Machine/VisionOps.lean ====
section
/-! DEFINITION. What a running vision node holds and how Belfry reads it: the operation in progress, its counts, TYPE_DATA, and the
loss of an engine (chapters 12 and 13). Units 0 to 5 are pyramid, filter, warp, feature, flow and stereo. -/
namespace Sys2Proof.Machine
open Sys2Proof

/-- A vision engine changed. -/
def State.modVis (s : State) (u : Nat) (f : VisUnit → VisUnit) : State := { s with vis := s.vis.mod u f }

/-- The engine a type 0x3 context names. -/
def Ctx.engine (c : Ctx) : Nat := bits c.unitMask 0 4

/-- A dispatched vision node holds its engine, with no operation started. -/
def State.startVision (s : State) (i : Nat) (c : Ctx) : State := s.modVis c.engine fun x => { x with run := some { ctx := i } }

/-- The run of the node in context `i`. -/
def State.visRun? (s : State) (i : Nat) (c : Ctx) : Option VisRun :=
  match (s.vis.at c.engine).run with
  | some r => if r.ctx = i then some r else none
  | none => none

/-- Every operation of the node is complete (R323). -/
def State.visionDone (s : State) (i : Nat) (c : Ctx) : Bool :=
  match s.visRun? i c with
  | some r => c.workCount ≤ r.opsDone
  | none => false

/-- LAST_TILE of a vision node (R340). -/
def State.visionLast (s : State) (i : Nat) (c : Ctx) : Nat :=
  match s.visRun? i c with
  | some r => if r.opsDone = 0 then 0xFFFFFFFF else r.opsDone - 1
  | none => 0xFFFFFFFF

/-- TYPE_DATA of R339. -/
def VisRun.typeData (r : VisRun) : Bytes :=
  let c := fun (n v : Nat) => leBytes n (min v (2 ^ (8 * n) - 1))
  c 4 r.opsDone ++ c 4 r.saturated ++ c 4 r.filled ++ c 4 r.features ++ c 4 r.found ++ c 2 r.oversize ++ zeros 10

/-- TYPE_DATA is laid into the record in preparation. -/
def State.visionClose (s : State) (i : Nat) (c : Ctx) : State :=
  match s.visRun? i c with
  | some r => s.modCtx i fun c => { c with typeData := r.typeData }
  | none => s

/-- An operation that ends unfinished leaves its list invalid, its statistics record as it was, and a flow or stereo work area whose
contents nothing defines (R340, R362, R363). The engine holds no node any longer. -/
def State.visionDrop (s : State) (i : Nat) (c : Ctx) (status : Nat) : State :=
  match s.visRun? i c with
  | none => s
  | some r =>
    let s1 := s.modVis c.engine fun x => { x with run := none, lastStatus := status }
    match r.op with
    | some d =>
      if 4 ≤ c.engine then
        let f := s1.freeBytes (workBytes c.engine d)
        f.2.record (initVision c.engine) (oScratch c.engine d + 64) f.1
      else s1
    | none => s1

/-- A node that names a failed engine ends FAULTED, with what its record says of the operations it completed; one that drains ends CANCELLED
with its drain (R61, R339 to R341). -/
def State.loseVisionNode (s : State) (i status : Nat) : State :=
  match s.ctx? i with
  | none => s
  | some c =>
    if c.state.overs ∨ c.state = .idle ∨ c.draining then s
    else ((s.visionClose i c).endNode i .faulted status (s.visionLast i c)).visionDrop i c status

/-- An engine fails: it takes no further work, every node in progress that names it ends FAULTED before any of their successors is cancelled, and the
graphs that name it stop (R341, R65). -/
def State.loseVision (s : State) (u status : Nat) : State :=
  let s1 := s.modVis u fun x => { x with failed := true, selftest := false, lastStatus := status }
  let on := s1.nodesOn (.vis u)
  let s2 := on.foldl (fun s p => s.loseVisionNode p.1 status) s1
  let s3 := on.foldl (fun s p => s.cascadeAll p.2.graph p.2.copy) s2
  (((on.map fun p => p.2.graph).eraseDups).foldl (fun s g => s.haltGraph g status) s3).updateHealth

/-- A mode is entered with a count (R355). -/
def VisUnit.enter (x : VisUnit) (mode n : Nat) : VisUnit :=
  { x with mode := mode, remain := if x.mode = 0 then n else max x.remain n }

/-- The mode an operation samples at its dispatch, and the engine after (R355). -/
def VisUnit.sampleMode (x : VisUnit) : Nat × VisUnit :=
  if x.mode = 0 then (0, x)
  else (x.mode, { x with remain := x.remain - 1, mode := if x.remain ≤ 1 then 0 else x.mode })

/-- A piece that is read and one that is written share a byte. -/
def piecesClash (es : List Extent) : Bool :=
  es.any fun r => !r.write && es.any fun w => w.write && decide (r.addr < w.addr + w.len ∧ w.addr < r.addr + r.len)

/-- The checks of R89 on the extents of an operation, and on the pieces of them that it reads and writes. -/
def State.extentStatus (s : State) (init : Nat) (es pieces : List Extent) : Nat :=
  match (es.map fun e => s.rangeMapped e.addr e.len e.write).find? (· ≠ 0) with
  | some x => x
  | none =>
    if !(es.all fun e => s.granted init e.addr e.len e.write) then 0x0306 else if piecesClash pieces then 0x0307 else 0

/-- The extents of an operation of unit `u`. -/
def opExtents (u : Nat) (d : Bytes) : List Extent := if u < 4 then visExtents u d else flowExtents u d

/-- The ranges of an operation's extents. -/
def opRanges (u : Nat) (d : Bytes) : List (Nat × Nat) := (opExtents u d).map fun e => (e.addr, e.len)

/-- What an operation of unit `u` reads and writes within its extents. -/
def opPieces (u : Nat) (d : Bytes) : List Extent := if u < 4 then visPieces u d else flowPieces u d

/-- Bands of an operation of unit `u`. -/
def opBands (u : Nat) (d : Bytes) : Nat := if u < 4 then visBands u d else flowBands u d

/-- A field of PARAM, or a combination, that the chapters forbid, read from an indirect block (R322). -/
def opParamBad (u : Nat) (d : Bytes) : Bool :=
  if u < 4 then visParamBad u d || visShapeBad u d else flowParamBad u d || flowComboBad u d

/-- The status with which the admission of an operation descriptor fails, in the order of R322 and R344; 0 when it passes. The checks of
PARAM wait for the dispatch where PARAM_INDIRECT is set. -/
def opAdmit (u : Nat) (d : Bytes) : Nat :=
  if visOpBad u d || visCommonBad u d || visDstBad u d || (!vIndirect d && (if u < 4 then visParamBad u d else flowParamBad u d))
    || (vIndirect d && !allZero (sub d 0x48 56)) || (u == 3 && (vBorder d != 0 || vConst d != 0)) then 0x0601
  else if (if u < 4 then visShapeBad u d else flowShapeBad d) then 0x0602
  else if 4 ≤ u && (if vIndirect d then flowSizeBad u d else flowComboBad u d) then 0x0608
  else 0

/-! ## What an engine fetches (R94) -/

/-- The table of the operation in progress, as the dispatch has read it. -/
def VisRun.tableReader (r : VisRun) (u : Nat) (d : Bytes) : Reader := fun a n =>
  match visTable u d with
  | e :: _ => sub r.table (a - e.addr) n
  | [] => []

/-- The lines of a band, wherever the buffers hold them; what they do not hold is read where it lies. -/
def readBufs (bufs : List VisBuf) (rd : Reader) : Reader := fun a n =>
  match (bufs.flatMap (·.lines)).find? fun p => p.1 ≤ a && a + n ≤ p.1 + p.2.length with
  | some p => sub p.2 (a - p.1) n
  | none => rd a n

/-- The lines that band `k` of the operation in progress needs. -/
def VisRun.reads (r : VisRun) (u : Nat) (d : Bytes) (k : Nat) : List (Nat × Nat) :=
  if u < 4 then visReads (r.tableReader u d) u d k else flowReads u d r.setup k

/-- Band `k` reads nothing that its operation writes, so that it can be fetched ahead. -/
def opAhead (u : Nat) (d : Bytes) (k : Nat) : Bool := 4 ≤ u || visAhead u d k

/-- A band's lines pass through the cache lookup and reach a buffer of the engine (R77, R94). -/
def State.fetchBand (s : State) (u k : Nat) : State :=
  match (s.vis.at u).run with
  | none => s
  | some r =>
    match r.op with
    | none => s
    | some d =>
      if opBands u d ≤ k || !opAhead u d k then s
      else
        let l := r.reads u d k
        let s1 := l.foldl (fun s x => s.cacheTouch x.1 x.2 false false) s
        let b : VisBuf := { band := k, lines := l.map fun x => (x.1, s1.peek x.1 x.2), bad := l.any fun x => s1.isBad x.1 x.2 }
        s1.modVis u fun x => { x with run := some { r with bufs := r.bufs ++ [b] } }

end Sys2Proof.Machine
end

