-- ==== Sys2Proof/Machine/NodeOps.lean ====
section
/-! DEFINITION. What the units of every node type share: reading the work list, how far the work is, how it is closed into the record, and
how a node's unit reports a fault (R45, R61, R63, R64, R519). -/
namespace Sys2Proof.Machine
open Sys2Proof

/-! ## Work lists (R37, R474, R519) -/

/-- The initiator by which a node's unit reads its work list (R474). -/
def Ctx.initiator (c : Ctx) : Nat :=
  let n := bits c.unitMask 0 4
  match c.type with
  | 3 => initVision n
  | 4 => initSteeple (((unitsWhere 128 fun k => bit c.unitMask k).head?.getD 0) / 16)
  | 5 => initDma n
  | 6 => initDma 11
  | 7 => initPeerOut n
  | _ => initField

/-- Bytes of one work-list element as a unit takes it: a work item of a DMA or peer node is a pair of descriptors. -/
def Ctx.elemBytes (c : Ctx) : Nat :=
  match c.type with
  | 3 | 4 | 5 | 7 => 128
  | 8 => 32
  | _ => 0

/-- The bytes of element `k` of a node's work list, or the status of a failed read as R519 names it. -/
def State.readElem (s : State) (c : Ctx) (k : Nat) : Bytes × Nat × State :=
  let r := s.read c.initiator (c.workAddr + k * c.elemBytes) c.elemBytes
  (r.1, if r.2.1 = 0x0902 ∧ (c.type = 5 ∨ c.type = 7) then 0x0308 else r.2.1, r.2.2)

/-! ## The end of a node's work (R45, R61, R63, R64) -/

/-- The node's units have done all its work: the item counts of the engines that keep one say so, and a fused command's last
stage has passed every slot its first stage filled, one at least (R48). -/
def State.workDone (s : State) (i : Nat) (c : Ctx) : Bool :=
  (match aGet s.bf.fused i with
    | some f => f.passed.getLast? == f.passed.head? && f.passed.head? != some 0
    | none => true)
  && match c.type with
    | 3 => s.visionDone i c
    | 4 => s.spireDone i c
    | 5 => let e := s.mem.dma.at (bits c.unitMask 0 4); e.item.isNone && c.workCount ≤ e.itemsDone
    | 7 => s.peerDone i c
    | 8 => s.fieldDone i c
    | _ => true

/-- LAST_TILE of a node that completes: chunks for a DMA node (R93), tiles for a Spire node (R187), operations for an engine
(R340), records for a field-message node, all ones where the type counts nothing. -/
def State.lastTileOf (s : State) (i : Nat) (c : Ctx) : Nat :=
  match c.type with
  | 3 => s.visionLast i c
  | 4 => s.spireLast i c
  | 5 => let e := s.mem.dma.at (bits c.unitMask 0 4); if e.chunksDone = 0 then 0xFFFFFFFF else e.chunksDone - 1
  | 7 => s.peerLast c
  | 8 => s.fieldLast i
  | _ => 0xFFFFFFFF

/-- The 256 bytes of context `i` as CONTEXT_READ shows them: LAST_TILE of a node in progress is the last tile or item done so far (R37). -/
def State.ctxBytes (s : State) (i : Nat) (c : Ctx) : Bytes :=
  if c.state = .running ∨ c.draining then { c with lastTile := s.lastTileOf i c }.bytes else c.bytes

/-- TYPE_DATA is laid into the record of a node that ends in state `st` with `status`, and a Spire node's macro records are written
before it (R187, R339, R426). -/
def State.closeWork (s : State) (i : Nat) (c : Ctx) (st : NodeState) (status : Nat) : State :=
  match c.type with
  | 3 => s.visionClose i c
  | 4 => s.spireClose i c st status
  | 8 => s.fieldClose i
  | _ => s

/-- An engine's item is dropped when it belongs to the node: its requests in flight drain. -/
def DmaEngine.drop (e : DmaEngine) (i : Nat) : DmaEngine :=
  match e.item with
  | some it => if it.owner = .node i then { e with item := none, draining := e.draining ++ it.reqs, cancelDrain := false } else e
  | none => e

/-- The unit's work of a node that has ended is dropped: DMA items, Spire runs, engine operations, records not begun. -/
def State.dropWork (s : State) (i : Nat) (c : Ctx) (status : Nat) : State :=
  match c.type with
  | 3 => s.visionDrop i c status
  | 4 => s.spireDrop i c status
  | 5 => { s with mem := { s.mem with dma := s.mem.dma.mod (bits c.unitMask 0 4) fun e => { e.drop i with cancelDrain := false } } }
  | 7 => ({ s with mem := { s.mem with dma := s.mem.dma.mod (12 + c.port) fun e => { e.drop i with cancelDrain := false } } }).peerDrop i c
  | 8 => s.fieldDrop i
  | _ => s

/-- A node's unit reports a fault (R63): the node ends FAULTED with the unit's status, once the work in progress is dropped. A node that drains is
cancelled already, and ends so (R61). -/
def State.unitFault (s : State) (i status : Nat) : State :=
  match s.ctx? i with
  | none => s
  | some c =>
    if c.state != .running || c.draining then s
    else
      let last := s.lastTileOf i c
      ((s.closeWork i c .faulted status).faultNode i status last).dropWork i c status

end Sys2Proof.Machine
end

