-- ==== Sys2Proof/Machine/CamOps.lean ====
section
/-! DEFINITION. Shared operations of the cameras: bindings, lines and frames, epochs, the network path of a camera, the loss of an
RFE (chapters 09 to 11). -/
namespace Sys2Proof.Machine
open Sys2Proof

/-! ## The binding record (R384) -/

/-- Sensor depth of a raw data type (R228). -/
def depthOf (dt : Nat) : Nat :=
  match dt with
  | 0x2A => 8
  | 0x2B => 10
  | 0x2C => 12
  | 0x2D => 14
  | _ => 16

def bDepth (b : Bytes) : Nat := depthOf (bType b)
/-- Bits of a stored line, and bytes of a stored frame (R240). -/
def bLineBits (b : Bytes) : Nat := bW b * bDepth b
def bFrameBytes (b : Bytes) : Nat := bLineBits b * bH b / 8

/-- The whole packed groups that line `slot` of a spill ring touches: their first byte in the ring, their bytes, and the pixels of the line
before in the first of them. Lines follow one another without padding, since a frame's stored size is that of its pixels (DEDUCED, log
entry 101). -/
def ringSpan (b : Bytes) (slot : Nat) : Nat × Nat × Nat :=
  let g := rawGroup (bDepth b)
  let p := slot * bW b
  let n := g.1 * bDepth b / 8
  (p / g.1 * n, (ceilDiv (p + bW b) g.1 - p / g.1) * n, p % g.1)

/-! ## The sensor profile (R247) -/

end Sys2Proof.Machine

namespace Sys2Proof
open Sys2Proof.Machine

def SensorProfile.dE (p : SensorProfile) : Nat := bits (fld p.header 3 1) 0 4
def SensorProfile.dG (p : SensorProfile) : Nat := bits (fld p.header 3 1) 4 4
def SensorProfile.i2c (p : SensorProfile) : Bool := bit (fld p.header 2 1) 0
/-- The sensor's static address, if it has one. -/
def SensorProfile.static (p : SensorProfile) : Option Nat :=
  let a := bits (fld p.header 2 1) 1 7
  if a = 0 then none else some a
def SensorProfile.initAddr (p : SensorProfile) : Nat := fld p.header 0x1A 4
def SensorProfile.addrBytes (p : SensorProfile) : Nat := bits (fld p.header 4 1) 0 2
def SensorProfile.embAvail (p : SensorProfile) : Bool := bit (fld p.header 4 1) 2
def SensorProfile.tplN (p : SensorProfile) : Nat := fld p.header 5 1
def SensorProfile.winStart (p : SensorProfile) : Nat := fld p.header 6 2 * 1000
def SensorProfile.winGuard (p : SensorProfile) : Nat := fld p.header 8 2 * 1000
def SensorProfile.xferNs (p : SensorProfile) : Nat := fld p.header 0x0A 2
def SensorProfile.expMin (p : SensorProfile) : Nat := bits (fld p.header 0x0C 4) 0 16
def SensorProfile.expMax (p : SensorProfile) : Nat := bits (fld p.header 0x0C 4) 16 16
def SensorProfile.againMax (p : SensorProfile) : Nat := bits (fld p.header 0x10 4) 0 16
def SensorProfile.dgainMax (p : SensorProfile) : Nat := bits (fld p.header 0x10 4) 16 16
def SensorProfile.black (p : SensorProfile) : Nat := fld p.header 0x14 2
def SensorProfile.embExp (p : SensorProfile) : Nat := fld p.header 0x16 2
def SensorProfile.embGain (p : SensorProfile) : Nat := fld p.header 0x18 2

/-- The template entries of a sequence: 0 exposure, 1 gain (R248). -/
def SensorProfile.seq (p : SensorProfile) (kind : Nat) : List Nat :=
  (p.entries.take p.tplN).filter fun e => bits e 20 2 == kind || bits e 20 2 == 2

/-- A sequence's duration D in ns (R248). -/
def SensorProfile.dur (p : SensorProfile) (kind : Nat) : Nat := (p.seq kind).length * p.xferNs

/-- A defect of the static table: its column and row (R263). -/
def defectOf (e : Nat) : Nat × Nat := (bits e 0 13, bits e 13 13)

/-- Entries follow one another in strictly ascending raster order. -/
def defectsAscend : List Nat → Bool
  | a :: b :: l => decide ((defectOf a).2 < (defectOf b).2 ∨ ((defectOf a).2 = (defectOf b).2 ∧ (defectOf a).1 < (defectOf b).1))
      && defectsAscend (b :: l)
  | _ => true

/-- The static defect table is well formed (R263). -/
def SensorProfile.defectsOk (p : SensorProfile) : Bool :=
  decide (p.defects.length ≤ 4096) && p.defects.all (fun e => bits e 26 6 == 0) && defectsAscend p.defects

/-- A profile is valid (R247, R248, R263). -/
def SensorProfile.ok (p : SensorProfile) : Bool :=
  fld p.header 0 2 != 0 && 1 ≤ p.dE && p.dE ≤ 7 && 1 ≤ p.dG && p.dG ≤ 7 && (p.addrBytes == 1 || p.addrBytes == 2)
    && bits (fld p.header 4 1) 3 5 == 0 && 1 ≤ p.tplN && p.tplN ≤ 32 && p.tplN ≤ p.entries.length
    && allZero (sub p.header 0x1E 34)
    && ((p.entries.take p.tplN).all fun e => bits e 16 4 ≤ 4 && bits e 20 2 != 3 && bits e 29 3 == 0)
    && p.defectsOk

end Sys2Proof

namespace Sys2Proof.Machine
open Sys2Proof

/-! ## Access -/

/-- A camera changed. -/
def State.modCam (s : State) (c : Nat) (f : Cam → Cam) : State := { s with cams := s.cams.mod c f }
/-- An RFE changed. -/
def State.modRfe (s : State) (r : Nat) (f : Rfe → Rfe) : State := { s with rfe := s.rfe.mod r f }
/-- A sensor port changed. -/
def State.modPort (s : State) (p : Nat) (f : Port → Port) : State := { s with ports := s.ports.mod p f }
/-- An SNE changed. -/
def State.modSne (s : State) (n : Nat) (f : Sne → Sne) : State := { s with sne := s.sne.mod n f }

/-- A frame of a camera changed: the one that is open, or the oldest. -/
def Cam.modOpen (c : Cam) (f : Frame → Frame) : Cam :=
  match c.frames.getLast? with
  | some x => if c.open_ then { c with frames := c.frames.dropLast ++ [f x] } else c
  | none => c
def Cam.modHead (c : Cam) (f : Frame → Frame) : Cam :=
  match c.frames with
  | x :: xs => { c with frames := f x :: xs }
  | [] => c

/-- The vertical context of the network bound to a camera, VC of R270. -/
def Net.vt (n : Net) : Nat := fld n.header 7 1
def Net.vb (n : Net) : Nat := fld n.header 8 1
def Cam.vc (c : Cam) : Nat := match c.net with
  | some n => n.vt + n.vb
  | none => 0

/-- Bytes of the ingress FIFO beside the working lines (R270); 0 when they do not fit. -/
def fifoBytes (w vc : Nat) : Nat := 0x10_0000 - 2 * w * (40 + vc)

/-- The engine that carries an SNE's weights and records: 8 or 9, or the other once it has taken over (R448). -/
def State.sneDma (s : State) (n : Nat) : Nat :=
  let e := if n < 2 then 8 else 9
  if (s.mem.dma.at e).failed then 17 - e else e

/-- The engine that serves the pixel path: 11, or 10 once it has taken over (R448). -/
def State.pixelDma (s : State) : Nat := if (s.mem.dma.at 11).failed then 10 else 11

/-! ## Source events of an RFE (R283) -/

/-- An RFE-stage node names an event of an RFE: its event, its tap for events 0 and 1, and gives how often it signals. -/
def rfeHit (r ev tap : Nat) (c : Ctx) : Option Nat :=
  let b := fld c.inline 0 1
  if c.type = 1 ∧ bits c.unitMask 0 4 = r ∧ bits b 0 3 = ev ∧ (1 < ev ∨ bits b 3 2 = tap) then some (fld c.inline 1 1 + 1)
  else none

/-- An admitted graph names a tap: an RFE-stage node on its row-groups or its frame end (R279). -/
def State.tapNamed (s : State) (r tap : Nat) : Bool :=
  s.bf.ctxs.any fun p => (rfeHit r 0 tap p.2).isSome || (rfeHit r 1 tap p.2).isSome

/-- An SNE-network node names a camera (R305). -/
def sneHit (cam : Nat) (c : Ctx) : Option Nat :=
  if c.type = 2 ∧ bits (fld c.inline 0 1) 0 4 = cam then some (fld c.inline 1 1 + 1) else none

/-- The events of a tap's units that have been written to, or shed from, every receiver are signalled (R45, R283). -/
def State.reportUnits (s : State) (g : Nat) : State :=
  match aGet s.bf.groups g with
  | none => s
  | some q =>
    let open_ := fun (u : McUnit) => q.recvs.any fun v => v.todo.any fun x => x.frame == u.frame && x.unit == u.unit
    let gone := q.report.filter fun u => !open_ u
    gone.foldl (fun s u =>
        let s1 := s.sourceEvent u.cam u.frame u.since u.last (rfeHit u.rfe 0 u.tap)
        if u.last then s1.sourceEvent u.cam u.frame u.since true (rfeHit u.rfe 1 u.tap) else s1)
      (s.modGroup g fun q => { q with report := q.report.filter open_ })

/-! ## The switch to the classical path and returned row-groups (R268, R269, R305, R310 to R312) -/

/-- Row-groups of a frame. -/
def Cam.groupsN (c : Cam) : Nat := ceilDiv (bH c.bind) 16

/-- The lowest unit of the oldest frame that the network path has not merged. -/
def Frame.firstUnmerged (f : Frame) (units : Nat) : Nat :=
  ((List.range units).find? fun u => (aGet f.merged u).isNone).getD units

/-- An unfinished frame of a camera that leaves the network path: from its first unit not returned complete, its units come from the classical
path (R268). -/
def Frame.leaveNet (f : Frame) (groups reason : Nat) : Frame :=
  let u := f.firstUnmerged (groups * f.stripes)
  if f.classical || f.switchUnit.isSome || groups * f.stripes ≤ u then f else { f with switchUnit := some u, reason := reason }

/-- A camera switches: every frame of it in progress leaves the network path, and the switch is counted and logged with its reason (R268, R269). -/
def State.switchCam (s : State) (c reason : Nat) : State :=
  let k := s.cams.at c
  match k.net with
  | some n =>
    if !n.active then s
    else
      let s1 := s.modCam c fun k => { k with
        frames := k.frames.map fun f => f.leaveNet k.groupsN reason
        net := some { n with active := false, switched := true, sinceSwitch := 0, reason := reason, groups := [] } }
      let s2 := s1.modRfe k.rfe fun r => { r with fallbacks := satInc 8 r.fallbacks, lastStatus := 0x0516 }
      s2.event 0x0516 3 c [18 + c] (leBytes 1 reason)
  | none => s

/-- The RFE's view of a frame: what the stages of chapter 10 work on. -/
def Frame.raw (f : Frame) (k : Cam) : RawFrame :=
  { w := bW k.bind, h := bH k.bind, depth := bDepth k.bind, cfa := bCfa k.bind, rows := f.rows
    defects := k.profile.defects.map defectOf, pset := f.pset }

/-- A limit of a layer: a field of 0 means the default (R211). -/
def limitOr (v default : Nat) : Nat := if v = 0 then default else v

/-- A layer's overflow verdict (R211, R226, R315). -/
def LayerCount.overs (l : LayerCount) (p : NetLayer) : Bool := decide (limitOr p.satLimit 16 * l.values < l.sat * 65536)

/-- A layer's underflow verdict (R211, R226, R315). -/
def LayerCount.under (l : LayerCount) (p : NetLayer) : Bool :=
  decide (0 < l.nonzero ∧ limitOr p.smallLimit 32 * l.nonzero < l.small * 64)

/-- The program's layer that a count belongs to. -/
def Net.layerOf (n : Net) (l : LayerCount) : NetLayer := n.program.getD l.layer {}

/-- The 64-byte frame record of an SNE (R315), written to the camera's ring. -/
def State.sneRecord (s : State) (c : Nat) (f : Frame) (n : Net) : State :=
  let a := s.sne.at f.sne
  let flagged := n.layers.filter fun l => l.overs (n.layerOf l) || l.under (n.layerOf l)
  let sum := fun (g : LayerCount → Nat) (w : Nat) => min ((n.layers.map g).sum) (2 ^ w - 1)
  let rec_ := leBytes 4 f.num ++ leBytes 1 c ++ leBytes 1 (b2n f.classical + 4 * f.reason) ++ leBytes 2 (fld n.header 0 2)
    ++ leBytes 4 (f.switchUnit.getD (if f.classical then 0 else 0xFFFFFFFF)) ++ leBytes 2 n.unitsNet ++ leBytes 1 a.inService
    ++ zeros 1 ++ leBytes 4 (n.minSlack.getD 0xFFFFFFFF)
    ++ leBytes 4 (sum (·.sat) 32) ++ leBytes 4 (sum (·.small) 32) ++ leBytes 4 (sum (·.nonzero) 32)
    ++ leBytes 2 (sum (·.invalid) 16)
    ++ leBytes 1 (b2n (n.layers.any fun l => l.overs (n.layerOf l)) + 2 * b2n (n.layers.any fun l => l.under (n.layerOf l)))
    ++ leBytes 1 (min flagged.length 255)
    ++ leBytes 2 (match flagged.head? with
      | some l => l.layer
      | none => 0xFFFF)
    ++ zeros 2 ++ leBytes 8 n.tDone ++ zeros 16
  let entries := bits (fld n.bindRec 0x18 8) 40 6 + 1
  let s1 := s.record (initDma (s.sneDma f.sne)) (bits (fld n.bindRec 0x18 8) 0 40 + 64 * (n.ringNext % entries)) rec_
  let s2 := s1.modCam c fun k => { k with net := some { n with
    ringNext := (n.ringNext + 1) % entries, unitsNet := 0, minSlack := none, layers := [] } }
  if bits (fld n.header 9 1) 0 2 = 1 ∧ flagged ≠ [] then s2.raise (18 + c) else s2

/-- The frame has had its end and every row-group has been returned: the SNE's frame record is due (R315). -/
def State.sneFrameEnd (s : State) (c : Nat) : State :=
  let k := s.cams.at c
  match k.net, k.frames with
  | some n, f :: _ => if f.tFe.isSome && f.returned == k.groupsN && f.stripes != 0 && !f.sneDone then
      (s.sneRecord c f n).modCam c fun k => k.modHead fun f => { f with sneDone := true }
    else s
  | _, _ => s

/-- Row-group `returned` of the oldest frame is returned, its last unit merged now: the SNE-network nodes are signalled (R305, R315). -/
def State.returnGroup (s : State) (c : Nat) : State :=
  let k := s.cams.at c
  match k.frames with
  | f :: _ =>
    let s1 := s.modCam c fun k => { k.modHead fun f => { f with returned := f.returned + 1 } with
      net := k.net.map fun n => { n with tDone := s.dev } }
    (s1.sourceEvent c f.num f.since (f.returned + 1 == k.groupsN) (sneHit c)).sneFrameEnd c
  | [] => s

/-- Row-groups whose lines have left stage 5: line min(H - 1, 16r + 15 + VB) has been read (R303), and so have the two lines below it that stage 3
takes as neighbours (R263; DEDUCED, log entry 152). -/
def readyGroups (h vb rows : Nat) : Nat :=
  ((List.range (ceilDiv h 16)).filter fun r => min (h - 1) (16 * r + 17 + vb) < rows).length

/-- A row-group may be returned: read, and every unit of it merged or taken from the classical path. -/
def Cam.mayReturn (c : Cam) (f : Frame) : Bool :=
  let vb := match c.net with
    | some n => if f.stripes ≠ 0 then n.vb else 0
    | none => 0
  f.returned < readyGroups (bH c.bind) vb f.rows.length
    && (f.stripes == 0 || f.classical || (List.range f.stripes).all fun st =>
      let u := f.returned * f.stripes + st
      (aGet f.merged u).isSome || match f.switchUnit with
        | some sw => sw ≤ u
        | none => false)

/-- Every row-group that may be returned is. -/
def State.returnGroups (s : State) (c : Nat) : Nat → State
  | 0 => s
  | fuel + 1 =>
    let k := s.cams.at c
    match k.frames with
    | f :: _ => if k.mayReturn f then (s.returnGroup c).returnGroups c fuel else s
    | [] => s

/-- A camera falls back to the classical path, and the row-groups that may now be returned are (R268, R305). -/
def State.fallBack (s : State) (c reason : Nat) : State :=
  (s.switchCam c reason).returnGroups c (s.cams.at c).groupsN

/-! ## The loss of an RFE, camera stops and bindings that end (R235, R290, R309) -/

/-- A camera uses an RFE, or will from its next frame start. -/
def State.rfeUsed (s : State) (r : Nat) : Bool :=
  s.cams.toList.any fun k => k.bound && (k.rfe == r || k.nextRfe == some r)

/-- The lowest RFE free for a camera: not failed, not in use. -/
def State.freeRfe (s : State) : Option Nat :=
  (List.range 16).find? fun r => !(s.rfe.at r).failed && !s.rfeUsed r

/-- A camera stops at its next frame start with a status (R235, R257). -/
def State.stopCam (s : State) (c status : Nat) : State :=
  s.modCam c fun k => if k.bound then { k with stopDue := some status } else k

/-- The type 0x1 contexts that name a camera's old RFE name the new one (R65, R383). -/
def State.moveRfe (s : State) (old new : Nat) : State :=
  let mv := fun (p : Nat × Ctx) =>
    if p.2.type == 1 && bits p.2.unitMask 0 4 == old then
      (p.1, { p.2 with prog := putBytes p.2.prog 0x50 (leBytes 16 (setBits p.2.unitMask 0 4 new)) })
    else p
  { s.modBf fun b => { b with ctxs := b.ctxs.map mv } with power := { s.power with rfeGated := s.power.rfeGated.mod new fun _ => false } }

/-- The type 0x2 contexts of a camera name the SNE of its binding (R305). -/
def State.moveSne (s : State) (c sn : Nat) : State :=
  let mv := fun (p : Nat × Ctx) =>
    if p.2.type == 2 && bits (fld p.2.inline 0 1) 0 4 == c then
      (p.1, { p.2 with prog := putBytes p.2.prog 0x50 (leBytes 16 (setBits p.2.unitMask 0 4 sn)) })
    else p
  s.modBf fun b => { b with ctxs := b.ctxs.map mv }

/-- `[a, a + n)` is DRAM that firmware may give to a buffer: within the region, clear of the staging area of R464, of every admitted graph's
buffers and of every bound camera's spill ring (R240, R104). -/
def State.dramFree (s : State) (a n : Nat) : Bool :=
  a + n + 0x40_0000 ≤ s.dramEnd && (s.mem.dramHeld.all fun d => decide (a + n ≤ d.1 ∨ d.1 + d.2.1 ≤ a))
    && s.cams.toList.all fun k => !k.bound
      || decide (a + n ≤ bSpill k.bind ∨ bSpill k.bind + bSpillFrames k.bind * bFrameBytes k.bind ≤ a)

/-- A camera of which an RFE has failed, its own or the one it was to move to, moves to a free RFE at its next frame start, or stops there (R235). -/
def State.rehome (s : State) (r c : Nat) : State :=
  let k := s.cams.at c
  if !k.bound || !((k.rfe == r && k.nextRfe.isNone) || k.nextRfe == some r) then s
  else match s.freeRfe with
    | some q => s.modCam c fun x => { x with nextRfe := some q }
    | none => (s.modCam c fun x => { x with nextRfe := none }).stopCam c 0x0513

/-- An RFE fails: its frames in progress are lost; logged, marked failed, and its camera rebinds to a free RFE at its next frame start, or stops there (R235, R290). -/
def State.failRfe (s : State) (r : Nat) : State :=
  if (s.rfe.at r).failed then s
  else
    let lose := fun (k : Cam) =>
      if k.frames.any (·.rfe == r) then
        { k with lines := [], frames := (k.frames.filter fun f => k.open_ && some f == k.frames.getLast?).map fun f => { f with dropped := true }
                 net := k.net.map fun n => { n with groups := [], unitsNet := 0, minSlack := none, layers := [] } }
      else k
    let s0 := { s with cams := s.cams.map lose }
    let s1 := ((s0.modRfe r fun x => { x with failed := true, lastStatus := 0x051F }).event 0x051F 3 r [50]).updateHealth
    (List.range 16).foldl (fun s c => s.rehome r c) s1

/-- The network of a camera is unbound; its image leaves the store when no other camera uses it (R309). A binding that still waits for its
weights fails: its camera is unbound (R307). -/
def State.dropNet (s : State) (c : Nat) : State :=
  match (s.cams.at c).net with
  | none => s
  | some n =>
    let img := bits (fld n.bindRec 0x10 8) 0 40
    let sn := bits (fld n.bindRec 1 1) 0 2
    let used := (List.range 16).any fun d => d ≠ c && match (s.cams.at d).net with
      | some m => bits (fld m.bindRec 0x10 8) 0 40 == img && bits (fld m.bindRec 1 1) 0 2 == sn
      | none => false
    let s1 := s.modCam c fun k => { k with net := none }
    let s2 := match n.pair with
      | some p => s1.respond p 0x0425 4 (zeros 12)
      | none => s1
    if used then s2 else s2.modSne sn fun x => { x with images := x.images.filter (·.1 != img) }

/-- A camera's binding ends: its port entry, RFE, group membership and network go with it (R235). -/
def State.unbindCam (s : State) (c : Nat) : State :=
  let k := s.cams.at c
  if !k.bound then s
  else
    let s1 := (s.dropNet c).modPort (bPort k.bind) fun p =>
      { p with vcMap := p.vcMap.map fun e => if e.valid && e.camera == c then { e with valid := false } else e }
    let s1 := s1.modPort (bPort k.bind) fun p =>
      if p.vcMap.toList.any (·.valid) then p else { p with enable := false, locked := false, deskewed := false }
    let s2 := s1.modRfe k.rfe fun r => if r.camera = c ∧ !r.failed then { r with enable := false } else r
    let g := bGroup k.bind
    let s3 := if bMember k.bind then
        { s2 with genlock := s2.genlock.mod g fun q =>
          let ms := q.members.filter (· != c)
          if ms.isEmpty then {} else { q with members := ms, lead := if q.lead = some c then none else q.lead } }
      else s2
    let s4 := s3.modCam c fun _ => { frameNo := k.frameNo, lastAccepted := k.lastAccepted, drops := k.drops, ringLost := k.ringLost }
    (({ s4 with reliab := { s4.reliab with camStopped := s4.reliab.camStopped.filter (· ≠ c) } }).calOff).updateHealth

/-! ## Lines and frames (R231, R232, R241) -/

/-- A repaired line: a copy of the previous good line of the frame, or the black level (R231). -/
def Cam.repairLine (c : Cam) (f : Frame) : List Nat :=
  if f.lastGood.isEmpty then List.replicate (bW c.bind) c.profile.black else f.lastGood

/-- Line slots of a camera's spill ring, each a credit of the ring writer while it is free (R240, R241). -/
def ringSlots (b : Bytes) : Nat := bSpillFrames b * bH b

/-- The ring writer has a credit: some slot of the ring is free (R241). -/
def Cam.ringFree (c : Cam) : Bool := decide ((c.lines.filter fun l => l.slot.isSome).length < ringSlots c.bind)

/-- A line enters the FIFO directly: the ring is empty, and the FIFO has room for it (R241). -/
def Cam.fifoTakes (c : Cam) : Bool :=
  !c.spilling && decide ((c.lines.length + 1) * bLineBits c.bind ≤ 8 * fifoBytes (bW c.bind) c.vc)

/-- Bytes of a line in the FIFO. -/
def Cam.lineBytes (c : Cam) : Nat := ceilDiv (bW c.bind * bDepth c.bind) 8

/-- Where line `n` of a frame stands in the line buffer of a camera's RFE: the lines of a frame follow each other round a FIFO of 256 KiB at the
buffer's start (DESIGN CHOICE; log entry 120). -/
def Cam.fifoPlace (c : Cam) (n : Nat) : Nat := 0x43_0000_0000 + c.rfe * 0x10_0000 + n * c.lineBytes % 0x4_0000

/-- Line `n` of a frame enters the FIFO: the words that it covers whole are good again (R434). -/
def State.fifoPut (s : State) (c n : Nat) : State :=
  { s with mem := { s.mem with bad := s.badAfter ((s.cams.at c).fifoPlace n) (s.cams.at c).lineBytes } }

/-- A line is written to the ring in its packing, beside what the groups that it shares with its neighbours hold (R240, R241). -/
def State.ringPut (s : State) (c slot : Nat) (codes : List Nat) : State :=
  let b := (s.cams.at c).bind
  let sp := ringSpan b slot
  let a := bSpill b + sp.1
  let old := unpackRaw (bDepth b) (s.peek a sp.2.1)
  s.record (initDma s.pixelDma) a (packRaw (bDepth b) (old.take sp.2.2 ++ codes ++ old.drop (sp.2.2 + bW b)))

/-- The oldest line that waits in the FIFO for a credit passes to the ring, when there is one (R241; DEDUCED, log entry 85). -/
def State.spillNext (s : State) (c : Nat) : State :=
  let k := s.cams.at c
  let ahead := k.lines.takeWhile fun l => l.slot.isNone
  let ring := (k.lines.drop ahead.length).takeWhile fun l => l.slot.isSome
  match (k.lines.drop (ahead.length + ring.length)) with
  | l :: rest =>
    if ring.isEmpty || !k.ringFree then s
    else
      let slot := k.ringNext % max (ringSlots k.bind) 1
      (s.ringPut c slot l.codes).modCam c fun k => { k with
        ringNext := (slot + 1) % max (ringSlots k.bind) 1, lines := ahead ++ ring ++ [{ l with codes := [], slot := some slot }] ++ rest }
  | [] => s

/-- A line of the open frame enters the FIFO, or, when the FIFO is full or the ring in use, the spill ring; without a credit it waits in the FIFO
for one, so that no line is overwritten (R241). `flag` sets REPAIRED in the frame's metadata (R232). -/
def State.pushLine (s : State) (c : Nat) (codes : List Nat) (repaired flag : Bool) : State :=
  let k := s.cams.at c
  let f := (k.frames.getLast?).getD {}
  let spill := !k.fifoTakes && k.ringFree
  let slot := k.ringNext % max (ringSlots k.bind) 1
  let s1 := if spill then s.ringPut c slot codes else s.fifoPut c f.arrived
  s1.modCam c fun k => { k.modOpen fun f => { f with
      arrived := f.arrived + 1, lastGood := if repaired then f.lastGood else codes
      repaired := f.repaired || flag, repairedLines := f.repairedLines + b2n repaired } with
    ringNext := if spill then (slot + 1) % max (ringSlots k.bind) 1 else k.ringNext
    lines := k.lines ++ [{ frame := f.num, codes := if spill then [] else codes
                           slot := if spill then some slot else none }] }

/-- A line arrives for a camera's open frame: brought to the bound width; an excess line or a line of a dropped frame is discarded
(R232, R242). `codes` is none for a line that did not arrive whole. -/
def State.deliverLine (s : State) (c : Nat) (codes : Option (List Nat)) : State :=
  let k := s.cams.at c
  if !k.open_ then s
  else match k.frames.getLast? with
    | none => s
    | some f =>
      if f.dropped then s.modCam c fun k => k.modOpen fun f => { f with arrived := f.arrived + 1 }
      else if bH k.bind ≤ f.arrived then s.modCam c fun k => k.modOpen fun f => { f with long := true }
      else match codes with
        | none => s.pushLine c (k.repairLine f) true true
        | some l =>
          let w := bW k.bind
          let l1 := (l ++ List.replicate (w - l.length) (l.getLast?.getD k.profile.black)).take w
          let s1 := s.pushLine c l1 false false
          if l.length = w then s1 else s1.modCam c fun k => k.modOpen fun f => { f with repaired := true }

/-- Missing lines at a frame's end are repaired (R232). -/
def State.fillFrame (s : State) (c : Nat) : Nat → State
  | 0 => s
  | n + 1 =>
    let k := s.cams.at c
    match k.frames.getLast? with
    | some f => (s.pushLine c (k.repairLine f) true false).fillFrame c n
    | none => s

/-- The SCU reads embedded line 0: parsing is enabled at binding, and the profile says that the sensor offers it (R247, R254). -/
def Cam.parsesEmbedded (k : Cam) : Bool := bEmbedded k.bind && k.profile.embAvail

/-- Embedded data of the open frame has no match: the epoch is unknown, and the frame is flagged and counted (R254). -/
def Cam.unmatchedEpoch (k : Cam) : Cam :=
  { k.modOpen fun f => { f with epoch := 0xFFFF, unmatched := true } with epoch := 0xFFFF, unmatched := satInc 16 k.unmatched }

/-- Parsing is on and no embedded line of the open frame has come (R254). -/
def Cam.noEmbedded (k : Cam) : Cam :=
  match k.frames.getLast? with
  | some f => if k.parsesEmbedded && f.embSeen == 0 then k.unmatchedEpoch else k
  | none => k

/-- A stamp of a packet of the open frame: a step of DEVTIME since the last one is flagged in that frame's metadata (R237). -/
def Cam.stampStep (c : Cam) : Cam :=
  if c.stepped && c.open_ then { c.modOpen (fun f => { f with timeStep := true }) with stepped := false } else c

/-- The open frame ends at its bound shape (R232): at its frame-end packet, which is stamped, or `short` without one. With embedded data parsed, a
frame of which no embedded line has come has matched nothing (R254). A dropped frame leaves no trace but its number. -/
def State.endFrame (s : State) (c : Nat) (short : Bool) : State :=
  let k := s.cams.at c
  match k.frames.getLast? with
  | none => s
  | some f =>
    if !k.open_ then s
    else if f.dropped then
      s.modCam c fun k => { k with open_ := false, frames := k.frames.dropLast, feLast := some (f.num, s.now), feTimes := keepLast 16 (k.feTimes ++ [s.now]) }
    else
      let missing := bH k.bind - f.arrived
      let s1 := s.fillFrame c missing
      let s2 := s1.modCam c fun k => { (if short then k else k.stampStep).noEmbedded.modOpen fun f => { f with
          tFe := some s.dev, short := f.short || short || missing != 0 } with
        feLast := some (f.num, s.now), feTimes := keepLast 16 (k.feTimes ++ [s.now]) }
      (s2.modCam c fun k => { k with open_ := false }).sneFrameEnd c

end Sys2Proof.Machine
end

