-- ==== Sys2Proof/Machine/SneOps.lean ====
section
/-! DEFINITION. Shared operations of the stripe network engines: headers, budgets and admission, re-admission after an array is
lost, and the network image's check (chapter 11). -/
namespace Sys2Proof.Machine
open Sys2Proof

/-! ## The binding record and the header (R299, R306) -/

/-- A binding record is malformed: a reserved field, an unaligned image, a ring of one entry, or a period of 0 (R306). -/
def netRecBad (r : Bytes) : Bool :=
  bits (fld r 0 1) 4 4 != 0 || bits (fld r 1 1) 2 6 != 0 || bits (fld r 2 1) 4 4 != 0 || fld r 0x0C 4 != 0
    || bits (fld r 0x10 8) 40 24 != 0 || nImage r % 256 != 0 || bits (fld r 0x18 8) 46 18 != 0 || bits (fld r 0x18 8) 40 6 == 0
    || nLineNs r == 0 || nFrameNs r == 0

/-- A header is invalid under R299. -/
def headerBad (h : Bytes) : Bool :=
  hNetId h == 0 || bits (fld h 2 1) 3 5 != 0 || bits (fld h 3 1) 4 4 != 0 || !([1, 2, 4, 5].contains (hInFmt h))
    || hSw h < 64 || 1024 < hSw h || hSw h % 2 != 0 || 32 < hHalo h || 32 < hVt h || 32 < hVb h || bits (fld h 9 1) 2 6 != 0
    || 255 < fld h 0x0A 2 || hMacs h == 0 || hWeights h == 0 || 786432 < hWeights h || hSb h == 0 || 262144 < hSb h
    || hWeightOff h % 256 != 0 || hProgOff h % 256 != 0 || !allZero (sub h 0x30 16)

/-- An image's weights and program match CHECK (R299): the CRC runs over the weights and then the program. -/
def State.imageOk (s : State) (sn image : Nat) (h : Bytes) : Bool :=
  let w := s.read (initDma (s.sneDma sn)) (image + hWeightOff h) (hWeights h)
  let p := s.read (initDma (s.sneDma sn)) (image + hProgOff h) (hProgBytes h)
  w.2.1 == 0 && (hProgBytes h == 0 || p.2.1 == 0) && crc32 (w.1 ++ p.1) == hCheck h

/-- A layer program names a format that an SNE array or its drain does not take (R22, R106, R107). -/
def layerFormatBad (l : NetLayer) : Bool := !sneMultiplicandOk l.a true || !sneMultiplicandOk l.b false || !drainOk l.out

/-- Check 2 of R307 on one layer: its formats, its pair, its trap bits, its QPOLICY and DUAL (R107, R114, R226, R293; DEDUCED, log entry 117). -/
def layerStatus (l : NetLayer) : Nat :=
  if layerFormatBad l then 0x0401 else if (pathOf l.a l.b).isNone then 0x0402 else if l.traps ≠ 0 ∨ 1 < l.qpolicy ∨ l.dual then 0x0416 else 0

/-- Check 2 on a layer program: the first layer that fails it says why. -/
def layersStatus (ls : List NetLayer) : Nat := (ls.map layerStatus).find? (· ≠ 0) |>.getD 0

/-! ## A unit's input and output (R294 to R297) -/

/-- A position reflected about the edge samples into `[0, n)`, as often as it takes (R295). -/
def reflect (n : Nat) (i : Int) : Nat :=
  let p : Int := 2 * ((n : Int) - 1)
  let j := if p ≤ 0 then 0 else i % p
  (if j < n then j else p - j).toNat

/-- A stage-5 value as the stripe port hands it on: in IN_FMT, scaled, offset and rounded once (R296). -/
def stripeCode (h : Bytes) (x : Int) : Nat :=
  (convert (hInFmt h) false false (drainVal (Val.ofInt x (-16)) (some (val32 (fld h 0x18 4))) (some (val32 (fld h 0x1C 4))))).1

/-- What the stripe port reads for a unit: its lines with their context, its columns with their halo, line by line (R295, R296). -/
def stripeInput (h : Bytes) (f : RawFrame) (group stripe : Nat) : Bytes :=
  (List.range (16 + hVt h + hVb h)).flatMap fun dy => (List.range (hSw h + 2 * hHalo h)).flatMap fun dx =>
    let y := reflect f.h ((16 * group + dy : Nat) - (hVt h : Int))
    let x := reflect f.w ((stripe * hSw h + dx : Nat) - (hHalo h : Int))
    leBytes 1 (stripeCode h (f.s5 x y))

/-- The bytes that stand for a network: its header, the weights as its SNE holds them, and its layer program as loaded (R300). -/
def State.netImage (s : State) (n : Net) : Bytes :=
  let sn := nSne n.bindRec
  let off := ((s.sne.at sn).images.find? (·.1 == nImage n.bindRec)).map (·.2.1)
  n.header ++ s.peek (0x42_0000_0000 + sn * 0x10_0000 + off.getD 0) (hWeights n.header)
    ++ n.code

/-- The INT16 codes that a unit returns: its lines below H, its columns below W (R294, R295, R297). -/
def stripeOutput (h image input : Bytes) (f : RawFrame) (group stripe : Nat) : Bytes :=
  let ch := if f.mono then 1 else 3
  (List.range (min 16 (f.h - 16 * group))).flatMap fun y => (List.range (min (hSw h) (f.w - stripe * hSw h))).flatMap fun x =>
    (List.range ch).flatMap fun c => leBytes 2 (Config.networkCode image input ((y * hSw h + x) * ch + c)).toNat

/-- The drains' counts of a unit, layer by layer (R209, R226, R315). -/
def stripeCounts (layers : Nat) (image input : Bytes) : List LayerCount :=
  (List.range layers).map fun l =>
    let c := Config.networkCount image input l
    { layer := l, sat := c 0, small := c 1, nonzero := c 2, invalid := c 3, values := c 4 }

/-! ## Budgets (R298, R300 to R302) -/

/-- U_a in cycles (R298). -/
def unitCycles (h : Bytes) (a : Nat) : Nat := ceilDiv (hMacs h * hSw h * 16) (max (a * 1024) 1)

/-- F in cycles (R298): one byte per input value. -/
def fetchCycles (h : Bytes) : Nat := ceilDiv ((hSw h + 2 * hHalo h) * (16 + hVt h + hVb h)) 64

/-- Sum of a header field over the distinct images of a list of bindings. -/
def imageSum (f : Bytes → Nat) : List NetRef → List Nat → Nat
  | [], _ => 0
  | x :: xs, seen => if seen.contains (nImage x.2.1) then imageSum f xs seen else f x.2.2 + imageSum f xs (nImage x.2.1 :: seen)

/-- What a failed check reports: check, status, NEEDED, AVAILABLE (R307, R308). -/
structure NetVerdict where
  check : Nat := 0
  status : Nat := 0
  needed : Nat := 0
  available : Nat := 0
  deriving DecidableEq, Repr, Inhabited

/-- Checks 5 and 6: the stores (R300). -/
def storeCheck (chk status cap : Nat) (f : Bytes → Nat) (store : List NetRef) (x : NetRef) : Option NetVerdict :=
  let used := imageSum f store []
  let need := if store.any fun y => nImage y.2.1 == nImage x.2.1 then 0 else f x.2.2
  if cap < used + need then some { check := chk, status := status, needed := need, available := cap - used } else none

/-- Check 8, the frame check (R301), at `a` arrays. -/
def State.frameCheck (s : State) (kept : List NetRef) (x : NetRef) (a : Nat) : Option NetVerdict :=
  let ld := fun (y : NetRef) => frameLoad (s.cams.at y.1) y.2.1 y.2.2
  let others := (kept.map ld).foldl fracAdd (0, 1)
  let all := fracAdd others (ld x)
  let cap := a * 1088000000000
  if all.1 ≤ cap * all.2 then none
  else
    let k := s.cams.at x.1
    let num := (cap * others.2 - others.1) * nFrameNs x.2.1
    let den := others.2 * (bW k.bind * bH k.bind * 1000000000)
    some { check := 8, status := 0x041B, needed := hMacs x.2.2, available := num / max den 1 }

/-- Check 9, the line check (R302): the load against the supply less the one unit that cannot be interrupted, in MACs per us. -/
def State.lineCheck (s : State) (kept : List NetRef) (x : NetRef) (a : Nat) : Option NetVerdict :=
  let all := kept ++ [x]
  let load := (all.map fun y => lineLoad (s.cams.at y.1) y.2.1 y.2.2).foldl fracAdd (0, 1)
  let worst := (all.map fun y => unitCycles y.2.2 a + fetchCycles y.2.2).foldl max 0
  let line := (all.map fun y => nLineNs y.2.1).foldl min (nLineNs x.2.1)
  let capNum := a * 1280000000000 * (20 * line - worst)
  let capDen := 20 * line
  if load.1 * capDen ≤ capNum * load.2 then none
  else some { check := 9, status := 0x041C, needed := ceilDiv load.1 (load.2 * 1000000), available := capNum / max (capDen * 1000000) 1 }

/-- Checks 5 to 9 of R307 for a binding beside those kept; the stores hold every bound image, refused ones among them. -/
def State.netFits (s : State) (store kept : List NetRef) (x : NetRef) (a : Nat) : Option NetVerdict :=
  let k := s.cams.at x.1
  let vc := hVt x.2.2 + hVb x.2.2
  match storeCheck 5 0x041A 786432 hWeights store x with
  | some v => some v
  | none => match storeCheck 6 0x041D 262144 hSb store x with
    | some v => some v
    | none =>
      if fifoBytes (bW k.bind) vc < 0x4_0000 then
        some { check := 7, status := 0x0515, needed := vc, available := 786432 / (2 * max (bW k.bind) 1) - 40 }
      else match s.frameCheck kept x a with
        | some v => some v
        | none => s.lineCheck kept x a

/-- The 16-byte result of R308, after STATUS and DETAIL. -/
def NetVerdict.tail (v : NetVerdict) : Bytes :=
  leBytes 4 (min v.needed (2 ^ 32 - 1)) ++ leBytes 4 (min v.available (2 ^ 32 - 1)) ++ leBytes 4 (min (v.needed - v.available) (2 ^ 32 - 1))

/-! ## Re-admission (R314) -/

/-- One binding met by re-admission: kept with those before it, or refused with REASON 3, and 0x0426 is logged with the result of R308. -/
def State.readmitOne (s : State) (a : Nat) (acc : State × List NetRef) (x : NetRef) : State × List NetRef :=
  match (acc.1.cams.at x.1).net with
  | none => acc
  | some n =>
    match s.netFits acc.2 acc.2 x a with
    | none =>
      (acc.1.modCam x.1 fun k => { k with net := some { n with refused := false } }, acc.2 ++ [x])
    | some v =>
      if n.refused then acc
      else
        let s1 := acc.1.fallBack x.1 3
        let s2 := s1.modCam x.1 fun k => { k with net := k.net.map fun n => { n with refused := true, active := false, switched := true, reason := 3, groups := [] } }
        (s2.event 0x0426 2 (nSne x.2.1) [50] (leBytes 2 v.status ++ leBytes 2 v.check ++ v.tail), acc.2)

/-- A binding that an earlier re-admission refused. -/
def State.netRefused (s : State) (x : NetRef) : Bool := ((s.cams.at x.1).net.map (·.refused)).getD false

/-- Firmware re-admits an SNE's bindings at the arrays now in service; one refused before does not return by this. -/
def State.readmit (s : State) (sn : Nat) : State :=
  (((s.netsOn sn).filter fun x => !s.netRefused x).foldl (fun acc x => s.readmitOne (s.sne.at sn).inService acc x) (s, [])).1

/-- After an unbinding makes room, refused bindings are tried again beside those that are kept. -/
def State.readmitAfterDrop (s : State) (sn : Nat) : State :=
  let on := s.netsOn sn
  ((on.filter s.netRefused).foldl (fun acc x => s.readmitOne (s.sne.at sn).inService acc x) (s, on.filter fun x => !s.netRefused x)).1

/-- A camera's network is admitted on its SNE with the arrays now in service, beside the bindings that are kept there (R311). -/
def State.admittedNow (s : State) (c : Nat) (n : Net) : Bool :=
  let sn := nSne n.bindRec
  let others := (s.netsOn sn).filter fun x => x.1 != c && !s.netRefused x
  !n.refused && (s.netFits others others (c, n.bindRec, n.header) (s.sne.at sn).inService).isNone

/-- An unbinding that has taken effect is complete once no frame that began with the network is left: refused bindings of the SNE are tried
again (R309, R314; DEDUCED, log entry 153). -/
def State.endNet (s : State) (c : Nat) : State :=
  match (s.cams.at c).net with
  | some n =>
    if n.ending && !((s.cams.at c).frames.any fun f => f.stripes != 0) then (s.dropNet c).readmitAfterDrop (nSne n.bindRec) else s
  | none => s

/-- A camera's binding ends, and its network's with it: refused bindings of the SNE are tried again (R235, R314). -/
def State.endCam (s : State) (c : Nat) : State :=
  match (s.cams.at c).net with
  | none => s.unbindCam c
  | some n => (s.unbindCam c).readmitAfterDrop (nSne n.bindRec)

/-! ## Failures (R310, R314, R316) -/

/-- The record of an event is the switch that camera `c` has made at `dev` for a missed deadline. -/
def missRecord (c dev : Nat) (b : Bytes) : Bool :=
  fld b 0 2 == 0x0516 && fld b 2 1 == 3 && fld b 3 1 == c && fld b 8 8 == dev && fld b 16 1 == 2

/-- The event of a switch that a camera has made in this cycle carries REASON 1, in the logs and in the message (R310). -/
def State.amendSwitch (s : State) (c : Nat) : State :=
  let fix := fun (b : Bytes) => if missRecord c s.dev b then putBytes b 16 (leBytes 1 1) else b
  let s1 := { s with watch := { s.watch with
    evLog := { s.watch.evLog with recs := s.watch.evLog.recs.map fix }
    ret := { s.watch.ret with events := s.watch.ret.events.map fix } } }
  let q := s.pci.pairs.at s.pci.eventPair
  ((List.range q.rspEntries).map fun k => q.rspBase + k * 4096 + 16).foldl (fun s a =>
    if missRecord c s.dev (memRead s.mem.host a 32) then s.hostPut (a + 16) (leBytes 1 1) else s) s1

/-- A fault found in the cycle of a deadline: a camera that has just switched for the deadline takes REASON 1, and that switch is no
miss (R310, R312; DEDUCED, log entry 142). -/
def State.faultWins (s : State) (c : Nat) : State :=
  match (s.cams.at c).net with
  | some n =>
    if n.misses.getLast? = some s.now ∧ n.reason = 2 then
      (s.modCam c fun k => ({ k with net := some { n with
          reason := 1, misses := n.misses.dropLast, suspended := n.suspended && n.misses.length != 8 } }).modHead
        fun f => if f.reason = 2 then { f with reason := 1 } else f).amendSwitch c
    else s
  | none => s

/-- Cameras switch with REASON 1, and row-groups that now come from the classical path are returned. -/
def State.switchAll (s : State) (cs : List Nat) : State :=
  cs.foldl (fun s c => (s.faultWins c).fallBack c 1) s

/-- An SNE fails: every camera bound to it switches with REASON 1. -/
def State.failSne (s : State) (sn : Nat) : State :=
  if (s.sne.at sn).failed then s
  else
    let s1 := (s.modSne sn fun x => { x with failed := true, unit := none, lastStatus := 0x0423 }).event 0x0423 2 sn [50]
    (s1.switchAll ((s1.netsOn sn).map (·.1))).updateHealth

/-- An array of an SNE is lost beyond its spares: the bindings are re-admitted, and an SNE with no array in service is failed (R314). -/
def State.loseArray (s : State) (sn a : Nat) : State :=
  let s1 := s.modSne sn fun x => { x with
    lastStatus := 0x0422, arrays := x.arrays.mod a fun y => { y with retired := true, selftest := false, rowDue := none } }
  let s2 := ({ s1 with flash := { s1.flash with repairDue := true } }).event 0x0422 2 sn [50]
  if (s2.sne.at sn).inService = 0 then s2.failSne sn else (s2.readmit sn).updateHealth

end Sys2Proof.Machine
end

