-- ==== Sys2Proof/Machine/UnitOps.lean ====
section
/-! DEFINITION. The operations that several families of units share: DMA items, work counters, the loss of cores and engines, corrected
errors, wear and spares, power gates (R70, R80, R93, R156, R433 to R451, R488). -/
namespace Sys2Proof.Machine
open Sys2Proof

/-! ## The end of a work item (R93, R96, R97) -/

/-- A DMA engine changed. -/
def State.modDma (s : State) (e : Nat) (f : DmaEngine → DmaEngine) : State :=
  { s with mem := { s.mem with dma := s.mem.dma.mod e f } }

/-- A work item ends FAULTED with a status: the engine reports it, requests in flight drain, and its owner ends with it. Chunks
completed keep their writes (R90, R96). -/
def State.dmaFault (s : State) (e : Nat) (it : DmaItem) (status : Nat) : State :=
  let s1 := s.modDma e fun d => { d with item := none, draining := d.draining ++ it.reqs, fault := true, lastStatus := status }
  match it.owner with
  | .node i => s1.unitFault i status
  | .copy p => s1.respond p status 0 (leBytes 4 it.chunksDone)

/-- A DMA engine's write of a request window returned a status other than 0: its work item ends FAULTED with it, and its earlier
chunks stand (R63, R250). -/
def State.windowFault (s : State) (e status : Nat) : State :=
  match (s.mem.dma.at e).item with
  | some it => if (s.mem.dma.at e).cancelDrain then s else s.dmaFault e it status
  | none => s

/-- Bytes `[off, off + n)` of an item as its staging buffer holds them. -/
def DmaItem.stagedBytes (it : DmaItem) (off n : Nat) : Bytes :=
  (List.range n).map fun k =>
    match it.staged.find? fun p => p.1 ≤ off + k && off + k < p.1 + p.2.length with
    | some p => p.2.getD (off + k - p.1) 0
    | none => 0

/-- Where the block stands that holds address `a` of a compressed frame in the buffer of `size` bytes at `base`: its header byte, its slot and the slot's
length. A block that memory holds says so itself; otherwise the size does: as many header bytes as slots, of 128 x 2 stored pixels each
(R98, R240; DESIGN CHOICE, log entry 12). -/
def State.rawPlace (s : State) (base size a : Nat) : Option (Nat × Nat × Nat) :=
  match s.rawBlockAt a with
  | some b => some (b.head, b.addr, b.plain.length)
  | none => ([8, 10, 12, 14, 16].find? fun d => size % (32 * d + 1) = 0 ∧ base + size / (32 * d + 1) ≤ a ∧ a < base + size).map fun d =>
      let n := size / (32 * d + 1)
      let j := (a - base - n) / (32 * d)
      (base + j, base + n + 32 * d * j, 32 * d)

/-- Plain bytes go to a compressed frame block by block: each block is decoded, takes its bytes and is stored again, LOSSLESS, since no mode but a raw
tap's is given and no other keeps what it does not change (R98 to R100; DESIGN CHOICE, log entry 12). Bytes outside every slot are free. -/
def State.rawPut (s : State) (i base size : Nat) (noAlloc : Bool) : Nat → Nat → Bytes → Nat × State
  | 0, _, _ => (0, s)
  | fuel + 1, a, bs =>
    match bs, s.rawPlace base size a with
    | [], _ => (0, s)
    | bs, none =>
      let f := s.freeBytes bs.length
      f.2.writeRaw i a f.1 noAlloc
    | bs, some (head, addr, slot) =>
      let n := min bs.length (addr + slot - a)
      let old := s.rawPlain base size addr slot
      let plain := old.take (a - addr) ++ bs.take n ++ old.drop (a - addr + n)
      let b := rawBlock 1 0x21 (slot / 32) (unpackRaw (slot / 32) plain)
      let w := s.writeRaw i addr b.1 noAlloc
      let h := w.2.writeRaw i head (leBytes 1 (b.1.length / 32)) noAlloc
      let r := (h.2.keepBlock head addr slot b).rawPut i base size noAlloc fuel (a + n) (bs.drop n)
      (if w.1 ≠ 0 then w.1 else if h.1 ≠ 0 then h.1 else r.1, r.2)

/-- Bytes of a stream land, coded where the stream is compressed (R98). -/
def State.streamPut (s : State) (i a : Nat) (bs : Bytes) (noAlloc : Bool) (coded : Option (Nat × Nat)) : Nat × State :=
  match coded with
  | some (base, size) => s.rawPut i base size noAlloc bs.length a bs
  | none => s.writeRaw i a bs noAlloc

/-- The buffer of a compressed stream. -/
def Stream.coded (d : Stream) : Option (Nat × Nat) := if d.rawcomp then some (d.bufBase, d.bufSize) else none

/-- The ranges of memory that a write of `n` bytes at `a` stores to: the header byte and the slot of each block that it touches where the stream is
compressed (R98). -/
def State.storeSpans (s : State) (coded : Option (Nat × Nat)) : Nat → Nat → Nat → List (Nat × Nat)
  | 0, _, _ => []
  | fuel + 1, a, n =>
    match coded.bind fun b => s.rawPlace b.1 b.2 a with
    | none => if n = 0 then [] else [(a, n)]
    | some (head, addr, slot) =>
      if n = 0 then [] else (head, 1) :: (addr, slot) :: s.storeSpans coded fuel (addr + slot) (n - (addr + slot - a))

/-- The destination bytes of `[off, off + n)` of a stream written run by run. -/
def State.writeStream (s : State) (i : Nat) (d : Stream) (table : List Nat) : Nat → Nat → Bytes → State
  | 0, _, _ => s
  | fuel + 1, off, bs =>
    if bs = [] then s
    else
      let n := min bs.length (d.run - off % d.run)
      (s.streamPut i (d.addrOf table off).toNat (bs.take n) d.noAlloc d.coded).2.writeStream i d table fuel (off + n) (bs.drop n)

/-- A write in flight lands; one to host memory where the window pointed as it was issued (R388). -/
def State.landReq (s : State) (e : Nat) (q : DmaReq) : Nat × State :=
  if regionOf q.addr = .host ∧ q.coded = none then (0, s.hostPut q.host q.data) else s.streamPut (initDma e) q.addr q.data q.noAlloc q.coded

/-- An address in a window of another module. -/
def remoteAddr (a : Nat) : Bool := match regionOf a with
  | .peer _ => true
  | _ => false

/-- Older writes of an engine through windows that are still in flight land before newer ones do, so that the writes to one remote module complete in the
order of their issue (R398). -/
def State.landOlder (s : State) (e : Nat) : State :=
  let far := fun (q : DmaReq) => q.write && remoteAddr q.addr
  (((s.mem.dma.at e).draining.filter far).foldl (fun s q => (s.landReq e q).2) s).modDma e fun x => { x with
    draining := x.draining.map fun q => if far q then { q with data := [] } else q }

/-- The writes of the chunks an item has begun and not completed retire: those in flight land, and the rest of the chunks is written (R95). -/
def State.dmaFlush (s : State) (e : Nat) (it : DmaItem) : State :=
  let d := streamOf it.dst
  let hi := min (it.chunksOpen * 4096) d.total
  let n := it.chunksOpen - it.chunksDone
  let landed := (it.reqs.filter (·.write)).foldl (fun s q => (s.landReq e q).2) (s.landOlder e)
  let s1 := landed.writeStream (initDma e) d it.dstIndex (hi - it.writeIssued) it.writeIssued (it.stagedBytes it.writeIssued (hi - it.writeIssued))
  s1.modDma e fun x => { x with
    chunksDone := x.chunksDone + n
    item := x.item.map fun y => { y with reqs := y.reqs.map fun q => { q with data := [] } } }

/-! ## Work counters (R80, R402, R435) -/

/-- A work counter's value; a counter nothing has written holds 0 (R103). -/
def State.counter (s : State) (k : Nat) : Nat := (aGet s.mem.counters k).getD 0

/-- The address of a work counter's word (R80). -/
def counterAddr (k : Nat) : Nat := 0x40_1000_0000 + 8 * k

/-- A work counter set, with fresh check bits (R80, R434). -/
def State.setCounter (s : State) (k v : Nat) : State :=
  { s with mem := { s.mem with counters := aSet s.mem.counters k (v % 2 ^ 32), bad := s.mem.bad.filter (· ≠ counterAddr k) } }

/-- A work counter's word is uncorrectable (R435, R440). -/
def State.counterBad (s : State) (k : Nat) : Bool := s.mem.bad.contains (counterAddr k)

/-- An uncorrectable counter word: the operation returns nothing, and the node using the counter ends FAULTED with 0x0911
(R435). -/
def State.counterUe (s : State) (k : Nat) (user : Option Nat) : State :=
  let s1 := (s.strike (counterAddr k)).countUncorrectable 0x0902 (counterAddr k) 0xFF
  match user with
  | some i => s1.unitFault i 0x0911
  | none => s1

/-- The counter that a macro claims from is exported to other modules (R402). -/
def State.exported (s : State) (c : Ctx) (k : Nat) : Bool :=
  s.imports.any fun p => p.2.counter && p.2.graph == c.graph && p.2.target == k

/-- The import that a counter of a graph's range is mapped onto, if it is (R402). -/
def State.mapped? (s : State) (c : Ctx) (k : Nat) : Option CtrMap :=
  s.ctrMaps.find? fun m => m.graph == c.graph && m.index == k

/-! ## Cores that leave (R65, R153, R156, R179, R448) -/

/-- A redo list with runs added, lowest first (R179). -/
def addRedo (redo runs : List TileRun) : List TileRun :=
  runs.foldl (fun l r => (l.filter fun x => x.first < r.first) ++ [r] ++ l.filter fun x => r.first < x.first) redo

/-- A core of the unit set may yet take a redo entry of macro `k`: one that is not retired or out of service, not in self-test, and not fenced for the
macro (R179, R180). -/
def State.mayRedo (s : State) (i k : Nat) (c : Ctx) : Bool :=
  c.cores.any fun x => !s.coreOut x && !(s.spc.at x).selftest && !(s.spc.at x).fenced.contains (i, k)

/-- A node whose redo list is over full, or that has redo entries which no core is left to take, ends FAULTED with 0x0412 (R180). -/
def State.redoCheck (s : State) (i : Nat) : State :=
  match s.ctx? i, aGet s.spire i with
  | some c, some n =>
    let total : Nat := (n.macros.map fun p => p.2.redo.length).sum
    if 16 < total || n.macros.any fun p => !p.2.redo.isEmpty && !s.mayRedo i p.1 c then s.unitFault i 0x0412 else s
  | _, _ => s

/-- A core that cannot go on with a macro leaves it: its write port is fenced, and each of its claimed runs, from the tile in progress on, joins the redo
list of its macro. Where the node runs on this core alone, or in quadrant mode, a parity error or an uncorrectable read ends the node with its own
status; any other loss leaves tiles that no core can redo (R153, R156, R160, R179, R180, R521). -/
def State.leaveMacro (s : State) (i k core status : Nat) : State :=
  match s.ctx? i with
  | none => s
  | some c =>
    if c.cores.length ≤ 1 ∨ (s.spc.at core).quadMode then
      let st := if status = 0x0407 ∨ status = 0x040A then status else 0x0412
      (s.modMacro i k fun m => { m with status := st }).unitFault i st
    else
      let runs := (s.lane core 4).runs.map fun r => { r with redo := true }
      let s1 := s.modSpc core fun x => { x with lanes := Vector.replicate 5 {}, fenced := x.fenced ++ [(i, k)], lastStatus := status }
      let give := fun (p : Nat × MacroRun) => (p.1, { p.2 with redo := addRedo p.2.redo (runs.filter fun r => r.macroIx == p.1) })
      ({ s1 with spire := aMod s1.spire i fun n => { n with macros := n.macros.map give } } : State).redoCheck i

/-- Cores leave the unit set of every context that names them; a graph of which a context has none left stops with 0x0212 (R65). -/
def State.dropCores (s : State) (cores : List Nat) : State :=
  let strip := fun (p : Nat × Ctx) =>
    let left := (cores.filter fun k => bit p.2.unitMask k).foldl (fun m k => m - 2 ^ k) p.2.unitMask
    if p.2.type == 4 then (p.1, { p.2 with prog := putBytes p.2.prog 0x50 (leBytes 16 left) }) else p
  let had := s.bf.ctxs.filter fun p => p.2.type == 4 && p.2.unitMask != 0
  let s1 := s.modBf fun b => { b with ctxs := b.ctxs.map strip }
  let dead := (had.filter fun p => match s1.ctx? p.1 with
    | some c => c.unitMask == 0
    | none => false).map fun p => p.2.graph
  dead.eraseDups.foldl (fun s g => s.haltGraph g 0x0212) s1

/-- The macro that a core works on, where it works on one: that of its tile in progress, else the one it last claimed from. -/
def Lane.current (l : Lane) : Option Nat :=
  match l.runs with
  | r :: _ => some r.macroIx
  | [] => l.macroIx

/-- The core leaves the macro that it works on; where it works on none, the redo entries may find no core any longer (R180). In quadrant mode the node ends with this status even where a quadrant has
aborted before: the spec does not say which of the two it reports (DESIGN CHOICE; log entry 121). -/
def State.leaveAny (s : State) (core status : Nat) : State :=
  match s.nodeOfCore core with
  | none => s
  | some (i, c) =>
    if c.draining then s
    else if (s.spc.at core).quadMode then s.leaveMacro i 0xFFFF core status
    else match (s.lane core 4).current with
      | some k => s.leaveMacro i k core status
      | none => s.redoCheck i

/-- The running node that a core served is short of a core now: its redo entries may find none (R180). -/
def State.afterLoss (s0 s : State) (core : Nat) : State :=
  match s0.nodeOfCore core with
  | some (i, _) => s.redoCheck i
  | none => s

/-- A core is retired: its tiles go to the redo list, it leaves every unit set, its local memory is unmapped, flash is to record it (R156). -/
def State.retireCore (s : State) (core status : Nat) : State :=
  if (s.spc.at core).retired ∨ 128 ≤ core then s
  else
    let s1 := (s.leaveAny core status).modSpc core fun x =>
      { x with retired := true, selftest := false, rowDue := none, lastStatus := status }
    let s2 := (s.afterLoss (s1.dropCores [core]) core).event status 1 core [50]
    ({ s2 with flash := { s2.flash with repairDue := true } }).updateHealth

/-! ## DMA engines that fail (R448) -/

/-- Engine 11 fails: a line that passes through it, on its way into a spill ring or out of it, may have been in flight, and is then repaired when the
RFE reads it (R231, R448). Which lines of the ring were in flight is free (log entry 163). -/
def State.loseLines (s : State) : State :=
  (List.range 16).foldl (fun s c =>
    let b := s.freeBytes (s.cams.at c).lines.length
    b.2.modCam c fun k => { k with lines := List.zipWith (fun l x => { l with lost := l.lost || l.slot.isSome && x.getLsbD 0 }) k.lines b.1 }) s

/-- A DMA engine fails: its item ends FAULTED with 0x090D, and its clients are lost or served by another (R448). -/
def State.failDma (s : State) (e : Nat) : State :=
  if (s.mem.dma.at e).failed ∨ 12 ≤ e then s
  else
    let s1 := match (s.mem.dma.at e).item with
      | some it => s.dmaFault e it 0x090D
      | none => s
    let s2 := (s1.modDma e fun d => { d with failed := true, fault := true, lastStatus := 0x090D, item := none }).event 0x090D 9 e [50]
    let vis := fun (s : State) => (List.range 6).foldl (fun s u => if (s.vis.at u).failed then s else s.loseVision u 0x0604) s
    let s3 :=
      if e < 8 then
        let cores := (List.range 16).map (16 * e + ·)
        let alone := s2.bf.ctxs.filter fun p => p.2.type == 4 && p.2.state == .running && p.2.cores.all cores.contains
        let s3 := alone.foldl (fun s p => s.unitFault p.1 0x090D) s2
        let s4 := (cores.foldl (fun s k => s.leaveAny k 0x090D) s3).dropCores cores
        cores.foldl (fun s k => s3.afterLoss s k) s4
      else if e = 10 then vis s2
      else if e = 11 then
        vis s2.loseLines
      else s2
    let s4 := if (s3.mem.dma.at 10).failed && (s3.mem.dma.at 11).failed then
        (List.range 16).foldl (fun s c => s.stopCam c 0x0513) s3
      else s3
    s4.updateHealth

/-! ## Corrected errors, wear and spares (R433, R441 to R446) -/

/-- Run-time spare rows of a store's unit, or none at all (R444). -/
def sparesOf (store : Nat) : Nat :=
  match store with
  | 0 | 5 | 6 => 8
  | 1 => 2
  | 2 | 3 | 4 | 7 => 4
  | _ => 0

/-- The pool a row's spares come from: a Dome bank, a bank of a core's local memory, an RFE, an SNE, or the store itself. -/
def spareKey (w : WordError) : Nat × Nat :=
  match w.store with
  | 0 => (0, w.unit)
  | 1 => (1, 16 * w.unit + w.bank)
  | 2 => (2, w.unit)
  | 3 | 4 => (3, w.unit)
  | st => (st, 0)

/-- Run-time spares that a pool has in use. -/
def State.sparesUsed (s : State) (k : Nat × Nat) : Nat :=
  ((s.reliab.spares.filter fun x => x.1 == k.1 && x.2.1 == k.2).map fun x => x.2.2).sum

/-- One more spare of a pool is in use. -/
def State.useSpare (s : State) (k : Nat × Nat) : State :=
  let n := s.sparesUsed k
  { s with reliab := { s.reliab with spares := (s.reliab.spares.filter fun x => !(x.1 == k.1 && x.2.1 == k.2)) ++ [(k.1, k.2, n + 1)] }
           flash := { s.flash with repairDue := true } }

/-- The scratchpad granule that a row of a Dome bank lies in (R73, R444). -/
def domeGranule (bank row : Nat) : Nat := (row * 8192 + (bank ^^^ (row % 64)) * 128) / 4096

/-- The cache lines that a granule holds leave the cache, dirty data written back (R79). -/
def State.dropGranule (s : State) (g : Nat) : State :=
  let held := fun (set : Nat) (l : CacheLine) => s.cacheGranule set l.way == g
  let gone := (s.mem.cache.map fun p => p.2.filter (held p.1)).flatten
  gone.foldl State.evict { s with mem := { s.mem with cache := s.mem.cache.map fun p => (p.1, p.2.filter fun l => !held p.1 l) } }

/-- A worn Dome row beyond the spares: its granule retires at once when no partition holds it, otherwise once it is freed; the cache lines of a
worn cache row are written back and retire with its granule at once (R79, R444). -/
def State.wearDome (s : State) (bank row : Nat) : State :=
  let g := domeGranule bank row
  if s.mem.retiredGranules.contains g then s
  else if s.scratchBytes / 4096 ≤ g then (s.dropGranule g).retireGranule g bank
  else if s.granuleHeld g then
    let s1 := s.note 0x0906 9 bank
    { s1 with mem := { s1.mem with wornGranules := (s1.mem.wornGranules.filter (·.1 ≠ g)) ++ [(g, bank)] } }
  else s.retireGranule g bank

/-- A unit failed by wear stays failed across resets (R444, R450). -/
def State.noteWorn (s : State) (store unit : Nat) : State :=
  { s with reliab := { s.reliab with wornUnits := (s.reliab.wornUnits.filter (· ≠ (store, unit))) ++ [(store, unit)] }
           flash := { s.flash with repairDue := true } }

/-- A worn row beyond its spares takes its store's outcome (R444). -/
def State.wearOut (s : State) (w : WordError) : State :=
  match w.store with
  | 0 => if w.unit < 64 then s.wearDome w.unit w.row else s
  | 1 => s.retireCore w.unit 0x0408
  | 2 => (s.failRfe w.unit).noteWorn 2 w.unit
  | 3 | 4 => (s.failSne w.unit).noteWorn 3 w.unit
  | 5 => (s.loseVision w.unit 0x0604).noteWorn 5 w.unit
  | 6 =>
    let i := w.row / 2
    let s1 := { s with flash := { s.flash with repairDue := true } }
    let s2 := if (s.ctx? i).isSome then s1.modBf fun b => { b with wornCtx := sInsert b.wornCtx i }
      else s1.modBf fun b => { b with retiredCtx := sInsert b.retiredCtx i }
    (s2.event 0x0906 9 0xFF [50]).updateHealth
  | st => ({ s with reliab := { s.reliab with wornKept := (s.reliab.wornKept.filter fun x => x ≠ (st, w.row)) ++ [(st, w.row)] } }).updateHealth

/-- A row counts as worn: a DRAM row is reported, any other takes a spare or its store's outcome (R443 to R445). -/
def State.wornRow (s : State) (w : WordError) : State :=
  if w.store = 8 then
    ({ s with reliab := { s.reliab with memWorn := s.reliab.memWorn.mod w.unit (satInc 8) } }).event 0x0907 9 w.unit [50] (leBytes 8 w.addr)
  else if s.sparesUsed (spareKey w) < sparesOf w.store then (s.useSpare (spareKey w)).note 0x0905 9 w.unit
  else s.wearOut w

/-- The wear table after a counted error of a row: 1,024 rows, the one whose last error is oldest dropped (R443). -/
def wearAfter (l : List WearRow) (w : WordError) (dev : Nat) : List WearRow × Nat :=
  let same := fun (r : WearRow) => r.store == w.store && r.unit == w.unit && r.row == w.row + w.bank * 2 ^ 24
  let old := ((l.find? same).map (·.times)).getD []
  let ts := (old.filter fun t => decide (dev < t + 86400000000000)) ++ [dev]
  let others := l.filter fun r => !same r
  let last := fun (r : WearRow) => r.times.getLast?.getD 0
  let oldest := (others.map last).foldl min dev
  let kept := if others.length < 1024 then others
    else others.eraseP fun r => last r == oldest
  (kept ++ [{ store := w.store, unit := w.unit, row := w.row + w.bank * 2 ^ 24, times := ts }], ts.length)

/-- A correctable error of a read, a scrub or a read-modify-write: counted and logged at most once in 100 ms for a word, and counted against its
row's wear (R441, R443). -/
def State.countCorrected (s : State) (e : Option WordError) : State :=
  match e with
  | none => s
  | some w =>
    let seen := s.reliab.counted.any fun c => c.1 == w.store && c.2.1 == w.addr && decide (s.dev < c.2.2 + 100000000)
    if seen then s
    else
      let keep := s.reliab.counted.filter fun c => decide (s.dev < c.2.2 + 100000000)
      let wt := wearAfter s.reliab.wear w s.dev
      let r0 := { s.reliab with counted := keep ++ [(w.store, w.addr, s.dev)], wear := wt.1 }
      let r1 := if w.store = 8 then { r0 with memCorrected := r0.memCorrected.mod w.unit (satInc 16) }
        else { r0 with corrected := satInc 16 r0.corrected }
      let s1 := ({ s with reliab := r1 }).logError 0x0901 w.store w.unit 0 w.foundBy w.bit w.addr (w.row + w.bank * 2 ^ 24) wt.2
      if wt.2 = 3 then s1.wornRow w else s1

/-! ## Reads of local memory (R435, R443, R521) -/

/-- An uncorrectable word that a core's feeder, weight loader or drain read: counted and logged with its row's errors. -/
def State.countLocal (s : State) (a : Nat) : State :=
  let w := s.wordAt a
  let wt := wearAfter s.reliab.wear w s.dev
  ({ s with reliab := { s.reliab with uncorrectable := satInc 8 s.reliab.uncorrectable, wear := wt.1 } } : State).logError
    0x0902 w.store w.unit 1 0 0xFFFF a (w.row + w.bank * 2 ^ 24) wt.2

/-- The row of a word just counted may be worn now (R443, R521). -/
def State.wearLocal (s : State) (a : Nat) : State :=
  let w := s.wordAt a
  let n := s.reliab.wear.find? fun r => r.store == w.store && r.unit == w.unit && r.row == w.row + w.bank * 2 ^ 24
  if (n.map (·.times.length)) = some 3 then s.wornRow w else s

/-- A read meets a correctable error at an address under a code: the data is used corrected, the word counted and logged (R435, R441). -/
def State.noteCorrected (s : State) (err : ReadErr) (a : Nat) : State :=
  match err with
  | .correctable b => if s.mayErr a then s.countCorrected (some { s.wordAt a with bit := b }) else s
  | _ => s

/-- A read by an initiator that meets an error of its own: a correctable one is counted, an uncorrectable one strikes the word (R435, R441). -/
def State.readMeet (s : State) (i a n : Nat) (err : ReadErr) : Bytes × Nat × State :=
  if s.accessStatus i a n false ≠ 0 then s.read i a n
  else
    let s1 := match err with
      | .uncorrectable => if s.mayErr a then s.strike a else s
      | e => s.noteCorrected e a
    s1.read i a n

/-! ## Power gates (R488) -/

/-- A unit's gate is closed. -/
def State.gated (s : State) : GateUnit → Bool
  | .steeple n => (s.power.steeples.at n).gated
  | .sne n => s.power.sneGated.at n
  | .rfe n => s.power.rfeGated.at n
  | .vis n => s.power.visGated.at n

/-- A unit's gate is set. -/
def State.setGate (s : State) (u : GateUnit) (g : Bool) : State :=
  { s with power := match u with
    | .steeple n => { s.power with steeples := s.power.steeples.mod n fun x => { x with gated := g } }
    | .sne n => { s.power with sneGated := s.power.sneGated.mod n fun _ => g }
    | .rfe n => { s.power with rfeGated := s.power.rfeGated.mod n fun _ => g }
    | .vis n => { s.power with visGated := s.power.visGated.mod n fun _ => g } }

/-- An admission, a binding or a test names the unit. -/
def State.gateHeld (s : State) : GateUnit → Bool
  | .steeple n => (List.range 16).any fun k => let x := s.spc.at (16 * n + k)
      s.unitNamed (.spc (16 * n + k)) || x.selftest || x.rowDue.isSome
  | .sne n => !(s.netsOn n).isEmpty || (s.sne.at n).arrays.toList.any fun x => x.selftest || x.rowDue.isSome
  | .rfe n => s.rfeUsed n
  | .vis n => s.unitNamed (.vis n) || (s.vis.at n).selftest

/-- Every unit with a gate. -/
def gateUnits : List GateUnit :=
  (List.range 8).map .steeple ++ (List.range 4).map .sne ++ (List.range 16).map .rfe ++ (List.range 6).map .vis

/-- A unit is gated; nothing of its state survives. -/
def State.gateOne (s : State) (u : GateUnit) : State :=
  let s1 := s.setGate u true
  match u with
  | .sne n => s1.modSne n fun x => { x with images := [], unit := none }
  | .rfe n => s1.modRfe n fun x => { x with live := none, liveTag := 0, shadow := none, loading := none, pending := [] }
  | .steeple n =>
    let off := fun (x : Steeple) => { x with point := 0, paused := false, change := .none }
    { s1 with power := { s1.power with steeples := s1.power.steeples.mod n off } }
  | .vis _ => s1

/-- The units that the last admission, binding or test has left are gated in the same step. -/
def State.gateUnused (s : State) : State :=
  (gateUnits.filter fun u => !s.gated u && !s.gateHeld u && !s.power.ungating.contains u).foldl State.gateOne s

/-- Ungating begins for the units that are gated. -/
def State.beginUngate (s : State) (us : List GateUnit) : State :=
  { s with power := { s.power with ungating := s.power.ungating ++ us.filter fun u => s.gated u && !s.power.ungating.contains u } }

/-- What an ungated unit's stores hold: zeros (R488). -/
def State.clearUnit (s : State) (u : GateUnit) : State :=
  let clear := fun (s : State) (lo n : Nat) =>
    { s with mem := { s.mem with cells := memClear s.mem.cells lo n, bad := s.mem.bad.filter fun b => !(lo ≤ b && b < lo + n) } }
  match u with
  | .steeple n => (List.range 16).foldl (fun s k => clear s (localBase (16 * n + k)) 0x8_0000) s
  | .sne n => clear s (0x42_0000_0000 + n * 0x10_0000) 0x10_0000
  | .rfe n => clear s (0x43_0000_0000 + n * 0x10_0000) 0x10_0000
  | .vis _ => s

end Sys2Proof.Machine
end

