-- ==== Sys2Proof/Machine/Belfry.lean ====
section
/-! DEFINITION. Belfry's commands: anchors, dispatch, signals, completion, deadlines, cancellation and multicast
(chapter 02). -/
namespace Sys2Proof.Machine
open Sys2Proof

/-! ## ANCHOR_EVENT (R33, R34, R41, R43, R52, R65, R67) -/

/-- The first copy in rotation that carries no instance. -/
def Graph.freeCopy (q : Graph) : Option Nat :=
  (List.range q.copies.length).find? (fun k => !(((q.copies[(q.nextCopy + k) % q.copies.length]?).join).isSome))
    |>.map fun k => (q.nextCopy + k) % q.copies.length

/-- The context that gives a graph its anchor: every context of a graph carries the same (R38). -/
def Graph.anchorCtx (q : Graph) : Ctx := { prog := ((q.image.contexts.head?).map (·.bytes)).getD [] }

/-- The frame number of an instance: the camera's frame number for a camera anchor, the group number of the camera's genlock
group for a genlock anchor (R238), the count of instances for a timer (log entry 9). -/
def State.anchorFrame (s : State) (q : Graph) : Nat :=
  let c := q.anchorCtx
  match c.anchorKind with
  | 0 | 1 => (s.cams.at c.anchorCam).frameNo
  | 2 => (s.genlock.at (bGroup (s.cams.at c.anchorCam).bind)).number
  | _ => q.started % 2 ^ 32

/-- An anchor that finds no free copy starts nothing: SEQ_SKIP_COUNT, and 0x020A against the graph (R34). -/
def State.skipAnchor (s : State) (g : Nat) : State :=
  ((s.modBf fun b => { b with skipCount := satInc 32 b.skipCount }).modGraph g fun q => { q with status := 0x020A }).event
    0x020A 5 g [34 + g % 16]

/-- A frame instance starts on a copy: its contexts go to WAITING with the frame number and the anchor's times (R33, R52). What the manual does not
say of the status area between instances is the model's: T_READY, T_START and T_DONE are 0 and LAST_TILE is all ones until the node sets them (R37;
DESIGN CHOICE, log entry 108). -/
def State.startInstance (s : State) (g copy frame anchor : Nat) : State :=
  let s1 := s.modGraph g fun q => { q with
    copies := q.copies.set copy (some { frame := frame, anchorDev := s.dev, anchorTime := anchor })
    nextCopy := (copy + 1) % max q.copies.length 1
    started := q.started + 1 }
  let s2 := s1.modBf fun b => { b with ctxs := b.ctxs.map fun p =>
    if p.2.graph == g && p.2.copy == copy then
      (p.1, { p.2 with state := .waiting, missed := false, signalled := false, frame := frame, tReady := 0, tStart := 0
                       tDone := 0, lastTile := 0xFFFFFFFF, draining := false, redone := false, poisoned := false, events := 0
                       source := none, typeData := [] })
    else p }
  (s2.refreshReady).endInstance g copy

/-- When a graph's anchor stands on the timebase count, if it has come: now, or for a timer the last whole period since its last anchor, the first
of which may come at any time (R52; DESIGN CHOICE, log entry 109). -/
def Graph.anchorAt (q : Graph) (now : Nat) : Option Nat :=
  match q.anchorCtx.anchorKind, q.timerLast with
  | 3, some l =>
    let p := max q.anchorCtx.anchorPeriod 1
    if now < l + p then none else some (l + (now - l) / p * p)
  | _, _ => some now

/-- The anchor of a graph arrives. -/
def anchorEffect (t g : Nat) (s0 : State) : State :=
  let s := s0.at t
  match aGet s.bf.graphs g with
  | none => s
  | some q =>
    if !s.active || s.bf.halted || q.parked || q.stopped then s
    else match q.anchorAt s.now with
      | none => s
      | some a =>
        let s := s.modGraph g fun q => { q with timerLast := if q.anchorCtx.anchorKind = 3 then some a else none }
        if q.drain != .none then s.skipAnchor g
        else if !((s.bf.ctxs.filter fun p => p.2.graph == g).all fun p => p.2.enable) then s
        else match q.freeCopy with
          | some k => s.startInstance g k (s.anchorFrame q) a
          | none => s.skipAnchor g

/-- ANCHOR_EVENT (R34). -/
def execAnchorEvent (t g : Nat) (s : State) : Out := .next (anchorEffect t g s)

/-! ## NODE_DISPATCH (R36, R44, R49, R519) -/

/-- The rank of a node: best-effort graphs last, then nodes without a deadline, then the earliest absolute deadline, then
PRIORITY, then the index (R49, R50). -/
def State.rankKey (s : State) (i : Nat) (c : Ctx) : Nat × Nat × Nat × Nat × Nat :=
  let be := ((aGet s.bf.graphs c.graph).map (·.bestEffort)).getD false
  let d := match s.inst? c with
    | some n => if c.deadline = 0 then 0 else n.anchorTime + c.deadline
    | none => 0
  (b2n be, b2n (c.deadline == 0), d, c.priority, i)

/-- Lexicographic order of two ranks. -/
def rankLt (x y : Nat × Nat × Nat × Nat × Nat) : Bool :=
  x.1 < y.1 || (x.1 == y.1 && (x.2.1 < y.2.1 || (x.2.1 == y.2.1 && (x.2.2.1 < y.2.2.1 || (x.2.2.1 == y.2.2.1 &&
    (x.2.2.2.1 < y.2.2.2.1 || (x.2.2.2.1 == y.2.2.2.1 && x.2.2.2.2 < y.2.2.2.2)))))))

/-- A ready node has its units: every unit of its set is free, and no other ready node that names one of them ranks before it (R49). -/
def State.hasUnits (s : State) (i : Nat) (c : Ctx) : Bool :=
  c.units.all (fun u => s.unitFree u)
    && s.bf.ctxs.all fun p =>
      p.1 == i || p.2.state != .ready || !(p.2.units.any fun u => c.units.contains u)
        || rankLt (s.rankKey i c) (s.rankKey p.1 p.2)

/-- A ready node may start: it has its units, and of the ready nodes that have theirs and consume from a beacon of its own none ranks before it
(R44, R49). -/
def State.mayStart (s : State) (i : Nat) (c : Ctx) : Bool :=
  s.hasUnits i c && s.bf.ctxs.all fun p =>
    p.1 == i || p.2.state != .ready || !(c.waits.any fun w => !w.observe && p.2.takes w.beacon != 0)
      || rankLt (s.rankKey i c) (s.rankKey p.1 p.2) || !s.hasUnits p.1 p.2

/-- The counts of the waits are subtracted in one step; OBSERVE entries leave their beacon (R44). -/
def State.consume (s : State) (c : Ctx) : State :=
  (c.waits.filter fun w => !w.observe).foldl (fun s w => s.setBeacon w.beacon (s.beaconValue w.beacon - w.count)) s

/-- The voted reads of a node's waits, the upset meeting the first (R46). -/
def State.readWaits (s : State) (c : Ctx) (u : Option LaneUpset) : State :=
  match c.waits, u with
  | w :: _, some u => (s.voteRead w.beacon (some u)).2
  | _, _ => s

/-- A dispatched node begins: its unit takes the first element of its work list, or the node faults (R519); a RELAY node has no list (R399); so does a Spire node whose last core was
lost after its instance started (R65; DEDUCED, log entry 110). -/
def State.startNode (s : State) (i : Nat) (c : Ctx) : State :=
  let s1 := s.modCtx i fun c => { c with state := .running, tStart := s.dev }
  let s2 := if c.fuse = 0 then s1
    else s1.modBf fun b => { b with fused := aSet b.fused i { passed := List.replicate c.fuseStages 0 } }
  if c.elemBytes = 0 then s2
  else if c.relay then s2.startPeer i c
  else if c.type = 4 ∧ c.unitMask = 0 then s2.faultNode i 0x0212 0xFFFFFFFF
  else
    let r := s2.readElem c 0
    if r.2.1 ≠ 0 then r.2.2.faultNode i r.2.1 0xFFFFFFFF
    else match c.type with
      | 3 => r.2.2.startVision i c
      | 4 => r.2.2.startSpire i
      | 5 => { r.2.2 with mem := { r.2.2.mem with
          dma := r.2.2.mem.dma.mod (bits c.unitMask 0 4) fun e => { e with itemsDone := 0, chunksDone := 0 } } }
      | 7 => r.2.2.startPeer i c
      | 8 => r.2.2.startField i
      | _ => r.2.2

/-- The word of context `i` in Belfry's context store: 256 bytes a context, two rows of 128 (R37, R442, R444). -/
def contextWord (i : Nat) : WordError := { store := 6, unit := 0xFF, addr := i * 256, row := 2 * i }

/-- An uncorrectable word of a context is counted and logged (R435). -/
def State.contextUe (s : State) (i : Nat) : State :=
  ({ s with reliab := { s.reliab with uncorrectable := satInc 8 s.reliab.uncorrectable } } : State).logError 0x0902 6 0xFF 1 0 0xFFFF (i * 256) (2 * i)
    (s.rowErrors (contextWord i) + 1)

/-- A correctable word of a context is counted (R441). -/
def State.contextCorrected (s : State) (i : Nat) (err : ReadErr) : State :=
  match err with
  | .correctable b => s.countCorrected (some { contextWord i with bit := b })
  | _ => s

/-- The dispatch of a ready node; one that its counts would have started may now be left without (R62). -/
def dispatchEffect (t i : Nat) (u : Option LaneUpset) (err : ReadErr) (s0 : State) : State :=
  let s := s0.at t
  match s.ctx? i with
  | none => s
  | some c =>
    if !s.active || s.bf.halted || c.state != .ready || c.draining then s
    else if err = .uncorrectable then (s.contextUe i).stopGraph c.graph 0x0910
    else
      let s1 := (s.contextCorrected i err).readWaits c u
      if s1.bf.halted then s1
      else if !s1.waitsMet c then
        (s1.modCtx i fun c => { c with state := .waiting }).cascadeAll c.graph c.copy
      else if !s1.mayStart i c then s1
      else
        let s2 := s1.consume c
        let s3 := if c.type = 9 then (s2.modCtx i fun c => { c with tStart := s.dev }).endNode i .done 0 0xFFFFFFFF else s2.startNode i c
        s3.cascadeAll c.graph c.copy

/-- NODE_DISPATCH (R49). -/
def execNodeDispatch (t i : Nat) (u : Option LaneUpset) (err : ReadErr) (s : State) : Out :=
  .next (dispatchEffect t i u err s)

/-! ## BEACON_SIGNAL (R43, R46) -/

/-- A signal adds its increment to a beacon. -/
def beaconSignalEffect (t b inc : Nat) (u : Option LaneUpset) (s0 : State) : State :=
  let s := s0.at t
  if s.active && !s.bf.halted then s.signalBeacon (b % 16384) inc u else s

/-- BEACON_SIGNAL (R43). -/
def execBeaconSignal (t b inc : Nat) (u : Option LaneUpset) (s : State) : Out := .next (beaconSignalEffect t b inc u s)

/-! ## NODE_COMPLETE, NODE_FAULT (R45, R48, R63, R64) -/

/-- A node's final write retires (R45). -/
def nodeCompleteEffect (t i : Nat) (s0 : State) : State :=
  let s := s0.at t
  match s.ctx? i with
  | none => s
  | some c =>
    if !s.active || c.isSource || c.state != .running || c.draining || !s.workDone i c then s
    else
      let last := s.lastTileOf i c
      (((s.closeWork i c .done 0).endNode i .done 0 last).dropWork i c 0).cascadeAll c.graph c.copy

/-- NODE_COMPLETE (R45). -/
def execNodeComplete (t i : Nat) (s : State) : Out := .next (nodeCompleteEffect t i s)

/-- A unit's fault reaches Belfry with a status that R16 assigns; an SNE fault does not end its node (R63). -/
def nodeFaultEffect (t i status : Nat) (s0 : State) : State :=
  let s := s0.at t
  match s.ctx? i with
  | some c => if s.active && c.type != 2 && statusReturned status then s.unitFault i status else s
  | none => s

/-- NODE_FAULT (R63). -/
def execNodeFault (t i status : Nat) (s : State) : Out := .next (nodeFaultEffect t i status s)

/-! ## DEADLINE_MISS (R51, R52) -/

/-- The absolute deadline of a node of an instance in flight (R52). -/
def State.absDeadline (s : State) (c : Ctx) : Option Nat :=
  match s.inst? c with
  | some n => if c.deadline = 0 then none else some (n.anchorTime + c.deadline)
  | none => none

/-- A deadline passes: the flag and the counters, the graph's interrupt, then MISS_POLICY (R51). -/
def deadlineMissEffect (t i : Nat) (s0 : State) : State :=
  let s := s0.at t
  match s.ctx? i with
  | none => s
  | some c =>
    match s.absDeadline c with
    | none => s
    | some d =>
      if !s.active || c.state.overs || c.state == .idle || c.missed || c.draining || s.now ≤ d then s
      else
        let s1 := (s.modCtx i fun c => { c with missed := true, misses := satInc 32 c.misses }).modBf fun b =>
          { b with missCount := satInc 32 b.missCount }
        let s2 := s1.raise (34 + c.graph % 16)
        match c.missPolicy with
        | 1 => if c.cancellable then s2.cancelNode i else s2
        | 2 => s2.cancelInstance c.graph c.copy
        | _ => s2

/-- DEADLINE_MISS (R51). -/
def execDeadlineMiss (t i : Nat) (s : State) : Out := .next (deadlineMissEffect t i s)

/-! ## FUSED_STAGE_RESUME (R47, R48) -/

/-- Stage `k` has a slot: stage 0 needs a slot the last stage has freed, a later stage one that the stage before has filled. -/
def Fused.hasSlot (f : Fused) (slots k : Nat) : Bool :=
  if k = 0 then (f.passed.getD 0 0) < (f.passed.getLast?.getD 0) + slots
  else (f.passed.getD k 0) < (f.passed.getD (k - 1) 0)

/-- A stage of a fused command resumes with its slot and passes it on. -/
def fusedResumeEffect (t i k : Nat) (s0 : State) : State :=
  let s := s0.at t
  match s.ctx? i, aGet s.bf.fused i with
  | some c, some f =>
    if s.active && c.state == .running && !c.draining && k < f.passed.length && f.hasSlot c.fuseSlots k then
      s.modBf fun b => { b with fused := aSet b.fused i { passed := f.passed.modify k (· + 1) } }
    else s
  | _, _ => s

/-- FUSED_STAGE_RESUME (R48). -/
def execFusedStageResume (t i k : Nat) (s : State) : Out := .next (fusedResumeEffect t i k s)

/-! ## CANCEL, CANCEL_DRAIN_COMPLETE (R60 to R62, R380) -/

/-- The CANCEL request on a pair. -/
def cancelEffect (t p : Nat) (s0 : State) : State :=
  let s := s0.at t
  match s.req? p 0x0014 with
  | none => s
  | some r =>
    let b := r.payload
    let scope := fld b 0 1
    let g := fld b 1 1
    let copy := fld b 2 1
    let i := fld b 4 2
    if 2 < scope ∨ 3 < copy ∨ fld b 3 1 ≠ 0 ∨ fld b 6 2 ≠ 0 then s.answer p 0x0107
    else match aGet s.bf.graphs g with
    | none => s.answer p 0x0203
    | some q =>
      if q.parked then s.answer p 0x0203
      else if scope = 0 then
        match s.ctx? i with
        | none => s.answer p 0x0107
        | some c =>
          if c.graph ≠ g then s.answer p 0x0107
          else if !c.cancellable then s.answer p 0x0211
          else (s.cancelNode i).answer p 0
      else if scope = 1 then
        if q.copies.length ≤ copy then s.answer p 0x0107 else (s.cancelInstance g copy).answer p 0
      else (s.cancelGraph g).answer p 0

/-- CANCEL (R60). -/
def execCancel (t p : Nat) (s : State) : Out := .next (cancelEffect t p s)

/-- The chunk writes a cancelled DMA item had begun retire normally before its engine is free (R95). -/
def State.flushOpen (s : State) (i : Nat) : State :=
  (List.range 15).foldl (fun s e =>
    match (s.mem.dma.at e).item with
    | some it => if it.owner = .node i then s.dmaFlush e it else s
    | none => s) s

/-- A node's cancel drain ends: the record, and the units are free (R61). -/
def cancelDrainEffect (t i : Nat) (s0 : State) : State :=
  let s := s0.at t
  match s.ctx? i with
  | none => s
  | some c =>
    if !s.active || !c.draining then s
    else
      let s1 := s.flushOpen i
      let last := s1.lastTileOf i c
      ((s1.closeWork i c .cancelled 0x0207).endNode i .cancelled 0x0207 last).dropWork i c 0x0207

/-- CANCEL_DRAIN_COMPLETE (R61). -/
def execCancelDrainComplete (t i : Nat) (s : State) : Out := .next (cancelDrainEffect t i s)

/-! ## Multicast (R53 to R59) -/

/-- The header of a unit in a slot (R59). -/
def unitHeader (g r : Nat) (u : McUnit) : Bytes :=
  leBytes 2 0x5A3C ++ leBytes 1 g ++ leBytes 1 r ++ leBytes 4 u.frame ++ leBytes 2 u.unit ++ leBytes 1 (b2n u.last)
    ++ zeros 1 ++ leBytes 4 u.len

/-- A gap marker (R56). -/
def gapBytes (g r : Nat) (m : GapMark) : Bytes :=
  leBytes 2 0xA5C3 ++ leBytes 1 g ++ leBytes 1 r ++ leBytes 4 m.frame ++ leBytes 2 m.firstUnit ++ leBytes 2 m.reason
    ++ leBytes 4 m.timeLo

/-- A receiver of a group. -/
def State.recv? (s : State) (g r : Nat) : Option (McGroup × McRecv) :=
  match aGet s.bf.groups g with
  | some q => (q.recvs[r]?).map fun v => (q, v)
  | none => none

/-- The initiator that writes a group's slots: the DMA engine that distributes a node producer's units, or the pixel path's engine for a tap
(R57, R448). -/
def State.groupInitiator (s : State) (q : McGroup) : Nat := initDma (if q.isTap then s.pixelDma else q.engine)

/-- A node producer's units go out one by one: a unit waits while another receiver still has an earlier one to come, since the producer waits for
the laggard (R53). A camera tap's receivers are served apart (R55). -/
def McGroup.turnOf (q : McGroup) (v : McRecv) : Bool := q.isTap || q.recvs.all fun x => x.todo.length ≤ v.todo.length

/-- The receivers that a unit for receiver `r` goes out to: of a node producer every one that has it still to come, of a camera tap `r` alone
(R53, R55). -/
def McGroup.awaiting (q : McGroup) (r : Nat) (v : McRecv) : List Nat :=
  if q.isTap then [r]
  else (List.range q.recvs.length).filter fun k => ((q.recvs[k]?).map (·.todo.length)) == some v.todo.length

/-- Those of them that lack the credit which the producer needs from each before it writes the unit (R53, R58). -/
def State.lagging (s : State) (q : McGroup) (r : Nat) (v : McRecv) : List Nat :=
  (q.awaiting r v).filter fun k => s.beaconValue (q.creditBeacon k) == 0

/-- What a receiver without credit meets: it is shed at once under SHED or a zero HOLD_LIMIT, otherwise the hold begins (R53). -/
def State.holdOrShed (s : State) (g : Nat) (q : McGroup) (k : Nat) : State :=
  if q.policy = 1 ∨ q.holdLimit = 0 then s.shed g k 2
  else s.modRecv g k fun v => { v with holdFrom := some (v.holdFrom.getD s.now) }

/-- The bytes after the header of a unit's slot, with their offsets (R59). -/
def State.unitPieces (s : State) (q : McGroup) (u : McUnit) : List (Nat × Bytes) × State :=
  if q.isTap then (u.lines, s)
  else
    let r := s.read (s.groupInitiator q) u.addr u.len
    ([(0, r.1)], r.2.2)

/-- LENGTH of a unit: up to the end of its last line (R59; DEDUCED, log entry 111). -/
def piecesLength (l : List (Nat × Bytes)) : Nat := (l.map fun p => p.1 + p.2.length).foldl max 0

/-- The next unit goes to a receiver: with a credit from every receiver that is to have it, it is written and UNIT_BEACON is signalled; those that have
none are shed at once under SHED or a zero HOLD_LIMIT, and otherwise their hold begins. A gap marker that waits takes the credit first
(R53, R55, R58, R59). -/
def multicastWriteEffect (t g r : Nat) (s0 : State) : State :=
  let s := s0.at t
  match s.recv? g r with
  | none => s
  | some (q, v) =>
    match v.todo with
    | [] => s
    | u :: us =>
      if !s.active || !q.turnOf v then s
      else if !(s.lagging q r v).isEmpty then ((s.lagging q r v).foldl (fun s k => s.holdOrShed g q k) s).reportUnits g
      else if (q.awaiting r v).any fun k => ((q.recvs[k]?).map fun x => !x.gaps.isEmpty) == some true then s
      else
        let s1 := s.setBeacon (q.creditBeacon r) (s.beaconValue (q.creditBeacon r) - 1)
        let a := q.slotAddr r v.delivered
        let p := s1.unitPieces q u
        let s2 := (p.1.foldl (fun s x => s.record (s.groupInitiator q) (a + 16 + x.1) x.2) p.2).record (s.groupInitiator q) a
          (unitHeader g r { u with len := piecesLength p.1 })
        let s3 := s2.modRecv g r fun v => { v with todo := us, delivered := v.delivered + 1, holdFrom := none }
        ((s3.signalBeacon (q.unitBeacon r) 1).freeIfDone g).reportUnits g

/-- MULTICAST_UNIT_WRITE (R58). -/
def execMulticastUnitWrite (t g r : Nat) (s : State) : Out := .next (multicastWriteEffect t g r s)

/-- A shed receiver's gap marker is written with its next credit (R54, R56, R58). -/
def gapMarkerEffect (t g r : Nat) (s0 : State) : State :=
  let s := s0.at t
  match s.recv? g r with
  | none => s
  | some (q, v) =>
    match v.gaps with
    | [] => s
    | m :: ms =>
      if !s.active || s.beaconValue (q.creditBeacon r) == 0 then s
      else
        let s1 := s.setBeacon (q.creditBeacon r) (s.beaconValue (q.creditBeacon r) - 1)
        let f := s1.freeBytes (q.slotBytes r - 16)
        let s2 := f.2.record (f.2.groupInitiator q) (q.slotAddr r v.delivered) (gapBytes g r m ++ f.1)
        ((s2.modRecv g r fun v => { v with gaps := ms, delivered := v.delivered + 1, holdFrom := none }).signalBeacon (q.unitBeacon r) 1).reportUnits g

/-- GAP_MARKER_WRITE (R56). -/
def execGapMarkerWrite (t g r : Nat) (s : State) : Out := .next (gapMarkerEffect t g r s)

/-- A hold reaches HOLD_LIMIT: a receiver whose credit has come meanwhile is held no longer; a laggard is shed; under HOLD_STRICT a node producer's instance is cancelled with 0x020B, and a
camera tap sheds as under HOLD_SHED and records 0x020B (R53, R55). The units of a cancelled instance that wait stay queued for their receivers
(DESIGN CHOICE, log entry 112). -/
def holdExpiryEffect (t g r : Nat) (s0 : State) : State :=
  let s := s0.at t
  match s.recv? g r with
  | none => s
  | some (q, v) =>
    match v.holdFrom, v.todo.head? with
    | some from_, some u =>
      if !s.active || s.now < from_ + q.holdLimit * 1000 then s
      else if s.beaconValue (q.creditBeacon r) ≠ 0 then s.modRecv g r fun v => { v with holdFrom := none }
      else if q.policy = 2 then
        let s1 := (s.modGraph q.graph fun x => { x with status := 0x020B }).event 0x020B 5 q.graph [34 + q.graph % 16]
        if q.isTap then (s1.shed g r 1).reportUnits g
        else
          let s2 := s1.modRecv g r fun v => { v with holdFrom := none }
          match (aGet s.bf.graphs q.graph).bind fun x => findIdx (fun n => (n.map (·.frame)) == some u.frame) x.copies 0 with
          | some k => s2.cancelInstance q.graph k
          | none => s2
      else (s.shed g r 1).reportUnits g
    | _, _ => s

/-- HOLD_LIMIT_EXPIRY (R53). -/
def execHoldLimitExpiry (t g r : Nat) (s : State) : Out := .next (holdExpiryEffect t g r s)

/-! ## BELFRY_LOCKSTEP_MISMATCH, PARK_DRAIN_COMPLETE (R41, R66) -/

/-- A lockstep mismatch (R66). -/
def execBelfryLockstepMismatch (t : Nat) (s : State) : Out := .next ((s.at t).fatal 0x020C)

/-- The last instance in flight of a draining graph has ended: the eviction or the stop proceeds (R41, R380). -/
def parkDrainEffect (t g : Nat) (hostFail : Bool) (s0 : State) : State :=
  let s := s0.at t
  match aGet s.bf.graphs g with
  | none => s
  | some q =>
    if !s.active || q.inFlight then s
    else match q.drain with
      | .none => s
      | .park p => (s.evictGraph g p hostFail).gateUnused
      | .stop p => ((s.removeGraph g).gateUnused).answer p 0
      | .halt => s

/-- PARK_DRAIN_COMPLETE (R41). -/
def execParkDrainComplete (t : Nat) (g : HostSave) (s : State) : Out := .next (parkDrainEffect t g.id g.hostFail s)

end Sys2Proof.Machine
end

