-- ==== Sys2Proof/Machine/HostOps.lean ====
section
/-! DEFINITION. Shared operations of the host interface: when the host reaches the function, discarded writes, mailbox rings, the opcode
table, pairs that stop, and pending interrupt messages (R365 to R380, R385, R389, R390). -/
namespace Sys2Proof.Machine
open Sys2Proof

/-! ## Access -/

/-- The endpoint and the mailboxes changed. -/
def State.modPci (s : State) (f : Pci → Pci) : State := { s with pci := f s.pci }

/-- A mailbox pair changed. -/
def State.modPair (s : State) (p : Nat) (f : Pair → Pair) : State := s.modPci fun x => { x with pairs := x.pairs.mod p f }

/-- Memory requests of the host reach the function: nothing holds the device in reset, the link is up and the function is in D0. -/
def State.hostReach (s : State) : Bool := s.resets.held.isEmpty && s.pci.linkUp && !s.pci.d3hot

/-- A host write is discarded and counted in PCI_DISCARD (R367 to R371). -/
def State.discardWrite (s : State) : State := s.modPci fun x => { x with discards := satInc 16 x.discards }

/-- A host write to a register that is not host-writable: discarded, counted, and logged at most once per second (R12, R368). -/
def State.refuseWrite (s : State) : State := s.discardWrite.noteRare 0x0108 10 0xFF

/-- The device takes requests from the rings (R390, R489). -/
def State.mailboxesServed (s : State) : Bool := s.hostReach && s.pci.hokudan

/-! ## Interrupts (R385, R489) -/

/-- The messages of pending vectors that are no longer held back are sent. -/
def State.sendPending (s : State) : State :=
  (List.range 64).foldl (fun s v =>
    let e := s.pci.msix.at v
    if bit s.pci.pendingBits v && !e.masked && !s.pci.d3hot && s.pci.linkUp then
      (s.modPci fun x => { x with pendingBits := setBits x.pendingBits v 1 0 }).emit (.msix v e.addr e.data)
    else s) s

/-! ## Rings (R370, R371, R373) -/

/-- Requests that wait in a ring. -/
def Pair.waiting (q : Pair) : Nat := (q.reqTail + 2 ^ 16 - q.reqHead) % 2 ^ 16

/-- ENABLED falls: the ring indices read 0 and the next request may carry any SEQ. -/
def Pair.idle (q : Pair) : Pair := { q with enabled := false, reqHead := 0, reqTail := 0, rspHead := 0, rspTail := 0, expect := none }

/-- A pair stops on a failed fetch (0x0109) or a failed response write (0x010A); the request in progress gets no response. The event is
posted when the event pair is another enabled pair; the status is logged and vector 1 signalled either way (R374). -/
def State.stopPair (s : State) (p status : Nat) : State :=
  let s1 := s.modPair p fun q =>
    { q.idle with cur := none, fetchErr := q.fetchErr || status == 0x0109, writeErr := q.writeErr || status == 0x010A }
  if s1.pci.eventPair ≠ p ∧ (s1.pci.pairs.at s1.pci.eventPair).enabled then s1.event status 10 p [1]
  else (s1.note status 10 p).raise 1

/-- A write of MBX_CFG with ENABLE clear, or with ENABLE set (R370, R373): sizes are taken while ENABLED reads 0; a write of them while it
reads 1 is discarded and counted. -/
def State.writeSizes (s : State) (p v : Nat) : State :=
  let q := s.pci.pairs.at p
  if q.enabled then s.discardWrite
  else s.modPair p fun q => { q with rspLog2 := bits v 4 4, reqLog2 := bits v 0 4 }

/-- Setting ENABLE: the error bits clear, and the pair is served when both sizes lie from 1 to 8; otherwise 0x0107 is logged. ENABLE set again
before ENABLED has fallen abandons the disable (DEDUCED). -/
def State.setEnable (s : State) (p v : Nat) : State :=
  let s1 := s.writeSizes p v
  let q := s1.pci.pairs.at p
  if q.enable then s1
  else
    let s2 := s1.modPair p fun q => { q with enable := true, fetchErr := false, writeErr := false }
    if q.enabled then s2
    else if 1 ≤ q.rspLog2 && q.rspLog2 ≤ 8 && 1 ≤ q.reqLog2 && q.reqLog2 ≤ 8 then s2.modPair p fun q => { q.idle with enabled := true }
    else s2.note 0x0107 10 p

/-- Clearing ENABLE: a request already taken completes, then ENABLED reads 0; requests not taken are dropped. -/
def State.clearEnable (s : State) (p v : Nat) : State :=
  (s.writeSizes p v).modPair p fun q => if q.cur.isNone then { q.idle with enable := false } else { q with enable := false }

/-- A doorbell: the new tail is taken unless the pair is not enabled, or the pending count would exceed the entries or fall. -/
def State.ringDoorbell (s : State) (p tail : Nat) : State :=
  let q := s.pci.pairs.at p
  let pend := (tail % 2 ^ 16 + 2 ^ 16 - q.reqHead) % 2 ^ 16
  if !q.enabled || q.reqEntries < pend || pend < q.waiting then s.discardWrite
  else s.modPair p fun q => { q with reqTail := tail % 2 ^ 16 }

/-- A new response head, unless the pair is not enabled or it would pass RSP_TAIL. -/
def State.writeRspHead (s : State) (p head : Nat) : State :=
  let q := s.pci.pairs.at p
  let left := (q.rspTail + 2 ^ 16 - head % 2 ^ 16) % 2 ^ 16
  if !q.enabled || (q.rspTail + 2 ^ 16 - q.rspHead) % 2 ^ 16 < left then s.discardWrite
  else s.modPair p fun q => { q with rspHead := head % 2 ^ 16 }

/-! ## The opcode table (R376, R378, R380) -/

/-- A payload has its opcode's length. -/
def lengthOk (op : Nat) (b : Bytes) : Bool :=
  let n := b.length
  match op with
  | 0x0001 | 0x0002 => n == 0
  | 0x0003 => n == 8
  | 0x0004 => n == 4
  | 0x0010 => n == 32
  | 0x0011 => n == 16
  | 0x0012 | 0x0013 => n == 4
  | 0x0014 => n == 8
  | 0x0015 | 0x0016 => n == 4
  | 0x0020 => n == 64
  | 0x0021 => n == 4
  | 0x0022 => n == 32
  | 0x0023 => n == 4
  | 0x0024 => n == 32
  | 0x0025 => n == 24
  | 0x0026 => n == 72
  | 0x0027 => 8 ≤ n && (if bit (fld b 1 1) 0 then n == 8 else n == 8 + fld b 4 2)
  | 0x0028 => n == 4
  | 0x0030 => n == 24
  | 0x0031 => n == 136
  | 0x0040 => n == 0
  | 0x0041 => n == 8
  | 0x0042 => n == 4
  | 0x0043 => n == 16
  | 0x0050 => 16 ≤ n && n ≤ 4080 && (n - 8) % 8 == 0
  | 0x0051 => n == 8
  | 0x0060 => n == 80
  | 0x0061 => n == 16
  | 0x0062 => n == 4
  | 0x0063 => n == 260
  | _ => true

/-- What a request names that a long operation may hold: a graph, a camera or the staging area (R378). CANCEL is the exception. -/
inductive Held where
  | graph (g : Nat)
  | camera (c : Nat)
  | staging
  deriving DecidableEq, Repr, Inhabited

/-- The objects a request names: GRAPH_ADMIT the cameras of its CAMERA_MAP, PEER_CONFIG the graph of an import entry or of a mapping (R378, R383, R408). -/
def MbxReq.names (r : MbxReq) : List Held :=
  let b0 := fld r.payload 0 1
  match r.opcode with
  | 0x10 => ((List.range 16).map fun c => Held.camera (bits (fld r.payload 0x10 8) (4 * c) 4)).eraseDups
  | 0x11 | 0x12 | 0x13 => [.graph b0]
  | 0x20 | 0x22 | 0x24 => [.camera (b0 % 16)]
  | 0x21 | 0x23 | 0x27 => [.camera b0]
  | 0x50 | 0x51 => [.staging]
  | 0x61 => if b0 = 2 then [.graph (fld r.payload 5 1)] else if b0 = 3 then [.graph (fld r.payload 1 1)] else []
  | _ => []

/-- A long operation in progress on one of the pairs listed names an object of the request. -/
def State.busyOn (s : State) (ps : List Nat) (r : MbxReq) : Bool :=
  ps.any fun p => match (s.pci.pairs.at p).cur with
    | some q => q.long && q.names.any r.names.contains
    | none => false

/-- Checks 5 and 6 of R376, and the busy check of R378 against the pairs listed, of a request that sits on its pair; 0 when it passes. -/
def State.serveStatus (s : State) (ps : List Nat) (p : Nat) (r : MbxReq) : Nat :=
  if !opServed s.pci.state p r.opcode then 0x0106
  else if !lengthOk r.opcode r.payload then 0x0103
  else if s.busyOn ps r then 0x010D
  else 0

/-- Requests that BOOTING held back are served in pair order on READY: refused with their status, or left for their command. In any other
state a held request completes with 0x0106, and only opcodes served in every state are left (R390). -/
def State.serveHeld (s : State) : State :=
  (List.range 16).foldl (fun s p =>
    match (s.pci.pairs.at p).cur with
    | some r =>
      let st := if s.pci.state ≠ .ready ∧ !opAlways r.opcode then 0x0106 else s.serveStatus (List.range p) p r
      if r.started ∨ st = 0 then s else s.answer p st
    | none => s) s

/-! ## The cache share (R74, R75) -/

/-- Every line leaves the cache, dirty data written back. -/
def State.flushCache (s : State) : State :=
  ((s.mem.cache.map (·.2)).flatten).foldl State.evict { s with mem := { s.mem with cache := [] } }

/-- The cache share changes. A change of the number of sets moves every line, so the whole cache is written back; scratchpad that is given up keeps
nothing, so that what is released later reads as zero (R75). -/
def State.setCache (s : State) (n : Nat) : State :=
  if n = s.mem.cacheEighths then s
  else
    let s1 := s.flushCache
    let lim := scratchBase + (8 - n) * 0x60_0000
    let top := scratchBase + 0x300_0000
    { s1 with mem := { s1.mem with
        cacheEighths := n, cells := memClear s1.mem.cells lim (top - lim)
        bad := s1.mem.bad.filter fun b => !(lim ≤ b && b < top) } }

/-- No admitted graph holds a scratchpad partition, so the cache share may change (R75). -/
def State.cacheFree (s : State) : Bool := !s.bf.graphs.any fun g => !g.2.partitions.isEmpty

end Sys2Proof.Machine
end

