-- ==== Sys2Proof/Machine/Rfe.lean ====
section
/-! DEFINITION. The commands of the raw front-ends: line reads, parameter sets, taps, statistics and metadata (chapter 10). -/
namespace Sys2Proof.Machine
open Sys2Proof

/-! ## RFE_LINE_READ (R231, R241, R243, R303) -/

/-- The camera whose frames an RFE is processing: the one with an unfinished frame that started on it. -/
def State.rfeCam (s : State) (r : Nat) : Option Nat :=
  (List.range 16).find? fun c => match (s.cams.at c).frames.head? with
    | some f => !f.dropped && f.rfe == r
    | none => false

/-- Row-groups that became ready as the rows went from `n0` to `n1` take their deadlines; those of a camera on the network path join
the SNE's list (R303, R304). -/
def State.readyNet (s : State) (c n0 n1 : Nat) : State :=
  s.modCam c fun k =>
    match k.net, k.frames with
    | some n, f :: _ =>
      if f.stripes = 0 then k
      else
        let h := bH k.bind
        let r0 := readyGroups h n.vb n0
        let r1 := readyGroups h n.vb n1
        let n2 := (List.range (r1 - r0)).foldl (fun (n : Net) i =>
          let d := max s.now n.lastDeadline + 16 * fld n.bindRec 4 4
          { n with lastDeadline := d
                   groups := if n.active && !f.classical && f.switchUnit.isNone then
                       n.groups ++ [{ index := r0 + i, ready := s.now, deadline := d }] else n.groups }) n
        { k with net := some n2 }
    | _, _ => k

/-- Where the line that a camera's RFE reads next stands in its line buffer. -/
def fifoAddr (k : Cam) : Nat := k.fifoPlace ((k.frames.head?.map (·.rows.length)).getD 0)

/-- The codes of the line an RFE reads, and whether it had to be repaired: from the FIFO as they arrived, from the ring through the
pixel path's DMA engine (R241, R243); a line lost in a failed engine is repaired (R448). -/
def State.lineCodes (s : State) (c : Nat) (l : Line) (err : ReadErr) : Option (List Nat) × State :=
  let k := s.cams.at c
  if l.lost then (none, s)
  else match l.slot with
  | none =>
    let a := fifoAddr k
    let s1 := if err = .uncorrectable then s.strike a else s
    if s1.isBad a k.lineBytes then (none, s1.countUncorrectable 0x0902 a k.rfe) else (some l.codes, s1.noteCorrected err a)
  | some i =>
    let sp := ringSpan k.bind i
    let a := bSpill k.bind + sp.1
    let r := s.readMeet (initDma s.pixelDma) a sp.2.1 err
    if r.2.1 ≠ 0 then (none, r.2.2)
    else (some (((unpackRaw (bDepth k.bind) r.1).drop sp.2.2).take (bW k.bind)), r.2.2)

/-- The group that a tap feeds under GROUP. -/
def State.tapMc (s : State) (d : Bytes) : Option McGroup := (aGet s.bf.groups (tapGroup d)).bind fun q => if q.isTap then some q else none

/-- A group under HOLD_SHED or HOLD_STRICT waits for a credit of some receiver (R53, R55). -/
def State.groupHolds (s : State) (q : McGroup) : Bool :=
  q.policy != 1 && q.holdLimit != 0 && (List.range q.recvN).any fun r => match q.recvs[r]? with
    | some v => !v.todo.isEmpty && s.beaconValue (q.creditBeacon r) == 0
    | none => false

/-- A hold of a tap's group holds the RFE's outputs (R55, R281): all but those of tap `own`, whose units accumulate while its other receivers are
served. -/
def State.rfeHeld (s : State) (f : Frame) (own : Option Nat) : Bool :=
  (List.range 4).any fun i =>
    let d := f.taps.at i
    some i != own && !d.isEmpty && tapEnable d && tapDest d == 1 && match s.tapMc d with
      | some q => s.groupHolds q
      | none => false

/-- The RFE reads its next line, in arrival order; a hold of its outputs holds it too, and ingress spills (R281). -/
def rfeLineReadEffect (t r : Nat) (err : ReadErr) (s0 : State) : State :=
  let s := s0.at t
  match s.rfeCam r with
  | none => s
  | some c =>
    let k := s.cams.at c
    match k.lines, k.frames with
    | l :: ls, f :: _ =>
      if !s.active || (s.rfe.at r).failed || l.frame != f.num || s.rfeHeld f none then s
      else
        let x := s.lineCodes c l err
        let row := x.1.getD (f.rows.getLast?.getD (List.replicate (bW k.bind) k.profile.black))
        let bad := x.1.isNone
        let s1 := x.2.modCam c fun k => { k.modHead fun f => { f with
          rows := f.rows ++ [row], repaired := f.repaired || bad, repairedLines := f.repairedLines + b2n bad } with lines := ls }
        let s2 := if l.slot.isSome then s1.spillNext c else s1
        (s2.readyNet c f.rows.length (f.rows.length + 1)).returnGroups c (k.groupsN)
    | _, _ => s

/-- RFE_LINE_READ (R241). -/
def execRfeLineRead (t r : Nat) (err : ReadErr) (s : State) : Out := .next (rfeLineReadEffect t r err s)

/-! ## Parameter sets (R250, R276, R277) -/

/-- A submission is refused: counted, and the status the RFE reports last (R276). -/
def State.refusePset (s : State) (r status : Nat) : State :=
  s.modRfe r fun x => { x with rejects := satInc 8 x.rejects, lastStatus := status }

/-- A set is discarded: counted and logged (R277). -/
def State.rejectPset (s : State) (r status : Nat) : State := (s.refusePset r status).note status 3 r

/-- The camera bound to an RFE. -/
def State.camOfRfe (s : State) (r : Nat) : Option Nat :=
  (List.range 16).find? fun c => (s.cams.at c).bound && (s.cams.at c).rfe == r

/-- A 16-byte submission to an RFE: its status and the state after (R276). -/
def State.takePset (s : State) (r : Nat) (b : Bytes) : Nat × State :=
  match s.camOfRfe r with
  | none => (0x0513, s)
  | some c =>
    let k := s.cams.at c
    let addr := bits (fld b 0 8) 0 40
    if bits (fld b 0 8) 40 24 ≠ 0 ∨ fld b 0x0E 2 ≠ 0 ∨ addr % 64 ≠ 0 then (0x0517, s.rejectPset r 0x0517)
    else
      let tg := fld b 8 4
      let target := if k.started && !aheadOf tg k.frameNo then nextFrame k.frameNo else tg
      let x := s.rfe.at r
      let gone := x.pending.filter fun p => p.target == target || aheadOf p.target target
      let kept := x.pending.filter fun p => !(p.target == target || aheadOf p.target target)
      let s1 := gone.foldl (fun s _ => (s.modRfe r fun x => { x with lastStatus := 0x0519 }).note 0x0519 3 r) s
      if 4 ≤ kept.length + b2n x.loading.isSome then (0x0518, s1.refusePset r 0x0518)
      else (0, s1.modRfe r fun x => { x with pending := kept ++ [{ addr := addr, target := target, tag := fld b 0x0C 2 }] })

/-- The PSET_SUBMIT request on a pair. -/
def psetSubmitEffect (t p : Nat) (s0 : State) : State :=
  let s := s0.at t
  match s.req? p 0x0025 with
  | none => s
  | some q =>
    let r := fld q.payload 0 1
    if 15 < r ∨ !allZero (sub q.payload 1 7) then s.answer p 0x0107
    else
      let x := s.takePset r (sub q.payload 8 16)
      x.2.answer p x.1

/-- PSET_SUBMIT (R276). -/
def execPsetSubmit (t p : Nat) (s : State) : Out := .next (psetSubmitEffect t p s)

/-- A write reaches RFE_PSET_SUBMIT[r] from DMA engine `e`: one whole aligned write of 16 bytes is a submission, any other returns
0x0517 (R250). -/
def psetWindowWriteEffect (t e r off : Nat) (b : Bytes) (s0 : State) : State :=
  let s := s0.at t
  let a := psetWindow r + off
  let st := s.accessStatus (initDma e) a b.length true
  if !s.active || 12 ≤ e || 16 ≤ r || 16 ≤ off then s
  else if st ≠ 0 then (s.countRefusal (initDma e) st).windowFault e (if st = 0x0A10 then 0x0306 else st)
  else if b.length ≠ 16 ∨ off ≠ 0 then s.windowFault e 0x0517
  else
    let x := s.takePset r b
    if x.1 = 0 then x.2 else x.2.windowFault e x.1

/-- RFE_PSET_SUBMIT_WRITE (R250). -/
def execRfePsetSubmitWrite (t e r off : Nat) (b : Bytes) (s : State) : Out := .next (psetWindowWriteEffect t e r off b s)

/-- The pending set with the earliest target (R276, R277). -/
def earliestSet (n : Nat) (l : List PsetSub) : Option PsetSub :=
  l.foldl (fun best x => match best with
    | none => some x
    | some y => if (x.target + 2 ^ 31 + 2 ^ 32 - n) % 2 ^ 32 < (y.target + 2 ^ 31 + 2 ^ 32 - n) % 2 ^ 32 then some x else some y) none

/-- With the shadow free, the earliest pending set begins to load. -/
def psetLoadStartEffect (t r : Nat) (s0 : State) : State :=
  let s := s0.at t
  let x := s.rfe.at r
  match s.camOfRfe r with
  | none => s
  | some c =>
    if !s.active || x.failed || x.shadow.isSome || x.loading.isSome then s
    else match earliestSet (s.cams.at c).frameNo x.pending with
      | none => s
      | some p => s.modRfe r fun x => { x with loading := some p, pending := x.pending.filter (· != p) }

/-- PSET_LOAD_START (R277). -/
def execPsetLoadStart (t r : Nat) (s : State) : Out := .next (psetLoadStartEffect t r s)

/-- A set has loaded: checked, it becomes the shadow or is discarded with 0x0517. A set whose load finishes only after its target's
frame start is late (R278). -/
def psetLoadCompleteEffect (t r : Nat) (s0 : State) : State :=
  let s := s0.at t
  let x := s.rfe.at r
  match x.loading, s.camOfRfe r with
  | some p, some c =>
    if !s.active then s
    else
      let k := s.cams.at c
      let rd := s.read (initDma s.pixelDma) p.addr 24192
      let s1 := rd.2.2.modRfe r fun x => { x with loading := none }
      if rd.2.1 ≠ 0 ∨ psetBad (bW k.bind) (bH k.bind) rd.1 then s1.rejectPset r 0x0517
      else s1.modRfe r fun x => { x with shadow := some (p, rd.1), shadowLate := k.started && !aheadOf p.target k.frameNo }
  | _, _ => s

/-- PSET_LOAD_COMPLETE (R277). -/
def execPsetLoadComplete (t r : Nat) (s : State) : Out := .next (psetLoadCompleteEffect t r s)

/-! ## TAP_CONFIG (R279, R280, R282, R288, R289) -/

/-- The formats a tap may use (R280). -/
def tapFormatOk (tap fmt : Nat) : Bool :=
  match tap with
  | 0 => [1, 2, 3, 4].contains fmt
  | 1 => [3, 4, 5, 6].contains fmt
  | 2 => [0x10, 0x11, 0x12, 0x13].contains fmt
  | _ => fmt == 0x20 || fmt == 0x21

/-- Reserved codes and fields of a tap descriptor. -/
def tapReserved (tap : Nat) (d : Bytes) : Bool :=
  bits (fld d 0 1) 2 6 != 0 || (tap != 3 && tapAfter5 d) || tapDest d == 3 || 5 < tapComp d || (tap != 3 && tapComp d != 0)
    || 7 < fld d 0x1C 1 || !allZero (sub d 0x1D 3) || bits (fld d 0x10 8) 40 24 != 0 || bits (fld d 0x28 8) 40 24 != 0
    || !allZero (sub d 0x30 16)

/-- Crop and output sizes against a frame: all even, the crop inside, the scale ratio from 1 to 8 (R274, R279). -/
def tapShapeOk (tap w h : Nat) (d : Bytes) : Bool :=
  tapCropX d % 2 == 0 && tapCropY d % 2 == 0 && tapCropW d % 2 == 0 && tapCropH d % 2 == 0 && tapOutW d % 2 == 0 && tapOutH d % 2 == 0
    && tapCropX d + tapCropW d ≤ w && tapCropY d + tapCropH d ≤ h
    && tapOutW d ≤ tapCropW d && tapCropW d ≤ 8 * tapOutW d && tapOutH d ≤ tapCropH d && tapCropH d ≤ 8 * tapOutH d
    && (tap != 3 || (tapCropX d == 0 && tapCropY d == 0 && tapCropW d == w && tapCropH d == h && tapOutW d == w && tapOutH d == h))

/-- Every phase of a coefficient table sums to 1,024 (R274). -/
def tableOk (table : Bytes) : Bool :=
  (List.range 64).all fun p => ((List.range 6).foldl (fun (a : Int) k => a + scalerCoef table p k) 0) == 1024

/-- The ring's buffers lie in free DRAM or in a graph's partition (R282). -/
def State.tapRingOk (s : State) (d : Bytes) : Bool :=
  let n := tapBufBytes d * tapBufs d
  s.dramFree (tapBase d) n || s.bf.graphs.any fun g =>
    g.2.partitions.any fun p => scratchBase + p.1 * 4096 ≤ tapBase d && tapBase d + n ≤ scratchBase + (p.1 + p.2) * 4096

/-- Bits per pixel on an egress port, none where the format may not go there (R288). -/
def egressBits (tap depth : Nat) (d : Bytes) : Option Nat :=
  match tapFormat d with
  | 2 => some 24
  | 3 => some 16
  | 4 => some 20
  | _ => if tap = 3 ∧ 10 ≤ depth ∧ tapComp d = 0 then some depth else none

/-- The egress taps configured on a port: RFE, tap and descriptor. -/
def State.egressTaps (s : State) (port : Nat) : List (Nat × Nat × Bytes) :=
  ((List.range 16).map fun r => (List.range 4).filterMap fun i =>
    let x := (s.rfe.at r).taps.at i
    let d := x.next.getD x.desc
    if !d.isEmpty && tapEnable d && tapDest d == 2 && tapEgress d == port then some (r, i, d) else none).flatten

/-- Load of a tap on its port in bits per second, as a fraction (R289). -/
def State.egressLoad (s : State) (r tap : Nat) (d : Bytes) : Nat × Nat :=
  match s.camOfRfe r with
  | none => (0, 1)
  | some c =>
    let k := s.cams.at c
    (tapOutW d * tapOutH d * (egressBits tap (bDepth k.bind) d).getD 0 * 1000000000 * 105, 100 * max k.profile.periodNs 1)

/-- Bits per second of an egress port; none at a rate outside R288's 80 to 4,500 Mbps per lane (DESIGN CHOICE, log entry 155). -/
def Egress.capacity (e : Egress) : Nat :=
  if e.enable && !e.failed && decide (80 ≤ e.rate ∧ e.rate ≤ 4500) then (match e.lanesM1 with
    | 0 => 1
    | 1 => 2
    | 3 => 4
    | _ => 0) * e.rate * 1000000 else 0

/-- The first line of a tap's row-group `g` in a plane: the chroma plane of a 4:2:0 format has half the lines (R280). -/
def planeLine (fmt plane g : Nat) : Nat := if (fmt = 5 ∨ fmt = 6) ∧ plane = 1 then 8 * g else 16 * g

/-- Where a line of a tap's unit lies behind the slot's header: plane p at p x 16 x PITCH, its lines PITCH apart (R59). -/
def tapPieces (d : Bytes) (g : Nat) (ls : List (Nat × Nat × Bytes)) : List (Nat × Bytes) :=
  ls.map fun l => ((l.1 * 16 + (l.2.1 - planeLine (tapFormat d) l.1 g)) * tapPitch d, l.2.2)

/-- The largest unit of a tap (R58): its first row-group. -/
def tapUnitBytes (tap depth : Nat) (d : Bytes) : Nat :=
  let line := fun (y : Nat) =>
    if tap = 3 then [(0, y, if tapFormat d = 0x20 then 2 * tapOutW d else rawBytes depth (tapOutW d))]
    else (tapLine (tapFormat d) (tapOutW d) y fun _ _ => []).map fun l => (l.1, l.2.1, l.2.2.length)
  ((List.range (min 16 (tapOutH d))).flatMap fun y => (line y).map fun l => (l.1 * 16 + l.2.1) * tapPitch d + l.2.2).foldl max 0

/-- The group that a tap names under GROUP does not serve it: it is a node producer's, or some receiver's slots are too small (R57, R58; DEDUCED,
log entry 116). A group that is not defined yet is checked when its graph is admitted. -/
def State.tapGroupBad (s : State) (tap depth : Nat) (d : Bytes) : Bool :=
  tapDest d == 1 && match aGet s.bf.groups (tapGroup d) with
    | some q => !q.isTap || (List.range q.recvN).any fun r => q.slotBytes r < 16 + tapUnitBytes tap depth d
    | none => false

/-- The status of a change of a tap descriptor: R282's checks hold whether or not it enables the tap; the load of R289 counts an enabled one. -/
def State.tapStatus (s : State) (r tap : Nat) (d : Bytes) : Nat :=
  match s.camOfRfe r with
  | none => 0x051B
  | some c =>
    let k := s.cams.at c
    if s.tapNamed r tap || tapReserved tap d then 0x051B
    else if !tapFormatOk tap (tapFormat d) || !tapShapeOk tap (bW k.bind) (bH k.bind) d then 0x051B
    else if (tapCropW d ≠ tapOutW d ∨ tapCropH d ≠ tapOutH d) && !tableOk (s.read (initDma s.pixelDma) (tapScaler d) 768).1 then 0x051B
    else if tapDest d = 0 && !s.tapRingOk d then 0x051B
    else if tapComp d ≠ 0 && bW k.bind % 128 ≠ 0 then 0x051B
    else if s.tapGroupBad tap (bDepth k.bind) d then 0x051B
    else if tapDest d = 2 then
      let others := (s.egressTaps (tapEgress d)).filter fun x => !(x.1 == r && x.2.1 == tap)
      let load := (others.map fun x => s.egressLoad x.1 x.2.1 x.2.2).foldl fracAdd (s.egressLoad r tap d)
      if (egressBits tap (bDepth k.bind) d).isNone then 0x051C
      else if tapEnable d && (4 ≤ others.length || (s.egress.at (tapEgress d)).capacity * load.2 < load.1) then 0x051C
      else 0
    else 0

/-- The TAP_CONFIG request on a pair: an accepted descriptor takes effect at the camera's next frame start. -/
def tapConfigEffect (t p : Nat) (s0 : State) : State :=
  let s := s0.at t
  match s.req? p 0x0026 with
  | none => s
  | some q =>
    let r := fld q.payload 0 1
    let tap := fld q.payload 1 1
    if 15 < r ∨ 3 < tap ∨ !allZero (sub q.payload 2 6) then s.answer p 0x0107
    else
      let d := sub q.payload 8 64
      let st := s.tapStatus r tap d
      if st ≠ 0 then s.answer p st
      else (s.modRfe r fun x => { x with taps := x.taps.mod tap fun t => { t with next := some d } }).answer p 0

/-- TAP_CONFIG (R279). -/
def execTapConfig (t p : Nat) (s : State) : Out := .next (tapConfigEffect t p s)

/-! ## TAP_ROW_GROUP_WRITE (R268, R280, R281, R283, R288 to R290) -/

/-- Stage 6 and stage 7 of a pixel: the network's code where its unit came from the network path, otherwise the classical path
(R268, R287, R297). -/
def Frame.pixel (f : Frame) (raw : RawFrame) (x y : Nat) : Int × Int × Int :=
  let u := y / 16 * f.stripes + x / max f.stripeW 1
  let net := !f.classical && f.stripes != 0 && match f.switchUnit with
    | some sw => decide (u < sw)
    | none => true
  raw.matrix (match net, aGet f.merged u with
    | true, some b =>
      let s0 := x / f.stripeW * f.stripeW
      let cols := min f.stripeW (raw.w - s0)
      let ch := if raw.mono then 1 else 3
      let q := fun (i : Nat) => toSigned 16 (fld b (2 * (((y % 16) * cols + (x - s0)) * ch + i)) 2) * 16
      if raw.mono then (q 0, q 0, q 0) else (q 0, q 1, q 2)
    | _, _ => raw.classical x y)

/-- The lines of plane, line number and bytes that a tap writes for one of its output lines. -/
def State.tapOut (s : State) (k : Cam) (f : Frame) (tap : Nat) (d : Bytes) (y : Nat) : List (Nat × Nat × Bytes) :=
  let raw := f.raw k
  if tap = 3 then [(0, y, raw.rawTapLine (tapFormat d) (tapAfter5 d) y)]
  else
    let table := s.peek (tapScaler d) 768
    let blk := raw.block tap
    tapLine (tapFormat d) (tapOutW d) y (tapPixel d table blk (f.pixel raw))

/-- The output lines of one tap group, a line with a parity error replaced by the tap's previous line of its plane (R290). -/
def State.tapGroupLines (s : State) (k : Cam) (f : Frame) (tap : Nat) (d : Bytes) (bad : List Nat) (prev : List (Nat × Bytes))
    (g : Nat) : List (Nat × Nat × Bytes) × List (Nat × Bytes) :=
  (List.range (min 16 (tapOutH d - 16 * g))).foldl (fun acc i =>
    let y := 16 * g + i
    (s.tapOut k f tap d y).foldl (fun acc l =>
      let b := if bad.contains y then (aGet acc.2 l.1).getD l.2.2 else l.2.2
      (acc.1 ++ [(l.1, l.2.1, b)], aSet acc.2 l.1 b)) acc) ([], prev)

/-- Input lines that a tap's group needs: the last line of its crop that the scaler reads. -/
def tapNeeds (d : Bytes) (g : Nat) : Nat :=
  let y := min (16 * g + 15) (tapOutH d - 1)
  min (tapCropY d + tapCropH d) (tapCropY d + (2 * y + 1) * tapCropH d / (2 * max (tapOutH d) 1) + 4)

/-- The group's inputs are there: its row-groups have been returned, and the context of the classical stages has been read. -/
def Cam.tapReady (k : Cam) (f : Frame) (d : Bytes) (g : Nat) : Bool :=
  let y := tapNeeds d g
  decide (min (bH k.bind) y ≤ 16 * f.returned) && decide (min (bH k.bind) (y + 8) ≤ f.rows.length)

/-- A tap's write to its ring: a poisoned one marks the nodes on the tap's row-groups or frame end that report the frame (R433); a refused one is
dropped. The records of a frame change nothing of what they report (R64). -/
def State.tapWrite (s : State) (r tap : Nat) (f : Frame) (a : Nat) (bs : Bytes) : State :=
  let w := s.write (initDma s.pixelDma) a bs
  if w.1 = 0x0309 then w.2.poisonSources ((s.rfeCam r).getD 0) f.num f.since fun c => (rfeHit r 0 tap c).or (rfeHit r 1 tap c) else w.2

/-- A block of a compressed raw frame is stored: its bytes at the start of its slot, its length in its header byte (R98). -/
def State.putRawBlock (s : State) (r tap : Nat) (f : Frame) (head addr slot : Nat) (b : Bytes × Bytes) : State :=
  let s1 := (s.tapWrite r tap f addr b.1).tapWrite r tap f head (leBytes 1 (b.1.length / 32))
  s1.keepBlock head addr slot b

/-- The line pairs of a group of a raw tap go to a ring buffer compressed: one header byte for each block of the frame in raster order, and the slots in the
same order behind them (R98; log entry 129). -/
def State.tapRingCoded (s : State) (r tap : Nat) (f : Frame) (d : Bytes) (depth buf : Nat) (ls : List (Nat × Nat × Bytes)) : State :=
  let per := tapOutW d / 128
  let slot := 32 * rawBits (tapFormat d) depth
  let base := tapBase d + buf * tapBufBytes d
  let line := fun (y : Nat) => rawLineCodes (tapFormat d) depth (((ls.find? (·.2.1 == y)).map (·.2.2)).getD [])
  ((ls.map (·.2.1)).filter (· % 2 == 0)).foldl (fun s y =>
    (List.range per).foldl (fun s i =>
      let j := y / 2 * per + i
      let codes := ((line y).drop (128 * i)).take 128 ++ ((line (y + 1)).drop (128 * i)).take 128
      s.putRawBlock r tap f (base + j) (base + per * (tapOutH d / 2) + slot * j) slot (rawBlock (tapComp d) (tapFormat d) depth codes)) s) s

/-- The lines of a group go to a ring buffer (R281), those of a compressed raw tap as blocks (R280). -/
def State.tapRing (s : State) (r tap : Nat) (f : Frame) (d : Bytes) (depth buf : Nat) (ls : List (Nat × Nat × Bytes)) : State :=
  if tapComp d ≠ 0 then s.tapRingCoded r tap f d depth buf ls
  else ls.foldl (fun s l =>
    s.tapWrite r tap f (tapBase d + buf * tapBufBytes d + l.1 * tapPlane d + l.2.1 * tapPitch d) l.2.2) s

/-- CSI-2 data type of an egress tap (R288). -/
def egressType (tap depth : Nat) (d : Bytes) : Nat :=
  match tapFormat d with
  | 2 => 0x24
  | 3 => 0x1E
  | 4 => 0x1F
  | _ => if tap = 3 then (match depth with
    | 10 => 0x2B
    | 12 => 0x2C
    | 14 => 0x2D
    | _ => 0x2E) else 0

/-- A tap's line as its CSI-2 data type packs it: 10-bit YCbCr in groups of four samples and raw codes at their depth; the other formats go as
they stand in memory (R280, R288; DEDUCED, log entry 157). -/
def egressLine (depth : Nat) (d b : Bytes) : Bytes :=
  match tapFormat d with
  | 4 => packRaw 10 ((List.range (b.length / 2)).map fun k => fld b (2 * k) 2 / 64)
  | 0x20 => packRaw depth (rawLineCodes 0x20 depth b)
  | _ => b

/-- FLAGS of R286. -/
def Frame.flags (f : Frame) : Nat :=
  b2n f.repaired + 2 * b2n f.short + 4 * b2n f.long + 8 * b2n f.slip + 16 * b2n f.unmatched + 32 * b2n f.timeStep + 64 * b2n f.psetLate

/-- The 128-byte metadata record of R286. -/
def metaRecord (c : Nat) (k : Cam) (f : Frame) : Bytes :=
  let dyn := if fld f.pset 0x50 2 = 0 then 0
    else sumRect 0 0 (bW k.bind) (bH k.bind) fun a b =>
      b2n ((f.raw k).dynDefect a b && !((k.profile.defects.map defectOf).contains (a, b)))
  let buf := fun (i : Nat) => f.tapBuf.at i % 16 * 16 ^ i
  leBytes 4 f.num ++ leBytes 1 c ++ leBytes 1 f.flags ++ leBytes 2 f.epoch ++ leBytes 8 f.tFs ++ leBytes 8 (f.tFe.getD 0)
    ++ leBytes 8 f.tGroup ++ leBytes 2 f.sensorFn ++ leBytes 2 f.drops ++ leBytes 2 (min f.repairedLines 0xFFFF)
    ++ leBytes 2 f.psetEpoch ++ leBytes 2 f.psetTag ++ leBytes 1 (b2n f.classical + 4 * f.reason)
    ++ leBytes 1 (f.shortPkts.length + 8 * f.shortLost) ++ leBytes 4 (f.switchUnit.getD 0xFFFFFFFF) ++ leBytes 2 k.groupsN
    ++ leBytes 1 f.stripes ++ leBytes 1 (if f.stripes = 0 then 0x80 else f.sne) ++ leBytes 4 dyn
    ++ leBytes 2 (buf 0 + buf 1 + buf 2 + buf 3) ++ zeros 6 ++ padTo 64 f.shortPkts.flatten

/-- A frame-end packet of an egress port, and the periodic deskew of the blanking that follows it above 1.5 Gbps (R288). -/
def State.egressEnd (s : State) (port vc no : Nat) : State :=
  let s1 := s.emit (.csi2 port vc 1 (leBytes 2 no))
  if 1500 < (s.egress.at port).rate then s1.emit (.deskew port false) else s1

/-- A group's lines leave on an egress port: the frame-start packet and the metadata line before the first, the frame-end packet after
the last; a truncated frame ends at once with a frame-end packet and sends no more (R288, R289). -/
def State.tapEgressOut (s : State) (c : Nat) (f : Frame) (r tap : Nat) (d : Bytes) (g : Nat) (last : Bool) (trunc : EgressCut)
    (ls : List (Nat × Nat × Bytes)) : State :=
  let k := s.cams.at c
  let port := tapEgress d
  let vc := tapVc d
  let no := f.num % 65535 + 1
  let cut := ((s.rfe.at r).taps.at tap).cut && g != 0
  let s1 := if g = 0 then
      (s.emit (.csi2 port vc 0 (leBytes 2 no))).emit (.csi2 port vc 0x12 (metaRecord c k f)) else s
  if cut then s
  else if trunc ≠ .none || (s.egress.at port).failed || !(s.egress.at port).enable then
    let s2 := ({ s1.egressEnd port vc no with egress := s.egress.mod port fun e => { e with failed := e.failed || decide (trunc = EgressCut.portFails) } }).modRfe r fun x =>
      { x with lastStatus := 0x051D, taps := x.taps.mod tap fun t => { t with cut := true, truncated := satInc 8 t.truncated } }
    s2.event 0x051D 3 c [18 + c]
  else
    let s2 := ls.foldl (fun s l => s.emit (.csi2 port vc (egressType tap (bDepth k.bind) d) (egressLine (bDepth k.bind) d l.2.2))) s1
    if last then s2.egressEnd port vc no else s2

/-- A tap writes its next row-group. `bad` are the output lines whose parity or CRC fails; `trunc` says whether an egress frame is cut. -/
def tapWriteEffect (t r tap : Nat) (bad : List Nat) (trunc : EgressCut) (s0 : State) : State :=
  let s := s0.at t
  match s.rfeCam r with
  | none => s
  | some c =>
    let k := s.cams.at c
    match k.frames with
    | [] => s
    | f :: _ =>
      let x := (s.rfe.at r).taps.at tap
      let d := f.taps.at tap
      let g := f.tapNext.at tap
      if !s.active || (s.rfe.at r).failed || 4 ≤ tap || d.isEmpty || !tapEnable d || f.tapDone.at tap || !k.tapReady f d g
          || (tapDest d != 2 && s.rfeHeld f (some tap))
      then s
      else
        let last := decide (tapOutH d ≤ 16 * (g + 1))
        let badHere := bad.filter fun y => decide (16 * g ≤ y ∧ y < min (16 * g + 16) (tapOutH d))
        let ls := s.tapGroupLines k f tap d badHere x.prev g
        let buf := f.tapBuf.at tap
        let s1 := s.modRfe r fun x => { x with
          parity := satAdd 8 x.parity badHere.length
          taps := x.taps.mod tap fun t => { t with
            buffer := if last then buf else t.buffer, prev := ls.2, cut := t.cut && g != 0
            frameLo := if last then f.num % 2 ^ 16 else t.frameLo } }
        let s2 := match tapDest d with
          | 0 => s1.tapRing r tap f d (bDepth k.bind) buf ls.1
          | 1 => match s1.tapMc d with
            | some _ => s1.offerUnits (tapGroup d)
                [{ frame := f.num, unit := g, last := last, lines := tapPieces d g ls.1, rfe := r, tap := tap, cam := c, since := f.since }]
            | none => s1
          | _ => s1.tapEgressOut c f r tap d g last trunc ls.1
        let s3 := s2.modCam c fun k => k.modHead fun f => { f with
          tapNext := f.tapNext.mod tap (· + 1), tapDone := f.tapDone.mod tap fun _ => last
          parityLines := f.parityLines + badHere.length, repaired := f.repaired || !badHere.isEmpty }
        let s5 := if tapDest d = 1 && (s1.tapMc d).isSome then s3.reportUnits (tapGroup d)
          else
            let s4 := s3.sourceEvent c f.num f.since last (rfeHit r 0 tap)
            if last then s4.sourceEvent c f.num f.since true (rfeHit r 1 tap) else s4
        if 16 < f.parityLines + badHere.length then s5.failRfe r else s5

/-- TAP_ROW_GROUP_WRITE (R281). -/
def execTapRowGroupWrite (t r tap : Nat) (bad : List Nat) (trunc : EgressCut) (s : State) : Out :=
  .next (tapWriteEffect t r tap bad trunc s)

/-! ## STATS_BLOCK_COMPLETE, METADATA_RECORD_WRITE (R283 to R286, R290) -/

/-- An entry of a ring is overwritten before a node has consumed it, where `used` are the entries consumed (R285, 0x051E). -/
def ringLost (next entries : Nat) (used : List Nat) : Bool := decide (entries ≤ next) && !used.contains (next % entries)

/-- The consumed entries of a ring after entry `next` is written and its event reaches a node or none (R285; DEDUCED, log entry 114). -/
def ringUsed (next entries : Nat) (used : List Nat) (taken : Bool) : List Nat :=
  if taken then sInsert used (next % entries) else used.filter (· ≠ next % entries)

/-- The loss of a ring's entry is logged. -/
def State.ringLoss (s : State) (r : Nat) (lost : Bool) : State :=
  if lost then (s.modRfe r fun x => { x with lastStatus := 0x051E }).note 0x051E 3 r else s

/-- The 9,280-byte statistics block of R285. -/
def Frame.statsBlock (f : Frame) (c : Nat) (k : Cam) : Bytes :=
  let raw := f.raw k
  let zw := fld f.pset 0x7E 2 / 32 * 2
  let zh := fld f.pset 0x80 2 / 32 * 2
  let b := raw.statsBody
  leBytes 4 f.num ++ leBytes 2 f.epoch ++ leBytes 2 f.psetEpoch ++ leBytes 8 f.tFs ++ sub f.pset 0x7A 8 ++ leBytes 2 zw ++ leBytes 2 zh
    ++ leBytes 1 c ++ leBytes 1 f.flags ++ leBytes 2 (fld f.pset 0x78 2) ++ zeros 32 ++ b.1 ++ b.2

/-- A frame whose lines have all left stage 5 has its statistics block written to the camera's ring. -/
def statsEffect (t r : Nat) (s0 : State) : State :=
  let s := s0.at t
  match s.rfeCam r with
  | none => s
  | some c =>
    let k := s.cams.at c
    match k.frames with
    | [] => s
    | f :: _ =>
      if !s.active || (s.rfe.at r).failed || f.statsDone || f.tFe.isNone || f.rows.length < bH k.bind then s
      else
        let n := bStatsBlocks k.bind
        let a := bStats k.bind + 9280 * (k.statsNext % n)
        let lost := ringLost k.statsNext n k.statsUsed
        let s1 := s.record (initDma s.pixelDma) a (f.statsBlock c k)
        let s2 := (if lost then s1.modRfe r fun x => { x with statsLost := satInc 8 x.statsLost } else s1).ringLoss r lost
        let taken := s.eventTaken c f.num f.since (rfeHit r 2 0)
        (s2.modCam c fun k => { k.modHead fun f => { f with statsDone := true, statsAt := a, statsFlags := f.flags } with
          statsNext := k.statsNext + 1, statsUsed := ringUsed k.statsNext n k.statsUsed taken }).sourceEvent c f.num f.since true (rfeHit r 2 0)

/-- STATS_BLOCK_COMPLETE (R285). -/
def execStatsBlockComplete (t r : Nat) (s : State) : Out := .next (statsEffect t r s)

/-- Some receiver of a group has a unit of a frame to come. -/
def State.unitsOpen (s : State) (g : Nat) (f : Frame) : Bool :=
  match aGet s.bf.groups g with
  | some q => q.isTap && q.recvs.any fun v => v.todo.any fun u => u.frame == f.num && u.rfe == f.rfe
  | none => false

/-- The events of a frame's units that receivers have since been shed of are signalled (R283). -/
def State.reportFrame (s : State) (f : Frame) : State :=
  (List.range 4).foldl (fun s i =>
    let d := f.taps.at i
    if !d.isEmpty && tapEnable d && tapDest d == 1 then s.reportUnits (tapGroup d) else s) s

/-- FLAGS of the statistics block follow those of the metadata record, where a tap has changed them since (R285, R290; DEDUCED, log entry 115). -/
def State.statsFlags (s : State) (f : Frame) : State :=
  if f.flags = f.statsFlags then s else s.record (initDma s.pixelDma) (f.statsAt + 0x1D) (leBytes 1 f.flags)

/-- Every tap of a frame's RFE has ended the frame, its statistics are written, and its lines have all been returned. -/
def State.frameOver (s : State) (k : Cam) (f : Frame) : Bool :=
  f.tFe.isSome && f.statsDone && f.returned == k.groupsN
    && (List.range 4).all fun i =>
      let d := f.taps.at i
      d.isEmpty || !tapEnable d || (f.tapDone.at i && !(tapDest d == 1 && s.unitsOpen (tapGroup d) f))

/-- The metadata record is written, the frame leaves the RFE, and three frames in a row with parity errors fail it (R290). -/
def metadataEffect (t r : Nat) (s0 : State) : State :=
  let s := s0.at t
  match s.rfeCam r with
  | none => s
  | some c =>
    let k := s.cams.at c
    match k.frames with
    | [] => s
    | f :: rest =>
      if !s.active || (s.rfe.at r).failed || !s.frameOver k f then s
      else
        let n := bMetaEntries k.bind
        let s0 := (s.reportFrame f).statsFlags f
        let s1 := (s0.record (initDma s.pixelDma) (bMeta k.bind + 128 * (k.metaNext % n)) (metaRecord c k f)).ringLoss r
          (ringLost k.metaNext n k.metaUsed)
        let taken := s0.eventTaken c f.num f.since (rfeHit r 3 0)
        let bad := if f.parityLines = 0 then 0 else (s.rfe.at r).badFrames + 1
        let s2 := (s1.modRfe r fun x => { x with badFrames := bad }).modCam c fun k => { k with
          frames := k.frames.drop 1, metaNext := k.metaNext + 1, metaUsed := ringUsed k.metaNext n k.metaUsed taken }
        let s3 := s2.sourceEvent c f.num f.since true (rfeHit r 3 0)
        let s4 := ((if 3 ≤ bad then s3.failRfe r else s3).endNet c).gateUnused
        if k.leaving && rest.isEmpty then (s4.endCam c).gateUnused else s4

/-- METADATA_RECORD_WRITE (R286). -/
def execMetadataRecordWrite (t r : Nat) (s : State) : Out := .next (metadataEffect t r s)

end Sys2Proof.Machine
end

