-- ==== Sys2Proof/Machine/AdmitMath.lean ====
section
/-! DEFINITION. The checks of an admission: the maps of R383, the shape of contexts and groups (R35 to R48, R57, R58, R519), and the
deadline test of R50. -/
namespace Sys2Proof.Machine
open Sys2Proof

/-! ## The maps (R383) -/

/-- The physical Steeple that takes the image's Steeple `k`. -/
def steepleOf (sm k : Nat) : Nat := bits sm (4 * k) 3

/-- The camera that takes the image's camera `k`. -/
def cameraOf (cm k : Nat) : Nat := bits cm (4 * k) 4

/-- A beacon index moves with its slice where the slice lies in a Steeple (R42). -/
def mapBeacon (sm b : Nat) : Nat := if b < 8192 then steepleOf sm (b / 1024) * 1024 + b % 1024 else b

/-- The low 14 bits of an `n`-byte field at `off`, as a beacon index, mapped. -/
def mapBeaconAt (sm : Nat) (b : Bytes) (off n : Nat) : Bytes :=
  let w := fld b off n
  putBytes b off (leBytes n (setBits w 0 14 (mapBeacon sm (bits w 0 14))))

/-- A DMA engine of a Steeple moves with it (DEDUCED: the unit sets name it). -/
def mapEngine (sm e : Nat) : Nat := if e < 8 then steepleOf sm e else e

/-- The unit set of a context of the image, mapped; a type 0x1 node still names its camera. -/
def mapUnits (sm cm : Nat) (c : Ctx) : Nat :=
  let m := c.unitMask
  match c.type with
  | 1 => if m < 16 then cameraOf cm m else m
  | 4 => ((List.range 8).map fun k => bits m (16 * k) 16 * 2 ^ (16 * steepleOf sm k)).sum
  | 5 => mapEngine sm m
  | _ => m

/-- A context of the image, mapped: waits, signals to this module, unit set, the anchor's camera, the CAMERA of a type 0x2 node and the CREDIT_BEACON of
a relay (R383, R399). -/
def mapContext (sm cm module : Nat) (b : Bytes) : Bytes :=
  let c : Ctx := { prog := b }
  let b1 := (List.range (min c.waitN 8)).foldl (fun b k => mapBeaconAt sm b (0x10 + 4 * k) 4) b
  let b2 := (List.range (min c.sigN 8)).foldl (fun b k =>
    let w := fld b (0x30 + 4 * k) 4
    if bit w 16 || bits w 14 2 != module then b else mapBeaconAt sm b (0x30 + 4 * k) 4) b1
  let b3 := putBytes b2 0x50 (leBytes 16 (mapUnits sm cm c))
  let b4 := if c.anchorKind < 3 then putBytes b3 0x70 (leBytes 8 (setBits c.anchor 4 4 (cameraOf cm c.anchorCam))) else b3
  if c.type = 2 then putBytes b4 0x80 (leBytes 1 (setBits (fld b 0x80 1) 0 4 (cameraOf cm (bits (fld b 0x80 1) 0 4))))
  else if c.type = 7 ∧ fld b 0x80 1 = 1 then mapBeaconAt sm b4 0x86 2 else b4

/-- A group descriptor of the image, mapped: its beacons and its DMA engine. -/
def mapGroup (sm : Nat) (d : Bytes) : Bytes :=
  let q : McGroup := { desc := d }
  let d1 := if q.isTap then d
    else (mapBeaconAt sm d 0x0C 2 |> fun x => putBytes x 0x04 (leBytes 1 (setBits (fld x 4 1) 1 4 (mapEngine sm q.engine))))
  (List.range (min q.recvN 8)).foldl (fun d r => mapBeaconAt sm (mapBeaconAt sm d (0x2C + 16 * r) 2) (0x2E + 16 * r) 2) d1

/-- The image's Steeples: those of its cores, of its Steeples' DMA engines and of its beacon slices. -/
def imageSteeples (g : GraphImage) : List Nat :=
  let ofCtx := fun (x : ImageCtx) =>
    let c : Ctx := { prog := x.bytes }
    match c.type with
    | 4 => (List.range 8).filter fun k => bits c.unitMask (16 * k) 16 != 0
    | 5 => if c.unitMask < 8 then [c.unitMask] else []
    | _ => []
  let slices := (g.beacons.map (·.index)).filter (· < 8192)
  (g.contexts.flatMap ofCtx ++ slices.map (· / 1024)).eraseDups

/-- The image's cameras: those of its camera anchors, RFE stages and SNE networks. -/
def imageCameras (g : GraphImage) : List Nat :=
  let ofCtx := fun (x : ImageCtx) =>
    let c : Ctx := { prog := x.bytes }
    (if c.anchorKind < 2 then [c.anchorCam] else []) ++ (if c.type = 1 ∧ c.unitMask < 16 then [c.unitMask] else [])
      ++ if c.type = 2 then [bits (fld c.inline 0 1) 0 4] else []
  (g.contexts.flatMap ofCtx).eraseDups

/-- No two elements of a list are equal. -/
def distinct {α : Type} [BEq α] (l : List α) : Bool := l.eraseDups.length == l.length

/-- The maps send no two of the image's Steeples, and no two of its cameras, to one. -/
def mapsOk (sm cm : Nat) (g : GraphImage) : Bool :=
  distinct ((imageSteeples g).map (steepleOf sm)) && distinct ((imageCameras g).map (cameraOf cm))

/-- The image with its maps applied. -/
def mapImage (sm cm module : Nat) (g : GraphImage) : GraphImage :=
  { g with
    contexts := g.contexts.map fun x => { x with bytes := mapContext sm cm module x.bytes }
    beacons := g.beacons.map fun b => { b with index := mapBeacon sm b.index }
    groups := g.groups.map (mapGroup sm)
    cameras := (List.range 16).map (cameraOf cm) }

/-! ## The image's shape -/

/-- The beacons of the image's groups. -/
def groupBeacons (g : GraphImage) : List Nat :=
  g.groups.flatMap fun d =>
    let q : McGroup := { desc := d }
    (List.range (min q.recvN 8)).flatMap fun r => [q.unitBeacon r, q.creditBeacon r]

/-- The image's lists make sense: 1 to 4 copies, contexts of 192 bytes at distinct indices, distinct beacons of copies that exist, partitions
and buffers of at least one granule or byte, descriptors of 160 bytes. -/
def imageShapeOk (g : GraphImage) : Bool :=
  1 ≤ g.inflight && g.inflight ≤ 4 && !g.contexts.isEmpty
    && (g.contexts.all fun x => x.index < 4096 && x.bytes.length == 192) && distinct (g.contexts.map (·.index))
    && (g.beacons.all fun b => b.index < 16384 && b.init < 65536 && b.copy < g.inflight)
    && distinct (g.beacons.map (·.index) ++ groupBeacons g)
    && g.partitions.all (0 < ·) && g.dram.all (fun d => 0 < d.2) && g.groups.all (fun d => d.length == 160)

/-! ## A context's checks (R35 to R40, R47, R283, R305, R321, R399, R425) -/

/-- Reserved fields and codes of the header, the control word, the work list, the record address, the anchor and the waits (R37 to R39). -/
def Ctx.reservedBad (c : Ctx) : Bool :=
  bits c.control 10 22 != 0 || c.missPolicy == 3 || bits c.work 56 8 != 0 || bits (fld c.prog 0x68 8) 40 24 != 0
    || bits c.anchor 40 24 != 0 || 3 < c.anchorKind
    || (c.anchorKind == 3 && (c.anchorPeriod < 10000 || 4290000000 < c.anchorPeriod))
    || (List.range c.waitN).any fun k => bit (fld c.prog (0x10 + 4 * k) 4) 15 || bits (fld c.prog (0x10 + 4 * k) 4) 16 16 == 65535

/-- The unit set names no unit of the node's type, or the type is reserved (R35, R37). -/
def Ctx.unitsBad (c : Ctx) : Bool :=
  let m := c.unitMask
  match c.type with
  | 1 => 16 ≤ m
  | 2 => 4 ≤ m
  | 3 => 6 ≤ m
  | 4 => m == 0
  | 5 => 12 ≤ m
  | 6 => 2 ≤ m
  | 7 => 3 ≤ m
  | 8 | 9 => m != 0
  | _ => true

/-- INLINE has a reserved field set or an undefined code. -/
def Ctx.inlineBad (c : Ctx) : Bool :=
  let b := c.inline
  match c.type with
  | 1 => 3 < bits (fld b 0 1) 0 3 || bits (fld b 0 1) 5 3 != 0 || !allZero (b.drop 2)
  | 2 => bits (fld b 0 1) 4 4 != 0 || !allZero (b.drop 2)
  | 3 => bits (fld b 0 8) 40 24 != 0 || !allZero (b.drop 8)
  | 7 => c.peerInlineBad
  | 8 => !allZero b
  | _ => false

/-- FUSE is malformed in itself (R47). -/
def Ctx.fuseBad (c : Ctx) : Bool :=
  c.fuse != 0 && (bits c.fuse 57 7 != 0 || c.fuseSlots == 1 || c.fuseStages == 1 || bits c.fuse 0 40 % 128 != 0)

/-- Bytes of the fused ring. -/
def Ctx.fuseBytes (c : Ctx) : Nat := c.fuseSlots * (bits c.fuse 46 9 + 1) * 128

/-- A context fails R38 in the mapped image `g`, on module `module`. -/
def Ctx.imageBad (c : Ctx) (index : Nat) (g : GraphImage) (module : Nat) : Bool :=
  let owned := fun (b : Nat) => g.beacons.any (·.index == b) || (groupBeacons g).contains b
  let first : Ctx := { prog := ((g.contexts.head?).map (·.bytes)).getD [] }
  let sigBad := fun (e : Sig) =>
    if e.group then
      match g.groups[e.beacon]? with
      | some d => McGroup.isTap { desc := d }
      | none => true
    else e.module == module && !owned e.beacon
  let relayBad := c.type == 7 && c.relay && match g.groups[c.relayGroup]? with
    | some d => McGroup.recvN { desc := d } ≤ c.relayRecv
    | none => true
  c.index != index || 8 < c.waitN || 8 < c.sigN || c.reservedBad || c.unitsBad || (c.isSource && c.waitN != 0) || c.inlineBad || c.fuseBad
    || g.inflight ≤ c.copy || c.anchor != first.anchor || (c.waits.any fun w => !owned w.beacon) || c.sigs.any sigBad || relayBad

/-- Alignment of a work list (R519): one element of the node's type; 0 where the type has none. -/
def Ctx.workAlign (c : Ctx) : Nat :=
  match c.type with
  | 3 | 4 => 128
  | 5 | 7 => 64
  | 8 => 32
  | _ => 0

/-- The bytes of a whole work list. -/
def Ctx.workBytes (c : Ctx) : Nat := if c.elemBytes = 0 then 0 else c.workCount * c.elemBytes

/-- A work list is misaligned, or some of it is unmapped (R519). -/
def State.workBad (s : State) (c : Ctx) : Bool :=
  c.workAlign != 0 && (c.workAddr % c.workAlign != 0 || s.mapStatus c.workAddr c.workBytes false != 0)

/-! ## A group's checks (R57, R58) -/

/-- A receiver entry is malformed; `unit` is the largest unit known. -/
def McGroup.recvBad (q : McGroup) (unit r : Nat) : Bool :=
  let w := fld q.desc (0x20 + 16 * r) 8
  bits w 46 18 != 0 || bits w 0 40 % 128 != 0 || bits w 40 6 == 0 || q.slotBytes r % 128 != 0 || q.slotBytes r < 16 + unit
    || bits (fld q.desc (0x2C + 16 * r) 2) 14 2 != 0 || bits (fld q.desc (0x2E + 16 * r) 2) 14 2 != 0

/-- A group descriptor is malformed (0x0204). The largest unit of a camera tap is that of its descriptor, and is checked
against it. -/
def McGroup.bad (q : McGroup) : Bool :=
  let d := q.desc
  3 ≤ q.policy || bits (fld d 0 1) 2 6 != 0 || bits (fld d 1 1) 4 4 != 0 || bits (fld d 4 1) 5 3 != 0 || !allZero (sub d 5 3)
    || fld d 0x0E 2 != 0 || fld d 0x1C 4 != 0
    || (if q.isTap then fld d 0x08 4 != 0 || fld d 0x0C 2 != 0 || fld d 0x10 8 != 0 || fld d 0x18 4 != 0
        else 11 < q.engine || q.chunk < 128 || 1048576 < q.chunk || q.chunk % 128 != 0 || bits (fld d 0x0C 2) 14 2 != 0
          || bits (fld d 0x10 8) 40 24 != 0 || q.srcBytes == 0 || 65536 * q.chunk < q.srcBytes)
    || (List.range q.recvN).any (q.recvBad (if q.isTap then 0 else min q.chunk q.srcBytes))

/-- A tap that names group `k` under GROUP, in force or waiting for its frame start, does not go with the group `q` that takes that index: a node
producer's, or one with slots too small for the tap's units (R57, R58). -/
def State.tapClash (s : State) (k : Nat) (q : McGroup) : Bool :=
  (List.range 16).any fun r => (List.range 4).any fun i =>
    let t := (s.rfe.at r).taps.at i
    let depth := ((s.camOfRfe r).map fun c => bDepth (s.cams.at c).bind).getD 16
    ([t.desc] ++ t.next.toList).any fun d => !d.isEmpty && tapEnable d && tapDest d == 1 && tapGroup d == k
      && (!q.isTap || (List.range q.recvN).any fun n => q.slotBytes n < 16 + tapUnitBytes i depth d)

/-- The status of the image's groups, given the indices they would take: 0x0206 for more than 8 receivers, 0x0204 for a malformed field or a
tap that does not go with the group it names. Slots outside the graph's partitions have no status of their own and pass (DESIGN CHOICE, log entry 146). -/
def State.groupsStatus (s : State) (g : GraphImage) (ixs : List Nat) : Nat :=
  let qs : List McGroup := g.groups.map fun d => { desc := d }
  if qs.any fun q => 8 < q.recvN then 0x0206
  else if qs.any McGroup.bad then 0x0204
  else if (qs.zip ixs).any fun p => s.tapClash p.2 p.1 then 0x0204
  else 0

/-! ## The deadline test (R50) -/

/-- A node as the test sees it. -/
structure TestNode where
  graph : Nat
  index : Nat
  copy : Nat
  source : Bool
  bestEffort : Bool
  deadline : Nat
  priority : Nat
  run : Nat
  /-- What `run` is divided by: the cores in service of a Spire node, 1 otherwise (R50, 2). -/
  per : Nat
  units : List UnitRef
  period : Option Nat
  waits : List Nat
  sigs : List Nat
  steeple : Option Nat
  deriving DecidableEq, Repr, Inhabited

/-- Run time: PREDICT_NS, scaled by the cores lost, as a fraction (R50, 2). -/
def Ctx.runTime (c : Ctx) : Nat × Nat :=
  if c.type = 4 then (c.predict * (unitsWhere 128 fun k => bit (fld c.admitted 0x50 16) k).length, max c.units.length 1)
  else (c.predict, 1)

/-- The Steeple a node lies in, when it lies in one (R20). -/
def Ctx.steeple (c : Ctx) : Option Nat :=
  match c.type with
  | 4 =>
    let ks := (unitsWhere 128 fun k => bit c.unitMask k).map (· / 16)
    match ks with
    | k :: r => if r.all (· == k) then some k else none
    | [] => none
  | 5 => if c.unitMask < 8 then some c.unitMask else none
  | _ => none

/-- The shortest interval between times in a list. -/
def shortest : List Nat → Option Nat
  | a :: b :: l => match shortest (b :: l) with
    | some m => some (min m (b - a))
    | none => some (b - a)
  | _ => none

/-- The lesser of two periods that may be unknown. -/
def lesser : Option Nat → Option Nat → Option Nat
  | some a, some b => some (min a b)
  | some a, none => some a
  | none, b => b

/-- The period of a graph's anchor (R50, 1). A camera or genlock anchor of which neither period is known has none (log entry). -/
def State.anchorPeriod (s : State) (c : Ctx) (declared : Option Nat) : Option Nat :=
  let k := s.cams.at c.anchorCam
  match c.anchorKind with
  | 0 => lesser declared (shortest k.fsTimes)
  | 1 => lesser declared (shortest k.feTimes)
  | 2 => lesser declared (shortest (s.genlock.at (bGroup k.bind)).times)
  | _ => some c.anchorPeriod

/-- A context as a node of the test. -/
def State.testNode (s : State) (graph : Nat) (be : Bool) (period : Option Nat) (i : Nat) (c : Ctx) : TestNode :=
  { graph := graph, index := i, copy := c.copy, source := c.isSource, bestEffort := be, deadline := c.deadline, priority := c.priority
    run := c.runTime.1, per := c.runTime.2, units := c.units, period := period, waits := c.waits.map (·.beacon)
    sigs := (c.sigs.filter fun e => !e.group && e.module == s.straps.module).map (·.beacon), steeple := c.steeple }

/-- Two nodes share a unit. -/
def TestNode.shares (x z : TestNode) : Bool := x.units.any z.units.contains

/-- Another node. -/
def TestNode.other (x z : TestNode) : Bool := !(x.graph == z.graph && x.index == z.index)

/-- The rank of R49 with each deadline counted from its own anchor. -/
def TestNode.key (x : TestNode) : Nat × Nat × Nat × Nat × Nat := (b2n x.bestEffort, b2n (x.deadline == 0), x.deadline, x.priority, x.index)

/-- Blocking: the longest run time of a node that shares a unit and ranks after. -/
def TestNode.blocking (x : TestNode) (all : List TestNode) : Nat :=
  ((all.filter fun z => x.other z && x.shares z && rankLt x.key z.key).map (·.run)).foldl max 0

/-- The nodes that interfere (R50, 4). -/
def TestNode.rivals (x : TestNode) (all : List TestNode) : List TestNode :=
  all.filter fun z => x.other z && x.shares z && z.deadline != 0 && !z.bestEffort

/-- One round of the iteration of R50, 4, from an interval already waited. -/
def interference (zs : List TestNode) (waited : Nat) : Nat :=
  (zs.map fun z => (match z.period with
    | some p => max 1 (ceilDiv waited (max p 1))
    | none => 1) * z.run).sum

/-- The least fixed point of the start, from `st` on; none once it passes the limit. -/
def startFrom (zs : List TestNode) (ready base limit : Nat) : Nat → Nat → Option Nat
  | 0, _ => none
  | fuel + 1, st =>
    let n := base + interference zs (st - ready)
    if limit < n then none
    else if n = st then some st
    else startFrom zs ready base limit fuel n

/-- The last start that the test allows a node; a node without a deadline is followed for 2^32 ns. `unit` is what a ns counts as. -/
def TestNode.limit (unit : Nat) (x : TestNode) : Nat := if x.deadline = 0 then 2 ^ 32 * unit else x.deadline

/-- The start of a node that is ready at a time: what interferes is in the test, what blocks is any node admitted. -/
def TestNode.start (unit : Nat) (x : TestNode) (test every : List TestNode) (ready : Nat) : Option Nat :=
  let base := ready + x.blocking every
  startFrom (x.rivals test) ready base (x.limit unit) (x.limit unit + 2) base

/-- The hand-off bound of R20 between a producer and a consumer over a beacon. -/
def handOff (p x : TestNode) (b : Nat) : Nat :=
  match p.steeple, x.steeple with
  | some a, some c => if a = c ∧ b / 1024 = a then 4 else 12
  | _, _ => 12

/-- The producers of a node's waits in its own instance, with the beacon. -/
def TestNode.producers (x : TestNode) (all : List TestNode) : List (TestNode × Nat) :=
  x.waits.flatMap fun b => (all.filter fun p => p.graph == x.graph && p.copy == x.copy && p.sigs.contains b).map fun p => (p, b)

/-- A node is ready at 0: what it waits on is signalled by no node but source nodes (R50, 3). -/
def TestNode.atZero (x : TestNode) (all : List TestNode) : Bool := (x.producers all).all fun p => p.1.source

/-- The completion of a node from those known already; none while some producer's is not. -/
def TestNode.complete (unit : Nat) (x : TestNode) (all every : List TestNode) (known : List (Nat × Nat × Nat)) : Option Nat :=
  let done := fun (p : TestNode) => (known.find? fun k => k.1 == p.graph && k.2.1 == p.index).map fun k => k.2.2
  let ready : Option Nat := if x.atZero all then some 0
    else (x.producers all).foldl (fun (acc : Option Nat) p => match acc, done p.1 with
      | some a, some d => some (max a (d + handOff p.1 x p.2 * unit))
      | _, _ => none) (some 0)
  match ready with
  | some r => (x.start unit all every r).map (· + x.run)
  | none => none

/-- Completions of all nodes, found in as many rounds as there are nodes: (graph, index, completion). -/
def completions (unit : Nat) (all every : List TestNode) : Nat → List (Nat × Nat × Nat) → List (Nat × Nat × Nat)
  | 0, known => known
  | fuel + 1, known =>
    let new := all.filterMap fun x =>
      if known.any fun k => k.1 == x.graph && k.2.1 == x.index then none
      else (x.complete unit all every known).map fun c => (x.graph, x.index, c)
    if new.isEmpty then known else completions unit all every fuel (known ++ new)

/-- The load of a unit: the sum of run time over period of one copy of each graph in the test, as a fraction. -/
def unitLoad (all : List TestNode) (u : UnitRef) : Nat × Nat :=
  (all.filter fun z => z.units.contains u && !z.bestEffort && z.copy == 0).foldl (fun acc z => match z.period with
    | some p => fracAdd acc (z.run, max p 1)
    | none => acc) (0, 1)

/-- The graph number the new graph has in the test. -/
def newGraph : Nat := 256

/-- The nodes of every admitted graph, graph by graph. -/
def State.admittedNodes (s : State) : List (List TestNode) :=
  s.bf.graphs.map fun g =>
    if g.2.parked then []
    else
      let cs := s.bf.ctxs.filter fun p => p.2.graph == g.1
      let pr := match cs with
        | p :: _ => s.anchorPeriod p.2 g.2.image.minPeriod
        | [] => none
      cs.map fun p => s.testNode g.1 g.2.bestEffort pr p.1 p.2

/-- The nodes of the new graph's contexts. -/
def State.newNodes (s : State) (ctxs : List (Nat × Ctx)) (declared : Option Nat) : List TestNode :=
  let per := match ctxs with
    | p :: _ => s.anchorPeriod p.2 declared
    | [] => none
  ctxs.map fun p => s.testNode newGraph false per p.1 p.2

/-- A node with its times counted in `unit`-ths of a ns, so that every run time of the test is whole (R50, 2). -/
def TestNode.scale (x : TestNode) (unit : Nat) : TestNode :=
  { x with deadline := x.deadline * unit, run := x.run * (unit / x.per), per := 1, period := x.period.map (· * unit) }

/-- The test: whether every graph passes, and the new graph's least margin. It covers the new graph and those admitted ones with deadlines that
share a unit with it; the nodes of any admitted graph may block (R50). -/
def State.deadlineTest (s : State) (ctxs : List (Nat × Ctx)) (declared : Option Nat) : Bool × Option Nat :=
  let new := s.newNodes ctxs declared
  let old := s.admittedNodes
  let unit := ((new ++ old.flatten).map (·.per)).foldl Nat.lcm 1
  let mine := new.map (·.scale unit)
  let olds := old.map fun l => l.map (·.scale unit)
  let inTest := olds.filter fun l => l.any fun z => !z.bestEffort && mine.any fun x => x.shares z
  let test := mine ++ inTest.flatten
  let every := mine ++ olds.flatten
  let done := completions unit test every test.length []
  let at? := fun (x : TestNode) => (done.find? fun k => k.1 == x.graph && k.2.1 == x.index).map fun k => k.2.2
  let timed := test.filter fun x => x.deadline != 0
  let ok := timed.all fun x => match at? x with
    | some c => decide (c ≤ x.deadline)
    | none => false
  let loads := ((test.flatMap (·.units)).eraseDups).all fun u => decide ((unitLoad test u).1 ≤ (unitLoad test u).2)
  let slack := (timed.filter fun x => x.graph == newGraph).foldl (fun (acc : Option Nat) x =>
    lesser acc ((at? x).map fun c => (x.deadline - c) / unit)) none
  (ok && loads, slack)

end Sys2Proof.Machine
end

