-- ==== Sys2Proof/Machine/Admit.lean ====
section
/-! DEFINITION. GRAPH_ADMIT, GRAPH_PARK, GRAPH_RESTORE, GRAPH_STOP (R33 to R50, R57, R78, R178, R380, R383, R488). -/
namespace Sys2Proof.Machine
open Sys2Proof

/-! ## What an admission finds -/

/-- The outcome of an admission's checks: STATUS, DETAIL, the resource that failed with what was needed and free, and the least margin. -/
structure AdmitVerdict where
  status : Nat := 0
  detail : Nat := 0xFFFF
  resource : Option (Nat × Nat) := none
  slack : Option Nat := none
  deriving DecidableEq, Repr, Inhabited

/-- What an admission would install. -/
structure AdmitPlan where
  image : GraphImage := {}
  bestEffort : Bool := false
  /-- The identifier of a graph that is restored. -/
  restore : Option Nat := none
  /-- Contexts as they would be written, by index. -/
  ctxs : List (Nat × Ctx) := []
  partitions : List (Nat × Nat) := []
  counters : List Nat := []
  groups : List Nat := []
  deriving DecidableEq, Repr, Inhabited

/-- A failing check. -/
def failWith (status : Nat) (detail : Nat := 0xFFFF) (resource : Option (Nat × Nat) := none) : Option AdmitVerdict :=
  some { status := status, detail := detail, resource := resource }

/-- The first context that fails a check, with its status. -/
def firstBad (cs : List (Nat × Ctx)) (check : Nat × Ctx → Nat) : Option AdmitVerdict :=
  match cs.find? fun p => check p != 0 with
  | some p => failWith (check p) p.1
  | none => none

/-! ## The unit sets (R65, R305, R383) -/

/-- The cameras a context needs. -/
def Ctx.needsCams (c : Ctx) : List Nat :=
  (if c.anchorKind < 2 then [c.anchorCam] else []) ++ (if c.type = 1 then [c.unitMask] else [])
    ++ if c.type = 2 then [bits (fld c.inline 0 1) 0 4] else []

/-- The unit set of a mapped context as the device holds it: the RFE of a type 0x1 node's camera, the SNE of a type 0x2 node's binding, the
cores of a type 0x4 node that are in service. -/
def State.deviceUnits (s : State) (c : Ctx) : Nat :=
  match c.type with
  | 1 => (s.cams.at c.unitMask).rfe
  | 2 => match (s.cams.at (bits (fld c.inline 0 1) 0 4)).net with
    | some n => nSne n.bindRec
    | none => c.unitMask
  | 4 => ((unitsWhere 128 fun k => bit c.unitMask k && !s.coreOut k).map (2 ^ ·)).sum
  | _ => c.unitMask

/-- A context with its unit set as the device holds it. -/
def State.deviceCtx (s : State) (c : Ctx) : Ctx := { c with prog := putBytes c.prog 0x50 (leBytes 16 (s.deviceUnits c)) }

/-! ## Allotment (R57, R78, R178) -/

/-- Partitions of the sizes asked, first fit in order, beside those given already. -/
def State.allotParts (s : State) : List Nat → List (Nat × Nat) → Option (List (Nat × Nat))
  | [], got => some got
  | n :: ns, got =>
    -- the ranges given so far are held by a graph of no identifier
    let s1 := s.modBf fun b => { b with graphs := (0, { partitions := got }) :: b.graphs }
    match s1.findGranules n (s.scratchBytes / 4096 + 1) 0 0 with
    | some g => s.allotParts ns (got ++ [(g, n)])
    | none => none

/-- Granules that no partition holds. -/
def State.granulesFree (s : State) : Nat := ((List.range (s.scratchBytes / 4096)).filter s.granuleFree).length

/-- Work counters that admitted graphs hold. -/
def State.countersHeld (s : State) : List Nat := s.bf.graphs.flatMap fun g => g.2.counters

/-- The first run of `n` free counters at or after `k`. -/
def findCounters (held : List Nat) (n : Nat) : Nat → Nat → Nat → Option Nat
  | 0, _, _ => none
  | fuel + 1, k, run =>
    if run = n then some (k - n)
    else if k < 4096 ∧ !held.contains k then findCounters held n fuel (k + 1) (run + 1)
    else findCounters held n fuel (k + 1) 0

/-- A range of `n` counters for each of some copies. -/
def allotCounters (held : List Nat) (n : Nat) : Nat → List Nat → Option (List Nat)
  | 0, got => some got
  | copies + 1, got =>
    match findCounters (held ++ got) n 4098 0 0 with
    | some k => allotCounters held n copies (got ++ (List.range n).map (k + ·))
    | none => none

/-- The free group indices, lowest first. -/
def State.groupsFree (s : State) : List Nat := (List.range 256).filter fun k => (aGet s.bf.groups k).isNone

/-! ## Checks of the work lists (R170, R322, R399) -/

/-- `[a, a + n)` lies wholly within one partition. -/
def insideParts (ps : List (Nat × Nat)) (a n : Nat) : Bool :=
  ps.any fun p => scratchBase + 4096 * p.1 ≤ a && a + n ≤ scratchBase + 4096 * (p.1 + p.2)

/-- The elements of a work list, as firmware reads them. -/
def State.workElems (s : State) (c : Ctx) : List Bytes :=
  (List.range c.workCount).map fun k => s.peek (c.workAddr + k * c.elemBytes) c.elemBytes

/-- The first status of a list that is not zero. -/
def firstStatus (l : List Nat) : Nat := (l.find? (· != 0)).getD 0

/-- A work item of a COPY node: one side in the window of the port's module, the other on this module, which the windows to the others and to the host
are not (R399). -/
def State.copyBad (s : State) (c : Ctx) (item : Bytes) : Bool :=
  let m := s.straps.module ^^^ (c.port + 1)
  let ends := fun (d : Stream) => (regionOf d.bufBase, regionOf (d.bufBase + (d.bufSize - 1)))
  let far := fun (d : Stream) => ends d == (.peer m, .peer m)
  let away := fun (r : Region) => match r with
    | .peer _ | .host => true
    | _ => false
  let near := fun (d : Stream) => !away (ends d).1 && !away (ends d).2
  let a := streamOf (item.take 64)
  let b := streamOf (item.drop 64)
  !((far a && near b) || (near a && far b))

/-- The status of a context's work list: macros, operations, copies; a fused ring outside the partitions; a relay's ring outside its window. -/
def State.listStatus (s : State) (g : GraphImage) (parts : List (Nat × Nat)) (c : Ctx) : Nat :=
  let ring := bits c.fuse 0 40
  if c.fuse ≠ 0 ∧ !insideParts parts ring c.fuseBytes then 0x0204
  else match c.type with
  | 3 =>
    if (s.vis.at c.engine).failed then 0x0605 else firstStatus ((s.workElems c).map fun d => opAdmit c.engine d)
  | 4 => firstStatus ((s.workElems c).map fun d => macroCheck d c.cores.length g.counters (insideParts parts))
  | 7 =>
    if c.relay then (if regionOf c.relayRing = .peer (s.straps.module ^^^ (c.port + 1)) then 0 else 0x0709)
    else if (s.workElems c).any (s.copyBad c) then 0x0709 else 0
  | _ => 0

/-! ## DRAM buffers (R104's 0x030C) -/

/-- The image's DRAM buffers are free and apart from one another. -/
def State.buffersFree (s : State) : List (Nat × Nat) → Bool
  | [] => true
  | d :: ds => s.dramFree d.1 d.2 && (ds.all fun e => decide (d.1 + d.2 ≤ e.1 ∨ e.1 + e.2 ≤ d.1)) && s.buffersFree ds

/-- The resource of 0x030C in units of 4 KiB. -/
def State.dramNeed (s : State) (ds : List (Nat × Nat)) : Nat × Nat :=
  let held := (s.mem.dramHeld.map fun d => d.2.1).sum
  (ceilDiv ((ds.map (·.2)).sum) 4096, (s.dramEnd - 0x40_0000 - held) / 4096)

/-! ## The checks in order -/

/-- A later check, taken when no earlier one failed. -/
def andThen (a : Option AdmitVerdict) (b : Option AdmitVerdict) : Option AdmitVerdict :=
  match a with
  | some v => some v
  | none => b

/-- A group of the device owns a beacon, a parked graph's among them. -/
def State.groupOwner (s : State) (b : Nat) : Bool :=
  s.bf.groups.any fun q => (List.range q.2.recvN).any fun r => q.2.unitBeacon r == b || q.2.creditBeacon r == b

/-- The checks that need no allotment: shape, contexts and beacons free, R38, work lists, cameras, unit sets, groups. -/
def State.admitStatic (s : State) (p : AdmitPlan) (raw : List (Nat × Ctx)) : Option AdmitVerdict :=
  let g := p.image
  let ctxs := raw.map (·.1)
  let bcn := g.beacons.map (·.index) ++ if p.restore.isSome then [] else groupBeacons g
  let ctxTaken := ctxs.any fun i => (s.ctx? i).isSome || s.bf.retiredCtx.contains i
  let camOk := fun (c : Nat) => (s.cams.at c).bound && (s.cams.at c).waiting.isNone
  if !imageShapeOk g then failWith 0x0204
  else if ctxTaken then failWith 0x0201 0xFFFF (some (ctxs.length, s.ctxFree))
  else if bcn.any fun b => (s.beaconOwner b).isSome || s.groupOwner b then failWith 0x0202 0xFFFF (some (bcn.length, s.bcnFree))
  else andThen (firstBad raw fun x => if x.2.imageBad x.1 g s.straps.module then 0x0204 else 0)
    (andThen (firstBad raw fun x => if s.workBad x.2 then 0x0204 else 0)
    (andThen (firstBad raw fun x => if x.2.needsCams.all camOk then 0 else 0x0513)
    (andThen (firstBad p.ctxs fun x => if x.2.type == 4 && x.2.unitMask == 0 then 0x0212 else 0)
    (if p.restore.isSome then none
      else if s.groupsFree.length < g.groups.length then failWith 0x0206
      else if s.groupsStatus g p.groups ≠ 0 then failWith (s.groupsStatus g p.groups)
      else none))))

/-- The checks that follow the allotment of partitions and counters. -/
def State.admitLists (s : State) (p : AdmitPlan) : Option AdmitVerdict :=
  let g := p.image
  andThen (firstBad p.ctxs fun x => s.listStatus g p.partitions x.2)
    (if p.restore.isNone && !s.buffersFree g.dram then failWith 0x030C 0xFFFF (some (s.dramNeed g.dram)) else none)

/-- The request windows that firmware may open to a graph: SCU_REQ of its cameras and RFE_PSET_SUBMIT of their RFEs, each with its bytes (R72). -/
def State.graphWindows (s : State) (g : GraphImage) : List (Nat × Nat) :=
  g.cameras.map (fun c => (scuReqBase + 32 * c, 32)) ++ (g.cameras.filter fun c => (s.cams.at c).bound).map fun c => (psetWindow (s.cams.at c).rfe, 16)

/-- The protection entries that a plan needs: one for each page of request windows that the destination buffer of a DMA-transfer node's item names, for
that node's engine to write (R72). Pages hold several SCU_REQ windows, so the entry covers those too (R475). -/
def State.windowEntries (s : State) (p : AdmitPlan) : List PrtEntry :=
  ((p.ctxs.filter fun x => x.2.type == 5).flatMap fun x => (s.workElems x.2).flatMap fun b =>
    let d := streamOf (b.drop 64)
    ((s.graphWindows p.image).filter fun w => d.bufBase < w.1 + w.2 && w.1 < d.bufBase + d.bufSize).map fun w =>
      { valid := true, write := true, initId := initDma (bits x.2.unitMask 0 4), initMask := 0xFF, firstPage := w.1 / 4096
        lastPage := w.1 / 4096 }).eraseDups

/-- The last checks: deadlines, an identifier, free protection entries: those for request windows, and one at least (log entry 40). -/
def State.admitLast (s : State) (p : AdmitPlan) : AdmitVerdict :=
  let t := if p.bestEffort then (true, none) else s.deadlineTest p.ctxs p.image.minPeriod
  if !t.1 then { status := 0x0205 }
  else if p.restore.isNone && 255 ≤ s.bf.graphs.length then { status := 0x020F }
  else if s.prtFree.length < max 1 (s.windowEntries p).length then { status := 0x0A0F }
  else { slack := t.2 }

/-- The whole admission: the plan with everything allotted, and the verdict. The image is mapped, and each context is given with its bytes and
its status area as they are to be. -/
def State.admitGraph (s : State) (image : GraphImage) (bestEffort : Bool) (restore : Option Nat) (raw : List (Nat × Ctx)) : AdmitPlan × AdmitVerdict :=
  let held := ((restore.bind fun g => aGet s.bf.graphs g).map (·.groups)).getD []
  let groups := if restore.isSome then held else s.groupsFree.take image.groups.length
  let p : AdmitPlan := { image := image, bestEffort := bestEffort, restore := restore
                         ctxs := raw.map fun x => (x.1, s.deviceCtx x.2), groups := groups }
  match s.admitStatic p raw with
  | some v => (p, v)
  | none =>
    match s.allotParts image.partitions [] with
    | none => (p, { status := 0x030B, resource := some (image.partitions.sum, s.granulesFree) })
    | some parts =>
      let need := image.counters * image.inflight
      match (if image.counters = 0 then some [] else allotCounters s.countersHeld image.counters image.inflight []) with
      | none => (p, { status := 0x0213, resource := some (need, 4096 - s.countersHeld.length) })
      | some cs =>
        let p1 := { p with partitions := parts, counters := cs }
        match s.admitLists p1 with
        | some v => (p1, v)
        | none => (p1, s.admitLast p1)

/-! ## Installing a graph (R42, R58, R67, R219, R355) -/

/-- The units with a gate that a plan names. -/
def AdmitPlan.gates (p : AdmitPlan) : List GateUnit :=
  (p.ctxs.flatMap fun x => match x.2.type with
    | 1 => [.rfe (bits x.2.unitMask 0 4)]
    | 2 => [.sne (bits x.2.unitMask 0 4)]
    | 3 => [.vis x.2.engine]
    | 4 => x.2.cores.map fun k => .steeple (k / 16)
    | _ => []).eraseDups

/-- The lowest free graph identifier. -/
def State.freeGraphId (s : State) : Nat := ((List.range 255).map (· + 1)).find? (fun g => (aGet s.bf.graphs g).isNone) |>.getD 0

/-- Every flag word that the plan's macros name is zeroed (R219). -/
def State.zeroFlags (s : State) (p : AdmitPlan) : State :=
  (p.ctxs.filter fun x => x.2.type == 4).foldl (fun s x => (s.workElems x.2).foldl (fun s d =>
    let s1 := if mWflagOut d then s.poke (scratchBase + 4 * mWfOut d) (zeros 4) else s
    if mDual d then s1.poke (scratchBase + 4 * mWfIn d) (zeros 4) else s1) s) s

/-- A group is defined: its receivers start with nothing delivered, UNIT_BEACON at 0 and CREDIT_BEACON at the number of slots. -/
def State.openGroup (s : State) (graph k : Nat) (d : Bytes) : State :=
  let q : McGroup := { graph := graph, desc := d }
  let s1 := s.modBf fun b => { b with groups := aSet b.groups k { q with recvs := List.replicate q.recvN {} } }
  (List.range q.recvN).foldl (fun s r => (s.setBeacon (q.unitBeacon r) 0).setBeacon (q.creditBeacon r) (q.slots r)) s1

/-- The graph takes its place: contexts, beacons, counters, partitions, groups and buffers, and the protection entries of R72. -/
def State.install (s : State) (p : AdmitPlan) (id : Nat) : State :=
  let named := fun (b : Bytes) => putBytes b 0 (leBytes 4 (setBits (fld b 0 4) 12 8 id))
  let put := fun (l : List (Nat × Ctx)) (x : Nat × Ctx) => aSet l x.1 { x.2 with prog := named x.2.prog }
  let old := (aGet s.bf.graphs id).getD {}
  let g : Graph := { old with
    image := p.image, bestEffort := p.bestEffort, parked := false, drain := .none, copies := List.replicate p.image.inflight none
    nextCopy := 0, timerLast := none, counters := p.counters, partitions := p.partitions, groups := p.groups
    entries := s.prtFree.zip (s.windowEntries p) }
  let prt := g.entries.foldl (fun (l : List (Nat × PrtEntry)) e => aSet l e.1 e.2) s.watch.prt
  let s0 : State := { s with watch := { s.watch with prt := prt } }
  let s1 := s0.modBf fun b => { b with ctxs := p.ctxs.foldl put b.ctxs, graphs := aSet b.graphs id g }
  let s2 := p.image.beacons.foldl (fun s b => s.setBeacon b.index b.init) s1
  let s3 := if p.restore.isSome then s2
    else (p.groups.zip p.image.groups).foldl (fun s q => s.openGroup id q.1 q.2)
      { s2 with mem := { s2.mem with dramHeld := s2.mem.dramHeld ++ p.image.dram.map fun d => (d.1, d.2, id) } }
  let engines := (p.ctxs.filter fun x => x.2.type == 3).map fun x => x.2.engine
  let s4 := [4, 5].foldl (fun s u => if engines.contains u then s.modVis u fun x => x.enter 1 16 else s) s3
  s4.zeroFlags p

/-- Bytes 0x04 to 0x1B of the response of R383. What the rule does not state (the resource of another failure, the margin of a failed
admission) is free. -/
def State.answerAdmit (s : State) (pair : Nat) (v : AdmitVerdict) (id : Nat) (p : AdmitPlan) : State :=
  let ok := v.status == 0
  let held := if ok then leBytes 1 id ++ leBytes 1 p.image.inflight ++ leBytes 2 p.image.contexts.length
      ++ leBytes 2 (p.image.beacons.length + (groupBeacons p.image).length) else zeros 6
  let f := s.freeBytes 8
  let res := match v.resource with
    | some r => (leBytes 4 r.1 ++ leBytes 4 r.2, s)
    | none => f
  let g := res.2.freeBytes 4
  let slack := if ok then (leBytes 4 (min (v.slack.getD 0xFFFFFFFF) 0xFFFFFFFF), res.2) else g
  slack.2.respond pair v.status v.detail (held ++ zeros 2 ++ res.1 ++ slack.1 ++ zeros 4)

/-! ## GRAPH_ADMIT (R383) -/

/-- A request field of GRAPH_ADMIT is invalid. -/
def admitReqBad (b : Bytes) : Bool :=
  bits (fld b 0 8) 40 24 != 0 || fld b 0 8 % 256 != 0 || ((List.range 8).any fun k => bit (fld b 0x0C 4) (4 * k + 3))
    || bits (fld b 0x18 1) 1 7 != 0 || !allZero (sub b 0x19 7)

/-- The contexts of a mapped image as an admission first writes them: the status area clear. -/
def imageCtxs (g : GraphImage) : List (Nat × Ctx) :=
  g.contexts.foldl (fun l x => aSet l x.index { prog := x.bytes, admitted := x.bytes }) []

/-- An admission that passes is installed; a gated unit it names is ungated first, and the request goes on once it is (R488). -/
def State.finishAdmit (s : State) (pair : Nat) (r : AdmitPlan × AdmitVerdict) (id : Nat) (after : State → State) : State :=
  if r.2.status ≠ 0 then s.answerAdmit pair r.2 0 r.1
  else if r.1.gates.any s.gated then s.beginUngate r.1.gates
  else (after (s.install r.1 id)).answerAdmit pair r.2 id r.1

/-- The GRAPH_ADMIT request on a pair, with the image that it names. -/
def graphAdmitEffect (t p : Nat) (image : GraphImage) (s0 : State) : State :=
  let s := s0.at t
  match s.req? p 0x0010 with
  | none => s
  | some q =>
    let b := q.payload
    let sm := fld b 0x0C 4
    let cm := fld b 0x10 8
    if admitReqBad b || !mapsOk sm cm image then s.answer p 0x0107
    else
      let g := mapImage sm cm s.straps.module image
      s.finishAdmit p (s.admitGraph g (bit (fld b 0x18 1) 0) none (imageCtxs g)) s.freeGraphId id

/-- GRAPH_ADMIT (R383). -/
def execGraphAdmit (t p : Nat) (image : GraphImage) (s : State) : Out := .next (graphAdmitEffect t p image s)

/-! ## GRAPH_PARK (R41, R380) -/

/-- A save region that serves: long enough, and wholly in DRAM or in one writable host-window entry. -/
def State.saveRegionOk (s : State) (g : Graph) (a n : Nat) : Bool :=
  let need := g.image.contexts.length * 256 + (g.image.beacons.length + (groupBeacons g.image).length) * 2
  roundUp need 256 ≤ n && a % 256 == 0 && (regionOf a == .dram || regionOf a == .host) && s.mapStatus a n true == 0

/-- The GRAPH_PARK request on a pair. `hostFail`: the endpoint fails the save's write through the host window (R97). -/
def graphParkEffect (t p : Nat) (hostFail : Bool) (s0 : State) : State :=
  let s := s0.at t
  match s.req? p 0x0011 with
  | none => s
  | some q =>
    let b := q.payload
    let g := fld b 0 1
    let a := fld b 8 8
    let n := fld b 4 4
    if bits (fld b 1 1) 1 7 ≠ 0 ∨ fld b 2 2 ≠ 0 ∨ bits a 40 24 ≠ 0 then s.answer p 0x0107
    else match aGet s.bf.graphs g with
    | none => s.answer p 0x0203
    | some q =>
      if q.parked then s.answer p 0x0203
      else if !s.saveRegionOk q a n then s.answer p 0x0107
      else
        let s1 := s.modGraph g fun q => { q with saved := some (a, n) }
        if !q.inFlight then (s1.evictGraph g p hostFail).gateUnused
        else if bit (fld b 1 1) 0 then (s1.modGraph g fun q => { q with drain := .park p }).startReq p
        else s.answer p 0x0210

/-- GRAPH_PARK (R41). -/
def execGraphPark (t : Nat) (p : HostSave) (s : State) : Out := .next (graphParkEffect t p.id p.hostFail s)

/-! ## GRAPH_RESTORE (R41) -/

/-- The contexts of a parked graph as its save region holds them, with the unit sets of the image. -/
def restoredCtxs (g : GraphImage) (saved : Bytes) : List (Nat × Ctx) :=
  let ixs := (imageCtxs g).map (·.1)
  (List.range ixs.length).filterMap fun k => match ixs[k]? with
    | some i =>
      let raw := ((g.contexts.find? (·.index == i)).map (·.bytes)).getD []
      let c := ctxOfSaved (sub saved (256 * k) 256) raw
      some (i, { c with prog := putBytes c.prog 0x50 (sub raw 0x50 16) })
    | none => none

/-- The beacon values of a parked graph come back. -/
def State.restoreValues (s : State) (g : GraphImage) (saved : Bytes) : State :=
  let off := 256 * g.contexts.length
  ((List.range g.beacons.length).zip g.beacons).foldl (fun s b => s.setBeacon b.2.index (fld saved (off + 2 * b.1) 2)) s

/-- The GRAPH_RESTORE request on a pair. A save region that can no longer be read gives the status of the read. -/
def graphRestoreEffect (t p : Nat) (s0 : State) : State :=
  let s := s0.at t
  match s.req? p 0x0012 with
  | none => s
  | some q =>
    let g := fld q.payload 0 1
    if !allZero (sub q.payload 1 3) then s.answer p 0x0107
    else match aGet s.bf.graphs g with
    | none => s.answer p 0x0203
    | some q =>
      match q.parked, q.saved with
      | true, some (a, _) =>
        let r := s.read initFirmware a (256 * q.image.contexts.length + 2 * q.image.beacons.length)
        if r.2.1 ≠ 0 then r.2.2.answerAdmit p { status := r.2.1 } 0 {}
        else
          let v := r.2.2.admitGraph q.image q.bestEffort (some g) (restoredCtxs q.image r.1)
          r.2.2.finishAdmit p v g fun s => (s.restoreValues q.image r.1).modGraph g fun q => { q with saved := none }
      | _, _ => s.answer p 0x0203

/-- GRAPH_RESTORE (R41). -/
def execGraphRestore (t p : Nat) (s : State) : Out := .next (graphRestoreEffect t p s)

/-! ## GRAPH_STOP (R380) -/

/-- The GRAPH_STOP request on a pair: with nothing in flight the graph leaves at once; otherwise instances in flight are awaited, or cancelled
when DRAIN is clear, and PARK_DRAIN_COMPLETE ends the request. -/
def graphStopEffect (t p : Nat) (s0 : State) : State :=
  let s := s0.at t
  match s.req? p 0x0013 with
  | none => s
  | some q =>
    let b := q.payload
    let g := fld b 0 1
    if bits (fld b 1 1) 1 7 ≠ 0 ∨ fld b 2 2 ≠ 0 then s.answer p 0x0107
    else match aGet s.bf.graphs g with
    | none => s.answer p 0x0203
    | some q =>
      let s1 := if bit (fld b 1 1) 0 then s else s.cancelGraph g
      let still := match aGet s1.bf.graphs g with
        | some q => q.inFlight
        | none => false
      if q.parked || !still then ((s1.removeGraph g).gateUnused).answer p 0
      else (s1.modGraph g fun q => { q with drain := .stop p }).startReq p

/-- GRAPH_STOP (R380). -/
def execGraphStop (t p : Nat) (s : State) : Out := .next (graphStopEffect t p s)

end Sys2Proof.Machine
end

