-- ==== Sys2Proof/Machine/Crypto.lean ====
section
/-! DEFINITION. The hash and the signature of R460 and R461: SHA-256 and ECDSA over P-256, as the standards that the manual names define
them (PRESUMED from FIPS 180-4, FIPS 186-4 and SEC 1). -/
namespace Sys2Proof.Machine
open Sys2Proof

/-! ## SHA-256 -/

/-- The primes below `n`, ascending. -/
def primesBelow (n : Nat) : List Nat :=
  (List.range n).filter fun p => 2 ≤ p && (List.range p).all fun d => d < 2 || p % d != 0

/-- The largest number whose `k`-th power is at most `v`, found from bit `n - 1` down, above what `r` already holds. -/
def rootFrom (k v : Nat) : Nat → Nat → Nat
  | 0, r => r
  | n + 1, r => rootFrom k v n (if (r + 2 ^ n) ^ k ≤ v then r + 2 ^ n else r)

/-- The first 32 bits of the fraction of a prime's `k`-th root, as the standard defines its constants. -/
def rootFraction (k p : Nat) : Nat := rootFrom k (p * 2 ^ (32 * k)) 40 0 % 2 ^ 32

/-- The eight words a hash starts from: square roots of the first eight primes. -/
def shaInit : List Nat := (primesBelow 20).map (rootFraction 2)

/-- The round constants: cube roots of the first 64 primes. -/
def shaK : List Nat := (primesBelow 312).map (rootFraction 3)

/-- A 32-bit word rotated right. -/
def rotr (n x : Nat) : Nat := (x >>> n) ||| ((x <<< (32 - n)) % 2 ^ 32)

/-- The big-endian number that a string of bytes holds. -/
def beNat (b : Bytes) : Nat := b.foldl (fun acc x => acc * 256 + x.toNat) 0

/-- `n` bytes of `v`, big-endian. -/
def beBytes (n v : Nat) : Bytes := (leBytes n v).reverse

/-- The message schedule, newest word first, extended by `n` words. -/
def shaSchedule : Nat → List Nat → List Nat
  | 0, w => w
  | n + 1, w =>
    let x15 := w.getD 14 0
    let x2 := w.getD 1 0
    let s0 := rotr 7 x15 ^^^ rotr 18 x15 ^^^ (x15 >>> 3)
    let s1 := rotr 17 x2 ^^^ rotr 19 x2 ^^^ (x2 >>> 10)
    shaSchedule n ((w.getD 15 0 + s0 + w.getD 6 0 + s1) % 2 ^ 32 :: w)

/-- One round over the eight working words. -/
def shaRound (v : List Nat) (kw : Nat × Nat) : List Nat :=
  match v with
  | [a, b, c, d, e, f, g, h] =>
    let t1 := h + (rotr 6 e ^^^ rotr 11 e ^^^ rotr 25 e) + ((e &&& f) ^^^ ((2 ^ 32 - 1 - e) &&& g)) + kw.1 + kw.2
    let t2 := (rotr 2 a ^^^ rotr 13 a ^^^ rotr 22 a) + ((a &&& b) ^^^ (a &&& c) ^^^ (b &&& c))
    [(t1 + t2) % 2 ^ 32, a, b, c, (d + t1) % 2 ^ 32, e, f, g]
  | _ => v

/-- The hash after one block of 64 bytes. -/
def shaBlock (h : List Nat) (block : Bytes) : List Nat :=
  let w := ((List.range 16).map fun k => beNat (sub block (4 * k) 4)).reverse
  let ws := (shaSchedule 48 w).reverse
  ((shaK.zip ws).foldl shaRound h |>.zip h).map fun p => (p.1 + p.2) % 2 ^ 32

/-- The hash after `n` blocks. -/
def shaBlocks : Nat → List Nat → Bytes → List Nat
  | 0, h, _ => h
  | n + 1, h, m => shaBlocks n (shaBlock h (m.take 64)) (m.drop 64)

/-- SHA-256 of a string of bytes. -/
def sha256 (m : Bytes) : Bytes :=
  let pad := (119 - m.length % 64) % 64
  let full := m ++ [0x80] ++ zeros pad ++ beBytes 8 (8 * m.length)
  (shaBlocks (full.length / 64) shaInit full).flatMap (beBytes 4)

/-! ## P-256 -/

/-- The field's prime, the group's order, the curve's constant and its base point. -/
def p256 : Nat := 0xFFFFFFFF00000001000000000000000000000000FFFFFFFFFFFFFFFFFFFFFFFF
def n256 : Nat := 0xFFFFFFFF00000000FFFFFFFFFFFFFFFFBCE6FAADA7179E84F3B9CAC2FC632551
def b256 : Nat := 0x5AC635D8AA3A93E7B3EBBD55769886BC651D06B0CC53B0F63BCE3C3E27D2604B
def g256 : Nat × Nat :=
  (0x6B17D1F2E12C4247F8BCE6E563A440F277037D812DEB33A0F4A13945D898C296, 0x4FE342E2FE1A7F9B8EE7EB4A7C0F9E162BCE33576B315ECECBB6406837BF51F5)

/-- x^e mod m over the low `n` bits of e. -/
def powMod (m : Nat) : Nat → Nat → Nat → Nat → Nat
  | 0, _, _, acc => acc
  | n + 1, x, e, acc => powMod m n (x * x % m) (e / 2) (if e % 2 = 1 then acc * x % m else acc)

/-- The inverse modulo a prime. -/
def invMod (m x : Nat) : Nat := powMod m 256 (x % m) (m - 2) 1

/-- The sum of two points; none is the point at infinity. -/
def addPoint (a b : Option (Nat × Nat)) : Option (Nat × Nat) :=
  match a, b with
  | none, q => q
  | q, none => q
  | some (x1, y1), some (x2, y2) =>
    if x1 = x2 ∧ (y1 + y2) % p256 = 0 then none
    else
      let l := if x1 = x2 then (3 * x1 * x1 + p256 - 3) * invMod p256 (2 * y1) % p256
        else (y2 + p256 - y1) * invMod p256 (x2 + p256 - x1) % p256
      let x3 := (l * l + 2 * p256 - x1 - x2) % p256
      some (x3, (l * (x1 + p256 - x3) + p256 - y1) % p256)

/-- k times a point, over the low `n` bits of k. -/
def mulPoint : Nat → Nat → Option (Nat × Nat) → Option (Nat × Nat) → Option (Nat × Nat)
  | 0, _, _, acc => acc
  | n + 1, k, q, acc => mulPoint n (k / 2) (addPoint q q) (if k % 2 = 1 then addPoint acc q else acc)

/-- A public key is a point of the curve. -/
def keyOk (x y : Nat) : Bool := x < p256 && y < p256 && y * y % p256 == (x * x * x + (p256 - 3) * x + b256) % p256

/-- ECDSA verification of a signature r, s over a hash, both as numbers. -/
def ecdsaOk (x y hash r s : Nat) : Bool :=
  keyOk x y && 0 < r && r < n256 && 0 < s && s < n256 &&
    let w := invMod n256 s
    match addPoint (mulPoint 256 (hash * w % n256) (some g256) none) (mulPoint 256 (r * w % n256) (some (x, y)) none) with
    | some q => q.1 % n256 == r
    | none => false

/-! ## Images (R460, R461) -/

/-- IMAGE_BYTES, FW_VERSION, SVN, KEY_INDEX, REVOKE and BODY_HASH of a header. -/
def imgBytes (b : Bytes) : Nat := fld b 0x008 4
def imgVersion (b : Bytes) : Nat := fld b 0x00C 4
def imgSvn (b : Bytes) : Nat := fld b 0x010 1
def imgKey (b : Bytes) : Nat := fld b 0x006 1
def imgRevoke (b : Bytes) : Nat := bits (fld b 0x011 1) 0 4
def imgHash (b : Bytes) : Bytes := sub b 0x020 32

/-- A section of an image: offset, length, target, load offset. -/
structure ImgSection where
  offset : Nat
  length : Nat
  target : Nat
  load : Nat
  deriving DecidableEq, Repr, Inhabited

/-- The sections that a header counts. -/
def imgSections (b : Bytes) : List ImgSection :=
  (List.range (bits (fld b 0x012 1) 0 3 + 1)).map fun k =>
    let o := 0x080 + 16 * k
    { offset := fld b o 4, length := fld b (o + 4) 4, target := fld b (o + 8) 4, load := fld b (o + 12) 4 }

/-- A section lies within the image and within its target: 2 MiB of Watchtower memory or 128 KiB of Belfry instruction store. -/
def ImgSection.ok (x : ImgSection) (size : Nat) : Bool :=
  0x200 ≤ x.offset && x.offset + x.length ≤ size && x.target < 2 && x.load % 8 == 0
    && x.load + x.length ≤ (if x.target = 0 then 0x20_0000 else 0x2_0000)

/-- No two sections overlap in a target. -/
def sectionsApart : List ImgSection → Bool
  | [] => true
  | x :: l => (l.all fun y => x.target != y.target || x.load + x.length ≤ y.load || y.load + y.length ≤ x.load) && sectionsApart l

/-- Step 1 of R461: magic, version, reserved fields, IMAGE_BYTES and the sections' bounds. -/
def imgHeaderOk (b : Bytes) : Bool :=
  let size := imgBytes b
  fld b 0 4 == 0x54574C53 && fld b 4 2 == 1 && imgKey b < 4 && fld b 7 1 == 0 && 1024 ≤ size && size ≤ 4194304 && size ≤ b.length
    && imgSvn b < 64 && bits (fld b 0x011 1) 4 4 == 0 && bits (fld b 0x012 1) 3 5 == 0 && allZero (sub b 0x013 13) && allZero (sub b 0x140 192)
    && (imgSections b).all (ImgSection.ok · size) && sectionsApart (imgSections b)

/-- The verification of R461 against the fused key hashes, the revoked slots and the anti-rollback value: 0, or the code of R478 for the first
failing step. -/
def imageStatus (keyHash : List Bytes) (revoked svn : Nat) (b : Bytes) : Nat :=
  let key := sub b 0x040 64
  if !imgHeaderOk b then 0x0A04
  else if sha256 key ≠ keyHash.getD (imgKey b) [] ∨ bit revoked (imgKey b) then 0x0A06
  else if imgSvn b < svn then 0x0A05
  else if !ecdsaOk (beNat (key.take 32)) (beNat (key.drop 32)) (beNat (sha256 (b.take 0x100))) (beNat (sub b 0x100 32)) (beNat (sub b 0x120 32))
    then 0x0A06
  else if sha256 (sub b 0x200 (imgBytes b - 0x200)) ≠ imgHash b then 0x0A04
  else 0

end Sys2Proof.Machine
end

