-- ==== Sys2Proof/Machine/Resets.lean ====
section
/-! DEFINITION. Resets: what each kind leaves, what holds the device, how a boot begins, and the repair record (R366, R391, R446, R450, R454,
R482, R490, R491). -/
namespace Sys2Proof.Machine
open Sys2Proof

/-! ## Kinds of reset (R491) -/

/-- The kinds of R491 that reset the units below Watchtower. -/
inductive ResetKind where
  | powerOn
  | full
  | noLink
  | warm
  deriving DecidableEq, Repr, Inhabited

/-- What a reset leaves of the endpoint: the link and the configuration space (taken to hold the MSI-X table and the BAR sizes, DEDUCED) are
kept without a full reset; a warm reset clears pairs, window entries, causes and pending bits, PCI_SCRATCH, PCI_DISCARD and PCI_BAR4_BASE
take their reset values (R11), and firmware runs on (R366, R391). -/
def Pci.afterReset (p : Pci) : ResetKind → Pci
  | .powerOn | .full => {}
  | .noLink => { linkUp := p.linkUp, d3hot := p.d3hot, msix := p.msix, bar4Size := p.bar4Size }
  | .warm => { p with cause := 0, pendingBits := 0, scratch := 0, discards := 0, bar4Refused := 0, bar4Base := 0
                      pairs := Vector.replicate 16 {}, nextPair := 0, windows := Vector.replicate 64 {}
                      state := .booting, fatalStatus := 0 }

/-- What a reset leaves of Watchtower: retention memory, but for a power-on; with the firmware image also what firmware holds in its memory.
R491 speaks only of the units below Watchtower, so which of its own registers a warm reset keeps is the model's (DESIGN CHOICE, log entry 145). -/
def Watch.afterReset (w : Watch) : ResetKind → Watch
  | .powerOn => {}
  | .full | .noLink => { ret := w.ret, tripped := w.tripped }
  | .warm => { w with prt := [], prtStage := Vector.replicate 8 0, prtStatus := 0, denyCount := 0, denyLast := 0, throttled := [], rising := []
                      lockstepOk := true, reload := if w.slot = 2 then 3 else w.reload }

/-- What a reset leaves of the counting of errors: with the firmware image, its wear table and times. -/
def Reliab.afterReset (r : Reliab) : ResetKind → Reliab
  | .warm => { counted := r.counted, wear := r.wear, wtPages := r.wtPages }
  | _ => {}

/-- DEVTIME after a reset: 0 after a power-on or full reset, running on otherwise. The timebase's own count only labels the commands and
runs on (DESIGN CHOICE). -/
def Clock.afterReset (c : Clock) : ResetKind → Clock
  | .powerOn | .full => { timebase := c.timebase }
  | _ => c

/-- The reference clocks after a reset: their presence is the board's; the PLLs of REFCLK_SYS lock again after a full reset. Every calibration
value is lost. -/
def Power.afterReset (p : Power) : ResetKind → Power
  | .powerOn => {}
  | .full => { refPcie := p.refPcie, refPl := p.refPl, xtal := p.xtal }
  | _ => { refSys := p.refSys, refPcie := p.refPcie, refPl := p.refPl, xtal := p.xtal }

/-- The repair record as firmware would write it now (R446). -/
def State.repairNow (s : State) : RepairRecord :=
  let fused := s.fuses.coreRows
  let fusedA := s.fuses.arrayRows
  { spares := s.reliab.spares, granules := s.mem.retiredGranules, ctxs := s.bf.retiredCtx
    cores := unitsWhere 128 fun k => (s.spc.at k).retired
    coreRows := (List.range 128).flatMap fun k => ((s.spc.at k).failed.filter fun r => !fused.contains (k, r)).map fun r => (k, r)
    arrays := unitsWhere 16 fun k => ((s.sne.at (k / 4)).arrays.at (k % 4)).retired
    arrayRows := (List.range 16).flatMap fun k =>
      ((((s.sne.at (k / 4)).arrays.at (k % 4)).failed.filter fun r => !fusedA.contains (k, r)).map fun r => (k, r))
    units := s.reliab.wornUnits, banks := s.reliab.domRetired.toList }

/-- The source that the reloads of R436 read: the booted slot, the other one while and after a commit has rewritten the booted slot, when it
holds the running image, the staged copy, or none (R466). -/
def State.reloadSource (s : State) : Nat :=
  if s.watch.slot = 2 then 2
  else if !s.watch.slotRewritten then 0
  else if imgHash (s.flash.slots.getD (1 - s.watch.slot) []) = s.watch.bodyHash then 1
  else 3

/-- WT_STATUS.RELOAD follows the source. -/
def State.setReload (s : State) : State := { s with watch := { s.watch with reload := s.reloadSource } }

/-- The slot that the commit at the head of the flash queue rewrites is erased; a commit of the running slot moves the reloads (R465, R466). -/
def State.beginFlash (s : State) : State :=
  match s.flash.writing with
  | .commit _ target _ :: _ =>
    let s1 := { s with flash := { s.flash with slots := s.flash.slots.set target [] } }
    if s1.watch.slot = 2 ∨ 1 < s1.watch.slot then s1
    else ({ s1 with watch := { s1.watch with slotRewritten := s1.watch.slotRewritten || target == s1.watch.slot } }).setReload
  | _ => s

/-- A repair record is written over the older copy (R459). -/
def Flash.writeRecord (f : Flash) (r : RepairRecord) : Flash := { f with repair := some r, older := f.repair }

/-- A repair-record update is the operation that writes flash. -/
def Flash.repairWrites (f : Flash) : Bool := if f.writing.isEmpty then f.repairDue else f.writing.head? == some .repair

/-- What a reset leaves of flash: an unfinished slot write leaves that slot invalid, and an unfinished repair-record update the older copy, but that
firmware finishes its update before a warm reset or one without link (DEDUCED from R446, R459 and R465). -/
def State.flashAfter (s : State) (k : ResetKind) : Flash :=
  let f := { s.flash with writing := [], repairDue := false }
  if s.flash.repairDue ∧ (k = .warm ∨ k = .noLink) then f.writeRecord s.repairNow
  else if s.flash.repairWrites then { f with older := none }
  else f

/-- Failed rows of an array in ascending order, among those of a list. -/
def rowsOf (l : List (Nat × Nat)) (k : Nat) : List Nat := ((l.filter (·.1 == k)).map (·.2)).foldl sInsert []

/-- The failed-row maps of cores and SNE arrays that a reset loads from the fuses (R11, R162, R316). -/
def fusedCores (f : Fuses) : Tab 128 Spc := Vector.ofFn fun k => { failed := rowsOf f.coreRows k.val }
def fusedSnes (f : Fuses) : Tab 4 Sne := Vector.ofFn fun n =>
  { arrays := Vector.ofFn fun a => { failed := rowsOf f.arrayRows (4 * n.val + a.val) } }

/-- A reset of a kind, with the cause it leaves. Host memory, the straps, the fuses, flash, Lantern and what the stores hold are kept; a
power-on finds nothing in them. Every unit below Watchtower takes its reset value. -/
def State.resetTo (s : State) (k : ResetKind) (cause : Nat) : State :=
  { clock := s.clock.afterReset k
    mem := { cells := if k = .powerOn then [] else s.mem.cells, bad := if k = .powerOn then [] else s.mem.bad, host := s.mem.host }
    spc := fusedCores s.fuses, sne := fusedSnes s.fuses
    pci := s.pci.afterReset k
    watch := s.watch.afterReset k
    reliab := s.reliab.afterReset k
    power := s.power.afterReset k
    lantern := s.lantern, fuses := s.fuses, flash := s.flashAfter k, straps := s.straps
    resets := { cause := cause, count := if k = .powerOn then 0 else satInc 16 s.resets.count
                held := if k = .powerOn then [.pins] else s.resets.held }
    out := s.out, fresh := s.fresh, pending := s.pending }

/-! ## Holds and boots (R462, R490) -/

/-- The device is held by one more source. -/
def State.hold (s : State) (h : ResetHold) : State :=
  { s with resets := { s.resets with held := if s.resets.held.contains h then s.resets.held else s.resets.held ++ [h] } }

/-- A boot status is kept in retention memory. -/
def State.bootNote (s : State) (status : Nat) : State :=
  { s with watch := { s.watch with ret := { s.watch.ret with bootStatus := s.watch.ret.bootStatus ++ [status] } } }

/-- Where retention memory holds what it keeps, in bytes of its 4 KiB: sixteen event records of 32 bytes, boot statuses in a word each, the staged-boot
request, and the four seeds. The spec places none of them (DESIGN CHOICE; log entry 162). -/
def retBoot : Nat := 512
def retStaged : Nat := 1024
def retSeeds : Nat := 2048

/-- The records of `size` bytes each from `base` that hold no uncorrectable word. -/
def soundRecords {α : Type} (bad : List Nat) (base size : Nat) (l : List α) : List α :=
  (l.mapIdx fun k x => if bad.any fun a => base + size * k ≤ a && a < base + size * (k + 1) then none else some x).filterMap id

/-- Watchtower reads retention memory from `lo` up to `hi`: a record that holds an uncorrectable word is discarded, the word is rewritten as zero, and 0x0902
is logged (R435). -/
def State.readRetention (s : State) (lo hi : Nat) : State :=
  let r := s.watch.ret
  let bad := r.bad.filter fun a => lo ≤ a && a < hi
  let r1 : Retention := { r with
    bad := r.bad.filter fun a => !(lo ≤ a && a < hi)
    events := soundRecords bad 0 32 r.events
    bootStatus := soundRecords bad retBoot 8 r.bootStatus
    staged := if bad.any fun a => retStaged ≤ a && a < retStaged + 16 then none else r.staged
    memSeeds := r.memSeeds.filter fun x => !(bad.any fun a => retSeeds + 512 * x.1 ≤ a && a < retSeeds + 512 * (x.1 + 1)) }
  bad.foldl (fun s a => s.logError 0x0902 13 0xFF 1 0 0xFFFF a 0 0) { s with watch := { s.watch with ret := r1 } }

/-- The image that the ROM verifies first: the staged one, where retention memory holds a request that can be read, or slot A (R462, R465). -/
def State.firstImage (s : State) : Nat :=
  if s.watch.ret.staged.isSome && !(s.watch.ret.bad.any fun a => retStaged ≤ a && a < retStaged + 16) then 2 else 0

/-- The ROM starts: the PLLs are locked, the link trains, and the staged image or slot A is verified first. -/
def State.startBoot (s : State) : State :=
  { s with power := { s.power with refSys := true }
           pci := { s.pci with linkUp := s.power.refPcie }
           watch := { s.watch with booting := some s.firstImage } }

/-- A source lets go; when it is the last, the boot starts. -/
def State.release (s : State) (h : ResetHold) : State :=
  if !s.resets.held.contains h then s
  else
    let s1 := { s with resets := { s.resets with held := s.resets.held.filter (· ≠ h) } }
    if s1.resets.held.isEmpty then s1.startBoot else s1

/-! ## POWER_ON_RESET, RESET_N_ASSERT, PERST_N_ASSERT, RESET_RELEASE (R483, R490) -/

/-- POWER_ON_RESET (R490): retention memory is cleared, and the pins still hold the device. -/
def execPowerOnReset (t : Nat) (s : State) : Out := .next ((s.at t).resetTo .powerOn 0)

/-- RESET_N_ASSERT (R490). -/
def execResetNAssert (t : Nat) (s : State) : Out := .next (((s.at t).resetTo .full 3).hold .pins)

/-- PERST_N_ASSERT (R490). -/
def execPerstNAssert (t : Nat) (s : State) : Out := .next (((s.at t).resetTo .full 4).hold .pins)

/-- The later of RESET_N and PERST_N is released: the references that the integrator has made stable are present (R483). -/
def resetReleaseEffect (t : Nat) (s0 : State) : State :=
  let s := s0.at t
  if s.resets.held.contains .pins then
    ({ s with power := { s.power with refPcie := true, refPl := true, xtal := true } }).release .pins
  else s

/-- RESET_RELEASE (R492). -/
def execResetRelease (t : Nat) (s : State) : Out := .next (resetReleaseEffect t s)

/-! ## SUPPLY_FAILURE, SUPPLY_RESTORE, REFCLK_SYS_LOSS, REFCLK_SYS_RESTORE (R482, R490) -/

/-- SUPPLY_FAILURE (R490). -/
def execSupplyFailure (t : Nat) (s : State) : Out := .next ((((s.at t).resetTo .full 1).bootNote 0x0A26).hold .supply)

/-- SUPPLY_RESTORE (R490). -/
def execSupplyRestore (t : Nat) (s : State) : Out := .next ((s.at t).release .supply)

/-- REFCLK_SYS_LOSS (R482, R490). -/
def execRefclkSysLoss (t : Nat) (s : State) : Out := .next ((((s.at t).resetTo .full 2).bootNote 0x0A29).hold .clock)

/-- REFCLK_SYS_RESTORE (R490). -/
def execRefclkSysRestore (t : Nat) (s : State) : Out := .next ((s.at t).release .clock)

/-! ## WATCHTOWER_WATCHDOG_EXPIRY, WATCHTOWER_LOCKSTEP_MISMATCH (R453, R456, R490) -/

/-- WATCHTOWER_WATCHDOG_EXPIRY (R490): a full reset, and the boot starts at once. -/
def execWatchtowerWatchdogExpiry (t : Nat) (s : State) : Out :=
  let s1 := s.at t
  .next (if s1.resets.held.isEmpty then ((s1.resetTo .full 5).bootNote 0x0A27).startBoot else s1)

/-- A lockstep mismatch: the device is quiesced and FATAL, and the pair alone is reset and reads its image again. Calibration, DEVTIME and
the link are kept; a seed of a port is not (R453, R491, R502). -/
def lockstepMismatchEffect (t : Nat) (s0 : State) : State :=
  let s := s0.at t
  if !s.resets.held.isEmpty then s
  else
    let s1 := (s.fatal 0x090B).bootNote 0x090B
    let unseed := fun (b : CalBlock) => { b with seed := none }
    { s1 with
      watch := { ret := s1.watch.ret, prt := s1.watch.prt, prtStage := s1.watch.prtStage, denyCount := s1.watch.denyCount
                 denyLast := s1.watch.denyLast, temp := s1.watch.temp, tempTime := s1.watch.tempTime, volt := s1.watch.volt
                 booting := some s1.firstImage }
      pci := { s1.pci with hokudan := false }
      flash := s1.flashAfter .full
      reliab := { s1.reliab with counted := [], wear := [], wtPages := [] }
      power := { s1.power with blocks := s1.power.blocks.map unseed }
      resets := { s1.resets with cause := 8, count := satInc 16 s1.resets.count } }

/-- WATCHTOWER_LOCKSTEP_MISMATCH (R456). -/
def execWatchtowerLockstepMismatch (t : Nat) (s : State) : Out := .next (lockstepMismatchEffect t s)

/-! ## FUNCTION_LEVEL_RESET, RESET_FULL, RESET_WARM (R366, R391) -/

/-- A reset without loss of the link, which the change of state to BOOTING follows: an event with SOURCE 0 and vector 1 (R366, R390, R391). -/
def State.resetLinked (s : State) (k : ResetKind) (cause : Nat) : State :=
  let s1 := s.resetTo k cause
  if s.pci.state = .booting then s1 else s1.event 0 0 0xFF [1]

/-- A warm reset: firmware goes on from step 4 of R492, and FIRMWARE_READY ends it. -/
def State.warmReset (s : State) : State := s.resetLinked .warm 7

/-- FUNCTION_LEVEL_RESET (R366). -/
def execFunctionLevelReset (t : Nat) (s : State) : Out :=
  let s1 := s.at t
  .next (if s1.resets.held.isEmpty && s1.pci.linkUp then s1.warmReset else s1)

/-- The RESET request on a pair, of the kind its command names: the response, and then the reset. A request of no kind, or with a reserved
byte set, is refused whichever command carries it. -/
def State.resetReq (s : State) (p kind : Nat) (f : State → State) : State :=
  match s.req? p 0x0004 with
  | none => s
  | some r =>
    let k := fld r.payload 0 1
    if 1 < k ∨ !allZero (sub r.payload 1 3) then s.answer p 0x0107
    else if k = kind then f (s.answer p 0)
    else s

/-- RESET_FULL (R391): a full reset without dropping the link, and the boot starts at once. -/
def execResetFull (t p : Nat) (s : State) : Out :=
  .next ((s.at t).resetReq p 0 fun s => (s.resetLinked .noLink 6).startBoot)

/-- RESET_WARM (R366). -/
def execResetWarm (t p : Nat) (s : State) : Out := .next ((s.at t).resetReq p 1 State.warmReset)

end Sys2Proof.Machine
end

