-- ==== Sys2Proof/Machine/SelfTest.lean ====
section
/-! DEFINITION. The self-test of arrays and their spare rows, for Spire cores and SNE arrays alike (R152, R154 to R156, R313, R314). -/
namespace Sys2Proof.Machine
open Sys2Proof

/-! ## One view of a tested array -/

/-- What the self-test reads and writes of an array. -/
structure TestView where
  retired : Bool := false
  selftest : Bool := false
  failed : List Nat := []
  transient : List (Nat × Nat) := []
  suspect : Option Nat := none
  rowDue : Option Nat := none
  testPair : Option Nat := none
  lastTest : Nat := 0
  deriving DecidableEq, Repr, Inhabited

/-- The view of a core or of an SNE array. -/
def State.testOf (s : State) : ArrayRef → TestView
  | .core n =>
    let x := s.spc.at n
    { retired := x.retired, selftest := x.selftest, failed := x.failed, transient := x.transient, suspect := x.suspect
      rowDue := x.rowDue, testPair := x.testPair, lastTest := x.lastTest }
  | .sne n a =>
    let x := (s.sne.at n).arrays.at a
    { retired := x.retired, selftest := x.selftest, failed := x.failed, transient := x.transient, suspect := x.suspect
      rowDue := x.rowDue, testPair := x.testPair, lastTest := x.lastTest }

/-- The view written back. -/
def State.setTest (s : State) (r : ArrayRef) (v : TestView) : State :=
  match r with
  | .core n => s.modSpc n fun x => { x with
      retired := v.retired, selftest := v.selftest, failed := v.failed, transient := v.transient, suspect := v.suspect
      rowDue := v.rowDue, testPair := v.testPair, lastTest := v.lastTest }
  | .sne n a =>
    let put := fun (x : SneArray) => { x with
      retired := v.retired, selftest := v.selftest, failed := v.failed, transient := v.transient, suspect := v.suspect
      rowDue := v.rowDue, testPair := v.testPair, lastTest := v.lastTest }
    s.modSne n fun x => { x with arrays := x.arrays.mod a put }

/-- The array exists. -/
def arrayExists : ArrayRef → Bool
  | .core n => n < 128
  | .sne n a => n < 4 && a < 4

/-- The gate the array lies behind (R488). -/
def arrayGate : ArrayRef → GateUnit
  | .core n => .steeple (n / 16)
  | .sne n _ => .sne n

/-- An admitted graph names the core, or a network is bound to the array's SNE (R155, R313). -/
def State.arrayNamed (s : State) : ArrayRef → Bool
  | .core n => s.unitNamed (.spc n)
  | .sne n _ => !(s.netsOn n).isEmpty

/-- The array is between macros, or its SNE between units (R152, R313). -/
def State.arrayIdle (s : State) : ArrayRef → Bool
  | .core n => !(s.spc.at n).lanes.toList.any fun l => l.macroIx.isSome
  | .sne n _ => (s.sne.at n).unit.isNone

/-- The status with which an array is lost. -/
def lostStatus : ArrayRef → Nat
  | .core _ => 0x0408
  | .sne _ _ => 0x0422

/-- The array is lost: a core retires, an SNE array leaves and the bindings are re-admitted (R156, R314). -/
def State.loseTested (s : State) : ArrayRef → State
  | .core n => s.retireCore n 0x0408
  | .sne n a => s.loseArray n a

/-- The SELFTEST request that waits for a test is answered with the outcome (R380). -/
def State.answerTested (s : State) (v : TestView) (outcome : Nat) : State :=
  match v.testPair with
  | some p => s.answerTest p outcome
  | none => s

/-- A test begins on an array. -/
def State.beginTest (s : State) (r : ArrayRef) (pair : Option Nat) : State :=
  (s.setTest r { s.testOf r with selftest := true, suspect := none, testPair := pair, lastTest := s.dev }).updateHealth

/-- The unit has no gate that is closed; otherwise ungating begins (R488). -/
def State.openFor (s : State) (us : List GateUnit) : Bool × State :=
  if us.any s.gated then (false, s.beginUngate us) else (true, s)

/-! ## ARRAY_SELFTEST_COMPLETE (R154, R156, R313, R314) -/

/-- The transient errors within 24 h, with one more charged to a row (R154). -/
def chargeRow (l : List (Nat × Nat)) (row dev : Nat) : List (Nat × Nat) :=
  (l.filter fun p => dev < p.2 + 86400000000000) ++ [(row, dev)]

/-- A row is found failing: the switch of a spare is due, and the array stays out of service until it is made (R154); a third failed row loses the
array. -/
def State.rowFailed (s : State) (r : ArrayRef) (v : TestView) (row : Nat) : State :=
  if v.failed.length < 2 then s.setTest r { v with selftest := true, rowDue := some row }
  else ((s.setTest r { v with testPair := none }).loseTested r).answerTested v (lostStatus r)

/-- An array's self-test ends. -/
def arrayTestDone (t : Nat) (r : ArrayRef) (o : SelfTest) (s0 : State) : State :=
  let s := s0.at t
  let v := s.testOf r
  if !s.active || !v.selftest || v.rowDue.isSome || v.retired || !arrayExists r then s
  else
    let v1 := { v with selftest := false, suspect := none, lastTest := s.dev }
    let s1 : State := match o with
      | .unitFault => ((s.setTest r { v1 with testPair := none }).loseTested r).answerTested v (lostStatus r)
      | .rowFails row => s.rowFailed r v1 row
      | .pass =>
        match v.suspect with
        | none => (s.setTest r { v1 with testPair := none }).answerTested v 0
        | some row =>
          let tr : List (Nat × Nat) := chargeRow v.transient row s.dev
          if 3 ≤ (tr.filter fun p => p.1 == row).length then s.rowFailed r { v1 with transient := tr.filter fun p => p.1 != row } row
          else (s.setTest r { v1 with transient := tr, testPair := none }).answerTested v 0
    (s1.updateHealth).gateUnused

/-- ARRAY_SELFTEST_COMPLETE (R154). -/
def execArraySelftestComplete (t : Nat) (a : ArrayRef) (r : SelfTest) (s : State) : Out := .next (arrayTestDone t a r s)

/-! ## SPARE_ROW_SWITCH (R152, R313) -/

/-- What a switch counts: SPARE_SWITCHES of a core (R152). -/
def State.countSwitch (s : State) : ArrayRef → State
  | .core n => (s.modSpc n fun x => { x with spareSwitches := satInc 8 x.spareSwitches }).note 0x040C 1 n
  | .sne n _ => s.note 0x040C 2 n

/-- A due spare switch happens between macros or units; a request that asked for the test is answered with 0x040C. -/
def spareSwitchEffect (t : Nat) (r : ArrayRef) (s0 : State) : State :=
  let s := s0.at t
  let v := s.testOf r
  match v.rowDue with
  | none => s
  | some row =>
    if !s.active || v.retired || !s.arrayIdle r then s
    else
      let s1 := s.setTest r { v with selftest := false, failed := sInsert v.failed row, rowDue := none, testPair := none }
      let s2 := { s1 with flash := { s1.flash with repairDue := true } }.countSwitch r
      ((s2.answerTested v 0x040C).updateHealth).gateUnused

/-- SPARE_ROW_SWITCH (R152). -/
def execSpareRowSwitch (t : Nat) (a : ArrayRef) (s : State) : Out := .next (spareSwitchEffect t a s)

/-! ## PERIODIC_SELFTEST (R155, R313) -/

/-- Firmware tests an array that nothing names. -/
def periodicTestEffect (t : Nat) (r : ArrayRef) (s0 : State) : State :=
  let s := s0.at t
  let v := s.testOf r
  if s.active && arrayExists r && !v.selftest && !v.retired && !s.arrayNamed r && s.arrayIdle r && v.rowDue.isNone then
    let o := s.openFor [arrayGate r]
    if o.1 then o.2.beginTest r none else o.2
  else s

/-- PERIODIC_SELFTEST (R155). -/
def execPeriodicSelftest (t : Nat) (a : ArrayRef) (s : State) : Out := .next (periodicTestEffect t a s)

end Sys2Proof.Machine
end

