-- ==== Sys2Proof/Machine/Boot.lean ====
section
/-! DEFINITION. Boot, start-up, the update of firmware and debug access (R103, R104, R162, R316, R342, R436, R446, R454, R457 to R466, R492). -/
namespace Sys2Proof.Machine
open Sys2Proof

/-! ## BOOT_IMAGE_VERIFIED (R461, R462) -/

/-- The outcome of R461 for an image, against the fuses as they stand. -/
def State.verify (s : State) (b : Bytes) : Nat := imageStatus s.fuses.keyHash s.fuses.revoked s.fuses.svn b

/-- Firmware that has been loaded anew copies retention memory into its event log: the records, and one for each boot status, which then
clears (R471; the clearing is DEDUCED). -/
def State.copyRetention (s0 : State) : State :=
  let s := s0.readRetention 0 4096
  let ev := s.watch.ret.events
  let st := s.watch.ret.bootStatus
  let s1 := { s with watch := { s.watch with evLog := { next := ev.length, recs := ev }, ret := { s.watch.ret with bootStatus := [] } } }
  st.foldl (fun s c => s.note c 0 0xFF) s1

/-- The image that the ROM verifies: the staged one in Dome, or a slot's. -/
def State.bootImage (s : State) (k : Nat) : Bytes :=
  if k = 2 then
    match s.watch.ret.staged with
    | some g => memRead s.mem.cells g.addr g.len
    | none => []
  else s.flash.slots.getD k []

/-- An image that passed starts: its sections stand in their targets, Hokudan runs, and the register and version fields are the image's. -/
def State.startImage (s : State) (k : Nat) (b : Bytes) : State :=
  let s1 := { s with
    watch := { s.watch with slot := k, svnRunning := imgSvn b, fwVersion := imgVersion b, revoke := imgRevoke b, bodyHash := imgHash b
                            loaded := (imgSections b).map fun (x : ImgSection) => (x.target, x.load, sub b x.offset x.length)
                            booting := none, lockstepOk := s.pci.state != DevState.fatal, stagedHold := if k = 2 then 0x40_0000 else 0 }
    pci := { s.pci with hokudan := true } }
  s1.setReload.copyRetention

/-- No image passes: RECOVERY, in which held requests complete with 0x0106 (R390, R462). -/
def State.enterRecovery (s : State) : State :=
  let s1 := { s with watch := { s.watch with booting := none, slot := 0xFF }, pci := { s.pci with hokudan := true, state := .recovery } }
  (s1.copyRetention.event 0x0A03 0 0xFF [1]).serveHeld

/-- The verification of the image in turn ends: it starts, or the next in order is verified. -/
def bootVerifiedEffect (t : Nat) (s0 : State) : State :=
  let s := s0.at t
  match s.watch.booting with
  | none => s
  | some k =>
    if !s.resets.held.isEmpty then s
    else
      let b := s.bootImage k
      let st := s.verify (if k = 2 then b.take (imgBytes b) else b)
      let s1 := if k = 2 then { s with watch := { s.watch with ret := { s.watch.ret with staged := none } } } else s
      let next := fun (s : State) (j : Nat) => { s with watch := { s.watch with booting := some j } }
      if st = 0 then s1.startImage k b
      else if k = 2 then next (s1.bootNote st) 0
      else if k = 0 then next (s1.bootNote 0x0A01) 1
      else (s1.bootNote 0x0A02).enterRecovery

/-- BOOT_IMAGE_VERIFIED (R462). -/
def execBootImageVerified (t : Nat) (s : State) : Out := .next (bootVerifiedEffect t s)

/-! ## FIRMWARE_READY: start-up (R103, R104, R446, R454, R492) -/

/-- MEM_CFG of the interfaces from the flash profile (R85). -/
def cfgOf (f : FlashProfile) (m : Nat) : MemCfg :=
  match f.mem[m]? with
  | some (p, e, c, r) => { eccEn := e, populated := p, capacity := c, rate := r }
  | none => {}

/-- The calibration reference in use: the one that the profile selects, or with none selected the first of REXT_CAL and VREF_CAL, if it passes its check
(R493). -/
def calRefOf (f : FlashProfile) (fails : List StartFail) : Option Nat :=
  ((f.calRef.map fun k => [k]).getD [0, 1]).find? fun k => !fails.contains (.calReference k)

/-- The flash profile is applied: memory, cache share, calibration reference, threshold, regulators (R74, R458, R484, R493, R495). Without a
reference that passes its check, 0x0A21 is logged. A MEM_CFG that is locked already keeps its fields (R9). -/
def State.applyProfile (s : State) (fails : List StartFail) : State :=
  let f := s.flash.profile
  let ref := calRefOf f fails
  let cfg : Tab 4 MemCfg := Vector.ofFn fun m => let c := s.mem.cfg.at m.val; if c.lock then c else cfgOf f m.val
  let mv := if f.pmbus then s.fuses.volts.getD 0 0 else 0
  let s1 := { s with
    mem := { s.mem with cfg := cfg, cacheEighths := min f.cacheEighths 8 }
    power := { s.power with
      calRef := ref.getD 2, thresh := clampInt 2 40 f.thresh |>.toNat, refMissing := ref.isNone, pmbusOk := f.pmbus
      steeples := s.power.steeples.map fun x => { x with voutMv := mv } } }
  if ref.isNone then s1.note 0x0A21 10 0xFF else s1

/-- The populated interfaces that fail training. -/
def State.memFails (s : State) (fails : List StartFail) : List Nat :=
  unitsWhere 4 fun m => (s.mem.cfg.at m).populated && fails.contains (.memory m)

/-- Interfaces that fail training are reported, the largest set that R85 allows without them is kept, and the configuration is locked
(R85, R104). -/
def State.trainMemory (s : State) (fails : List StartFail) : State :=
  let bad := s.memFails fails
  let keep := if bad.contains 0 then 0 else if bad.contains 1 then 1 else if bad.isEmpty then 4 else 2
  let cfg : Tab 4 MemCfg := Vector.ofFn fun m =>
    let c := s.mem.cfg.at m.val
    { c with populated := c.populated && (c.lock || decide (m.val < keep)), lock := true, trainFailed := bad.contains m.val }
  bad.foldl (fun s m => s.event 0x0311 9 m [50]) { s with mem := { s.mem with cfg := cfg } }

/-- The cells of the DRAM region after start-up: zero with in-line ECC; without it undefined, so that every byte listed becomes a free value
(R103; log entry 3). -/
def State.freshDram (s : State) : List Host.Cell × Nat :=
  if s.ecc then ([], 0)
  else
    let old := s.mem.cells.filter fun c => c.1 < 0x10_0000_0000
    (old.foldl (fun (acc : List Host.Cell × Nat) c => (memSet acc.1 c.1 (Config.freeByte (s.fresh + acc.2)), acc.2 + 1)) ([], 0))

/-- The first address of the staging area in READY (R464). -/
def State.stagingBase (s : State) : Nat := s.dramEnd - 0x40_0000

/-- Memories are trained and filled, the staged image moves to the staging area, and every on-chip store holds zero (R103, R465). -/
def State.zeroMemory (s : State) : State :=
  let d := s.freshDram
  let img := if 0x40_0000 ≤ s.dramEnd then
      s.mem.cells.filter fun c => scratchBase ≤ c.1 && c.1 < scratchBase + s.watch.stagedHold
    else []
  let cells := img.foldl (fun m c => memSet m (c.1 - scratchBase + s.stagingBase) c.2) d.1
  { s with mem := { s.mem with cells := cells, bad := [], counters := [], behind := [], cache := [] }
           watch := { s.watch with stagedHold := 0 }, fresh := s.fresh + d.2 }

/-- The fused repairs and then the newer copy of the repair record that passes its check are applied, and an SNE with no array left fails with 0x0423 (R316); a record that fails its check is
discarded with 0x090F (R446, R450, R454, R459). -/
def State.applyRepairs (s : State) : State :=
  let r := (s.flash.repair.or s.flash.older).getD {}
  let spc : Tab 128 Spc := Vector.ofFn fun k =>
    { s.spc.at k.val with failed := rowsOf (s.fuses.coreRows ++ r.coreRows) k.val, retired := r.cores.contains k.val }
  let sne : Tab 4 Sne := Vector.ofFn fun n =>
    let arrays : Tab 4 SneArray := Vector.ofFn fun a =>
      { (s.sne.at n.val).arrays.at a.val with
          failed := rowsOf (s.fuses.arrayRows ++ r.arrayRows) (4 * n.val + a.val), retired := r.arrays.contains (4 * n.val + a.val) }
    { s.sne.at n.val with arrays := arrays, failed := r.units.contains (3, n.val) }
  let rfe : Tab 16 Rfe := Vector.ofFn fun n => { s.rfe.at n.val with failed := r.units.contains (2, n.val) }
  let vis : Tab 6 VisUnit := Vector.ofFn fun u => { s.vis.at u.val with failed := r.units.contains (5, u.val) }
  let banks : Tab 64 Nat := Vector.ofFn fun b => r.banks.getD b.val 0
  let s1 := { s with
    spc := spc, sne := sne, rfe := rfe, vis := vis
    mem := { s.mem with retiredGranules := r.granules, retired := min r.granules.length 16383 }
    bf := { s.bf with retiredCtx := r.ctxs }
    reliab := { s.reliab with spares := r.spares, wornUnits := r.units, domRetired := banks } }
  let s2 := (unitsWhere 4 fun n => (s1.sne.at n).inService == 0).foldl State.failSne s1
  if s.flash.repair.isNone ∧ s.flash.older.isNone then ({ s2 with flash := { s2.flash with repair := some {} } }).note 0x090F 9 0xFF else s2

/-- An array whose start-up test finds a new failed row is repaired within its spares, and the record in flash takes the row; beyond them it is
lost (R162, R313, R316). -/
def State.startRow (s : State) (r : ArrayRef) (row : Nat) (lose : State → State) : State :=
  let v := s.testOf r
  if v.retired ∨ !arrayExists r ∨ v.failed.contains row then s
  else if v.failed.length < 2 then
    let s1 := s.setTest r { v with failed := sInsert v.failed row }
    { s1 with flash := { s1.flash with repairDue := true } }.countSwitch r
  else lose s

/-- A unit that fails its self-test at start-up takes the cost of R447; a flash that stayed in 1S-1S-1S mode is reported (R458; log entry 140). -/
def State.startFail (s : State) (f : StartFail) : State :=
  match f with
  | .memory _ => s
  | .vision u => if u < 6 ∧ !(s.vis.at u).failed then s.loseVision u 0x0604 else s
  | .dma e => s.failDma e
  | .core n => s.retireCore n 0x040B
  | .array n a => if n < 4 ∧ a < 4 ∧ !((s.sne.at n).arrays.at a).retired then s.loseArray n a else s
  | .coreRow n row => s.startRow (.core n) row fun s => s.retireCore n 0x040B
  | .arrayRow n a row => s.startRow (.sne n a) row fun s => s.loseArray n a
  | .sneControl n => if n < 4 then s.failSne n else s
  | .lane l => if l < 3 then s.maskLane l else s
  | .lockstep => s.fatal 0x020C
  | .sfdp => s.note 0x0A11 10 0xFF
  | .calReference _ => s

/-- The lowest SVN among the slots that pass R461 now, and the key slots that they use (R463). -/
def State.goodSlots (s : State) : List Bytes := s.flash.slots.filter fun b => s.verify b == 0

/-- The first READY after a boot from a flash slot sets the anti-rollback counter, and then blows the revocation bits that the booted image names and
no passing image uses (R463). -/
def State.blowFuses (s : State) : State :=
  let good := s.goodSlots
  match good.map imgSvn with
  | [] => s
  | v :: vs =>
    let m := vs.foldl min v
    let s1 := if s.fuses.svn < m then ({ s with fuses := { s.fuses with svn := max s.fuses.svn (min m 63) } }).note 0x0A09 10 0xFF else s
    let keys := (List.range 4).filter fun k => bit s.watch.revoke k && !bit s.fuses.revoked k && !(s1.goodSlots.any fun b => imgKey b == k)
    keys.foldl (fun s k => ({ s with fuses := { s.fuses with revoked := setBits s.fuses.revoked k 1 1 } }).note 0x0A13 10 k) s1

/-- READY: Belfry runs, the event pair is pair 0 with every source enabled at the first READY, and held requests are served (R386, R390). -/
def State.enterReady (s : State) : State :=
  let first := !s.watch.everReady
  let s1 := { s with
    bf := { s.bf with ready := true, lockstepOk := true }
    watch := { s.watch with everReady := true }
    pci := { s.pci with state := .ready, eventPair := if first then 0 else s.pci.eventPair, eventMask := if first then 0x7FF else s.pci.eventMask } }
  let s2 := if first ∧ (s1.watch.slot = 0 ∨ s1.watch.slot = 1) then s1.blowFuses else s1
  ((s2.event 0 0 0xFF [1]).updateHealth).serveHeld

/-- Start-up ends where no image runs: a warm reset of a device in RECOVERY leads there again (R366, R390, R462; DEDUCED, log entry 21). -/
def State.backToRecovery (s : State) : State := (({ s with pci := { s.pci with state := .recovery } } : State).event 0x0A03 0 0xFF [1]).serveHeld

/-- Start-up ends: in READY, in RECOVERY where no image runs, or in FATAL when MI0 has failed its training, Belfry its lockstep test or two lanes their lane test (R46, R104, R452). -/
def firmwareReadyEffect (t : Nat) (fails : List StartFail) (s0 : State) : State :=
  let s := s0.at t
  if s.pci.state ≠ .booting ∨ !s.pci.hokudan ∨ !s.resets.held.isEmpty ∨ s.watch.booting.isSome then s
  else if s.watch.slot = 0xFF then s.backToRecovery
  else
    let s1 := (s.applyProfile fails).trainMemory fails
    if ((s.applyProfile fails).memFails fails).contains 0 then s1.fatal 0x0312
    else
      let s2 := fails.foldl State.startFail (s1.zeroMemory.applyRepairs)
      if s2.pci.state = .fatal then s2 else s2.enterReady

/-- FIRMWARE_READY (R390, R492). -/
def execFirmwareReady (t : Nat) (fails : List StartFail) (s : State) : Out := .next (firmwareReadyEffect t fails s)

/-! ## FW_WRITE, FW_COMMIT, FLASH_WRITE_COMPLETE (R459, R464 to R466) -/

/-- The staging area: the top 4 MiB of DRAM in READY, the first 4 MiB of the scratchpad in RECOVERY (R464). -/
def State.staging (s : State) : Nat := if s.pci.state = .recovery then scratchBase else s.stagingBase

/-- The FW_WRITE request on a pair: a staging offset, four reserved bytes and the data (R464). Without DRAM there is no staging area. -/
def fwWriteEffect (t p : Nat) (s0 : State) : State :=
  let s := s0.at t
  match s.req? p 0x0050 with
  | none => s
  | some r =>
    let off := fld r.payload 0 4
    let data := r.payload.drop 8
    if off % 8 ≠ 0 ∨ !allZero (sub r.payload 4 4) then s.answer p 0x0107
    else if 0x40_0000 < off + data.length ∨ (s.pci.state ≠ .recovery ∧ s.dramEnd < 0x40_0000) then s.answer p 0x0A07
    else (s.writeRaw initFirmware (s.staging + off) data).2.answer p 0

/-- FW_WRITE (R464). -/
def execFwWrite (t p : Nat) (s : State) : Out := .next (fwWriteEffect t p s)

/-- TARGET 2: the staged image moves to the scratchpad, the staged-boot request is kept, the response is written, and a reset of kind 0
follows (R465). -/
def State.commitStaged (s : State) (p len : Nat) (image : Bytes) : State :=
  let s1 := { s with
    mem := { s.mem with cells := memWrite s.mem.cells scratchBase image }
    watch := { s.watch with ret := { s.watch.ret with staged := some { addr := scratchBase, len := len } } } }
  ((s1.answer p 0).resetLinked .noLink 6).startBoot

/-- The commit joins the operations on flash; a repair-record update that is writing ends first (R459). -/
def State.commitSlot (s : State) (p target : Nat) (image : Bytes) : State :=
  let ahead := if s.flash.writing.isEmpty ∧ s.flash.repairDue then [FlashOp.repair] else s.flash.writing
  let s1 := { s with flash := { s.flash with writing := ahead ++ [FlashOp.commit (some p) target image] } }
  (if ahead.isEmpty then s1.beginFlash else s1).startReq p

/-- The FW_COMMIT request on a pair: byte 0 TARGET, 3 reserved bytes, and the image's length. -/
def fwCommitEffect (t p : Nat) (s0 : State) : State :=
  let s := s0.at t
  match s.req? p 0x0051 with
  | none => s
  | some r =>
    let target := fld r.payload 0 1
    let len := fld r.payload 4 4
    if 2 < target ∨ !allZero (sub r.payload 1 3) then s.answer p 0x0107
    else if 0x40_0000 < len then s.answer p 0x0A04
    else
      let image := memRead s.mem.cells s.staging len
      let st := if imgBytes image ≠ len then 0x0A04 else s.verify image
      if st ≠ 0 then s.answer p st
      else if target = 2 then s.commitStaged p len image
      else s.commitSlot p target image

/-- FW_COMMIT (R465). -/
def execFwCommit (t p : Nat) (s : State) : Out := .next (fwCommitEffect t p s)

/-- A commit of slot contents ends: the slot holds the image, or stays invalid with 0x0A08 when the write or the read-back failed; the pair that still waits for
it is answered. -/
def State.endCommit (s : State) (p : Option Nat) (target : Nat) (image : Bytes) (ok : Bool) : State :=
  let good := ok && s.verify image == 0
  let s1 := if good then { s with flash := { s.flash with slots := s.flash.slots.set target image } } else s
  let s2 := if s1.watch.slot < 2 then s1.setReload else s1
  match p with
  | some p => s2.answer p (if good then 0 else 0x0A08)
  | none => s2

/-- The operation that writes flash ends, and the next begins; a repair-record update writes the record as it stands (R446, R459). -/
def flashDoneEffect (t : Nat) (ok : Bool) (s0 : State) : State :=
  let s := s0.at t
  let record := fun (s : State) =>
    { s with flash := { (if ok then s.flash.writeRecord s.repairNow else { s.flash with older := none }) with repairDue := !ok } }
  if !s.resets.held.isEmpty then s
  else match s.flash.writing with
  | [] => if s.flash.repairDue then record s else s
  | .repair :: rest => (record { s with flash := { s.flash with writing := rest } }).beginFlash
  | .commit p target image :: rest =>
    ({ s with flash := { s.flash with writing := rest } }.endCommit p target image ok).beginFlash

/-- FLASH_WRITE_COMPLETE (R465). -/
def execFlashWriteComplete (t : Nat) (ok : Bool) (s : State) : Out := .next (flashDoneEffect t ok s)

/-! ## JTAG_DEBUG_COMMAND (R457) -/

/-- JTAG_DEBUG_COMMAND (R457): ignored and counted with DEBUG_OPEN intact. With DEBUG_OPEN blown the command reaches a debug unit whose actions the
manual does not give. -/
def execJtagDebugCommand (t : Nat) (s : State) : Out :=
  let s1 := s.at t
  if s1.fuses.debugOpen then .refused .debugAccess
  else .next { s1 with watch := { s1.watch with jtagRefused := satInc 8 s1.watch.jtagRefused } }

end Sys2Proof.Machine
end

