-- ==== Sys2Proof/Machine/SpireStage.lean ====
section
/-! DEFINITION. Faults of macros and quadrants, and the staging of a tile's operands in a core's local memory (R94, R141, R159, R171, R173, R174, R177,
R185, R206, R521). -/
namespace Sys2Proof.Machine
open Sys2Proof

/-! ## Quadrant aborts and macro faults (R159, R161, R171, R188) -/

/-- The core enters quadrant mode, its accumulator file empty. SPC_QSTATUS begins anew with the first quadrant stretch of a node (R158, R184). -/
def State.enterQuad (s : State) (i core : Nat) : State :=
  let first := ((aGet s.spire i).map (·.aborted)).getD [] == []
  s.modSpc core fun x =>
    if x.quadMode then x
    else { x with quadMode := true, lanes := Vector.replicate 5 {}, qstatus := if first then Vector.replicate 4 none else x.qstatus }

/-- A quadrant's macro aborts: its later macros of the node do not run, the others go on (R159). -/
def State.quadAbort (s : State) (i k core q status : Nat) : State :=
  let s1 := (s.enterQuad i core).modMacro i k fun m => { m with status := status }
  ({ s1 with spire := aMod s1.spire i fun n => { n with aborted := n.aborted ++ [(q, status)] } } : State).modSpc core fun x =>
    { x with lanes := x.lanes.mod q fun _ => {}
             qstatus := x.qstatus.mod q fun _ => some status
             quadAborts := satInc 8 x.quadAborts }

/-- A macro ends in a fault: quadrant-scoped for a quadrant macro, otherwise its node ends FAULTED (R159, R188). -/
def State.macroFault (s : State) (i k status : Nat) : State :=
  match s.ctx? i, s.macro? i k with
  | some c, some m =>
    if mQmode m.desc then s.quadAbort i k (c.cores.headD 0) (mQuad m.desc) status
    else (s.modMacro i k fun m => { m with status := status }).unitFault i status
  | _, _ => s

/-- The core's feeder, weight loader or drain met an uncorrectable word of its own local memory: quadrant-scoped in quadrant mode, otherwise the core
leaves the macro (R159, R521). -/
def State.localFault (s : State) (i k core q a : Nat) (m : MacroRun) : State :=
  let s1 := s.countLocal a
  (if mQmode m.desc then s1.quadAbort i k core q 0x040A else s1.leaveMacro i k core 0x040A).wearLocal a

/-- The first of some ranges of the core's local memory that holds a word already struck or poisoned. -/
def State.firstBad (s : State) (core : Nat) (spans : List (Nat × Nat)) : Option Nat :=
  if s.mem.bad.isEmpty then none
  else (spans.find? fun r => regionOf r.1 == .spire core && s.isBad r.1 r.2).map (·.1)

/-- What the feeder, weight loader or drain meets as it reads its own local memory, a fresh error at an offset or a bad word in what it reads: `some` of
the state where an uncorrectable word stops the core's part of the macro (R435, R521). -/
def State.feederError (s : State) (i k core q : Nat) (m : MacroRun) (err : ReadErr) (addr : Nat) (spans : List (Nat × Nat)) : Option State :=
  let a := localBase core + addr % 0x8_0000
  if err = .uncorrectable then some ((s.strike a).localFault i k core q a m)
  else (s.firstBad core spans).map fun b => s.localFault i k core q b m

/-! ## What the engine fetches (R94, R173, R185, R194, R206) -/

/-- Plain bytes of the B matrix (R171, R196). -/
def bTotal (d : Bytes) : Nat :=
  let rows := match mOp d with
    | 4 => mKh d * mKw d * mK d
    | 5 => mKh d * mKw d
    | _ => mK d
  (rows - 1) * mLd d 0x18 + packedBytes (mN d) (fmtWidth (mBFmt d))

/-- The code of B at a source position as it is staged: decoded under WCOMP, widened exactly where the wide alternate of A is read; none where a coded
block does not decode (R101, R102, R185, R221). -/
def State.bCode (s : State) (v : View) (p : Pos) : Option Nat :=
  let d := v.d
  let raw : Option Nat := if mWcomp d then
      (s.plainWeights (mAddr d 0x18) (bTotal d) (p.range.1 - mAddr d 0x18) p.range.2).map fun b =>
        if fmtWidth p.fmt = 4 then bits (leNat b) (4 * (p.idx % 2)) 4 else leNat b
    else some (s.elem p.fmt p.base p.idx)
  raw.map fun x => if v.wide.isSome && v.bFmt != p.fmt then (convert v.bFmt false true (elemVal p.fmt x)).1 else x

/-- The parts of a tile that the engine fetches, each with whether it is fetched with NO_ALLOC: A with its scales, B with its scales and the table
entries, C and the sums at DEST, the E panels. A part whose elements the tile fetched before needs unchanged is not fetched again (R173); B alone is
NO_ALLOC under WSTREAM, and comes coded under WCOMP (R185). -/
def State.tileReads (s : State) (v : View) (t : Stage) (keepA keepB keepC : Bool) : List (Nat × Nat × Bool) :=
  let d := v.d
  let cols := tileCols d t.ni
  let plain := fun (l : List (Nat × Nat)) => l.map fun r => (r.1, r.2, false)
  let bEls := v.bEls t.mi t.ni t.ki cols
  let b : List (Nat × Nat) := if mWcomp d then
      ((bEls.map fun p => s.weightReads (mAddr d 0x18) (bTotal d) (p.1.range.1 - mAddr d 0x18) p.1.range.2).flatten).eraseDups
    else bEls.map (·.1.range)
  (if keepA then [] else plain ((v.aEls t.mi t.ni t.ki).map (·.1.range)) ++ plain ((v.aScales t.mi t.ki).map fun a => (a.1, 1)))
    ++ (if keepB then [] else (b.map fun r => (r.1, r.2, mWstream d)) ++ plain ((v.bScales t.mi t.ki cols).map fun a => (a.1, 1)))
    ++ plain (v.tableEntries t.ni)
    ++ (if keepC then [] else plain ((v.cEls t.mi t.ni).map (·.1.range))) ++ plain (v.destReads t.mi t.ni)
    ++ (if mOp d = 3 then plain ((ePanel d (List.range (mP d))).map (·.1.range)) else [])

/-- The first failing read of a tile's operands: its address and status, when the Steeple engine stages them. A fresh error at `addr` counts where the
engine reads that address from a store that reports errors (R87, R521). -/
def State.stageStatus (s : State) (core : Nat) (rs : List (Nat × Nat × Bool)) (err : ReadErr) (addr : Nat) : Option (Nat × Nat) :=
  rs.foldl (fun acc r => match acc with
    | some x => some x
    | none =>
      let st := s.accessStatus (initDma (core / 16)) r.1 r.2.1 false
      if st ≠ 0 then some (r.1, if st = 0x0A10 then 0x0306 else st)
      else if err = .uncorrectable ∧ r.1 ≤ addr ∧ addr < r.1 + r.2.1 ∧ s.mayErr addr then some (addr, 0x0902)
      else if s.isBad r.1 r.2.1 then some (r.1, 0x0902) else none) none

/-! ## The staging buffers (R141, R174, R177, R520) -/

/-- A buffer of local memory is written anew: zeros, then the given elements (R177). -/
def State.fillBuf (s : State) (lo size : Nat) (ws : List MaskedByte) : State :=
  let s1 : State := { s with mem := { s.mem with
    cells := memClear s.mem.cells lo size, bad := s.mem.bad.filter fun b => !(lo ≤ b && b < lo + size) } }
  (byteRuns (s1.mergeMasked (ws.filter fun w => lo ≤ w.addr && w.addr < lo + size))).foldl (fun s r => s.poke r.1 r.2) s1

/-- The masked bytes that put each element's code where it belongs in the buffer at `lo`. -/
def placeEls (lo : Nat) (els : List (Pos × Nat)) : List MaskedByte :=
  (els.map fun p => elemWrites { p.1 with base := lo + p.1.base } (2 ^ 20) p.2).flatten

/-- One item of the staging area: buffer `buf` takes the elements. An item without bytes takes nothing. -/
def State.stageItem (s : State) (v : View) (base ix buf : Nat) (els : List (Pos × Nat)) : State :=
  let size := (v.items.getD ix (0, 0)).1
  if size = 0 then s else s.fillBuf (v.item base ix buf) size (placeEls (v.item base ix buf) els)

/-- The scale bytes of a pass's first block stand in their item; a second block of an MXFP4 pass, for which R174 leaves no room, stands in the engine's
stream alone (DESIGN CHOICE; log entry 122). -/
def scaleEls (t : Stage) (l : List (Nat × Option Nat)) : List (Pos × Nat) :=
  l.filterMap fun a => a.2.map fun o => ((⟨0, o, 1⟩ : Pos), t.scale a.1)

/-- B's elements with their codes, or none where a coded block does not decode. -/
def State.bCodes (s : State) (v : View) (l : List (Pos × Pos)) : Option (List (Pos × Nat)) :=
  l.mapM fun p => (s.bCode v p.1).map fun c => (p.2, c)

/-- The tile's buffers are filled: those of the parts not kept. FMM2's B and E panels, more than their three buffers hold, are filled as the passes reach
them. -/
def State.fillStage (s : State) (v : View) (t : Stage) (keepA keepB keepC : Bool) : Option State :=
  let d := v.d
  let cols := tileCols d t.ni
  let bs := if keepB ∨ mOp d = 3 then some [] else s.bCodes v (v.bEls t.mi t.ni t.ki cols)
  bs.map fun bs =>
    let code := fun (p : Pos × Pos) => (p.2, s.elem p.1.fmt p.1.base p.1.idx)
    let s1 := if keepA ∨ mOp d = 9 then s
      else (s.stageItem v t.base 0 t.a ((v.aEls t.mi t.ni t.ki).map code)).stageItem v t.base 1 t.a (scaleEls t (v.aScales t.mi t.ki))
    let s2 := if keepB ∨ mOp d = 3 then s1
      else (s1.stageItem v t.base 2 (if mOp d = 2 then 0 else t.b) bs).stageItem v t.base 3 t.b (scaleEls t (v.bScales t.mi t.ki cols))
    if keepC then s2 else s2.stageItem v t.base 4 t.c ((v.cEls t.mi t.ni).map code)

/-- A panel of FMM2's first product is staged as its first pass is reached. -/
def State.stagePanelB (s : State) (v : View) (t : Stage) (cols : List Nat) : Option State :=
  (s.bCodes v (v.bEls t.mi t.ni t.ki cols)).map fun bs =>
    let n := (cols.headD 0) / 32 % 3
    (s.stageItem v t.base 2 n bs).stageItem v t.base 3 n (scaleEls t (v.bScales t.mi t.ki cols))

/-- Before pass `p` takes a panel of FMM2's first product for the first time, the panel is staged; other passes find theirs in place. -/
def State.reachPanel (s : State) (v : View) (t : Stage) (p : Pass) : Option State :=
  if mOp v.d == 3 && p.k0 == (tileK v.d v.partials t.ki v.aFmt).1 then s.stagePanelB v t p.cols else some s

/-- The panel that the loader's next set needs is staged, where there is a next set (R145). -/
def State.reachNext (s : State) (v : View) (next : Option (Stage × Pass × (Nat × Nat × Nat × Nat))) : Option State :=
  match next with
  | some x => s.reachPanel v x.1 x.2.1
  | none => some s

/-- The panel that a pass needs is staged, unless its set was loaded ahead (R145). -/
def State.reachOwn (s : State) (v : View) (t : Stage) (p : Pass) (loaded : Bool) : Option State :=
  if loaded then some s else s.reachPanel v t p

/-- The E panels pass through their three buffers as the second product takes them (R174, R183). -/
def State.stagePanelsE (s : State) (v : View) (t : Stage) : State :=
  let d := v.d
  if mOp d = 3 then
    (cut 32 (mP d) (List.range (mP d))).zipIdx.foldl (fun s p =>
      s.stageItem v t.base 6 (p.2 % 3) ((ePanel d p.1).map fun q => (q.2, s.elem q.1.fmt q.1.base q.1.idx))) s
  else s

/-- The scale bytes and table entries a fetch brings, by source address; `old` holds those of the parts kept. -/
def State.sideBytes (s : State) (v : View) (t : Stage) (keepA keepB : Bool) (old : List (Nat × Bytes)) : List (Nat × Bytes) :=
  let scales := ((if keepA then [] else v.aScales t.mi t.ki) ++ (if keepB then [] else v.bScales t.mi t.ki (tileCols v.d t.ni))).map fun a => (a.1, 1)
  ((scales ++ v.tableEntries t.ni).map fun r => (r.1, s.peek r.1 r.2)) ++ (if keepA || keepB then old else [])

/-! ## A tile is fetched (R94, R173) -/

/-- Two tiles of one macro need the same elements of A, of B and of C: an operand the next tile needs unchanged stays in its buffer (R173). -/
def View.sameA (v : View) (t u : Stage) : Bool := v.aEls t.mi t.ni t.ki == v.aEls u.mi u.ni u.ki && v.aScales t.mi t.ki == v.aScales u.mi u.ki
def View.sameB (v : View) (t u : Stage) : Bool :=
  v.bEls t.mi t.ni t.ki (tileCols v.d t.ni) == v.bEls u.mi u.ni u.ki (tileCols v.d u.ni)
    && v.bScales t.mi t.ki (tileCols v.d t.ni) == v.bScales u.mi u.ki (tileCols v.d u.ni)
def View.sameC (v : View) (t u : Stage) : Bool := v.cEls t.mi t.ni == v.cEls u.mi u.ni

/-- The Steeple's engine fetches the operands of a claimed tile into the next of their three buffers, or keeps those that the tile fetched before it needs
unchanged. An error of the source, wherever it lies, stops the macro (R102, R171, R173, R435, R521). A fetch from another module whose port retrains waits
(R407). -/
def State.fetchTile (s : State) (i k core q tile : Nat) (m : MacroRun) (err : ReadErr) (addr : Nat) : State :=
  let v := m.view
  let last := (s.lane core q).staged.getLast?
  let next := fun (f : Staged → Nat) => ((last.map fun g => (f g + 1) % 3)).getD 0
  let g0 : Staged := { macroIx := k, tile := tile, a := next (·.a), b := next (·.b), c := next (·.c) }
  let t0 := m.stageOf core q g0
  let old := last.map (m.stageOf core q)
  let keepA := old.any (v.sameA t0)
  let keepB := old.any (v.sameB t0)
  let keepC := old.any (v.sameC t0)
  let reads := s.tileReads v t0 keepA keepB keepC
  let spans := reads.map fun r => (r.1, r.2.1)
  if s.peerWaits spans then s
  else if s.nodeShut i spans then s.macroFault i k 0x0301
  else match s.stageStatus core reads err addr with
  | some (a, 0x0902) =>
    let s1 := if err = .uncorrectable then s.strike addr else s
    (s1.countUncorrectable 0x0902 a (initUnit (initDma (core / 16)))).macroFault i k 0x0308
  | some (_, st) => s.macroFault i k st
  | none =>
    let s1 := reads.foldl (fun s r => s.cacheTouch r.1 r.2.1 false r.2.2) s
    let pick := fun (keep : Bool) (f : Staged → Nat) => if keep then (last.map f).getD 0 else f g0
    let g : Staged := { g0 with a := pick keepA (·.a), b := pick keepB (·.b), c := pick keepC (·.c), side := s1.sideBytes v t0 keepA keepB ((last.map (·.side)).getD []) }
    match s1.fillStage v (m.stageOf core q g) keepA keepB keepC with
    | none => s1.macroFault i k 0x030A
    | some s2 => s2.modLane core q fun l => { l with staged := l.staged ++ [g] }

/-- The next of a lane's first three claimed tiles that is not fetched, if the engine may fetch it. A tile of another macro waits until the tiles staged
for the one before are done, since the staging areas of two macros may be the same bytes (DEDUCED; log entry 123). -/
def Lane.toFetch (l : Lane) : Option (Nat × Nat) :=
  match l.order.find? fun x => (l.stagedAt x.1 x.2.1).isNone with
  | some x => if l.staged.all fun g => g.macroIx == x.1 then some (x.1, x.2.1) else none
  | none => none

/-- The engine fetches ahead: every one of the lane's first three claimed tiles (R94). -/
def State.stageAhead (s : State) (core q : Nat) (err : ReadErr) (addr : Nat) : Nat → State
  | 0 => s
  | fuel + 1 =>
    match s.nodeOfCore core, (s.lane core q).toFetch with
    | some (i, c), some (k, tile) =>
      if c.draining then s
      else match s.macro? i k with
        | some m => if m.tilesRun then (s.fetchTile i k core q tile m err addr).stageAhead core q err addr fuel else s
        | none => s
    | _, _ => s

end Sys2Proof.Machine
end

