-- ==== Sys2Proof/Machine/Peer.lean ====
section
/-! DEFINITION. The peer ports: PEER_CONFIG, training and loss, arriving signals, counter operations and accesses, and RELAY nodes (chapter 15). -/
namespace Sys2Proof.Machine
open Sys2Proof

/-! ## PEER_CONFIG requests (R408) -/

/-- The module that port k is wired to (R393). -/
def State.wiredTo (s : State) (k : Nat) : Nat := s.straps.module ^^^ (k + 1)

/-- The 8-byte response: neighbour, lanes and rate are zero but for PORT_UP. -/
def State.answerPeer (s : State) (p status : Nat) (tail : Bytes := zeros 4) : State := s.respond p status 0 tail

/-- What PORT_UP returns of a trained port. -/
def Peer.report (x : Peer) : Bytes := leBytes 1 x.neighbour ++ leBytes 1 x.lanes ++ leBytes 2 (if x.halfRate then 16 else 32)

/-- Bytes 1 to 15 hold nothing but the fields of the kind. -/
def peerReserved (b : Bytes) : Bool :=
  match fld b 0 1 with
  | 0 => bits (fld b 2 1) 2 6 == 0 && allZero (sub b 3 13)
  | 1 => allZero (sub b 2 14)
  | 2 => fld b 1 1 == 0 && bits (fld b 4 1) 2 6 == 0 && bits (fld b 6 1) 4 4 == 0 && fld b 7 1 == 0 && allZero (sub b 10 6)
  | 3 => bits (fld b 4 1) 3 5 == 0 && fld b 5 1 == 0 && allZero (sub b 8 8)
  | _ => false

/-- A PEER_CONFIG request of a kind on a pair. A request of no kind, or with a reserved field set, is refused whichever command carries it. -/
def State.peerReq (s : State) (p kind : Nat) (f : Bytes → State → State) : State :=
  match s.req? p 0x0061 with
  | none => s
  | some r =>
    if !peerReserved r.payload then s.answer p 0x0107
    else if fld r.payload 0 1 = kind then f r.payload s
    else s

/-! ## The loss of a peer (R407) -/

/-- Graphs that hold an import entry for a module, a counter mapping homed there, or a node on the port. -/
def State.graphsOnPort (s : State) (k : Nat) : List Nat :=
  let m := s.wiredTo k
  (((s.imports.filter fun e => bit e.2.mask m).map (·.2.graph)) ++ ((s.ctrMaps.filter (·.home == m)).map (·.graph))
    ++ ((s.bf.ctxs.filter fun c => c.2.type == 7 && c.2.port == k).map (·.2.graph))).eraseDups

/-- A range lies in the window onto module `m`. -/
def inWindow (m : Nat) (r : Nat × Nat) : Bool := regionOf r.1 == .peer m

/-- A lane of a core has a request to module `m` in flight: a write-out of a drained group, or the fetch of its next tile. -/
def State.laneUses (s : State) (i m core q : Nat) : Bool :=
  let l := s.lane core q
  (l.prevs ++ l.tile.toList).any (fun tp => tp.outs.any fun o => o.writes.any fun w => inWindow m (w.addr, 1))
    || match l.toFetch with
      | some (k, tile) => (s.macro? i k).any fun n =>
        (s.tileReads n.view (n.stageOf core q { macroIx := k, tile := tile }) false false false).any fun r => inWindow m (r.1, r.2.1)
      | none => false

/-- The units of a running node have a read or write in flight to module `m`: a tile's fetch or write-out, an operation with an extent there, or the unit
that a RELAY is to move (R397). -/
def State.remoteUse (s : State) (i m : Nat) (c : Ctx) : Bool :=
  c.state == .running && match c.type with
  | 3 => (s.vis.at c.engine).run.any fun r => r.ctx == i && r.op.any fun d => (opRanges c.engine d).any (inWindow m)
  | 4 => c.cores.any fun core => (List.range 5).any fun q => s.laneUses i m core q
  | 7 => c.relay && s.wiredTo c.port == m && (s.peer.at c.port).relay.any fun r => r.ctx == i && !r.overs &&
      ((s.relayGroup? c).bind fun g => (aGet s.bf.groups g).bind fun q => q.recvs[c.relayRecv]?).any fun v => decide (v.taken < v.delivered)
  | _ => false

/-- A claim of the node waits for a reply of module `m` (R402). -/
def State.claimsAt (s : State) (i m : Nat) (c : Ctx) : Bool :=
  c.state == .running && (aGet s.spire i).any fun n => n.macros.any fun p =>
    !p.2.claims.isEmpty && (s.mapped? c (mWctr p.2.desc)).any (·.home == m)

/-- Requests in flight to a module end their work with a status: the items of the engines, and the nodes whose units wait for it (R407). -/
def State.failPeerItems (s : State) (m status : Nat) : State :=
  let s1 := (List.range 15).foldl (fun s e => match (s.mem.dma.at e).item with
    | some it => if it.reqs.any fun q => inWindow m (q.addr, q.len) then s.dmaFault e it status else s
    | none => s) s
  ((s.bf.ctxs.filter fun p => s.remoteUse p.1 m p.2 || s.claimsAt p.1 m p.2).map (·.1)).foldl (fun s i => s.unitFault i status) s1

/-- A peer is lost: requests in flight, then the dependent graphs, the window and the health. -/
def State.losePeer (s : State) (k : Nat) : State :=
  let x := s.peer.at k
  if x.lost || !x.up then s
  else
    let s1 := s.modPeer k fun x => { x with up := false, retrain := false, lost := true, held := [], recent := [], lastStatus := 0x0703 }
    let s2 := (s1.failPeerItems (s.wiredTo k) 0x0704).event 0x0703 7 k [51]
    ((s2.graphsOnPort k).foldl (fun s g => s.stopGraph g 0x0703) s2).updateHealth

/-! ## PORT_UP, PORT_DOWN (R406, R408) -/

/-- A port is enabled and trains; its response waits for the outcome. A port that is up answers at once. -/
def State.portUp (s : State) (p : Nat) (b : Bytes) : State :=
  let k := fld b 1 1
  let x := s.peer.at k
  let f := fld b 2 1
  if 2 < k then s.answer p 0x0107
  else if x.up then s.answerPeer p 0 x.report
  else if x.pair.isSome then s.answer p 0x010D
  else (s.modPeer k fun x => { x with enabled := true, allowHalf := bit f 0, allowTwo := bit f 1, since := s.now, pair := some p
                                      failed := false }).startReq p

/-- PORT_UP (R408). -/
def execPortUp (t p : Nat) (s : State) : Out := .next ((s.at t).peerReq p 0 fun b s => s.portUp p b)

/-- The response that waits for a port's training. -/
def State.answerTraining (s : State) (k status : Nat) (tail : Bytes) : State :=
  match (s.peer.at k).pair with
  | some p => (s.modPeer k fun x => { x with pair := none }).answerPeer p status tail
  | none => s

/-- A port is disabled. -/
def State.portDown (s : State) (p : Nat) (b : Bytes) : State :=
  let k := fld b 1 1
  if 2 < k then s.answer p 0x0107
  else if !(s.graphsOnPort k).isEmpty then s.answer p 0x010D
  else
    let s1 := (s.answerTraining k 0x0701 (zeros 4)).failPeerItems (s.wiredTo k) 0x0704
    let s2 := s1.modPeer k fun x =>
      { x with enabled := false, up := false, retrain := false, neighbour := 0, lanes := 0, halfRate := false, held := [], recent := [] }
    ((s2.modBlock (14 + k) CalBlock.off).updateHealth).answerPeer p 0

/-- PORT_DOWN (R408). -/
def execPortDown (t p : Nat) (s : State) : Out := .next ((s.at t).peerReq p 1 fun b s => s.portDown p b)

/-! ## IMPORT, COUNTER_MAP (R400 to R402, R408) -/

/-- A graph that may be named by an import entry or a mapping: admitted with INFLIGHT 1. -/
def State.sharing? (s : State) (g : Nat) : Option Graph := (aGet s.bf.graphs g).filter fun q => q.image.inflight == 1

/-- An entry of the import table is set, or made invalid. -/
def State.setImport (s : State) (p : Nat) (b : Bytes) : State :=
  let k := fld b 2 2
  let ctr := bit (fld b 4 1) 1
  let e : Import := { counter := ctr, graph := fld b 5 1, mask := fld b 6 1, target := fld b 8 2 }
  if 1023 < k then s.answer p 0x0107
  else if !bit (fld b 4 1) 0 then
    let s1 : State := { s with imports := aErase s.imports k }
    (match aGet s.imports k with
      | some e => s1.endInstance e.graph 0
      | none => s1).answerPeer p 0
  else match s.sharing? e.graph with
    | none => s.answer p 0x0706
    | some q =>
      if (if ctr then q.counters.length else q.image.beacons.length) ≤ e.target then s.answer p 0x0706
      else ({ s with imports := aSet s.imports k e }).answerPeer p 0

/-- IMPORT (R400). -/
def execImport (t p : Nat) (s : State) : Out := .next ((s.at t).peerReq p 2 fun b s => s.setImport p b)

/-- A counter mapping is set, or removed. -/
def State.setCtrMap (s : State) (p : Nat) (b : Bytes) : State :=
  let m : CtrMap := { graph := fld b 1 1, index := fld b 2 2, home := bits (fld b 4 1) 0 2, imp := fld b 6 2 }
  let rest := s.ctrMaps.filter fun x => !(x.graph == m.graph && x.index == m.index)
  if 1023 < m.imp then s.answer p 0x0107
  else if !bit (fld b 4 1) 2 then ({ s with ctrMaps := rest }).answerPeer p 0
  else match s.sharing? m.graph with
    | none => s.answer p 0x0706
    | some q =>
      if q.counters.length ≤ m.index ∨ m.home = s.straps.module then s.answer p 0x0706
      else ({ s with ctrMaps := rest ++ [m] }).answerPeer p 0

/-- COUNTER_MAP (R402). -/
def execCounterMap (t p : Nat) (s : State) : Out := .next ((s.at t).peerReq p 3 fun b s => s.setCtrMap p b)

/-! ## PEER_TRAINING_COMPLETE, PEER_TRAINING_TIMEOUT (R394, R406) -/

/-- A port fails to come up: it is enabled no longer, so that its PHY's block is off (R488, R495). -/
def State.failPort (s : State) (k status : Nat) : State :=
  let s1 := ((s.modPeer k fun x => { x with failed := true, enabled := false, lastStatus := status }).modBlock (14 + k) CalBlock.off).note status 7 k
  (s1.answerTraining k status (zeros 4)).updateHealth

/-- A training port has trained: the neighbour's number is checked against the wiring. A rate or width that PORT_UP does not permit is no
training. After a loss the port carries nothing for the graphs that are admitted already (R407). -/
def trainingDoneEffect (t k neighbour lanes : Nat) (half : Bool) (s0 : State) : State :=
  let s := s0.at t
  let x := s.peer.at k
  if !s.active || !x.enabled || x.up || !(lanes == 4 || lanes == 2 && x.allowTwo) || (half && !x.allowHalf) then s
  else if neighbour ≠ s.wiredTo k then s.failPort k 0x0702
  else
    let slow := half || lanes == 2
    let s1 := s.modPeer k fun x => { x with
      barred := if x.lost then s.bf.graphs.map (·.1) else x.barred
      up := true, lost := false, failed := false, neighbour := neighbour, lanes := lanes, halfRate := half, retrain := false
      lastStatus := if slow then 0x0707 else 0 }
    let s2 := if slow then s1.note 0x0707 7 k else s1
    (s2.answerTraining k 0 (s2.peer.at k).report).updateHealth

/-- PEER_TRAINING_COMPLETE (R406). -/
def execPeerTrainingComplete (t k neighbour lanes : Nat) (half : Bool) (s : State) : Out :=
  .next (trainingDoneEffect t k neighbour lanes half s)

/-- PEER_TRAINING_TIMEOUT (R406). -/
def execPeerTrainingTimeout (t k : Nat) (s : State) : Out :=
  let s1 := s.at t
  let x := s1.peer.at k
  .next (if s1.active && x.enabled && !x.up && decide (x.since + 1000000000 ≤ s1.now) then s1.failPort k 0x0701 else s1)

/-! ## PEER_FLIT_ERROR, PEER_RETRAIN_COMPLETE, PEER_RETRAIN_TIMEOUT (R396, R407) -/

/-- A replay is counted; more than 8 within 1 ms start a retrain. -/
def flitErrorEffect (t k : Nat) (s0 : State) : State :=
  let s := s0.at t
  let x := s.peer.at k
  if !s.active || !x.up || x.retrain then s
  else
    let recent := (x.recent.filter fun y => decide (s.now < y + 1000000)) ++ [s.now]
    let s1 := s.modPeer k fun x => { x with replays := satInc 16 x.replays, recent := recent }
    if recent.length ≤ 8 then s1
    else (s1.modPeer k fun x => { x with retrain := true, retrains := satInc 8 x.retrains, since := s.now, recent := [], lastStatus := 0x070A }).note
      0x070A 7 k

/-- PEER_FLIT_ERROR (R396). -/
def execPeerFlitError (t k : Nat) (s : State) : Out := .next (flitErrorEffect t k s)

/-- PEER_RETRAIN_COMPLETE (R407): what was held leaves. -/
def execPeerRetrainComplete (t k : Nat) (s : State) : Out :=
  let s1 := s.at t
  let x := s1.peer.at k
  .next (if s1.active && x.retrain then (s1.modPeer k fun x => { x with retrain := false }).sendHeld k else s1)

/-- A peer may be lost for a cause: 10 ms of a retrain, 100 µs of silence in one, or a failure of the port at any time (R407). -/
def Peer.lossDue (x : Peer) (now : Nat) : PeerLoss → Bool
  | .timeout => x.retrain && decide (x.since + 10000000 ≤ now)
  | .silent => x.retrain && decide (x.since + 100000 ≤ now)
  | .portFailed => true

/-- PEER_RETRAIN_TIMEOUT (R407). -/
def execPeerRetrainTimeout (t : Nat) (k : LostPort) (s : State) : Out :=
  let s1 := s.at t
  .next (if s1.active && (s1.peer.at k.port).lossDue s1.now k.cause then s1.losePeer k.port else s1)

/-! ## REMOTE_SIGNAL, REMOTE_COUNTER_OP (R400, R402) -/

/-- What an import entry lets a module on port k reach: an entry of the kind, naming the module, of a graph that is admitted, not parked, not stopped and
served by the port (R400, R407). -/
def State.import? (s : State) (k imp : Nat) (counter : Bool) : Option (Import × Graph) :=
  match aGet s.imports imp with
  | some e =>
    match aGet s.bf.graphs e.graph with
    | some q => if e.counter = counter ∧ bit e.mask (s.wiredTo k) ∧ !q.parked ∧ !q.stopped ∧ !s.shutTo e.graph (s.wiredTo k) then some (e, q) else none
    | none => none
  | none => none

/-- A signal or claim that the import table refuses. -/
def State.badImport (s : State) (k : Nat) : State :=
  (s.modPeer k fun x => { x with badImport := satInc 8 x.badImport }).noteRare 0x0705 7 k

/-- Flits arrive on a port. -/
def State.portOpen (s : State) (k : Nat) : Bool := s.active && (s.peer.at k).up && !(s.peer.at k).retrain

/-- The graph that an import entry names ends its instance where that has waited for a remote signal in flight (R401). -/
def State.endShared (s : State) (imp : Nat) : State :=
  match aGet s.imports imp with
  | some e => s.endInstance e.graph 0
  | none => s

/-- A remote signal arrives; the end of an instance that waited for it follows. -/
def remoteSignalEffect (t k imp inc : Nat) (s0 : State) : State :=
  let s := s0.at t
  let s1 := if !s.portOpen k then s
    else match s.import? k imp false with
      | some (e, q) =>
        match q.image.beacons[e.target]? with
        | some b => s.signalBeacon b.index inc
        | none => s.badImport k
      | none => s.badImport k
  s1.endShared imp

/-- REMOTE_SIGNAL (R400). -/
def execRemoteSignal (t k imp inc : Nat) (s : State) : Out := .next (remoteSignalEffect t k imp inc s)

/-- A remote FETCH_ADD arrives at the home's atomic unit, which answers with the previous value. -/
def remoteCounterEffect (t k imp v : Nat) (err : ReadErr) (s0 : State) : State :=
  let s := s0.at t
  if !s.portOpen k then s
  else match s.import? k imp true with
    | some (e, q) =>
      match q.counters[e.target]? with
      | some n =>
        if err = .uncorrectable ∨ s.counterBad n = true then (s.counterUe n none).emit (.counterReply k none)
        else ((s.noteCorrected err (counterAddr n)).setCounter n (s.counter n + v)).emit (.counterReply k (some (s.counter n)))
      | none => s.badImport k
    | none => s.badImport k

/-- REMOTE_COUNTER_OP (R402). -/
def execRemoteCounterOp (t k imp v : Nat) (err : ReadErr) (s : State) : Out := .next (remoteCounterEffect t k imp v err s)

/-! ## PEER_REMOTE_ACCESS, REMOTE_REQUEST_TIMEOUT (R71, R397, R435) -/

/-- The internal address that a window offset stands for at the module it maps (R71). -/
def windowTarget (off : Nat) : Option Nat :=
  if off < 0xF_0000_0000 then some off
  else if off < 0xF_0300_0000 then some (scratchBase + (off - 0xF_0000_0000))
  else none

/-- A read of `n` bytes, or a write, arrives at a window offset and is checked as an access of the port. -/
def peerAccessEffect (t k a n : Nat) (x : OuterAccess) (s0 : State) : State :=
  let s := s0.at t
  if !s.portOpen k then s
  else match windowTarget a, x with
    | none, .read _ => (s.countRefusal (initPeerIn k) 0x0301).emit (.remoteReply k (zeros n) 0x0301 false)
    | none, .write _ => (s.countRefusal (initPeerIn k) 0x0301).emit (.remoteReply k [] 0x0301 false)
    | some b, .write d => let w := s.write (initPeerIn k) b d; w.2.emit (.remoteReply k [] w.1 false)
    | some b, .read err => let r := s.readMeet (initPeerIn k) b n err; r.2.2.emit (.remoteReply k r.1 r.2.1 (r.2.1 == 0x0902))

/-- PEER_REMOTE_ACCESS (R397). -/
def execPeerRemoteAccess (t k a n : Nat) (x : OuterAccess) (s : State) : Out := .next (peerAccessEffect t k a n x s)

/-- The port of a module is retraining, and has been for 100 µs (R407). -/
def State.silent? (s : State) (m : Nat) : Option Nat :=
  (List.range 3).find? fun k => s.wiredTo k == m && (s.peer.at k).lossDue s.now .silent

/-- No response of module `m` came for 100 µs: in a retrain the peer is lost, otherwise `f` ends the work that waits (R397, R407). -/
def State.noResponse (s : State) (m : Nat) (f : State → State) : State :=
  match s.silent? m with
  | some k => s.losePeer k
  | none => f s

/-- A request of an engine to another module has had no response for 100 µs: its item ends with 0x0708. -/
def State.requestTimeout (s : State) (e tag : Nat) : State :=
  let d := s.mem.dma.at e
  let due := fun (q : DmaReq) => q.tag == tag && remoteAddr q.addr && decide (q.issued + 100000 ≤ s.now)
  if d.draining.any due then s.modDma e fun x => { x with draining := x.draining.filter (·.tag != tag) }
  else match d.item with
    | none => s
    | some it => match it.reqs.find? due, regionOf (((it.reqs.find? due).map (·.addr)).getD 0) with
      | some _, .peer m => s.noResponse m fun s =>
        let it1 := { it with reqs := it.reqs.filter (·.tag != tag) }
        (s.modDma e fun x => { x with item := some it1 }).dmaFault e it1 0x0708
      | _, _ => s

/-- A read or write through a window gets no response within 100 µs: its work ends with 0x0708 (R397). When a node's unit issued its request is not held
in the state: that the node has run for 100 µs is all that is asked (DEDUCED; log entry 167). -/
def remoteTimeoutEffect (t : Nat) (w : RemoteUser) (n : Nat) (s0 : State) : State :=
  let s := s0.at t
  if !s.active then s
  else match w with
  | .engine e => s.requestTimeout e n
  | .node i =>
    match s.ctx? i with
    | some c => if s.remoteUse i n c && decide (c.tStart + 100000 ≤ s.dev) then s.noResponse n fun s => s.unitFault i 0x0708 else s
    | none => s

/-- REMOTE_REQUEST_TIMEOUT (R397). -/
def execRemoteRequestTimeout (t : Nat) (w : RemoteUser) (n : Nat) (s : State) : Out := .next (remoteTimeoutEffect t w n s)

/-! ## RELAY_UNIT (R405) -/

/-- One count of a beacon is consumed, from those that the node holds or from the beacon itself: none when there is none. -/
def State.takeCount (s : State) (held b : Nat) : Option (Nat × State) :=
  if 0 < held then some (held - 1, s)
  else if 0 < s.beaconValue b then some (0, s.setBeacon b (s.beaconValue b - 1))
  else none

/-- The unit or gap marker in the receiver's next slot is copied to the next remote slot; its acknowledgement follows in the same step. The frame
is over with its last unit or its gap marker. -/
def State.relayOne (s : State) (k : Nat) (r : Relay) (c : Ctx) (q : McGroup) (v : McRecv) : State :=
  let j := c.relayRecv
  let i := r.ctx
  let a := q.slotAddr j v.taken
  match s.takeCount r.units (q.unitBeacon j) with
  | none => s
  | some (units, s1) =>
    match s1.takeCount r.credits c.relayCredit with
    | none => s
    | some (credits, s2) =>
      let h := s2.read (initPeerOut k) a 16
      let gap := fld h.1 0 2 == 0xA5C3
      let n := if gap then 16 else 16 + min (fld h.1 12 4) (q.slotBytes j - 16)
      let d := h.2.2.read (initPeerOut k) a n
      let dst := c.relayRing + (r.sent % c.relaySlots) * q.slotBytes j
      if s.shutOut c.graph [(dst, n)] then h.2.2.unitFault i 0x0704
      else if h.2.1 ≠ 0 then h.2.2.unitFault i h.2.1
      else if d.2.1 ≠ 0 then d.2.2.unitFault i d.2.1
      else
        let w := d.2.2.write (initPeerOut k) dst d.1
        if w.1 ≠ 0 then w.2.unitFault i (if (s.peer.at k).lost then 0x0704 else w.1)
        else
          let overs := gap || bit (fld h.1 10 1) 0
          let s3 := (w.2.modPeer k fun x => { x with relay := some { r with units := units, credits := credits, sent := r.sent + 1, overs := overs } }).modRecv
            ((s.relayGroup? c).getD 0) j fun v => { v with taken := v.taken + 1 }
          (s3.sendSignal c.graph (s.wiredTo k) c.relayUnitImp 1).signalBeacon (q.creditBeacon j) 1

/-- The RELAY node on a port moves one unit. -/
def relayUnitEffect (t k : Nat) (s0 : State) : State :=
  let s := s0.at t
  match (s.peer.at k).relay with
  | none => s
  | some r =>
    match s.ctx? r.ctx with
    | none => s
    | some c =>
      match (s.relayGroup? c).bind fun g => ((aGet s.bf.groups g).bind fun q => (q.recvs[c.relayRecv]?).map fun v => (q, v)) with
      | some (q, v) =>
        if !s.active || c.state != .running || c.draining || r.overs || (s.peer.at k).retrain || v.delivered ≤ v.taken then s
        else s.relayOne k r c q v
      | none => s

/-- RELAY_UNIT (R405). -/
def execRelayUnit (t k : Nat) (s : State) : Out := .next (relayUnitEffect t k s)

end Sys2Proof.Machine
end

