-- ==== Sys2Proof/Machine/Power.lean ====
section
/-! DEFINITION. Clocks, operating points, power gates, the monitors and PPS (R467 to R469, R473, R482, R484 to R488). -/
namespace Sys2Proof.Machine
open Sys2Proof

/-! ## PCIE_REFCLK_LOSS, PL_REFCLK_LOSS, XTAL32K_LOSS (R482) -/

/-- The clocks and the power state changed. -/
def State.modPower (s : State) (f : Power → Power) : State := { s with power := f s.power }

/-- PCIE_REFCLK_LOSS (R482): the link goes down, the units run on. -/
def execPcieRefclkLoss (t : Nat) (s : State) : Out :=
  let s1 := (s.at t).modPower fun p => { p with refPcie := false }
  .next (s1.modPci fun x => { x with linkUp := false })

/-- PL_REFCLK_LOSS (R482): every trained port loses its peer. -/
def execPlRefclkLoss (t : Nat) (s : State) : Out :=
  .next ((List.range 3).foldl State.losePeer ((s.at t).modPower fun p => { p with refPl := false }))

/-- XTAL32K_LOSS (R482): the internal oscillator runs, and 0x0A2A is logged. -/
def execXtal32kLoss (t : Nat) (s : State) : Out :=
  let s1 := s.at t
  .next (if s1.power.xtal then (s1.modPower fun p => { p with xtal := false }).note 0x0A2A 10 0xFF else s1)

/-! ## DVFS (R484 to R486) -/

/-- A Steeple's clock and rail changed. -/
def State.modSteeple (s : State) (n : Nat) (f : Steeple → Steeple) : State := s.modPower fun p => { p with steeples := p.steeples.mod n f }

/-- The fused voltage of a point in mV; without PMBus every rail stays at P0's (R484, R485). -/
def State.pointMv (s : State) (point : Nat) : Nat := s.fuses.volts.getD (if s.flash.profile.pmbus then point else 0) 0

/-- Firmware writes a voltage, where PMBus is present. -/
def State.writeVout (s : State) (n point : Nat) : State :=
  if s.flash.profile.pmbus then s.emit (.vout n (s.pointMv point)) else s

/-- A change to another point starts: to a lower one with the pause and the relock, to a higher one with the voltage, where there is one to write.
A gated Steeple, one that is changing, and one that a regulator fault holds stay as they are. -/
def State.startDvfs (s : State) (n point : Nat) : State :=
  let x := s.power.steeples.at n
  if !s.active || 4 < point || x.gated || x.vrmFault || x.change != .none || point == x.point then s
  else if x.point < point then s.modSteeple n fun x => { x with paused := true, change := .relock point true }
  else if s.flash.profile.pmbus then (s.writeVout n point).modSteeple n fun x => { x with change := .vout point s.now }
  else s.modSteeple n fun x => { x with paused := true, change := .relock point false }

/-- DVFS_CHANGE (R486). -/
def execDvfsChange (t st point : Nat) (s : State) : Out := .next ((s.at t).startDvfs st point)

/-- A regulator fault holds a Steeple at its present point: 0x0A28 is logged and the Steeple is Amber (R484). -/
def State.vrmFault (s : State) (n : Nat) : State :=
  let s1 := (s.modSteeple n fun x => { x with vrmFault := true, paused := false, change := .none }).modPower fun p => { p with pmbusOk := false }
  (s1.note 0x0A28 10 n).updateHealth

/-- READ_VOUT returns a voltage while a change waits for it: within 10 mV of the new voltage the pause and the relock follow; past 200 us the
change is abandoned. -/
def voutSettledEffect (t n mv : Nat) (s0 : State) : State :=
  let s := s0.at t
  match (s.power.steeples.at n).change with
  | .vout point since =>
    let want := s.pointMv point
    let s1 := s.modSteeple n fun x => { x with voutMv := mv }
    if since + 200000 < s.now then s1.vrmFault n
    else if mv ≤ want + 10 ∧ want ≤ mv + 10 then s1.modSteeple n fun x => { x with paused := true, change := .relock point false }
    else s1
  | _ => s

/-- DVFS_VOUT_SETTLED (R486). -/
def execDvfsVoutSettled (t st mv : Nat) (s : State) : Out := .next (voutSettledEffect t st mv s)

/-- A Steeple is throttled no longer (R468). -/
def State.endThrottle (s : State) (n : Nat) : State :=
  let off := fun (l : List (Nat × Nat)) => l.filter fun x => x.1 != n
  ({ s with watch := { s.watch with throttled := off s.watch.throttled, rising := off s.watch.rising } }).event 0x0A0B 10 n [53]

/-- The throttle of a Steeple that has cooled ends once it is back at P0. -/
def State.endIfBack (s : State) (n : Nat) : State :=
  let x := s.power.steeples.at n
  if s.watch.rising.any (·.1 == n) && x.point == 0 && x.change == .none then s.endThrottle n else s

/-- The PLL has relocked: the point is the new one, issue resumes, and after a change to a lower point the new voltage is written. -/
def relockEffect (t n : Nat) (s0 : State) : State :=
  let s := s0.at t
  match (s.power.steeples.at n).change with
  | .relock point lower =>
    let s1 := s.modSteeple n fun x => { x with point := point, paused := false, change := .none }
    (if lower then s1.writeVout n point else s1).endIfBack n
  | _ => s

/-- DVFS_RELOCK_COMPLETE (R486). -/
def execDvfsRelockComplete (t st : Nat) (s : State) : Out := .next (relockEffect t st s)

/-- PMBUS_FAULT (R484). -/
def execPmbusFault (t st : Nat) (s : State) : Out :=
  let s1 := s.at t
  .next (if s1.active && s1.flash.profile.pmbus && decide (st < 8) then s1.vrmFault st else s1)

/-! ## UNIT_UNGATE_COMPLETE (R488) -/

/-- A unit's ungating completes: its stores hold zeros, and its GATED bit clears. -/
def ungateEffect (t : Nat) (u : GateUnit) (s0 : State) : State :=
  let s := s0.at t
  if s.power.ungating.contains u then
    ((s.modPower fun p => { p with ungating := p.ungating.filter (· ≠ u) }).clearUnit u).setGate u false
  else s

/-- UNIT_UNGATE_COMPLETE (R488). -/
def execUnitUngateComplete (t : Nat) (u : GateUnit) (s : State) : Out := .next (ungateEffect t u s)

/-! ## TEMPERATURE_SAMPLE, THROTTLE_STEP (R467, R468, R495) -/

/-- The sensor of a calibrated block (R494), and the one of the reference. -/
def calSensor (b : Nat) : Nat :=
  if b < 4 then 20 else if b < 10 then 21 else if b < 14 then 25 + (b - 10) else if b < 17 then 30 else 31

/-- A block's unit is enabled: an unpopulated interface and a port that is not enabled are gated (R488, R495). -/
def State.calEnabled (s : State) (b : Nat) : Bool :=
  if b < 8 then (s.ports.at b).enable
  else if b < 10 then (s.egress.at (b - 8)).enable
  else if b < 14 then (s.mem.cfg.at (b - 10)).populated
  else if b < 17 then (s.peer.at (b - 14)).enabled
  else b == 17

/-- A run in service starts with the sensor's reading. -/
def State.startRun (s : State) (b : Nat) : State :=
  let temp := s.watch.temp.at (calSensor b)
  s.modBlock b fun x => { x with running := true, temp := temp, dev := s.dev }

/-- Blocks whose sensor differs by more than THRESH from its reading at their last run start one; with no reference nothing is searched
(R493, R495). -/
def State.startRuns (s : State) : State :=
  (List.range 18).foldl (fun s b =>
    let x := s.power.blocks.at b
    let far := (s.power.thresh : Int) * 8 < (s.watch.temp.at (calSensor b) - x.temp).natAbs
    if x.live && !x.running && x.waiting.isNone && s.calEnabled b && far && !s.power.refMissing then s.startRun b else s) s

/-- A trip: every unit but the always-on domain is held in reset, THERMTRIP_N is low and the link drops; no cause is left (R468, R491). -/
def State.trip (s : State) : State :=
  let s1 := (s.resetTo .full s.resets.cause).hold .trip
  ({ s1 with watch := { s1.watch with tripped := true }, resets := { s1.resets with count := s.resets.count } }).emit .thermtrip

/-- One sensor against WARN: an event once per crossing. -/
def State.checkWarn (s : State) (i : Nat) : State :=
  let hot := decide ((s.watch.warn : Int) * 8 ≤ s.watch.temp.at i)
  let seen := s.watch.warned.contains i
  if hot && !seen then ({ s with watch := { s.watch with warned := sInsert s.watch.warned i } }).event 0x0A0A 10 i [53]
  else if !hot && seen then { s with watch := { s.watch with warned := s.watch.warned.filter (· ≠ i) } }
  else s

/-- A sensor that is no Steeple's against THROTTLE: the event alone, at the start and at the end (key 32 + sensor in `warned`). -/
def State.checkHot (s : State) (i : Nat) : State :=
  let v := s.watch.temp.at i
  let t := (s.watch.throttle : Int) * 8
  let seen := s.watch.warned.contains (32 + i)
  if decide (t ≤ v) && !seen then ({ s with watch := { s.watch with warned := sInsert s.watch.warned (32 + i) } }).event 0x0A0B 10 i [53]
  else if decide (v ≤ t - 24) && seen then ({ s with watch := { s.watch with warned := s.watch.warned.filter (· ≠ 32 + i) } }).event 0x0A0B 10 i [53]
  else s

/-- A Steeple's two sensors against THROTTLE: throttling starts when either reaches it; once both read at least 3 degrees below it, the point
rises while they stay there. -/
def State.checkThrottle (s : State) (n : Nat) : State :=
  let v := max (s.watch.temp.at (2 * n)) (s.watch.temp.at (2 * n + 1))
  let t := (s.watch.throttle : Int) * 8
  let on := s.watch.throttled.any (·.1 == n)
  let since := (s.watch.rising.find? (·.1 == n)).map (·.2)
  let set := fun (s : State) (x : Nat) => { s with watch := { s.watch with rising := aSet s.watch.rising n x } }
  if t ≤ v then
    let s1 := { s with watch := { s.watch with rising := s.watch.rising.filter (·.1 != n) } }
    if on then s1
    else ({ s1 with watch := { s1.watch with throttled := aSet s1.watch.throttled n (s.now - 10000000) } }).event 0x0A0B 10 n [53]
  else if v ≤ t - 24 then
    if on && (since.isNone || since == some 0) then (set s s.now).endIfBack n else s
  else if since.isSome then set s 0
  else s

/-- The sensors are sampled: TRIP first, then WARN, THROTTLE, and the runs that R495 starts. -/
def temperatureEffect (t : Nat) (temps : List Int) (s0 : State) : State :=
  let s := s0.at t
  if !s.resets.held.isEmpty ∨ temps.length ≠ 32 then s
  else
    let temp : Tab 32 Int := Vector.ofFn fun i => temps.getD i.val 0
    let s1 := { s with watch := { s.watch with temp := temp, tempTime := s.dev } }
    if temps.any fun v => decide (920 ≤ v) then s1.trip
    else if !s1.pci.hokudan then s1
    else
      let s2 := (List.range 32).foldl State.checkWarn s1
      let s3 := ((List.range 16).map (· + 16)).foldl State.checkHot s2
      ((List.range 8).foldl State.checkThrottle s3).startRuns

/-- TEMPERATURE_SAMPLE (R468). -/
def execTemperatureSample (t : Nat) (temps : List Int) (s : State) : Out := .next (temperatureEffect t temps s)

/-- A throttled Steeple goes one point down every 10 ms, and up every 100 ms once it has cooled. -/
def throttleEffect (t n : Nat) (s0 : State) : State :=
  let s := s0.at t
  match s.watch.throttled.find? (·.1 == n) with
  | none => s
  | some (_, last) =>
    let x := s.power.steeples.at n
    match s.watch.rising.find? (·.1 == n) with
    | none =>
      if last + 10000000 ≤ s.now then
        ({ s with watch := { s.watch with throttled := aSet s.watch.throttled n s.now } }).startDvfs n (min 4 (x.point + 1))
      else s
    | some (_, since) =>
      if since ≠ 0 ∧ since + 100000000 ≤ s.now then
        (({ s with watch := { s.watch with rising := aSet s.watch.rising n s.now } }).startDvfs n (x.point - 1)).endIfBack n
      else s

/-- THROTTLE_STEP (R468). -/
def execThrottleStep (t st : Nat) (s : State) : Out := .next (throttleEffect t st s)

/-! ## VOLTAGE_SAMPLE (R469) -/

/-- The set point of rail r in mV: VDD_CORE of ST0 to ST7 at the point whose voltage was last written, then VDD_SRAM, VDDQ_MEM, VDD_PHY, VDDH_PHY
and VDD_IO (R469, R483). -/
def State.setPoint (s : State) (r : Nat) : Nat :=
  if r < 8 then
    let x := s.power.steeples.at r
    match x.change with
    | .vout p _ => s.pointMv p
    | .relock p false => s.pointMv p
    | _ => s.pointMv x.point
  else [800, 500, 900, 1200, 1800].getD (r - 8) 0

/-- One rail's sample: outside its window for the second time in a row, the event. -/
def State.checkRail (s : State) (r mv : Nat) : State :=
  let sp := s.setPoint r
  let out := decide (sp * 21 < mv * 20 ∨ mv * 20 < sp * 19)
  let n := if out then satInc 16 (s.watch.voltOut.at r) else 0
  let s1 := { s with watch := { s.watch with volt := s.watch.volt.mod r fun _ => mv, voltOut := s.watch.voltOut.mod r fun _ => n } }
  if n = 2 then s1.event 0x0A0C 10 r [53] else s1

/-- VOLTAGE_SAMPLE (R469). -/
def execVoltageSample (t : Nat) (mv : List Nat) (s : State) : Out :=
  let s1 := s.at t
  .next (if !s1.resets.held.isEmpty || !s1.pci.hokudan || mv.length != 13 then s1
    else (List.range 13).foldl (fun s r => s.checkRail r (mv.getD r 0)) s1)

/-! ## PPS_EDGE, PPS_LOSS (R473) -/

/-- The error of DEVTIME against the nearest whole second; negative when DEVTIME is behind. -/
def ppsErrorOf (dev : Nat) : Int :=
  let r := dev % 1000000000
  if r < 500000000 then r else (r : Int) - 1000000000

/-- A PPS edge under discipline: a lag of more than 1 ms is stepped, any other error is slewed within the limit over the next second, after which
the trim is again what it was. -/
def ppsEdgeEffect (t : Nat) (s0 : State) : State :=
  let s := s0.at t
  if !s.clock.ppsOn || !s.resets.held.isEmpty then s
  else
    let err := ppsErrorOf s.dev
    let base := match s.clock.slewEnd with
      | some (_, b) => b
      | none => s.clock.trimPpb
    let s1 := { s with clock := { s.clock with ppsError := err, ppsLast := s.now, ppsLost := false, slewEnd := none, trimPpb := base } }
    if err < -1000000 then
      { s1 with clock := { s1.clock with devtime := (s.dev + (-err).toNat) % 2 ^ 64, frac := 0 }, cams := s1.cams.map fun k => { k with stepped := true } }
    else { s1 with clock := { s1.clock with trimPpb := clampInt (-500000) 500000 (base - err), slewEnd := some (s.now + 1000000000, base) } }

/-- PPS_EDGE (R473). -/
def execPpsEdge (t : Nat) (s : State) : Out := .next (ppsEdgeEffect t s)

/-- PPS_LOSS (R473): no edge for 2 s; the last trim is held. -/
def execPpsLoss (t : Nat) (s : State) : Out :=
  let s1 := s.at t
  .next (if s1.clock.ppsOn && !s1.clock.ppsLost && s1.resets.held.isEmpty && decide (s1.clock.ppsLast + 2000000000 ≤ s1.now) then
    ({ s1 with clock := { s1.clock with ppsLost := true } }).event 0x0A12 10 0xFF [1]
  else s1)

end Sys2Proof.Machine
end

