-- ==== Sys2Proof/Machine/Calib.lean ====
section
/-! DEFINITION. Calibration of the analogue front ends, and the memory controllers' windows (R493 to R502). -/
namespace Sys2Proof.Machine
open Sys2Proof

/-! ## Blocks (R494) -/

/-- The floor of a block's quality figure; for transmitters and the ADC the figure is an error and the floor its greatest value. -/
def calFloor (b : Nat) : Nat :=
  if b < 8 then 16 else if b < 10 then 50 else if b < 14 then 20 else if b < 17 then 16 else 10

/-- The floor of a receiver's eye height in mV. -/
def calFloorMv (b : Nat) : Nat :=
  if b < 8 then 30 else if 10 ≤ b ∧ b < 14 then 40 else if 14 ≤ b ∧ b < 17 then 20 else 0

/-- The figure of a block is an error: less is better. -/
def calError (b : Nat) : Bool := (8 ≤ b && b < 10) || b == 17

/-- A figure, with its eye height, is at least as good as another. -/
def calAtLeast (b q h r hr : Nat) : Bool := if calError b then decide (q ≤ r) else decide (r ≤ q ∧ hr ≤ h)

/-- A block that a class and a unit name (R501). -/
def calBlockOf (cls unit : Nat) : Option Nat :=
  if cls = 0 ∧ unit < 8 then some unit
  else if cls = 1 ∧ unit < 2 then some (8 + unit)
  else if cls = 2 ∧ unit < 4 then some (10 + unit)
  else if cls = 3 ∧ unit < 3 then some (14 + unit)
  else if cls = 4 ∧ unit = 0 then some 17
  else none

/-- Firmware calibrates: at start-up or in READY. -/
def State.calibrating (s : State) : Bool :=
  s.resets.held.isEmpty && s.pci.hokudan && (s.pci.state == .booting || s.pci.state == .ready)

/-! ## Seeds (R502) -/

/-- The seed of a block's next full search: a port's, or a memory interface's from retention memory. -/
def State.seedOf (s : State) (b : Nat) : Option Bytes :=
  if 10 ≤ b ∧ b < 14 then aGet s.watch.ret.memSeeds (b - 10) else (s.power.blocks.at b).seed

/-- A seed is used when the sensor reads within THRESH of its TEMP. -/
def State.seedFits (s : State) (b : Nat) (seed : Bytes) : Bool :=
  decide ((s.watch.temp.at (calSensor b) - toSigned 16 (fld seed 4 2)).natAbs ≤ s.power.thresh * 8)

/-! ## CALIBRATION_MEASURE_COMPLETE (R495 to R497, R502) -/

/-- Blocks found below their floor are reported, and the unit is Amber. -/
def State.reportLow (s : State) (b : Nat) (lanes : List (Nat × CalLane)) : State :=
  (lanes.filter fun l => l.2.low).foldl (fun s l => s.note 0x0A22 10 b (leBytes 1 l.1)) s

/-- The full search of an enable or of start-up ends, or the measurement of its seed's codes, which stand when no lane is below the floor. -/
def State.firstRun (s0 : State) (b : Nat) (rs : List CalResult) (codes : Bytes) : State :=
  let s := if 10 ≤ b ∧ b < 14 then s0.readRetention (retSeeds + 512 * (b - 10)) (retSeeds + 512 * (b - 9)) else s0
  let seeded : Bool := match s.seedOf b with
    | some seed => s.seedFits b seed && rs.all fun r => calAtLeast b r.inUse r.inUseHeight (calFloor b) (calFloorMv b)
    | none => false
  let lane := fun (r : CalResult) =>
    let q := if seeded then r.inUse else r.quality
    let h := if seeded then r.inUseHeight else r.height
    let x : CalLane := { codes := r.codes, quality := q, height := h, low := !calAtLeast b q h (calFloor b) (calFloorMv b) }
    (r.lane, x)
  let lanes := (rs.foldl (fun l r => aSet l (lane r).1 (lane r).2) [])
  let image := if seeded then sub ((s.seedOf b).getD []) 0x20 224 else padTo 224 codes
  let temp := s.watch.temp.at (calSensor b)
  let s1 := s.modBlock b fun x => { x with
    done := true, live := true, running := false, seeded := seeded, lanes := lanes, temp := temp, dev := s.dev, codes := image
    waiting := none, seed := none }
  (s1.reportLow b lanes).updateHealth

/-- R497: every code within its range, none more than 4 steps from the code in use, and the figure at least that of the codes in use. -/
def calPasses (b : Nat) (old : CalLane) (r : CalResult) : Bool :=
  r.inRange && calAtLeast b r.quality r.height r.inUse r.inUseHeight && (r.codes.zip old.codes).all fun p => decide (p.1 ≤ p.2 + 4 ∧ p.2 ≤ p.1 + 4)

/-- A lane's result is discarded: the old codes stay, it is measured again 1 s later, and the third discard in a row holds the lane. -/
def State.discardLane (s : State) (b lane : Nat) : State :=
  let old := (aGet (s.power.blocks.at b).lanes lane).getD {}
  let n := old.discards + 1
  let x := { old with discards := n, held := old.held || n == 3, retryAt := if n < 3 then some (s.now + 1000000000) else none }
  let s1 := (s.modBlock b fun y => { y with discards := satInc 8 y.discards, lanes := aSet y.lanes lane x }).note 0x0A20 10 b (leBytes 1 lane)
  if n = 3 then (s1.note 0x0A24 10 b (leBytes 1 lane)).updateHealth else s1

/-- A run in service ends its measurement: each lane is judged on its own, and the passing results wait for a gap. -/
def State.judgeRun (s : State) (b : Nat) (rs : List CalResult) (codes : Bytes) : State :=
  let lanes := (s.power.blocks.at b).lanes
  let old := fun (r : CalResult) => (aGet lanes r.lane).getD {}
  let good := rs.filter fun r => calPasses b (old r) r
  let bad := rs.filter fun r => !calPasses b (old r) r
  let put := fun (r : CalResult) =>
    let x : CalLane := { codes := r.codes, quality := r.quality, height := r.height
                         low := !calAtLeast b r.quality r.height (calFloor b) (calFloorMv b) }
    (r.lane, x)
  let s1 := bad.foldl (fun s r => s.discardLane b r.lane) s
  if good.isEmpty then s1.modBlock b fun x => { x with running := false }
  else s1.modBlock b fun x => { x with waiting := some (s.now, good.map put, padTo 224 codes) }

/-- Without a reference nothing is searched: the block works on its factory codes (R493). -/
def State.factoryRun (s : State) (b : Nat) : State :=
  s.modBlock b fun x => { x with live := true, codes := padTo 224 (s.fuses.factory.getD b []) }

/-- A run's measurement and search end. -/
def measureEffect (t b : Nat) (rs : List CalResult) (codes : Bytes) (s0 : State) : State :=
  let s := s0.at t
  let x := s.power.blocks.at b
  if !s.calibrating || 18 ≤ b || !s.calEnabled b then s
  else if !x.live then (if s.power.refMissing then s.factoryRun b else s.firstRun b rs codes)
  else if x.running && x.waiting.isNone then s.judgeRun b rs codes
  else s

/-- CALIBRATION_MEASURE_COMPLETE (R496). -/
def execCalibrationMeasureComplete (t b : Nat) (rs : List CalResult) (codes : Bytes) (s : State) : Out := .next (measureEffect t b rs codes s)

/-! ## CALIBRATION_APPLY, CALIBRATION_NO_GAP, CALIBRATION_REMEASURE (R496 to R499) -/

/-- A peer receiver that has found no gap for 100 ms has asked its neighbour for one (R498). -/
def State.askGap (s : State) (b since : Nat) : State :=
  if 14 ≤ b ∧ b < 17 ∧ since + 100000000 ≤ s.now then s.emit (.gapRequest (b - 14)) else s

/-- The passing results are applied together in the block's next gap; a lane's condition is cleared by its passing result. -/
def calApplyEffect (t b : Nat) (s0 : State) : State :=
  let s := s0.at t
  match (s.power.blocks.at b).waiting with
  | none => s
  | some (since, lanes, codes) =>
    if !s.calibrating then s
    else
      let put := fun (x : CalBlock) => { x with
        lanes := lanes.foldl (fun l y => aSet l y.1 y.2) x.lanes, codes := codes, waiting := none, running := false }
      (((s.askGap b since).modBlock b put).reportLow b lanes).updateHealth

/-- CALIBRATION_APPLY (R498). -/
def execCalibrationApply (t b : Nat) (s : State) : Out := .next (calApplyEffect t b s)

/-- A result that found no gap within 1 s is discarded, and the block runs again. -/
def calNoGapEffect (t b : Nat) (s0 : State) : State :=
  let s := s0.at t
  match (s.power.blocks.at b).waiting with
  | none => s
  | some (since, _, _) =>
    if !s.calibrating || decide (s.now < since + 1000000000) then s
    else (((s.askGap b since).modBlock b fun x => { x with waiting := none, running := false }).note 0x0A23 10 b).startRun b

/-- CALIBRATION_NO_GAP (R499). -/
def execCalibrationNoGap (t b : Nat) (s : State) : Out := .next (calNoGapEffect t b s)

/-- Discarded lanes whose second has passed are measured again. -/
def calRemeasureEffect (t b : Nat) (s0 : State) : State :=
  let s := s0.at t
  let x := s.power.blocks.at b
  let due : CalLane → Bool := fun l => match l.retryAt with
    | some r => decide (r ≤ s.now)
    | none => false
  if s.calibrating && x.live && !x.running && x.waiting.isNone && s.calEnabled b && x.lanes.any (fun (l : Nat × CalLane) => due l.2) then
    s.modBlock b fun x => { x with running := true, lanes := x.lanes.map fun l => if due l.2 then (l.1, { l.2 with retryAt := none }) else l }
  else s

/-- CALIBRATION_REMEASURE (R497). -/
def execCalibrationRemeasure (t b : Nat) (s : State) : Out := .next (calRemeasureEffect t b s)

/-! ## MAINTENANCE_WINDOW, ZQ_CALIBRATION (R500) -/

/-- A memory interface is in use. -/
def State.memRuns (s : State) (m : Nat) : Bool := s.active && (s.mem.cfg.at m).populated

/-- The controller holds a maintenance window, and latches a ZQ calibration that waits for one. -/
def windowEffect (t m : Nat) (s0 : State) : State :=
  let s := s0.at t
  if !s.memRuns m then s
  else s.modPower fun p => { p with
    windows := p.windows.mod m (· + 1), zq := p.zq.mod m fun _ => false
    zqDone := p.zqDone.mod m fun n => n + b2n (p.zq.at m) }

/-- MAINTENANCE_WINDOW (R500). -/
def execMaintenanceWindow (t m : Nat) (s : State) : Out := .next (windowEffect t m s)

/-- ZQ_CALIBRATION (R500): the background calibration of the DRAM devices starts. -/
def execZqCalibration (t m : Nat) (s : State) : Out :=
  let s1 := s.at t
  .next (if s1.memRuns m then s1.modPower fun p => { p with zq := p.zq.mod m fun _ => true } else s1)

/-! ## CAL_READ, CAL_WRITE (R501, R502) -/

/-- The 256-byte block of a unit, with its CHECK. -/
def State.calImage (s : State) (cls unit b : Nat) : Bytes :=
  let x := s.power.blocks.at b
  let head := leBytes 1 cls ++ leBytes 1 unit ++ leBytes 1 1 ++ leBytes 1 s.power.calRef ++ leInt 2 x.temp ++ leBytes 2 x.quality
    ++ leBytes 8 s.fuses.serial ++ leBytes 8 x.dev ++ zeros 4
  let codes := padTo 224 x.codes
  head ++ leBytes 4 (crc32 (head ++ codes)) ++ codes

/-- The CAL_READ request on a pair. -/
def calReadEffect (t p : Nat) (s0 : State) : State :=
  let s := s0.at t
  match s.req? p 0x0062 with
  | none => s
  | some r =>
    let cls := fld r.payload 0 1
    let unit := fld r.payload 1 1
    match calBlockOf cls unit with
    | none => s.answer p 0x0107
    | some b =>
      if fld r.payload 2 2 ≠ 0 then s.answer p 0x0107
      else if !(s.power.blocks.at b).done then s.answer p 0x0A2B
      else s.respond p 0 0 (s.calImage cls unit b)

/-- CAL_READ (R501). -/
def execCalRead (t p : Nat) (s : State) : Out := .next (calReadEffect t p s)

/-- Why a block is refused, DETAIL of 0x0A25; 0 when it is accepted. A memory interface is not enabled in the sense of the rule: its seed serves
a later start-up (DEDUCED). -/
def State.calRefusal (s : State) (cls unit b : Nat) (x : Bytes) : Nat :=
  if cls = 4 ∨ (cls ≠ 2 ∧ s.calEnabled b) then 1
  else if fld x 0x1C 4 ≠ crc32 (x.take 0x1C ++ x.drop 0x20) ∨ fld x 2 1 ≠ 1 ∨ fld x 0 1 ≠ cls ∨ fld x 1 1 ≠ unit then 2
  else if fld x 8 8 ≠ s.fuses.serial then 3
  else if fld x 3 1 ≠ s.power.calRef then 4
  else 0

/-- The CAL_WRITE request on a pair: an accepted block seeds the port's next enable, or is kept in retention memory. -/
def calWriteEffect (t p : Nat) (s0 : State) : State :=
  let s := s0.at t
  match s.req? p 0x0063 with
  | none => s
  | some r =>
    let cls := fld r.payload 0 1
    let unit := fld r.payload 1 1
    let x := sub r.payload 4 256
    match calBlockOf cls unit with
    | none => s.answer p 0x0107
    | some b =>
      if fld r.payload 2 2 ≠ 0 then s.answer p 0x0107
      else
        let d := s.calRefusal cls unit b x
        if d ≠ 0 then s.respond p 0x0A25 d []
        else if cls = 2 then
          ({ s with watch := { s.watch with ret := { s.watch.ret with memSeeds := aSet s.watch.ret.memSeeds unit x } } }).answer p 0
        else (s.modBlock b fun y => { y with seed := some x }).answer p 0

/-- CAL_WRITE (R502). -/
def execCalWrite (t p : Nat) (s : State) : Out := .next (calWriteEffect t p s)

end Sys2Proof.Machine
end

