-- ==== Sys2Proof/Machine/Dma.lean ====
section
/-! DEFINITION. DMA engines, work counters and the memory interfaces (chapter 03). -/
namespace Sys2Proof.Machine
open Sys2Proof

/-! ## The checks of a work item (R88, R89) -/

/-- The least and the greatest of what one dimension adds to an offset. -/
def dimSpan (c : Nat) (st : Int) : Int × Int :=
  let e : Int := ((c : Int) - 1) * st
  (min 0 e, max 0 e)

/-- The least and greatest offsets that a gather table adds. -/
def tableSpan (table : List Nat) (st : Int) : Int × Int :=
  match table with
  | [] => (0, 0)
  | x :: xs => xs.foldl (fun (acc : Int × Int) (y : Nat) => (min acc.1 ((y : Int) * st), max acc.2 ((y : Int) * st))) ((x : Int) * st, (x : Int) * st)

/-- The span of the outer dimensions, the outermost through the table when GATHER is set. -/
def dimsSpan (gather : Bool) (table : List Nat) : List Nat → List Int → Int × Int
  | c :: cs, st :: sts =>
    let one := if gather && cs.isEmpty then tableSpan table st else dimSpan c st
    let rest := dimsSpan gather table cs sts
    (one.1 + rest.1, one.2 + rest.2)
  | _, _ => (0, 0)

/-- The lowest and the highest byte of a descriptor (R89). -/
def Stream.extent (d : Stream) (table : List Nat) : Int × Int :=
  let sp := dimsSpan d.gather table (d.counts.take d.ndimM1) (d.strides.take d.ndimM1)
  ((d.start : Int) + sp.1, (d.start : Int) + sp.2 + (d.run : Int) - 1)

/-- A descriptor is invalid in itself: a reserved field, NDIM_M1 of 6 or 7, an empty buffer, both codings, or GATHER without a
dimension for it (R89, 0x0303). -/
def Stream.invalid (d : Stream) : Bool :=
  d.reserved || 5 < d.ndimM1 || d.bufSize == 0 || (d.rawcomp && d.wcomp) || (d.gather && d.ndimM1 == 0)

/-- Every byte lies in the declared buffer. -/
def Stream.inBuffer (d : Stream) (table : List Nat) : Bool :=
  decide ((d.bufBase : Int) ≤ (d.extent table).1 ∧ (d.extent table).2 < (d.bufBase : Int) + d.bufSize)

/-- The first failing status of the bytes a descriptor touches: 0, 0x0301 or 0x0302 (R70). A buffer that is wholly mapped in one
region needs no walk. -/
def State.streamMapped (s : State) (d : Stream) (table : List Nat) (write : Bool) : Nat :=
  if !spansRegions d.bufBase d.bufSize ∧ s.mapStatus d.bufBase d.bufSize write = 0 then 0
  else (List.range d.runs).foldl (fun acc k =>
    if acc ≠ 0 then acc else s.rangeMapped (d.runAddr table k).toNat d.run write) 0

/-- Some byte the source reads is also written by the destination (R89). -/
def streamsOverlap (a : Stream) (ta : List Nat) (b : Stream) (tb : List Nat) : Bool :=
  decide ((a.extent ta).1 ≤ (b.extent tb).2 ∧ (b.extent tb).1 ≤ (a.extent ta).2)
    && (List.range a.runs).any fun i => (List.range b.runs).any fun j =>
      decide (a.runAddr ta i < b.runAddr tb j + b.run ∧ b.runAddr tb j < a.runAddr ta i + a.run)

/-- The status of the checks of R89 that follow the reading of the index tables, in the order of the table. -/
def State.dmaCheck (s : State) (e : Nat) (src : Stream) (ts : List Nat) (dst : Stream) (td : List Nat) : Nat :=
  if src.total ≠ dst.total then 0x0304
  else if !src.inBuffer ts || !dst.inBuffer td then 0x0305
  else
    let m := s.streamMapped src ts false
    let m2 := if m ≠ 0 then m else s.streamMapped dst td true
    if m2 ≠ 0 then m2
    else if !s.granted (initDma e) src.bufBase src.bufSize false || !s.granted (initDma e) dst.bufBase dst.bufSize true then 0x0306
    else if streamsOverlap src ts dst td then 0x0307
    else 0

/-- The status that ends a work item where an access met one of its own: a refusal of the protection unit is 0x0306, an uncorrectable word 0x0308
(R90, R96). -/
def itemStatus (st : Nat) : Nat := if st = 0x0A10 then 0x0306 else if st = 0x0902 then 0x0308 else st

/-- A gather index table read whole: 32-bit entries, as many as the outermost count (R88, R89). -/
def State.readTable (s : State) (e : Nat) (d : Stream) : List Nat × Nat × State :=
  if !d.gather then ([], 0, s)
  else
    let n := d.counts.getD (d.ndimM1 - 1) 1
    let r := s.read (initDma e) d.index (4 * n) d.noAlloc
    ((List.range n).map fun k => fld r.1 (4 * k) 4, itemStatus r.2.1, r.2.2)

/-! ## DMA_WORK_ITEM_START (R89) -/

/-- The descriptor pair an owner's next item takes, and the state after its read: element `itemsDone` of a node's work list, or
the pair that a DMA_COPY request carries. -/
def State.nextPairOf (s : State) (e : Nat) (o : DmaOwner) : Option (Bytes × Nat × State) :=
  match o with
  | .node i =>
    match s.ctx? i with
    | some c =>
      let mine := if e < 12 then c.type == 5 && bits c.unitMask 0 4 == e else c.type == 7 && c.port + 12 == e && !c.relay
      if mine && c.state == .running && !c.draining && (s.mem.dma.at e).itemsDone < c.workCount
      then some (s.readElem c (s.mem.dma.at e).itemsDone) else none
    | none => none
  | .copy p =>
    match (s.pci.pairs.at p).cur with
    | some r => if r.opcode = 0x0031 ∧ r.started ∧ fld r.payload 0 1 = e then some (sub r.payload 8 128, 0, s) else none
    | none => none

/-- An engine takes a descriptor pair: every check is made before any byte moves, and a pair that fails one has no effect but the
fault (R89). The source's index table is read before the destination's, and a table that cannot be read ends the item with the status of that read
before the checks that use it: the spec gives these no order (DESIGN CHOICE; log entry 130). -/
def dmaStartEffect (t e : Nat) (o : DmaOwner) (s0 : State) : State :=
  let s := s0.at t
  let d := s.mem.dma.at e
  if !s.active || d.failed || d.item.isSome || d.cancelDrain then s
  else match s.nextPairOf e o with
    | none => s
    | some (b, st, s1) =>
      let it : DmaItem := { owner := o, index := d.itemsDone, src := b.take 64, dst := b.drop 64 }
      if st ≠ 0 then s1.dmaFault e it st
      else
        let src := streamOf it.src
        let dst := streamOf it.dst
        if src.invalid || dst.invalid then s1.dmaFault e it 0x0303
        else
          let rs := s1.readTable e src
          let rd := rs.2.2.readTable e dst
          let st1 := if rs.2.1 ≠ 0 then rs.2.1 else rd.2.1
          if st1 ≠ 0 then rd.2.2.dmaFault e it st1
          else
            let c := rd.2.2.dmaCheck e src rs.1 dst rd.1
            if c ≠ 0 then rd.2.2.dmaFault e it c
            else rd.2.2.modDma e fun x => { x with item := some { it with srcIndex := rs.1, dstIndex := rd.1 } }

/-- DMA_WORK_ITEM_START (R89). -/
def execDmaWorkItemStart (t e : Nat) (o : DmaOwner) (s : State) : Out := .next (dmaStartEffect t e o s)

/-! ## DMA_REQUEST_ISSUE (R90, R91) -/

/-- The length of the request at byte `off` of a stream: at most 256 bytes, within its run and never across an aligned 256-byte
boundary (R91). -/
def Stream.reqLen (d : Stream) (table : List Nat) (off limit : Nat) : Nat :=
  min (min (d.run - off % d.run) (256 - (d.addrOf table off).toNat % 256)) (limit - off)

/-- The lowest of the engine's 128 tags that no request holds (R91). -/
def freeTag (held : List DmaReq) : Option Nat := (List.range 128).find? fun k => !(held.any (·.tag == k))

/-- The bytes of an item's opened chunks. -/
def DmaItem.openEnd (it : DmaItem) : Nat := min (it.chunksOpen * 4096) (streamOf it.dst).total

/-- The bytes that a read of `n` bytes at `a` of a stream takes from memory: those of the coded or compressed blocks, whole, where the stream is one
(R100, R101). -/
def State.fetches (s : State) (d : Stream) (a n : Nat) : List (Nat × Nat) :=
  if d.wcomp then s.weightReads d.bufBase d.bufSize (a - d.bufBase) n
  else if d.rawcomp then s.rawReads a n
  else [(a, n)]

/-- The first status that an access to one of several ranges meets. -/
def State.accessAll (s : State) (i : Nat) (rs : List (Nat × Nat)) (write : Bool) : Nat :=
  ((rs.map fun r => s.accessStatus i r.1 r.2 write).find? (· ≠ 0)).getD 0

/-- A window's port carries nothing for the graph of an item's node (R407). -/
def State.ownerShut (s : State) (o : DmaOwner) (rs : List (Nat × Nat)) : Bool :=
  match o with
  | .node i => s.nodeShut i rs
  | .copy _ => false

/-- With a free tag the engine issues its next request, a read of the source or a write of an opened chunk. The protection unit
and the map are asked in the cycle of issue; a refusal ends the item (R90, R474). -/
def dmaIssueEffect (t e : Nat) (write : Bool) (s0 : State) : State :=
  let s := s0.at t
  let d := s.mem.dma.at e
  match d.item with
  | none => s
  | some it =>
    match freeTag (it.reqs ++ d.draining) with
    | none => s
    | some tag =>
      let dsc := streamOf (if write then it.dst else it.src)
      let table := if write then it.dstIndex else it.srcIndex
      let off := if write then it.writeIssued else it.readIssued
      let limit := if write then it.openEnd else dsc.total
      if !s.active || d.failed || d.cancelDrain || limit ≤ off then s
      else
        let a := (dsc.addrOf table off).toNat
        let n := dsc.reqLen table off limit
        let rs := if write then s.storeSpans dsc.coded n a n else s.fetches dsc a n
        let st := if s.ownerShut it.owner rs then 0x0301 else s.accessAll (initDma e) rs write
        if st ≠ 0 then (s.countRefusal (initDma e) st).dmaFault e it (itemStatus st)
        else
          let q : DmaReq := { tag := tag, write := write, addr := a, len := n, off := off, data := if write then it.stagedBytes off n else []
                              noAlloc := dsc.noAlloc, coded := if write then dsc.coded else none, host := s.hostAddr a, issued := s.now }
          let s1 := if write then s else rs.foldl (fun s r => s.cacheTouch r.1 r.2 false dsc.noAlloc) s
          s1.modDma e fun x => { x with item := some { it with
            reqs := it.reqs ++ [q]
            readIssued := if write then it.readIssued else off + n
            writeIssued := if write then off + n else it.writeIssued } }

/-- DMA_REQUEST_ISSUE (R91). -/
def execDmaRequestIssue (t e : Nat) (write : Bool) (s : State) : Out := .next (dmaIssueEffect t e write s)

/-! ## DMA_REQUEST_COMPLETE (R91, R96, R97, R102) -/

/-- An owner's node had a write completed poisoned (R433). -/
def State.poisonOwner (s : State) (o : DmaOwner) : State :=
  match o with
  | .node i => s.modCtx i fun c => { c with poisoned := true }
  | .copy _ => s

/-- The data of a read that has returned: what the environment supplies for host memory (log entry 4), what coded or compressed blocks decode to, otherwise
the store's bytes; none for coded weights that do not decode (R102). -/
def State.readData (s : State) (d : Stream) (q : DmaReq) (ext : Option Bytes) : Option Bytes :=
  if d.wcomp then s.plainWeights d.bufBase d.bufSize (q.addr - d.bufBase) q.len
  else if d.rawcomp then some (s.rawPlain d.bufBase d.bufSize q.addr q.len)
  else match regionOf q.addr, ext with
    | .host, some b => some (padTo q.len b)
    | .host, none => some (memRead s.mem.host q.host q.len)
    | _, _ => some (s.peek q.addr q.len)

/-- How a request can end: the endpoint fails requests to host memory alone, only a coded stream fails to decode, and DRAM without in-line ECC reports no
error (R87, R97, R102). -/
def State.outcomeOf (s : State) (d : Stream) (q : DmaReq) (o : DmaOutcome) : DmaOutcome :=
  match o with
  | .hostFail => if regionOf q.addr = .host then o else .ok
  | .decodeFault => if !q.write && (d.wcomp || d.rawcomp) then o else .ok
  | .uncorrectable => if s.mayErr q.addr then o else .ok
  | .ok => o

/-- The words that a write of `[a, a + n)` covers in part, which it reads first: that of its first byte and that of its last (R433). -/
def State.partialWords (s : State) (a n : Nat) : List Nat :=
  let w := s.wordBytes a
  if w = 0 then []
  else ((if a % w ≠ 0 then [a / w * w] else []) ++ (if (a + n) % w ≠ 0 then [(a + n) / w * w] else [])).eraseDups

/-- A write in flight lands, and with it what it found in the words that it covers in part: a correctable error is counted; an uncorrectable one strikes
the word that `corrected` names, or every such word (R433). -/
def State.landMeet (s : State) (e : Nat) (q : DmaReq) (o : DmaOutcome) (corrected : Option WordError) : Nat × State :=
  let ws := ((s.storeSpans q.coded q.data.length q.addr q.data.length).flatMap fun r => s.partialWords r.1 r.2).eraseDups
  let s1 := match o with
    | .uncorrectable =>
      let named := ws.filter fun b => (corrected.map WordError.addr) == some b
      (if named.isEmpty then ws else named).foldl State.strike s
    | _ => if ws.isEmpty then s else s.countCorrected (corrected.map fun (w : WordError) => { w with foundBy := 2 })
  s1.landReq e q

/-- A write of an item lands: over an uncorrectable word it completes with 0x0309, and the node's record carries that; discarded with a status of its own,
as of a work counter, it ends the item with it (R63, R80, R96). -/
def State.dmaLand (s : State) (e : Nat) (it : DmaItem) (q : DmaReq) (o : DmaOutcome) (corrected : Option WordError) : State :=
  let w := s.landMeet e q o corrected
  let s2 := w.2.modDma e fun x => { x with item := x.item.map fun it => { it with writeDone := it.writeDone + q.len } }
  if w.1 = 0x0309 then s2.poisonOwner it.owner
  else if w.1 ≠ 0 then w.2.dmaFault e it w.1
  else s2

/-- The data of a read reaches the staging buffer, or its uncorrectable word or its undefined code ends the item (R96, R102). -/
def State.dmaStage (s : State) (e : Nat) (it : DmaItem) (q : DmaReq) (o : DmaOutcome) (corrected : Option WordError) (ext : Option Bytes) : State :=
  let d := streamOf it.src
  let s1 := if o = .uncorrectable then s.strike q.addr else s
  if o = .uncorrectable || (s1.fetches d q.addr q.len).any fun r => s1.isBad r.1 r.2 then
    (s1.countUncorrectable 0x0902 q.addr (initUnit (initDma e))).dmaFault e it 0x0308
  else match s1.readData d q ext with
    | some b => (s1.countCorrected corrected).modDma e fun x =>
        { x with item := x.item.map fun it => { it with staged := it.staged ++ [(q.off, b)] } }
    | none => s1.dmaFault e it 0x030A

/-- A request of a cancelled item returns: a write of a chunk that was begun retires, and the data of a read is discarded, whatever the read met; an
uncorrectable word is counted all the same (R95, R435). -/
def State.drainReq (s : State) (e : Nat) (it : DmaItem) (q : DmaReq) (o : DmaOutcome) (corrected : Option WordError) : State :=
  match o with
  | .hostFail | .decodeFault => s
  | x =>
    if q.write then
      let w := s.landMeet e q x corrected
      let s2 := w.2.modDma e fun x => { x with item := x.item.map fun it => { it with writeDone := it.writeDone + q.len } }
      if w.1 = 0x0309 then s2.poisonOwner it.owner else s2
    else if x = .uncorrectable then (s.strike q.addr).countUncorrectable 0x0902 q.addr (initUnit (initDma e))
    else s

/-- Requests of one initiator to one remote module complete in the order of their issue (R398): of those in flight to the request's module it is
the first; and no response comes while its port retrains (R407). -/
def State.inIssueOrder (s : State) (rs : List DmaReq) (q : DmaReq) : Bool :=
  !s.peerWaits [(q.addr, q.len)] && match regionOf q.addr with
  | .peer m => ((rs.find? fun r => regionOf r.addr == .peer m).map (·.tag)) == some q.tag
  | _ => true

/-- A request returns and its tag is free. A correctable error of a read is counted under R441 before the data is used. A write of an item that is over
lands all the same, where it was issued before the item ended (R90). -/
def dmaCompleteEffect (t e tag : Nat) (o : DmaOutcome) (corrected : Option WordError) (ext : Option Bytes) (s0 : State) : State :=
  let s := s0.at t
  let d := s.mem.dma.at e
  if !s.active then s
  else match d.draining.find? (·.tag == tag) with
  | some q =>
    if !s.inIssueOrder d.draining q then s else
    let s1 := match s.outcomeOf (streamOf []) q o with
      | .hostFail => s
      | x =>
        if q.write then (s.landMeet e q x corrected).2
        else if x = DmaOutcome.uncorrectable then (s.strike q.addr).countUncorrectable 0x0902 q.addr (initUnit (initDma e))
        else s
    s1.modDma e fun x => { x with draining := x.draining.filter (·.tag != tag) }
  | none => match d.item with
  | none => s
  | some it =>
    match it.reqs.find? (·.tag == tag) with
    | none => s
    | some q =>
      if !s.inIssueOrder (d.draining ++ it.reqs) q then s else
      let it1 := { it with reqs := it.reqs.filter (·.tag != tag) }
      let s1 := s.modDma e fun x => { x with item := some it1 }
      if d.cancelDrain then s1.drainReq e it1 q (s.outcomeOf (streamOf it.src) q o) corrected
      else match s.outcomeOf (streamOf it.src) q o with
      | .hostFail => s1.dmaFault e it1 0x0310
      | .decodeFault => s1.dmaFault e it1 0x030A
      | x => if q.write then s1.dmaLand e it1 q x corrected else s1.dmaStage e it1 q x corrected ext

/-- DMA_REQUEST_COMPLETE (R91). -/
def execDmaRequestComplete (t e tag : Nat) (o : DmaOutcome) (corrected : Option WordError) (ext : Option Bytes)
    (s : State) : Out :=
  .next (dmaCompleteEffect t e tag o corrected ext s)

/-! ## DMA_CHUNK_WRITE_START, DMA_CHUNK_COMPLETE (R93) -/

/-- A chunk's writes begin once all of its source data is staged. -/
def dmaChunkStartEffect (t e : Nat) (s0 : State) : State :=
  let s := s0.at t
  let d := s.mem.dma.at e
  match d.item with
  | none => s
  | some it =>
    let total := (streamOf it.dst).total
    let hi := min ((it.chunksOpen + 1) * 4096) total
    if s.active && !d.cancelDrain && it.chunksOpen * 4096 < total && hi ≤ it.readIssued
        && !(it.reqs.any fun q => !q.write && q.off < hi) then
      s.modDma e fun x => { x with item := some { it with chunksOpen := it.chunksOpen + 1 } }
    else s

/-- DMA_CHUNK_WRITE_START (R93). -/
def execDmaChunkWriteStart (t e : Nat) (s : State) : Out := .next (dmaChunkStartEffect t e s)

/-- A chunk's final write retires; with the last chunk the item is complete. The counts are the node's: a DMA_COPY request's item adds none. -/
def dmaChunkDoneEffect (t e : Nat) (s0 : State) : State :=
  let s := s0.at t
  let d := s.mem.dma.at e
  match d.item with
  | none => s
  | some it =>
    let total := (streamOf it.dst).total
    let hi := min ((it.chunksDone + 1) * 4096) total
    if s.active && it.chunksDone < it.chunksOpen && hi ≤ it.writeIssued && !(it.reqs.any fun q => q.write && q.off < hi) then
      let one := match it.owner with
        | .node _ => 1
        | .copy _ => 0
      if hi < total then
        s.modDma e fun x => { x with item := some { it with chunksDone := it.chunksDone + 1 }, chunksDone := x.chunksDone + one }
      else
        let pois : Bool := match it.owner with
          | .node i => ((s.ctx? i).map (·.poisoned)).getD false
          | .copy _ => false
        let s1 := s.modDma e fun x => { x with item := none, itemsDone := x.itemsDone + one, chunksDone := x.chunksDone + one
                                               fault := false, lastStatus := if pois then 0x0309 else 0 }
        match it.owner with
        | .node _ => s1
        | .copy p => s1.respond p 0 0 (leBytes 4 (it.chunksDone + 1))
    else s

/-- DMA_CHUNK_COMPLETE (R93). -/
def execDmaChunkComplete (t e : Nat) (s : State) : Out := .next (dmaChunkDoneEffect t e s)

/-! ## FETCH_ADD, WORK_COUNTER_WRITE (R80, R81, R435) -/

/-- A FETCH_ADD transaction: an aligned access of 4 bytes to a counter adds its operand modulo 2^32 and returns the previous
value; any other size or offset changes nothing and returns zero with 0x030F (R80). -/
def fetchAddEffect (t init a size v : Nat) (user : Option Nat) (err : ReadErr) (s0 : State) : State :=
  let s := s0.at t
  let st := s.accessStatus init a size true
  if !s.active then s
  else if st ≠ 0 then (s.countRefusal init st).emit (.fetched a none)
  else if regionOf a ≠ .counters ∨ a % 8 ≠ 0 ∨ size ≠ 4 then (s.note 0x030F 6 0xFF).emit (.fetched a (some 0))
  else
    let k := (a - 0x40_1000_0000) / 8
    if err = .uncorrectable ∨ s.counterBad k = true then s.counterUe k user
    else ((s.noteCorrected err a).setCounter k (s.counter k + v)).emit (.fetched a (some (s.counter k)))

/-- FETCH_ADD (R80). -/
def execFetchAdd (t init a size v : Nat) (user : Option Nat) (err : ReadErr) (s : State) : Out :=
  .next (fetchAddEffect t init a size v user err s)

/-- A write to a work counter (R80). -/
def execWorkCounterWrite (t init a : Nat) (bs : Bytes) (s : State) : Out :=
  let s1 := s.at t
  .next (if s1.active && regionOf a == .counters then (s1.write init a bs).2 else s1)

/-! ## MEMORY_INTERFACE_LOSS, MEM_CFG_LOCK (R85, R104) -/

/-- A memory interface is lost in operation: device fatal with 0x0312 (R104). -/
def execMemoryInterfaceLoss (t m : Nat) (s : State) : Out :=
  let s1 := s.at t
  .next (if (s1.mem.cfg.at m).populated then
    ({ s1 with mem := { s1.mem with cfg := s1.mem.cfg.mod m fun c => { c with trainFailed := true } } }).fatal 0x0312
  else s1)

/-- Firmware writes LOCK of an interface's MEM_CFG: its RWL fields stay as they are until device reset (R85). -/
def execMemCfgLock (t m : Nat) (s : State) : Out :=
  let s1 := s.at t
  .next { s1 with mem := { s1.mem with cfg := s1.mem.cfg.mod m fun c => { c with lock := true } } }

end Sys2Proof.Machine
end

