-- ==== Sys2Proof/Machine/Faults.lean ====
section
/-! DEFINITION. Scrubbing, Watchtower's fetch trap, the failure of a DMA engine, and the fatal conditions (R436 to R440, R448, R452, R453). -/
namespace Sys2Proof.Machine
open Sys2Proof

/-! ## SCRUB_READ, DRAM_SCRUB_READ (R438 to R440) -/

/-- An uncorrectable word that a scrub finds is left as it is: logged, and an event with SOURCE 9 names its address. -/
def State.scrubUe (s : State) (w : WordError) : State :=
  let s1 := if w.store = 8 then s else { s with reliab := { s.reliab with uncorrectable := satInc 8 s.reliab.uncorrectable } }
  let s2 := if w.store = 8 then { s1 with reliab := { s1.reliab with memUncorrectable := s1.reliab.memUncorrectable.mod w.unit (satInc 8) } } else s1
  (s2.logError 0x0903 w.store w.unit 1 1 0xFFFF w.addr (w.row + w.bank * 2 ^ 24) 0).event 0x0903 9 w.unit [50] (leBytes 8 w.addr)

/-- The word of a store that has internal addresses, or of a cached line, which stands in the Dome (R73, R76, R442). -/
def State.scrubAddr (s : State) (w : WordError) : Bool :=
  storeOf w.addr = w.store || (w.store == 0 && regionOf w.addr == .dram && s.lineCached (w.addr / 128))

/-- A word that is already poisoned or struck, which no code reports as correctable (R432). -/
def State.scrubBad (s : State) (w : WordError) : Bool :=
  if w.store = 8 && s.lineCached (w.addr / 128) then s.mem.behind.any fun b => b == w.addr / 32 * 32
  else if w.store = 13 then s.watch.ret.bad.contains (w.addr / 8 * 8)
  else s.scrubAddr w && s.isBad w.addr 1

/-- An uncorrectable word stays as it is, for its next reader: of DRAM behind a cached line once the line has left the cache clean (R77, R439, R440). -/
def State.scrubStrike (s : State) (w : WordError) : State :=
  if w.store = 8 && s.lineCached (w.addr / 128) then { s with mem := { s.mem with behind := sInsert s.mem.behind (w.addr / 32 * 32) } }
  else if w.store = 13 then { s with watch := { s.watch with ret := { s.watch.ret with bad := sInsert s.watch.ret.bad (w.addr / 8 * 8) } } }
  else if s.scrubAddr w then s.strike w.addr
  else s

/-- What a scrub makes of the word it reads: nothing, a correction counted, or an uncorrectable word. -/
def State.scrubWord (s : State) (w : WordError) (err : ReadErr) : State :=
  if err = .uncorrectable || s.scrubBad w then (s.scrubStrike w).scrubUe w
  else match err with
    | .correctable b => s.countCorrected (some { w with bit := b, foundBy := 1 })
    | _ => s

/-- The on-chip scrubber reads the next word of a store; `last` ends its pass. -/
def scrubEffect (t : Nat) (w : WordError) (err : ReadErr) (last : Bool) (s0 : State) : State :=
  let s := s0.at t
  if !s.active then s
  else
    let s1 := s.scrubWord w err
    if last then { s1 with reliab := { s1.reliab with passes := (s1.reliab.passes + 1) % 256 } } else s1

/-- SCRUB_READ (R438). -/
def execScrubRead (t : Nat) (w : WordError) (err : ReadErr) (last : Bool) (s : State) : Out := .next (scrubEffect t w err last s)

/-- The DRAM scrubber of an interface reads the next granule, around the cache; without in-line ECC it is off. Its position is the granules read
in the pass, and starts again with the next. -/
def dramScrubEffect (t m a : Nat) (w : WordError) (err : ReadErr) (last : Bool) (s0 : State) : State :=
  let s := s0.at t
  if !s.active || !(s.mem.cfg.at m).populated || !s.ecc then s
  else
    let s1 := s.scrubWord { w with store := 8, unit := m, addr := a } err
    { s1 with reliab := { s1.reliab with memScrubPos := s1.reliab.memScrubPos.mod m fun n => if last then 0 else n + 1 } }

/-- DRAM_SCRUB_READ (R439). -/
def execDramScrubRead (t m a : Nat) (w : WordError) (err : ReadErr) (last : Bool) (s : State) : Out := .next (dramScrubEffect t m a w err last s)

/-! ## WATCHTOWER_FETCH_TRAP (R436, R466) -/

/-- An uncorrectable instruction fetch of Watchtower: the page is reloaded and the instruction retried, with 0x0908; the error is fatal with 0x0909
when no source holds the running image, the reload fails its hash, or the page had such an error within 1 s. -/
def fetchTrapEffect (t page : Nat) (hashOk : Bool) (s0 : State) : State :=
  let s := s0.at t
  if !s.resets.held.isEmpty || !s.pci.hokudan then s
  else
    let again := match aGet s.reliab.wtPages page with
      | some d => decide (s.dev < d + 1000000000)
      | none => false
    let s1 := ({ s with reliab := { s.reliab with wtPages := aSet s.reliab.wtPages page s.dev } }).logError 0x0902 7 0xFF 1 3 0xFFFF (page * 4096) 0 0
    if again || !hashOk || s.watch.reload == 3 then s1.fatal 0x0909 else s1.note 0x0908 9 0xFF

/-- WATCHTOWER_FETCH_TRAP (R436). -/
def execWatchtowerFetchTrap (t page : Nat) (hashOk : Bool) (s : State) : Out := .next (fetchTrapEffect t page hashOk s)

/-! ## DMA_ENGINE_FAILURE (R448) -/

/-- DMA_ENGINE_FAILURE (R448). -/
def execDmaEngineFailure (t e : Nat) (s : State) : Out :=
  let s1 := s.at t
  .next (if s1.active then s1.failDma e else s1)

/-! ## FATAL_CONDITION (R452, R453) -/

/-- The status of a condition. -/
def fatalStatusOf : FatalCond → Nat
  | .belfryFetch => 0x090A
  | .watchtowerData => 0x0909
  | .protectionEntry => 0x090C
  | .beaconLane => 0x020E
  | .memoryTraining => 0x0312

/-- The uncorrectable word behind a condition is logged: an instruction of Belfry, data of Watchtower, an entry of the protection table (R435, R442). -/
def State.logCondition (s : State) (c : FatalCond) : State :=
  match c with
  | .belfryFetch => s.logError 0x0902 12 0xFF 1 3 0xFFFF 0 0 0
  | .watchtowerData => s.logError 0x0902 7 0xFF 1 0 0xFFFF 0 0 0
  | .protectionEntry => s.logError 0x0902 14 0xFF 1 0 0xFFFF 0 0 0
  | _ => s

/-- FATAL_CONDITION (R453). -/
def execFatalCondition (t : Nat) (c : FatalCond) (s : State) : Out :=
  let s1 := s.at t
  .next (if s1.resets.held.isEmpty && s1.pci.hokudan then (s1.logCondition c).fatal (fatalStatusOf c) else s1)

end Sys2Proof.Machine
end

