-- ==== Sys2Proof/Machine/Field.lean ====
section
/-! DEFINITION. The host-side link unit: what it receives and counts, acknowledged frames and their retries, the link's loss, field-message records, and
FIELD_CONFIG (R415, R420, R425 to R428). -/
namespace Sys2Proof.Machine
open Sys2Proof

/-! ## Frames to Lantern (R414, R420) -/

/-- The link unit works: Watchtower has booted and no reset is held. -/
def State.fieldOn (s : State) : Bool := s.resets.held.isEmpty && s.pci.hokudan

/-- A channel of the link unit changed. -/
def State.modFChan (s : State) (ch : Nat) (f : FieldChan → FieldChan) : State := s.modField fun x => { x with chans := x.chans.mod ch f }

/-- A status that the field side reports is the last reported. -/
def State.fieldNote (s : State) (status : Nat) : State := s.modField fun x => { x with lastStatus := status }

/-- A frame goes to Lantern with the next SEQ of its direction; it is on the fibre until Lantern takes it or a later one. -/
def State.fieldSend (s : State) (type chan : Nat) (payload : Bytes) : State :=
  let f := frameOf type chan s.field.txSeq payload
  (s.emit (.toLantern f)).modField fun x => { x with txSeq := (x.txSeq + 1) % 2 ^ 16, sent := x.sent ++ [f] }

/-- The first frame of the job in progress is sent, again or for the first time. -/
def State.sendHead (s : State) : State :=
  match s.field.jobs with
  | [] => s
  | j :: js => match j.frames with
    | [] => s
    | f :: _ =>
      let j1 := { j with tries := j.tries + 1, seq := s.field.txSeq, sentAt := s.now }
      (s.modField fun x => { x with jobs := j1 :: js }).fieldSend (fType f) (fChan f) (sub f 8 20)

/-- A job joins the queue; it starts at once when nothing is before it. -/
def State.addJob (s : State) (j : FieldJob) : State :=
  let s1 := s.modField fun x => { x with jobs := x.jobs ++ [j] }
  if s.field.jobs.isEmpty then s1.sendHead else s1

/-- The CONTROL frame of an ACTION, and the four CONFIG_WRITE frames of a block, with the TOKENs from `k` on. -/
def controlFrame (k ch action value : Nat) : Bytes :=
  frameOf 0x11 ch 0 (leBytes 1 action ++ leBytes 1 k ++ zeros 2 ++ leBytes 4 value)
def configFrames (k ch : Nat) (block : Bytes) : List Bytes :=
  (List.range 4).map fun n => frameOf 0x10 ch 0 (leBytes 1 (16 * n) ++ leBytes 1 (k + n) ++ zeros 2 ++ sub block (16 * n) 16)

/-- A CONTROL frame is to be sent and acknowledged. -/
def State.addControl (s : State) (pair : Option Nat) (ch action value : Nat) : State :=
  (s.modField fun x => { x with token := (x.token + 1) % 256 }).addJob
    { pair := pair, chan := ch, frames := [controlFrame s.field.token ch action value] }

/-- A block is to be sent and acknowledged. -/
def State.addConfig (s : State) (pair : Option Nat) (ch : Nat) (block : Bytes) : State :=
  (s.modField fun x => { x with token := (x.token + 4) % 256 }).addJob
    { pair := pair, chan := ch, frames := configFrames s.field.token ch block }

/-! ## FIELD_CONFIG (R428) -/

/-- The response: STATUS, the channel's STATE, and its last status frame or zeros. -/
def State.answerField (s : State) (p ch status : Nat) : State :=
  let c := s.field.chans.at ch
  s.respond p status c.state (zeros 4 ++ padTo 32 c.status)

/-- The job in progress ends with a status: the pair is answered, and the next job started. -/
def State.endJob (s : State) (status : Nat) : State :=
  match s.field.jobs with
  | [] => s
  | j :: js =>
    let s1 := s.modField fun x => { x with jobs := js }
    (match j.pair with
      | some p => s1.answerField p j.chan status
      | none => s1).sendHead

/-- The fields of a FIELD_CONFIG request that are reserved or out of range. -/
def fieldReqBad (b : Bytes) : Bool :=
  2 < fld b 0 1 || 5 < fld b 1 1 || fld b 3 1 != 0 || (fld b 0 1 == 1 && 3 < fld b 2 1) || bits (fld b 8 8) 40 24 != 0
    || (fld b 0 1 == 0 && fld b 8 8 % 64 != 0)

/-- A FIELD_CONFIG request of a kind on a pair. A request of no kind is refused whichever command carries it. -/
def State.fieldReq (s : State) (p kind : Nat) (f : Bytes → State → State) : State :=
  match s.req? p 0x0060 with
  | none => s
  | some r =>
    if fieldReqBad r.payload then s.answer p 0x0107
    else if fld r.payload 0 1 = kind then f r.payload s
    else s

/-- FIELD_CONFIG_CONFIGURE (R428): four CONFIG_WRITE frames, and a copy of the block with its STATUS_ADDR. -/
def execFieldConfigConfigure (t p : Nat) (s0 : State) : Out :=
  .next ((s0.at t).fieldReq p 0 fun b s =>
    let block := sub b 0x10 64
    ((s.startReq p).modFChan (fld b 1 1) fun c => { c with block := some block, statusAddr := fld b 8 8 }).addConfig (some p) (fld b 1 1) block)

/-- FIELD_CONFIG_CONTROL (R428): one CONTROL frame. -/
def execFieldConfigControl (t p : Nat) (s0 : State) : Out :=
  .next ((s0.at t).fieldReq p 1 fun b s => (s.startReq p).addControl (some p) (fld b 1 1) (fld b 2 1) (fld b 4 4))

/-- FIELD_CONFIG_READ (R428): nothing is sent. -/
def execFieldConfigRead (t p : Nat) (s0 : State) : Out := .next ((s0.at t).fieldReq p 2 fun b s => s.answerField p (fld b 1 1) 0)

/-! ## Frames from Lantern (R415, R427, R428) -/

/-- A good frame: its SEQ is the last accepted, what it skips adds to GAP, and the link is alive. -/
def State.fieldAccept (s : State) (f : Bytes) : State :=
  s.modField fun x => { x with rxSeq := some (fSeq f), gap := satAdd 8 x.gap (gapOf x.rxSeq (fSeq f)), crcRun := 0, lastGood := s.now }

/-- What a frame of a type does to a link unit that works. -/
def State.onReceive (s : State) (f : Bytes) (mine : Bool) (eff : State → State) : State :=
  if s.fieldOn && frameVerdict false f == .good && mine then eff (s.fieldAccept f) else s

/-- A status frame: the channel's state, the frame, and the slot in one write, where one is configured. -/
def State.fieldStatus (s : State) (f : Bytes) : State :=
  let ch := fChan f
  let st := if fType f = 0x81 then fld f 0x12 1 else fld f 0xE 1
  let s1 := s.modFChan ch fun c => { c with state := st, status := f }
  let a := (s.field.chans.at ch).statusAddr
  if a = 0 then s1 else s1.record initField a (f ++ leBytes 8 s.dev ++ zeros 24)

/-- FIELD_STATUS_RECEIVE (R427). -/
def execFieldStatusReceive (t : Nat) (f : Bytes) (s0 : State) : Out :=
  .next ((s0.at t).onReceive f (fType f == 0x81 || fType f == 0x82) fun s => s.fieldStatus f)

/-- An ACK answers the frame in progress when TOKEN, type and channel are that frame's: the job goes on to its next frame, or ends with the first status
that one of its frames was refused with (R420, R428). -/
def State.fieldAck (s : State) (f : Bytes) : State :=
  let status := fld f 0xA 2
  let s1 := if fChan f < 6 then s.modFChan (fChan f) fun c => { c with state := fld f 0xE 1 } else s
  let s2 := if status = 0 then s1 else s1.fieldNote status
  match s2.field.jobs with
  | [] => s2
  | j :: js => match j.frames with
    | [] => s2
    | g :: gs =>
      if sub f 8 1 = sub g 9 1 ∧ fld f 9 1 = fType g ∧ fChan f = fChan g then
        let st := if j.status = 0 then status else j.status
        if gs ≠ [] then (s2.modField fun x => { x with jobs := { j with frames := gs, tries := 0, status := st } :: js }).sendHead
        else s2.endJob st
      else s2

/-- FIELD_ACK_RECEIVE (R420). -/
def execFieldAckReceive (t : Nat) (f : Bytes) (s0 : State) : Out :=
  .next ((s0.at t).onReceive f (fType f == 0x90) fun s => s.fieldAck f)

/-- What an EVENT counts in its channel's register. -/
def FieldChan.countEvent (c : FieldChan) (status state : Nat) : FieldChan :=
  let c1 := { c with state := state }
  if [0x0805, 0x0806, 0x0807, 0x0808, 0x080A].contains status then { c1 with trips := satInc 8 c.trips }
  else if status = 0x0809 ∧ state = 3 then { c1 with ramps := satInc 8 c.ramps }
  else if status = 0x080C then { c1 with discarded := satInc 8 c.discarded }
  else c1

/-- An EVENT is counted and posted. -/
def State.fieldEvent (s : State) (f : Bytes) : State :=
  let status := fld f 8 2
  let s1 := if fChan f < 6 then s.modFChan (fChan f) fun c => c.countEvent status (fld f 0xA 1) else s
  (s1.fieldNote status).event status 8 (if fChan f < 6 then fChan f else 0xFF) [52] (sub f 8 16)

/-- FIELD_EVENT_RECEIVE (R428). -/
def execFieldEventReceive (t : Nat) (f : Bytes) (s0 : State) : Out :=
  .next ((s0.at t).onReceive f (fType f == 0x91) fun s => s.fieldEvent f)

/-- Every stored block is sent again, in ascending channels. -/
def State.resendBlocks (s : State) : State :=
  (List.range 6).foldl (fun s ch => match (s.field.chans.at ch).block with
    | some b => s.addConfig none ch b
    | none => s) s

/-- LINK_STATUS: the link is up; a Lantern that reports BOOT, or a link that comes up, is answered with LINK_ACK, and BOOT with every stored block. -/
def State.linkStatus (s : State) (f : Bytes) : State :=
  let boot := bit (fld f 8 1) 0
  let fail := bit (fld f 8 1) 1
  let acking := s.field.jobs.any (·.chan == 7)
  let s1 := s.modField fun x => { x with up := true, lost := false, boot := boot, selftestFail := fail, vfieldMv := fld f 0xA 2 }
  let s2 := if fail && !s.field.selftestFail then (s1.fieldNote 0x080D).event 0x080D 8 0xFF [52] (sub f 8 16) else s1
  let s3 := if (boot || !s.field.up) && !acking then s2.addControl none 7 4 0 else s2
  (if boot && !acking then s3.resendBlocks else s3).updateHealth

/-- LINK_STATUS_RECEIVE (R427). -/
def execLinkStatusReceive (t : Nat) (f : Bytes) (s0 : State) : Out :=
  .next ((s0.at t).onReceive f (fType f == 0x92) fun s => s.linkStatus f)

/-! ## Frames discarded (R415) -/

/-- What Lantern counts of a frame it discards. -/
def Lantern.countBad (x : Lantern) : FrameVerdict → Lantern
  | .crc => { x with crcErr := satInc 16 x.crcErr }
  | .malformed => { x with malformed := satInc 16 x.malformed }
  | .unknown => { x with unknown := satInc 16 x.unknown }
  | .good | .unaligned => x

/-- What the host's unit counts of one. A frame whose CRC holds ends a run of failures. -/
def Field.countBad (x : Field) : FrameVerdict → Field
  | .crc => { x with crcErr := satInc 8 x.crcErr, crcRun := x.crcRun + 1 }
  | .malformed => { x with malformed := satInc 8 x.malformed, crcRun := 0 }
  | .unknown => { x with unknown := satInc 8 x.unknown, crcRun := 0 }
  | .good | .unaligned => x

/-- FIELD_FRAME_DISCARD (R415): before its first LINK_STATUS Lantern counts nothing. -/
def execFieldFrameDiscard (t : Nat) (toLantern : Bool) (f : Bytes) (s0 : State) : Out :=
  let s := s0.at t
  let v := frameVerdict toLantern f
  .next (if toLantern then (if s.lantern.stage == .running then { s with lantern := s.lantern.countBad v } else s)
    else if s.fieldOn then { s with field := s.field.countBad v } else s)

/-! ## Time-outs (R420, R428) -/

/-- FIELD_ACK_TIMEOUT (R420): 100 µs after it was sent a frame is sent again, and fails with 0x0804 after the third attempt. -/
def execFieldAckTimeout (t : Nat) (s0 : State) : Out :=
  let s := s0.at t
  .next (match s.field.jobs with
    | [] => s
    | j :: _ =>
      if s.fieldOn && decide (j.sentAt + 100000 ≤ s.now) then
        if j.tries < 3 then s.sendHead else (s.fieldNote 0x0804).endJob 0x0804
      else s)

/-- The link is down: the field function is Crimson. Nodes in progress end with the same status as those dispatched from now on. -/
def State.fieldLost (s : State) : State :=
  let s1 := (s.modField fun x => { x with up := false, lost := true, lastStatus := 0x0801 }).event 0x0801 8 0xFF [52]
  ((s1.field.runs.map (·.ctx)).foldl (fun s i => s.unitFault i 0x0801) s1).updateHealth

/-- FIELD_LINK_DOWN (R428): no good frame for 5 ms, or 16 CRC failures in a row. -/
def execFieldLinkDown (t : Nat) (s0 : State) : Out :=
  let s := s0.at t
  .next (if s.fieldOn && s.field.up && decide (s.field.lastGood + 5000000 ≤ s.now ∨ 16 ≤ s.field.crcRun) then s.fieldLost else s)

/-! ## FIELD_RECORD_SEND (R425, R426) -/

/-- The record is a set-point whose channel and reserved fields are as R416 lists them; SYNC, SEQ and CRC are not looked at. -/
def recordOk (r : Bytes) : Bool :=
  (fType r == 1 || fType r == 2) && bits (fChan r) 3 5 == 0 && chanOk (fType r) (fChan r) && fld r 3 1 == 0 && fld r 6 2 == 0 && payloadOk r

/-- The next record of a node is read when it is sent, and retires at its last symbol. -/
def State.sendRecord (s : State) (r : FieldRun) (c : Ctx) : State :=
  let i := r.ctx
  let rd := s.readElem c r.sent
  if rd.2.1 ≠ 0 then rd.2.2.unitFault i rd.2.1
  else if !recordOk rd.1 then (rd.2.2.fieldNote 0x080B).unitFault i 0x080B
  else (rd.2.2.fieldSend (fType rd.1) (fChan rd.1) (sub rd.1 8 20)).modField fun x =>
    { x with runs := x.runs.map fun q => if q.ctx = i then { q with sent := q.sent + 1, tLast := s.dev } else q }

/-- FIELD_RECORD_SEND (R425, R426): nodes in dispatch order. -/
def execFieldRecordSend (t : Nat) (s0 : State) : Out :=
  let s := s0.at t
  .next (if s.active then
    match s.field.runs.findSome? fun r => (s.ctx? r.ctx).bind fun c =>
      if c.state == .running && !c.draining && r.sent < c.workCount then some (r, c) else none with
    | some (r, c) => s.sendRecord r c
    | none => s
  else s)

end Sys2Proof.Machine
end

