-- ==== Sys2Proof/Machine/HostPort.lean ====
section
/-! DEFINITION. The endpoint's commands: BAR4, the host-writable registers, the mailbox pages, the taking of requests, failed transfers and
D3hot (R366 to R380, R385, R389, R390, R489). -/
namespace Sys2Proof.Machine
open Sys2Proof

/-! ## BAR4_ACCESS, PCI_BAR4_BASE_WRITE (R369) -/

/-- A BAR4 access that is not performed: counted and logged with 0x010C; a read completes with Completer Abort. -/
def State.refuseBar4 (s : State) (status : Nat) (read : Bool) : State :=
  let s1 := ((s.countRefusal initPcie status).modPci fun x => { x with bar4Refused := satInc 16 x.bar4Refused }).note 0x010C 10 0xFF
  if read then s1.emit (.bar4 none false) else s1

/-- An access through the window: a read of `n` bytes, or a write. An uncorrectable word is returned with the TLP poisoned (R435). -/
def bar4Effect (t off n : Nat) (x : OuterAccess) (s0 : State) : State :=
  let s := s0.at t
  let len := match x with
    | .write b => b.length
    | .read _ => n
  let a := s.pci.bar4Base * 2 ^ 28 + off
  if !s.hostReach || s.pci.bar4Size < off + len || len = 0 then s
  else
    let inDram := decide (regionOf a = .dram ∧ regionOf (a + len - 1) = .dram)
    match x with
    | .write b =>
      let st := if inDram then s.accessStatus initPcie a len true else 0x0301
      if st ≠ 0 then s.refuseBar4 st false else (s.writeRaw initPcie a b).2
    | .read err =>
      let st := if inDram then s.accessStatus initPcie a len false else 0x0301
      if st ≠ 0 then s.refuseBar4 st true
      else
        let r := s.readMeet initPcie a n err
        if r.2.1 = 0 then r.2.2.emit (.bar4 (some r.1) false)
        else (r.2.2.modPci fun x => { x with aerPoisoned := x.aerPoisoned + 1 }).emit (.bar4 (some r.1) true)

/-- BAR4_ACCESS (R369). -/
def execBar4Access (t off n : Nat) (x : OuterAccess) (s : State) : Out := .next (bar4Effect t off n x s)

/-- The value of PCI_BAR4_BASE is taken when it is a multiple of the BAR's size and the window lies in the DRAM region; otherwise the write is
discarded and counted. Reserved bits have no effect (R10). -/
def State.writeBar4Base (s : State) (v : Nat) : State :=
  let base := bits v 28 12
  if base * 2 ^ 28 % s.pci.bar4Size ≠ 0 ∨ s.dramEnd < base * 2 ^ 28 + s.pci.bar4Size then s.discardWrite
  else s.modPci fun x => { x with bar4Base := base }

/-- PCI_BAR4_BASE_WRITE (R369). -/
def execPciBar4BaseWrite (t v : Nat) (s : State) : Out :=
  let s1 := s.at t
  .next (if s1.hostReach then s1.writeBar4Base v else s1)

/-! ## PCI_INT_STATUS_CLEAR, REGISTER_WRITE (R10, R12, R367, R368, R385) -/

/-- Cause bits written 1 clear; `hi` names PCI_INT_STATUS_HI. -/
def State.clearCauses (s : State) (hi : Bool) (mask : Nat) : State :=
  let lo := if hi then 32 else 0
  (List.range 32).foldl (fun s k => if bit mask k then s.modPci fun x => { x with cause := setBits x.cause (lo + k) 1 0 } else s) s

/-- PCI_INT_STATUS_CLEAR (R385). -/
def execPciIntStatusClear (t : Nat) (hi : Bool) (mask : Nat) (s : State) : Out :=
  let s1 := s.at t
  .next (if s1.hostReach then s1.clearCauses hi mask else s1)

/-- A host write of one word of the MSI-X table: message address, data, or the mask bit; unmasking a vector sends its pending message. -/
def State.writeMsix (s : State) (off v : Nat) : State :=
  let k := off / 16
  let s1 := s.modPci fun x => { x with msix := x.msix.mod k fun e =>
    match off % 16 with
    | 0 => { e with addr := setBits e.addr 0 32 (v / 4 * 4) }
    | 4 => { e with addr := setBits e.addr 32 32 v }
    | 8 => { e with data := v }
    | _ => { e with masked := bit v 0 } }
  s1.sendPending

/-- A host write of one word of BAR0. -/
def State.hostWrite0 (s : State) (off v : Nat) : State :=
  if off = 0x100 then s.clearCauses false v
  else if off = 0x104 then s.clearCauses true v
  else if off = 0x110 then s.modPci fun x => { x with scratch := v }
  else if off = 0x118 then s.writeBar4Base (setBits (s.pci.bar4Base * 2 ^ 28) 0 32 v)
  else if off = 0x11C then s.writeBar4Base (setBits (s.pci.bar4Base * 2 ^ 28) 32 32 v)
  else if 0x1_0000 ≤ off ∧ off < 0x1_0400 then s.writeMsix (off - 0x1_0000) v
  else s.refuseWrite

/-- A host write of one word of a mailbox page: the ring bases while ENABLED reads 0, MBX_CFG, the doorbell and the response head; the other
words hold no RW field, and a write of one is discarded and counted (R12, R370). -/
def State.hostWrite2 (s : State) (off v : Nat) : State :=
  let p := off / 0x1000
  let q := s.pci.pairs.at p
  let base := fun (b lo : Nat) => setBits b lo 32 v / 4096 * 4096
  if 0x1_0000 ≤ off then s.discardWrite
  else match off % 0x1000 with
    | 0x000 => if q.enabled then s.discardWrite else s.modPair p fun q => { q with reqBase := base q.reqBase 0 }
    | 0x004 => if q.enabled then s.discardWrite else s.modPair p fun q => { q with reqBase := base q.reqBase 32 }
    | 0x008 => if q.enabled then s.discardWrite else s.modPair p fun q => { q with rspBase := base q.rspBase 0 }
    | 0x00C => if q.enabled then s.discardWrite else s.modPair p fun q => { q with rspBase := base q.rspBase 32 }
    | 0x010 => if bit v 31 then s.setEnable p v else s.clearEnable p v
    | 0x018 => s.ringDoorbell p (v % 2 ^ 16)
    | 0x01C => s.writeRspHead p (v % 2 ^ 16)
    | _ => s.discardWrite

/-- A host write reaches BAR0 or BAR2: aligned words of 4 or 8 bytes, the lower address of an 8-byte write first; any other is discarded and
counted (R367). -/
def State.hostWrite (s : State) (page : Bool) (off : Nat) (b : Bytes) : State :=
  let one := fun (s : State) (off v : Nat) => if page then s.hostWrite2 off v else s.hostWrite0 off v
  if (b.length = 4 ∨ b.length = 8) ∧ off % b.length = 0 then
    let s1 := one s off (fld b 0 4)
    if b.length = 8 then one s1 (off + 4) (fld b 4 4) else s1
  else s.discardWrite

/-- A host read of one word of BAR0, or of BAR2 for a `page`: reading the lower word of WT_DEVTIME latches the upper (R473). -/
def State.hostReadWord (s : State) (page : Bool) (off : Nat) : Nat × State :=
  if page then (s.pageRead off, s)
  else if off = 0x02_0010 then (s.dev % 2 ^ 32, { s with clock := { s.clock with latchedHi := s.dev / 2 ^ 32 } })
  else (s.regRead off, s)

/-- A host read of BAR0 or BAR2: an aligned word of 4 bytes, or two of them, the lower address first; any other returns zeros (R367). -/
def State.hostRead (s : State) (page : Bool) (off n : Nat) : State :=
  if (n = 4 ∨ n = 8) ∧ off % n = 0 then
    let a := s.hostReadWord page off
    if n = 4 then a.2.emit (.regRead a.1)
    else
      let b := a.2.hostReadWord page (off + 4)
      b.2.emit (.regRead (a.1 + b.1 * 2 ^ 32))
  else s.emit (.regRead 0)

/-- A word of the function's type 0 configuration header (R365): its identifiers, its class code and its revision, with header type 0 and Interrupt Pin 0.
Their places are PCI Express's (PRESUMED, log entry 164). -/
def State.headerWord (s : State) (off : Nat) : Nat :=
  match off with
  | 0x00 => s.fuses.vendor + 0x7316 * 2 ^ 16
  | 0x08 => s.fuses.stepping % 2 ^ 8 + 0x12_0000 * 2 ^ 8
  | 0x2C => s.fuses.subVendor + s.fuses.subId * 2 ^ 16
  | _ => 0

/-- The host sizes BAR4 through its Resizable BAR capability: 2^(20 + k) bytes, from 256 MiB to 64 GiB; another size has no effect (R365; PRESUMED, log
entry 164). -/
def State.sizeBar4 (s : State) (k : Nat) : State :=
  if 8 ≤ k ∧ k ≤ 16 then s.modPci fun x => { x with bar4Size := 2 ^ (20 + k) } else s

/-! ## PRT_COMMIT (R475, R476) -/

/-- The entry that 128 bits spell (R475). -/
def prtOf (v : Nat) : PrtEntry :=
  { valid := bit v 127, lock := bit v 126, read := bit v 125, write := bit v 124, initId := bits v 112 8, initMask := bits v 104 8
    lastPage := bits v 28 28, firstPage := bits v 0 28 }

/-- A staged entry has a reserved bit set. -/
def prtReserved (v : Nat) : Bool := bits v 120 4 != 0 || bits v 56 48 != 0

/-- A write of PRT_COMMIT with GO: the staged entries take effect together, or none does and PRT_STATUS reports 0x0A0E. -/
def State.prtCommit (s : State) (v : Nat) : State :=
  let n := bits v 9 3 + 1
  let first := bits v 0 9
  let ks := List.range n
  let bad := 512 < first + n
    || ks.any (fun k => prtReserved (s.watch.prtStage.at k))
    || ks.any fun k => match aGet s.watch.prt (first + k) with
      | some e => e.lock
      | none => false
  if !bit v 31 then s
  else if bad then { s with watch := { s.watch with prtStatus := 0x0A0E } }
  else
    let put := ks.foldl (fun l k => aSet l (first + k) (prtOf (s.watch.prtStage.at k))) s.watch.prt
    { s with watch := { s.watch with prt := put, prtStatus := 0 } }

/-- PRT_COMMIT (R476). -/
def execPrtCommit (t v : Nat) (s : State) : Out :=
  let s1 := s.at t
  .next (if s1.resets.held.isEmpty then s1.prtCommit v else s1)

/-! ## Firmware's register writes -/

/-- Firmware writes one word of a register whose fields the maps mark RW for it, RWL while unlocked, W1S or WO (R9, R10). A field out of
the range its map gives, and a word with no such field, is left as it is (DEDUCED). -/
def State.firmwareWrite (s : State) (off v : Nat) : State :=
  if off = 0x02_0008 then
    { s with watch := { s.watch with
        throttle := if 80 ≤ bits v 8 8 ∧ bits v 8 8 ≤ 105 then bits v 8 8 else s.watch.throttle
        warn := if 60 ≤ bits v 0 8 ∧ bits v 0 8 ≤ 105 then bits v 0 8 else s.watch.warn } }
  else if 0x04_0000 ≤ off ∧ off < 0x04_0080 ∧ off % 4 = 0 then
    let k := (off - 0x04_0000) / 16
    { s with watch := { s.watch with prtStage := s.watch.prtStage.mod k fun x => setBits x (8 * (off % 16)) 32 v } }
  else if off = 0x04_0080 then s.prtCommit v
  else if 0x10_0000 ≤ off ∧ off < 0x10_2000 then
    let p := (off - 0x10_0000) / 0x400
    let k := (off - 0x10_0000) % 0x400
    if k = 0 then
      s.modPort p fun x => { x with enable := bit v 31, cphy := bit v 30, lanesM1 := bits v 28 2, rate := bits v 14 14, polarity := bits v 8 4
                                    laneMap := bits v 0 8 }
    else if 0x10 ≤ k ∧ k < 0x20 ∧ k % 4 = 0 then
      let e : VcEntry := { valid := bit v 31, camera := bits v 20 4, vc := bits v 16 4, dataType := bits v 0 6 }
      s.modPort p fun x => { x with vcMap := x.vcMap.mod ((k - 0x10) / 4) fun _ => e }
    else s
  else if 0x18_0000 ≤ off ∧ off < 0x1C_0000 ∧ off % 0x4000 = 0 then
    s.modRfe ((off - 0x18_0000) / 0x4000) fun x => { x with enable := bit v 31, camera := bits v 24 4
                                                            cfa := if bits v 20 3 ≤ 4 then bits v 20 3 else x.cfa
                                                            depth := if 8 ≤ bits v 0 5 ∧ bits v 0 5 ≤ 16 then bits v 0 5 else x.depth }
  else if off = 0x1C_0000 ∨ off = 0x1C_1000 then
    let e := (off - 0x1C_0000) / 0x1000
    let s := if bit v 31 && !(s.egress.at e).enable && decide (1500 < bits v 14 14) then s.emit (.deskew e true) else s
    { s with egress := s.egress.mod e fun x => { x with enable := bit v 31, contClk := bit v 30
                                                        lanesM1 := if bits v 28 2 = 2 then x.lanesM1 else bits v 28 2
                                                        rate := bits v 14 14, laneMap := bits v 0 8 } }
  else if off = 0x48_0000 then
    if bits v 0 4 ≤ 8 ∧ s.cacheFree = true then s.setCache (bits v 0 4) else s
  else if off = 0x48_000C then
    if 100 ≤ bits v 18 14 ∧ bits v 18 14 ≤ 10000 then { s with reliab := { s.reliab with scrubMs := bits v 18 14 } } else s
  else if 0x58_0000 ≤ off ∧ off < 0x58_4000 then
    let m := (off - 0x58_0000) / 0x1000
    if off % 0x1000 = 0 then
      { s with mem := { s.mem with cfg := s.mem.cfg.mod m fun c =>
          if c.lock then c else { c with lock := bit v 31, eccEn := bit v 8, populated := bit v 7
                                         capacity := if bits v 3 4 ≤ 5 then bits v 3 4 else c.capacity
                                         rate := if bits v 0 3 ≤ 2 then bits v 0 3 else c.rate } } }
    else if off % 0x1000 = 0x14 ∧ 1 ≤ bits v 27 5 ∧ bits v 27 5 ≤ 24 then
      { s with reliab := { s.reliab with memScrubH := s.reliab.memScrubH.mod m fun _ => bits v 27 5 } }
    else s
  else if off = 0x68_0000 then
    if 2 ≤ bits v 0 6 ∧ bits v 0 6 ≤ 40 then { s with power := { s.power with thresh := bits v 0 6 } } else s
  else s

/-- A register access: of the host, through BAR0, BAR2 or the configuration space, or a write of firmware at a BAR0 offset. -/
def registerWriteEffect (t : Nat) (host : Bool) (space : RegSpace) (off : Nat) (x : RegAccess) (s0 : State) : State :=
  let s := s0.at t
  if host then
    if !s.hostReach then s
    else match space, x with
      | .bar0, .write b => s.hostWrite false off b
      | .bar2, .write b => s.hostWrite true off b
      | .bar0, .read n => s.hostRead false off n
      | .bar2, .read n => s.hostRead true off n
      | .header, .read _ => s.emit (.regRead (s.headerWord off))
      | .header, .write _ => s
      | .bar4Size, .read _ => s.emit (.regRead (s.pci.bar4Size.log2 - 20))
      | .bar4Size, .write b => s.sizeBar4 (leNat b)
  else match space, x with
    | .bar0, .write b => if s.resets.held.isEmpty ∧ b.length = 4 then (s.firmwareWrite off (leNat b)).calOff else s
    | _, _ => s

/-- REGISTER_WRITE (R368). -/
def execRegisterWrite (t : Nat) (host : Bool) (space : RegSpace) (off : Nat) (x : RegAccess) (s : State) : Out :=
  .next (registerWriteEffect t host space off x s)

/-! ## MBX_ENABLE, MBX_DISABLE, MBX_REQ_DOORBELL, MBX_RSP_HEAD_WRITE (R370 to R373) -/

/-- MBX_ENABLE (R370): the driver writes MBX_CFG with ENABLE set. -/
def execMbxEnable (t p v : Nat) (s : State) : Out :=
  let s1 := s.at t
  .next (if s1.hostReach then s1.setEnable p v else s1)

/-- MBX_DISABLE (R373): the driver writes MBX_CFG with ENABLE clear. -/
def execMbxDisable (t p v : Nat) (s : State) : Out :=
  let s1 := s.at t
  .next (if s1.hostReach then s1.clearEnable p v else s1)

/-- MBX_REQ_DOORBELL (R371): what the driver has written to host memory stands there, and it rings with the new tail. -/
def execMbxReqDoorbell (t p tail : Nat) (writes : List (Nat × Bytes)) (s : State) : Out :=
  let s1 := writes.foldl (fun s w => s.hostPut w.1 w.2) (s.at t)
  .next (if s1.hostReach then s1.ringDoorbell p tail else s1)

/-- MBX_RSP_HEAD_WRITE (R372). -/
def execMbxRspHeadWrite (t p head : Nat) (s : State) : Out :=
  let s1 := s.at t
  .next (if s1.hostReach then s1.writeRspHead p head else s1)

/-! ## MAILBOX_REQUEST_TAKE (R371, R372, R375 to R378, R390) -/

/-- A pair whose next request may be taken. -/
def Pair.takeable (q : Pair) : Bool := q.enabled && q.enable && q.cur.isNone && 0 < q.waiting && 0 < q.rspFree

/-- The next pair in the round-robin. -/
def State.nextTake (s : State) : Option Nat :=
  (((List.range 16).map fun k => (s.pci.nextPair + k) % 16)).find? fun p => (s.pci.pairs.at p).takeable

/-- The request in a pair's next slot: header and payload; only the header is read when LENGTH exceeds 4,080. -/
def State.slotRequest (s : State) (p : Nat) : Bytes × MbxReq :=
  let q := s.pci.pairs.at p
  let a := q.reqBase + (q.reqHead % q.reqEntries) * 4096
  let h := memRead s.mem.host a 16
  let n := fld h 2 2
  (h, { opcode := fld h 0 2, seq := fld h 4 4, tag := fld h 8 4, payload := if n ≤ 4080 then memRead s.mem.host (a + 16) n else [] })

/-- The outcome of the checks of R376 in their order; none when BOOTING holds the request back. -/
def State.takeStatus (s : State) (p : Nat) (h : Bytes) (r : MbxReq) : Option Nat :=
  let q := s.pci.pairs.at p
  if 4080 < fld h 2 2 then some 0x0102
  else if fld h 0x0C 4 ≠ 0 then some 0x0104
  else if q.expect ≠ none ∧ q.expect ≠ some r.seq then some 0x0105
  else if !opKnown r.opcode then some 0x0101
  else if s.pci.state = .booting ∧ !opAlways r.opcode then none
  else some (s.serveStatus ((List.range 16).filter (· != p)) p r)

/-- Firmware takes the next request: it is answered with the status of the check it fails, held, or left for its command. -/
def requestTakeEffect (t : Nat) (s0 : State) : State :=
  let s := s0.at t
  if !s.mailboxesServed then s
  else match s.nextTake with
    | none => s
    | some p =>
      let hr := s.slotRequest p
      let st := s.takeStatus p hr.1 hr.2
      let s1 := (s.modPci fun x => { x with nextPair := (p + 1) % 16, takes := x.takes + 1 }).modPair p fun q =>
        { q with reqHead := (q.reqHead + 1) % 2 ^ 16, cur := some { hr.2 with turn := s.pci.takes }, expect := some ((hr.2.seq + 1) % 2 ^ 32) }
      match st with
      | none | some 0 => s1
      | some st => s1.answer p st

/-- MAILBOX_REQUEST_TAKE (R376). -/
def execMailboxRequestTake (t : Nat) (s : State) : Out := .next (requestTakeEffect t s)

/-! ## PCIE_COMPLETION_TIMEOUT (R97, R374) -/

/-- A transfer with host memory gets no good completion: a slot fetch or a response write stops its pair, a DMA engine's request ends its item
FAULTED with 0x0310. -/
def completionTimeoutEffect (t : Nat) (w : HostWait) (s0 : State) : State :=
  let s := s0.at t
  if !s.resets.held.isEmpty then s
  else match w with
    | .fetch p => if (s.pci.pairs.at p).enabled && 0 < (s.pci.pairs.at p).waiting then s.stopPair p 0x0109 else s
    | .response p => if (s.pci.pairs.at p).enabled then s.stopPair p 0x010A else s
    | .dma e tag =>
      let d := s.mem.dma.at e
      if d.draining.any (fun q => q.tag == tag && regionOf q.addr == .host && !q.write) then s.modDma e fun x => { x with draining := x.draining.filter (·.tag != tag) }
      else match d.item with
        | none => s
        | some it => match it.reqs.find? (·.tag == tag) with
          | some q =>
            if regionOf q.addr = .host ∧ !q.write then
              let it1 := { it with reqs := it.reqs.filter (·.tag != tag) }
              (s.modDma e fun x => { x with item := some it1 }).dmaFault e it1 0x0310
            else s
          | none => s

/-- PCIE_COMPLETION_TIMEOUT (R374). -/
def execPcieCompletionTimeout (t : Nat) (w : HostWait) (s : State) : Out := .next (completionTimeoutEffect t w s)

/-! ## D3HOT_ENTRY, D0_RETURN (R489) -/

/-- D3HOT_ENTRY (R489): state is preserved; no request to host memory, no message and no mailbox service until D0. -/
def execD3hotEntry (t : Nat) (s : State) : Out :=
  let s1 := s.at t
  .next (if s1.hostReach then s1.modPci fun x => { x with d3hot := true } else s1)

/-- D0_RETURN (R489): responses that waited are written, and messages held as pending bits are sent. -/
def execD0Return (t : Nat) (s : State) : Out :=
  let s1 := s.at t
  .next (if s1.resets.held.isEmpty && s1.pci.d3hot then ((s1.modPci fun x => { x with d3hot := false }).deliverHeld).sendPending
    else s1)

end Sys2Proof.Machine
end

