-- ==== Sys2Proof/Machine/Ingress.lean ====
section
/-! DEFINITION. The commands of the sensor ports and of camera binding: packets, frames, genlock, bindings, port locks and
port failures (chapter 09, R228 to R243, R257, R384). -/
namespace Sys2Proof.Machine
open Sys2Proof

/-! ## Genlock anchors (R238) -/

/-- A group's anchor: G advances, and the anchor's DEVTIME becomes the group timestamp. -/
def State.genlockAdvance (s : State) (g : Nat) : State :=
  { s with genlock := s.genlock.mod g fun q =>
      { q with number := nextFrame q.number, stamp := s.dev, anchored := some s.now, times := keepLast 16 (q.times ++ [s.now]) } }

/-- A lead camera's frame start is the anchor of its group, unless GENLOCK_ANCHOR has already brought it at this instant. -/
def State.leadAnchor (s : State) (c : Nat) : State :=
  let k := s.cams.at c
  let q := s.genlock.at (bGroup k.bind)
  if bMember k.bind ∧ q.lead = some c ∧ q.anchored ≠ some s.now then s.genlockAdvance (bGroup k.bind) else s

/-- GENLOCK_ANCHOR: a GENLOCK_IN edge (`lead` none) advances every group anchored on the pin; a lead camera's frame start
advances its group. -/
def genlockAnchorEffect (t : Nat) (lead : Option Nat) (s0 : State) : State :=
  let s := s0.at t
  if !s.active then s
  else match lead with
    | none => (List.range 8).foldl (fun s g => if (s.genlock.at g).pin then s.genlockAdvance g else s) s
    | some c => s.leadAnchor c

def execGenlockAnchor (t : Nat) (lead : Option Nat) (s : State) : Out := .next (genlockAnchorEffect t lead s)

/-! ## Frame starts (R236 to R239, R242, R253, R278, R311) -/

/-- A frame number that a frame start takes, and whether it is late or the second of its anchor (R236, R238, R239). -/
structure StartNo where
  num : Nat
  slip : Bool
  second : Bool

/-- The number of a frame start. -/
def State.startNo (s : State) (c : Nat) : StartNo :=
  let k := s.cams.at c
  if bMember k.bind then
    let q := s.genlock.at (bGroup k.bind)
    { num := q.number
      slip := match q.anchored with
        | some a => decide (a + q.window * 1000 < s.now)
        | none => false
      second := k.lastG == some q.number }
  else { num := if k.started then nextFrame k.frameNo else 0, slip := false, second := false }

/-- The epoch in effect for frame `n`: that of the newest request whose achieved frame is at or behind it and whose writes all
completed; unknown after one that failed (R252, R253). -/
def Cam.epochAt (k : Cam) (n : Nat) : Nat :=
  match (k.seen.filter fun e => (e.written || e.failed) && !aheadOf e.achieved n).getLast? with
  | some e => if e.failed then 0xFFFF else e.epoch
  | none => 0

/-- Requests that no epoch rule can still need: those before the one in effect, except the last eight. -/
def Cam.pruneSeen (k : Cam) (n : Nat) : Cam :=
  let live := fun (e : ExpSeen) => (e.written || e.failed) && !aheadOf e.achieved n
  let later := (k.seen.reverse.takeWhile fun e => !live e).length + 1
  { k with seen := keepLast (max later 8) k.seen }

/-- Bytes of accepted frames that the RFE has not yet read, a part of a byte counted whole (R242). -/
def Cam.outstanding (k : Cam) : Nat :=
  ceilDiv ((k.frames.filter fun f => !f.dropped).map fun f => (bH k.bind - f.rows.length) * bLineBits k.bind).sum 8

/-- Free capacity at a frame start (R242). -/
def Cam.capacity (k : Cam) : Nat :=
  fifoBytes (bW k.bind) k.vc + bSpillFrames k.bind * bFrameBytes k.bind - k.outstanding

/-- A descriptor that waits for the frame start takes effect, and its rotation begins with buffer 0 (R279, R281). -/
def Tap.take (t : Tap) : Tap :=
  match t.next with
  | some d => { t with desc := d, next := none, turn := 0, prev := [] }
  | none => t

/-- An accepted frame takes the next buffer of the ring of a tap that is enabled (R281). -/
def Tap.rotate (t : Tap) : Tap :=
  if t.desc.isEmpty || !tapEnable t.desc then t else { t with turn := (t.turn + 1) % tapBufs t.desc }

/-- The shadow becomes live when its target is at or behind F; pending tap descriptors take effect, but for a tap that an admitted graph has
come to name, whose change waits (R278, R279; DEDUCED, log entry 103). -/
def State.switchPset (s : State) (c n : Nat) : State × Bool :=
  let k := s.cams.at c
  let x := s.rfe.at k.rfe
  let s1 := s.modRfe k.rfe fun x => { x with taps := (List.range 4).foldl (fun t i => if s.tapNamed k.rfe i then t else t.mod i Tap.take) x.taps }
  match x.shadow with
  | some (sub_, b) =>
    if aheadOf sub_.target n then (s1, false)
    else
      let base := x.live.getD (psetDefault (bW k.bind) (bH k.bind))
      let s2 := s1.modRfe k.rfe fun x => { x with live := some (psetMerge base b), liveTag := sub_.tag, shadow := none, shadowLate := false }
      if x.shadowLate then ((s2.modRfe k.rfe fun x => { x with lastStatus := 0x051A }).event 0x051A 3 c [18 + c], true) else (s2, false)
  | none => (s1, false)

/-- What a frame start does to the camera's network: an unbinding takes effect, a loaded network takes its first frame, a
switched camera returns once R311 allows it. -/
def State.startNet (s : State) (c : Nat) : State :=
  match (s.cams.at c).net with
  | none => s
  | some n =>
    if n.unbindDue || n.ending then
      ((s.modCam c fun k => { k with net := some { n with unbindDue := false, ending := true } }).endNet c).gateUnused
    else
      let since := n.sinceSwitch + 1
      let hold := max 1 (fld n.bindRec 3 1)
      let ok := n.loaded && !n.refused && !n.suspended && !n.reloading && !(s.sne.at (nSne n.bindRec)).failed
      let active := n.active || (ok && (!n.switched || (decide (hold ≤ since) && s.admittedNow c n)))
      s.modCam c fun k => { k with net := some { n with
        sinceSwitch := since, active := active, switched := n.switched && !active } }

/-- The 128-byte record's path fields at a frame start: START_PATH, REASON and SWITCH_UNIT (R286, R287, R314). -/
def Frame.startPath (f : Frame) (net : Option Net) (w : Nat) : Frame :=
  match net with
  | none => { f with classical := true, reason := 0, switchUnit := none, stripes := 0 }
  | some n =>
    let sw := fld n.header 4 2 + 1
    let f1 := { f with stripes := ceilDiv w sw, stripeW := sw, sne := bits (fld n.bindRec 1 1) 0 2 }
    if n.active then { f1 with classical := false, reason := 0, switchUnit := none }
    else { f1 with classical := true, reason := n.reason, switchUnit := some 0 }

/-- A frame start opens a frame: accepted against the free capacity, or dropped whole (R242). -/
def State.openFrame (s : State) (c sensorFn : Nat) (no : StartNo) : State :=
  let k := s.cams.at c
  let accept := !no.second && decide (bFrameBytes k.bind ≤ k.capacity)
  let step := k.stepped
  let s1 := s.modCam c fun k => { (k.pruneSeen no.num) with
    frameNo := no.num, started := true, fsPrev := if k.started then some k.fsLast else none, fsLast := s.now
    fsTimes := keepLast 16 (k.fsTimes ++ [s.now])
    stepped := false, open_ := true, slips := if no.slip || no.second then satInc 16 k.slips else k.slips
    lastG := if bMember k.bind then some no.num else none }
  let s2 := if no.slip || no.second then s1.event 0x0511 3 c [18 + c] else s1
  let p := s2.switchPset c no.num
  let s3 := p.1.startNet c
  let k3 := s3.cams.at c
  if !accept then
    let s4 := s3.modCam c fun k => { k with
      frames := k.frames ++ [{ num := no.num, dropped := true, since := s.now }]
      drops := if no.second then k.drops else satInc 8 k.drops
      dropsSince := if no.second then k.dropsSince else satInc 16 k.dropsSince }
    if no.second then s4 else s4.event 0x050A 3 c [18 + c]
  else
    let ep := k3.epochAt no.num
    let x := s3.rfe.at k3.rfe
    let live := x.live.getD (psetDefault (bW k3.bind) (bH k3.bind))
    let f : Frame := { num := no.num, rfe := k3.rfe, tFs := s.dev, since := s.now, sensorFn := sensorFn % 2 ^ 16
                       tGroup := if bMember k3.bind then (s3.genlock.at (bGroup k3.bind)).stamp else 0
                       slip := no.slip, timeStep := step, psetLate := p.2, epoch := ep, drops := k3.dropsSince
                       pset := live, psetEpoch := fld live 2 2, psetTag := x.liveTag
                       taps := x.taps.map (·.desc), tapBuf := x.taps.map (·.turn) }
    (s3.modRfe k3.rfe fun x => { x with taps := x.taps.map Tap.rotate }).modCam c fun k => { k with
      frames := k.frames ++ [f.startPath (k.net.filter fun n => !n.ending) (bW k.bind)], lastAccepted := no.num, epoch := ep, dropsSince := 0 }

/-- A camera leaves at its frame start: nothing more is delivered, and the binding ends once its RFE has finished the frames that
have arrived (R235). -/
def State.leaveCam (s : State) (c : Nat) : State :=
  let k := s.cams.at c
  let s1 := s.modPort (bPort k.bind) fun p =>
    { p with vcMap := p.vcMap.map fun e => if e.valid && e.camera == c then { e with valid := false } else e }
  if k.frames.isEmpty then (s1.endCam c).gateUnused else s1.modCam c fun k => { k with leaving := true, unbindDue := false }

/-- A frame start reaches a camera. -/
def State.frameStart (s : State) (c sensorFn : Nat) : State :=
  let k := s.cams.at c
  if !k.live || k.leaving then s
  else
    let s1 := if k.open_ then s.endFrame c true else s
    if k.unbindDue then s1.leaveCam c
    else match k.stopDue with
      | some st =>
        let s2 := (s1.modCam c fun k => { k with stopped := true, stopDue := none }).event st 3 c [18 + c]
        if st = 0x0513 then
          ({ s2 with reliab := { s2.reliab with camStopped := sInsert s2.reliab.camStopped c } }).updateHealth
        else s2
      | none =>
        let s2 := match k.nextRfe with
          | some r =>
            let old := (s1.cams.at c).rfe
            let s2 := s1.modRfe r fun x => { x with enable := true, camera := c, cfa := bCfa k.bind, depth := bDepth k.bind
                                                    live := (s1.rfe.at old).live, liveTag := (s1.rfe.at old).liveTag
                                                    taps := (s1.rfe.at old).taps }
            (((s2.modRfe old fun x => { x with enable := false }).modCam c fun k => { k with rfe := r, nextRfe := none }).moveRfe old r).gateUnused
          | none => s1.modRfe k.rfe fun x => { x with enable := true, camera := c }
        let s3 := s2.leadAnchor c
        s3.openFrame c sensorFn (s3.startNo c)

/-- SENSOR_FRAME_START (R242). `sensorFn` is the 16-bit number of the frame-start packet. -/
def sensorFrameStartEffect (t c sensorFn : Nat) (s0 : State) : State :=
  let s := s0.at t
  if s.active then s.frameStart c sensorFn else s

def execSensorFrameStart (t c sensorFn : Nat) (s : State) : Out := .next (sensorFrameStartEffect t c sensorFn s)

/-! ## Frame ends (R232) -/

/-- SENSOR_FRAME_END (R232). -/
def sensorFrameEndEffect (t c : Nat) (s0 : State) : State :=
  let s := s0.at t
  if s.active && (s.cams.at c).live then s.endFrame c false else s

def execSensorFrameEnd (t c : Nat) (s : State) : Out := .next (sensorFrameEndEffect t c s)

/-- FRAME_TIMEOUT in ns: the binding's, or twice the profile's frame period (R232). -/
def Cam.timeoutNs (k : Cam) : Nat :=
  if bTimeoutMs k.bind = 0 then 2 * k.profile.periodNs else bTimeoutMs k.bind * 1000000

/-- The camera's open frame has gone FRAME_TIMEOUT without a frame end. -/
def Cam.timedOut (k : Cam) (now : Nat) : Bool :=
  k.open_ && match k.frames.getLast? with
    | some f => decide (f.since + k.timeoutNs ≤ now)
    | none => false

/-- A frame that has had no frame end within FRAME_TIMEOUT ends SHORT (R232). -/
def frameTimeoutEffect (t c : Nat) (s0 : State) : State :=
  let s := s0.at t
  if s.active && (s.cams.at c).live && (s.cams.at c).timedOut s.now then (s.endFrame c true).event 0x050C 3 c [18 + c] else s

def execFrameTimeout (t c : Nat) (s : State) : Out := .next (frameTimeoutEffect t c s)

/-! ## Packets (R228 to R231, R233, R254) -/

/-- The valid VC map entry of a port that names a virtual channel and, for a pixel packet, a data type. -/
def Port.route (p : Port) (vc : Nat) (dt : Option Nat) : Option Nat :=
  (p.vcMap.toList.find? fun e => e.valid && e.vc == vc && match dt with
    | some d => e.dataType == d
    | none => true).map (·.camera)

/-- A discarded packet is counted, and logged once per second at most (R230). -/
def State.unsupported (s : State) (p : Nat) : State :=
  (s.modPort p fun x => { x with unsupported := satInc 8 x.unsupported, lastStatus := 0x0514 }).noteRare 0x0514 3 p

/-- Embedded line 0 against the last eight requests and the start-up list: the newest match gives the epoch (R254). -/
def Cam.embeddedEpoch (k : Cam) (b : Bytes) : Option Nat :=
  let e := fld b k.profile.embExp 2
  let g := fld b k.profile.embGain 2
  match ((keepLast 8 k.seen).filter fun x => x.coarse == e && x.again == g).getLast? with
  | some x => some x.epoch
  | none => if k.profile.initCoarse = e ∧ k.profile.initAgain = g then some 0 else none

/-- An embedded-data line of a camera's open frame; none for one whose payload was discarded, which matches nothing (R231, R254; DEDUCED, log
entry 104). -/
def State.embeddedLine (s : State) (c : Nat) (b : Option Bytes) : State :=
  let k := s.cams.at c
  match k.frames.getLast? with
  | none => s
  | some f =>
    if !k.open_ ∨ f.dropped then s
    else
      let s1 := s.modCam c fun k => k.modOpen fun f => { f with embSeen := f.embSeen + 1 }
      if f.embSeen ≠ 0 ∨ !k.parsesEmbedded then s1
      else match b.bind k.embeddedEpoch with
        | some e => s1.modCam c fun k => { k.modOpen fun f => { f with epoch := e } with
            epoch := e, seen := k.seen.map fun x => if x.failed then { x with failed := false } else x }
        | none => s1.modCam c Cam.unmatchedEpoch

/-- A generic short packet on a mapped virtual channel: up to four are recorded in the frame's metadata (R230, R286). -/
def State.shortPacket (s : State) (c : Nat) (k : Packet) : State :=
  s.modCam c fun x => x.stampStep.modOpen fun f =>
    if f.shortPkts.length < 4 then
      { f with shortPkts := f.shortPkts ++ [leBytes 1 k.dataType ++ leBytes 1 k.vc ++ leBytes 2 k.data ++ zeros 4 ++ leBytes 8 s.dev] }
    else { f with shortLost := satInc 5 f.shortLost }

/-- A packet whose header is good, or has been corrected. -/
def State.routePacket (s : State) (p : Nat) (k : Packet) : State :=
  let x := s.ports.at p
  let dt := k.dataType
  if dt < 0x10 then
    match x.route k.vc none with
    | none => s
    | some c =>
      if dt = 0 then s.frameStart c k.data
      else if dt = 1 then (if (s.cams.at c).live then s.endFrame c false else s)
      else if dt = 2 ∨ dt = 3 then s.modPort p fun x => { x with lineOpen := dt == 2 }
      else if 8 ≤ dt ∧ (s.cams.at c).open_ then s.shortPacket c k
      else s
  else if dt = 0x10 ∨ dt = 0x11 then s
  else
    let pixel := 0x2A ≤ dt && dt ≤ 0x2E
    let dest := if 15 < k.vc then none else if pixel then x.route k.vc (some dt) else if dt = 0x12 then x.route k.vc none else none
    let s1 := if k.crcOk then s else s.modPort p fun x => { x with crcErrors := satInc 8 x.crcErrors }
    match dest with
    | none => s1.unsupported p
    | some c =>
      if !(s.cams.at c).live then s1
      else if pixel then
        s1.deliverLine c (if k.crcOk then some (unpackRaw (depthOf dt) k.payload) else none)
      else s1.embeddedLine c (if k.crcOk then some k.payload else none)

/-- A port receives a packet. -/
def csi2PacketEffect (t p : Nat) (k : Packet) (s0 : State) : State :=
  let s := s0.at t
  if !s.active || !(s.ports.at p).enable || !(s.ports.at p).locked then s
  else match k.header with
    | .good => s.routePacket p k
    | .corrected => (s.modPort p fun x => { x with eccCorrected := satInc 8 x.eccCorrected }).routePacket p k
    | .uncorrectable => s.modPort p fun x => { x with headerUnc := satInc 8 x.headerUnc }

/-- CSI2_PACKET_RECEIVE (R230). -/
def execCsi2PacketReceive (t p : Nat) (k : Packet) (s : State) : Out := .next (csi2PacketEffect t p k s)

/-! ## CAMERA_BIND, CAMERA_UNBIND (R24, R229, R233 to R235, R246, R270, R384) -/

/-- Bits a pixel counts as under R24. -/
def countedBits (depth : Nat) : Nat := if depth ≤ 12 then 12 else depth

/-- A camera's counted bits in its profile's frame period, and that period in ns. -/
def bitLoad (w h depth periodNs : Nat) : Nat × Nat := (w * h * countedBits depth * 1000000000, max periodNs 1)

/-- The ingest check of R24: one camera's pixels and the exact sum of all counted bits, per second. -/
def State.ingestOk (s : State) (b : Bytes) (p : SensorProfile) : Bool :=
  let loads := bitLoad (bW b) (bH b) (bDepth b) p.periodNs :: (s.cams.toList.filter (·.bound)).map fun k =>
    bitLoad (bW k.bind) (bH k.bind) (bDepth k.bind) k.profile.periodNs
  let sum : Nat × Nat := loads.foldl (fun acc x => (acc.1 * x.2 + x.1 * acc.2, acc.2 * x.2)) (0, 1)
  decide (bW b * bH b * 1000000000 ≤ 1600000000 * max p.periodNs 1 ∧ sum.1 ≤ 144000000000 * sum.2)

/-- The PHY settings lie within R228 and agree with those a port already runs (R229). -/
def State.phyOk (s : State) (b : Bytes) : Bool :=
  let x := s.ports.at (bPort b)
  (if bCphy b then bLanesM1 b != 3 && 80 ≤ bRate b && bRate b ≤ 6000
    else bLanesM1 b != 2 && 80 ≤ bRate b && bRate b ≤ 4500)
    && (!x.enable || (x.cphy == bCphy b && x.lanesM1 == bLanesM1 b && x.rate == bRate b))

/-- The I3C schedule check of R246: the sequences of every camera on the bus fit the shortest write window. -/
def State.scheduleOk (s : State) (b : Bytes) (p : SensorProfile) : Bool :=
  let ps := p :: (s.cams.toList.filter fun k => k.bound && bBus k.bind == bBus b).map (·.profile)
  let need := (ps.map fun q => q.dur 0 + q.dur 1).sum
  ps.all fun q => decide (need + q.winStart + q.winGuard ≤ q.blankNs)

/-- The reserved fields and the fields of R384 that no row of R234 names. -/
def bindMalformed (b : Bytes) : Bool :=
  bits (fld b 0 1) 4 4 != 0 || bits (fld b 1 1) 4 4 != 0 || bits (fld b 2 1) 6 2 != 0 || bits (fld b 3 1) 4 4 != 0
    || bits (fld b 5 1) 3 5 != 0 || 4 < bCfa b || bType b < 0x2A || 0x2E < bType b || 15 < bPolarity b
    || bits (fld b 0x0E 1) 3 5 != 0 || bit (fld b 0x0F 1) 7
    || bits (fld b 0x12 1) 6 2 != 0 || bits (fld b 0x13 1) 1 7 != 0 || 4294 < bTimeoutMs b
    || bits (fld b 0x18 8) 42 22 != 0 || bits (fld b 0x20 8) 44 20 != 0 || bits (fld b 0x28 8) 46 18 != 0
    || bits (fld b 0x30 8) 40 24 != 0 || !allZero (sub b 0x38 8) || bStatsBlocks b < 2 || bMetaEntries b < 2

/-- A later member names another anchor than the group's, or a second lead camera (R384). -/
def State.genlockClash (s : State) (b : Bytes) : Bool :=
  let q := s.genlock.at (bGroup b)
  bMember b && ((bPin b && bLead b) || (!q.members.isEmpty && bPin b != q.pin) || (bLead b && q.lead.isSome))

/-- The status of a binding's checks, in the order of R234; then R270 and R384, and a protection entry at least that is free (R477; log entry 40). -/
def State.bindStatus (s : State) (b : Bytes) : Nat :=
  let k := s.cams.at (bCam b)
  let p := aGet s.flash.profiles (bProfile b)
  let pr := p.getD {}
  if bindMalformed b then 0x0107
  else if k.bound || (s.rfe.at (bRfe b)).failed then 0x0501
  else if s.rfeUsed (bRfe b) then 0x0502
  else if p.isSome && !s.ingestOk b pr then 0x0503
  else if (s.ports.at (bPort b)).vcMap.toList.all (·.valid)
      || (s.ports.at (bPort b)).vcMap.toList.any (fun e => e.valid && e.vc == bVc b) then 0x0504
  else if !s.phyOk b then 0x0505
  else if bSpill b % 256 ≠ 0 || !s.dramFree (bSpill b) (bSpillFrames b * bFrameBytes b) then 0x0506
  else if bW b % 2 ≠ 0 || bW b < 64 || 8192 < bW b || bH b % 2 ≠ 0 || bH b < 16 || 8192 < bH b then 0x0505
  else if p.isNone || !pr.ok then 0x0507
  else if !s.scheduleOk b pr then 0x0508
  else if fifoBytes (bW b) 0 < 0x4_0000 then 0x0515
  else if s.genlockClash b then 0x0107
  else if s.prtFree.isEmpty then 0x0A0F
  else 0

/-- The camera joins its genlock group; the first member fixes the window and the anchor (R384). -/
def State.joinGroup (s : State) (b : Bytes) : State :=
  if !bMember b then s
  else { s with genlock := s.genlock.mod (bGroup b) fun q =>
    { q with members := sInsert q.members (bCam b)
             window := if q.members.isEmpty then bWindowUs b else q.window
             pin := if q.members.isEmpty then bPin b else q.pin
             lead := if bLead b then some (bCam b) else q.lead } }

/-- The first free VC map entry of a port takes a camera. -/
def Port.addEntry (p : Port) (e : VcEntry) : Port :=
  match findIdx (fun (x : VcEntry) => !x.valid) p.vcMap.toList 0 with
  | some i => { p with vcMap := p.vcMap.mod i fun _ => e }
  | none => p

/-- An I3C sensor is assigned the binding's dynamic address; a legacy device keeps its static one (R244, R247, R384). -/
def State.assignAddress (s : State) (c : Nat) : State :=
  let k := s.cams.at c
  if k.profile.i2c then s else s.emit (.busAddress (bBus k.bind) k.profile.static (bAddr k.bind))

/-- A binding that has passed its checks: the port is enabled at its first binding, the start-up list goes to the sensor, and the
binding completes once the port has locked (R229, R257). -/
def State.startBinding (s : State) (pr : Nat) (b : Bytes) : State :=
  let c := bCam b
  let k := s.cams.at c
  let s1 := s.modPort (bPort b) fun p =>
    let q := if p.enable then p else
      { p with enable := true, cphy := bCphy b, lanesM1 := bLanesM1 b, rate := bRate b, polarity := bPolarity b, laneMap := bLaneMap b }
    q.addEntry { valid := true, camera := c, vc := bVc b, dataType := bType b }
  let s2 := s1.modRfe (bRfe b) fun x => { camera := c, cfa := bCfa b, depth := bDepth b, parity := x.parity
                                          fallbacks := x.fallbacks, rejects := x.rejects, statsLost := x.statsLost }
  let s3 := (s2.joinGroup b).modCam c fun _ =>
    { bind := b, profile := (aGet s.flash.profiles (bProfile b)).getD {}, rfe := bRfe b, drops := k.drops, ringLost := k.ringLost }
  let s4 := (s3.assignAddress c).emit (.sensorStartup c (s3.cams.at c).profile.initAddr)
  if (s4.ports.at (bPort b)).locked then s4.answer pr 0
  else (s4.modCam c fun k => { k with waiting := some (pr, s.now) }).startReq pr

/-- The CAMERA_BIND request on a pair. A gated RFE is ungated first, and the request goes on once it is (R488). -/
def cameraBindEffect (t p : Nat) (s0 : State) : State :=
  let s := s0.at t
  match s.req? p 0x0020 with
  | none => s
  | some r =>
    let st := s.bindStatus r.payload
    if st ≠ 0 then s.answer p st
    else if s.power.rfeGated.at (bRfe r.payload) then s.beginUngate [.rfe (bRfe r.payload)]
    else s.startBinding p r.payload

/-- CAMERA_BIND (R234). -/
def execCameraBind (t p : Nat) (s : State) : Out := .next (cameraBindEffect t p s)

/-- The CAMERA_UNBIND request on a pair: it takes effect at the camera's next frame start (R235). -/
def cameraUnbindEffect (t p : Nat) (s0 : State) : State :=
  let s := s0.at t
  match s.req? p 0x0021 with
  | none => s
  | some r =>
    let c := fld r.payload 0 1
    if 15 < c ∨ !allZero (sub r.payload 1 3) then s.answer p 0x0107
    else
      let k := s.cams.at c
      if !k.bound ∨ k.waiting.isSome ∨ k.leaving then s.answer p 0x0513
      else if k.stopped then ((s.leaveCam c).answer p 0)
      else (s.modCam c fun k => { k with unbindDue := true }).answer p 0

/-- CAMERA_UNBIND (R235). -/
def execCameraUnbind (t p : Nat) (s : State) : Out := .next (cameraUnbindEffect t p s)

/-! ## SENSOR_PORT_LOCK, PORT_LOCK_TIMEOUT, SENSOR_PORT_FAILURE (R257) -/

/-- A binding that waited for its port is complete. -/
def State.finishBinding (s : State) (c : Nat) : State :=
  match (s.cams.at c).waiting with
  | some (p, _) => (s.modCam c fun k => { k with waiting := none }).answer p 0
  | none => s

/-- A port's PHY locks, completing initial deskew above 1.5 Gbps on D-PHY; the bindings that wait for it complete. -/
def portLockEffect (t p : Nat) (s0 : State) : State :=
  let s := s0.at t
  let x := s.ports.at p
  if !s.active || !x.enable || x.locked then s
  else
    let s1 := s.modPort p fun x => { x with locked := true, deskewed := !x.cphy && decide (1500 < x.rate) }
    (unitsWhere 16 fun c => (s.cams.at c).bound && bPort (s.cams.at c).bind == p).foldl State.finishBinding s1

/-- SENSOR_PORT_LOCK (R257). -/
def execSensorPortLock (t p : Nat) (s : State) : Out := .next (portLockEffect t p s)

/-- A camera's port has not locked within 100 ms of the sensor's stream start: the binding fails with 0x0509. -/
def lockTimeoutEffect (t c : Nat) (s0 : State) : State :=
  let s := s0.at t
  let k := s.cams.at c
  match k.waiting with
  | none => s
  | some (p, since) =>
    if !s.active || s.now < since + 100000000 then s
    else
      let s1 := s.modPort (bPort k.bind) fun x => { x with lastStatus := 0x0509 }
      (((s1.note 0x0509 3 c).unbindCam c).gateUnused).answer p 0x0509

/-- PORT_LOCK_TIMEOUT (R257). -/
def execPortLockTimeout (t c : Nat) (s : State) : Out := .next (lockTimeoutEffect t c s)

/-- A port, an I3C controller or a crossbar path fails in operation: only the cameras that use it stop, each at its next frame
start, with 0x0509, or 0x0512 for a controller. -/
def portFailureEffect (t : Nat) (u : IngressPart) (s0 : State) : State :=
  let s := s0.at t
  if !s.active then s
  else match u with
    | .port p => (unitsWhere 16 fun c => (s.cams.at c).bound && bPort (s.cams.at c).bind == p).foldl (fun s c => s.stopCam c 0x0509)
        (s.modPort p fun x => { x with locked := false, deskewed := false, lastStatus := 0x0509 })
    | .controller b => (unitsWhere 16 fun c => (s.cams.at c).bound && bBus (s.cams.at c).bind == b).foldl
        (fun s c => s.stopCam c 0x0512) s
    | .crossbar c => s.stopCam c 0x0509

/-- SENSOR_PORT_FAILURE (R257). -/
def execSensorPortFailure (t : Nat) (u : IngressPart) (s : State) : Out := .next (portFailureEffect t u s)

end Sys2Proof.Machine
end

