-- ==== Sys2Proof/Machine/Lantern.lean ====
section
/-! DEFINITION. Lantern, the field die: frames received and sent, channel states, trips, the loop step with its trajectories and loops, and
start-up (R410 to R424, R427). -/
namespace Sys2Proof.Machine
open Sys2Proof

/-! ## The configuration block (R423) -/

def LChan.flagBits (c : LChan) : Nat := fld c.block 2 1
def LChan.stepMode (c : LChan) : Bool := fld c.block 1 1 == 0
def LChan.hasEncoder (c : LChan) : Bool := bit c.flagBits 0
def LChan.activeHigh (c : LChan) : Bool := bit c.flagBits 2
/-- WATCHDOG_MS in ns; 0 selects 10 ms. -/
def LChan.watchdog (c : LChan) : Nat := (if fld c.block 4 2 = 0 then 10 else fld c.block 4 2) * 1000000
def LChan.posMin (c : LChan) : Int := toSigned 32 (fld c.block 0x20 4)
def LChan.posMax (c : LChan) : Int := toSigned 32 (fld c.block 0x24 4)
def LChan.codeMin (c : LChan) : Nat := fld c.block 0x14 2
def LChan.codeMax (c : LChan) : Nat := fld c.block 0x16 2
/-- ISCALE, of a motor or of a cooler. -/
def LChan.iscale (c : LChan) (motor : Bool) : Nat := if motor then fld c.block 0x1E 2 else fld c.block 0x12 2

/-- The fields that every block has lie in range. -/
def commonOk (b : Bytes) (kind : Nat) : Bool :=
  fld b 0 1 == kind && fld b 3 1 == 0 && fld b 4 2 ≤ 10000 && (fld b 6 2 == 0 || (100 ≤ fld b 6 2 && fld b 6 2 ≤ 10000))

/-- A motor's block; step mode ignores KP to I_MAX, PWM_KHZ and COUNTS_PER_CYCLE. -/
def motorOk (b : Bytes) : Bool :=
  commonOk b 1 && fld b 1 1 ≤ 1 && bits (fld b 2 1) 4 4 == 0 && fld b 8 4 != 0 && fld b 0xC 4 != 0 && fld b 0x10 4 != 0
    && decide (toSigned 32 (fld b 0x20 4) ≤ toSigned 32 (fld b 0x24 4)) && allZero (sub b 0x2E 18)
    && (fld b 1 1 == 0 || (20 ≤ fld b 0x2A 2 && fld b 0x2A 2 ≤ 100 && fld b 0x2C 2 != 0))

/-- A cooler's block. -/
def coolerOk (b : Bytes) : Bool :=
  commonOk b 2 && fld b 1 1 == 0 && bits (fld b 2 1) 1 7 == 0 && decide (fld b 0x14 2 < fld b 0x16 2)
    && 20 ≤ fld b 0x18 2 && fld b 0x18 2 ≤ 200 && fld b 0x1A 2 != 0 && allZero (sub b 0x1C 36)

/-- The check of ENABLE. -/
def blockOk (ch : Nat) (b : Bytes) : Bool := if ch < 4 then motorOk b else coolerOk b

/-! ## A channel -/

/-- The measured position: the encoder count, or the step count without an encoder. -/
def LChan.measured (c : LChan) : Int := if c.hasEncoder then c.enc else c.steps

/-- A limit input is active, by the level that the block configures. -/
def LChan.limPActive (c : LChan) : Bool := c.limP == c.activeHigh
def LChan.limNActive (c : LChan) : Bool := c.limN == c.activeHigh

/-- The codes of R418. -/
def ChanState.code : ChanState → Nat
  | .off => 0
  | .armed => 1
  | .run => 2
  | .ramp => 3
  | .tripped => 4

/-- A trip moves a channel in these states, and no other (R419). -/
def ChanState.tripable : ChanState → Bool
  | .armed | .run | .ramp => true
  | .off | .tripped => false

/-- A channel at rest with its enable low: every bridge output is at its off level, the profile stands at the measured position, and the step
count with it. -/
def LChan.rest (c : LChan) (st : ChanState) : LChan :=
  { c with state := st, enable := false, pending := [], pos := c.measured * 65536, vel := 0, steps := c.measured, sumE := 0, prevE := 0
           command := 0, duty := 0 }

/-! ## Frames that Lantern sends -/

/-- Lantern changed, and one channel of it. -/
def State.modLantern (s : State) (f : Lantern → Lantern) : State := { s with lantern := f s.lantern }
def State.modLChan (s : State) (ch : Nat) (f : LChan → LChan) : State := s.modLantern fun x => { x with chans := x.chans.mod ch f }
/-- Channel `ch` of Lantern. -/
def State.lchan (s : State) (ch : Nat) : LChan := s.lantern.chans.at ch

/-- Lantern sends a frame, with the next SEQ of its direction (R415). -/
def State.lanternSend (s : State) (type chan : Nat) (payload : Bytes) : State :=
  (s.emit (.fromLantern (frameOf type chan s.lantern.txSeq payload))).modLantern fun x => { x with txSeq := (x.txSeq + 1) % 2 ^ 16 }

/-- `n` bytes of a signed figure; one that the field cannot hold is free. -/
def State.intField (s : State) (n : Nat) (v : Int) : Bytes × State :=
  if -(2 ^ (8 * n - 1) : Int) ≤ v ∧ v < 2 ^ (8 * n - 1) then (leInt n v, s) else s.freeBytes n

/-- `num / den` as a whole number; between two of them, which one is free. -/
def State.wholeOf (s : State) (num : Int) (den : Nat) : Int × State :=
  if num % den = 0 then (num / den, s)
  else
    let r := s.freeBytes 1
    (num / den + b2n (bit (leNat r.1) 0), r.2)

/-- The POSITION of an EVENT: the motor's, or TEMP_CODE in [15:0]. -/
def State.eventPosition (s : State) (ch : Nat) : Bytes × State :=
  if ch < 4 then s.intField 4 (s.lchan ch).measured else (leBytes 4 (s.lchan ch).therm, s)

/-- An EVENT of a channel (R416). -/
def State.lanternEvent (s : State) (ch status : Nat) : State :=
  let p := s.eventPosition ch
  p.2.lanternSend 0x91 ch (leBytes 2 status ++ leBytes 1 (s.lchan ch).state.code ++ zeros 1 ++ p.1 ++ leBytes 4 s.lantern.step)

/-- LINK_STATUS, with the die temperature that the sensor gives (R416). -/
def State.sendLinkStatus (s : State) (temp : Bytes) : State :=
  let x := s.lantern
  s.lanternSend 0x92 7 (leBytes 1 (b2n x.boot + 2 * b2n x.selftestFail) ++ [Config.lanternVersion] ++ leBytes 2 x.vfieldMv ++ temp
    ++ leBytes 2 x.crcErr ++ leBytes 2 x.gap ++ leBytes 2 x.unknown ++ leBytes 2 x.malformed)

/-! ## Trips (R419) -/

/-- A trip: the enable and the outputs drop, and an EVENT is sent. -/
def State.tripChan (s : State) (ch status : Nat) : State :=
  if (s.lchan ch).state.tripable && decide (ch < 6) then
    (((s.modLChan ch fun c => c.rest .tripped).emit (.enable ch false)).emit (.bridgeOff ch)).lanternEvent ch status
  else s

/-- An active limit input trips its channel, and motion toward it stays refused after CLEAR_TRIP. An input that a trip has left blocked, and that
has stayed active since, is no new trip. -/
def State.limitTrip (s : State) (ch : Nat) (positive : Bool) : State :=
  let c := s.lchan ch
  if !c.state.tripable || (if positive then c.blockP else c.blockN) then s
  else (s.modLChan ch fun c => if positive then { c with blockP := true } else { c with blockN := true }).tripChan ch 0x0805

/-- The comparators that see an active limit or an over-current trip the channel. -/
def State.comparators (s : State) (ch : Nat) : State :=
  let c := s.lchan ch
  let s1 := if ch < 4 && c.limPActive then s.limitTrip ch true else s
  let s2 := if ch < 4 && c.limNActive then s1.limitTrip ch false else s1
  if c.overs then s2.tripChan ch 0x0806 else s2

/-- LIMIT_TRIP (R419): in any state, the input is active from now on. -/
def execLimitTrip (t ch : Nat) (positive : Bool) (s0 : State) : Out :=
  let s := s0.at t
  .next (if s.lantern.stage == .running && ch < 4 then
    (s.modLChan ch fun c => if positive then { c with limP := c.activeHigh } else { c with limN := c.activeHigh }).limitTrip ch positive
  else s)

/-- OVERCURRENT_TRIP (R419). -/
def execOvercurrentTrip (t ch : Nat) (s0 : State) : Out :=
  let s := s0.at t
  .next (if s.lantern.stage == .running && ch < 6 then (s.modLChan ch fun c => { c with overs := true }).tripChan ch 0x0806 else s)

/-- VFIELD_UNDERVOLTAGE_TRIP (R419): every channel that a trip can move. -/
def execVfieldUndervoltageTrip (t : Nat) (s0 : State) : Out :=
  let s := s0.at t
  .next (if s.lantern.stage == .running then (List.range 6).foldl (fun s ch => s.tripChan ch 0x080A) s else s)

/-! ## Frames that Lantern receives (R415, R418, R420, R421) -/

/-- A frame is accepted: its SEQ is the last accepted, what it skips adds to GAP, and nothing sent before it is still on the fibre. -/
def State.acceptFrame (s : State) (f : Bytes) : State :=
  (s.modLantern fun x => { x with rxSeq := some (fSeq f), gap := satAdd 16 x.gap (gapOf x.rxSeq (fSeq f)) }).modField fun x =>
    { x with sent := (x.sent.dropWhile (· != f)).drop 1 }

/-- What a frame of a type does to a Lantern that runs. Its frames are those that the link unit has sent, on the driver's requests and set-point
nodes (R30, R414); a frame that R415 discards, or one of another type, does nothing here. -/
def State.onFrame (s : State) (f : Bytes) (mine : Bool) (eff : State → State) : State :=
  if s.lantern.stage == .running && s.field.sent.contains f && frameVerdict true f == .good && mine then eff (s.acceptFrame f) else s

/-- The ACK of a frame, with the channel's state after the action; the link has no state, and its byte is free. -/
def State.lanternAck (s : State) (f : Bytes) (status : Nat) : State :=
  let st := if fChan f = 7 then s.freeBytes 1 else (leBytes 1 (s.lchan (fChan f)).state.code, s)
  st.2.lanternSend 0x90 (fChan f) (sub f 9 1 ++ leBytes 1 (fType f) ++ leBytes 2 status ++ leBytes 2 (fSeq f) ++ st.1)

/-- A set-point: kept for the next step, and restarting the watchdog; for a channel in OFF or TRIPPED discarded and counted, with an EVENT at most once
per second. -/
def State.takeSetpoint (s : State) (ch : Nat) (sp : Setpoint) : State :=
  let c := s.lchan ch
  match c.state with
  | .off | .tripped =>
    let s1 := s.modLChan ch fun c => { c with discards := c.discards + 1 }
    if c.lastDiscard.all fun d => decide (d + 1000000000 ≤ s.now) then
      (s1.modLChan ch fun c => { c with lastDiscard := some s.now }).lanternEvent ch 0x080C
    else s1
  | .armed | .run | .ramp =>
    s.modLChan ch fun c => { c with pending := sp :: (c.pending.filter fun x => x.arrived < s.now).take 1, lastSet := s.now }

/-- MOTOR_SETPOINT (R416, R418). -/
def execMotorSetpoint (t : Nat) (f : Bytes) (s0 : State) : Out :=
  .next ((s0.at t).onFrame f (fType f == 0x01) fun s => s.takeSetpoint (fChan f)
    { target := toSigned 32 (fld f 8 4), vlimit := fld f 0xC 4, alimit := fld f 0x10 4, frame := fld f 0x14 4, tag := fld f 0x18 2, arrived := s.now })

/-- COOLER_SETPOINT (R416, R418). -/
def execCoolerSetpoint (t : Nat) (f : Bytes) (s0 : State) : Out :=
  .next ((s0.at t).onFrame f (fType f == 0x02) fun s => s.takeSetpoint (fChan f)
    { target := fld f 8 2, frame := fld f 0xC 4, tag := fld f 0x10 2, arrived := s.now })

/-- CONFIG_WRITE (R420, R423): 16 bytes of the block of a channel that is OFF. -/
def execConfigWrite (t : Nat) (f : Bytes) (s0 : State) : Out :=
  .next ((s0.at t).onFrame f (fType f == 0x10) fun s =>
    if (s.lchan (fChan f)).state == .off then
      (s.modLChan (fChan f) fun c => { c with block := putBytes c.block (fld f 8 1) (sub f 0xC 16) }).lanternAck f 0
    else s.lanternAck f 0x0803)

/-- The frame is a CONTROL of an ACTION. -/
def isControl (f : Bytes) (action : Nat) : Bool := fType f == 0x11 && fld f 8 1 == action

/-- CONTROL_DISABLE (R418): in every state, with no ramp. -/
def execControlDisable (t : Nat) (f : Bytes) (s0 : State) : Out :=
  .next ((s0.at t).onFrame f (isControl f 0) fun s =>
    ((s.modLChan (fChan f) fun c => { c.rest .off with use := none, clamped := false, blockP := false, blockN := false }).emit
      (.enable (fChan f) false)).lanternAck f 0)

/-- A channel that passes ENABLE's check is ARMED, its profile at rest at the measured position; a limit or over-current that is present trips it
at once (R418, R419). -/
def State.arm (s : State) (ch : Nat) : State := (s.modLChan ch fun c => c.rest .armed).comparators ch

/-- CONTROL_ENABLE (R418, R420, R423). -/
def execControlEnable (t : Nat) (f : Bytes) (s0 : State) : Out :=
  .next ((s0.at t).onFrame f (isControl f 1) fun s =>
    let ch := fChan f
    if (s.lchan ch).state != .off then s.lanternAck f 0
    else if s.lantern.selftestFail then s.lanternAck f 0x080D
    else if !blockOk ch (s.lchan ch).block then s.lanternAck f 0x0802
    else (s.arm ch).lanternAck f 0)

/-- CONTROL_CLEAR_TRIP (R419, R420). -/
def execControlClearTrip (t : Nat) (f : Bytes) (s0 : State) : Out :=
  .next ((s0.at t).onFrame f (isControl f 2) fun s =>
    let c := s.lchan (fChan f)
    if c.state != .tripped then s.lanternAck f 0
    else if c.overs then s.lanternAck f 0x0806
    else (s.modLChan (fChan f) fun c => { c with state := .armed }).lanternAck f 0)

/-- CONTROL_SET_POSITION (R421): kept for the next loop step; the last set-point is forgotten. -/
def execControlSetPosition (t : Nat) (f : Bytes) (s0 : State) : Out :=
  .next ((s0.at t).onFrame f (isControl f 3) fun s =>
    let c := s.lchan (fChan f)
    if fChan f < 4 && c.state != .run && c.state != .ramp then
      (s.modLChan (fChan f) fun c => { c with reref := some (toSigned 32 (fld f 0xC 4)), pending := [] }).lanternAck f 0
    else s.lanternAck f 0x080E)

/-- LINK_ACK (R415, R416): Lantern clears BOOT. -/
def execLinkAck (t : Nat) (f : Bytes) (s0 : State) : Out :=
  .next ((s0.at t).onFrame f (isControl f 4) fun s => (s.modLantern fun x => { x with boot := false }).lanternAck f 0)

/-! ## The loops (R417, R418, R422) -/

/-- A SET_POSITION takes effect once the step has latched its counts, and the step count follows the profile. -/
def LChan.rereference (c : LChan) : LChan :=
  match c.reref with
  | none => c
  | some v => { c with reref := none, enc := v, steps := v, pos := v * 65536, vel := 0, sumE := 0, prevE := 0, use := none, clamped := false }

/-- The pins as a step latches them; an input that is no longer active lifts its block. A channel that the command gives no pins for keeps them. -/
def LChan.latch (c : LChan) (i : Option ChanIn) : LChan :=
  match i with
  | none => c
  | some i =>
    let c1 := { c with enc := if bit c.flagBits 1 then c.enc - i.enc else c.enc + i.enc
                       isa := i.isa % 4096, isb := i.isb % 4096, therm := i.therm % 65536, limP := i.limP, limN := i.limN, overs := i.overs }
    { c1 with blockP := c1.blockP && c1.limPActive, blockN := c1.blockN && c1.limNActive }

/-- The trip that a loop step finds: the following error, or TEMP_CODE out of range (R419). -/
def LChan.loopTrip (c : LChan) (motor : Bool) : Option Nat :=
  if motor then
    let lim := fld c.block 0x28 2
    if c.hasEncoder && lim != 0 && decide (lim * 65536 < (c.pos - c.measured * 65536).natAbs) then some 0x0807 else none
  else if c.therm < c.codeMin || c.codeMax < c.therm then some 0x0808 else none

/-- The newest set-point that was complete before the step, with the channel in RUN; a later one waits for the next step. -/
def LChan.takeNewest (c : LChan) (motor : Bool) (now : Nat) : LChan × Bool :=
  let aged := { c with age := min (c.age + 1) 0xFFFF }
  match c.pending.find? fun x => x.arrived < now with
  | none => (aged, false)
  | some sp =>
    let target := if motor then clampInt c.posMin c.posMax sp.target else sp.target
    let vl := if sp.vlimit = 0 then fld c.block 8 4 else sp.vlimit
    let sp1 := { sp with target := target, vlimit := if c.stepMode then min vl 1000000 else vl
                         alimit := if sp.alimit = 0 then fld c.block 0xC 4 else sp.alimit }
    ({ aged with pending := c.pending.filter fun x => now ≤ x.arrived, use := some sp1, age := 0, clamped := target != sp.target
                 state := .run, enable := true }, !c.enable)

/-- The step's sum of velocities from `u` down by `a` a step that still fits in `r`, spread over the steps it takes: the trapezoid's descent. -/
def descent (r a : Nat) : Nat :=
  let n := (isqrt (8 * r / a + 1) - 1) / 2
  (r + a * (n * (n + 1) / 2)) / (n + 1)

/-- The next profile velocity toward a distance of `d` (in 1/65,536 count) within the limits: trapezoidal, ending at the target (R422). -/
def nextVel (d v : Int) (a vl : Nat) : Int :=
  let sg : Int := if d < 0 then -1 else if 0 < d then 1 else if v < 0 then -1 else 1
  let u := sg * v
  let hi : Int := min (u + a) (max vl (u - a))
  let x : Int := min hi (descent (d.natAbs * 400000000 / 65536) (max a 1))
  -- a descent that falls short by less than one unit of the position grid is only the rounding of earlier steps
  let w := if hi ≤ 0 then hi else if 400000000 < (u - a - x) * 65536 then u - a else x
  sg * w

/-- The profile position after a step at a velocity, rounded to its grid to nearest, ties to even. -/
def nextPos (pos v : Int) : Int := rneDiv (pos * 400000000 + v * 65536) 400000000

/-- Motion toward a limit whose trip still blocks it. -/
def LChan.refuses (c : LChan) (d : Int) : Bool := (c.blockP && decide (0 < d)) || (c.blockN && decide (d < 0))

/-- The trajectory advances by one step; toward a blocked limit it stays where it is. -/
def LChan.advanceMotor (c : LChan) : LChan :=
  match c.use with
  | none => c
  | some sp =>
    let v0 := if c.refuses c.vel then 0 else c.vel
    let d := if c.refuses (sp.target * 65536 - c.pos) then 0 else sp.target * 65536 - c.pos
    let v := nextVel d v0 sp.alimit (sp.vlimit * 20000)
    { c with vel := v, pos := nextPos c.pos v }

/-- `v` moved toward zero by `k`. -/
def towardZero (v : Int) (k : Nat) : Int := if 0 ≤ v then max 0 (v - k) else min 0 (v + k)

/-- The current command of two-phase PWM mode; the sum is frozen while the command is clamped. -/
def LChan.pwm (c : LChan) : LChan :=
  let e := c.pos - c.measured * 65536
  let lim : Int := fld c.block 0x1A 2 * 2 ^ 24
  let cmd := (fld c.block 0x14 2 : Int) * e + fld c.block 0x16 2 * (c.sumE + e) + fld c.block 0x18 2 * (e - c.prevE)
  let out := clampInt (-lim) lim cmd
  { c with command := out, prevE := e, sumE := if out = cmd then c.sumE + e else c.sumE }

/-- The sum of an alternating series: `t` a term in 2^-64 and `k` its number, the next of which is -t x^2 / (k (k + 1)). -/
def altSeries (x : Int) : Nat → Nat → Int → Int
  | 0, _, _ => 0
  | fuel + 1, k, t => t + altSeries x fuel (k + 2) (-(t * (x * x) / 2 ^ 128) / ((k * (k + 1) : Nat) : Int))

/-- cos and sin, in 2^-64, of an angle of a quarter turn or less. -/
def cosSin (x : Int) : Int × Int := (altSeries x 16 1 (2 ^ 64), altSeries x 16 2 x)

/-- A quarter turn in 2^-64. -/
def quarterTurn : Nat := 28976077832308491370

/-- cos and sin of 2 pi n / m, in 2^-64 (R422). -/
def turnCosSin (n : Int) (m : Nat) : Int × Int :=
  let r := (n % m).toNat
  let cs := cosSin (((4 * r % m) * quarterTurn / m : Nat) : Int)
  match 4 * r / m with
  | 0 => cs
  | 1 => (-cs.2, cs.1)
  | 2 => (-cs.1, -cs.2)
  | _ => (cs.2, -cs.1)

/-- The phase currents: the command times cos and sin of the electrical angle. No rule gives their rounding: which of the two neighbouring figures a
phase takes is free (DESIGN CHOICE; log entry 74). -/
def State.phaseCurrents (s : State) (c : LChan) : Int × Int × State :=
  let cs := turnCosSin c.measured (max 1 (fld c.block 0x2C 2))
  let a := s.wholeOf (c.command * cs.1) (2 ^ 64)
  let b := a.2.wholeOf (c.command * cs.2) (2 ^ 64)
  (a.1, b.1, b.2)

/-- The cooler loop: the duty, clamped, not negative unless heating is allowed, and moved by at most SLEW; the sum is frozen while it is clamped. -/
def LChan.cool (c : LChan) (target : Int) : LChan :=
  let e := target - c.therm
  let lim : Int := fld c.block 0xC 2 * 256
  let raw := (fld c.block 8 2 : Int) * e + fld c.block 0xA 2 * (c.sumE + e)
  let d := clampInt (-lim) lim raw
  let want := if d < 0 ∧ !bit c.flagBits 0 then 0 else d
  let slew : Int := fld c.block 0xE 2 * 256
  { c with duty := clampInt (c.duty - slew) (c.duty + slew) want, sumE := if d = raw then c.sumE + e else c.sumE }

/-- The watchdog of a channel has expired (R418). -/
def LChan.expired (c : LChan) (now : Nat) : Bool := c.state == .run && c.lastSet + c.watchdog ≤ now

/-- The watchdog is checked: entry to RAMP sends an EVENT. -/
def State.checkWatchdog (s : State) (ch : Nat) : State :=
  if (s.lchan ch).expired s.now then (s.modLChan ch fun c => { c with state := .ramp }).lanternEvent ch 0x0809 else s

/-- A ramp advances; at zero the enable drops, the channel is ARMED and an EVENT is sent. -/
def State.advanceRamp (s : State) (ch : Nat) : State :=
  let c := s.lchan ch
  if (if ch < 4 then c.vel else c.duty) = 0 then
    ((s.modLChan ch fun c => { c with state := .armed, enable := false, sumE := 0, prevE := 0, command := 0 }).emit (.enable ch false)).lanternEvent
      ch 0x0809
  else s.modLChan ch fun c =>
    if ch < 4 then
      let v := towardZero c.vel (fld c.block 0x10 4)
      { c with vel := v, pos := nextPos c.pos v }
    else { c with duty := towardZero c.duty (fld c.block 0x1A 2 * 256) }

/-- The trajectory or the temperature loop advances (R417). -/
def State.advanceChan (s : State) (ch : Nat) : State :=
  match (s.lchan ch).state with
  | .run => s.modLChan ch fun c =>
    if ch < 4 then c.advanceMotor
    else match c.use with
      | some sp => c.cool sp.target
      | none => c
  | .ramp => s.advanceRamp ch
  | .off | .armed | .tripped => s

/-- A two-phase channel takes its new command, and its currents and duties go out. -/
def State.drivePhases (s : State) (ch : Nat) (c : LChan) : State :=
  let p := (s.modLChan ch fun _ => c).phaseCurrents c
  let d := p.2.2.freeBytes 4
  d.2.emit (.phases ch p.1 p.2.1 (fld c.block 0x2A 2) d.1)

/-- The outputs of a channel in RUN or RAMP: steps to the profile position rounded down, phase currents, or the duty (R413, R422). The inner current
loop's law is not given, and the duties it sets are free (DESIGN CHOICE; log entry 169). -/
def State.driveChan (s : State) (ch : Nat) : State :=
  let c := s.lchan ch
  if c.state == .run || c.state == .ramp then
    if 4 ≤ ch then s.emit (.duty ch c.duty)
    else if c.stepMode then
      let n := c.pos / 65536 - c.steps
      let s1 := s.modLChan ch fun c => { c with steps := c.pos / 65536 }
      if n = 0 then s1 else s1.emit (.steps ch (if bit c.flagBits 3 then -n else n))
    else s.drivePhases ch c.pwm
  else s

/-- A channel takes its newest set-point; its enable rises as it enters RUN. -/
def State.useSetpoint (s : State) (ch : Nat) : State :=
  if (s.lchan ch).state.tripable then
    let r := (s.lchan ch).takeNewest (decide (ch < 4)) s.now
    let s1 := s.modLChan ch fun _ => r.1
    if r.2 then s1.emit (.enable ch true) else s1
  else s.modLChan ch fun c => { c with pending := [], age := min (c.age + 1) 0xFFFF }

/-- The trips that a step finds come before the set-point: the trip wins. -/
def State.stepTrips (s : State) (ch : Nat) : State :=
  let s1 := s.comparators ch
  match (s1.lchan ch).loopTrip (decide (ch < 4)) with
  | some status => s1.tripChan ch status
  | none => s1

/-- One channel's loop step, in the order of R417. -/
def State.stepChan (s : State) (ch : Nat) (i : Option ChanIn) : State :=
  let s1 := (s.modLChan ch fun c => (c.latch i).rereference).stepTrips ch
  ((((s1.useSetpoint ch).checkWatchdog ch).advanceChan ch).driveChan ch)

/-- LOOP_STEP (R417): every channel, on one grid. -/
def execLoopStep (t : Nat) (ins : List ChanIn) (s0 : State) : Out :=
  let s := s0.at t
  .next (if s.lantern.stage == .running then
    (List.range 6).foldl (fun s ch => s.stepChan ch ins[ch]?) (s.modLantern fun x => { x with step := (x.step + 1) % 2 ^ 32 })
  else s)

/-- WATCHDOG_EXPIRY (R418). -/
def execWatchdogExpiry (t ch : Nat) (s0 : State) : Out :=
  let s := s0.at t
  .next (if s.lantern.stage == .running then s.checkWatchdog ch else s)

/-! ## Status frames (R427) -/

/-- CURRENT: signed mA, of a motor the larger magnitude of its phases. Of two equal magnitudes either is free. -/
def State.currentField (s : State) (ch : Nat) : Bytes × State :=
  let c := s.lchan ch
  let a : Int := ((c.isa : Int) - 2048) * c.iscale (decide (ch < 4))
  let b : Int := ((c.isb : Int) - 2048) * c.iscale (decide (ch < 4))
  let pick := if 4 ≤ ch || a = b || b.natAbs < a.natAbs then (a, s)
    else if a.natAbs < b.natAbs then (b, s)
    else let r := s.freeBytes 1; (if bit (leNat r.1) 0 then a else b, r.2)
  let w := pick.2.wholeOf pick.1 256
  w.2.intField 2 w.1

/-- FRAME, TAG and AGE of the set-point in use; with none in use they are free. -/
def State.useFields (s : State) (ch : Nat) : Bytes × State :=
  match (s.lchan ch).use with
  | some sp => (leBytes 4 sp.frame ++ leBytes 2 sp.tag ++ leBytes 2 (s.lchan ch).age, s)
  | none => s.freeBytes 8

/-- FLAGS of MOTOR_STATUS. -/
def LChan.statusFlags (c : LChan) : Nat :=
  b2n c.clamped + 2 * b2n c.limPActive + 4 * b2n c.limNActive + 8 * b2n (c.state.tripable && (c.blockP || c.blockN))

/-- A channel's status frame (R416). -/
def State.sendChanStatus (s : State) (ch : Nat) : State :=
  let c := s.lchan ch
  let cur := s.currentField ch
  let use := cur.2.useFields ch
  if ch < 4 then
    let p := use.2.intField 4 c.measured
    let v := p.2.wholeOf c.vel 20000
    let vf := v.2.intField 4 v.1
    vf.2.lanternSend 0x81 ch (p.1 ++ vf.1 ++ cur.1 ++ leBytes 1 c.state.code ++ leBytes 1 c.statusFlags ++ use.1)
  else
    let d := use.2.wholeOf c.duty 256
    let df := d.2.intField 2 d.1
    df.2.lanternSend 0x82 ch (leBytes 2 c.therm ++ df.1 ++ cur.1 ++ leBytes 1 c.state.code ++ zeros 1 ++ use.1)

/-- CHANNEL_STATUS_SEND (R427): of a channel that is not OFF, at each end of its period. -/
def execChannelStatusSend (t ch : Nat) (s0 : State) : Out :=
  let s := s0.at t
  .next (if s.lantern.stage == .running && ch < 6 && (s.lchan ch).state != .off then s.sendChanStatus ch else s)

/-- LINK_STATUS_SEND (R427): VFIELD and the die temperature as measured. -/
def execLinkStatusSend (t mv : Nat) (temp : Int) (s0 : State) : Out :=
  let s := s0.at t
  .next (if s.lantern.stage == .running then
    let s1 := s.modLantern fun x => { x with vfieldMv := mv }
    let tf := s1.intField 2 temp
    tf.2.sendLinkStatus tf.1
  else s)

/-! ## Reset and self-test (R412) -/

/-- LANTERN_RESET_RELEASE (R412): above 3.0 V Lantern leaves reset and tests itself. -/
def execLanternResetRelease (t mv : Nat) (s0 : State) : Out :=
  let s := s0.at t
  .next (if s.lantern.stage == .reset && 3000 < mv then s.modLantern fun x => { x with stage := .selftest, vfieldMv := mv } else s)

/-- LANTERN_RESET_ENTRY (R412): every channel is OFF with its enable low, and every block is lost. -/
def execLanternResetEntry (t : Nat) (s0 : State) : Out :=
  let s := s0.at t
  .next ((List.range 6).foldl (fun s ch => s.emit (.enable ch false)) { s with lantern := {} })

/-- LANTERN_SELFTEST_COMPLETE (R412, R415): the first LINK_STATUS, with BOOT set. The temperature it carries is free, and a frame that arrived before
is lost. -/
def execLanternSelftestComplete (t : Nat) (pass : Bool) (s0 : State) : Out :=
  let s := s0.at t
  .next (if s.lantern.stage == .selftest then
    let r := ((s.modLantern fun x => { x with stage := .running, selftestFail := !pass }).modField fun x => { x with sent := [] }).freeBytes 2
    r.2.sendLinkStatus r.1
  else s)

end Sys2Proof.Machine
end

