-- ==== Sys2Proof/Machine/Mailbox.lean ====
section
/-! DEFINITION. Mailbox opcodes that belong to no other family: identity, state, events, contexts, the cache share, the host window, DMA copies,
self-tests, telemetry, logs and DEVTIME (R380 to R382, R386 to R388, R470 to R473). -/
namespace Sys2Proof.Machine
open Sys2Proof

/-! ## IDENTIFY, GET_STATE (R381, R382) -/

/-- Usable DRAM: the region of R69 less the staging area that firmware holds (R381, R464). -/
def State.usableDram (s : State) : Nat := s.dramEnd - 0x40_0000

/-- Bytes 0x04 to 0x3F of the IDENTIFY response. -/
def State.identity (s : State) : Bytes :=
  leBytes 2 s.fuses.vendor ++ leBytes 2 0x7316 ++ leBytes 2 s.fuses.subVendor ++ leBytes 2 s.fuses.subId ++ leBytes 2 s.fuses.stepping
    ++ leBytes 2 s.fuses.ordering ++ leBytes 8 s.fuses.serial ++ leBytes 4 s.watch.fwVersion ++ leBytes 2 0x0100 ++ leBytes 1 s.watch.slot
    ++ leBytes 1 16 ++ leBytes 8 s.usableDram
    ++ leBytes 1 ((s.interfaces.map (2 ^ ·)).sum + 16 * b2n s.ecc) ++ leBytes 1 s.straps.module ++ zeros 22

/-- IDENTIFY (R381). -/
def execIdentify (t p : Nat) (s : State) : Out :=
  let s1 := s.at t
  .next (match s1.req? p 0x0001 with
    | some _ => s1.respond p 0 0 s1.identity
    | none => s1)

/-- Bytes 0x04 to 0x1F of the GET_STATE response. -/
def State.stateReport (s : State) : Bytes :=
  leBytes 1 s.pci.state.code ++ leBytes 1 s.reliab.health.code ++ leBytes 1 s.coresIn ++ leBytes 1 s.arraysIn ++ leBytes 8 s.dev
    ++ leBytes 2 s.pci.fatalStatus ++ leBytes 2 s.bf.graphs.length ++ leBytes 2 s.ctxFree ++ leBytes 2 s.bcnFree
    ++ leBytes 4 s.granulesInService ++ leBytes 4 s.pci.eventsLost

/-- GET_STATE (R382). -/
def execGetState (t p : Nat) (s : State) : Out :=
  let s1 := s.at t
  .next (match s1.req? p 0x0002 with
    | some _ => s1.respond p 0 0 s1.stateReport
    | none => s1)

/-! ## SET_EVENTS (R380, R386) -/

/-- The event pair and the enabled sources. -/
def setEventsEffect (t p : Nat) (s0 : State) : State :=
  let s := s0.at t
  match s.req? p 0x0003 with
  | none => s
  | some r =>
    let b := r.payload
    if bits (fld b 0 1) 4 4 ≠ 0 ∨ !allZero (sub b 1 3) then s.answer p 0x0107
    else (s.modPci fun x => { x with eventPair := bits (fld b 0 1) 0 4, eventMask := fld b 4 4 }).answer p 0

/-- SET_EVENTS (R380). -/
def execSetEvents (t p : Nat) (s : State) : Out := .next (setEventsEffect t p s)

/-! ## CONTEXT_READ (R37, R380) -/

/-- Up to 15 contexts as R37 lays them out; an index that is not in use reads as an IDLE context. -/
def contextReadEffect (t p : Nat) (s0 : State) : State :=
  let s := s0.at t
  match s.req? p 0x0015 with
  | none => s
  | some r =>
    let first := fld r.payload 0 2
    let n := fld r.payload 2 1 + 1
    if 15 < n ∨ fld r.payload 3 1 ≠ 0 ∨ 4096 < first + n then s.answer p 0x0107
    else s.respond p 0 0 ((List.range n).flatMap fun k => s.ctxBytes (first + k) ((s.ctx? (first + k)).getD {}))

/-- CONTEXT_READ (R380). -/
def execContextRead (t p : Nat) (s : State) : Out := .next (contextReadEffect t p s)

/-! ## SET_CACHE (R74, R75) -/

/-- The SET_CACHE request on a pair. -/
def setCacheEffect (t p : Nat) (s0 : State) : State :=
  let s := s0.at t
  match s.req? p 0x0016 with
  | none => s
  | some r =>
    let n := fld r.payload 0 1
    if 8 < n ∨ !allZero (sub r.payload 1 3) then s.answer p 0x0107
    else if !s.cacheFree then s.answer p 0x030D
    else (s.setCache n).answer p 0

/-- SET_CACHE (R75). -/
def execSetCache (t p : Nat) (s : State) : Out := .next (setCacheEffect t p s)

/-! ## HOST_WINDOW (R387, R388) -/

/-- A window entry is changed. BASE and SIZE of an entry that is made invalid are not checked (DEDUCED). -/
def hostWindowEffect (t p : Nat) (s0 : State) : State :=
  let s := s0.at t
  match s.req? p 0x0030 with
  | none => s
  | some r =>
    let b := r.payload
    let e := fld b 0 1
    let f := fld b 1 1
    let base := fld b 8 8
    let size := fld b 16 8
    if 63 < e ∨ bits f 2 6 ≠ 0 ∨ !allZero (sub b 2 6)
        ∨ (bit f 0 ∧ (base % 4096 ≠ 0 ∨ size % 4096 ≠ 0 ∨ size < 4096 ∨ 0x4000_0000 < size)) then s.answer p 0x0107
    else
      let w : HostWin := if bit f 0 then { valid := true, write := bit f 1, base := base, size := size } else {}
      (s.modPci fun x => { x with windows := x.windows.mod e fun _ => w }).answer p 0

/-- HOST_WINDOW (R388). -/
def execHostWindow (t p : Nat) (s : State) : Out := .next (hostWindowEffect t p s)

/-! ## DMA_COPY (R88, R89, R380) -/

/-- The request names an engine; its descriptors are checked when the engine takes them (DMA_WORK_ITEM_START). -/
def dmaCopyEffect (t p : Nat) (s0 : State) : State :=
  let s := s0.at t
  match s.req? p 0x0031 with
  | none => s
  | some r =>
    let e := fld r.payload 0 1
    if 11 < e ∨ !allZero (sub r.payload 1 7) then s.answer p 0x0107
    else if (s.mem.dma.at e).failed then s.answer p 0x090D
    else s.startReq p

/-- DMA_COPY (R380). -/
def execDmaCopy (t p : Nat) (s : State) : Out := .next (dmaCopyEffect t p s)

/-! ## SELFTEST (R155, R380) -/

/-- The array that KIND 0 or 1 and the unit byte name. -/
def arrayOfTest (kind u : Nat) : ArrayRef := if kind = 0 then .core u else .sne (u / 4) (u % 4)

/-- A test of an array: refused when named or when another test runs, answered at once when the array is lost already. -/
def State.startArrayTest (s : State) (p : Nat) (a : ArrayRef) : State :=
  let v := s.testOf a
  if v.retired then s.answerTest p (lostStatus a)
  else if s.arrayNamed a || v.selftest || v.rowDue.isSome || !s.arrayIdle a then s.answer p 0x010D
  else
    let o := s.openFor [arrayGate a]
    if o.1 then (o.2.beginTest a (some p)).startReq p else o.2

/-- A test of a vision engine. -/
def State.startVisionTest (s : State) (p u : Nat) : State :=
  let x := s.vis.at u
  if x.failed then s.answerTest p 0x0604
  else if s.unitNamed (.vis u) || x.selftest then s.answer p 0x010D
  else
    let o := s.openFor [.vis u]
    if o.1 then (o.2.modVis u fun x => { x with selftest := true, testPair := some p }).startReq p else o.2

/-- The SELFTEST request on a pair. A gated unit is ungated first, and the request goes on once it is (R488). -/
def selftestEffect (t p : Nat) (s0 : State) : State :=
  let s := s0.at t
  match s.req? p 0x0042 with
  | none => s
  | some r =>
    let kind := fld r.payload 0 1
    let u := fld r.payload 1 1
    if 2 < kind ∨ !allZero (sub r.payload 2 2) ∨ (if kind = 0 then 128 else if kind = 1 then 16 else 6) ≤ u then s.answer p 0x0107
    else if kind < 2 then s.startArrayTest p (arrayOfTest kind u)
    else s.startVisionTest p u

/-- SELFTEST (R380). -/
def execSelftest (t p : Nat) (s : State) : Out := .next (selftestEffect t p s)

/-! ## TELEMETRY (R467 to R470) -/

/-- The sensor that reads highest, the lowest-numbered on a tie (DEDUCED). -/
def hottest (l : List Int) : Nat :=
  let m := l.foldl max (l.headD 0)
  (findIdx (fun x => x == m) l 0).getD 0

/-- Bytes 0x04 to 0x7F of the TELEMETRY response; POWER_MW is the firmware's estimate, of which the manual gives no rule: free. -/
def State.telemetry (s : State) (power : Bytes) : Bytes :=
  leBytes 1 (hottest s.watch.temp.toList) ++ leBytes 1 ((s.watch.throttled.map fun x => 2 ^ x.1).sum) ++ leBytes 1 s.coresIn
    ++ leBytes 1 s.arraysIn ++ leBytes 8 s.watch.tempTime ++ s.watch.temp.toList.flatMap (fun v => leInt 2 v)
    ++ s.watch.volt.toList.flatMap (fun v => leBytes 2 v) ++ zeros 2 ++ power ++ zeros 16

/-- TELEMETRY (R470). -/
def execTelemetry (t p : Nat) (s : State) : Out :=
  let s1 := s.at t
  .next (match s1.req? p 0x0040 with
    | some _ => let f := s1.freeBytes 4; f.2.respond p 0 0 (f.2.telemetry f.1)
    | none => s1)

/-! ## LOG_READ (R471, R472) -/

/-- The response to a read of a log from a sequence number: DETAIL and the bytes from 0x04 on. -/
def Log.answer (l : Log) (first n : Nat) : Nat × Bytes :=
  let size := l.recs.length
  let oldest := (l.next + 2 ^ 32 - size) % 2 ^ 32
  let newest := (l.next + 2 ^ 32 - 1) % 2 ^ 32
  let d := toSigned 32 ((first + 2 ^ 32 - oldest) % 2 ^ 32)
  let older := decide (d < 0)
  let got := (l.recs.drop (if older then 0 else d.toNat)).take n
  (b2n older, leBytes 4 oldest ++ leBytes 4 newest ++ leBytes 2 got.length ++ zeros 2 ++ got.flatten)

/-- The LOG_READ request on a pair. -/
def logReadEffect (t p : Nat) (s0 : State) : State :=
  let s := s0.at t
  match s.req? p 0x0041 with
  | none => s
  | some r =>
    let b := r.payload
    if 1 < fld b 0 1 ∨ 126 < fld b 1 1 ∨ fld b 2 2 ≠ 0 then s.answer p 0x0107
    else
      let l := if fld b 0 1 = 0 then s.watch.errLog else s.watch.evLog
      let a := l.answer (fld b 4 4) (fld b 1 1 + 1)
      s.respond p 0 a.1 a.2

/-- LOG_READ (R472). -/
def execLogRead (t p : Nat) (s : State) : Out := .next (logReadEffect t p s)

/-! ## DEVTIME_READ, DEVTIME_STEP, DEVTIME_SLEW, DEVTIME_PPS, WT_DEVTIME_READ (R473) -/

/-- The response to a DEVTIME request. -/
def State.answerTime (s : State) (p status : Nat) : State :=
  s.respond p status 0 (zeros 4 ++ leBytes 8 s.dev ++ leInt 8 s.clock.ppsError)

/-- A DEVTIME request of a kind on a pair, with its VALUE. A request of no kind is refused whichever command carries it. -/
def State.devtimeReq (s : State) (p kind : Nat) (f : Nat → State → State) : State :=
  match s.req? p 0x0043 with
  | none => s
  | some r =>
    let k := fld r.payload 0 1
    if 3 < k ∨ !allZero (sub r.payload 1 7) then s.answer p 0x0107
    else if k = kind then f (fld r.payload 8 8) s
    else s

/-- Every camera notes that DEVTIME has stepped since its last stamp (R237). -/
def State.stepTime (s : State) (v : Nat) : State :=
  { s with clock := { s.clock with devtime := v, frac := 0 }, cams := s.cams.map fun k => { k with stepped := true } }

/-- DEVTIME_READ (R473). -/
def execDevtimeRead (t p : Nat) (s : State) : Out := .next ((s.at t).devtimeReq p 0 fun _ s => s.answerTime p 0)

/-- DEVTIME_STEP (R473): VALUE must lie ahead of the present value. -/
def execDevtimeStep (t p : Nat) (s : State) : Out :=
  .next ((s.at t).devtimeReq p 1 fun v s => if s.dev < v then (s.stepTime v).answerTime p 0 else s.answer p 0x0A0D)

/-- DEVTIME_SLEW (R473): the rate trim in ppb. -/
def execDevtimeSlew (t p : Nat) (s : State) : Out :=
  .next ((s.at t).devtimeReq p 2 fun v s =>
    let ppb := toSigned 64 v
    if -500000 ≤ ppb ∧ ppb ≤ 500000 then { s with clock := { s.clock with trimPpb := ppb, slewEnd := none } }.answerTime p 0
    else s.answer p 0x0A0D)

/-- DEVTIME_PPS (R473): discipline is enabled or disabled; any other VALUE is refused. -/
def execDevtimePps (t p : Nat) (s : State) : Out :=
  .next ((s.at t).devtimeReq p 3 fun v s =>
    if 1 < v then s.answer p 0x0107
    else
      { s with clock := { s.clock with ppsOn := v == 1, ppsLast := s.now, ppsLost := false, slewEnd := none } }.answerTime p 0)

/-- WT_DEVTIME_READ: a read of the lower word of WT_DEVTIME latches the upper. -/
def execWtDevtimeRead (t : Nat) (s : State) : Out :=
  let s1 := s.at t
  .next (if s1.hostReach then
    { s1 with clock := { s1.clock with latchedHi := s1.dev / 2 ^ 32 } }.emit (.regRead (s1.dev % 2 ^ 32)) else s1)

end Sys2Proof.Machine
end

