-- ==== Sys2Proof/Machine/Scu.lean ====
section
/-! DEFINITION. The commands of the sensor-control unit: exposure requests, their sequences on the I3C buses, completions, register
transfers and the IMU (chapter 09, R244 to R256). -/
namespace Sys2Proof.Machine
open Sys2Proof

/-! ## The request record (R249) -/

def eCam (b : Bytes) : Nat := bits (fld b 0 1) 0 4
def eGroup (b : Bytes) : Bool := bit (fld b 0 1) 4
def eExp (b : Bytes) : Bool := bit (fld b 1 1) 0
def eGain (b : Bytes) : Bool := bit (fld b 1 1) 1
def eTag (b : Bytes) : Nat := fld b 2 2
def eTarget (b : Bytes) : Nat := fld b 4 4
def eCoarse (b : Bytes) : Nat := fld b 8 4
def eFine (b : Bytes) : Nat := fld b 0x0C 2
def eAgain (b : Bytes) : Nat := fld b 0x0E 2
def eDgain (b : Bytes) : Nat := fld b 0x10 2
def eCompl (b : Bytes) : Nat := bits (fld b 0x18 8) 0 40

/-- A reserved field is set, or WHAT names nothing. -/
def exposureMalformed (b : Bytes) : Bool :=
  bits (fld b 0 1) 5 3 != 0 || bits (fld b 1 1) 2 6 != 0 || fld b 1 1 == 0 || !allZero (sub b 0x12 6)
    || bits (fld b 0x18 8) 40 24 != 0

/-- A requested value lies outside the profile's limits, or TARGET lies more than 1,024 frames ahead. -/
def Cam.exposureBad (k : Cam) (b : Bytes) : Bool :=
  (eExp b && (eCoarse b < k.profile.expMin || k.profile.expMax < eCoarse b))
    || (eGain b && (k.profile.againMax < eAgain b || k.profile.dgainMax < eDgain b))
    || (aheadOf (eTarget b) k.frameNo && 1024 < (eTarget b + 2 ^ 32 - k.frameNo) % 2 ^ 32)

/-- The cameras a request applies to: the camera, or its whole genlock group under GROUP. -/
def State.exposureCams (s : State) (b : Bytes) : List Nat :=
  let k := s.cams.at (eCam b)
  if eGroup b && bMember k.bind then (s.genlock.at (bGroup k.bind)).members else [eCam b]

/-! ## Schedules (R248, R251) -/

/-- A camera as its requests number frames: a member of a genlock group that has not started, or that has missed anchors, stands at its group's
number, which its next frame takes (R238, R239, R249; DEDUCED, log entry 156). -/
def State.camNow (s : State) (c : Nat) : Cam :=
  let k := s.cams.at c
  let g := (s.genlock.at (bGroup k.bind)).number
  if bMember k.bind && !(k.started && (k.frameNo == g || nextFrame k.frameNo == g)) then { k with frameNo := g } else k

/-- The measured period between the last two frame starts, or the profile's before there have been two. -/
def Cam.period (k : Cam) : Nat :=
  match k.fsPrev with
  | some p => k.fsLast - p
  | none => k.profile.periodNs

/-- The latest issue time of a sequence in the blanking after the current frame. -/
def Cam.latest (k : Cam) (kind : Nat) : Nat := k.fsLast + k.period - k.profile.winGuard - k.profile.dur kind

/-- Frames from the current one to the earliest whose sequence of latency `d` can still start in time. -/
def Cam.earliest (k : Cam) (kind d now : Nat) : Nat :=
  d + if k.started && k.latest kind < now then 1 else 0

/-- F' of a request for one camera (R251, R252): the earliest frame at or after `target` and the current frame whose windows are still
open, and at least one frame after any request whose writes have begun. -/
def Cam.achievedFrom (k : Cam) (target : Nat) (b : Bytes) (now : Nat) : Nat :=
  let n := k.frameNo
  let x0 := if aheadOf target n then (target + 2 ^ 32 - n) % 2 ^ 32 else 0
  let x1 := if eExp b then max x0 (k.earliest 0 k.profile.dE now) else x0
  let x2 := if eGain b then max x1 (k.earliest 1 k.profile.dG now) else x1
  let x3 := (k.pending.filter fun r => r.begun || r.retried).foldl (fun x r =>
    if aheadOf r.achieved n || r.achieved == n then max x ((r.achieved + 2 ^ 32 - n) % 2 ^ 32 + 1) else x) x2
  (n + x3) % 2 ^ 32

/-- F' of a new request. -/
def Cam.achieved (k : Cam) (b : Bytes) (now : Nat) : Nat := k.achievedFrom (eTarget b) b now

/-- The later of two frame numbers (R236). -/
def laterFrame (a b : Nat) : Nat := if aheadOf b a then b else a

/-- The epoch after `e` in the cycle 1 to 0xFFFE (R253). -/
def nextEpoch (e : Nat) : Nat := if 0xFFFE ≤ e then 1 else e + 1

/-! ## Completions (R255) -/

/-- The 16-byte completion record. -/
def ExpReq.record (r : ExpReq) (c status : Nat) : Bytes :=
  leBytes 2 status ++ leBytes 2 (eTag r.body) ++ leBytes 4 r.achieved ++ leBytes 2 r.epoch
    ++ leBytes 1 (b2n r.late + 2 * b2n r.retried + 4 * b2n r.group) ++ leBytes 1 c ++ leBytes 4 (r.doneDev % 2 ^ 32)

/-- A completion record is written to COMPL where it is named, and to the camera's ring of eight (R255). -/
def State.writeCompletion (s : State) (c : Nat) (r : ExpReq) (status : Nat) : State :=
  let k := s.cams.at c
  let b := r.record c status
  let s1 := if r.named ∧ eCompl r.body ≠ 0 then s.record initFirmware (eCompl r.body) b else s
  let s2 := s1.record initFirmware (bExpRing k.bind + 16 * (k.expRing % 8)) b
  s2.modCam c fun k => { k with expRing := k.expRing + 1
                                ringLost := if 8 ≤ k.expRing then satInc 32 k.ringLost else k.ringLost }

/-! ## Requests (R249 to R252) -/

/-- Pending requests of a camera that an accepted one supersedes: those at or after its frame whose writes have not begun (R252). -/
def Cam.superseded (k : Cam) (f : Nat) : List ExpReq :=
  k.pending.filter fun r => !r.begun && !r.retried && (r.achieved == f || aheadOf r.achieved f)

/-- A request is accepted for one camera, with its F' and its epoch. -/
def State.acceptExposure (s : State) (b : Bytes) (f epoch c : Nat) : State :=
  let k := s.cams.at c
  let old := k.superseded f
  let s1 := old.foldl (fun s r => s.writeCompletion c { r with doneDev := s.dev } 0x050F) s
  let s2 := if old.isEmpty then s1 else s1.raise (18 + c)
  let r : ExpReq := { body := b, epoch := epoch, achieved := f, late := f != eTarget b, group := eGroup b, named := c == eCam b }
  s2.modCam c fun k => { k with
    pending := (k.pending.filter fun x => !(old.contains x)) ++ [r]
    seen := k.seen ++ [{ achieved := f, epoch := epoch, coarse := eCoarse b, again := eAgain b }] }

/-- The counter of a camera's epochs: its group's, or its own (R253). -/
def State.epochCounterOf (s : State) (c : Nat) : Nat :=
  let k := s.cams.at c
  if bMember k.bind then (s.genlock.at (bGroup k.bind)).epochCounter else k.epochCounter

/-- The epoch counter of a camera, or of its group, set. -/
def State.setEpochCounter (s : State) (c e : Nat) : State :=
  let k := s.cams.at c
  if bMember k.bind then { s with genlock := s.genlock.mod (bGroup k.bind) fun q => { q with epochCounter := e } }
  else s.modCam c fun k => { k with epochCounter := e }

/-- An exposure request from the mailbox or a window: its status, the epoch it is given, and the state after. -/
def State.takeExposure (s : State) (b : Bytes) : Nat × Nat × State :=
  let c := eCam b
  if exposureMalformed b then (0x050D, 0, s)
  else if !(s.cams.at c).live || (s.cams.at c).leaving then (0x0513, 0, s)
  else
    let cs := s.exposureCams b
    if cs.any fun c => (s.camNow c).exposureBad b then (0x050D, 0, s)
    else if cs.any fun c => 16 ≤ (s.cams.at c).pending.length then (0x050E, 0, s)
    else
      let f := cs.foldl (fun f c => laterFrame f ((s.camNow c).achieved b s.now)) (s.camNow c).frameNo
      let e := nextEpoch (s.epochCounterOf c)
      (0, e, cs.foldl (fun s c => s.acceptExposure b f e c) (s.setEpochCounter c e))

/-- The EXPOSURE request on a pair. -/
def exposureEffect (t p : Nat) (s0 : State) : State :=
  let s := s0.at t
  match s.req? p 0x0024 with
  | none => s
  | some r =>
    let x := s.takeExposure r.payload
    if x.1 = 0 then x.2.2.respond p 0 0 (leBytes 2 x.2.1 ++ zeros 2) else s.answer p x.1

/-- EXPOSURE (R249). -/
def execExposure (t p : Nat) (s : State) : Out := .next (exposureEffect t p s)

/-- A write reaches SCU_REQ[c] from DMA engine `e`: one whole aligned write of 32 bytes is a request, any other returns 0x050D
(R250). The request is for the camera that its record names (R249). -/
def scuReqWriteEffect (t e a : Nat) (b : Bytes) (s0 : State) : State :=
  let s := s0.at t
  let st := s.accessStatus (initDma e) a b.length true
  if !s.active || 12 ≤ e || a < scuReqBase || scuReqBase + 16 * 32 ≤ a then s
  else if st ≠ 0 then (s.countRefusal (initDma e) st).windowFault e (if st = 0x0A10 then 0x0306 else st)
  else if b.length ≠ 32 ∨ a % 32 ≠ 0 then s.windowFault e 0x050D
  else
    let x := s.takeExposure b
    if x.1 = 0 then x.2.2 else s.windowFault e x.1

/-- SCU_REQ_WRITE (R250). -/
def execScuReqWrite (t e a : Nat) (b : Bytes) (s : State) : Out := .next (scuReqWriteEffect t e a b s)

/-! ## Sequences on the bus (R245, R246, R248, R251, R252) -/

/-- The camera is in the blanking after its current frame, in its write window: from FE + WIN_START to the predicted frame start less WIN_GUARD
(R248). -/
def Cam.inWindow (k : Cam) (now : Nat) : Bool :=
  match k.feLast with
  | some (n, te) => k.started && n == k.frameNo && decide (te + k.profile.winStart ≤ now ∧ now + k.profile.winGuard ≤ k.fsLast + k.period)
  | none => false

/-- The blanking in which a sequence of a request is due: that after F' - d. -/
def Cam.dueNow (k : Cam) (r : ExpReq) (d : Nat) : Bool := (r.achieved + 2 ^ 32 - d) % 2 ^ 32 == k.frameNo

/-- The sequences of a request that are still to be written: 0 exposure, 1 gain, each with its latency. -/
def Cam.sequencesLeft (k : Cam) (r : ExpReq) : List (Nat × Nat) :=
  (if eExp r.body && !r.expDone then [(0, k.profile.dE)] else []) ++ if eGain r.body && !r.gainDone then [(1, k.profile.dG)] else []

/-- The sequences that a request may issue now. -/
def Cam.sequencesDue (k : Cam) (r : ExpReq) (now : Nat) : List Nat :=
  ((k.sequencesLeft r).filter fun x => k.dueNow r x.2 && decide (now ≤ k.latest x.1)).map (·.1)

/-- A window of a request has passed with its sequence unwritten. -/
def Cam.lapsed (k : Cam) (r : ExpReq) (now : Nat) : Bool :=
  (k.sequencesLeft r).any fun x =>
    let due := (r.achieved + 2 ^ 32 - x.2) % 2 ^ 32
    aheadOf k.frameNo due || (due == k.frameNo && decide (k.latest x.1 < now))

/-- The pending sequences of a bus: latest issue time, camera, epoch and kind. -/
def State.busDue (s : State) (bus : Nat) : List (Nat × Nat × Nat × Nat) :=
  ((List.range 16).map fun c =>
    let k := s.cams.at c
    if k.live && bBus k.bind == bus && k.inWindow s.now then
      k.pending.flatMap fun r => (k.sequencesDue r s.now).map fun kind => (k.latest kind, c, r.epoch, kind)
    else []).flatten

/-- The first of the pending sequences: by latest issue time, then camera (R246). -/
def firstDue (l : List (Nat × Nat × Nat × Nat)) : Option (Nat × Nat × Nat × Nat) :=
  l.foldl (fun best x => match best with
    | none => some x
    | some y => if x.1 < y.1 ∨ (x.1 = y.1 ∧ x.2.1 < y.2.1) then some x else some y) none

/-- The value a template entry writes (R248). -/
def entryValue (e : Nat) (b : Bytes) : Nat :=
  let src := match bits e 16 4 with
    | 0 => eCoarse b
    | 1 => eFine b
    | 2 => eAgain b
    | 3 => eDgain b
    | _ => bits e 32 32
  src / 2 ^ bits e 24 5 % 2 ^ (8 * (bits e 22 2 + 1))

/-- The request a bus operation serves. -/
def Cam.reqOf (k : Cam) (epoch : Nat) : Option ExpReq := k.pending.find? (·.epoch == epoch)

/-- The transaction a bus operation is at goes out on the bus. -/
def State.issueTransaction (s : State) (bus : Nat) (o : BusOp) : State :=
  let k := s.cams.at o.cam
  let s1 := { s with scu := { s.scu with bus := s.scu.bus.mod bus fun _ => some { o with since := s.now } } }
  if o.kind = 2 then
    match k.xfers.head? with
    | some x => s1.emit (.i3c bus k.profile.i2c (bAddr k.bind) k.profile.addrBytes x.addr x.read (if x.read then zeros x.n else x.data))
    | none => s1
  else match k.reqOf o.epoch, (k.profile.seq o.kind)[o.entry]? with
    | some r, some e =>
      s1.emit (.i3c bus k.profile.i2c (bAddr k.bind) k.profile.addrBytes (bits e 0 16) false (leBytes (bits e 22 2 + 1) (entryValue e r.body)))
    | _, _ => s1

/-- A pending request of a camera changed. -/
def State.modReq (s : State) (c epoch : Nat) (f : ExpReq → ExpReq) : State :=
  s.modCam c fun k => { k with pending := k.pending.map fun r => if r.epoch = epoch then f r else r }

/-- The bus is idle again. -/
def State.freeBus (s : State) (bus : Nat) : State :=
  { s with scu := { s.scu with bus := s.scu.bus.mod bus fun _ => none } }

/-- A request leaves the pending list with its final status, to be written by EXPOSURE_SEQUENCE_COMPLETE. -/
def State.endRequest (s : State) (c : Nat) (r : ExpReq) (status : Nat) : State :=
  s.modCam c fun k => { k with
    pending := k.pending.filter (·.epoch != r.epoch)
    due := k.due ++ [{ req := { r with doneDev := s.dev }, status := status }]
    seen := k.seen.map fun x => if x.epoch = r.epoch then
      { x with achieved := r.achieved, written := status == 0, failed := status == 0x0510 } else x }

/-- A sequence that fails ends its request: once it is rescheduled whole at F' + 1, or at the first frame after it whose windows are still open; a
second failure ends it with 0x0510 (R251, R252; DEDUCED, log entry 105). -/
def State.failRequest (s : State) (c epoch : Nat) : State :=
  let k := s.cams.at c
  match k.reqOf epoch with
  | none => s
  | some r =>
    if r.retried then s.endRequest c r 0x0510
    else
      let f := k.achievedFrom (nextFrame r.achieved) r.body s.now
      s.modReq c epoch fun r => { r with retried := true, begun := false, expDone := false, gainDone := false, achieved := f }

/-- A request of which a window has passed unwritten is scheduled anew: at the next frame that R251 gives while its writes have not begun, as a
failed one otherwise (DEDUCED, log entry 105). -/
def State.relapse (s : State) (c : Nat) (r : ExpReq) : State :=
  let k := s.cams.at c
  if !k.lapsed r s.now then s
  else if r.begun then s.failRequest c r.epoch
  else s.modReq c r.epoch fun x => { x with achieved := k.achievedFrom r.achieved r.body s.now, late := true }

/-- The requests of a bus's cameras of which a window has passed are scheduled anew. -/
def State.relapseBus (s : State) (bus : Nat) : State :=
  (List.range 16).foldl (fun s c =>
    let k := s.cams.at c
    if k.live && bBus k.bind == bus then k.pending.foldl (fun s r => s.relapse c r) s else s) s

/-- An idle bus takes its next sequence; with none due, a register transfer of a camera in its window (R246, R380). -/
def sequenceIssueEffect (t bus : Nat) (s0 : State) : State :=
  let s := s0.at t
  if !s.active || 8 ≤ bus || (s.scu.bus.at bus).isSome then s
  else
    let s := s.relapseBus bus
    match firstDue (s.busDue bus) with
    | some (_, c, ep, kind) =>
      (s.modReq c ep fun r => { r with begun := true }).issueTransaction bus { cam := c, kind := kind, epoch := ep }
    | none =>
      match (List.range 16).find? fun c =>
        let k := s.cams.at c
        k.live && bBus k.bind == bus && k.inWindow s.now && !k.xfers.isEmpty with
      | some c => s.issueTransaction bus { cam := c, kind := 2 }
      | none => s

/-- EXPOSURE_SEQUENCE_ISSUE (R251). -/
def execExposureSequenceIssue (t bus : Nat) (s : State) : Out := .next (sequenceIssueEffect t bus s)

/-- A NACK or a timeout: two retries within the same write window, then the sequence ends with 0x0512 logged; so it does once the window is
over (R245). -/
def State.busFail (s : State) (bus : Nat) (o : BusOp) : State :=
  if o.tries < 2 ∧ (s.cams.at o.cam).inWindow s.now then s.issueTransaction bus { o with tries := o.tries + 1 }
  else
    let s1 := (s.freeBus bus).event 0x0512 3 o.cam [18 + o.cam]
    if o.kind = 2 then
      match (s.cams.at o.cam).xfers.head? with
      | some x => (s1.modCam o.cam fun k => { k with xfers := k.xfers.drop 1 }).respond x.pair 0x0512 0 []
      | none => s1
    else s1.failRequest o.cam o.epoch

/-- A transaction of a sequence has completed: the next entry follows, or the sequence is done. -/
def State.busNext (s : State) (bus : Nat) (o : BusOp) : State :=
  let k := s.cams.at o.cam
  if o.entry + 1 < (k.profile.seq o.kind).length then s.issueTransaction bus { o with entry := o.entry + 1, tries := 0 }
  else
    let s1 := (s.freeBus bus).modReq o.cam o.epoch fun r =>
      { r with expDone := r.expDone || o.kind == 0, gainDone := r.gainDone || o.kind == 1 }
    match (s1.cams.at o.cam).reqOf o.epoch with
    | some r => if (r.expDone || !eExp r.body) && (r.gainDone || !eGain r.body) then s1.endRequest o.cam r 0 else s1
    | none => s1

/-- A bus transaction ends, with an acknowledgement or a NACK; `data` is what a read returned. -/
def i3cCompleteEffect (t bus : Nat) (nack : Bool) (data : Bytes) (s0 : State) : State :=
  let s := s0.at t
  match s.scu.bus.at bus with
  | none => s
  | some o =>
    if !s.active then s
    else if nack then s.busFail bus o
    else if o.kind = 2 then
      match (s.cams.at o.cam).xfers.head? with
      | some x => ((s.freeBus bus).modCam o.cam fun k => { k with xfers := k.xfers.drop 1 }).respond x.pair 0 0
          (if x.read then padTo x.n data else [])
      | none => s.freeBus bus
    else s.busNext bus o

/-- I3C_TRANSACTION_COMPLETE (R245). -/
def execI3cTransactionComplete (t bus : Nat) (nack : Bool) (data : Bytes) (s : State) : Out :=
  .next (i3cCompleteEffect t bus nack data s)

/-- A bus transaction has lasted 1 ms. -/
def i3cTimeoutEffect (t bus : Nat) (s0 : State) : State :=
  let s := s0.at t
  match s.scu.bus.at bus with
  | none => s
  | some o => if s.active && decide (o.since + 1000000 ≤ s.now) then s.busFail bus o else s

/-- I3C_BUS_TIMEOUT (R245). -/
def execI3cBusTimeout (t bus : Nat) (s : State) : Out := .next (i3cTimeoutEffect t bus s)

/-- The completions that wait are written, and the sensor-event interrupt is raised once for the batch (R255). -/
def sequenceCompleteEffect (t c : Nat) (s0 : State) : State :=
  let s := s0.at t
  let k := s.cams.at c
  if !s.active || k.due.isEmpty then s
  else
    let s1 := k.due.foldl (fun s d => s.writeCompletion c d.req d.status) s
    let s2 := s1.modCam c fun k => { k with due := [] }
    if k.due.any (·.status == 0x0510) then s2.event 0x0510 3 c [18 + c] else s2.raise (18 + c)

/-- EXPOSURE_SEQUENCE_COMPLETE (R255). -/
def execExposureSequenceComplete (t c : Nat) (s : State) : Out := .next (sequenceCompleteEffect t c s)

/-! ## In-band interrupts, the IMU, register transfers (R244, R256, R380) -/

/-- I3C_IN_BAND_INTERRUPT (R244): passed to firmware. -/
def ibiEffect (t bus addr : Nat) (s0 : State) : State :=
  let s := s0.at t
  if s.active && decide (bus < 8) then { s with scu := { s.scu with ibi := s.scu.ibi ++ [(bus, addr % 128)] } } else s

def execI3cInBandInterrupt (t bus addr : Nat) (s : State) : Out := .next (ibiEffect t bus addr s)

/-- An IMU sample is stamped and its 32-byte record goes to the Dome ring named at configuration: the stamp, three rates, three
accelerations and the sequence number. The ring's base and entries come with the command. -/
def imuSampleEffect (t base entries : Nat) (rates accels : List Nat) (s0 : State) : State :=
  let s := s0.at t
  if !s.active || entries = 0 then s
  else
    let q := if s.scu.imuRing = some (base, entries) then s.scu
      else { s.scu with imuRing := some (base, entries), imuNext := 0 }
    let three := fun (l : List Nat) => ((List.range 3).map fun i => leBytes 2 (l.getD i 0)).flatten
    let b := leBytes 8 s.dev ++ three rates ++ three accels ++ leBytes 2 q.imuSeq
    let s1 := s.record initFirmware (base + 32 * q.imuNext) (padTo 32 b)
    { s1 with scu := { q with imuNext := (q.imuNext + 1) % entries, imuSeq := (q.imuSeq + 1) % 2 ^ 16 } }

/-- IMU_SAMPLE (R256). -/
def execImuSample (t base entries : Nat) (rates accels : List Nat) (s : State) : Out :=
  .next (imuSampleEffect t base entries rates accels s)

/-- The SENSOR_XFER request on a pair: carried out in the camera's next write window, after its exposure sequences. -/
def sensorXferEffect (t p : Nat) (s0 : State) : State :=
  let s := s0.at t
  match s.req? p 0x0027 with
  | none => s
  | some r =>
    let b := r.payload
    let c := fld b 0 1
    let read := bit (fld b 1 1) 0
    let n := fld b 4 2
    if 15 < c ∨ bits (fld b 1 1) 1 7 ≠ 0 ∨ fld b 6 2 ≠ 0 ∨ n = 0 ∨ 256 < n then s.answer p 0x0107
    else if b.length ≠ 8 + (if read then 0 else n) then s.answer p 0x0103
    else if !(s.cams.at c).live then s.answer p 0x0513
    else (s.modCam c fun k => { k with
      xfers := k.xfers ++ [{ pair := p, read := read, addr := fld b 2 2, n := n, data := sub b 8 n }] }).startReq p

/-- SENSOR_XFER (R380). -/
def execSensorXfer (t p : Nat) (s : State) : Out := .next (sensorXferEffect t p s)

end Sys2Proof.Machine
end

