-- ==== Sys2Proof/Machine/Sne.lean ====
section
/-! DEFINITION. The commands of the stripe network engines: bindings, weight loads, units, deadlines and faults (chapter 11). -/
namespace Sys2Proof.Machine
open Sys2Proof

/-! ## NETWORK_BIND, NETWORK_WEIGHT_LOAD_COMPLETE, NETWORK_UNBIND (R306 to R309) -/

/-- The checks of R307 in order, for a record with its header and the layers that firmware reads from its program. Within check 2 the header's QPOLICY
comes first, and layers that the operand does not give are admitted unchecked (DESIGN CHOICE, log entries 117 and 139). The sums of checks 5 to 9
run over every camera bound to the SNE, one that re-admission has refused among them (R301, R302, R314). A binding that passes them all needs one protection
entry at least that is free (R477; log entry 40). -/
def State.netChecks (s : State) (r h : Bytes) (headerStatus : Nat) (layers : List NetLayer) : NetVerdict :=
  let c := nCam r
  let k := s.cams.at c
  let sn := nSne r
  if netRecBad r || headerStatus ≠ 0 || headerBad h || !s.imageOk sn (nImage r) h then { check := 1, status := 0x0419 }
  else if 1 < hQpolicy h then { check := 2, status := 0x0416 }
  else if layersStatus (layers.take (hLayers h)) ≠ 0 then { check := 2, status := layersStatus (layers.take (hLayers h)) }
  else if k.bound && bCfa k.bind ≠ hCfa h then { check := 3, status := 0x041F }
  else if !k.bound || k.leaving || k.net.isSome || (s.sne.at sn).failed then { check := 4, status := 0x0425 }
  else (s.netFits (s.netsOn sn) (s.netsOn sn) (c, r, h) (s.sne.at sn).inService).getD { status := if s.prtFree.isEmpty then 0x0A0F else 0 }

/-- The response to a network binding (R308). -/
def State.answerNet (s : State) (p : Nat) (v : NetVerdict) : State := s.respond p v.status v.check v.tail

/-- The NETWORK_BIND request on a pair: a binding that passes its checks starts the weight load. -/
def networkBindEffect (t p : Nat) (layers : List NetLayer) (s0 : State) : State :=
  let s := s0.at t
  match s.req? p 0x0022 with
  | none => s
  | some q =>
    let r := q.payload
    let h := s.read initFirmware (nImage r) 64
    let v := s.netChecks r h.1 h.2.1 layers
    if v.status ≠ 0 then s.answerNet p v
    else
      -- a gated SNE is ungated first, and the request goes on once it is
      let sn := nSne r
      if s.gated (.sne sn) then s.beginUngate [.sne sn]
      else ((s.modCam (nCam r) fun k => { k with net := some { bindRec := r, header := h.1, program := layers.take (hLayers h.1), pair := some p } }).moveSne (nCam r) sn).startReq p

/-- NETWORK_BIND (R307). -/
def execNetworkBind (t p : Nat) (layers : List NetLayer) (s : State) : Out := .next (networkBindEffect t p layers s)

/-- The first place in a weight store where `n` bytes fit beside the images already there. -/
def storePlace (images : List (Nat × Nat × Nat)) (n : Nat) : Option Nat :=
  let ends := 0 :: images.map fun i => i.2.1 + i.2.2
  let ok := fun (o : Nat) => decide (o + n ≤ 786432) && images.all fun i => decide (o + n ≤ i.2.1 ∨ i.2.1 + i.2.2 ≤ o)
  (ends.filter ok).foldl (fun (b : Option Nat) o => match b with
    | some x => some (min x o)
    | none => some o) none

/-- The images of a store moved together from its start, each to its place and length. -/
def packedImages (images : List (Nat × Nat × Nat)) : List (Nat × Nat × Nat) :=
  (images.foldl (fun (acc : List (Nat × Nat × Nat) × Nat) i => (acc.1 ++ [(i.1, acc.2, i.2.2)], acc.2 + i.2.2)) ([], 0)).1

/-- Firmware moves an SNE's images together, so that what is free lies in one piece (R300; DESIGN CHOICE, log entry 154). -/
def State.packStore (s : State) (sn : Nat) : State :=
  let base := 0x42_0000_0000 + sn * 0x10_0000
  let old := (s.sne.at sn).images
  let new := packedImages old
  ((old.zip new).foldl (fun x p => x.poke (base + p.2.2.1) (s.peek (base + p.1.2.1) p.1.2.2)) s).modSne sn fun x => { x with images := new }

/-- An image's weights are copied into the SNE's store by its DMA engine, to the place they have there or to a free one. -/
def State.loadWeights (s : State) (sn image : Nat) (h : Bytes) : State :=
  let imgs := (s.sne.at sn).images
  let held := (imgs.find? (·.1 == image)).map (·.2.1)
  let s1 := if held.isNone && (storePlace imgs (hWeights h)).isNone then s.packStore sn else s
  let off := (held <|> storePlace (s1.sne.at sn).images (hWeights h)).getD 0
  let rd := s1.read (initDma (s1.sneDma sn)) (image + hWeightOff h) (hWeights h)
  (rd.2.2.poke (0x42_0000_0000 + sn * 0x10_0000 + off) rd.1).modSne sn fun x =>
    { x with images := (x.images.filter (·.1 != image)) ++ [(image, off, hWeights h)] }

/-- An SNE's store holds an image. -/
def State.imageHeld (s : State) (sn image : Nat) : Bool := (s.sne.at sn).images.any (·.1 == image)

/-- A network's weights are loaded, once for all its cameras, and verified against CHECK, and so is its layer program: the camera takes the
network path from its next frame start (R300, R309). -/
def weightLoadEffect (t c : Nat) (s0 : State) : State :=
  let s := s0.at t
  match (s.cams.at c).net with
  | none => s
  | some n =>
    match n.pair with
    | none => s
    | some p =>
      let sn := nSne n.bindRec
      let img := nImage n.bindRec
      if !s.active then s
      else if !s.imageOk sn img n.header then
        (((s.modCam c fun k => { k with net := some { n with pair := none } }).dropNet c).gateUnused).answerNet p { check := 1, status := 0x0419 }
      else
        let s1 := if s.imageHeld sn img then s else s.loadWeights sn img n.header
        (s1.modCam c fun k => { k with net := some { n with
          pair := none, loaded := true, code := s.peek (img + hProgOff n.header) (hProgBytes n.header) } }).answerNet p {}

/-- NETWORK_WEIGHT_LOAD_COMPLETE (R309). -/
def execNetworkWeightLoadComplete (t c : Nat) (s : State) : Out := .next (weightLoadEffect t c s)

/-- The NETWORK_UNBIND request on a pair: it takes effect at the camera's next frame start. -/
def networkUnbindEffect (t p : Nat) (s0 : State) : State :=
  let s := s0.at t
  match s.req? p 0x0023 with
  | none => s
  | some q =>
    let c := fld q.payload 0 1
    if 15 < c ∨ !allZero (sub q.payload 1 3) then s.answer p 0x0107
    else match (s.cams.at c).net with
      | none => s.answer p 0x0425
      | some n => (s.modCam c fun k => { k with net := some { n with unbindDue := true } }).answer p 0

/-- NETWORK_UNBIND (R309). -/
def execNetworkUnbind (t p : Nat) (s : State) : Out := .next (networkUnbindEffect t p s)

/-! ## SNE_UNIT_START, SNE_UNIT_COMPLETE, ROW_GROUP_DEADLINE (R297, R298, R303, R304, R310 to R312) -/

/-- A choice of R304: deadline, RANK, camera and row-group. -/
abbrev Choice := Nat × Nat × Nat × Nat

/-- One choice ranks before another. -/
def Choice.before (x y : Choice) : Bool :=
  x.1 < y.1 || (x.1 == y.1 && (x.2.1 < y.2.1 || (x.2.1 == y.2.1 && (x.2.2.1 < y.2.2.1 || (x.2.2.1 == y.2.2.1 && x.2.2.2 < y.2.2.2)))))

/-- The row-groups an SNE may serve now (R304). -/
def State.sneChoices (s : State) (sn : Nat) : List Choice :=
  (List.range 16).flatMap fun c =>
    let k := s.cams.at c
    match k.net, k.frames with
    | some n, f :: _ =>
      if nSne n.bindRec = sn ∧ n.active then
        (n.groups.filter fun g => decide (g.next < f.stripes ∧ s.now ≤ g.deadline)).map fun g => (g.deadline, nRank n.bindRec, c, g.index)
      else []
    | _, _ => []

/-- A row-group of a camera's network changed. -/
def Net.modGroup (n : Net) (i : Nat) (f : RowGroup → RowGroup) : Net :=
  { n with groups := n.groups.map fun g => if g.index = i then f g else g }

/-- An idle SNE takes its next unit: the lowest unstarted stripe of the ready row-group with the earliest deadline, whose input fills the stripe buffers
anew (R304, R434). -/
def unitStartEffect (t sn : Nat) (s0 : State) : State :=
  let s := s0.at t
  let x := s.sne.at sn
  if !s.active || x.unit.isSome || x.inService = 0 then s
  else match (s.sneChoices sn).foldl (fun (b : Option Choice) y => match b with
      | some z => if Choice.before y z then some y else b
      | none => some y) none with
    | none => s
    | some (_, _, c, gi) =>
      let k := s.cams.at c
      match k.net.bind fun n => n.groups.find? (·.index == gi) with
      | none => s
      | some g =>
        (({ s with mem := { s.mem with bad := s.mem.bad.filter fun b => b / 0x4_0000 != (0x42_000C_0000 + sn * 0x10_0000) / 0x4_0000 } } : State).modCam c
          fun k => { k with net := k.net.map fun n => n.modGroup gi fun g => { g with next := g.next + 1 } }).modSne sn fun x =>
          { x with unit := some { cam := c, frame := ((k.frames.head?).map (·.num)).getD 0, group := gi, stripe := g.next } }

/-- SNE_UNIT_START (R304). -/
def execSneUnitStart (t sn : Nat) (s : State) : Out := .next (unitStartEffect t sn s)

/-- Layer counts added to those of the frame (R315). -/
def addLayers (l : List LayerCount) (xs : List LayerCount) : List LayerCount :=
  xs.foldl (fun l x =>
    if l.any (·.layer == x.layer) then l.map fun y => if y.layer = x.layer then
      { y with sat := y.sat + x.sat, small := y.small + x.small, nonzero := y.nonzero + x.nonzero, invalid := y.invalid + x.invalid
               values := y.values + x.values } else y
    else l ++ [x]) l

/-- Units not returned by their deadline, counted; the camera switches with REASON 2, and after eight such switches within a second its
network is suspended (R310, R312). -/
def State.missDeadline (s : State) (c gi : Nat) : State :=
  let k := s.cams.at c
  match k.net, k.frames with
  | some n, f :: _ =>
    match n.groups.find? (·.index == gi) with
    | none => s
    | some g =>
      let sn := nSne n.bindRec
      let s1 := s.modSne sn fun x => { x with misses := satAdd 8 x.misses (f.stripes - g.merged) }
      let recent := (n.misses.filter fun m => decide (s.now < m + 1000000000)) ++ [s.now]
      let s2 := (s1.fallBack c 2).modCam c fun k => { k with net := k.net.map fun n => { n with misses := recent } }
      if 8 ≤ recent.length then
        ((s2.modCam c fun k => { k with net := k.net.map fun n => { n with suspended := true } }).modSne sn fun x =>
          { x with lastStatus := 0x0424 }).event 0x0424 2 sn [50] (leBytes 1 c)
      else s2
  | _, _ => s

/-- The unit in progress of an SNE writes nothing; its camera. -/
def State.dropUnit (s : State) (sn : Nat) : State := s.modSne sn fun x => { x with unit := none }

/-- Cameras whose network on an SNE is of an image. -/
def State.imageCams (s : State) (sn image : Nat) : List Nat :=
  ((s.netsOn sn).filter fun x => nImage x.2.1 == image).map (·.1)

/-- The image whose weights an SNE was reading: the unit's, or the lowest-addressed one loaded. -/
def State.readingImage (s : State) (sn : Nat) : Option Nat :=
  match (s.sne.at sn).unit with
  | some u => (s.cams.at u.cam).net.map fun n => nImage n.bindRec
  | none => ((s.sne.at sn).images.map (·.1)).foldl (fun (b : Option Nat) i => match b with
      | some x => some (min x i)
      | none => some i) none

/-- An uncorrectable word of the stripe buffers: the unit in progress writes nothing, and its camera falls back (R310). -/
def State.bufferUe (s : State) (sn : Nat) : State :=
  let cur := match (s.sne.at sn).unit with
    | some u => [u.cam]
    | none => []
  let s1 := (s.dropUnit sn).modSne sn fun x => { x with storeUe := satInc 8 x.storeUe, lastStatus := 0x0421 }
  ((s1.countUncorrectable 0x0902 (0x42_000C_0000 + sn * 0x10_0000) sn).note 0x0421 2 sn).switchAll cur

/-- An uncorrectable word of the weights: they are loaded again, and every camera whose network is of the image falls back (R310). -/
def State.weightUe (s : State) (sn : Nat) : State :=
  let img := s.readingImage sn
  let s1 := (s.dropUnit sn).modSne sn fun x => { x with storeUe := satInc 8 x.storeUe, lastStatus := 0x0421 }
  let s2 := (s1.countUncorrectable 0x0902 (0x42_0000_0000 + sn * 0x10_0000) sn).note 0x0421 2 sn
  match img with
  | none => s2
  | some i =>
    let cs := s.imageCams sn i
    (cs.foldl (fun s c => s.modCam c fun k => { k with net := k.net.map fun n => { n with reloading := true } }) s2).switchAll cs

/-- The words that a unit of an SNE reads: its image in the weight store, and the stripe buffers. -/
def State.weightsBad (s : State) (sn : Nat) : Bool :=
  match s.readingImage sn with
  | some i => (s.sne.at sn).images.any fun x => x.1 == i && s.isBad (0x42_0000_0000 + sn * 0x10_0000 + x.2.1) x.2.2
  | none => false

/-- The output of the unit in progress, a stripe of a row-group, leaves the stripe port: merged into stage 7 when its camera is still on the network path
and the deadline has not passed; a late unit switches the camera (R268, R303). Its codes and its drains' counts are one function of the image and the unit's input (R298). -/
def unitCompleteEffect (t sn group stripe : Nat) (s0 : State) : State :=
  let s := s0.at t
  match (s.sne.at sn).unit.filter fun u => u.group == group && u.stripe == stripe with
  | none => s
  | some u =>
    let s1 := s.modSne sn fun x => { x with unit := none }
    let k := s1.cams.at u.cam
    if s.active && s.weightsBad sn then s.weightUe sn
    else if s.active && s.isBad (0x42_000C_0000 + sn * 0x10_0000) 0x4_0000 then s.bufferUe sn
    else
    match k.net, k.frames with
    | some n, f :: _ =>
      if !s.active || !n.active || f.num != u.frame || f.switchUnit.isSome || f.classical then s1
      else match n.groups.find? (·.index == u.group) with
        | none => s1
        | some g =>
          if g.deadline < s.now then s1.missDeadline u.cam u.group
          else
            let full := g.merged + 1 == f.stripes
            let image := s.netImage n
            let input := stripeInput n.header (f.raw k) u.group u.stripe
            let n1 := { n.modGroup u.group (fun g => { g with merged := g.merged + 1 }) with
              unitsNet := n.unitsNet + 1, layers := addLayers n.layers (stripeCounts (hLayers n.header) image input)
              minSlack := if full then some (min (n.minSlack.getD 0xFFFFFFFF) (g.deadline - s.now)) else n.minSlack }
            let n2 := { n1 with groups := if full then n1.groups.filter (·.index != u.group) else n1.groups }
            let s2 := s1.modCam u.cam fun k => { k.modHead fun f => { f with
              merged := aSet f.merged (u.group * f.stripes + u.stripe) (stripeOutput n.header image input (f.raw k) u.group u.stripe) } with net := some n2 }
            s2.returnGroups u.cam k.groupsN
    | _, _ => s1

/-- SNE_UNIT_COMPLETE (R298). -/
def execSneUnitComplete (t sn group stripe : Nat) (s : State) : Out := .next (unitCompleteEffect t sn group stripe s)

/-- A row-group's deadline has passed without its units returned: the camera falls back. -/
def rowGroupDeadlineEffect (t c : Nat) (s0 : State) : State :=
  let s := s0.at t
  match (s.cams.at c).net with
  | none => s
  | some n =>
    match n.groups.find? fun g => decide (g.deadline < s.now) with
    | none => s
    | some g => if s.active && n.active then s.missDeadline c g.index else s

/-- ROW_GROUP_DEADLINE (R303). -/
def execRowGroupDeadline (t c : Nat) (s : State) : Out := .next (rowGroupDeadlineEffect t c s)

/-! ## SNE_FAULT, SNE_WEIGHT_RELOAD_COMPLETE (R310) -/

/-- A fault of an SNE. -/
def sneFaultEffect (t sn : Nat) (f : SneFault) (s0 : State) : State :=
  let s := s0.at t
  let x := s.sne.at sn
  if !s.active || x.failed then s
  else
    let cur := match x.unit with
      | some u => [u.cam]
      | none => []
    match f with
    | .arrayParity a row =>
      let s1 := s.modSne sn fun x => { x with
        parity := satInc 8 x.parity, unit := none, lastStatus := 0x0420
        arrays := x.arrays.mod a fun y => { y with selftest := true, suspect := row } }
      (((s1.logError 0x0420 10 (4 * sn + a) 3 0 0xFFFF 0 (row.getD 0) 0).note 0x0420 2 sn).switchAll cur).updateHealth
    | .buffers => s.bufferUe sn
    | .weights => s.weightUe sn
    | .control => s.failSne sn
    | .corrected off bit => s.noteCorrected (.correctable bit) (0x42_0000_0000 + sn * 0x10_0000 + off % 0x10_0000)

/-- SNE_FAULT (R310). -/
def execSneFault (t sn : Nat) (f : SneFault) (s : State) : Out := .next (sneFaultEffect t sn f s)

/-- A weight reload from an image ends: its networks may return, or the check fails and they are suspended with 0x041E. -/
def weightReloadEffect (t sn image : Nat) (s0 : State) : State :=
  let s := s0.at t
  let cs := (s.imageCams sn image).filter fun c => ((s.cams.at c).net.map (·.reloading)).getD false
  match cs.head?.bind fun c => (s.cams.at c).net with
  | none => s
  | some n =>
    if !s.active then s
    else
      let ok := s.imageOk sn image n.header
      let s1 := cs.foldl (fun s c => s.modCam c fun k => { k with net := k.net.map fun n =>
        { n with reloading := false, suspended := n.suspended || !ok } }) s
      if ok then (s1.loadWeights sn image n.header).modSne sn fun x => { x with reloads := satInc 8 x.reloads }
      else (s1.modSne sn fun x => { x with reloads := satInc 8 x.reloads, lastStatus := 0x041E }).event 0x041E 2 sn [50]

/-- SNE_WEIGHT_RELOAD_COMPLETE (R310). -/
def execSneWeightReloadComplete (t sn image : Nat) (s : State) : Out := .next (weightReloadEffect t sn image s)

end Sys2Proof.Machine
end

