-- ==== Sys2Proof/Machine/Spire.lean ====
section
/-! DEFINITION. The commands of the Spire cores and of macro execution (chapters 05 to 08). -/
namespace Sys2Proof.Machine
open Sys2Proof

/-! ## MACRO_START (R165, R171, R178, R184, R221) -/

/-- Macros `j` and `k` lie in one quadrant stretch: every descriptor from one to the other has QMODE set (R184). -/
def State.sameStretch (s : State) (c : Ctx) (j k : Nat) : Bool :=
  (List.range (k + 1 - j)).all fun l => mQmode (s.macroDesc c (j + l))

/-- A quadrant of the node has aborted. -/
def State.quadGone (s : State) (i q : Nat) : Bool := (aGet s.spire i).any fun n => n.aborted.any fun x => x.1 == q

/-- Macro `j` leaves macro `k` free to start: complete, or a whole-array macro started with NO_BARRIER before another, or in another quadrant of one
stretch, or in a quadrant that has aborted (R139, R158, R159, R165, R184). -/
def State.barrierPassed (s : State) (i : Nat) (c : Ctx) (j k : Nat) : Bool :=
  let dj := s.macroDesc c j
  let dk := s.macroDesc c k
  (s.macro? i j).any (fun m => m.phase == .complete || (mNoBarrier m.desc && !mQmode m.desc && !mQmode dk))
    || (mQmode dj && s.quadGone i (mQuad dj)) || (s.sameStretch c j k && mQuad dj != mQuad dk)

/-- The status of the extent checks of R171 for one Steeple's engine: unmapped and retired targets, protection, overlap. -/
def State.macroExtents (s : State) (d : Bytes) (wide : Bool) (st : Nat) : Nat :=
  let es := mItems d wide
  let maps := es.map fun e => s.mapStatus e.2.addr e.2.len e.2.write
  match maps.find? (· ≠ 0) with
  | some x => x
  | none =>
    if !(es.all fun e => s.allowed (initDma st) e.2.addr e.2.len e.2.write) then 0x0306
    else if es.any fun r => !r.2.write && es.any fun w => w.2.write && r.2.addr < w.2.addr + w.2.len && w.2.addr < r.2.addr + r.2.len
        && !mCoincides d r w then 0x0307
    else 0

/-- The choice of R221 from the word at WFLAG_IN: A as written, the wide alternate with its WSHIFT, or a mismatch. -/
def dualChoice (d : Bytes) (w : Nat) : Option (Option Nat) :=
  if bits w 12 20 ≠ 0 ∨ bits w 1 3 ≠ 0 then none
  else if bit w 0 then (if bits w 4 4 = mAltFmt d then some (some (bits w 8 4)) else none)
  else if bits w 4 8 ≠ 0 then none
  else some none

/-- A macro enters its node: its work counter is reset, a quadrant macro's lane is given every tile in order, and the core enters
quadrant mode (R158, R178, R184). -/
def State.enterMacro (s : State) (i k : Nat) (c : Ctx) (d : Bytes) (wide : Option Nat) : State :=
  let m : MacroRun := { desc := d, wideIn := wide }
  let s1 := { s with spire := aMod s.spire i fun n => { n with macros := aSet n.macros k m } }
  if mQmode d then
    let core := c.cores.headD 0
    (s1.enterQuad i core).modLane core (mQuad d) fun l =>
      { l with macroIx := some k, runs := [{ macroIx := k, first := 0, last := mTiles d m.view.aFmt false }], passGap := 0, loaded := none }
  else match s1.mapped? c (mWctr d), s1.macroCounter c d with
    | none, some n => s1.setCounter n 0
    | _, _ => s1

/-- Nothing of the core's own stands in the way of macro `k`: a quadrant macro wants a ready core whose whole array is idle and a quadrant that has not
aborted; a whole-array macro wants no core in quadrant mode (R139, R154, R158, R159). -/
def State.coresFree (s : State) (i k : Nat) (c : Ctx) : Bool :=
  let d := s.macroDesc c k
  let core := c.cores.headD 0
  if mQmode d then s.coreReady core && !s.quadGone i (mQuad d) && (s.lane core 4).macroIx.isNone && (s.lane core 4).runs.isEmpty
  else c.cores.all fun x => !(s.spc.at x).quadMode

/-- The start of macro `k` of the node in context `i`. -/
def macroStartEffect (t i k : Nat) (s0 : State) : State :=
  let s := s0.at t
  match s.ctx? i with
  | none => s
  | some c =>
    let core := c.cores.headD 0
    if !s.active || c.state != .running || c.draining || c.type != 4 || c.workCount ≤ k || (s.macro? i k).isSome
        || !((List.range k).all fun j => s.barrierPassed i c j k) || !s.coresFree i k c then s
    else
      let r := s.readElem c k
      if r.2.1 ≠ 0 then r.2.2.unitFault i r.2.1
      else
        let d := r.1
        let f := if mDual d then r.2.2.read (initDma (core / 16)) (scratchBase + 4 * mWfIn d) 4 else (zeros 4, 0, r.2.2)
        let failed := fun (s : State) (st : Nat) =>
          ({ s with spire := aMod s.spire i fun n => { n with macros := aSet n.macros k { desc := d } } } : State).macroFault i k st
        if f.2.1 ≠ 0 then failed f.2.2 (if f.2.1 = 0x0A10 then 0x0306 else if f.2.1 = 0x0902 then 0x0308 else f.2.1)
        else match (if mDual d then dualChoice d (leNat f.1) else some none) with
          | none => failed f.2.2 0x0418
          | some wide =>
            let sts := ((c.cores.map (· / 16)).eraseDups).map (f.2.2.macroExtents d wide.isSome)
            match sts.find? (· ≠ 0) with
            | some st => failed f.2.2 st
            | none => f.2.2.enterMacro i k c d wide

/-- MACRO_START (R165). -/
def execMacroStart (t i k : Nat) (s : State) : Out := .next (macroStartEffect t i k s)

/-! ## TILE_CLAIM (R165, R178 to R180) -/

/-- An earlier macro of the node has a redo entry that the core takes before it claims from a later one (R165, R178). -/
def State.earlierRedo (s : State) (i k core : Nat) : Bool :=
  (List.range k).any fun j => (s.macro? i j).any fun m => !m.redo.isEmpty && !(s.spc.at core).fenced.contains (i, j)

/-- The core may claim from macro `k`: it is in the unit set, ready, not fenced for it, holds at most two runs with fewer than two tiles ahead, and has
found nothing left to claim of any earlier macro but those of a quadrant that has aborted (R159, R165, R178, R179). -/
def State.mayClaim (s : State) (i k core : Nat) (c : Ctx) (m : MacroRun) : Bool :=
  let x := s.spc.at core
  let l := x.lanes.at 4
  bit c.unitMask core && s.coreReady core && !x.fenced.contains (i, k) && !mQmode m.desc && m.tilesRun
    && l.runs.length < 3 && l.ahead < 2
    && !s.earlierRedo i k core && (List.range k).all fun j => (mQmode (s.macroDesc c j) && s.quadGone i (mQuad (s.macroDesc c j)))
        || (s.macro? i j).any fun n => n.phase == .complete || n.exhausted.contains core || x.fenced.contains (i, j)

/-- A lane has nothing more to do with a macro. -/
def Lane.release (l : Lane) (k : Nat) : Lane :=
  if l.macroIx = some k then { l with macroIx := (l.runs.head?).map (·.macroIx) } else l

/-- A macro completes. -/
def State.completeMacro (s : State) (i k : Nat) : State :=
  let s1 := s.modMacro i k fun m => { m with phase := .complete }
  match s.ctx? i with
  | none => s1
  | some c => c.cores.foldl (fun s core => s.modSpc core fun x => { x with lastStatus := 0, lanes := x.lanes.map fun l => l.release k }) s1

/-- A macro shares its counter with other modules, and this node's part is over: a claim has found the counter past the last tile, and no claim, run or
redo entry of the node is open (R402, R403). -/
def State.shareDone (s : State) (i k : Nat) (m : MacroRun) : Bool :=
  match s.ctx? i with
  | some c =>
    ((s.mapped? c (mWctr m.desc)).isSome || s.exported c (mWctr m.desc)) && !m.exhausted.isEmpty && m.claims.isEmpty && m.redo.isEmpty
      && c.cores.all fun core => (s.lane core 4).runs.all fun r => r.macroIx != k
  | none => false

/-- Every tile of the phase is complete: the reduction is due, or the verdicts are, or the end of a macro that has none (R182, R210,
R211). -/
def State.phaseDone (s : State) (i k : Nat) : State :=
  match s.macro? i k with
  | none => s
  | some m =>
    if m.done.length < m.total && !s.shareDone i k m then s
    else if m.phase = .tiles ∧ mSplitk m.desc then s.modMacro i k fun m => { m with phase := .reduce }
    else if mOp m.desc = 9 then
      if mWflagOut m.desc then s.modMacro i k fun m => { m with phase := .flag } else s.completeMacro i k
    else s.modMacro i k fun m => { m with phase := .verdict }

/-- A run joins a core's claims. -/
def State.giveRun (s : State) (core k : Nat) (r : TileRun) : State :=
  s.modLane core 4 fun l => { l with macroIx := some k, runs := l.runs ++ [{ r with macroIx := k }] }

/-- The run that a FETCH_ADD returned joins the core's claims; beyond the last tile the core has nothing more to claim, which may end the node's part
of a shared macro (R178, R403). -/
def State.takeRun (s : State) (i k core first : Nat) (m : MacroRun) : State :=
  if first < m.total then s.giveRun core k { first := first, last := min (first + mRun m.desc) m.total }
  else (s.modMacro i k fun m => { m with exhausted := sInsert m.exhausted core }).phaseDone i k

/-- A core's FETCH_ADD leaves for the home of a mapped counter; a home that cannot be reached ends the node (R402, R409). -/
def State.sendClaim (s : State) (i k core : Nat) (c : Ctx) (m : MacroRun) (mp : CtrMap) : State :=
  if s.portServes c.graph mp.home then
    (s.modMacro i k fun m => { m with claims := m.claims ++ [core] }).sendOn (s.portTo mp.home) (.remoteFetchAdd mp.home mp.imp (mRun m.desc))
  else s.unitFault i 0x0704

/-- The reply to a core's FETCH_ADD arrives. The run of a core that has left the macro meanwhile goes to the redo list (R179, R402, R435). -/
def State.claimReply (s : State) (i k core : Nat) (m : MacroRun) (mp : CtrMap) (r : ClaimReply) : State :=
  let s1 := s.modMacro i k fun m => { m with claims := m.claims.erase core }
  if (s.peer.at (s.portTo mp.home)).retrain then s
  else match r with
  | .issue => s
  | .uncorrectable => s1.unitFault i 0x0911
  | .value first =>
    if (s.spc.at core).fenced.contains (i, k) && decide (first < m.total) then
      (s1.modMacro i k fun m => { m with
        redo := addRedo m.redo [{ first := first, last := min (first + mRun m.desc) m.total, macroIx := k, redo := true }] }).redoCheck i
    else s1.takeRun i k core first m

/-- A core claims its next run: the lowest redo entry, or a FETCH_ADD on the macro's counter; on a counter mapped onto another module the FETCH_ADD leaves,
and its reply comes later (R402). -/
def tileClaimEffect (t i k core : Nat) (err : ReadErr) (reply : ClaimReply) (s0 : State) : State :=
  let s := s0.at t
  match s.ctx? i, s.macro? i k with
  | some c, some m =>
    if !s.active || c.state != .running || c.draining then s
    else if m.claims.contains core then match s.mapped? c (mWctr m.desc) with
      | some mp => s.claimReply i k core m mp reply
      | none => s
    else if !s.mayClaim i k core c m then s
    else match m.redo with
      | r :: rest =>
        (s.modMacro i k fun m => { m with redo := rest }).giveRun core k { r with redo := true }
      | [] =>
        match s.mapped? c (mWctr m.desc), s.macroCounter c m.desc with
        | some mp, _ => s.sendClaim i k core c m mp
        | none, none => s
        | none, some n =>
          if err = .uncorrectable ∨ s.counterBad n = true then s.counterUe n (some i)
          else
            let first := s.counter n
            ((s.noteCorrected err (counterAddr n)).setCounter n (first + mRun m.desc)).takeRun i k core first m
  | _, _ => s

/-- TILE_CLAIM (R178). -/
def execTileClaim (t i k core : Nat) (err : ReadErr) (reply : ClaimReply) (s : State) : Out :=
  .next (tileClaimEffect t i k core err reply s)

/-! ## TILE_START (R94, R186, R521) -/

/-- Passes of a tile's group: those of the array, one for MMV, none for the rest. -/
def MacroRun.passCount (m : MacroRun) (tc : Nat × Nat × Nat) : Nat :=
  if mOp m.desc = 2 ∧ m.phase ≠ .drain then 1 else (m.view.passes tc.1 tc.2.1 tc.2.2).length + m.view.passes2

/-- A tile's coordinates in the macro's present phase (R173). -/
def MacroRun.coords (m : MacroRun) (tile : Nat) : Nat × Nat × Nat := tileCoords m.desc m.view.aFmt (m.phase == .tiles) tile

/-- Every pass of the tile has issued. -/
def TileProg.issued (tp : TileProg) (m : MacroRun) : Bool :=
  let tc := m.coords tp.tile
  mGroups m.desc tc.1 ≤ tp.fill.index || (mGroups m.desc tc.1 == tp.fill.index + 1 && m.passCount tc ≤ tp.fill.pass)

/-- Groups of a tile that fill or wait for the drain (R143). -/
def TileProg.undrained (tp : TileProg) (groups : Nat) : Nat := b2n tp.full.isSome + b2n (decide (tp.fill.index < groups ∧ 0 < tp.fill.pass))

/-- The lane's next tile takes the place of the one whose passes have all issued, which goes on draining (R143). -/
def Lane.begin (l : Lane) (tp : TileProg) : Lane := { l with tile := some tp, prevs := l.prevs ++ l.tile.toList }

/-- A tile begins with its operands staged; the engine fetches ahead. -/
def tileStartEffect (t core q : Nat) (f : TileFetch) (s0 : State) : State :=
  let s := s0.at t
  match s.nodeOfCore core with
  | none => s
  | some (i, c) =>
    let l := s.lane core q
    match l.order[l.busy]? with
    | none => s
    | some (k, tile, redo) =>
      let ready := match l.tile with
        | none => true
        | some tp => (s.macro? i tp.macroIx).any tp.issued
      if !s.active || c.state != .running || c.draining || !ready || !(s.macro? i k).any MacroRun.tilesRun || !s.coreReady core then s
      else
        let s1 := (s.noteCorrected f.err f.addr).stageAhead core q f.err f.addr 3
        match (s1.lane core q).stagedAt k tile with
        | none => s1
        | some _ =>
          (s1.modLane core q fun l => l.begin { macroIx := k, tile := tile, redo := redo }).modMacro i k fun m =>
            { m with tFirst := if m.tFirst.isSome then m.tFirst else some s.dev
                     stall := aSet m.stall core ((aGet m.stall core).getD 0 + f.stall) }

/-- TILE_START (R94). -/
def execTileStart (t core q : Nat) (f : TileFetch) (s : State) : Out := .next (tileStartEffect t core q f s)

/-! ## ARRAY_PASS_ISSUE (R140 to R146, R521) -/

/-- What a command on a lane works on: its node, macro and tile, with the staged operands. -/
structure Work where
  node : Nat
  ix : Nat
  run : MacroRun
  tp : TileProg
  stage : Stage
  deriving DecidableEq, Repr, Inhabited

/-- The work of one of a lane's tiles, ready for the next pass, drain or write-out. -/
def State.workOn (s : State) (core q : Nat) (sel : Lane → Option TileProg) : Option Work :=
  match s.nodeOfCore core, sel (s.lane core q) with
  | some (i, c), some tp =>
    if s.active && c.state == .running && !c.draining && s.coreReady core then
      match s.macro? i tp.macroIx, (s.lane core q).stagedAt tp.macroIx tp.tile with
      | some m, some g => some { node := i, ix := tp.macroIx, run := m, tp := tp, stage := m.stageOf core q g }
      | _, _ => none
    else none
  | _, _ => none

/-- The group that takes the next pass: the one that fills, or the next one once that is full; a group's first pass needs a half of the file that no
other group holds, `others` of the two being held by the tiles before (R143). Groups without passes go straight to the drain (R194). -/
def TileProg.nextFill (tp : TileProg) (passes groups others : Nat) : Option TileProg :=
  if passes = 0 then none
  else if tp.fill.pass < passes then (if 0 < tp.fill.pass || others + b2n tp.full.isSome < 2 then some tp else none)
  else if tp.full.isNone && tp.fill.index + 1 < groups && others = 0 then
    some { tp with full := some tp.fill, fill := { index := tp.fill.index + 1 } }
  else none

/-- Groups that the tiles before a lane's present one still hold in the file. -/
def State.prevHeld (s : State) (core q i : Nat) : Nat :=
  ((s.lane core q).prevs.map fun tp =>
    ((s.macro? i tp.macroIx).map fun m => tp.undrained (mGroups m.desc (m.coords tp.tile).1)).getD 0).sum

/-- Where an accumulation has got to: the end of the last pass before pass `p` of the same columns, or the first K index (R194). -/
def passFrom (ps : List Pass) (p kFirst : Nat) : Nat :=
  match p with
  | 0 => kFirst
  | q + 1 =>
    match ps[q]?, ps[p]? with
    | some a, some b => if a.cols = b.cols then a.k1 else kFirst
    | _, _ => kFirst

/-- The passes of the array in a tile. -/
def Work.passes (w : Work) : List Pass := w.run.view.passes w.stage.mi w.stage.ni w.stage.ki

/-- The name of the weight set of pass `n` of the group that fills: macro, tile, group and pass. -/
def Work.setName (w : Work) (n : Nat) : Nat × Nat × Nat × Nat := (w.ix, w.tp.tile, w.tp.fill.index, n)

/-- The bytes of local memory that a pass takes: its own set where that was not loaded ahead, the rows of A, the next pass's set (R145). -/
def Work.passSpans (w : Work) (loaded : Bool) (p : Pass) (next : Option (Stage × Pass × (Nat × Nat × Nat × Nat))) : List (Nat × Nat) :=
  let v := w.run.view
  (if loaded then [] else v.loadSpans w.stage p) ++ v.feedSpans w.stage w.tp.fill.index p
    ++ ((next.map fun n => v.loadSpans n.1 n.2.1).getD [])

/-- The pass whose set the loader writes behind the present one, with its tile's staging and its name: the next of the group, else the first of the
tile's next group, else the first of the next tile of the macro that is staged (R145). -/
def State.nextSet (s : State) (core q : Nat) (w : Work) (p : Nat) : Option (Stage × Pass × (Nat × Nat × Nat × Nat)) :=
  let ps := w.passes
  let g := w.tp.fill.index
  let at_ := fun (t : Stage) (tile g p : Nat) (l : List Pass) => (l[p]?).map fun x => (t, x, (w.ix, tile, g, p))
  match at_ w.stage w.tp.tile g (p + 1) ps with
  | some x => some x
  | none =>
    if g + 1 < mGroups w.run.desc w.stage.mi then at_ w.stage w.tp.tile (g + 1) 0 ps
    else
      let l := s.lane core q
      match l.order[l.busy]? with
      | some (k, tile, _) =>
        if k = w.ix then (l.stagedAt k tile).bind fun n =>
          let t := w.run.stageOf core q n
          at_ t tile 0 0 (w.run.view.passes t.mi t.ni t.ki)
        else none
      | none => none

/-- Cycles from a pass's first issue to the swap of row 0's last cell: 31, or 15 in a quadrant, whose rows end at column 15 (R145, R157). -/
def swapReach (d : Bytes) : Nat := if mQmode d then 15 else 31

/-- The first trap that a pass issued in `cycle` brings, with the one pending from the pass before: of its own set where that was not loaded ahead, of A
as the feeder reads it, of the next pass's set (R130, R141, R145, R157). Cycles are counted 32 late, so that a first set's load does not start before
0. -/
def State.issueTrap (s ahead : State) (core q cycle : Nat) (w : Work) (p : Pass) (own : Nat × Nat × Nat × Nat)
    (next : Option (Stage × Pass × (Nat × Nat × Nat × Nat))) : Option (Nat × Nat) :=
  let v := w.run.view
  let l := s.lane core q
  earliest (((l.trap.map fun x => [(x.1, some x.2)]).getD [])
    ++ (if l.loaded = some own then [] else s.loadTraps v w.stage p (cycle + 31 - swapReach v.d))
    ++ s.feedTraps v w.stage w.tp.fill.index p (cycle + 32)
    ++ ((next.map fun n => ahead.loadTraps v n.1 n.2.1 (cycle + 32 + swapReach v.d)).getD []))

/-- A pass of the array issues at last: a trap that a cycle before the next pass raises stops the macro; otherwise the group takes the pass's sums. The panel of the set that follows is staged for the loader (R145). -/
def State.issueArray (s : State) (core q cycle gap : Nat) (w : Work) (p : Pass)
    (next : Option (Stage × Pass × (Nat × Nat × Nat × Nat))) : State :=
  let v := w.run.view
  let ps := w.passes
  let n := w.tp.fill.pass
  match s.reachNext v next with
  | none => s.macroFault w.node w.ix 0x030A
  | some ahead =>
    let trap := s.issueTrap ahead core q cycle w p (w.setName n) next
    let now := trap.any fun x => decide (x.1 < cycle + 32 + gap)
    if now then s.macroFault w.node w.ix ((trap.map (·.2)).getD 0)
    else
      let kf := (tileK w.run.desc v.partials w.stage.ki v.aFmt).1
      match s.issuePass v w.stage w.tp.fill.index (tileCols w.run.desc w.stage.ni) p (passFrom ps n kf) w.tp.fill.acc with
      | none => s.macroFault w.node w.ix 0x0406
      | some a =>
        let tp : TileProg := { w.tp with fill := { w.tp.fill with pass := n + 1, acc := a } }
        ahead.modLane core q fun l => { l.put tp with
          lastPass := cycle, passGap := gap, umber := !l.umber, trap := trap, loaded := next.map (·.2.2) }

/-- A pass issues its rows, no earlier than the floor after the pass before it. The sums of FMM2's second product are formed when its group drains. -/
def passIssueEffect (t core q cycle : Nat) (err : ReadErr) (addr : Nat) (s0 : State) : State :=
  let s := s0.at t
  match s.workOn core q (·.tile) with
  | none => s
  | some w0 =>
    let m := w0.run
    let v := m.view
    let ps := w0.passes
    let l := s.lane core q
    match w0.tp.nextFill (ps.length + v.passes2) (mGroups m.desc w0.stage.mi) (s.prevHeld core q w0.node) with
    | none => s
    | some tp =>
      let w : Work := { w0 with tp := tp }
      let own := w.setName tp.fill.pass
      let next := s.nextSet core q w tp.fill.pass
      let spans := ((ps[tp.fill.pass]?).map fun p => w.passSpans (l.loaded == some own) p next).getD []
      if !usesArray m.desc || (l.passGap ≠ 0 ∧ cycle < l.lastPass + l.passGap) then s
      else match s.feederError w.node w.ix core q m err addr spans with
      | some s1 => s1
      | none =>
        let s1 := s.noteCorrected err (localBase core + addr % 0x8_0000)
        let rows := (groupRows m.desc w.stage.mi tp.fill.index).length
        match ps[tp.fill.pass]? with
        | none =>
          let gap := max (rows * passRate (mSFmt m.desc)) (passFloor ((pathOf (mSFmt m.desc) (mEFmt m.desc)).getD .ordered))
          s1.modLane core q fun l => { l.put { tp with fill := { tp.fill with pass := tp.fill.pass + 1 } } with
            lastPass := cycle, passGap := gap, umber := !l.umber }
        | some p =>
          let gap := max (rows * passRate v.aFmt) (passFloor v.path)
          match s1.reachOwn v w.stage p (l.loaded == some own) with
          | none => s1.macroFault w.node w.ix 0x030A
          | some s2 => s2.issueArray core q cycle gap w p next

/-- ARRAY_PASS_ISSUE (R144). -/
def execArrayPassIssue (t core q cycle : Nat) (err : ReadErr) (addr : Nat) (s : State) : Out :=
  .next (passIssueEffect t core q cycle err addr s)

/-! ## MMV_EXECUTE (R149) -/

/-- The bypass path forms every row's sum of the group that fills, over all of K. -/
def mmvEffect (t core : Nat) (err : ReadErr) (addr : Nat) (s0 : State) : State :=
  let s := s0.at t
  match s.workOn core 4 (·.tile) with
  | none => s
  | some w =>
    let m := w.run
    match w.tp.nextFill 1 (mGroups m.desc w.stage.mi) (s.prevHeld core 4 w.node) with
    | none => s
    | some tp =>
      if mOp m.desc ≠ 2 then s
      else
      let v := m.view
      let p : Pass := ⟨tileCols m.desc w.stage.ni, 0, mK m.desc⟩
      match s.feederError w.node w.ix core 4 m err addr (v.loadSpans w.stage p ++ v.feedSpans w.stage tp.fill.index p) with
      | some s1 => s1
      | none =>
        let s1 := s.noteCorrected err (localBase core + addr % 0x8_0000)
        let trap := s.mmvTrap v w.stage tp.fill.index
        if trap ≠ 0 then s1.macroFault w.node w.ix trap
        else match s.issuePass v w.stage tp.fill.index p.cols p 0 [] with
        | none => s1.macroFault w.node w.ix 0x0406
        | some a => s1.modLane core 4 fun l => l.put { tp with fill := { tp.fill with pass := 1, acc := a } }

/-- MMV_EXECUTE (R149). -/
def execMmvExecute (t core : Nat) (err : ReadErr) (addr : Nat) (s : State) : Out := .next (mmvEffect t core err addr s)

/-! ## GROUP_DRAIN (R147, R176, R210) -/

/-- A filled group's trailing K indices that no pass covered add nothing; their segment boundaries count (R119, R194). -/
def State.closeGroup (s : State) (v : View) (t : Stage) (g : AccGroup) : Option (List (List Acc)) :=
  if !usesArray v.d || v.fromDest || mOp v.d == 3 then some g.acc
  else
    let k := tileK v.d v.partials t.ki v.aFmt
    let cols := tileCols v.d t.ni
    let from_ := match (v.passes t.mi t.ni t.ki).getLast? with
      | some p => p.k1
      | none => k.1
    s.issuePass v t g.index cols ⟨cols, from_, k.2⟩ from_ g.acc

/-- The group that drains next: the one that waits, else the one that fills once its passes have all issued. -/
def TileProg.drainNext (tp : TileProg) (m : MacroRun) : Option (AccGroup × TileProg) :=
  let tc := m.coords tp.tile
  match tp.full with
  | some g => some (g, { tp with full := none })
  | none =>
    if tp.fill.index < mGroups m.desc tc.1 && tp.fill.pass = m.passCount tc then some (tp.fill, { tp with fill := { index := tp.fill.index + 1 } })
    else none

/-- The tile whose group drains next: the oldest that has a group to drain, else the present one. -/
def State.drainSel (s : State) (core : Nat) (l : Lane) : Option TileProg :=
  match s.nodeOfCore core with
  | some (i, _) => (l.prevs.find? fun tp => (s.macro? i tp.macroIx).any fun m => (tp.drainNext m).isSome).or l.tile
  | none => l.tile

/-- Masked bytes land: the status that refuses one, whether one found poison, and the state after. -/
def State.landWrites (s : State) (core : Nat) (ws : List MaskedByte) : Nat × Bool × State :=
  let runs := byteRuns (s.mergeMasked ws)
  let init := fun a => if regionOf a = .spire core then initSteeple (core / 16) else initDma (core / 16)
  match (runs.map fun r => s.accessStatus (init r.1) r.1 r.2.length true).find? (· ≠ 0) with
  | some st => (if st = 0x0A10 then 0x0306 else st, false, s)
  | none =>
    let w := runs.foldl (fun (acc : Bool × State) r =>
      let x := acc.2.writeRaw (init r.1) r.1 r.2
      (acc.1 || x.1 == 0x0309, x.2)) (false, s)
    (0, w.1, w.2)

/-- What a drained group leaves: bytes of local memory, D itself there or its staging buffer, at once; the rest waits for its write-out (R176). A
refused write faults the macro; one that found poison marks the node (R433). -/
def State.leaveDrained (s : State) (core q g : Nat) (w : Work) (tp : TileProg) (d : Drained) : State :=
  let v := w.run.view
  let mine := d.writes.filter fun x => regionOf x.addr = .spire core
  let away := d.writes.filter fun x => regionOf x.addr ≠ .spire core
  let r := ((byteRuns (s.mergeMasked d.staged)).foldl (fun s r => s.poke r.1 r.2) (s.stagePanelsE v w.stage)).landWrites core mine
  if r.1 ≠ 0 then s.macroFault w.node w.ix r.1
  else
    let s1 := if r.2.1 then r.2.2.modCtx w.node fun c => { c with poisoned := true } else r.2.2
    s1.modLane core q fun l => l.put { tp with
      outs := tp.outs ++ [{ index := g, writes := away }], counts := tp.counts.add (if v.partials then {} else d.counts) }

/-- A filled group passes through the drain. A trap that the feeder has still to raise comes first: the commands do not say which cycle of the drain it
falls in (DESIGN CHOICE; log entry 124). -/
def groupDrainEffect (t core q : Nat) (err : ReadErr) (addr : Nat) (s0 : State) : State :=
  let s := s0.at t
  match s.workOn core q (s.drainSel core) with
  | none => s
  | some w =>
    match w.tp.drainNext w.run with
    | none => s
    | some (g, tp1) =>
      match s.feederError w.node w.ix core q w.run err addr (w.run.view.drainSpans w.stage g.index), (s.lane core q).trap with
      | some s1, _ => s1
      | none, some (_, st) => s.macroFault w.node w.ix st
      | none, none =>
        let s1 := s.noteCorrected err (localBase core + addr % 0x8_0000)
        match s1.closeGroup w.run.view w.stage g with
        | none => s1.macroFault w.node w.ix 0x0406
        | some acc =>
          let d := s1.drainGroup w.run.view w.stage g.index acc
          if d.status ≠ 0 then s1.macroFault w.node w.ix d.status else s1.leaveDrained core q g.index w tp1 d

/-- GROUP_DRAIN (R147). -/
def execGroupDrain (t core q : Nat) (err : ReadErr) (addr : Nat) (s : State) : Out :=
  .next (groupDrainEffect t core q err addr s)

/-! ## GROUP_WRITE_OUT_RETIRE (R176, R181, R210) -/

/-- A tile completes: its counts join the macro's, its lease ends, and the engine fetches the next (R94, R179, R210). -/
def State.finishTile (s : State) (i k core q : Nat) (tp : TileProg) (err : ReadErr) (addr : Nat) : State :=
  let s1 := s.modLane core q fun l => l.retire tp
  let s2 := s1.modMacro i k fun m =>
    let again := m.rerun.isSome
    { m with
      done := sInsert m.done tp.tile
      counts := if again then m.counts else m.counts.add tp.counts
      counts2 := if again then m.counts2.add tp.counts else m.counts2
      tilesDone := if again || m.phase != .tiles then m.tilesDone else m.tilesDone + 1
      redoTiles := m.redoTiles + b2n tp.redo
      tLast := s.dev }
  (s2.phaseDone i k).stageAhead core q err addr 3

/-- A group's write-out retires: its masked bytes land, and the last group completes its tile. A write the protection unit or the
map refuses faults the macro; the tiles before it keep their writes (R171, R181). A write-out to another module whose port retrains waits for its
acknowledgement (R397, R407). `err` is what the engine's next fetch meets at `addr` (R521). -/
def writeOutEffect (t core q : Nat) (err : ReadErr) (addr : Nat) (s0 : State) : State :=
  let s := s0.at t
  match s.workOn core q fun l => l.prevs.head?.or l.tile with
  | none => s
  | some w =>
    match w.tp.outs with
    | [] => s
    | o :: rest =>
      let r := s.landWrites core o.writes
      let spans := o.writes.map fun x => (x.addr, 1)
      if s.peerWaits spans then s
      else if s.nodeShut w.node spans then s.macroFault w.node w.ix 0x0301
      else if r.1 ≠ 0 then s.macroFault w.node w.ix r.1
      else
        let s1 := if r.2.1 then r.2.2.modCtx w.node fun c => { c with poisoned := true } else r.2.2
        let tp1 := { w.tp with outs := rest, groupsDone := w.tp.groupsDone + 1 }
        if tp1.groupsDone < mGroups w.run.desc w.stage.mi then s1.modLane core q fun l => l.put tp1
        else (s1.noteCorrected err addr).finishTile w.node w.ix core q tp1 err addr

/-- GROUP_WRITE_OUT_RETIRE (R176). -/
def execGroupWriteOutRetire (t core : Nat) (q : LaneWrite) (s : State) : Out := .next (writeOutEffect t core q.lane q.err q.addr s)

/-! ## ARRAY_PARITY_ERROR (R153, R160) -/

/-- The physical row that the check which found an error names, if it names one (R154). -/
def errorRow : ArrayError → Option Nat
  | .weight row | .activation row => some row
  | _ => none

/-- The error is a parity error of the array or the accumulator file; the others are errors of the units around it (R160). -/
def isParity : ArrayError → Bool
  | .weight _ | .activation _ | .partialSum | .accumulator => true
  | _ => false

/-- An error stops a core's part of the macro, all four quadrants at once; a self-test follows. -/
def parityEffect (t core : Nat) (e : ArrayError) (s0 : State) : State :=
  let s := s0.at t
  if !s.active || (s.spc.at core).retired || 128 ≤ core then s
  else
    let s1 := (s.modSpc core fun x => { x with
      parityEvents := if isParity e then satInc 16 x.parityEvents else x.parityEvents
      selftest := true, suspect := errorRow e, lastStatus := 0x0407 }).logError 0x0407 9 core 3 0 0xFFFF 0 ((errorRow e).getD 0) 0
    s1.leaveAny core 0x0407

/-- ARRAY_PARITY_ERROR (R153). -/
def execArrayParityError (t core : Nat) (e : ArrayError) (s : State) : Out := .next (parityEffect t core e s)

/-! ## QUADRANT_MODE_EXIT (R161, R184) -/

/-- Macro `k` is complete, or its quadrant has aborted. -/
def State.quadOver (s : State) (i k : Nat) (c : Ctx) : Bool :=
  (s.macro? i k).any (·.phase == .complete) || s.quadGone i (mQuad (s.macroDesc c k))

/-- Every macro of the work list in the stretch that the node is in is complete, or its quadrant has aborted. -/
def State.stretchDone (s : State) (i : Nat) (c : Ctx) : Bool :=
  let ks := (List.range c.workCount)
  let started := ks.filter fun k => (s.macro? i k).isSome && mQmode (s.macroDesc c k)
  match started.getLast? with
  | none => false
  | some last => ks.all fun k => !(s.sameStretch c (min k last) (max k last)) || s.quadOver i k c

/-- The core leaves quadrant mode. A node of which a quadrant aborted ends FAULTED with the first such status, once every other quadrant has finished the
macros that the whole work list names for it (R161, R184). -/
def quadExitEffect (t core : Nat) (s0 : State) : State :=
  let s := s0.at t
  match s.nodeOfCore core with
  | none => s
  | some (i, c) =>
    if !s.active || c.draining || !(s.spc.at core).quadMode || !s.stretchDone i c then s
    else
      let finished := (List.range c.workCount).all fun k => !mQmode (s.macroDesc c k) || s.quadOver i k c
      match ((aGet s.spire i).map (·.aborted)).getD [], finished with
      | x :: _, true => s.unitFault i x.2
      | _, _ => s.modSpc core fun x => { x with quadMode := false, lanes := Vector.replicate 5 {} }

/-- QUADRANT_MODE_EXIT (R184). -/
def execQuadrantModeExit (t core : Nat) (s : State) : Out := .next (quadExitEffect t core s)

/-! ## REDUCTION_JOB_START, REDUCTION_PARTIAL_ADD, SPLITK_DRAIN_START (R82, R83, R182) -/

/-- The bytes of a job slot as Belfry fills it for a split-K macro (R82, R182). -/
def jobBytes (d : Bytes) (afmt bfmt : Nat) : Bytes :=
  let e := partSize afmt bfmt
  let mn := mM d * mN d
  leBytes 1 (if e = 16 then 0x60 else 8) ++ leBytes 1 (mKs d afmt - 1) ++ zeros 2 ++ leBytes 4 (mn - 1)
    ++ leBytes 8 (mPart d + mKs d afmt * mn * e)
    ++ padTo 512 ((List.range (mKs d afmt)).map fun ki =>
        leBytes 8 (mPart d + ki * mn * e + (ki * mKseg d * mKp d afmt) % 2 ^ 24 * 2 ^ 40)).flatten
    ++ zeros 496

/-- The job that a slot's 1,024 bytes spell, its partials in ascending K_FIRST order. -/
def jobOf (ctx : Nat) (b : Bytes) : RedJob :=
  let ps := (List.range (fld b 1 1 + 1)).map fun k => let w := fld b (0x10 + 8 * k) 8; (bits w 0 40, bits w 40 24)
  { ctx := ctx, format := fld b 0 1, elems := fld b 4 4 + 1, dest := bits (fld b 8 8) 0 40
    parts := ps.foldl (fun l p => (l.filter fun x => x.2 ≤ p.2) ++ [p] ++ l.filter fun x => p.2 < x.2) [] }

/-- Bytes of an element of a job. -/
def RedJob.size (j : RedJob) : Nat := if j.format = 0x60 then 16 else 4

/-- `[a, a + n)` lies within a graph's scratchpad partitions: every page of it is a page of one of them. -/
def State.inPartition (s : State) (g a n : Nat) : Bool :=
  match aGet s.bf.graphs g with
  | some q =>
    let page := (a - scratchBase) / 4096
    decide (scratchBase ≤ a) && (List.range (ceilDiv (a - scratchBase + n) 4096 - page)).all fun k =>
      q.partitions.any fun p => decide (p.1 ≤ page + k ∧ page + k < p.1 + p.2)
  | none => false

/-- The checks of a job before any partial is read (R82, R83). -/
def State.jobOk (s : State) (g : Nat) (b : Bytes) (j : RedJob) : Bool :=
  let n := j.elems * j.size
  (j.format == 8 || j.format == 0x60) && 2 ≤ j.parts.length && j.parts.length ≤ 64
    && fld b 2 2 == 0 && bits (fld b 8 8) 40 24 == 0 && allZero (sub b 0x210 496)
    && ((j.parts.zip (j.parts.drop 1)).all fun p => p.1.2 != p.2.2)
    && (j.parts.all fun p => s.inPartition g p.1 n)
    && (s.inPartition g j.dest n || (regionOf j.dest == .dram && j.dest + n ≤ s.dramEnd && s.allowed initReduce j.dest n true))

/-- Belfry fills the job slot of a macro whose partial tiles are all complete, and the unit checks and starts the job. -/
def jobStartEffect (t i k : Nat) (s0 : State) : State :=
  let s := s0.at t
  match s.ctx? i, s.macro? i k with
  | some c, some m =>
    let slot := mRjob m.desc
    if !s.active || c.state != .running || c.draining || m.phase != .reduce || (aGet s.mem.jobs slot).isSome then s
    else
      let b := jobBytes m.desc m.view.aFmt m.view.bFmt
      let w := s.writeRaw initBelfry (0x40_2000_0000 + 1024 * slot) b
      let j := jobOf i b
      if w.2.jobOk c.graph b j then { w.2 with mem := { w.2.mem with jobs := aSet w.2.mem.jobs slot j } }
      else w.2.macroFault i k 0x030E
  | _, _ => s

/-- REDUCTION_JOB_START (R182). -/
def execReductionJobStart (t i k : Nat) (s : State) : Out := .next (jobStartEffect t i k s)

/-- An element's sum takes its next partial: integers exactly, FP32 rounded once (R83); none where the range is left. -/
def redAdd (size : Nat) (first : Bool) (acc x : Nat) : Option Nat :=
  if first then some x
  else if size = 16 then (exactAdd (toSigned 96 acc) (toSigned 96 x)).map (ofSigned 96)
  else some (round32 ((val32 acc).add (val32 x)))

/-- The macro that waits for a job has its sums (R182). -/
def State.jobDone (s : State) (slot : Nat) (j : RedJob) : State :=
  match (aGet s.spire j.ctx).bind fun n => n.macros.find? fun q => q.2.phase == .reduce && mRjob q.2.desc == slot with
  | some (k, _) => s.modMacro j.ctx k fun m => { m with phase := .reduced }
  | none => s

/-- The complete sums go to DEST; a refused or poisoned write is the node's (R63, R433). -/
def State.jobWrite (s : State) (slot : Nat) (j : RedJob) (out : Bytes) : State :=
  let w := s.write initReduce j.dest out
  if w.1 = 0 then w.2.jobDone slot j
  else if w.1 = 0x0309 then (w.2.modCtx j.ctx fun c => { c with poisoned := true }).jobDone slot j
  else w.2.unitFault j.ctx (if w.1 = 0x0A10 then 0x0306 else w.1)

/-- A job's node is running and not cancelled: the job of any other writes nothing (R83). -/
def State.jobLive (s : State) (j : RedJob) : Bool :=
  match s.ctx? j.ctx with
  | some c => c.state == .running && !c.draining
  | none => false

/-- The reduction unit adds the next partial in K_FIRST order; with the last one the sums go to DEST. -/
def partialAddEffect (t slot : Nat) (err : ReadErr) (s0 : State) : State :=
  let s := s0.at t
  match aGet s.mem.jobs slot with
  | none => s
  | some j =>
    match j.parts[j.added]?, s.active && s.jobLive j with
    | some p, true =>
      let s := s.noteCorrected err p.1
      let n := j.elems * j.size
      let drop := fun (s : State) => ({ s with mem := { s.mem with jobs := aErase s.mem.jobs slot } } : State)
      if err = .uncorrectable ∨ s.isBad p.1 n then
        let s1 := (if err = .uncorrectable then s.strike p.1 else s).countUncorrectable 0x0902 p.1 (initUnit initReduce)
        (drop s1).unitFault j.ctx 0x0313
      else
        let b := s.peek p.1 n
        let xs := (List.range j.elems).map fun e =>
          redAdd j.size (j.added == 0) (j.sum.getD e 0) (fld b (e * j.size) (min j.size 12))
        if xs.any (·.isNone) then (drop s).unitFault j.ctx 0x0406
        else
          let sum := xs.map (·.getD 0)
          if j.added + 1 < j.parts.length then
            { s with mem := { s.mem with jobs := aSet s.mem.jobs slot { j with added := j.added + 1, sum := sum } } }
          else
            let out := (sum.map fun x => padTo j.size (leBytes (min j.size 12) x)).flatten
            (drop s).jobWrite slot j out
    | _, _ => s

/-- REDUCTION_PARTIAL_ADD (R83). -/
def execReductionPartialAdd (t slot : Nat) (err : ReadErr) (s : State) : Out := .next (partialAddEffect t slot err s)

/-- The next phase of macro `k` fetches all its operands anew. -/
def State.unstage (s : State) (c : Ctx) (k : Nat) : State :=
  let clear := fun (l : Lane) => if l.macroIx = some k then { l with staged := [], loaded := none, trap := none } else l
  c.cores.foldl (fun s core => s.modSpc core fun x => { x with lanes := x.lanes.map clear }) s

/-- The counter is reset and the drain tiles may be claimed (R182). -/
def drainStartEffect (t i k : Nat) (s0 : State) : State :=
  let s := s0.at t
  match s.ctx? i, s.macro? i k with
  | some c, some m =>
    if !s.active || c.state != .running || c.draining || m.phase != .reduced then s
    else
      let s1 := (s.modMacro i k fun m => { m with phase := .drain, done := [], exhausted := [], redo := [] }).unstage c k
      match s1.macroCounter c m.desc with
      | some n => s1.setCounter n 0
      | none => s1
  | _, _ => s

/-- SPLITK_DRAIN_START (R182). -/
def execSplitkDrainStart (t i k : Nat) (s : State) : Out := .next (drainStartEffect t i k s)

/-! ## QUANT_VERDICT, WIDE_FLAG_WRITE (R211 to R218) -/

/-- The overflow verdict of R211. -/
def overVerdict (d : Bytes) (c : Counts) : Bool := decide (mSatLimit d * c.v < c.sat * 65536)

/-- The underflow verdict of R211. -/
def underVerdict (d : Bytes) (c : Counts) : Bool := decide (0 < c.nonzero ∧ mSmallLimit d * c.nonzero < c.small * 64)

/-- The end of a macro whose verdicts stand: the flag word first where one is enabled (R218). -/
def State.afterVerdict (s : State) (i k : Nat) (m : MacroRun) : State :=
  if mWflagOut m.desc then s.modMacro i k fun m => { m with phase := .flag } else s.completeMacro i k

/-- The verdicts are formed; under RERUN_WIDE a verdict starts the second run (R213, R216). -/
def verdictEffect (t i k : Nat) (s0 : State) : State :=
  let s := s0.at t
  match s.ctx? i, s.macro? i k with
  | some c, some m =>
    if !s.active || c.state != .running || c.draining || m.phase != .verdict then s
    else if m.rerun.isSome then
      let s1 := s.modMacro i k fun m => { m with
        rerunDone := true, rerunNs := m.tLast - m.tVerdict
        over2 := overVerdict m.desc m.counts2, under2 := underVerdict m.desc m.counts2 }
      s1.afterVerdict i k m
    else
      let o := overVerdict m.desc m.counts
      let u := underVerdict m.desc m.counts
      let s1 := s.modMacro i k fun m => { m with overs := o, under := u }
      if mQpolicy m.desc = 2 ∧ (o ∨ u) ∧ mAddr m.desc 0x30 ≠ 0 then
        let s2 := (s1.modMacro i k fun m => { m with
          rerun := some (wshiftOf (mOutFmt m.desc) o u), tVerdict := s.dev
          phase := if mSplitk m.desc then .drain else .tiles, done := [], exhausted := [], redo := [] }).unstage c k
        if mQmode m.desc then
          s2.modLane (c.cores.headD 0) (mQuad m.desc) fun l =>
            { l with macroIx := some k, runs := [{ macroIx := k, first := 0, last := mTiles m.desc m.view.aFmt false }] }
        else match s2.macroCounter c m.desc with
          | some n => s2.setCounter n 0
          | none => s2
      else s1.afterVerdict i k m
  | _, _ => s

/-- QUANT_VERDICT (R216). -/
def execQuantVerdict (t i k : Nat) (s : State) : Out := .next (verdictEffect t i k s)

/-- The flag word of R218. -/
def MacroRun.flagWord (m : MacroRun) : Nat :=
  match m.rerun with
  | some w => w % 16 * 256 + wideFmt (mOutFmt m.desc) * 16 + 1
  | none => 0

/-- The macro writes its flag word and completes (R218). -/
def flagWriteEffect (t i k : Nat) (s0 : State) : State :=
  let s := s0.at t
  match s.ctx? i, s.macro? i k with
  | some c, some m =>
    if !s.active || c.state != .running || c.draining || m.phase != .flag then s
    else
      let st := (c.cores.headD 0) / 16
      let w := s.write (initDma st) (scratchBase + 4 * mWfOut m.desc) (leBytes 4 m.flagWord)
      let fin := fun (s : State) => (s.modMacro i k fun m => { m with tLast := s.dev }).completeMacro i k
      if w.1 = 0 then fin w.2
      else if w.1 = 0x0309 then fin (w.2.modCtx i fun c => { c with poisoned := true })
      else w.2.macroFault i k (if w.1 = 0x0A10 then 0x0306 else w.1)
  | _, _ => s

/-- WIDE_FLAG_WRITE (R218). -/
def execWideFlagWrite (t i k : Nat) (s : State) : Out := .next (flagWriteEffect t i k s)

end Sys2Proof.Machine
end

