-- ==== Sys2Proof/Machine/Vision.lean ====
section
/-! DEFINITION. The commands of the vision engines: operations, bands, parity errors, self-tests and check modes (chapters 12 and 13). -/
namespace Sys2Proof.Machine
open Sys2Proof

/-! ## VISION_OPERATION_START (R321, R322, R338, R355, R361) -/

/-- The engine's node may start its next operation. -/
def State.visReady (s : State) (u : Nat) : Option (VisRun × Ctx) :=
  let x := s.vis.at u
  match x.run with
  | none => none
  | some r =>
    match s.ctx? r.ctx with
    | some c =>
      if s.active && !x.failed && !x.selftest && r.op.isNone && r.opsDone < c.workCount && c.state == .running && !c.draining
      then some (r, c) else none
    | none => none

/-- The descriptor with the indirect PARAM block in place, and the status of its reading (R321). -/
def State.resolveParam (s : State) (u : Nat) (c : Ctx) (d : Bytes) : Bytes × Nat × State :=
  if !vIndirect d then (d, 0, s)
  else
    let a := fld c.inline 0 8
    if a % 64 ≠ 0 ∨ bits a 40 24 ≠ 0 ∨ !allZero (sub c.inline 8 56) then (d, 0x0607, s)
    else
      let r := s.read (initVision u) a 64
      let d1 := d.take 0x48 ++ r.1.take 56
      let st := if r.2.1 = 0x0902 then 0x0308 else r.2.1
      (d1, if st ≠ 0 then st else if opParamBad u d1 then 0x0607 else 0, r.2.2)

/-- The hint block of a flow or stereo operation with the status of its read, where HINT names one (R360, R361). -/
def State.readHint (s : State) (u : Nat) (d : Bytes) : Option (Bytes × Nat) × State :=
  if u < 4 ∨ oHint u d = 0 then (none, s)
  else
    let r := s.read (initVision u) (oHint u d) 64
    (some (r.1, r.2.1), r.2.2)

/-- The table of an operation, read once at its dispatch, and the status of its reading: a pattern out of its range is 0x0606 (R322). -/
def State.readVisTable (s : State) (u : Nat) (d : Bytes) : Bytes × Nat × State :=
  if 4 ≤ u then ([], 0, s)
  else match visTable u d with
    | [] => ([], 0, s)
    | e :: _ =>
      let r := s.read (initVision u) e.addr e.len
      (r.1, if r.2.1 = 0x0902 then 0x0308 else if r.2.1 ≠ 0 then r.2.1 else if u = 3 && patternBad r.1 then 0x0606 else 0, r.2.2)

/-- An operation whose node ends FAULTED with a status. -/
def State.visFault (s : State) (u i status : Nat) : State :=
  (s.modVis u fun x => { x with lastStatus := status, ueReads := if status = 0x0308 then satInc 8 x.ueReads else x.ueReads }).unitFault i
    status

/-- The operation `d` of the node in context `r.ctx` begins on engine `u`, with its table and its hint; the lines of its first three bands are fetched
(R94). -/
def State.beginOp (s : State) (u : Nat) (r : VisRun) (c : Ctx) (d table : Bytes) (hint : Option (Bytes × Nat)) : State :=
  let x := s.vis.at u
  let m := if u < 4 then (0, x) else x.sampleMode
  let f := if u < 4 then {} else flowSetup u d m.1 hint c.frame
  let s1 := s.modVis u fun _ => { m.2 with
    hintStale := if f.hint = .stale then satInc 8 m.2.hintStale else m.2.hintStale
    hintInvalid := if f.hint = .invalid then satInc 8 m.2.hintInvalid else m.2.hintInvalid
    run := some { r with op := some d, band := 0, setup := f, table := table, bufs := [], counts := {}, opFound := 0, opFeatures := 0, opFull := 0 } }
  let s2 := if u = 3 then s1.record (initVision u) (vAddr d 0x50) (featureHeader c.frame 0 0 0 0) else s1
  (List.range 3).foldl (fun s k => s.fetchBand u k) s2

/-- The start of an engine's next operation. One with an extent on another module whose port retrains waits (R407). -/
def visionStartEffect (t u : Nat) (s0 : State) : State :=
  let s := s0.at t
  match s.visReady u with
  | none => s
  | some (r, c) =>
    let e := s.readElem c r.opsDone
    if e.2.1 ≠ 0 then e.2.2.visFault u r.ctx e.2.1
    else
      let p := e.2.2.resolveParam u c e.1
      if p.2.1 ≠ 0 then p.2.2.visFault u r.ctx p.2.1
      else
        let st := if s.nodeShut r.ctx (opRanges u p.1) then 0x0301
          else p.2.2.extentStatus (initVision u) (opExtents u p.1) (opPieces u p.1)
        if s.peerWaits (opRanges u p.1) then s
        else if st ≠ 0 then p.2.2.visFault u r.ctx st
        else
          let w := p.2.2.readVisTable u p.1
          if w.2.1 ≠ 0 then w.2.2.visFault u r.ctx w.2.1
          else
            let h := w.2.2.readHint u p.1
            h.2.beginOp u r c p.1 w.1 h.1

/-- VISION_OPERATION_START (R322). -/
def execVisionOperationStart (t u : Nat) (s : State) : Out := .next (visionStartEffect t u s)

/-! ## VISION_BAND_COMPLETE, VISION_OPERATION_COMPLETE (R323, R338 to R341, R362) -/

/-- The writes of a band land; the first status that is not zero. -/
def State.writeAll (s : State) (init : Nat) (ws : List (Nat × Bytes)) : Nat × State :=
  ws.foldl (fun r w =>
    let x := r.2.write init w.1 w.2
    (if r.1 ≠ 0 then r.1 else x.1, x.2)) (0, s)

/-- The counts of one flow operation, band by band. -/
def FlowCount.plus (a b : FlowCount) : FlowCount :=
  { valid := a.valid + b.valid, texture := a.texture + b.texture, unique := a.unique + b.unique
    occluded := a.occluded + b.occluded, range := a.range + b.range }

/-- The next band of an operation: what it writes, and the run after it. -/
def VisRun.nextBand (r : VisRun) (rd : Reader) (u : Nat) (d : Bytes) : List (Nat × Bytes) × VisRun × Nat :=
  if u < 4 then
    let b := visBand rd (r.tableReader u d) u d r.band r.opFound
    (b.writes, { r with band := r.band + 1, saturated := r.saturated + b.saturated, filled := r.filled + b.filled
                        features := r.features + b.features, found := r.found + b.found, oversize := r.oversize + b.oversize
                        opFeatures := r.opFeatures + b.features, opFound := r.opFound + b.found, opFull := r.opFull + b.full }, b.oversize)
  else
    let b := flowBand rd u d r.setup r.band
    (b.1, { r with band := r.band + 1, counts := r.counts.plus b.2 }, 0)

/-- The buffer of the band in progress, and the state after its fetch: a band that reads what its operation has just written is fetched only now. -/
def State.bandBuf (s : State) (u : Nat) (r : VisRun) (d : Bytes) : VisBuf × State :=
  match r.bufs.find? (·.band == r.band) with
  | some b => (b, s)
  | none =>
    let l := r.reads u d r.band
    let s1 := l.foldl (fun s x => s.cacheTouch x.1 x.2 false false) s
    ({ band := r.band, lines := l.map fun x => (x.1, s1.peek x.1 x.2), bad := l.any fun x => s1.isBad x.1 x.2 }, s1)

/-- A band's writes complete, and the fetch of the band three on begins; a word of its lines that is uncorrectable ends the node instead
(R94, R340, R341). -/
def visionBandEffect (t u : Nat) (err : ReadErr) (s0 : State) : State :=
  let s := s0.at t
  match (s.vis.at u).run with
  | none => s
  | some r =>
    match r.op, s.ctx? r.ctx with
    | some d, some c =>
      if !s.active || c.draining || opBands u d ≤ r.band || s.peerWaits (opRanges u d) then s
      else
      let f := s.bandBuf u r d
      let a := ((f.1.lines.head?).map (·.1)).getD (vSrc d).addr
      let s := f.2.noteCorrected err a
      if (err == .uncorrectable && f.1.lines.any (fun x => s.mayErr x.1)) || f.1.bad then
        ((if err == .uncorrectable then s.strike a else s).countUncorrectable 0x0902 a u).visFault u r.ctx 0x0308
      else
        let b := r.nextBand (readBufs [f.1] s.peek) u d
        let w := s.writeAll (initVision u) b.1
        let kept := if u < 4 then b.2.1.bufs.filter (·.band != r.band) else b.2.1.bufs
        let s1 := (w.2.modVis u fun x => { x with run := some { b.2.1 with bufs := kept }, oversize := satAdd 16 x.oversize b.2.2 }).fetchBand u
          (r.band + 3)
        if w.1 = 0 then s1
        else if w.1 = 0x0309 then s1.modCtx r.ctx fun c => { c with poisoned := true }
        else s1.visFault u r.ctx (if w.1 = 0x0A10 then 0x0306 else w.1)
    | _, _ => s

/-- VISION_BAND_COMPLETE (R340). -/
def execVisionBandComplete (t u : Nat) (err : ReadErr) (s : State) : Out := .next (visionBandEffect t u err s)

/-- What follows an operation's last band: the list's header with VALID, or the work area and the statistics record. -/
def State.closeOp (s : State) (u : Nat) (r : VisRun) (c : Ctx) (d : Bytes) : State :=
  if u = 3 then s.record (initVision u) (vAddr d 0x50) (featureHeader c.frame r.opFeatures r.opFound r.opFull 1)
  else if u < 4 then s
  else
    let n := s.freeBytes 1
    let w := workArea (readBufs r.bufs s.peek) u d r.setup ((n.1.map (·.toNat)).headD 0)
    let f := n.2.freeBytes (workBytes u d - w.length)
    (f.2.record (initVision u) (oScratch u d + 64) (w ++ f.1)).record (initVision u) (oScratch u d)
      (statsRecord u d r.setup r.counts c.frame s.dev)

/-- An operation completes; the next of the list follows. -/
def visionCompleteEffect (t u : Nat) (s0 : State) : State :=
  let s := s0.at t
  match (s.vis.at u).run with
  | none => s
  | some r =>
    match r.op, s.ctx? r.ctx with
    | some d, some c =>
      if !s.active || c.draining || r.band < opBands u d then s
      else (s.closeOp u r c d).modVis u fun x =>
        { x with lastStatus := 0, run := some { r with op := none, opsDone := r.opsDone + 1, table := [], bufs := [] } }
    | _, _ => s

/-- VISION_OPERATION_COMPLETE (R323). -/
def execVisionOperationComplete (t u : Nat) (s : State) : Out := .next (visionCompleteEffect t u s)

/-! ## VISION_PARITY_ERROR, VISION_SELFTEST_COMPLETE (R341, R355, R363) -/

/-- A parity error aborts the operation in progress, its node faults, and the engine is tested. -/
def visionParityEffect (t u : Nat) (s0 : State) : State :=
  let s := s0.at t
  let x := s.vis.at u
  if !s.active || x.failed || 6 ≤ u then s
  else
    let s1 := (s.modVis u fun x => { x with parity := satInc 8 x.parity, selftest := true, lastStatus := 0x0603 }).logError 0x0603 11 u 3 0
      0xFFFF 0 0 0
    match x.run with
    | some r => s1.unitFault r.ctx 0x0603
    | none => s1

/-- VISION_PARITY_ERROR (R341). -/
def execVisionParityError (t u : Nat) (s : State) : Out := .next (visionParityEffect t u s)

/-- A self-test ends. A pair that asked for it is answered. -/
def visionSelftestEffect (t u : Nat) (pass : Bool) (s0 : State) : State :=
  let s := s0.at t
  let x := s.vis.at u
  if !s.active || !x.selftest then s
  else
    let s1 := s.modVis u fun x =>
      let y := { x with selftest := false, testPair := none }
      if pass ∧ 4 ≤ u then y.enter 3 16 else y
    let s2 := if pass then s1 else (s1.note 0x0604 4 u).loseVision u 0x0604
    let s3 := match x.testPair with
      | some p => s2.answerTest p (if pass then 0 else 0x0604)
      | none => s2
    s3.gateUnused

/-- VISION_SELFTEST_COMPLETE (R341). -/
def execVisionSelftestComplete (t u : Nat) (pass : Bool) (s : State) : Out := .next (visionSelftestEffect t u pass s)

/-! ## CHECK_MODE (R355) -/

/-- The CHECK_MODE request on a pair. -/
def checkModeEffect (t p : Nat) (s0 : State) : State :=
  let s := s0.at t
  match s.req? p 0x0028 with
  | none => s
  | some q =>
    let u := fld q.payload 0 1
    let n := fld q.payload 2 2
    if (u ≠ 4 ∧ u ≠ 5) ∨ fld q.payload 1 1 ≠ 0 then s.answer p 0x0107
    else if (s.vis.at u).failed ∨ n = 0 then s.answer p 0x0609
    else (s.modVis u fun x => x.enter 2 n).answer p 0

/-- CHECK_MODE (R355). -/
def execCheckMode (t p : Nat) (s : State) : Out := .next (checkModeEffect t p s)

end Sys2Proof.Machine
end

