-- ==== Sys2Proof/Machine/Dispatch.lean ====
section
/-! DEFINITION. The dispatch: one arm for each command of the table, each a direct call of its meaning. -/
namespace Sys2Proof.Machine
open Sys2Proof

/-- A command's effect on everything but the queue. -/
def exec (i : Instr) (s : State) : Host.Outcome State Fault Refusal :=
  match i with
  | .anchorEvent t g => Sys2Proof.Machine.execAnchorEvent t g s
  | .nodeDispatch t ix u err => Sys2Proof.Machine.execNodeDispatch t ix u err s
  | .beaconSignal t b inc u => Sys2Proof.Machine.execBeaconSignal t b inc u s
  | .nodeComplete t ix => Sys2Proof.Machine.execNodeComplete t ix s
  | .deadlineMiss t ix => Sys2Proof.Machine.execDeadlineMiss t ix s
  | .fusedStageResume t ix k => Sys2Proof.Machine.execFusedStageResume t ix k s
  | .nodeFault t ix status => Sys2Proof.Machine.execNodeFault t ix status s
  | .cancel t p => Sys2Proof.Machine.execCancel t p s
  | .cancelDrainComplete t ix => Sys2Proof.Machine.execCancelDrainComplete t ix s
  | .multicastUnitWrite t g r => Sys2Proof.Machine.execMulticastUnitWrite t g r s
  | .gapMarkerWrite t g r => Sys2Proof.Machine.execGapMarkerWrite t g r s
  | .holdLimitExpiry t g r => Sys2Proof.Machine.execHoldLimitExpiry t g r s
  | .belfryLockstepMismatch t => Sys2Proof.Machine.execBelfryLockstepMismatch t s
  | .parkDrainComplete t g => Sys2Proof.Machine.execParkDrainComplete t g s
  | .dmaWorkItemStart t e o => Sys2Proof.Machine.execDmaWorkItemStart t e o s
  | .dmaRequestIssue t e write => Sys2Proof.Machine.execDmaRequestIssue t e write s
  | .dmaRequestComplete t e tag o corrected ext => Sys2Proof.Machine.execDmaRequestComplete t e tag o corrected ext s
  | .dmaChunkWriteStart t e => Sys2Proof.Machine.execDmaChunkWriteStart t e s
  | .dmaChunkComplete t e => Sys2Proof.Machine.execDmaChunkComplete t e s
  | .fetchAdd t init a size v user err => Sys2Proof.Machine.execFetchAdd t init a size v user err s
  | .workCounterWrite t init a bs => Sys2Proof.Machine.execWorkCounterWrite t init a bs s
  | .reductionJobStart t ix k => Sys2Proof.Machine.execReductionJobStart t ix k s
  | .reductionPartialAdd t slot err => Sys2Proof.Machine.execReductionPartialAdd t slot err s
  | .memoryInterfaceLoss t m => Sys2Proof.Machine.execMemoryInterfaceLoss t m s
  | .memCfgLock t m => Sys2Proof.Machine.execMemCfgLock t m s
  | .macroStart t ix k => Sys2Proof.Machine.execMacroStart t ix k s
  | .tileClaim t ix k core err reply => Sys2Proof.Machine.execTileClaim t ix k core err reply s
  | .tileStart t core q fetch => Sys2Proof.Machine.execTileStart t core q fetch s
  | .arrayPassIssue t core q cycle err addr => Sys2Proof.Machine.execArrayPassIssue t core q cycle err addr s
  | .groupDrain t core q err addr => Sys2Proof.Machine.execGroupDrain t core q err addr s
  | .groupWriteOutRetire t core q => Sys2Proof.Machine.execGroupWriteOutRetire t core q s
  | .mmvExecute t core err addr => Sys2Proof.Machine.execMmvExecute t core err addr s
  | .arrayParityError t core e => Sys2Proof.Machine.execArrayParityError t core e s
  | .arraySelftestComplete t a r => Sys2Proof.Machine.execArraySelftestComplete t a r s
  | .spareRowSwitch t a => Sys2Proof.Machine.execSpareRowSwitch t a s
  | .periodicSelftest t a => Sys2Proof.Machine.execPeriodicSelftest t a s
  | .quadrantModeExit t core => Sys2Proof.Machine.execQuadrantModeExit t core s
  | .splitkDrainStart t ix k => Sys2Proof.Machine.execSplitkDrainStart t ix k s
  | .quantVerdict t ix k => Sys2Proof.Machine.execQuantVerdict t ix k s
  | .wideFlagWrite t ix k => Sys2Proof.Machine.execWideFlagWrite t ix k s
  | .csi2PacketReceive t p k => Sys2Proof.Machine.execCsi2PacketReceive t p k s
  | .sensorFrameStart t c sensorFn => Sys2Proof.Machine.execSensorFrameStart t c sensorFn s
  | .sensorFrameEnd t c => Sys2Proof.Machine.execSensorFrameEnd t c s
  | .frameTimeout t c => Sys2Proof.Machine.execFrameTimeout t c s
  | .genlockAnchor t lead => Sys2Proof.Machine.execGenlockAnchor t lead s
  | .rfeLineRead t r err => Sys2Proof.Machine.execRfeLineRead t r err s
  | .cameraBind t p => Sys2Proof.Machine.execCameraBind t p s
  | .cameraUnbind t p => Sys2Proof.Machine.execCameraUnbind t p s
  | .portLockTimeout t c => Sys2Proof.Machine.execPortLockTimeout t c s
  | .sensorPortFailure t u => Sys2Proof.Machine.execSensorPortFailure t u s
  | .exposure t p => Sys2Proof.Machine.execExposure t p s
  | .scuReqWrite t e a b => Sys2Proof.Machine.execScuReqWrite t e a b s
  | .exposureSequenceIssue t bus => Sys2Proof.Machine.execExposureSequenceIssue t bus s
  | .i3cTransactionComplete t bus nack data => Sys2Proof.Machine.execI3cTransactionComplete t bus nack data s
  | .i3cBusTimeout t bus => Sys2Proof.Machine.execI3cBusTimeout t bus s
  | .exposureSequenceComplete t c => Sys2Proof.Machine.execExposureSequenceComplete t c s
  | .i3cInBandInterrupt t bus addr => Sys2Proof.Machine.execI3cInBandInterrupt t bus addr s
  | .imuSample t base entries rates accels => Sys2Proof.Machine.execImuSample t base entries rates accels s
  | .sensorXfer t p => Sys2Proof.Machine.execSensorXfer t p s
  | .psetSubmit t p => Sys2Proof.Machine.execPsetSubmit t p s
  | .rfePsetSubmitWrite t e r off b => Sys2Proof.Machine.execRfePsetSubmitWrite t e r off b s
  | .psetLoadStart t r => Sys2Proof.Machine.execPsetLoadStart t r s
  | .psetLoadComplete t r => Sys2Proof.Machine.execPsetLoadComplete t r s
  | .tapConfig t p => Sys2Proof.Machine.execTapConfig t p s
  | .tapRowGroupWrite t r tap bad trunc => Sys2Proof.Machine.execTapRowGroupWrite t r tap bad trunc s
  | .statsBlockComplete t r => Sys2Proof.Machine.execStatsBlockComplete t r s
  | .metadataRecordWrite t r => Sys2Proof.Machine.execMetadataRecordWrite t r s
  | .rowGroupDeadline t c => Sys2Proof.Machine.execRowGroupDeadline t c s
  | .sneUnitStart t n => Sys2Proof.Machine.execSneUnitStart t n s
  | .sneUnitComplete t n group stripe => Sys2Proof.Machine.execSneUnitComplete t n group stripe s
  | .networkBind t p layers => Sys2Proof.Machine.execNetworkBind t p layers s
  | .networkWeightLoadComplete t c => Sys2Proof.Machine.execNetworkWeightLoadComplete t c s
  | .networkUnbind t p => Sys2Proof.Machine.execNetworkUnbind t p s
  | .sneFault t n f => Sys2Proof.Machine.execSneFault t n f s
  | .sneWeightReloadComplete t n image => Sys2Proof.Machine.execSneWeightReloadComplete t n image s
  | .visionOperationStart t u => Sys2Proof.Machine.execVisionOperationStart t u s
  | .visionBandComplete t u err => Sys2Proof.Machine.execVisionBandComplete t u err s
  | .visionOperationComplete t u => Sys2Proof.Machine.execVisionOperationComplete t u s
  | .visionParityError t u => Sys2Proof.Machine.execVisionParityError t u s
  | .visionSelftestComplete t u pass => Sys2Proof.Machine.execVisionSelftestComplete t u pass s
  | .checkMode t p => Sys2Proof.Machine.execCheckMode t p s
  | .functionLevelReset t => Sys2Proof.Machine.execFunctionLevelReset t s
  | .bar4Access t off n x => Sys2Proof.Machine.execBar4Access t off n x s
  | .pciBar4BaseWrite t v => Sys2Proof.Machine.execPciBar4BaseWrite t v s
  | .pciIntStatusClear t hi mask => Sys2Proof.Machine.execPciIntStatusClear t hi mask s
  | .registerWrite t host space off x => Sys2Proof.Machine.execRegisterWrite t host space off x s
  | .mbxEnable t p v => Sys2Proof.Machine.execMbxEnable t p v s
  | .mbxDisable t p v => Sys2Proof.Machine.execMbxDisable t p v s
  | .mbxReqDoorbell t p tail writes => Sys2Proof.Machine.execMbxReqDoorbell t p tail writes s
  | .mbxRspHeadWrite t p head => Sys2Proof.Machine.execMbxRspHeadWrite t p head s
  | .mailboxRequestTake t => Sys2Proof.Machine.execMailboxRequestTake t s
  | .identify t p => Sys2Proof.Machine.execIdentify t p s
  | .getState t p => Sys2Proof.Machine.execGetState t p s
  | .setEvents t p => Sys2Proof.Machine.execSetEvents t p s
  | .resetFull t p => Sys2Proof.Machine.execResetFull t p s
  | .resetWarm t p => Sys2Proof.Machine.execResetWarm t p s
  | .graphAdmit t p image => Sys2Proof.Machine.execGraphAdmit t p image s
  | .graphPark t p => Sys2Proof.Machine.execGraphPark t p s
  | .graphRestore t p => Sys2Proof.Machine.execGraphRestore t p s
  | .graphStop t p => Sys2Proof.Machine.execGraphStop t p s
  | .contextRead t p => Sys2Proof.Machine.execContextRead t p s
  | .setCache t p => Sys2Proof.Machine.execSetCache t p s
  | .hostWindow t p => Sys2Proof.Machine.execHostWindow t p s
  | .dmaCopy t p => Sys2Proof.Machine.execDmaCopy t p s
  | .telemetry t p => Sys2Proof.Machine.execTelemetry t p s
  | .logRead t p => Sys2Proof.Machine.execLogRead t p s
  | .selftest t p => Sys2Proof.Machine.execSelftest t p s
  | .fwWrite t p => Sys2Proof.Machine.execFwWrite t p s
  | .fwCommit t p => Sys2Proof.Machine.execFwCommit t p s
  | .d3hotEntry t => Sys2Proof.Machine.execD3hotEntry t s
  | .d0Return t => Sys2Proof.Machine.execD0Return t s
  | .firmwareReady t fails => Sys2Proof.Machine.execFirmwareReady t fails s
  | .portUp t p => Sys2Proof.Machine.execPortUp t p s
  | .portDown t p => Sys2Proof.Machine.execPortDown t p s
  | .importEntry t p => Sys2Proof.Machine.execImport t p s
  | .counterMap t p => Sys2Proof.Machine.execCounterMap t p s
  | .peerTrainingComplete t k neighbour lanes half => Sys2Proof.Machine.execPeerTrainingComplete t k neighbour lanes half s
  | .peerTrainingTimeout t k => Sys2Proof.Machine.execPeerTrainingTimeout t k s
  | .peerFlitError t k => Sys2Proof.Machine.execPeerFlitError t k s
  | .peerRetrainTimeout t k => Sys2Proof.Machine.execPeerRetrainTimeout t k s
  | .remoteSignal t k imp inc => Sys2Proof.Machine.execRemoteSignal t k imp inc s
  | .remoteCounterOp t k imp v err => Sys2Proof.Machine.execRemoteCounterOp t k imp v err s
  | .peerRemoteAccess t k a n x => Sys2Proof.Machine.execPeerRemoteAccess t k a n x s
  | .remoteRequestTimeout t w n => Sys2Proof.Machine.execRemoteRequestTimeout t w n s
  | .relayUnit t k => Sys2Proof.Machine.execRelayUnit t k s
  | .motorSetpoint t f => Sys2Proof.Machine.execMotorSetpoint t f s
  | .coolerSetpoint t f => Sys2Proof.Machine.execCoolerSetpoint t f s
  | .configWrite t f => Sys2Proof.Machine.execConfigWrite t f s
  | .controlDisable t f => Sys2Proof.Machine.execControlDisable t f s
  | .controlEnable t f => Sys2Proof.Machine.execControlEnable t f s
  | .controlClearTrip t f => Sys2Proof.Machine.execControlClearTrip t f s
  | .controlSetPosition t f => Sys2Proof.Machine.execControlSetPosition t f s
  | .linkAck t f => Sys2Proof.Machine.execLinkAck t f s
  | .loopStep t ins => Sys2Proof.Machine.execLoopStep t ins s
  | .watchdogExpiry t ch => Sys2Proof.Machine.execWatchdogExpiry t ch s
  | .limitTrip t ch positive => Sys2Proof.Machine.execLimitTrip t ch positive s
  | .overcurrentTrip t ch => Sys2Proof.Machine.execOvercurrentTrip t ch s
  | .vfieldUndervoltageTrip t => Sys2Proof.Machine.execVfieldUndervoltageTrip t s
  | .lanternResetRelease t mv => Sys2Proof.Machine.execLanternResetRelease t mv s
  | .lanternResetEntry t => Sys2Proof.Machine.execLanternResetEntry t s
  | .lanternSelftestComplete t pass => Sys2Proof.Machine.execLanternSelftestComplete t pass s
  | .channelStatusSend t ch => Sys2Proof.Machine.execChannelStatusSend t ch s
  | .linkStatusSend t mv temp => Sys2Proof.Machine.execLinkStatusSend t mv temp s
  | .fieldStatusReceive t f => Sys2Proof.Machine.execFieldStatusReceive t f s
  | .fieldAckReceive t f => Sys2Proof.Machine.execFieldAckReceive t f s
  | .fieldEventReceive t f => Sys2Proof.Machine.execFieldEventReceive t f s
  | .linkStatusReceive t f => Sys2Proof.Machine.execLinkStatusReceive t f s
  | .fieldAckTimeout t => Sys2Proof.Machine.execFieldAckTimeout t s
  | .fieldLinkDown t => Sys2Proof.Machine.execFieldLinkDown t s
  | .fieldRecordSend t => Sys2Proof.Machine.execFieldRecordSend t s
  | .fieldConfigConfigure t p => Sys2Proof.Machine.execFieldConfigConfigure t p s
  | .fieldConfigControl t p => Sys2Proof.Machine.execFieldConfigControl t p s
  | .fieldConfigRead t p => Sys2Proof.Machine.execFieldConfigRead t p s
  | .scrubRead t w err last => Sys2Proof.Machine.execScrubRead t w err last s
  | .dramScrubRead t m a w err last => Sys2Proof.Machine.execDramScrubRead t m a w err last s
  | .watchtowerFetchTrap t page hashOk => Sys2Proof.Machine.execWatchtowerFetchTrap t page hashOk s
  | .dmaEngineFailure t e => Sys2Proof.Machine.execDmaEngineFailure t e s
  | .fatalCondition t c => Sys2Proof.Machine.execFatalCondition t c s
  | .resetRelease t => Sys2Proof.Machine.execResetRelease t s
  | .bootImageVerified t => Sys2Proof.Machine.execBootImageVerified t s
  | .temperatureSample t temps => Sys2Proof.Machine.execTemperatureSample t temps s
  | .throttleStep t st => Sys2Proof.Machine.execThrottleStep t st s
  | .voltageSample t mv => Sys2Proof.Machine.execVoltageSample t mv s
  | .ppsEdge t => Sys2Proof.Machine.execPpsEdge t s
  | .ppsLoss t => Sys2Proof.Machine.execPpsLoss t s
  | .devtimeRead t p => Sys2Proof.Machine.execDevtimeRead t p s
  | .devtimeStep t p => Sys2Proof.Machine.execDevtimeStep t p s
  | .devtimeSlew t p => Sys2Proof.Machine.execDevtimeSlew t p s
  | .devtimePps t p => Sys2Proof.Machine.execDevtimePps t p s
  | .wtDevtimeRead t => Sys2Proof.Machine.execWtDevtimeRead t s
  | .prtCommit t v => Sys2Proof.Machine.execPrtCommit t v s
  | .jtagDebugCommand t => Sys2Proof.Machine.execJtagDebugCommand t s
  | .watchtowerWatchdogExpiry t => Sys2Proof.Machine.execWatchtowerWatchdogExpiry t s
  | .watchtowerLockstepMismatch t => Sys2Proof.Machine.execWatchtowerLockstepMismatch t s
  | .powerOnReset t => Sys2Proof.Machine.execPowerOnReset t s
  | .supplyFailure t => Sys2Proof.Machine.execSupplyFailure t s
  | .resetNAssert t => Sys2Proof.Machine.execResetNAssert t s
  | .perstNAssert t => Sys2Proof.Machine.execPerstNAssert t s
  | .refclkSysLoss t => Sys2Proof.Machine.execRefclkSysLoss t s
  | .pcieRefclkLoss t => Sys2Proof.Machine.execPcieRefclkLoss t s
  | .plRefclkLoss t => Sys2Proof.Machine.execPlRefclkLoss t s
  | .xtal32kLoss t => Sys2Proof.Machine.execXtal32kLoss t s
  | .dvfsChange t st point => Sys2Proof.Machine.execDvfsChange t st point s
  | .dvfsVoutSettled t st mv => Sys2Proof.Machine.execDvfsVoutSettled t st mv s
  | .dvfsRelockComplete t st => Sys2Proof.Machine.execDvfsRelockComplete t st s
  | .pmbusFault t st => Sys2Proof.Machine.execPmbusFault t st s
  | .unitUngateComplete t u => Sys2Proof.Machine.execUnitUngateComplete t u s
  | .calibrationMeasureComplete t b rs codes => Sys2Proof.Machine.execCalibrationMeasureComplete t b rs codes s
  | .calibrationApply t b => Sys2Proof.Machine.execCalibrationApply t b s
  | .calibrationNoGap t b => Sys2Proof.Machine.execCalibrationNoGap t b s
  | .calibrationRemeasure t b => Sys2Proof.Machine.execCalibrationRemeasure t b s
  | .maintenanceWindow t m => Sys2Proof.Machine.execMaintenanceWindow t m s
  | .zqCalibration t m => Sys2Proof.Machine.execZqCalibration t m s
  | .calRead t p => Sys2Proof.Machine.execCalRead t p s
  | .calWrite t p => Sys2Proof.Machine.execCalWrite t p s
  | .sensorPortLock t p => Sys2Proof.Machine.execSensorPortLock t p s
  | .peerRetrainComplete t k => Sys2Proof.Machine.execPeerRetrainComplete t k s
  | .flashWriteComplete t ok => Sys2Proof.Machine.execFlashWriteComplete t ok s
  | .supplyRestore t => Sys2Proof.Machine.execSupplyRestore t s
  | .refclkSysRestore t => Sys2Proof.Machine.execRefclkSysRestore t s
  | .pcieCompletionTimeout t w => Sys2Proof.Machine.execPcieCompletionTimeout t w s
  | .fieldFrameDiscard t toLantern f => Sys2Proof.Machine.execFieldFrameDiscard t toLantern f s

end Sys2Proof.Machine
end

