-- ==== Sys2Proof/Safety.lean ====
section
/-! DEFINITION. What the claims speak of: the canonical form of the stores, what a step may change of the parts that most commands must not touch, and
the safety of the field island. -/
namespace Sys2Proof.Machine
open Sys2Proof

/-- Both stores are in their canonical form. -/
def State.MemWf (s : State) : Prop := memWf s.mem.cells = true ∧ memWf s.mem.host = true

/-- The command leaves the queue, the straps and the timebase as they are and the stores in canonical form; and, where `l` and `f` say so, Lantern
and the fuses. -/
structure Keeps (l f : Bool) (s s' : State) : Prop where
  pending : s'.pending = s.pending
  straps : s'.straps = s.straps
  timebase : s'.clock.timebase = s.clock.timebase
  mem : s.MemWf → s'.MemWf
  lantern : l = true → s'.lantern = s.lantern
  fuses : f = true → s'.fuses = s.fuses

/-- A channel's bridge is enabled only in RUN and RAMP (R412, R418). -/
def LChan.Safe (c : LChan) : Prop := c.enable = true → c.state = .run ∨ c.state = .ramp

/-- Every channel is safe, and until Lantern runs every channel is OFF (R412). -/
def Lantern.Safe (x : Lantern) : Prop :=
  (∀ ch, (x.chans.at ch).Safe) ∧ (x.stage ≠ .running → ∀ ch, (x.chans.at ch).state = .off)

/-- Fuses are only ever blown: the security version never falls and no key revocation is undone; nothing else of them changes (R454, R460). -/
def Fuses.Blown (a b : Fuses) : Prop :=
  a.svn ≤ b.svn ∧ (∀ k, bit a.revoked k = true → bit b.revoked k = true) ∧ b = { a with svn := b.svn, revoked := b.revoked }

/-- The commands that act on the field die or bring it a frame (chapter 16). -/
def onFieldDie (c : Instr) : Bool :=
  match c with
  | .motorSetpoint _ _ | .coolerSetpoint _ _ | .configWrite _ _ | .controlDisable _ _ | .controlEnable _ _ | .controlClearTrip _ _
    | .controlSetPosition _ _ | .linkAck _ _ | .loopStep _ _ | .watchdogExpiry _ _ | .limitTrip _ _ _ | .overcurrentTrip _ _
    | .vfieldUndervoltageTrip _ | .lanternResetRelease _ _ | .lanternResetEntry _ | .lanternSelftestComplete _ _ | .channelStatusSend _ _
    | .linkStatusSend _ _ _ | .fieldFrameDiscard _ _ _ => true
  | _ => false

/-- The command that may blow fuses: READY after a boot (R463). -/
def blowsFuses (c : Instr) : Bool :=
  match c with
  | .firmwareReady _ _ => true
  | _ => false

end Sys2Proof.Machine
end

