-- ==== Sys2Proof/Machine/Claims.lean ====
section
/-! DEFINITION. The words in which the claims about single commands speak: that a command completes with a property, which part of the state is the
only one that differs, and the conditions, on the state and the operands alone, under which the spec has a command run normally. -/
namespace Sys2Proof.Machine
open Sys2Proof

/-- A command completes with `P` of the state it leaves. -/
def Completes (c : Instr) (s : State) (P : State → Prop) : Prop := ∃ s', exec c s = .next s' ∧ P s'

/-- Nothing but mailbox pair `p` differs. -/
def PairOnly (s s' : State) (p : Nat) : Prop :=
  (∀ k, k ≠ p → s'.pci.pairs.at k = s.pci.pairs.at k) ∧ { s' with pci := { s'.pci with pairs := s.pci.pairs } } = s

/-- A BAR4 access of `n` bytes lies in the window and in DRAM, and the protection unit lets it write (R369). -/
def State.Bar4Ok (x : State) (a n : Nat) : Prop :=
  let b := x.pci.bar4Base * 2 ^ 28 + a
  x.hostReach = true ∧ a + n ≤ x.pci.bar4Size ∧ 0 < n ∧ regionOf b = .dram ∧ regionOf (b + n - 1) = .dram ∧ x.accessStatus initPcie b n true = 0

/-- An idle engine takes pair `b` of owner `o`, which passes the checks of R89 without an index table. -/
def State.PairPasses (x : State) (e : Nat) (o : DmaOwner) (b : Bytes) (y : State) : Prop :=
  let d := x.mem.dma.at e
  let src := streamOf (b.take 64)
  let dst := streamOf (b.drop 64)
  d.failed = false ∧ d.item = none ∧ d.cancelDrain = false ∧ x.nextPairOf e o = some (b, 0, y) ∧ src.invalid = false ∧ dst.invalid = false ∧
    src.gather = false ∧ dst.gather = false ∧ y.dmaCheck e src [] dst [] = 0

/-- Engine `e` moves item `it`: neither failed nor draining a cancelled one. -/
def State.Moves (x : State) (e : Nat) (it : DmaItem) : Prop :=
  (x.mem.dma.at e).item = some it ∧ (x.mem.dma.at e).failed = false ∧ (x.mem.dma.at e).cancelDrain = false

/-- The item's next write has a tag and passes the port, the map and the protection unit (R90, R91). -/
def State.WritePasses (x : State) (e : Nat) (it : DmaItem) : Prop :=
  let w := streamOf it.dst
  let a := (w.addrOf it.dstIndex it.writeIssued).toNat
  let n := w.reqLen it.dstIndex it.writeIssued it.openEnd
  (freeTag (it.reqs ++ (x.mem.dma.at e).draining)).isSome = true ∧ it.writeIssued < it.openEnd ∧
    x.ownerShut it.owner (x.storeSpans w.coded n a n) = false ∧ x.accessAll (initDma e) (x.storeSpans w.coded n a n) true = 0

/-- The node in context `i` runs and is not cancelled. -/
def State.Runs (x : State) (i : Nat) (c : Ctx) : Prop := x.ctx? i = some c ∧ c.state = .running ∧ c.draining = false

/-- The first macro of a Spire node may start, its descriptor `b` reads and its extents pass (R165, R171). -/
def State.MacroDue (x : State) (i : Nat) (c : Ctx) (b : Bytes) (y : State) : Prop :=
  c.type = 4 ∧ 0 < c.workCount ∧ x.macro? i 0 = none ∧ x.coresFree i 0 c = true ∧ x.readElem c 0 = (b, 0, y) ∧ mDual b = false ∧
    ((c.cores.map (· / 16)).eraseDups.map (y.macroExtents b false)).find? (· ≠ 0) = none

/-- The reduction job that Belfry writes for macro `m` passes its checks, in a free slot (R82, R83). -/
def State.JobDue (x : State) (i : Nat) (c : Ctx) (m : MacroRun) (y : State) : Prop :=
  let b := jobBytes m.desc m.view.aFmt m.view.bFmt
  m.phase = .reduce ∧ aGet x.mem.jobs (mRjob m.desc) = none ∧ y = (x.writeRaw initBelfry (0x40_2000_0000 + 1024 * mRjob m.desc) b).2 ∧
    y.jobOk c.graph b (jobOf i b) = true

/-- The lane of a core holds no tile, and its next, of macro `k`, can be staged (R94). -/
def State.TileDue (x : State) (i core q k tile : Nat) (c : Ctx) (m : MacroRun) : Prop :=
  x.nodeOfCore core = some (i, c) ∧ x.macro? i k = some m ∧ (x.lane core q).tile = none ∧ (x.lane core q).order[(x.lane core q).busy]? = some (k, tile, false) ∧
    m.tilesRun = true ∧ x.coreReady core = true ∧ (((x.stageAhead core q .clean 0 3).lane core q).stagedAt k tile).isSome = true

/-- The first pass of a lane's tile is due, and no word it takes is bad (R143, R144, R521). -/
def State.PassDue (x : State) (core q : Nat) (w : Work) (p : Pass) (y : State) : Prop :=
  let loaded := (x.lane core q).loaded == some (w.setName 0)
  (x.lane core q).passGap = 0 ∧ x.workOn core q (·.tile) = some w ∧ usesArray w.run.desc = true ∧ w.tp.fill.pass = 0 ∧ w.tp.full = none ∧
    x.prevHeld core q w.node = 0 ∧ w.passes[0]? = some p ∧ x.firstBad core (w.passSpans loaded p (x.nextSet core q w 0)) = none ∧
    x.reachOwn w.run.view w.stage p loaded = some y

/-- The cycles that the rows of a pass take, no fewer than the path's floor (R144). -/
def Work.gap (w : Work) : Nat :=
  max ((groupRows w.run.desc w.stage.mi w.tp.fill.index).length * passRate w.run.view.aFmt) (passFloor w.run.view.path)

/-- A group of a lane's tile is full, no trap is pending and no word its drain takes is bad (R147, R521). -/
def State.DrainDue (x : State) (core q : Nat) (w : Work) (g : AccGroup) (tp : TileProg) (acc : List (List Acc)) : Prop :=
  x.workOn core q (x.drainSel core) = some w ∧ w.tp.drainNext w.run = some (g, tp) ∧ x.firstBad core (w.run.view.drainSpans w.stage g.index) = none ∧
    (x.lane core q).trap = none ∧ x.closeGroup w.run.view w.stage g = some acc ∧ (x.drainGroup w.run.view w.stage g.index acc).status = 0

/-- A write-out of a lane's oldest tile lands on this module, and more groups follow (R176). -/
def State.WriteOutDue (x : State) (core q : Nat) (w : Work) (o : GroupOut) (os : List GroupOut) : Prop :=
  x.workOn core q (fun l => l.prevs.head?.or l.tile) = some w ∧ w.tp.outs = o :: os ∧ w.tp.groupsDone + 1 < mGroups w.run.desc w.stage.mi ∧
    (∀ b ∈ o.writes, ∀ m, regionOf b.addr ≠ .peer m) ∧ (x.landWrites core o.writes).1 = 0

/-- The bypass path may form its sums: its group is free, nothing traps and nothing is out of range (R149). -/
def State.MmvDue (x : State) (core : Nat) (w : Work) (tp : TileProg) (acc : List (List Acc)) : Prop :=
  let cols := tileCols w.run.desc w.stage.ni
  x.workOn core 4 (·.tile) = some w ∧ mOp w.run.desc = 2 ∧ w.tp.nextFill 1 (mGroups w.run.desc w.stage.mi) (x.prevHeld core 4 w.node) = some tp ∧
    x.mem.bad = [] ∧ x.mmvTrap w.run.view w.stage tp.fill.index = 0 ∧
    x.issuePass w.run.view w.stage tp.fill.index cols ⟨cols, 0, mK w.run.desc⟩ 0 [] = some acc

/-- The line that an RFE reads next is of its oldest frame, in the FIFO, and no output holds it (R241). -/
def State.LineDue (x : State) (r c : Nat) (f : Frame) : Prop :=
  x.rfeCam r = some c ∧ (x.cams.at c).frames.head? = some f ∧ (x.rfe.at r).failed = false ∧ x.rfeHeld f none = false ∧
    ∃ l ls, (x.cams.at c).lines = l :: ls ∧ l.frame = f.num ∧ l.slot = none

/-- A tap to DRAM of the oldest frame of an RFE has a row-group ready (R281). -/
def State.TapDue (x : State) (r c tap : Nat) (f : Frame) : Prop :=
  let d := f.taps.at tap
  r < 16 ∧ c < 16 ∧ tap < 4 ∧ x.rfeCam r = some c ∧ (x.cams.at c).frames.head? = some f ∧ (x.rfe.at r).failed = false ∧ x.bf.ctxs = [] ∧ d ≠ [] ∧ tapEnable d = true ∧
    tapDest d = 0 ∧ f.tapDone.at tap = false ∧ f.parityLines = 0 ∧ x.rfeHeld f (some tap) = false ∧ (x.cams.at c).tapReady f d (f.tapNext.at tap) = true

/-- An SNE's only choice is a row-group of camera `c` (R304). -/
def State.UnitDue (x : State) (sn c : Nat) (n : Net) (f : Frame) (g : RowGroup) : Prop :=
  (x.sne.at sn).unit = none ∧ (x.sne.at sn).inService ≠ 0 ∧ (∃ d k, x.sneChoices sn = [(d, k, c, g.index)]) ∧ (x.cams.at c).net = some n ∧
    n.groups = [g] ∧ (x.cams.at c).frames.head? = some f

/-- The unit in progress of an SNE arrives in time, its words good, its camera on the network path, and neither its row-group nor the oldest is
complete with it (R268, R303). -/
def State.UnitOnTime (x : State) (sn : Nat) (u : SneUnit) (n : Net) : Prop :=
  (x.sne.at sn).unit = some u ∧ u.cam < 16 ∧ x.weightsBad sn = false ∧ x.isBad (0x42_000C_0000 + sn * 0x10_0000) 0x4_0000 = false ∧ (x.cams.at u.cam).net = some n ∧
    n.active = true ∧ ∃ f g, (x.cams.at u.cam).frames.head? = some f ∧ f.num = u.frame ∧ f.switchUnit = none ∧ f.classical = false ∧ n.groups = [g] ∧
      g.index = u.group ∧ x.now ≤ g.deadline ∧ 1 < f.stripes ∧ g.merged = 0 ∧ f.returned < u.group ∧ aGet f.merged (f.returned * f.stripes) = none

/-- The next operation of an engine's node reads, and its extents and its table pass (R322). -/
def State.OpPasses (x : State) (u : Nat) (r : VisRun) (c : Ctx) (d : Bytes) (y : State) : Prop :=
  x.visReady u = some (r, c) ∧ x.readElem c r.opsDone = (d, 0, y) ∧ vIndirect d = false ∧ x.peerWaits (opRanges u d) = false ∧
    x.nodeShut r.ctx (opRanges u d) = false ∧ y.extentStatus (initVision u) (opExtents u d) (opPieces u d) = 0 ∧ (y.readVisTable u d).2.1 = 0

/-- An operation of a running node is in progress on an engine. -/
def State.OpRuns (x : State) (u : Nat) (r : VisRun) (d : Bytes) : Prop :=
  (x.vis.at u).run = some r ∧ r.op = some d ∧ ∃ c, x.ctx? r.ctx = some c ∧ c.draining = false

/-- Its next band finds its words good, and what it writes is taken (R340, R341). -/
def State.BandPasses (x : State) (u : Nat) (r : VisRun) (d : Bytes) : Prop :=
  let f := x.bandBuf u r d
  r.band < opBands u d ∧ x.peerWaits (opRanges u d) = false ∧ f.1.bad = false ∧
    (f.2.writeAll (initVision u) (r.nextBand (readBufs [f.1] f.2.peek) u d).1).1 = 0

/-- The image of a GRAPH_ADMIT request is admitted, and names no unit behind a gate (R38 to R40, R383). -/
def State.Admits (x : State) (b : Bytes) (m : GraphImage) (v : AdmitPlan) (w : AdmitVerdict) : Prop :=
  let d := mapImage (fld b 0x0C 4) (fld b 0x10 8) x.straps.module m
  admitReqBad b = false ∧ mapsOk (fld b 0x0C 4) (fld b 0x10 8) m = true ∧ x.admitGraph d (bit (fld b 0x18 1) 0) none (imageCtxs d) = (v, w) ∧
    w.status = 0 ∧ v.gates = []

/-- A parked graph's save region reads, and the graph is admitted again, naming no unit behind a gate (R41). -/
def State.Restores (x : State) (g : Nat) (q : Graph) (v : AdmitPlan) (w : AdmitVerdict) : Prop :=
  q.parked = true ∧ ∃ a n b y, q.saved = some (a, n) ∧ x.read initFirmware a (256 * q.image.contexts.length + 2 * q.image.beacons.length) = (b, 0, y) ∧
    y.admitGraph q.image q.bestEffort (some g) (restoredCtxs q.image b) = (v, w) ∧ w.status = 0 ∧ v.gates = []

/-- A graph that is admitted has no instance in flight, and its save region is valid (R41). -/
def State.SaveDue (x : State) (q : Graph) (b : Bytes) : Prop :=
  fld b 1 1 = 0 ∧ fld b 2 2 = 0 ∧ bits (fld b 8 8) 40 24 = 0 ∧ q.parked = false ∧ q.inFlight = false ∧ x.saveRegionOk q (fld b 8 8) (fld b 4 4) = true

/-- A NETWORK_BIND record without layers passes the checks of R307, on an SNE whose gate is open. -/
def State.NetPasses (x : State) (b : Bytes) : Prop :=
  let h := x.read initFirmware (nImage b) 64
  (x.netChecks b h.1 h.2.1 []).status = 0 ∧ x.gated (.sne (nSne b)) = false

/-- A set that loads for the camera of an RFE reads, and passes its checks (R277). -/
def State.SetPasses (x : State) (r c : Nat) (w : PsetSub) (b : Bytes) : Prop :=
  (x.rfe.at r).loading = some w ∧ (∃ y, x.read (initDma x.pixelDma) w.addr 24192 = (b, 0, y)) ∧ psetBad (bW (x.cams.at c).bind) (bH (x.cams.at c).bind) b = false

/-- A running field node's next record reads and is a set-point (R427). -/
def State.RecordDue (x : State) (q : FieldRun) : Prop :=
  x.active = true ∧ x.field.runs = [q] ∧ ∃ c b y, x.Runs q.ctx c ∧ q.sent < c.workCount ∧ x.readElem c q.sent = (b, 0, y) ∧ recordOk b = true

/-- A relay of a running node has a unit to take (R405). -/
def State.RelayDue (x : State) (k : Nat) (y : Relay) (c : Ctx) (q : McGroup) (v : McRecv) : Prop :=
  (x.peer.at k).relay = some y ∧ x.Runs y.ctx c ∧ y.overs = false ∧ (x.peer.at k).retrain = false ∧ v.taken < v.delivered ∧
    ∃ g, x.relayGroup? c = some g ∧ aGet x.bf.groups g = some q ∧ q.recvs[c.relayRecv]? = some v

end Sys2Proof.Machine
end

