-- ==== Sys2Proof/Certificates/Slice0/Obligations.lean ====
section
/-! DEFINITION. The statements for the provers. -/
open Sys2Proof Sys2Proof.Machine

/-- The command at the front of the queue is what a step runs, with the rest of the queue (the queue is the model's own). -/
def Obligations.StepRunsFrontCommand : Prop :=
 ∀ (s : State) (c : Instr) (rest : List Instr), s.pending = c :: rest → step s = exec c { s with pending := rest }

/-- Every command answers a next state, in every state; the one exception is JTAG_DEBUG_COMMAND with DEBUG_OPEN blown, which is refused by name (R457 gives debug access no effect). -/
def Obligations.EveryCommandCompletes : Prop :=
 ∀ (c : Instr) (s : State),
  (∃ s', exec c s = .next s') ∨
   (exec c s = .refused .debugAccess ∧ (∃ t, c = .jtagDebugCommand t) ∧ s.fuses.debugOpen = true)

/-- From every state in which the internal store and the modelled host memory are in canonical form, a step that answers a next state leaves them so. -/
def Obligations.MemoryStaysCanonical : Prop :=
 ∀ s s' : State, s.MemWf → step s = .next s' → s'.MemWf

/-- At reset no cell of either store is listed, so both are in canonical form (the model's choice, log entries 3 and 4); no command waits; after R412 every channel is OFF with its enable low, so the invariants that every step keeps hold there. -/
def Obligations.InvariantsHoldAtReset : Prop :=
 State.reset.MemWf ∧ State.reset.mem.cells = [] ∧ State.reset.mem.host = [] ∧ State.reset.pending = [] ∧
  State.reset.lantern.Safe ∧ ∀ ch < 6, (State.reset.lantern.chans.at ch).state = .off ∧ (State.reset.lantern.chans.at ch).enable = false

/-- After R52: in every step the timebase count stays or advances by whole cycles of 4 ns, whatever the command (a STEP or a SLEW of DEVTIME among them). -/
def Obligations.TimebaseNeverRunsBack : Prop :=
 ∀ s s' : State, step s = .next s' → ∃ n, s'.clock.timebase = s.clock.timebase + 4 * n

/-- The queue loses its front command and nothing else, and the mesh number that the straps set stays (R393; the queue is the model's own). On an empty queue one timebase cycle of 4 ns passes, which answers a next state, and nothing but the clock changes (the model's choice, log entry 2). -/
def Obligations.QueueTakenInOrder : Prop :=
 (∀ s s' : State, step s = .next s' → s'.pending = s.pending.tail ∧ s'.straps = s.straps) ∧
  ∀ s : State, s.pending = [] →
   ∃ s', step s = .next s' ∧ s'.clock.timebase = s.clock.timebase + 4 ∧ { s' with clock := s.clock } = s

/-- After chapter 16: a command other than the field die's own events, the frames that reach it and its reset leaves every register, channel and pin of Lantern as it was, the device resets of the host die among them. -/
def Obligations.FieldDieKeepsItself : Prop :=
 ∀ (c : Instr) (s s' : State), onFieldDie c = false → exec c s = .next s' → s'.lantern = s.lantern

/-- After R454, R460 and R463: fuses are only ever blown. Across every step the anti-rollback counter never falls, a revoked key slot stays revoked, and every other fused field is unchanged. -/
def Obligations.FusesOnlyBlown : Prop :=
 ∀ s s' : State, step s = .next s' → s.fuses.Blown s'.fuses

/-- After R412 and R418: in every state that satisfies it, a step keeps that each channel's enable is driven low in any state other than RUN and RAMP, and that every channel is OFF until Lantern has left reset and its self-test. -/
def Obligations.EnablesFollowState : Prop :=
 ∀ s s' : State, s.lantern.Safe → step s = .next s' → s'.lantern.Safe

/-- After R370 to R373. -/
def Obligations.HostPairWrites : Prop :=
 ∀ (s x : State) (t p v : Nat) (q : Pair), p < 16 → s.at t = x → x.hostReach = true → x.pci.pairs.at p = q →
  (q.enabled = false → q.enable = false → 1 ≤ bits v 4 4 → bits v 4 4 ≤ 8 → 1 ≤ bits v 0 4 → bits v 0 4 ≤ 8 →
   Completes (.mbxEnable t p v) s fun s' => PairOnly x s' p ∧
    s'.pci.pairs.at p = { q.idle with enable := true, enabled := true, fetchErr := false, writeErr := false,
                                      rspLog2 := bits v 4 4, reqLog2 := bits v 0 4 }) ∧
  (q.enabled = true → q.cur = none →
   Completes (.mbxDisable t p v) s fun s' => PairOnly x.discardWrite s' p ∧ s'.pci.pairs.at p = { q.idle with enable := false }) ∧
  (∀ a b, Completes (.mbxReqDoorbell t p v [(a, b)]) s fun s' =>
   if q.enabled = true ∧ (v % 2 ^ 16 + 2 ^ 16 - q.reqHead) % 2 ^ 16 ≤ q.reqEntries ∧
     q.waiting ≤ (v % 2 ^ 16 + 2 ^ 16 - q.reqHead) % 2 ^ 16
   then PairOnly (x.hostPut a b) s' p ∧ s'.pci.pairs.at p = { q with reqTail := v % 2 ^ 16 }
   else s' = (x.hostPut a b).discardWrite) ∧
  Completes (.mbxRspHeadWrite t p v) s fun s' =>
   if q.enabled = true ∧ (q.rspTail + 2 ^ 16 - v % 2 ^ 16) % 2 ^ 16 ≤ (q.rspTail + 2 ^ 16 - q.rspHead) % 2 ^ 16
   then PairOnly x s' p ∧ s'.pci.pairs.at p = { q with rspHead := v % 2 ^ 16 }
   else s' = x.discardWrite

/-- After R372 and R375. -/
def Obligations.ResponseWritten : Prop :=
 ∀ (s : State) (p st d : Nat) (rest : Bytes) (q : Pair) (r : MbxReq) (base : Nat),
  p < 16 → memWf s.mem.host = true → s.pci.pairs.at p = q → q.cur = some r → q.enabled = true → q.enable = true →
  0 < q.rspFree → s.hostWritable = true → rest.length ≤ 4076 → base = q.rspBase + (q.rspTail % q.rspEntries) * 4096 →
  let s' := s.respond p st d rest
  memRead s'.mem.host base 16 = leBytes 2 r.opcode ++ leBytes 2 (4 + rest.length) ++ leBytes 4 r.seq ++ leBytes 4 r.tag
    ++ leBytes 4 (1 - q.rspTail / q.rspEntries % 2) ∧
   memRead s'.mem.host (base + 16) (4 + rest.length) = leBytes 2 st ++ leBytes 2 d ++ rest ∧
   (s'.pci.pairs.at p).rspTail = (q.rspTail + 1) % 2 ^ 16 ∧ (s'.pci.pairs.at p).cur = none ∧
   bit s'.pci.cause (2 + p) = true ∧
   ∀ a, a < base ∨ base + 20 + rest.length ≤ a → memGet s'.mem.host a = memGet s.mem.host a

/-- After R386, R385 and R471. -/
def Obligations.EventsLoggedAndSignalled : Prop :=
 ∀ (s : State) (st src u : Nat) (vs : List Nat) (data : Bytes),
  let s' := s.event st src u vs data
  eventPayload st src u s.deviceHealth.code s.dev data ∈ s'.watch.evLog.recs ∧ (∀ v ∈ vs, bit s'.pci.cause v = true) ∧
   (s'.pci.eventNo = (s.pci.eventNo + 1) % 2 ^ 32 ∧ s'.pci.eventsLost = s.pci.eventsLost ∨
    s'.pci.eventNo = s.pci.eventNo ∧ s'.pci.eventsLost = satInc 32 s.pci.eventsLost)

/-- After R385, R482 and R489. -/
def Obligations.InterruptSentOnce : Prop :=
 ∀ (s : State) (v k : Nat),
  bit (s.raise v).pci.cause k = (k == v || bit s.pci.cause k) ∧ (s.raise v).raise v = s.raise v ∧
   (bit s.pci.cause v = false →
    if (s.pci.msix.at v).masked = false ∧ s.pci.d3hot = false ∧ s.pci.linkUp = true
    then (s.raise v).out = s.out ++ [.msix v (s.pci.msix.at v).addr (s.pci.msix.at v).data] ∧
     (s.raise v).pci.pendingBits = s.pci.pendingBits
    else (s.raise v).out = s.out ∧ bit (s.raise v).pci.pendingBits v = true)

/-- After R10, R367 to R369, R385 and R476. -/
def Obligations.HostRegisterWrites : Prop :=
 ∀ (s x : State) (t v : Nat), s.at t = x →
  (x.hostReach = true →
   exec (.pciBar4BaseWrite t v) s = .next
    (if bits v 28 12 * 2 ^ 28 % x.pci.bar4Size = 0 ∧ bits v 28 12 * 2 ^ 28 + x.pci.bar4Size ≤ x.dramEnd
     then { x with pci := { x.pci with bar4Base := bits v 28 12 } } else x.discardWrite) ∧
   (∀ hi, Completes (.pciIntStatusClear t hi v) s fun s' =>
    { s' with pci := { s'.pci with cause := x.pci.cause } } = x ∧
    ∀ k, bit s'.pci.cause k = (bit x.pci.cause k &&
     !(if hi then 32 ≤ k && k < 64 && bit v (k - 32) else k < 32 && bit v k))) ∧
   (∀ b : Bytes, b.length = 4 →
    exec (.registerWrite t true .bar0 0x110 (.write b)) s = .next { x with pci := { x.pci with scratch := fld b 0 4 } } ∧
    exec (.registerWrite t true .bar0 0x111 (.write b)) s = .next x.discardWrite ∧
    exec (.registerWrite t true .bar0 0x10C (.write b)) s = .next x.refuseWrite)) ∧
  (x.resets.held = [] → bit v 31 = true →
   Completes (.prtCommit t v) s fun s' =>
    if bits v 0 9 + bits v 9 3 + 1 ≤ 512 ∧ (∀ k ≤ bits v 9 3, prtReserved (x.watch.prtStage.at k) = false) ∧
      ∀ k ≤ bits v 9 3, ∀ e, aGet x.watch.prt (bits v 0 9 + k) = some e → e.lock = false
    then { s' with watch := { s'.watch with prt := x.watch.prt, prtStatus := x.watch.prtStatus } } = x ∧ s'.watch.prtStatus = 0 ∧
     ∀ j, aGet s'.watch.prt j = if bits v 0 9 ≤ j ∧ j ≤ bits v 0 9 + bits v 9 3
      then some (prtOf (x.watch.prtStage.at (j - bits v 0 9))) else aGet x.watch.prt j
    else s' = { x with watch := { x.watch with prtStatus := 0x0A0E } })

/-- After R371, R372, R376 to R378 and R390. -/
def Obligations.RequestsTaken : Prop :=
 ∀ (s x y : State) (t p : Nat) (h : Bytes) (r : MbxReq), s.at t = x → x.mailboxesServed = true → x.nextTake = some p → p < 16 →
  x.slotRequest p = (h, r) →
  y = ({ x with pci := { x.pci with nextPair := (p + 1) % 16, takes := x.pci.takes + 1 } } : State).modPair p (fun q =>
   { q with reqHead := (q.reqHead + 1) % 2 ^ 16, cur := some { r with turn := x.pci.takes }, expect := some ((r.seq + 1) % 2 ^ 32) }) →
  let e := (x.pci.pairs.at p).expect
  let fails := fun (st : Nat) => exec (.mailboxRequestTake t) s = .next (y.answer p st)
  (4080 < fld h 2 2 → fails 0x0102) ∧
  (fld h 2 2 ≤ 4080 → fld h 12 4 ≠ 0 → fails 0x0104) ∧
  (fld h 2 2 ≤ 4080 → fld h 12 4 = 0 → (∃ n, e = some n ∧ n ≠ r.seq) → fails 0x0105) ∧
  (fld h 2 2 ≤ 4080 → fld h 12 4 = 0 → (∀ n, e = some n → n = r.seq) →
   (opKnown r.opcode = false → fails 0x0101) ∧
   (opKnown r.opcode = true →
    (x.pci.state = .booting → opAlways r.opcode = false → exec (.mailboxRequestTake t) s = .next y) ∧
    (x.pci.state ≠ .booting →
     (opServed x.pci.state p r.opcode = false → fails 0x0106) ∧
     (opServed x.pci.state p r.opcode = true → lengthOk r.opcode r.payload = false → fails 0x0103) ∧
     (opServed x.pci.state p r.opcode = true → lengthOk r.opcode r.payload = true →
      (∀ k, k ≠ p → (x.pci.pairs.at k).cur = none) → exec (.mailboxRequestTake t) s = .next y))))

/-- After R37, R380 to R382, R386, R470 and R472. -/
def Obligations.ManagementRequestsAnswered : Prop :=
 ∀ (s x : State) (t p : Nat) (r : MbxReq), s.at t = x →
  (x.req? p 0x01 = some r → exec (.identify t p) s = .next (x.respond p 0 0 x.identity)) ∧
  (x.req? p 0x02 = some r → exec (.getState t p) s = .next (x.respond p 0 0 x.stateReport)) ∧
  (x.req? p 0x40 = some r →
   exec (.telemetry t p) s = .next ((x.freeBytes 4).2.respond p 0 0 (x.telemetry (x.freeBytes 4).1))) ∧
  (x.req? p 0x03 = some r → exec (.setEvents t p) s = .next
   (if fld r.payload 0 1 / 16 % 16 = 0 ∧ allZero (sub r.payload 1 3) = true
    then ({ x with pci := { x.pci with eventPair := fld r.payload 0 1 % 16, eventMask := fld r.payload 4 4 } } : State).answer p 0
    else x.answer p 0x0107)) ∧
  (x.req? p 0x15 = some r → exec (.contextRead t p) s = .next
   (if fld r.payload 2 1 ≤ 14 ∧ fld r.payload 3 1 = 0 ∧ fld r.payload 0 2 + fld r.payload 2 1 < 4096
    then x.respond p 0 0 ((List.range (fld r.payload 2 1 + 1)).flatMap fun k => x.ctxBytes (fld r.payload 0 2 + k) ((x.ctx? (fld r.payload 0 2 + k)).getD {}))
    else x.answer p 0x0107)) ∧
  (x.req? p 0x41 = some r → exec (.logRead t p) s = .next
   (if fld r.payload 0 1 ≤ 1 ∧ fld r.payload 1 1 ≤ 126 ∧ fld r.payload 2 2 = 0
    then let a := (if fld r.payload 0 1 = 0 then x.watch.errLog else x.watch.evLog).answer (fld r.payload 4 4) (fld r.payload 1 1 + 1)
     x.respond p 0 a.1 a.2
    else x.answer p 0x0107))

/-- After R473. -/
def Obligations.DevtimeCommands : Prop :=
 ∀ (s x : State) (t p : Nat) (r : MbxReq) (v : Nat), s.at t = x →
  (x.hostReach = true → exec (.wtDevtimeRead t) s = .next
   { x with clock := { x.clock with latchedHi := x.clock.devtime / 2 ^ 32 }, out := x.out ++ [.regRead (x.clock.devtime % 2 ^ 32)] }) ∧
  (x.req? p 0x43 = some r → allZero (sub r.payload 1 7) = true → v = fld r.payload 8 8 →
  (fld r.payload 0 1 = 0 → exec (.devtimeRead t p) s = .next (x.answerTime p 0)) ∧
  (fld r.payload 0 1 = 1 → exec (.devtimeStep t p) s = .next
   (if x.clock.devtime < v
    then ({ x with clock := { x.clock with devtime := v, frac := 0 },
                   cams := x.cams.map fun k => { k with stepped := true } } : State).answerTime p 0
    else x.answer p 0x0A0D)) ∧
  (fld r.payload 0 1 = 2 → exec (.devtimeSlew t p) s = .next
   (if -500000 ≤ toSigned 64 v ∧ toSigned 64 v ≤ 500000
    then ({ x with clock := { x.clock with trimPpb := toSigned 64 v, slewEnd := none } } : State).answerTime p 0
    else x.answer p 0x0A0D)) ∧
  (fld r.payload 0 1 = 3 → exec (.devtimePps t p) s = .next
   (if v ≤ 1
    then ({ x with clock := { x.clock with ppsOn := v == 1, ppsLast := x.clock.timebase, ppsLost := false, slewEnd := none } } : State).answerTime p 0
    else x.answer p 0x0107)))

/-- After R473. -/
def Obligations.PpsDiscipline : Prop :=
 ∀ (s x : State) (t : Nat), s.at t = x → x.resets.held = [] →
  (x.clock.ppsOn = false → exec (.ppsEdge t) s = .next x) ∧
  (x.clock.ppsOn = true → x.clock.slewEnd = none →
   (x.clock.devtime % 1000000000 ≤ 998999999 → 500000000 ≤ x.clock.devtime % 1000000000 → Completes (.ppsEdge t) s fun s' =>
    s'.clock = { x.clock with ppsError := (x.clock.devtime % 1000000000 : Int) - 1000000000, ppsLast := x.clock.timebase, ppsLost := false,
                              devtime := (x.clock.devtime / 1000000000 * 1000000000 + 1000000000) % 2 ^ 64, frac := 0 } ∧
    (∀ c < 16, (s'.cams.at c).stepped = true)) ∧
   (x.clock.devtime % 1000000000 < 500000000 → exec (.ppsEdge t) s = .next { x with clock := { x.clock with
     ppsError := (x.clock.devtime % 1000000000 : Int), ppsLast := x.clock.timebase, ppsLost := false,
     trimPpb := clampInt (-500000) 500000 (x.clock.trimPpb - (x.clock.devtime % 1000000000 : Int))
     slewEnd := some (x.clock.timebase + 1000000000, x.clock.trimPpb) } })) ∧
  (x.clock.ppsOn = true → x.clock.ppsLost = false → x.clock.ppsLast + 2000000000 ≤ x.clock.timebase →
   exec (.ppsLoss t) s = .next (({ x with clock := { x.clock with ppsLost := true } } : State).event 0x0A12 10 0xFF [1]))

/-- After R482. -/
def Obligations.ClocksLost : Prop :=
 ∀ (s x : State) (t : Nat), s.at t = x →
  exec (.pcieRefclkLoss t) s = .next { x with power := { x.power with refPcie := false }, pci := { x.pci with linkUp := false } } ∧
  exec (.plRefclkLoss t) s = .next
   (((({ x with power := { x.power with refPl := false } } : State).losePeer 0).losePeer 1).losePeer 2) ∧
  (x.power.xtal = true →
   exec (.xtal32kLoss t) s = .next (({ x with power := { x.power with xtal := false } } : State).note 0x0A2A 10 0xFF))

/-- After R484 to R486 and R468. -/
def Obligations.OperatingPoints : Prop :=
 ∀ (s x : State) (t n point : Nat) (k : Steeple), s.at t = x → n < 8 → x.power.steeples.at n = k → x.active = true →
  k.gated = false →
  (k.vrmFault = false → k.change = .none → k.point < point → point ≤ 4 →
   exec (.dvfsChange t n point) s = .next (x.modSteeple n fun k => { k with paused := true, change := .relock point true })) ∧
  (k.vrmFault = false → k.change = .none → point < k.point → point ≤ 4 → x.flash.profile.pmbus = true →
   exec (.dvfsChange t n point) s = .next
    ((x.emit (.vout n (x.pointMv point))).modSteeple n fun k => { k with change := .vout point x.clock.timebase })) ∧
  (∀ since mv, k.change = .vout point since →
   (x.clock.timebase ≤ since + 200000 → mv ≤ x.pointMv point + 10 → x.pointMv point ≤ mv + 10 →
    Completes (.dvfsVoutSettled t n mv) s fun s' =>
     s'.power.steeples.at n = { k with voutMv := mv, paused := true, change := .relock point false }) ∧
   (since + 200000 < x.clock.timebase →
    exec (.dvfsVoutSettled t n mv) s = .next ((x.modSteeple n fun k => { k with voutMv := mv }).vrmFault n))) ∧
  (∀ lower, k.change = .relock point lower → x.watch.rising = [] → Completes (.dvfsRelockComplete t n) s fun s' =>
   s'.power.steeples.at n = { k with point := point, paused := false, change := .none } ∧
   s'.out = x.out ++ (if lower = true ∧ x.flash.profile.pmbus = true then [.vout n (x.pointMv point)] else [])) ∧
  (x.flash.profile.pmbus = true → exec (.pmbusFault t n) s = .next (x.vrmFault n)) ∧
  (∀ last, x.watch.throttled = [(n, last)] → x.watch.rising = [] → last + 10000000 ≤ x.clock.timebase → k.vrmFault = false →
   k.change = .none → k.point < 4 →
   Completes (.throttleStep t n) s fun s' => s'.watch.throttled = [(n, x.clock.timebase)] ∧
    s'.power.steeples.at n = { k with paused := true, change := .relock (k.point + 1) true })

/-- After R467 to R469 and R491. -/
def Obligations.MonitorsAct : Prop :=
 ∀ (s x : State) (t : Nat), s.at t = x → x.resets.held = [] →
  (∀ temps : List Int, temps.length = 32 → (∃ v ∈ temps, 920 ≤ v) →
   Completes (.temperatureSample t temps) s fun s' => s'.resets.held = [.trip] ∧ s'.watch.tripped = true ∧
    s'.resets.cause = x.resets.cause ∧ s'.resets.count = x.resets.count ∧ s'.out = x.out ++ [.thermtrip] ∧
    s'.pci = {} ∧ s'.watch.ret = x.watch.ret ∧ s'.bf = {} ∧ s'.clock.devtime = 0) ∧
  (∀ temps : List Int, temps.length = 32 → (∀ v ∈ temps, v < 760) → x.pci.hokudan = true → x.watch.warn = 95 → x.watch.throttle = 103 →
   x.watch.warned = [] → x.watch.throttled = [] → x.watch.rising = [] → x.power.refMissing = true →
   Completes (.temperatureSample t temps) s fun s' =>
    { s' with watch := { s'.watch with temp := x.watch.temp, tempTime := x.watch.tempTime } } = x ∧
    s'.watch.tempTime = x.clock.devtime ∧ ∀ i < 32, s'.watch.temp.at i = temps.getD i 0) ∧
  (∀ mv : List Nat, mv.length = 13 → x.pci.hokudan = true →
   exec (.voltageSample t mv) s = .next ((List.range 13).foldl (fun s r => s.checkRail r (mv.getD r 0)) x) ∧
   ∀ r, r < 13 → ∀ y : State, (y.checkRail r (mv.getD r 0)).watch.volt.at r = mv.getD r 0 ∧
    (y.setPoint r * 19 ≤ mv.getD r 0 * 20 → mv.getD r 0 * 20 ≤ y.setPoint r * 21 →
     (y.checkRail r (mv.getD r 0)).watch.voltOut.at r = 0 ∧ (y.checkRail r (mv.getD r 0)).watch.evLog = y.watch.evLog))

/-- After R488. -/
def Obligations.GatesOpen : Prop :=
 ∀ (s x : State) (t : Nat) (u : GateUnit), s.at t = x →
  (x.power.ungating.contains u = false → exec (.unitUngateComplete t u) s = .next x) ∧
  (x.power.ungating.contains u = true → Completes (.unitUngateComplete t u) s fun s' =>
   s'.power.ungating = x.power.ungating.filter (· ≠ u) ∧ s'.out = x.out ∧ s'.bf = x.bf ∧ s'.watch = x.watch ∧
   (∀ n < 8, u = .steeple n → (s'.power.steeples.at n).gated = false ∧
    ∀ k < 16, ∀ a < 0x8_0000, memGet s'.mem.cells (localBase (16 * n + k) + a) = 0) ∧
   (∀ n < 4, u = .sne n → s'.power.sneGated.at n = false ∧ ∀ a < 0x10_0000, memGet s'.mem.cells (0x42_0000_0000 + n * 0x10_0000 + a) = 0) ∧
   (∀ n < 16, u = .rfe n → s'.power.rfeGated.at n = false ∧ ∀ a < 0x10_0000, memGet s'.mem.cells (0x43_0000_0000 + n * 0x10_0000 + a) = 0) ∧
   (∀ n < 6, u = .vis n → s'.power.visGated.at n = false))

/-- After R490 and R491. -/
def Obligations.ResetSourcesHold : Prop :=
 ∀ (s x : State) (t : Nat), s.at t = x →
  let full := fun (s' : State) (cause : Nat) => s'.resets.cause = cause ∧ s'.resets.count = satInc 16 x.resets.count ∧
   s'.clock = { timebase := x.clock.timebase } ∧ s'.bf = {} ∧ s'.watch.ret.events = x.watch.ret.events ∧ s'.fuses = x.fuses ∧
   s'.lantern = x.lantern ∧ s'.straps = x.straps
  let held := fun (h : ResetHold) => if x.resets.held.contains h then x.resets.held else x.resets.held ++ [h]
  (Completes (.powerOnReset t) s fun s' => s'.resets = {} ∧ s'.watch = {} ∧ s'.pci = {} ∧ s'.bf = {} ∧ s'.mem.cells = [] ∧
   s'.clock = { timebase := x.clock.timebase } ∧ s'.lantern = x.lantern ∧ s'.fuses = x.fuses ∧ s'.straps = x.straps) ∧
  (Completes (.resetNAssert t) s fun s' => full s' 3 ∧ s'.resets.held = held .pins ∧ s'.watch.ret = x.watch.ret ∧ s'.pci = {}) ∧
  (Completes (.perstNAssert t) s fun s' => full s' 4 ∧ s'.resets.held = held .pins ∧ s'.watch.ret = x.watch.ret ∧ s'.pci = {}) ∧
  (Completes (.supplyFailure t) s fun s' => full s' 1 ∧ s'.resets.held = held .supply ∧ s'.pci = {} ∧
   s'.watch.ret.bootStatus = x.watch.ret.bootStatus ++ [0x0A26]) ∧
  (Completes (.refclkSysLoss t) s fun s' => full s' 2 ∧ s'.resets.held = held .clock ∧ s'.pci = {} ∧
   s'.watch.ret.bootStatus = x.watch.ret.bootStatus ++ [0x0A29]) ∧
  (x.resets.held = [] → Completes (.watchtowerWatchdogExpiry t) s fun s' => full s' 5 ∧ s'.resets.held = [] ∧
   s'.watch.ret.bootStatus = x.watch.ret.bootStatus ++ [0x0A27] ∧ s'.watch.booting = some x.firstImage)

/-- After R490 and R492. -/
def Obligations.ResetReleasedLast : Prop :=
 ∀ (s x : State) (t : Nat) (h : ResetHold), s.at t = x →
  let boots := some x.firstImage
  (∀ c, (c = Instr.resetRelease t ∧ h = .pins ∨ c = .supplyRestore t ∧ h = .supply ∨ c = .refclkSysRestore t ∧ h = .clock) →
   (x.resets.held.contains h = false → exec c s = .next x) ∧
   (x.resets.held.contains h = true → (x.resets.held.filter (· ≠ h)) ≠ [] → Completes c s fun s' =>
    s'.resets.held = x.resets.held.filter (· ≠ h) ∧ s'.watch = x.watch ∧ s'.pci = x.pci) ∧
   (x.resets.held.contains h = true → (x.resets.held.filter (· ≠ h)) = [] → Completes c s fun s' =>
    s'.resets.held = [] ∧ s'.watch.booting = boots ∧ s'.power.refSys = true ∧ s'.pci.linkUp = s'.power.refPcie ∧ s'.bf = x.bf))

/-- After R366, R391, R453, R456 and R491. -/
def Obligations.ResetsByCommand : Prop :=
 ∀ (s x : State) (t p : Nat) (r : MbxReq), s.at t = x →
  (x.req? p 0x04 = some r → allZero (sub r.payload 1 3) = true →
   (fld r.payload 0 1 = 0 → Completes (.resetFull t p) s fun s' => s' = (((x.answer p 0).resetLinked .noLink 6).startBoot) ∧
    s'.resets.cause = 6 ∧ s'.bf = {} ∧ s'.clock.devtime = x.clock.devtime ∧ s'.watch.booting.isSome = true) ∧
   (fld r.payload 0 1 = 1 → Completes (.resetWarm t p) s fun s' => s' = (x.answer p 0).resetLinked .warm 7 ∧
    s'.resets.cause = 7 ∧ s'.bf = {} ∧ s'.pci.state = .booting ∧
    s'.clock.devtime = x.clock.devtime)) ∧
  (x.resets.held = [] → x.pci.linkUp = true → Completes (.functionLevelReset t) s fun s' =>
   s' = x.resetLinked .warm 7 ∧ s'.pci.state = .booting ∧ s'.pci.linkUp = true ∧ s'.clock = x.clock ∧ s'.watch.fwVersion = x.watch.fwVersion ∧
   s'.mem.cells = x.mem.cells ∧ s'.bf = {} ∧ s'.lantern = x.lantern ∧ s'.resets.cause = 7) ∧
  (x.resets.held = [] → x.pci.state ≠ .fatal → Completes (.watchtowerLockstepMismatch t) s fun s' =>
   s'.pci.state = .fatal ∧ s'.pci.fatalStatus = 0x090B ∧ s'.bf.halted = true ∧ s'.resets.cause = 8 ∧ s'.watch.prt = x.watch.prt ∧
   s'.clock = x.clock ∧ 0x090B ∈ s'.watch.ret.bootStatus ∧ s'.watch.booting.isSome = true ∧ s'.lantern = x.lantern)

/-- After R461, R462, R465 and R466. -/
def Obligations.BootVerifiesInOrder : Prop :=
 ∀ (s x : State) (t k : Nat), s.at t = x → x.resets.held = [] → x.watch.booting = some k →
  let b := x.flash.slots.getD k []
  (k < 2 → x.verify b = 0 → Completes (.bootImageVerified t) s fun s' => s'.watch.slot = k ∧ s'.watch.svnRunning = imgSvn b ∧
   s'.watch.fwVersion = imgVersion b ∧ s'.watch.booting = none ∧ s'.pci.hokudan = true ∧ s'.pci.state = x.pci.state) ∧
  (k = 0 → x.verify b ≠ 0 → exec (.bootImageVerified t) s = .next { x with watch := { x.watch with
    booting := some 1, ret := { x.watch.ret with bootStatus := x.watch.ret.bootStatus ++ [0x0A01] } } }) ∧
  (k = 1 → x.verify b ≠ 0 → Completes (.bootImageVerified t) s fun s' =>
   s' = (x.bootNote 0x0A02).enterRecovery ∧ s'.pci.state = .recovery ∧ s'.watch.booting = none ∧ s'.watch.slot = 0xFF) ∧
  (∀ g : StagedBoot, k = 2 → x.watch.ret.staged = some g →
   let st := x.verify ((memRead x.mem.cells g.addr g.len).take (imgBytes (memRead x.mem.cells g.addr g.len)))
   st ≠ 0 → exec (.bootImageVerified t) s = .next { x with watch := { x.watch with
     booting := some 0, ret := { x.watch.ret with staged := none, bootStatus := x.watch.ret.bootStatus ++ [st] } } })

/-- After R104, R386, R390 and R452. -/
def Obligations.FirmwareReadyStarts : Prop :=
 ∀ (s x : State) (t : Nat), s.at t = x →
  (x.pci.state ≠ .booting → ∀ fails, exec (.firmwareReady t fails) s = .next x) ∧
  (x.pci.state = .booting → x.pci.hokudan = true → x.resets.held = [] → x.watch.booting = none → x.watch.slot ≠ 0xFF →
   (Completes (.firmwareReady t []) s fun s' => s'.pci.state = .ready ∧ s'.bf.ready = true ∧
    (x.watch.everReady = false → s'.pci.eventPair = 0 ∧ s'.pci.eventMask = 0x7FF) ∧ s'.mem.counters = [] ∧ s'.mem.bad = []) ∧
   (∀ fails, StartFail.memory 0 ∈ fails → (if (x.mem.cfg.at 0).lock = true then x.mem.cfg.at 0 else cfgOf x.flash.profile 0).populated = true →
    Completes (.firmwareReady t fails) s fun s' => s'.pci.state = .fatal ∧ s'.pci.fatalStatus = 0x0312 ∧ s'.bf.ready = false)) ∧
  (x.pci.state = .booting → x.pci.hokudan = true → x.resets.held = [] → x.watch.booting = none → x.watch.slot = 0xFF → ∀ fails,
   Completes (.firmwareReady t fails) s fun s' => s'.pci.state = .recovery ∧ s'.bf = x.bf ∧ s'.mem.cells = x.mem.cells)

/-- After R464 to R466. -/
def Obligations.FirmwareUpdates : Prop :=
 ∀ (s x : State) (t p : Nat) (r : MbxReq), s.at t = x →
  (x.req? p 0x50 = some r → allZero (sub r.payload 4 4) = true → x.pci.state = .ready → 0x40_0000 ≤ x.dramEnd →
   exec (.fwWrite t p) s = .next
    (if fld r.payload 0 4 % 8 ≠ 0 then x.answer p 0x0107
     else if 0x40_0000 < fld r.payload 0 4 + (r.payload.drop 8).length then x.answer p 0x0A07
     else (x.writeRaw initFirmware (x.dramEnd - 0x40_0000 + fld r.payload 0 4) (r.payload.drop 8)).2.answer p 0)) ∧
  (x.req? p 0x51 = some r → fld r.payload 0 1 < 2 → allZero (sub r.payload 1 3) = true → fld r.payload 4 4 ≤ 0x40_0000 →
   let image := memRead x.mem.cells x.staging (fld r.payload 4 4)
   (imgBytes image ≠ fld r.payload 4 4 → exec (.fwCommit t p) s = .next (x.answer p 0x0A04)) ∧
   (imgBytes image = fld r.payload 4 4 → x.verify image ≠ 0 → exec (.fwCommit t p) s = .next (x.answer p (x.verify image))) ∧
   (imgBytes image = fld r.payload 4 4 → x.verify image = 0 → x.flash.writing = [] → x.flash.repairDue = false →
    Completes (.fwCommit t p) s fun s' => s'.flash.writing = [.commit (some p) (fld r.payload 0 1) image] ∧
     s'.flash.slots = x.flash.slots.set (fld r.payload 0 1) [])) ∧
  (∀ target image ok, x.resets.held = [] → x.flash.writing = [.commit (some p) target image] → 2 ≤ x.watch.slot →
   exec (.flashWriteComplete t ok) s = .next
    (let good := ok && x.verify image == 0
     (({ x with flash := { x.flash with writing := [], slots := if good = true then x.flash.slots.set target image else x.flash.slots } } : State).answer
      p (if good = true then 0 else 0x0A08)).beginFlash))

/-- After R457. -/
def Obligations.DebugCommands : Prop :=
 ∀ (s x : State) (t : Nat), s.at t = x →
  (x.fuses.debugOpen = false →
   exec (.jtagDebugCommand t) s = .next { x with watch := { x.watch with jtagRefused := min (x.watch.jtagRefused + 1) 255 } }) ∧
  (x.fuses.debugOpen = true → exec (.jtagDebugCommand t) s = .refused .debugAccess)

/-- After R493 to R498. -/
def Obligations.CalibrationRuns : Prop :=
 ∀ (s x : State) (t b : Nat) (k : CalBlock) (codes : Bytes), s.at t = x → b < 18 → x.power.blocks.at b = k → x.calibrating = true →
  x.calEnabled b = true →
  (∀ rs, k.live = false → x.power.refMissing = true → exec (.calibrationMeasureComplete t b rs codes) s =
   .next (x.modBlock b fun k => { k with live := true, codes := padTo 224 (x.fuses.factory.getD b []) })) ∧
  (∀ rs, k.live = false → x.power.refMissing = false → x.seedOf b = none → Completes (.calibrationMeasureComplete t b rs codes) s fun s' =>
   let y := s'.power.blocks.at b
   y.done = true ∧ y.live = true ∧ y.running = false ∧ y.seeded = false ∧ y.codes = padTo 224 codes ∧ y.dev = x.clock.devtime ∧
   y.temp = x.watch.temp.at (calSensor b)) ∧
  (∀ rs, rs ≠ [] → k.live = true → k.running = true → k.waiting = none →
   (∀ r ∈ rs, calPasses b ((aGet k.lanes r.lane).getD {}) r = true) →
   Completes (.calibrationMeasureComplete t b rs codes) s fun s' => ∃ lanes,
    s' = x.modBlock b (fun k => { k with waiting := some (x.clock.timebase, lanes, padTo 224 codes) }) ∧
    lanes.map (·.1) = rs.map (·.lane) ∧ lanes.map (·.2.codes) = rs.map (·.codes)) ∧
  (∀ r, k.live = true → k.running = true → k.waiting = none → calPasses b ((aGet k.lanes r.lane).getD {}) r = false →
   ((aGet k.lanes r.lane).getD {}).discards = 0 →
   Completes (.calibrationMeasureComplete t b [r] codes) s fun s' => (s'.power.blocks.at b).running = false ∧
    (s'.power.blocks.at b).codes = k.codes ∧ aGet (s'.power.blocks.at b).lanes r.lane =
     some { (aGet k.lanes r.lane).getD {} with discards := 1, retryAt := some (x.clock.timebase + 1000000000) }) ∧
  (∀ since lanes image, k.waiting = some (since, lanes, image) → Completes (.calibrationApply t b) s fun s' =>
   let y := s'.power.blocks.at b
   y.waiting = none ∧ y.running = false ∧ y.codes = image ∧ y.lanes = lanes.foldl (fun l z => aSet l z.1 z.2) k.lanes) ∧
  (∀ lane l due, k.live = true → k.running = false → k.waiting = none → k.lanes = [(lane, l)] → l.retryAt = some due → due ≤ x.clock.timebase →
   exec (.calibrationRemeasure t b) s =
    .next (x.modBlock b fun k => { k with running := true, lanes := [(lane, { l with retryAt := none })] }))

/-- R499. -/
def Obligations.CalibrationNoGapDiscards : Prop :=
 ∀ (s x : State) (t b : Nat) (since : Nat) (lanes : List (Nat × CalLane)) (image : Bytes), s.at t = x → b < 14 →
  (x.power.blocks.at b).waiting = some (since, lanes, image) → x.calibrating = true →
  exec (.calibrationNoGap t b) s = .next
   (if x.clock.timebase < since + 1000000000 then x
    else (((x.modBlock b fun k => { k with waiting := none, running := false }).note 0x0A23 10 b).modBlock b fun k =>
     { k with running := true, temp := x.watch.temp.at (calSensor b), dev := x.clock.devtime }))

/-- After R501 and R502. -/
def Obligations.CalibrationStored : Prop :=
 ∀ (s x : State) (t p b : Nat) (r : MbxReq), s.at t = x →
  (x.req? p 0x62 = some r →
   (calBlockOf (fld r.payload 0 1) (fld r.payload 1 1) = none → exec (.calRead t p) s = .next (x.answer p 0x0107)) ∧
   (calBlockOf (fld r.payload 0 1) (fld r.payload 1 1) = some b → fld r.payload 2 2 = 0 → exec (.calRead t p) s = .next
    (if (x.power.blocks.at b).done = true then x.respond p 0 0 (x.calImage (fld r.payload 0 1) (fld r.payload 1 1) b)
     else x.answer p 0x0A2B))) ∧
  (x.req? p 0x63 = some r → fld r.payload 2 2 = 0 →
   (fld r.payload 0 1 = 4 → fld r.payload 1 1 = 0 → exec (.calWrite t p) s = .next (x.respond p 0x0A25 1 [])) ∧
   (calBlockOf (fld r.payload 0 1) (fld r.payload 1 1) = some b → fld r.payload 0 1 ≠ 4 →
    let d := x.calRefusal (fld r.payload 0 1) (fld r.payload 1 1) b (sub r.payload 4 256)
    (d ≠ 0 → exec (.calWrite t p) s = .next (x.respond p 0x0A25 d [])) ∧
    (d = 0 → fld r.payload 0 1 ≠ 2 →
     exec (.calWrite t p) s = .next ((x.modBlock b fun k => { k with seed := some (sub r.payload 4 256) }).answer p 0)) ∧
    (d = 0 → fld r.payload 0 1 = 2 → exec (.calWrite t p) s = .next (({ x with watch := { x.watch with ret := { x.watch.ret with
      memSeeds := aSet x.watch.ret.memSeeds (fld r.payload 1 1) (sub r.payload 4 256) } } } : State).answer p 0))))

/-- After R500. -/
def Obligations.MaintenanceWindows : Prop :=
 ∀ (s x : State) (t m : Nat), s.at t = x → m < 4 → x.memRuns m = true →
  (Completes (.zqCalibration t m) s fun s' => s'.power.zq.at m = true ∧ (∀ k, k ≠ m → s'.power.zq.at k = x.power.zq.at k) ∧
   { s' with power := { s'.power with zq := x.power.zq } } = x) ∧
  (Completes (.maintenanceWindow t m) s fun s' => s'.power.zq.at m = false ∧
   s'.power.windows.at m = x.power.windows.at m + 1 ∧ s'.power.zqDone.at m = x.power.zqDone.at m + (if x.power.zq.at m = true then 1 else 0) ∧
   { s' with power := { s'.power with zq := x.power.zq, windows := x.power.windows, zqDone := x.power.zqDone } } = x)

/-- R34. -/
def Obligations.AnchorsSkipOrStart : Prop :=
 ∀ (s x : State) (t g : Nat) (q : Graph), s.at t = x → aGet x.bf.graphs g = some q → x.active = true → x.bf.halted = false →
  q.parked = false → q.stopped = false → q.drain = .none →
  (∀ p ∈ x.bf.ctxs, p.2.graph = g → p.2.enable = true) →
  (q.anchorAt x.clock.timebase = none → exec (.anchorEvent t g) s = .next x) ∧
  ∀ a, q.anchorAt x.clock.timebase = some a →
   let y := x.modGraph g fun q => { q with timerLast := if q.anchorCtx.anchorKind = 3 then some a else none }
   ((∀ c ∈ q.copies, c ≠ none) → Completes (.anchorEvent t g) s fun s' =>
    s'.bf = { y.bf with skipCount := min (x.bf.skipCount + 1) (2 ^ 32 - 1), graphs := aMod y.bf.graphs g fun q => { q with status := 0x020A } }) ∧
   (∀ k : Nat, q.copies[k]? = some none → Completes (.anchorEvent t g) s fun s' => ∃ j : Nat, q.copies[j]? = some none ∧
    s' = y.startInstance g j (y.anchorFrame q) a)

/-- After R33, R37, R44 and R52. -/
def Obligations.InstanceStartsWaiting : Prop :=
 ∀ (s : State) (g k f a i : Nat) (c : Ctx), s.ctx? i = some c →
  ∃ c', (s.startInstance g k f a).ctx? i = some c' ∧ c'.prog = c.prog ∧ c'.runs = c.runs ∧
   (c.graph = g → c.copy = k → c'.frame = f ∧ c'.missed = false ∧ c'.signalled = false ∧ c'.draining = false ∧
    (c'.state = .waiting ∨ c'.state = .ready ∧ c'.tReady = s.dev)) ∧
   (c.graph ≠ g ∨ c.copy ≠ k → c' = c ∨ c.state = .waiting ∧ c' = { c with state := .ready, tReady := s.dev })

/-- After R44, R46, R49 and R62. -/
def Obligations.DispatchTakesCounts : Prop :=
 ∀ (s x : State) (t i : Nat) (c : Ctx), s.at t = x → x.ctx? i = some c → x.active = true → x.bf.halted = false → c.state = .ready →
  c.draining = false →
  (x.waitsMet c = true → x.mayStart i c = true → c.type ≠ 9 →
   exec (.nodeDispatch t i none .clean) s = .next (((x.consume c).startNode i c).cascadeAll c.graph c.copy)) ∧
  (x.waitsMet c = true → x.mayStart i c = true → c.type = 9 → exec (.nodeDispatch t i none .clean) s = .next
   ((((x.consume c).modCtx i fun c => { c with tStart := x.clock.devtime }).endNode i .done 0 0xFFFFFFFF).cascadeAll c.graph c.copy)) ∧
  (x.waitsMet c = true → x.mayStart i c = false → exec (.nodeDispatch t i none .clean) s = .next x) ∧
  (x.waitsMet c = false → exec (.nodeDispatch t i none .clean) s = .next
   ((x.modCtx i fun c => { c with state := .waiting }).cascadeAll c.graph c.copy)) ∧
  (exec (.nodeDispatch t i none .uncorrectable) s = .next ((x.contextUe i).stopGraph c.graph 0x0910)) ∧
  (∀ w, c.waits = [w] → w.observe = false → (x.consume c).beaconValue w.beacon = x.beaconValue w.beacon - w.count) ∧
  (∀ w, c.waits = [w] → w.observe = true → x.consume c = x)

/-- R43. -/
def Obligations.SignalsAdd : Prop :=
 ∀ (s x : State) (t b inc v : Nat), s.at t = x → b < 16384 → x.active = true → x.bf.halted = false → x.bf.fatal = false →
  x.beacon b = { a := v, b := v, c := v } →
  (∀ u, exec (.beaconSignal t b inc u) s = .next (x.signalBeacon b inc u)) ∧
  ∃ s', exec (.beaconSignal t b inc none) s = .next s' ∧
   s'.beacon b = { a := min (v + inc) 65535, b := min (v + inc) 65535, c := min (v + inc) 65535 } ∧
   (∀ k, k ≠ b → s'.beacon k = x.beacon k) ∧
   (v + inc ≤ 65535 → s'.bf.overflowCount = x.bf.overflowCount ∧ s'.bf.graphs = x.bf.graphs) ∧
   (65535 < v + inc → s'.bf.overflowCount = min (x.bf.overflowCount + 1) (2 ^ 32 - 1) ∧
    (∀ g, x.beaconOwner b = some g → s'.bf.graphs = aMod x.bf.graphs g fun q => { q with status := 0x0209, stopped := true }) ∧
    (∀ g q k, aGet s'.bf.graphs g = some q → q.stopped = true →
     exec (.anchorEvent k g) s' = .next (s'.at k)))

/-- After R37, R51 and R64. -/
def Obligations.NodesEnd : Prop :=
 ∀ (s : State) (i status last : Nat) (st : NodeState) (c : Ctx), s.ctx? i = some c →
  st = .done ∨ st = .cancelled ∨ st = .faulted →
  let code := if st = .done ∧ status = 0 then (if c.poisoned = true then 0x0309 else if c.missed = true then 0x0208 else 0) else status
  ∃ c', (s.endNode i st status last).ctx? i = some c' ∧ c'.state = st ∧ c'.draining = false ∧ c'.lastStatus = code ∧
   c'.tDone = s.dev ∧ c'.lastTile = last ∧ c'.runs = (if st = .done then satInc 32 c.runs else c.runs) ∧
   c'.cancels = (if st = .cancelled then satInc 32 c.cancels else c.cancels) ∧ c'.frame = c.frame ∧ c'.prog = c.prog

/-- After R45, R47, R48, R51, R52 and R63. -/
def Obligations.NodesCompleteFaultOrMiss : Prop :=
 ∀ (s x : State) (t i : Nat) (c : Ctx), s.at t = x → x.ctx? i = some c → x.active = true → c.draining = false →
  (c.isSource = false → c.state = .running → x.workDone i c = true → exec (.nodeComplete t i) s = .next
   ((((x.closeWork i c .done 0).endNode i .done 0 (x.lastTileOf i c)).dropWork i c 0).cascadeAll c.graph c.copy)) ∧
  (∀ st, exec (.nodeFault t i st) s = .next (if c.type = 2 ∨ statusReturned st = false then x else x.unitFault i st)) ∧
  (∀ d, x.absDeadline c = some d → (c.state = .waiting ∨ c.state = .ready ∨ c.state = .running) → c.missed = false →
   (x.clock.timebase ≤ d → exec (.deadlineMiss t i) s = .next x) ∧
   (d < x.clock.timebase →
    let y := ((x.modCtx i fun c => { c with missed := true, misses := satInc 32 c.misses }).modBf fun b =>
     { b with missCount := satInc 32 b.missCount }).raise (34 + c.graph % 16)
    (c.missPolicy = 0 ∨ c.missPolicy = 1 ∧ c.cancellable = false → exec (.deadlineMiss t i) s = .next y) ∧
    (c.missPolicy = 1 → c.cancellable = true → exec (.deadlineMiss t i) s = .next (y.cancelNode i)) ∧
    (c.missPolicy = 2 → exec (.deadlineMiss t i) s = .next (y.cancelInstance c.graph c.copy)))) ∧
  (∀ k f, aGet x.bf.fused i = some f → c.state = .running → k < f.passed.length →
   exec (.fusedStageResume t i k) s = .next (if f.hasSlot c.fuseSlots k = true
    then { x with bf := { x.bf with fused := aSet x.bf.fused i { passed := f.passed.modify k (· + 1) } } } else x))

/-- After R41, R60 to R62 and R380. -/
def Obligations.CancelsByScope : Prop :=
 ∀ (s x : State) (t p g i : Nat) (r : MbxReq), s.at t = x →
  (x.req? p 0x14 = some r → fld r.payload 1 1 = g → fld r.payload 4 2 = i → fld r.payload 3 1 = 0 → fld r.payload 6 2 = 0 →
   fld r.payload 2 1 ≤ 3 →
   (aGet x.bf.graphs g = none → fld r.payload 0 1 ≤ 2 → exec (.cancel t p) s = .next (x.answer p 0x0203)) ∧
   (∀ q, aGet x.bf.graphs g = some q → q.parked = false →
    (∀ c, fld r.payload 0 1 = 0 → x.ctx? i = some c → c.graph = g → exec (.cancel t p) s = .next
     (if c.cancellable = true then (x.cancelNode i).answer p 0 else x.answer p 0x0211)) ∧
    (fld r.payload 0 1 = 1 → fld r.payload 2 1 < q.copies.length →
     exec (.cancel t p) s = .next ((x.cancelInstance g (fld r.payload 2 1)).answer p 0)) ∧
    (fld r.payload 0 1 = 2 → exec (.cancel t p) s = .next ((x.cancelGraph g).answer p 0)))) ∧
  (∀ c, x.ctx? i = some c → x.active = true → c.draining = true → exec (.cancelDrainComplete t i) s = .next
   ((((x.flushOpen i).closeWork i c .cancelled 0x0207).endNode i .cancelled 0x0207 ((x.flushOpen i).lastTileOf i c)).dropWork i c 0x0207)) ∧
  (∀ q hostFail, aGet x.bf.graphs g = some q → x.active = true →
   (q.inFlight = true → exec (.parkDrainComplete t ⟨g, hostFail⟩) s = .next x) ∧
   (q.inFlight = false → q.drain = .park p → exec (.parkDrainComplete t ⟨g, hostFail⟩) s = .next (x.evictGraph g p hostFail).gateUnused) ∧
   (q.inFlight = false → q.drain = .stop p → exec (.parkDrainComplete t ⟨g, hostFail⟩) s = .next (((x.removeGraph g).gateUnused).answer p 0)))

/-- For each form of these families one condition on the state and the operands alone under which it has its own effect, and that effect; its other cases stand in the statements that follow (R53 to R60, R66, R75 to R104, R143 to R187, R228 to R257, R369, R374, R436 to R441, R453, R489). `D f y`. -/
def Obligations.UnitsCompleteOwnEffects : Prop :=
∀ (s x : State) (t p g i k e m n a : Nat) (r : MbxReq) (c : Ctx) (b : Bytes) (y : State), s.at t = x → x.active = true →
let D : Instr → State → Prop := fun f y => exec f s = .next y
let E : Instr → (State → Prop) → Prop := fun f P => ∃ z, exec f s = .next z ∧ P z
let H : Nat → Prop := fun op => x.req? p op = some r
let f := fld r.payload
(∀ q v l ls, x.recv? g k = some (q, v) →
 (q.isTap = true → v.todo = l :: ls → v.gaps = [] → x.beaconValue (q.creditBeacon k) ≠ 0 → E (.multicastUnitWrite t g k) fun z => ∃ y : State, z =
 (((y.modRecv g k fun v => { v with todo := ls, delivered := v.delivered + 1, holdFrom := none }).signalBeacon (q.unitBeacon k) 1).freeIfDone g).reportUnits g) ∧
 (∀ h hs, v.gaps = h :: hs → x.beaconValue (q.creditBeacon k) ≠ 0 → E (.gapMarkerWrite t g k) fun z => ∃ y : State, z =
 ((y.modRecv g k fun v => { v with gaps := hs, delivered := v.delivered + 1, holdFrom := none }).signalBeacon (q.unitBeacon k) 1).reportUnits g) ∧
 (v.todo = l :: ls → v.holdFrom = some a → a + q.holdLimit * 1000 ≤ x.now → x.beaconValue (q.creditBeacon k) = 0 → q.policy ≠ 2 →
 D (.holdLimitExpiry t g k) ((x.shed g k 1).reportUnits g))) ∧
(x.pci.state ≠ .fatal → E (.belfryLockstepMismatch t) fun z => z.pci.state = .fatal ∧ z.bf.halted = true) ∧
(x.Bar4Ok a b.length → D (.bar4Access t a 0 (.write b)) (x.writeRaw initPcie (x.pci.bar4Base * 2 ^ 28 + a) b).2) ∧
((x.pci.pairs.at p).enabled = true → D (.pcieCompletionTimeout t (.response p)) (x.stopPair p 0x010A)) ∧
(x.hostReach = true → D (.d3hotEntry t) { x with pci := { x.pci with d3hot := true } }) ∧
(x.pci.d3hot = true → E (.d0Return t) fun z => ∃ y : State, y.pci.d3hot = false ∧ z = y.deliverHeld.sendPending) ∧
(H 0x16 → f 0 1 ≤ 8 → allZero (sub r.payload 1 3) = true → x.cacheFree = true → D (.setCache t p) ((x.setCache (f 0 1)).answer p 0)) ∧
(H 0x30 → f 0 1 ≤ 63 → f 1 1 = 0 → allZero (sub r.payload 2 6) = true → D (.hostWindow t p) ((x.modPci fun y => { y with windows := y.windows.mod (f 0 1) fun _ => {} }).answer p 0)) ∧
(H 0x31 → f 0 1 ≤ 11 → allZero (sub r.payload 1 7) = true → (x.mem.dma.at (f 0 1)).failed = false → D (.dmaCopy t p) (x.startReq p)) ∧
(m < 4 → E (.memCfgLock t m) (fun z => (z.mem.cfg.at m).lock = true) ∧ ((x.mem.cfg.at m).populated = true → E (.memoryInterfaceLoss t m) fun z => z.pci.state = .fatal)) ∧
(∀ o, x.PairPasses e o b y → D (.dmaWorkItemStart t e o) (y.modDma e fun z => { z with item := some { owner := o, index := (x.mem.dma.at e).itemsDone, src := b.take 64, dst := b.drop 64 } })) ∧
(∀ w, x.Moves e w → let n := (streamOf w.dst).total
 (x.WritePasses e w → E (.dmaRequestIssue t e true) fun z => ∃ j, z = x.modDma e fun y => { y with item := some { w with reqs := w.reqs ++ [j], writeIssued := w.writeIssued + j.len } }) ∧
 (w.reqs = [] → w.chunksOpen * 4096 < n → min ((w.chunksOpen + 1) * 4096) n ≤ w.readIssued → D (.dmaChunkWriteStart t e) (x.modDma e fun y => { y with item := some { w with chunksOpen := w.chunksOpen + 1 } })) ∧
 (w.reqs = [] → w.chunksDone < w.chunksOpen → (w.chunksDone + 1) * 4096 < n → (w.chunksDone + 1) * 4096 ≤ w.writeIssued →
 E (.dmaChunkComplete t e) fun z => ∃ l, z = x.modDma e fun y => { y with item := some { w with chunksDone := w.chunksDone + 1 }, chunksDone := y.chunksDone + l }) ∧
 (∀ q, (x.mem.dma.at e).draining = [] → w.reqs = [q] → q.write = true → x.peerWaits [(q.addr, q.len)] = false → E (.dmaRequestComplete t e q.tag .ok none none) fun z =>
 ∃ y : State, z = y.dmaLand e { w with reqs := [] } q .ok none)) ∧
D (.dmaEngineFailure t e) (x.failDma e) ∧
(regionOf a = .counters → (a % 8 = 0 → x.accessStatus i a 4 true = 0 → x.counterBad ((a - 0x40_1000_0000) / 8) = false → E (.fetchAdd t i a 4 n none .clean) fun z => ∃ l j,
 z = (x.setCounter l (j + n)).emit (.fetched a (some j)) ∧ j = x.counter l) ∧
 (x.accessStatus initFirmware a b.length true = 0 → D (.workCounterWrite t initFirmware a b) (x.writeRaw initFirmware a b).2)) ∧
(∀ w, (x.scrubBad w = false → E (.scrubRead t w .clean true) fun z => z.reliab.passes = (x.reliab.passes + 1) % 256) ∧
 ((x.mem.cfg.at m).populated = true → x.ecc = true → x.scrubBad { w with store := 8, unit := m, addr := a } = false → E (.dramScrubRead t m a w .clean true) fun z =>
 z.reliab = { x.reliab with memScrubPos := x.reliab.memScrubPos.mod m fun _ => 0 })) ∧
(x.resets.held = [] → x.pci.hokudan = true → (x.watch.reload ≠ 3 → aGet x.reliab.wtPages a = none → E (.watchtowerFetchTrap t a true) fun z => ∃ y : State, z = y.note 0x0908 9 0xFF) ∧
 ∀ f, D (.fatalCondition t f) ((x.logCondition f).fatal (fatalStatusOf f))) ∧
(x.Runs i c → (x.MacroDue i c b y → D (.macroStart t i 0) (y.enterMacro i 0 c b none)) ∧
 ∀ w, x.macro? i k = some w →
 (x.JobDue i c w y → E (.reductionJobStart t i k) fun z => (aGet z.mem.jobs (mRjob w.desc)).isSome = true) ∧
 (w.phase = .reduced → E (.splitkDrainStart t i k) fun z => (z.macro? i k).map (·.phase) = some .drain) ∧
 (w.phase = .verdict → w.rerun = none → mQpolicy w.desc ≠ 2 → E (.quantVerdict t i k) fun z => ∃ y : State, z = y.afterVerdict i k w) ∧
 (w.phase = .flag → (x.write (initDma (c.cores.headD 0 / 16)) (scratchBase + 4 * mWfOut w.desc) (leBytes 4 w.flagWord)).1 = 0 → E (.wideFlagWrite t i k) fun z => ∃ y : State, z = y.completeMacro i k) ∧
 (∀ h l, x.mayClaim i k m c w = true → w.claims = [] → w.redo = h :: l → D (.tileClaim t i k m .clean .issue) ((x.modMacro i k fun m => { m with redo := l }).giveRun m k { h with redo := true })) ∧
 (∀ q, x.TileDue i m q k n c w → E (.tileStart t m q {}) fun z => ∃ y : State, ∃ f, z = (y.modLane m q fun l => l.begin { macroIx := k, tile := n }).modMacro i k f)) ∧
(∀ q w, (∀ h, x.PassDue m q w h y → D (.arrayPassIssue t m q n .clean a) (y.issueArray m q n w.gap w h (x.nextSet m q w 0))) ∧
 (∀ h f j, x.DrainDue m q w h f j → D (.groupDrain t m q .clean a) (x.leaveDrained m q h.index w f (x.drainGroup w.run.view w.stage h.index j))) ∧
 (∀ o l, x.WriteOutDue m q w o l → E (.groupWriteOutRetire t m ⟨q, .clean, a⟩) fun z => ∃ y : State, z = y.modLane m q fun h => h.put { w.tp with outs := l, groupsDone := w.tp.groupsDone + 1 }) ∧
 (∀ f j, x.MmvDue m w f j → D (.mmvExecute t m .clean a) (x.modLane m 4 fun l => l.put { f with fill := { f.fill with pass := 1, acc := j } }))) ∧
(m < 128 → (x.spc.at m).retired = false → ∀ f, E (.arrayParityError t m f) fun z => ∃ y : State, (y.spc.at m).selftest = true ∧ z = y.leaveAny m 0x0407) ∧
(x.nodeOfCore m = some (i, c) → c.draining = false → (x.spc.at m).quadMode = true → x.stretchDone i c = true → ((aGet x.spire i).map (·.aborted)).getD [] = [] →
 D (.quadrantModeExit t m) (x.modSpc m fun y => { y with quadMode := false, lanes := Vector.replicate 5 {} })) ∧
(∀ j q, aGet x.mem.jobs k = some j → j.parts[j.added]? = some q → x.jobLive j = true → j.added = 0 → 1 < j.parts.length → x.isBad q.1 (j.elems * j.size) = false →
 E (.reductionPartialAdd t k .clean) fun z => (aGet z.mem.jobs k).map (·.added) = some 1) ∧
(∀ f, arrayExists f = true → (x.testOf f).retired = false → let v := x.testOf f
 (v.selftest = true → v.rowDue = none → v.suspect = none → E (.arraySelftestComplete t f .pass) fun z => ∃ y : State, (y.testOf f).selftest = false ∧ z = ((y.answerTested v 0).updateHealth).gateUnused) ∧
 (v.rowDue = some n → x.arrayIdle f = true → E (.spareRowSwitch t f) fun z => ∃ y : State, z = ((y.answerTested v 0x040C).updateHealth).gateUnused) ∧
 (v.selftest = false → v.rowDue = none → x.arrayNamed f = false → x.arrayIdle f = true → x.gated (arrayGate f) = false → D (.periodicSelftest t f) (x.beginTest f none) ∧
 (H 0x42 → f = .core (fld r.payload 1 1) → fld r.payload 0 1 = 0 → allZero (sub r.payload 2 2) = true → D (.selftest t p) ((x.beginTest f (some p)).startReq p)))) ∧
(∀ w, (x.ports.at p).enable = true → (x.ports.at p).locked = true → w.header = .good → D (.csi2PacketReceive t p w) (x.routePacket p w)) ∧
(k < 16 → ∀ w, x.cams.at k = w →
 (w.live = true → w.leaving = false → D (.sensorFrameStart t k n) (x.frameStart k n) ∧ ∀ f, w.open_ = true → w.frames.getLast? = some f →
 D (.sensorFrameEnd t k) (x.endFrame k false) ∧ (f.since + w.timeoutNs ≤ x.now → D (.frameTimeout t k) ((x.endFrame k true).event 0x050C 3 k [18 + k]))) ∧
 (w.waiting = some (p, n) → n + 100000000 ≤ x.now → E (.portLockTimeout t k) fun z => ∃ y : State, z = ((y.unbindCam k).gateUnused).answer p 0x0509) ∧
 (∀ d, w.due = [d] → d.status ≠ 0x0510 → E (.exposureSequenceComplete t k) fun z => ∃ y : State, z = y.raise (18 + k) ∧ (y.cams.at k).due = []) ∧
 (w.bound = true → E (.sensorPortFailure t (.crossbar k)) fun z => (z.cams.at k).stopDue = some 0x0509)) ∧
(∀ f, x.LineDue n k f → E (.rfeLineRead t n .clean) fun z => ∃ y : State, z = (y.readyNet k f.rows.length (f.rows.length + 1)).returnGroups k (x.cams.at k).groupsN) ∧
(H 0x20 → x.bindStatus r.payload = 0 → x.power.rfeGated.at (bRfe r.payload) = false → D (.cameraBind t p) (x.startBinding p r.payload)) ∧
(H 0x21 → f 0 1 = k → k ≤ 15 → allZero (sub r.payload 1 3) = true → (x.cams.at k).bound = true → (x.cams.at k).waiting = none → (x.cams.at k).leaving = false →
 (x.cams.at k).stopped = false → D (.cameraUnbind t p) ((x.modCam k fun y => { y with unbindDue := true }).answer p 0)) ∧
((x.ports.at p).enable = true → (x.ports.at p).locked = false → p < 8 → E (.sensorPortLock t p) fun z => (z.ports.at p).locked = true) ∧
(∀ l h, x.takeExposure r.payload = (0, l, h) → H 0x24 → D (.exposure t p) (h.respond p 0 0 (leBytes 2 l ++ zeros 2))) ∧
(∀ l h, x.takeExposure b = (0, l, h) → e < 12 → scuReqBase ≤ a → a < scuReqBase + 512 → x.accessStatus (initDma e) a 32 true = 0 → b.length = 32 → a % 32 = 0 → D (.scuReqWrite t e a b) h) ∧
(k < 8 → (∀ l f h j, x.scu.bus.at k = none → firstDue ((x.relapseBus k).busDue k) = some (l, f, h, j) → E (.exposureSequenceIssue t k) fun z => ∃ y : State,
 z = y.issueTransaction k { cam := f, kind := j, epoch := h }) ∧
 (∀ o, x.scu.bus.at k = some o → (o.kind ≠ 2 → o.entry + 1 < ((x.cams.at o.cam).profile.seq o.kind).length →
  D (.i3cTransactionComplete t k false b) (x.issueTransaction k { o with entry := o.entry + 1, tries := 0 })) ∧
 (o.since + 1000000 ≤ x.now → o.tries < 2 → (x.cams.at o.cam).inWindow x.now = true → D (.i3cBusTimeout t k) (x.issueTransaction k { o with tries := o.tries + 1 }))) ∧
 D (.i3cInBandInterrupt t k a) { x with scu := { x.scu with ibi := x.scu.ibi ++ [(k, a % 128)] } }) ∧
(x.scu.imuRing = some (a, n) → 0 < n → E (.imuSample t a n [] []) fun z => z.scu.imuNext = (x.scu.imuNext + 1) % n) ∧
(H 0x27 → f 0 1 = k → k ≤ 15 → f 1 1 = 1 → f 6 2 = 0 → 0 < f 4 2 → f 4 2 ≤ 256 → r.payload.length = 8 → (x.cams.at k).live = true →
 E (.sensorXfer t p) fun z => ∃ l, z = (x.modCam k fun y => { y with xfers := y.xfers ++ [l] }).startReq p) ∧
(∀ j < 8, (x.genlock.at j).pin = true → E (.genlockAnchor t none) fun z => (z.genlock.at j).number = nextFrame (x.genlock.at j).number)

/-- After R53 to R59. -/
def Obligations.MulticastDelivers : Prop :=
 ∀ (s x : State) (t g r : Nat) (q : McGroup) (v : McRecv), s.at t = x → x.recv? g r = some (q, v) → x.active = true →
  (∀ u us, v.todo = u :: us →
   let due := q.awaiting r v
   let short := due.filter fun k => x.beaconValue (q.creditBeacon k) == 0
   (q.isTap = true → due = [r]) ∧
   (q.turnOf v = false → exec (.multicastUnitWrite t g r) s = .next x) ∧
   (q.turnOf v = true → short ≠ [] → exec (.multicastUnitWrite t g r) s = .next
    ((short.foldl (fun s k => s.holdOrShed g q k) x).reportUnits g)) ∧
   (∀ (y : State) k, y.holdOrShed g q k = (if q.policy = 1 ∨ q.holdLimit = 0 then y.shed g k 2
    else y.modRecv g k fun v => { v with holdFrom := some (v.holdFrom.getD y.clock.timebase) })) ∧
   (q.turnOf v = true → short = [] → (∀ k ∈ due, ∀ w, q.recvs[k]? = some w → w.gaps = []) → exec (.multicastUnitWrite t g r) s = .next
    (let y := x.setBeacon (q.creditBeacon r) (x.beaconValue (q.creditBeacon r) - 1)
     let a := q.slotAddr r v.delivered
     let p := y.unitPieces q u
     let z := (p.1.foldl (fun s l => s.record (s.groupInitiator q) (a + 16 + l.1) l.2) p.2).record (x.groupInitiator q) a
      (unitHeader g r { u with len := piecesLength p.1 })
     (((z.modRecv g r fun v => { v with todo := us, delivered := v.delivered + 1, holdFrom := none }).signalBeacon
      (q.unitBeacon r) 1).freeIfDone g).reportUnits g))) ∧
  (∀ m ms, v.gaps = m :: ms →
   (x.beaconValue (q.creditBeacon r) = 0 → exec (.gapMarkerWrite t g r) s = .next x) ∧
   (x.beaconValue (q.creditBeacon r) ≠ 0 → exec (.gapMarkerWrite t g r) s = .next
    (let y := x.setBeacon (q.creditBeacon r) (x.beaconValue (q.creditBeacon r) - 1)
     let f := y.freeBytes (q.slotBytes r - 16)
     (((f.2.record (f.2.groupInitiator q) (q.slotAddr r v.delivered) (gapBytes g r m ++ f.1)).modRecv g r fun v =>
      { v with gaps := ms, delivered := v.delivered + 1, holdFrom := none }).signalBeacon (q.unitBeacon r) 1).reportUnits g))) ∧
  (∀ u us since, v.todo = u :: us → v.holdFrom = some since →
   (x.clock.timebase < since + q.holdLimit * 1000 → exec (.holdLimitExpiry t g r) s = .next x) ∧
   (since + q.holdLimit * 1000 ≤ x.clock.timebase → x.beaconValue (q.creditBeacon r) ≠ 0 →
    exec (.holdLimitExpiry t g r) s = .next (x.modRecv g r fun v => { v with holdFrom := none })) ∧
   (since + q.holdLimit * 1000 ≤ x.clock.timebase → x.beaconValue (q.creditBeacon r) = 0 → q.policy ≠ 2 →
    exec (.holdLimitExpiry t g r) s = .next ((x.shed g r 1).reportUnits g)) ∧
   (since + q.holdLimit * 1000 ≤ x.clock.timebase → x.beaconValue (q.creditBeacon r) = 0 → q.policy = 2 → q.isTap = true → exec (.holdLimitExpiry t g r) s = .next
    ((((x.modGraph q.graph fun y => { y with status := 0x020B }).event 0x020B 5 q.graph [34 + q.graph % 16]).shed g r 1).reportUnits g)) ∧
   (∀ y copy, since + q.holdLimit * 1000 ≤ x.clock.timebase → x.beaconValue (q.creditBeacon r) = 0 → q.policy = 2 → q.isTap = false →
    aGet x.bf.graphs q.graph = some y → findIdx (fun n => (n.map (·.frame)) == some u.frame) y.copies 0 = some copy →
    exec (.holdLimitExpiry t g r) s = .next
     ((((x.modGraph q.graph fun y => { y with status := 0x020B }).event 0x020B 5 q.graph [34 + q.graph % 16]).modRecv g r fun v =>
      { v with holdFrom := none }).cancelInstance q.graph copy)))

/-- After R369, R374, R474, R477 and R489. -/
def Obligations.HostAndMemoryRequests : Prop :=
 ∀ (s x : State) (t off p m : Nat) (b : Bytes) (r : MbxReq), s.at t = x →
  (x.resets.held = [] →
  (x.hostReach = true → b ≠ [] → off + b.length ≤ x.pci.bar4Size → x.pci.bar4Base * 2 ^ 28 + off + b.length ≤ x.dramEnd →
   x.dramEnd ≤ 0x10_0000_0000 →
   (x.allowed initPcie (x.pci.bar4Base * 2 ^ 28 + off) b.length true = true →
    exec (.bar4Access t off 0 (.write b)) s = .next (x.writeRaw initPcie (x.pci.bar4Base * 2 ^ 28 + off) b).2) ∧
   (x.allowed initPcie (x.pci.bar4Base * 2 ^ 28 + off) b.length true = false → Completes (.bar4Access t off 0 (.write b)) s fun s' =>
    s'.mem.cells = x.mem.cells ∧ s'.mem.errCount = x.mem.errCount ∧ s'.pci.bar4Refused = satInc 16 x.pci.bar4Refused ∧
    s'.watch.denyCount = satInc 24 x.watch.denyCount ∧ s'.watch.denyLast = initPcie ∧ s'.out = x.out) ∧
   (x.allowed initPcie (x.pci.bar4Base * 2 ^ 28 + off) b.length false = false → Completes (.bar4Access t off b.length (.read .clean)) s fun s' =>
    s'.mem.cells = x.mem.cells ∧ s'.out = x.out ++ [.bar4 none false])) ∧
  ((x.pci.pairs.at p).enabled = true → p < 16 →
   (0 < (x.pci.pairs.at p).waiting → Completes (.pcieCompletionTimeout t (.fetch p)) s fun s' =>
    (s'.pci.pairs.at p).enabled = false ∧ (s'.pci.pairs.at p).fetchErr = true ∧ (s'.pci.pairs.at p).cur = none) ∧
   (Completes (.pcieCompletionTimeout t (.response p)) s fun s' =>
    (s'.pci.pairs.at p).enabled = false ∧ (s'.pci.pairs.at p).writeErr = true ∧ (s'.pci.pairs.at p).cur = none)) ∧
  (x.hostReach = true → exec (.d3hotEntry t) s = .next { x with pci := { x.pci with d3hot := true } }) ∧
  (x.pci.d3hot = true → exec (.d0Return t) s = .next (({ x with pci := { x.pci with d3hot := false } } : State).deliverHeld.sendPending))) ∧
  (x.req? p 0x16 = some r → allZero (sub r.payload 1 3) = true → exec (.setCache t p) s = .next
   (if 8 < fld r.payload 0 1 then x.answer p 0x0107
    else if (∃ g ∈ x.bf.graphs, g.2.partitions ≠ []) then x.answer p 0x030D
    else (x.setCache (fld r.payload 0 1)).answer p 0)) ∧
  (x.req? p 0x30 = some r → fld r.payload 0 1 ≤ 63 → fld r.payload 1 1 = 3 → allZero (sub r.payload 2 6) = true →
   exec (.hostWindow t p) s = .next
    (if fld r.payload 8 8 % 4096 = 0 ∧ fld r.payload 16 8 % 4096 = 0 ∧ 4096 ≤ fld r.payload 16 8 ∧ fld r.payload 16 8 ≤ 0x4000_0000
     then ({ x with pci := { x.pci with windows := x.pci.windows.mod (fld r.payload 0 1) fun _ =>
       { valid := true, write := true, base := fld r.payload 8 8, size := fld r.payload 16 8 } } } : State).answer p 0
     else x.answer p 0x0107)) ∧
  (x.req? p 0x31 = some r → fld r.payload 0 1 ≤ 11 → allZero (sub r.payload 1 7) = true → exec (.dmaCopy t p) s = .next
   (if (x.mem.dma.at (fld r.payload 0 1)).failed = true then x.answer p 0x090D else x.startReq p)) ∧
  (m < 4 → Completes (.memCfgLock t m) s fun s' => (s'.mem.cfg.at m).lock = true ∧
   { s' with mem := { s'.mem with cfg := x.mem.cfg } } = x ∧
   ∀ v : Nat, (s'.firmwareWrite (0x58_0000 + m * 0x1000) v).mem.cfg.at m = s'.mem.cfg.at m) ∧
  (m < 4 → (x.mem.cfg.at m).populated = true → x.pci.state ≠ .fatal → Completes (.memoryInterfaceLoss t m) s fun s' =>
   s'.pci.state = .fatal ∧ s'.pci.fatalStatus = 0x0312 ∧ (s'.mem.cfg.at m).trainFailed = true ∧ s'.bf.halted = true)

/-- After R88 to R97 and R448. -/
def Obligations.DmaEnginesMove : Prop :=
 ∀ (s x : State) (t e : Nat) (d : DmaEngine), s.at t = x → e < 15 → x.mem.dma.at e = d → x.active = true → d.failed = false →
  (∀ o b s1, d.item = none → d.cancelDrain = false → x.nextPairOf e o = some (b, 0, s1) →
   let it : DmaItem := { owner := o, index := d.itemsDone, src := b.take 64, dst := b.drop 64 }
   ((streamOf it.src).invalid = true → exec (.dmaWorkItemStart t e o) s = .next (s1.dmaFault e it 0x0303)) ∧
   ((streamOf it.src).invalid = false → (streamOf it.dst).invalid = false → (streamOf it.src).gather = false → (streamOf it.dst).gather = false →
    exec (.dmaWorkItemStart t e o) s = .next
     (let c := s1.dmaCheck e (streamOf it.src) [] (streamOf it.dst) []
      if c ≠ 0 then s1.dmaFault e it c else s1.modDma e fun x => { x with item := some it }))) ∧
  (∀ it tag, d.item = some it → d.cancelDrain = false → freeTag (it.reqs ++ d.draining) = some tag →
   it.readIssued < (streamOf it.src).total →
   let a := ((streamOf it.src).addrOf it.srcIndex it.readIssued).toNat
   let n := (streamOf it.src).reqLen it.srcIndex it.readIssued (streamOf it.src).total
   let rs := x.fetches (streamOf it.src) a n
   (x.ownerShut it.owner rs = false → x.accessAll (initDma e) rs false = 0 → Completes (.dmaRequestIssue t e false) s fun s' =>
    (s'.mem.dma.at e).item = some { it with reqs := it.reqs ++ [{ tag := tag, write := false, addr := a, len := n, off := it.readIssued,
                                                                  noAlloc := (streamOf it.src).noAlloc, host := x.hostAddr a, issued := x.now }]
                                            readIssued := it.readIssued + n } ∧
    n ≤ 256 ∧ tag < 128 ∧ (∀ q ∈ it.reqs, q.tag ≠ tag)) ∧
   (x.ownerShut it.owner rs = true → exec (.dmaRequestIssue t e false) s = .next ((x.countRefusal (initDma e) 0x0301).dmaFault e it 0x0301)) ∧
   (∀ st, st ≠ 0 → x.ownerShut it.owner rs = false → x.accessAll (initDma e) rs false = st → exec (.dmaRequestIssue t e false) s = .next
    ((x.countRefusal (initDma e) st).dmaFault e it (if st = 0x0A10 then 0x0306 else if st = 0x0902 then 0x0308 else st)))) ∧
  (∀ it tag, d.item = some it → d.cancelDrain = false → freeTag (it.reqs ++ d.draining) = some tag → it.writeIssued < it.openEnd →
   let dst := streamOf it.dst
   let a := (dst.addrOf it.dstIndex it.writeIssued).toNat
   let n := dst.reqLen it.dstIndex it.writeIssued it.openEnd
   let rs := x.storeSpans dst.coded n a n
   (x.ownerShut it.owner rs = false → x.accessAll (initDma e) rs true = 0 → exec (.dmaRequestIssue t e true) s = .next
    (x.modDma e fun y => { y with item := some { it with
      reqs := it.reqs ++ [{ tag := tag, write := true, addr := a, len := n, off := it.writeIssued, data := it.stagedBytes it.writeIssued n
                            noAlloc := dst.noAlloc, coded := dst.coded, host := x.hostAddr a, issued := x.now }]
      writeIssued := it.writeIssued + n } }))) ∧
  (∀ it q, d.draining = [] → d.cancelDrain = false → d.item = some it → it.reqs = [q] → q.write = false → x.peerWaits [(q.addr, q.len)] = false →
   let y := x.modDma e fun x => { x with item := some { it with reqs := [] } }
   let src := streamOf it.src
   (∀ b, (∀ r ∈ x.fetches src q.addr q.len, x.isBad r.1 r.2 = false) → y.readData src q none = some b →
    Completes (.dmaRequestComplete t e q.tag .ok none none) s fun s' =>
     (s'.mem.dma.at e).item = some { it with reqs := [], staged := it.staged ++ [(q.off, b)] } ∧ s'.mem.cells = x.mem.cells) ∧
   (src.wcomp = false → src.rawcomp = false →
    x.fetches src q.addr q.len = [(q.addr, q.len)] ∧ y.readData src q none = some (if regionOf q.addr = .host then memRead x.mem.host q.host q.len else x.peek q.addr q.len)) ∧
   (regionOf q.addr = .host →
    exec (.dmaRequestComplete t e q.tag .hostFail none none) s = .next (y.dmaFault e { it with reqs := [] } 0x0310))) ∧
  (∀ q, d.draining = [q] → q.write = true → x.peerWaits [(q.addr, q.len)] = false → Completes (.dmaRequestComplete t e q.tag .ok none none) s fun s' =>
   s'.mem.cells = (x.landReq e q).2.mem.cells ∧ ∀ r ∈ (s'.mem.dma.at e).draining, r.tag ≠ q.tag) ∧
  (∀ it, d.item = some it → d.cancelDrain = false → it.reqs = [] → it.chunksOpen * 4096 < (streamOf it.dst).total →
   min ((it.chunksOpen + 1) * 4096) (streamOf it.dst).total ≤ it.readIssued →
   exec (.dmaChunkWriteStart t e) s = .next (x.modDma e fun x => { x with item := some { it with chunksOpen := it.chunksOpen + 1 } })) ∧
  (∀ it i c, d.item = some it → it.owner = .node i → x.ctx? i = some c → c.poisoned = false → it.reqs = [] → it.chunksDone < it.chunksOpen →
   (streamOf it.dst).total ≤ (it.chunksDone + 1) * 4096 → (streamOf it.dst).total ≤ it.writeIssued →
   exec (.dmaChunkComplete t e) s = .next (x.modDma e fun x =>
    { x with item := none, itemsDone := x.itemsDone + 1, chunksDone := x.chunksDone + 1, fault := false, lastStatus := 0 })) ∧
  exec (.dmaEngineFailure t e) s = .next (x.failDma e)

/-- After R80 to R83. -/
def Obligations.CountersAndReduction : Prop :=
 ∀ (s x : State) (t i a v : Nat), s.at t = x → x.active = true → regionOf a = .counters →
  (x.accessStatus i a 4 true = 0 → a % 8 = 0 → x.counterBad ((a - 0x40_1000_0000) / 8) = false → Completes (.fetchAdd t i a 4 v none .clean) s fun s' =>
   let k := (a - 0x40_1000_0000) / 8
   s'.out = x.out ++ [.fetched a (some (x.counter k))] ∧ s'.counter k = (x.counter k + v) % 2 ^ 32 ∧
   (∀ j, j ≠ k → s'.counter j = x.counter j) ∧ s'.mem.cells = x.mem.cells) ∧
  (x.accessStatus i a 8 true = 0 → exec (.fetchAdd t i a 8 v none .clean) s = .next ((x.note 0x030F 6 0xFF).emit (.fetched a (some 0)))) ∧
  (∀ b, b ≠ [] → x.accessStatus i a b.length true = 0 →
   (i ≠ initBelfry → i ≠ initFirmware → exec (.workCounterWrite t i a b) s = .next (x.note 0x030F 6 0xFF)) ∧
   (i = initFirmware → a % 8 = 0 → b.length = 4 → Completes (.workCounterWrite t i a b) s fun s' =>
    s'.counter ((a - 0x40_1000_0000) / 8) = leNat b ∧ ∀ j, j ≠ (a - 0x40_1000_0000) / 8 → s'.counter j = x.counter j)) ∧
  (∀ i k c m, x.ctx? i = some c → x.macro? i k = some m → c.state = .running → c.draining = false → m.phase = .reduce →
   aGet x.mem.jobs (mRjob m.desc) = none →
   let b := jobBytes m.desc m.view.aFmt m.view.bFmt
   let y := (x.writeRaw initBelfry (0x40_2000_0000 + 1024 * mRjob m.desc) b).2
   exec (.reductionJobStart t i k) s = .next (if y.jobOk c.graph b (jobOf i b) = true
    then { y with mem := { y.mem with jobs := aSet y.mem.jobs (mRjob m.desc) (jobOf i b) } }
    else y.macroFault i k 0x030E)) ∧
  (∀ slot j q, aGet x.mem.jobs slot = some j → j.parts[j.added]? = some q → x.jobLive j = true →
   (exec (.reductionPartialAdd t slot .uncorrectable) s = .next (let y := (x.strike q.1).countUncorrectable 0x0902 q.1 (initUnit initReduce)
    ({ y with mem := { y.mem with jobs := aErase y.mem.jobs slot } } : State).unitFault j.ctx 0x0313)) ∧
   (j.format = 8 → 0 < j.added → j.added + 1 < j.parts.length → x.isBad q.1 (j.elems * 4) = false →
    Completes (.reductionPartialAdd t slot .clean) s fun s' => ∃ j', aGet s'.mem.jobs slot = some j' ∧ j'.added = j.added + 1 ∧
     j'.parts = j.parts ∧ j'.dest = j.dest ∧ s'.mem.cells = x.mem.cells ∧
     ∀ n, n < j.elems → j'.sum.getD n 0 = round32 ((val32 (j.sum.getD n 0)).add (val32 (fld (x.peek q.1 (j.elems * 4)) (n * 4) 4))))) ∧
  (∀ slot j err, aGet x.mem.jobs slot = some j → x.jobLive j = false → exec (.reductionPartialAdd t slot err) s = .next x)

/-- After R436 to R441, R452 and R453. -/
def Obligations.ScrubsTrapsAndFatal : Prop :=
 ∀ (s x : State) (t m a page : Nat) (w : WordError) (last hashOk : Bool) (c : FatalCond), s.at t = x →
  (x.active = true →
   (x.scrubBad w = false → exec (.scrubRead t w .clean false) s = .next x) ∧
   (x.scrubBad w = false → Completes (.scrubRead t w .clean true) s fun s' => s'.reliab.passes = (x.reliab.passes + 1) % 256 ∧ s'.mem = x.mem) ∧
   (∀ err, w.store ≠ 8 → err = .uncorrectable ∨ x.scrubBad w = true → Completes (.scrubRead t w err last) s fun s' =>
    s'.reliab.uncorrectable = satInc 8 x.reliab.uncorrectable ∧ s'.reliab.corrected = x.reliab.corrected ∧ s'.mem.cells = x.mem.cells) ∧
   (∀ b, x.reliab.counted = [] → x.reliab.wear = [] → w.store ≠ 8 → x.scrubBad w = false → Completes (.scrubRead t w (.correctable b) last) s fun s' =>
    s'.reliab.corrected = satInc 16 x.reliab.corrected ∧ s'.reliab.counted = [(w.store, w.addr, x.dev)] ∧ s'.mem.cells = x.mem.cells) ∧
   (m < 4 → (x.mem.cfg.at m).populated = true → x.ecc = true → x.scrubBad { w with store := 8, unit := m, addr := a } = false → Completes (.dramScrubRead t m a w .clean last) s fun s' =>
    s'.reliab.memScrubPos.at m = (if last = true then 0 else x.reliab.memScrubPos.at m + 1) ∧ s'.mem = x.mem)) ∧
  (x.resets.held = [] → x.pci.hokudan = true →
   (x.watch.reload ≠ 3 → aGet x.reliab.wtPages page = none → Completes (.watchtowerFetchTrap t page true) s fun s' =>
    s'.pci.state = x.pci.state ∧ aGet s'.reliab.wtPages page = some x.dev ∧ s'.bf = x.bf) ∧
   (x.pci.state ≠ .fatal → (∃ d, aGet x.reliab.wtPages page = some d ∧ x.dev < d + 1000000000) →
    Completes (.watchtowerFetchTrap t page hashOk) s fun s' => s'.pci.state = .fatal ∧ s'.pci.fatalStatus = 0x0909 ∧ s'.bf.halted = true) ∧
   (x.pci.state ≠ .fatal → Completes (.fatalCondition t c) s fun s' =>
    s'.pci.state = .fatal ∧ s'.pci.fatalStatus = fatalStatusOf c ∧ s'.bf.halted = true ∧ s'.mem.cells = x.mem.cells)) ∧
  (x.pci.state ≠ .fatal → Completes (.belfryLockstepMismatch t) s fun s' => s'.pci.state = .fatal ∧ s'.pci.fatalStatus = 0x020C ∧
   s'.bf = { x.bf with ready := false, halted := true, fatal := true, lockstepOk := false }) ∧
  (x.pci.state = .fatal → ∀ i b inc,
   exec (.belfryLockstepMismatch t) s = .next x ∧ exec (.nodeDispatch t i none .clean) s = .next x ∧
   exec (.beaconSignal t b inc none) s = .next x)

/-- After R158, R165, R171, R178, R182, R184, R211 to R218 and R221. -/
def Obligations.MacrosRun : Prop :=
 ∀ (s x : State) (t i k core : Nat) (c : Ctx), s.at t = x → x.ctx? i = some c → x.active = true → c.state = .running → c.draining = false →
  (∀ e y, c.type = 4 → 0 < c.workCount → x.macro? i 0 = none → (∀ j ∈ c.cores, (x.spc.at j).quadMode = false) →
   mQmode (x.macroDesc c 0) = false → x.readElem c 0 = (e, 0, y) → mDual e = false →
   (((c.cores.map (· / 16)).eraseDups.map (y.macroExtents e false)).find? (· ≠ 0) = none →
    exec (.macroStart t i 0) s = .next (y.enterMacro i 0 c e none)) ∧
   (∀ st, ((c.cores.map (· / 16)).eraseDups.map (y.macroExtents e false)).find? (· ≠ 0) = some st →
    exec (.macroStart t i 0) s = .next
     (({ y with spire := aMod y.spire i fun n => { n with macros := aSet n.macros 0 { desc := e } } } : State).macroFault i 0 st))) ∧
  (∀ m, x.macro? i k = some m →
   (m.phase = .reduced →
    let y := (x.modMacro i k fun m => { m with phase := .drain, done := [], exhausted := [], redo := [] }).unstage c k
    (y.macroCounter c m.desc = none → exec (.splitkDrainStart t i k) s = .next y) ∧
    (∀ n, y.macroCounter c m.desc = some n → exec (.splitkDrainStart t i k) s = .next (y.setCounter n 0))) ∧
   (m.phase = .verdict → m.rerun = none → mQpolicy m.desc ≠ 2 → exec (.quantVerdict t i k) s = .next
    ((x.modMacro i k fun m => { m with overs := decide (mSatLimit m.desc * m.counts.v < m.counts.sat * 65536), under := decide (0 < m.counts.nonzero ∧
      mSmallLimit m.desc * m.counts.nonzero < m.counts.small * 64) }).afterVerdict i k m)) ∧
   (m.phase = .verdict → m.rerun = none → mQpolicy m.desc = 2 → mAddr m.desc 0x30 ≠ 0 → mQmode m.desc = false → mSplitk m.desc = false →
    mSatLimit m.desc * m.counts.v < m.counts.sat * 65536 → Completes (.quantVerdict t i k) s fun s' =>
    ∃ m', s'.macro? i k = some m' ∧ m'.phase = .tiles ∧ m'.overs = true ∧ m'.done = [] ∧ m'.tVerdict = x.dev ∧ m'.rerun.isSome = true) ∧
   (m.phase = .verdict → m.rerun.isSome = true → Completes (.quantVerdict t i k) s fun s' =>
    ∃ m', s'.macro? i k = some m' ∧ m'.rerunDone = true ∧ m'.counts = m.counts ∧ m'.over2 = overVerdict m.desc m.counts2 ∧
     (mWflagOut m.desc = true → m'.phase = .flag) ∧ (mWflagOut m.desc = false → m'.phase = .complete)) ∧
   (m.phase = .flag → exec (.wideFlagWrite t i k) s = .next
    (let w := x.write (initDma (c.cores.headD 0 / 16)) (scratchBase + 4 * mWfOut m.desc) (leBytes 4 m.flagWord)
     let fin := fun (z : State) => (z.modMacro i k fun m => { m with tLast := z.dev }).completeMacro i k
     if w.1 = 0 then fin w.2
     else if w.1 = 0x0309 then fin (w.2.modCtx i fun c => { c with poisoned := true })
     else w.2.macroFault i k (if w.1 = 0x0A10 then 0x0306 else w.1)))) ∧
  (x.nodeOfCore core = some (i, c) → (x.spc.at core).quadMode = true → x.stretchDone i c = true → exec (.quadrantModeExit t core) s = .next
   (match ((aGet x.spire i).map (·.aborted)).getD [], (List.range c.workCount).all fun j => !mQmode (x.macroDesc c j) || x.quadOver i j c with
    | y :: _, true => x.unitFault i y.2
    | _, _ => x.modSpc core fun y => { y with quadMode := false, lanes := Vector.replicate 5 {} }))

/-- After R94, R143 to R149, R153, R176 to R181 and R186. -/
def Obligations.TilesRun : Prop :=
 ∀ (s x : State) (t i k core q cycle : Nat) (c : Ctx) (m : MacroRun), s.at t = x → x.active = true → x.ctx? i = some c → x.macro? i k = some m →
  c.state = .running → c.draining = false →
  (x.mayClaim i k core c m = true → m.claims.contains core = false →
   (∀ r rest, m.redo = r :: rest → exec (.tileClaim t i k core .clean .issue) s = .next
    ((x.modMacro i k fun m => { m with redo := rest }).modLane core 4 fun l =>
     { l with macroIx := some k, runs := l.runs ++ [{ r with redo := true, macroIx := k }] })) ∧
   (∀ n, m.redo = [] → x.mapped? c (mWctr m.desc) = none → x.macroCounter c m.desc = some n → x.counterBad n = false →
    exec (.tileClaim t i k core .clean .issue) s = .next
     (let y := x.setCounter n (x.counter n + mRun m.desc)
      if x.counter n < m.total
      then y.modLane core 4 fun l => 
       { l with macroIx := some k, runs := l.runs ++ [{ first := x.counter n, last := min (x.counter n + mRun m.desc) m.total, macroIx := k }] }
      else (y.modMacro i k fun m => { m with exhausted := sInsert m.exhausted core }).phaseDone i k))) ∧
  (∀ tile redo (f : TileFetch), x.nodeOfCore core = some (i, c) → (x.lane core q).order[(x.lane core q).busy]? = some (k, tile, redo) →
   m.tilesRun = true → x.coreReady core = true →
   (x.lane core q).tile = none ∨ (∃ tp n, (x.lane core q).tile = some tp ∧ x.macro? i tp.macroIx = some n ∧ tp.issued n = true) →
   let y := (x.noteCorrected f.err f.addr).stageAhead core q f.err f.addr 3
   ((y.lane core q).stagedAt k tile = none → exec (.tileStart t core q f) s = .next y) ∧
   (∀ g, (y.lane core q).stagedAt k tile = some g → exec (.tileStart t core q f) s = .next
    ((y.modLane core q fun l => l.begin { macroIx := k, tile := tile, redo := redo }).modMacro i k fun m =>
     { m with tFirst := if m.tFirst.isSome then m.tFirst else some x.dev, stall := aSet m.stall core ((aGet m.stall core).getD 0 + f.stall) }))) ∧
  (∀ tile err a b, (x.lane core q).staged = [] →
   let reads := x.tileReads m.view (m.stageOf core q { macroIx := k, tile := tile }) false false false
   let spans := reads.map fun r => (r.1, r.2.1)
   x.peerWaits spans = false →
   (x.nodeShut i spans = true → x.fetchTile i k core q tile m err a = x.macroFault i k 0x0301) ∧
   (x.nodeShut i spans = false → x.stageStatus core reads err a = some (b, 0x0306) →
    x.fetchTile i k core q tile m err a = x.macroFault i k 0x0306)) ∧
  (∀ w tp a, x.workOn core q (·.tile) = some w → usesArray w.run.desc = true →
   w.tp.nextFill (w.passes.length + w.run.view.passes2) (mGroups w.run.desc w.stage.mi) (x.prevHeld core q w.node) = some tp →
   ((x.lane core q).passGap ≠ 0 → cycle < (x.lane core q).lastPass + (x.lane core q).passGap →
    exec (.arrayPassIssue t core q cycle .clean a) s = .next x) ∧
   (∀ p y ahead, (x.lane core q).passGap = 0 → w.passes[tp.fill.pass]? = some p →
    let v := w.run.view
    let w1 : Work := { w with tp := tp }
    let own := w1.setName tp.fill.pass
    let loaded := (x.lane core q).loaded == some own
    let next := x.nextSet core q w1 tp.fill.pass
    x.firstBad core (w1.passSpans loaded p next) = none → x.reachOwn v w.stage p loaded = some y → y.reachNext v next = some ahead →
    let gap := max ((groupRows w.run.desc w.stage.mi tp.fill.index).length * passRate v.aFmt) (passFloor v.path)
    let trap := y.issueTrap ahead core q cycle w1 p own next
    (∀ n st, trap = some (n, st) → n < cycle + 32 + gap → exec (.arrayPassIssue t core q cycle .clean a) s = .next (y.macroFault w.node w.ix st)) ∧
    (∀ acc, trap = none → y.issuePass v w.stage tp.fill.index (tileCols w.run.desc w.stage.ni) p
      (passFrom w.passes tp.fill.pass (tileK w.run.desc v.partials w.stage.ki v.aFmt).1) tp.fill.acc = some acc →
     exec (.arrayPassIssue t core q cycle .clean a) s = .next (ahead.modLane core q fun l =>
      { l.put { tp with fill := { tp.fill with pass := tp.fill.pass + 1, acc := acc } } with
        lastPass := cycle, passGap := gap, umber := !l.umber, trap := none, loaded := next.map (·.2.2) })))) ∧
  (∀ w g tp1 a, x.workOn core q (x.drainSel core) = some w → w.tp.drainNext w.run = some (g, tp1) →
   x.firstBad core (w.run.view.drainSpans w.stage g.index) = none →
   (∀ n st, (x.lane core q).trap = some (n, st) → exec (.groupDrain t core q .clean a) s = .next (x.macroFault w.node w.ix st)) ∧
   (∀ acc, (x.lane core q).trap = none → x.closeGroup w.run.view w.stage g = some acc →
    let d := x.drainGroup w.run.view w.stage g.index acc
    exec (.groupDrain t core q .clean a) s = .next
     (if d.status = 0 then x.leaveDrained core q g.index w tp1 d else x.macroFault w.node w.ix d.status))) ∧
  (∀ w o rest a, x.workOn core q (fun l => l.prevs.head?.or l.tile) = some w → w.tp.outs = o :: rest →
   let r := x.landWrites core o.writes
   let spans := o.writes.map fun y => (y.addr, 1)
   (x.peerWaits spans = true → exec (.groupWriteOutRetire t core ⟨q, .clean, a⟩) s = .next x) ∧
   (x.peerWaits spans = false → x.nodeShut w.node spans = true → exec (.groupWriteOutRetire t core ⟨q, .clean, a⟩) s = .next (x.macroFault w.node w.ix 0x0301)) ∧
   (x.peerWaits spans = false → x.nodeShut w.node spans = false → r.1 ≠ 0 →
    exec (.groupWriteOutRetire t core ⟨q, .clean, a⟩) s = .next (x.macroFault w.node w.ix r.1)) ∧
   (x.peerWaits spans = false → x.nodeShut w.node spans = false → r.1 = 0 → r.2.1 = false → exec (.groupWriteOutRetire t core ⟨q, .clean, a⟩) s = .next
    (let tp1 := { w.tp with outs := rest, groupsDone := w.tp.groupsDone + 1 }
     if tp1.groupsDone < mGroups w.run.desc w.stage.mi then r.2.2.modLane core q fun l => l.put tp1
     else r.2.2.finishTile w.node w.ix core q tp1 .clean a))) ∧
  (∀ w tp a acc, x.workOn core 4 (·.tile) = some w → mOp w.run.desc = 2 →
   w.tp.nextFill 1 (mGroups w.run.desc w.stage.mi) (x.prevHeld core 4 w.node) = some tp → x.mmvTrap w.run.view w.stage tp.fill.index = 0 →
   (let p : Pass := ⟨tileCols w.run.desc w.stage.ni, 0, mK w.run.desc⟩
    x.firstBad core (w.run.view.loadSpans w.stage p ++ w.run.view.feedSpans w.stage tp.fill.index p)) = none →
   x.issuePass w.run.view w.stage tp.fill.index (tileCols w.run.desc w.stage.ni) ⟨tileCols w.run.desc w.stage.ni, 0, mK w.run.desc⟩ 0 [] = some acc →
   exec (.mmvExecute t core .clean a) s = .next (x.modLane core 4 fun l => l.put { tp with fill := { tp.fill with pass := 1, acc := acc } })) ∧
  (∀ e, core < 128 → (x.spc.at core).retired = false → exec (.arrayParityError t core e) s = .next
   (((x.modSpc core fun y => { y with parityEvents := if isParity e then satInc 16 y.parityEvents else y.parityEvents, selftest := true,
                                      suspect := errorRow e, lastStatus := 0x0407 }).logError
    0x0407 9 core 3 0 0xFFFF 0 ((errorRow e).getD 0) 0).leaveAny core 0x0407))

/-- After R152 to R156, R313, R314 and R380. -/
def Obligations.ArraySelfTests : Prop :=
 ∀ (s x : State) (t p row : Nat) (r : ArrayRef), s.at t = x → x.active = true → arrayExists r = true → (x.testOf r).retired = false →
  let v1 := { x.testOf r with selftest := false, suspect := none, lastTest := x.dev }
  ((x.testOf r).selftest = true → (x.testOf r).rowDue = none →
   ((x.testOf r).suspect = none → exec (.arraySelftestComplete t r .pass) s = .next
    ((((x.setTest r { v1 with testPair := none }).answerTested (x.testOf r) 0).updateHealth).gateUnused)) ∧
   ((x.testOf r).failed.length < 2 → exec (.arraySelftestComplete t r (.rowFails row)) s = .next
    ((x.setTest r { v1 with selftest := true, rowDue := some row }).updateHealth).gateUnused) ∧
   (2 ≤ (x.testOf r).failed.length → exec (.arraySelftestComplete t r (.rowFails row)) s = .next
    (((x.setTest r { v1 with testPair := none }).loseTested r).answerTested v1 (lostStatus r)).updateHealth.gateUnused) ∧
   (exec (.arraySelftestComplete t r .unitFault) s = .next
    (((x.setTest r { v1 with testPair := none }).loseTested r).answerTested (x.testOf r) (lostStatus r)).updateHealth.gateUnused)) ∧
  ((x.testOf r).rowDue = some row →
   (x.arrayIdle r = false → exec (.spareRowSwitch t r) s = .next x) ∧
   (x.arrayIdle r = true → exec (.spareRowSwitch t r) s = .next
    (let y := x.setTest r { x.testOf r with selftest := false, failed := sInsert (x.testOf r).failed row, rowDue := none, testPair := none }
     ((({ y with flash := { y.flash with repairDue := true } }.countSwitch r).answerTested (x.testOf r) 0x040C).updateHealth.gateUnused)))) ∧
  ((x.testOf r).selftest = false → (x.testOf r).rowDue = none → x.arrayNamed r = false → x.arrayIdle r = true →
   (x.gated (arrayGate r) = false → exec (.periodicSelftest t r) s = .next (x.beginTest r none)) ∧
   (x.gated (arrayGate r) = true → exec (.periodicSelftest t r) s = .next (x.beginUngate [arrayGate r])) ∧
   (∀ b u, x.req? p 0x0042 = some b → fld b.payload 0 1 = 0 → fld b.payload 1 1 = u → allZero (sub b.payload 2 2) = true → r = .core u →
    x.gated (arrayGate r) = false → exec (.selftest t p) s = .next ((x.beginTest r (some p)).startReq p))) ∧
  (∀ b, x.req? p 0x0042 = some b →
   (2 < fld b.payload 0 1 → exec (.selftest t p) s = .next (x.answer p 0x0107)) ∧
   (fld b.payload 0 1 = 0 → allZero (sub b.payload 2 2) = true → r = .core (fld b.payload 1 1) → x.arrayNamed r = true →
    exec (.selftest t p) s = .next (x.answer p 0x010D)))

/-- After R228 to R243. -/
def Obligations.FramesArrive : Prop :=
 ∀ (s x : State) (t p c r : Nat) (k : Packet) (m : Cam), s.at t = x → x.active = true → c < 16 → x.cams.at c = m →
  ((x.ports.at p).enable = true → (x.ports.at p).locked = true →
   (k.header = .uncorrectable → exec (.csi2PacketReceive t p k) s = .next
    (x.modPort p fun y => { y with headerUnc := satInc 8 y.headerUnc })) ∧
   (k.header = .good → k.dataType = 0 → (x.ports.at p).route k.vc none = some c →
    exec (.csi2PacketReceive t p k) s = .next (x.frameStart c k.data)) ∧
   (k.header = .good → k.dataType = 1 → (x.ports.at p).route k.vc none = some c → m.live = true →
    exec (.csi2PacketReceive t p k) s = .next (x.endFrame c false)) ∧
   (k.header = .good → 0x2A ≤ k.dataType → k.dataType ≤ 0x2E → k.vc ≤ 15 →
    ((x.ports.at p).route k.vc (some k.dataType) = none →
     (k.crcOk = true → exec (.csi2PacketReceive t p k) s = .next (x.unsupported p)) ∧
     (k.crcOk = false → exec (.csi2PacketReceive t p k) s = .next
      ((x.modPort p fun y => { y with crcErrors := satInc 8 y.crcErrors }).unsupported p))) ∧
    ((x.ports.at p).route k.vc (some k.dataType) = some c → m.live = true →
     (k.crcOk = true → exec (.csi2PacketReceive t p k) s = .next (x.deliverLine c (some (unpackRaw (depthOf k.dataType) k.payload)))) ∧
     (k.crcOk = false → exec (.csi2PacketReceive t p k) s = .next
      ((x.modPort p fun y => { y with crcErrors := satInc 8 y.crcErrors }).deliverLine c none))))) ∧
  (∀ n, m.live = true → m.leaving = false → m.open_ = false → m.unbindDue = false → m.stopDue = none → m.nextRfe = none → m.net = none →
   bMember m.bind = false → (x.rfe.at m.rfe).shadow = none →
   let num := if m.started = true then nextFrame m.frameNo else 0
   (bFrameBytes m.bind ≤ m.capacity → Completes (.sensorFrameStart t c n) s fun s' => ∃ f, (s'.cams.at c).frames = m.frames ++ [f] ∧
    f.num = num ∧ f.dropped = false ∧ f.tFs = x.dev ∧ (s'.cams.at c).frameNo = num ∧ (s'.cams.at c).lastAccepted = num ∧
    (s'.cams.at c).open_ = true ∧ (s'.cams.at c).drops = m.drops ∧ s'.mem = x.mem) ∧
   (m.capacity < bFrameBytes m.bind → Completes (.sensorFrameStart t c n) s fun s' => ∃ f, (s'.cams.at c).frames = m.frames ++ [f] ∧
    f.num = num ∧ f.dropped = true ∧ (s'.cams.at c).frameNo = num ∧ (s'.cams.at c).lastAccepted = m.lastAccepted ∧
    (s'.cams.at c).open_ = true ∧ (s'.cams.at c).drops = satInc 8 m.drops ∧ s'.mem.cells = x.mem.cells)) ∧
  (∀ f, m.live = true → m.open_ = true → m.frames.getLast? = some f →
   (f.dropped = true → Completes (.sensorFrameEnd t c) s fun s' => (s'.cams.at c).frames = m.frames.dropLast ∧ (s'.cams.at c).open_ = false ∧
    (s'.cams.at c).feLast = some (f.num, x.now) ∧ s'.mem = x.mem) ∧
   (exec (.sensorFrameEnd t c) s = .next (x.endFrame c false)) ∧
   (x.now < f.since + m.timeoutNs → exec (.frameTimeout t c) s = .next x) ∧
   (f.since + m.timeoutNs ≤ x.now → exec (.frameTimeout t c) s = .next ((x.endFrame c true).event 0x050C 3 c [18 + c]))) ∧
  (Completes (.genlockAnchor t none) s fun s' => ∀ g < 8, s'.genlock.at g = (if (x.genlock.at g).pin = true
   then { x.genlock.at g with
     number := nextFrame (x.genlock.at g).number, stamp := x.dev, anchored := some x.now, times := keepLast 16 ((x.genlock.at g).times ++ [x.now]) }
   else x.genlock.at g)) ∧
  (∀ l ls f fs, x.rfeCam r = some c → m.lines = l :: ls → m.frames = f :: fs → (x.rfe.at r).failed = false → l.frame = f.num → l.slot = none → l.lost = false →
   x.isBad (fifoAddr m) m.lineBytes = false →
   (x.rfeHeld f none = true → exec (.rfeLineRead t r .clean) s = .next x) ∧
   (x.rfeHeld f none = false → exec (.rfeLineRead t r .clean) s = .next
    (((x.modCam c fun k => { k.modHead (fun f => { f with rows := f.rows ++ [l.codes] }) with lines := ls }).readyNet c f.rows.length (f.rows.length + 1)).returnGroups c m.groupsN)))

/-- After R229, R233 to R235, R257 and R384. -/
def Obligations.CamerasBind : Prop :=
 ∀ (s x : State) (t p c : Nat) (r : MbxReq), s.at t = x →
  (x.req? p 0x0020 = some r →
   (∀ st, x.bindStatus r.payload = st → st ≠ 0 → exec (.cameraBind t p) s = .next (x.answer p st)) ∧
   (bindMalformed r.payload = false → (x.cams.at (bCam r.payload)).bound = true → exec (.cameraBind t p) s = .next (x.answer p 0x0501)) ∧
   (bindMalformed r.payload = false → (x.cams.at (bCam r.payload)).bound = false → (x.rfe.at (bRfe r.payload)).failed = false →
    x.rfeUsed (bRfe r.payload) = true → exec (.cameraBind t p) s = .next (x.answer p 0x0502)) ∧
   (x.bindStatus r.payload = 0 → x.power.rfeGated.at (bRfe r.payload) = true →
    exec (.cameraBind t p) s = .next (x.beginUngate [.rfe (bRfe r.payload)])) ∧
   (x.bindStatus r.payload = 0 → x.power.rfeGated.at (bRfe r.payload) = false →
    exec (.cameraBind t p) s = .next (x.startBinding p r.payload))) ∧
  (x.req? p 0x0021 = some r → fld r.payload 0 1 = c → c ≤ 15 → allZero (sub r.payload 1 3) = true →
   ((x.cams.at c).bound = false → exec (.cameraUnbind t p) s = .next (x.answer p 0x0513)) ∧
   ((x.cams.at c).bound = true → (x.cams.at c).waiting = none → (x.cams.at c).leaving = false → (x.cams.at c).stopped = false →
    exec (.cameraUnbind t p) s = .next ((x.modCam c fun k => { k with unbindDue := true }).answer p 0))) ∧
  (∀ q since, (x.cams.at c).waiting = some (q, since) → x.active = true →
   (x.now < since + 100000000 → exec (.portLockTimeout t c) s = .next x) ∧
   (since + 100000000 ≤ x.now → exec (.portLockTimeout t c) s = .next
    (((((x.modPort (bPort (x.cams.at c).bind) fun y => { y with lastStatus := 0x0509 }).note 0x0509 3 c).unbindCam c).gateUnused).answer q 0x0509))) ∧
  (x.active = true → (x.ports.at p).enable = true → (x.ports.at p).locked = false → p < 8 → Completes (.sensorPortLock t p) s fun s' =>
   (s'.ports.at p).locked = true ∧ (s'.ports.at p).deskewed = (!(x.ports.at p).cphy && decide (1500 < (x.ports.at p).rate)) ∧
   s'.mem.cells = x.mem.cells) ∧
  (x.active = true →
   (c < 16 → (x.cams.at c).bound = true → exec (.sensorPortFailure t (.crossbar c)) s = .next
    (x.modCam c fun k => if k.bound = true then { k with stopDue := some 0x0509 } else k)) ∧
   (p < 8 → Completes (.sensorPortFailure t (.port p)) s fun s' => (s'.ports.at p).locked = false ∧ (s'.ports.at p).lastStatus = 0x0509 ∧
    (∀ j < 16, (s'.cams.at j).stopDue = if (x.cams.at j).bound = true ∧ bPort (x.cams.at j).bind = p then some 0x0509 else (x.cams.at j).stopDue) ∧
    s'.mem = x.mem ∧ s'.rfe = x.rfe))

/-- After R244 to R256 and R380. -/
def Obligations.ExposureSequences : Prop :=
 ∀ (s x : State) (t p c bus : Nat) (r : MbxReq), s.at t = x →
  (x.req? p 0x0024 = some r →
   (exposureMalformed r.payload = true → exec (.exposure t p) s = .next (x.answer p 0x050D)) ∧
   (exposureMalformed r.payload = false → (x.cams.at (eCam r.payload)).live = false → exec (.exposure t p) s = .next (x.answer p 0x0513)) ∧
   (exposureMalformed r.payload = false → eCam r.payload = c → (x.cams.at c).live = true → (x.cams.at c).leaving = false →
    eGroup r.payload = false →
    ((x.camNow c).exposureBad r.payload = true → exec (.exposure t p) s = .next (x.answer p 0x050D)) ∧
    ((x.camNow c).exposureBad r.payload = false → 16 ≤ (x.cams.at c).pending.length → exec (.exposure t p) s = .next (x.answer p 0x050E)) ∧
    ((x.camNow c).exposureBad r.payload = false → (x.cams.at c).pending.length < 16 →
     let e := nextEpoch (x.epochCounterOf c)
     let f := laterFrame (x.camNow c).frameNo ((x.camNow c).achieved r.payload x.now)
     exec (.exposure t p) s = .next (((x.setEpochCounter c e).acceptExposure r.payload f e c).respond p 0 0 (leBytes 2 e ++ zeros 2))))) ∧
  (∀ e a b, x.active = true → e < 12 → scuReqBase ≤ a → a < scuReqBase + 512 → x.accessStatus (initDma e) a b.length true = 0 →
   (b.length ≠ 32 ∨ a % 32 ≠ 0 → exec (.scuReqWrite t e a b) s = .next (x.windowFault e 0x050D)) ∧
   (b.length = 32 → a % 32 = 0 → exec (.scuReqWrite t e a b) s = .next
    (if (x.takeExposure b).1 = 0 then (x.takeExposure b).2.2 else x.windowFault e (x.takeExposure b).1))) ∧
  (x.active = true → bus < 8 →
   (∀ y l q ep kind, x.scu.bus.at bus = none → x.relapseBus bus = y → firstDue (y.busDue bus) = some (l, q, ep, kind) →
    exec (.exposureSequenceIssue t bus) s = .next ((y.modReq q ep fun r => { r with begun := true }).issueTransaction bus { cam := q, kind := kind, epoch := ep })) ∧
   (∀ o d, x.scu.bus.at bus = some o →
    (o.tries < 2 → (x.cams.at o.cam).inWindow x.now = true →
     exec (.i3cTransactionComplete t bus true d) s = .next (x.issueTransaction bus { o with tries := o.tries + 1 })) ∧
    (2 ≤ o.tries ∨ (x.cams.at o.cam).inWindow x.now = false → o.kind ≠ 2 → exec (.i3cTransactionComplete t bus true d) s = .next
     (((x.freeBus bus).event 0x0512 3 o.cam [18 + o.cam]).failRequest o.cam o.epoch)) ∧
    (o.kind ≠ 2 → o.entry + 1 < ((x.cams.at o.cam).profile.seq o.kind).length → exec (.i3cTransactionComplete t bus false d) s = .next
     (x.issueTransaction bus { o with entry := o.entry + 1, tries := 0 })) ∧
    (x.now < o.since + 1000000 → exec (.i3cBusTimeout t bus) s = .next x) ∧
    (o.since + 1000000 ≤ x.now → o.tries < 2 → (x.cams.at o.cam).inWindow x.now = true → exec (.i3cBusTimeout t bus) s = .next (x.issueTransaction bus { o with tries := o.tries + 1 }))) ∧
   (∀ a, exec (.i3cInBandInterrupt t bus a) s = .next { x with scu := { x.scu with ibi := x.scu.ibi ++ [(bus, a % 128)] } }) ∧
   (∀ base n ra ac, x.scu.imuRing = some (base, n) → 0 < n → Completes (.imuSample t base n ra ac) s fun s' =>
    s'.scu.imuNext = (x.scu.imuNext + 1) % n ∧ s'.scu.imuSeq = (x.scu.imuSeq + 1) % 65536 ∧ s'.scu.imuRing = some (base, n) ∧
    s'.cams = x.cams)) ∧
  (∀ d, x.active = true → (x.cams.at c).due = [d] → d.status ≠ 0x0510 → exec (.exposureSequenceComplete t c) s = .next
   (((x.writeCompletion c d.req d.status).modCam c fun k => { k with due := [] }).raise (18 + c))) ∧
  (∀ n rd, x.req? p 0x0027 = some r → fld r.payload 0 1 = c → c ≤ 15 → bits (fld r.payload 1 1) 1 7 = 0 → bit (fld r.payload 1 1) 0 = rd →
   fld r.payload 6 2 = 0 → fld r.payload 4 2 = n →
   (256 < n → exec (.sensorXfer t p) s = .next (x.answer p 0x0107)) ∧
   (0 < n → n ≤ 256 → r.payload.length = 8 + (if rd = true then 0 else n) → (x.cams.at c).live = true → exec (.sensorXfer t p) s = .next
    ((x.modCam c fun k => { k with xfers := k.xfers ++ [{ pair := p, read := rd, addr := fld r.payload 2 2, n := n, data := sub r.payload 8 n }] }).startReq p)))

/-- After R250, R268, R276 to R290 and R303. -/
def Obligations.RawFrontEnd : Prop :=
 ∀ (s x : State) (t p r c : Nat) (q : MbxReq), s.at t = x →
  (x.req? p 0x0025 = some q → fld q.payload 0 1 = r → r ≤ 15 → allZero (sub q.payload 1 7) = true →
   let b := sub q.payload 8 16
   (x.camOfRfe r = none → exec (.psetSubmit t p) s = .next (x.answer p 0x0513)) ∧
   (x.camOfRfe r = some c → bits (fld b 0 8) 0 40 % 64 ≠ 0 → exec (.psetSubmit t p) s = .next ((x.rejectPset r 0x0517).answer p 0x0517)) ∧
   (x.camOfRfe r = some c → bits (fld b 0 8) 40 24 = 0 → fld b 0x0E 2 = 0 → bits (fld b 0 8) 0 40 % 64 = 0 → (x.cams.at c).started = false →
    (∀ w, w ∈ (x.rfe.at r).pending → w.target ≠ fld b 8 4 ∧ aheadOf w.target (fld b 8 4) = false) →
    4 ≤ (x.rfe.at r).pending.length + b2n (x.rfe.at r).loading.isSome →
    exec (.psetSubmit t p) s = .next ((x.refusePset r 0x0518).answer p 0x0518)) ∧
   (x.camOfRfe r = some c → bits (fld b 0 8) 40 24 = 0 → fld b 0x0E 2 = 0 → bits (fld b 0 8) 0 40 % 64 = 0 → (x.cams.at c).started = false →
    (x.rfe.at r).pending = [] → exec (.psetSubmit t p) s = .next
     ((x.modRfe r fun y => { y with pending := [{ addr := bits (fld b 0 8) 0 40, target := fld b 8 4, tag := fld b 0x0C 2 }] }).answer p 0))) ∧
  (∀ e b, x.active = true → e < 12 → r < 16 → x.accessStatus (initDma e) (psetWindow r) b.length true = 0 →
   (b.length ≠ 16 → exec (.rfePsetSubmitWrite t e r 0 b) s = .next (x.windowFault e 0x0517)) ∧
   (b.length = 16 → exec (.rfePsetSubmitWrite t e r 0 b) s = .next
    (if (x.takePset r b).1 = 0 then (x.takePset r b).2 else (x.takePset r b).2.windowFault e (x.takePset r b).1))) ∧
  (x.active = true → x.camOfRfe r = some c →
   (∀ w, (x.rfe.at r).failed = false → (x.rfe.at r).shadow = none → (x.rfe.at r).loading = none →
    earliestSet (x.cams.at c).frameNo (x.rfe.at r).pending = some w → exec (.psetLoadStart t r) s = .next
     (x.modRfe r fun y => { y with loading := some w, pending := y.pending.filter (· != w) })) ∧
   (∀ w d y, (x.rfe.at r).loading = some w → x.read (initDma x.pixelDma) w.addr 24192 = (d, 0, y) →
    exec (.psetLoadComplete t r) s = .next (if psetBad (bW (x.cams.at c).bind) (bH (x.cams.at c).bind) d = true
     then (y.modRfe r fun z => { z with loading := none }).rejectPset r 0x0517
     else (y.modRfe r fun z => { z with loading := none }).modRfe r fun z => { z with
       shadow := some (w, d), shadowLate := (x.cams.at c).started && !aheadOf w.target (x.cams.at c).frameNo }))) ∧
  (∀ tap, x.req? p 0x0026 = some q → fld q.payload 0 1 = r → fld q.payload 1 1 = tap → r ≤ 15 → allZero (sub q.payload 2 6) = true →
   (3 < tap → exec (.tapConfig t p) s = .next (x.answer p 0x0107)) ∧
   (tap ≤ 3 → x.camOfRfe r = some c → x.tapNamed r tap = true → exec (.tapConfig t p) s = .next (x.answer p 0x051B)) ∧
   (tap ≤ 3 → x.tapStatus r tap (sub q.payload 8 64) = 0 → exec (.tapConfig t p) s = .next
    ((x.modRfe r fun y => { y with taps := y.taps.mod tap fun z => { z with next := some (sub q.payload 8 64) } }).answer p 0))) ∧
  (∀ f fs, x.active = true → x.rfeCam r = some c → c < 16 → (x.cams.at c).frames = f :: fs → (x.rfe.at r).failed = false →
   (∀ tap bad trunc, tap < 4 → tapEnable (f.taps.at tap) = true → x.bf.ctxs = [] → r < 16 → x.rfeHeld f (some tap) = false →
    f.taps.at tap ≠ [] → f.tapDone.at tap = false → tapDest (f.taps.at tap) = 0 → f.parityLines = 0 → bad = [] →
    (x.cams.at c).tapReady f (f.taps.at tap) (f.tapNext.at tap) = true →
    Completes (.tapRowGroupWrite t r tap bad trunc) s fun s' => ∃ f', (s'.cams.at c).frames = f' :: fs ∧
     f'.tapNext.at tap = f.tapNext.at tap + 1 ∧ f'.tapDone.at tap = decide (tapOutH (f.taps.at tap) ≤ 16 * (f.tapNext.at tap + 1)) ∧
     f'.rows = f.rows ∧ (tapOutH (f.taps.at tap) ≤ 16 * (f.tapNext.at tap + 1) → ((s'.rfe.at r).taps.at tap).buffer = f.tapBuf.at tap) ∧
     ∀ j, j ≠ c → s'.cams.at j = x.cams.at j) ∧
   (f.statsDone = false → f.tFe.isSome = true → bH (x.cams.at c).bind ≤ f.rows.length → (x.cams.at c).statsNext < bStatsBlocks (x.cams.at c).bind →
    exec (.statsBlockComplete t r) s = .next
     (let n := bStatsBlocks (x.cams.at c).bind
      let a := bStats (x.cams.at c).bind + 9280 * ((x.cams.at c).statsNext % n)
      let y := x.record (initDma x.pixelDma) a (f.statsBlock c (x.cams.at c))
      (y.modCam c fun k => { k.modHead (fun f => { f with statsDone := true, statsAt := a, statsFlags := f.flags }) with
        statsNext := k.statsNext + 1, statsUsed := ringUsed k.statsNext n k.statsUsed (x.eventTaken c f.num f.since (rfeHit r 2 0)) }).sourceEvent c f.num f.since true
        (rfeHit r 2 0))) ∧
   (f.tFe = none → exec (.statsBlockComplete t r) s = .next x) ∧
   (x.frameOver (x.cams.at c) f = true → f.parityLines = 0 → (x.cams.at c).metaNext < bMetaEntries (x.cams.at c).bind → (x.cams.at c).leaving = false →
    exec (.metadataRecordWrite t r) s = .next
     (let n := bMetaEntries (x.cams.at c).bind
      let z := (x.reportFrame f).statsFlags f
      (((((z.record (initDma x.pixelDma) (bMeta (x.cams.at c).bind + 128 * ((x.cams.at c).metaNext % n)) (metaRecord c (x.cams.at c) f)).modRfe r
       fun y => { y with badFrames := 0 }).modCam c fun k =>
        { k with frames := k.frames.drop 1, metaNext := k.metaNext + 1, metaUsed := ringUsed k.metaNext n k.metaUsed (z.eventTaken c f.num f.since (rfeHit r 3 0)) }).sourceEvent c f.num f.since true
         (rfeHit r 3 0)).endNet c).gateUnused)) ∧
   (x.frameOver (x.cams.at c) f = false → exec (.metadataRecordWrite t r) s = .next x)) ∧
  (∀ n g, x.active = true → (x.cams.at c).net = some n →
   (n.groups = [] → exec (.rowGroupDeadline t c) s = .next x) ∧
   (n.groups = [g] → n.active = true → x.now ≤ g.deadline → exec (.rowGroupDeadline t c) s = .next x) ∧
   (n.groups = [g] → n.active = true → g.deadline < x.now → exec (.rowGroupDeadline t c) s = .next (x.missDeadline c g.index)))

/-- After R297 to R316. -/
def Obligations.StripeNetworks : Prop :=
 ∀ (s x : State) (t p c sn : Nat) (q : MbxReq), s.at t = x →
  (x.req? p 0x0022 = some q → ∀ ls,
   let h := x.read initFirmware (nImage q.payload) 64
   let v := x.netChecks q.payload h.1 h.2.1 ls
   (v.status ≠ 0 → exec (.networkBind t p ls) s = .next (x.answerNet p v)) ∧
   (v.status = 0 → x.gated (.sne (nSne q.payload)) = true → exec (.networkBind t p ls) s = .next (x.beginUngate [.sne (nSne q.payload)])) ∧
   (v.status = 0 → x.gated (.sne (nSne q.payload)) = false → exec (.networkBind t p ls) s = .next
    (((x.modCam (nCam q.payload) fun k => { k with net := some { bindRec := q.payload, header := h.1, program := ls.take (hLayers h.1), pair := some p } }).moveSne
     (nCam q.payload) (nSne q.payload)).startReq p)) ∧
   (netRecBad q.payload = true → exec (.networkBind t p ls) s = .next (x.answerNet p { check := 1, status := 0x0419 }))) ∧
  (x.req? p 0x0023 = some q → fld q.payload 0 1 = c → c ≤ 15 → allZero (sub q.payload 1 3) = true →
   ((x.cams.at c).net = none → exec (.networkUnbind t p) s = .next (x.answer p 0x0425)) ∧
   (∀ n, (x.cams.at c).net = some n → exec (.networkUnbind t p) s = .next
    ((x.modCam c fun k => { k with net := some { n with unbindDue := true } }).answer p 0))) ∧
  (∀ n, x.active = true → (x.cams.at c).net = some n → n.pair = some p →
   (x.imageOk (nSne n.bindRec) (nImage n.bindRec) n.header = true → exec (.networkWeightLoadComplete t c) s = .next
    (((if x.imageHeld (nSne n.bindRec) (nImage n.bindRec) = true then x else x.loadWeights (nSne n.bindRec) (nImage n.bindRec) n.header).modCam c fun k =>
     { k with net := some { n with pair := none, loaded := true, code := x.peek (nImage n.bindRec + hProgOff n.header) (hProgBytes n.header) } }).answerNet p {})) ∧
   (x.imageOk (nSne n.bindRec) (nImage n.bindRec) n.header = false → exec (.networkWeightLoadComplete t c) s = .next
    ((((x.modCam c fun k => { k with net := some { n with pair := none } }).dropNet c).gateUnused).answerNet p { check := 1, status := 0x0419 }))) ∧
  (x.active = true → sn < 4 → (x.sne.at sn).failed = false →
   ((x.sne.at sn).unit = none → x.sneChoices sn = [] → exec (.sneUnitStart t sn) s = .next x) ∧
   (∀ n f fs g d rk, (x.sne.at sn).unit = none → (x.sne.at sn).inService ≠ 0 → x.sneChoices sn = [(d, rk, c, g.index)] →
    (x.cams.at c).net = some n → n.groups = [g] → (x.cams.at c).frames = f :: fs → c < 16 →
    Completes (.sneUnitStart t sn) s fun s' =>
     (s'.sne.at sn).unit = some { cam := c, frame := f.num, group := g.index, stripe := g.next } ∧
     (s'.cams.at c).net = some { n with groups := [{ g with next := g.next + 1 }] } ∧ s'.mem.cells = x.mem.cells) ∧
   (∀ u n f fs g, (x.sne.at sn).unit = some u → x.weightsBad sn = false → x.isBad (0x42_000C_0000 + sn * 0x10_0000) 0x4_0000 = false → u.cam = c → c < 16 → (x.cams.at c).net = some n → n.active = true →
    (x.cams.at c).frames = f :: fs → f.num = u.frame → f.switchUnit = none → f.classical = false → n.groups = [g] → g.index = u.group →
    (x.now ≤ g.deadline → 1 < f.stripes → g.merged = 0 → f.returned < u.group →
     aGet f.merged (f.returned * f.stripes) = none → Completes (.sneUnitComplete t sn u.group u.stripe) s fun s' =>
     (s'.sne.at sn).unit = none ∧ ∃ n' f', (s'.cams.at c).net = some n' ∧ (s'.cams.at c).frames = f' :: fs ∧
      n'.unitsNet = n.unitsNet + 1 ∧ n'.groups = [{ g with merged := 1 }] ∧ f'.merged = aSet f.merged (u.group * f.stripes + u.stripe) (let raw := f.raw (x.cams.at c)
       stripeOutput n.header (x.netImage n) (stripeInput n.header raw u.group u.stripe) raw u.group u.stripe)) ∧
    (g.deadline < x.now → exec (.sneUnitComplete t sn u.group u.stripe) s = .next
     ((x.modSne sn fun y => { y with unit := none }).missDeadline c g.index))) ∧
   (exec (.sneFault t sn .control) s = .next (x.failSne sn)) ∧
   ((x.sne.at sn).unit = none → Completes (.sneFault t sn .buffers) s fun s' => (s'.sne.at sn).storeUe = satInc 8 (x.sne.at sn).storeUe ∧
    (s'.sne.at sn).lastStatus = 0x0421 ∧ s'.cams = x.cams ∧ (s'.sne.at sn).images = (x.sne.at sn).images) ∧
   (∀ i n, x.imageCams sn i = [c] → (x.cams.at c).net = some n → n.reloading = true →
    (x.imageOk sn i n.header = false → Completes (.sneWeightReloadComplete t sn i) s fun s' =>
     (s'.sne.at sn).lastStatus = 0x041E ∧ (s'.sne.at sn).reloads = satInc 8 (x.sne.at sn).reloads ∧ s'.mem.cells = x.mem.cells) ∧
    (x.imageOk sn i n.header = true → exec (.sneWeightReloadComplete t sn i) s = .next
     (((x.modCam c fun k => { k with net := k.net.map fun n => { n with reloading := false, suspended := n.suspended || false } }).loadWeights
      sn i n.header).modSne sn fun y => { y with reloads := satInc 8 y.reloads }))))

/-- After R321 to R323, R338 to R341, R355, R360 to R363. -/
def Obligations.VisionEngines : Prop :=
 ∀ (s x : State) (t u p : Nat), s.at t = x → u < 6 →
  (∀ r c e y, x.visReady u = some (r, c) →
   (∀ st, st ≠ 0 → x.readElem c r.opsDone = (e, st, y) → exec (.visionOperationStart t u) s = .next (y.visFault u r.ctx st)) ∧
   (∀ st, x.readElem c r.opsDone = (e, 0, y) → vIndirect e = false → x.peerWaits (opRanges u e) = false →
    (x.nodeShut r.ctx (opRanges u e) = true → exec (.visionOperationStart t u) s = .next (y.visFault u r.ctx 0x0301)) ∧
    (x.nodeShut r.ctx (opRanges u e) = false → st = y.extentStatus (initVision u) (opExtents u e) (opPieces u e) →
     (st ≠ 0 → exec (.visionOperationStart t u) s = .next (y.visFault u r.ctx st)) ∧
     (∀ tb st2 z, st = 0 → y.readVisTable u e = (tb, st2, z) →
      (st2 ≠ 0 → exec (.visionOperationStart t u) s = .next (z.visFault u r.ctx st2)) ∧
      (st2 = 0 → exec (.visionOperationStart t u) s = .next ((z.readHint u e).2.beginOp u r c e tb (z.readHint u e).1)) ∧
      (st2 = 0 → u < 3 → Completes (.visionOperationStart t u) s fun s' => ∃ r', (s'.vis.at u).run = some r' ∧ r'.op = some e ∧ r'.band = 0 ∧
       r'.ctx = r.ctx ∧ r'.opsDone = r.opsDone ∧ r'.table = tb))))) ∧
  (∀ r d c, (x.vis.at u).run = some r → r.op = some d → x.ctx? r.ctx = some c → x.active = true → c.draining = false →
   (r.band < opBands u d → x.peerWaits (opRanges u d) = false →
    let f := x.bandBuf u r d
    let a := ((f.1.lines.head?).map (·.1)).getD (vSrc d).addr
    ((f.1.bad = true ∨ ∃ z ∈ f.1.lines, f.2.mayErr z.1 = true) → exec (.visionBandComplete t u .uncorrectable) s = .next
     (((f.2.strike a).countUncorrectable 0x0902 a u).visFault u r.ctx 0x0308)) ∧
    (f.1.bad = true → exec (.visionBandComplete t u .clean) s = .next ((f.2.countUncorrectable 0x0902 a u).visFault u r.ctx 0x0308)) ∧
    (f.1.bad = false →
     let b := r.nextBand (readBufs [f.1] f.2.peek) u d
     let w := f.2.writeAll (initVision u) b.1
     (w.1 = 0 → exec (.visionBandComplete t u .clean) s = .next
      ((w.2.modVis u fun y => { y with
        run := some { b.2.1 with bufs := if u < 4 then b.2.1.bufs.filter (·.band != r.band) else b.2.1.bufs }
        oversize := satAdd 16 y.oversize b.2.2 }).fetchBand u (r.band + 3))) ∧
     b.2.1.band = r.band + 1 ∧ b.2.1.ctx = r.ctx)) ∧
   (opBands u d ≤ r.band → exec (.visionBandComplete t u .clean) s = .next x) ∧
   (r.band < opBands u d → exec (.visionOperationComplete t u) s = .next x) ∧
   (opBands u d ≤ r.band → exec (.visionOperationComplete t u) s = .next ((x.closeOp u r c d).modVis u fun y =>
    { y with lastStatus := 0, run := some { r with op := none, opsDone := r.opsDone + 1, table := [], bufs := [] } })) ∧
   ((x.vis.at u).failed = false → exec (.visionParityError t u) s = .next
    (((x.modVis u fun y => { y with parity := satInc 8 y.parity, selftest := true, lastStatus := 0x0603 }).logError 0x0603 11 u 3 0
     0xFFFF 0 0 0).unitFault r.ctx 0x0603))) ∧
  ((x.vis.at u).selftest = true → (x.vis.at u).testPair = none → x.active = true →
   (u < 4 → exec (.visionSelftestComplete t u true) s = .next (x.modVis u fun y => { y with selftest := false, testPair := none }).gateUnused) ∧
   (4 ≤ u → exec (.visionSelftestComplete t u true) s = .next
    (x.modVis u fun y => ({ y with selftest := false, testPair := none } : VisUnit).enter 3 16).gateUnused) ∧
   (exec (.visionSelftestComplete t u false) s = .next
    ((((x.modVis u fun y => { y with selftest := false, testPair := none }).note 0x0604 4 u).loseVision u 0x0604).gateUnused))) ∧
  (∀ q, x.req? p 0x0028 = some q → fld q.payload 1 1 = 0 →
   (fld q.payload 0 1 < 4 → exec (.checkMode t p) s = .next (x.answer p 0x0107)) ∧
   (fld q.payload 0 1 = u → 4 ≤ u → fld q.payload 2 2 = 0 → exec (.checkMode t p) s = .next (x.answer p 0x0609)) ∧
   (fld q.payload 0 1 = u → 4 ≤ u → fld q.payload 2 2 ≠ 0 → (x.vis.at u).failed = false → exec (.checkMode t p) s = .next
    ((x.modVis u fun y => y.enter 2 (fld q.payload 2 2)).answer p 0)))

/-- After R38 to R41, R380, R383 and R488. -/
def Obligations.GraphsComeAndGo : Prop :=
 ∀ (s x : State) (t p g : Nat) (hf : Bool) (r : MbxReq), s.at t = x →
  (x.req? p 0x0010 = some r → ∀ image,
   (admitReqBad r.payload = true → exec (.graphAdmit t p image) s = .next (x.answer p 0x0107)) ∧
   (admitReqBad r.payload = false → mapsOk (fld r.payload 0x0C 4) (fld r.payload 0x10 8) image = true →
    let y := mapImage (fld r.payload 0x0C 4) (fld r.payload 0x10 8) x.straps.module image
    let v := x.admitGraph y (bit (fld r.payload 0x18 1) 0) none (imageCtxs y)
    (v.2.status ≠ 0 → exec (.graphAdmit t p image) s = .next (x.answerAdmit p v.2 0 v.1)) ∧
    (v.2.status = 0 → (∀ u ∈ v.1.gates, x.gated u = false) →
     exec (.graphAdmit t p image) s = .next ((x.install v.1 x.freeGraphId).answerAdmit p v.2 x.freeGraphId v.1)) ∧
    (v.2.status = 0 → (∃ u ∈ v.1.gates, x.gated u = true) → exec (.graphAdmit t p image) s = .next (x.beginUngate v.1.gates)))) ∧
  (x.req? p 0x0011 = some r → fld r.payload 0 1 = g → bits (fld r.payload 1 1) 1 7 = 0 → fld r.payload 2 2 = 0 → bits (fld r.payload 8 8) 40 24 = 0 →
   (aGet x.bf.graphs g = none → exec (.graphPark t ⟨p, hf⟩) s = .next (x.answer p 0x0203)) ∧
   (∀ q, aGet x.bf.graphs g = some q → q.parked = false →
    (x.saveRegionOk q (fld r.payload 8 8) (fld r.payload 4 4) = false → exec (.graphPark t ⟨p, hf⟩) s = .next (x.answer p 0x0107)) ∧
    (x.saveRegionOk q (fld r.payload 8 8) (fld r.payload 4 4) = true →
     let y := x.modGraph g fun q => { q with saved := some (fld r.payload 8 8, fld r.payload 4 4) }
     (q.inFlight = false → exec (.graphPark t ⟨p, hf⟩) s = .next (y.evictGraph g p hf).gateUnused) ∧
     (q.inFlight = true → bit (fld r.payload 1 1) 0 = false → exec (.graphPark t ⟨p, hf⟩) s = .next (x.answer p 0x0210)) ∧
     (q.inFlight = true → bit (fld r.payload 1 1) 0 = true →
      exec (.graphPark t ⟨p, hf⟩) s = .next ((y.modGraph g fun q => { q with drain := .park p }).startReq p))))) ∧
  (x.req? p 0x0012 = some r → fld r.payload 0 1 = g → allZero (sub r.payload 1 3) = true → ∀ q, aGet x.bf.graphs g = some q →
   (q.parked = false → exec (.graphRestore t p) s = .next (x.answer p 0x0203)) ∧
   (∀ a n b y, q.parked = true → q.saved = some (a, n) →
    x.read initFirmware a (256 * q.image.contexts.length + 2 * q.image.beacons.length) = (b, 0, y) →
    let v := y.admitGraph q.image q.bestEffort (some g) (restoredCtxs q.image b)
    (v.2.status ≠ 0 → exec (.graphRestore t p) s = .next (y.answerAdmit p v.2 0 v.1)) ∧
    (v.2.status = 0 → (∀ u ∈ v.1.gates, y.gated u = false) → exec (.graphRestore t p) s = .next
     ((((y.install v.1 g).restoreValues q.image b).modGraph g fun q => { q with saved := none }).answerAdmit p v.2 g v.1)))) ∧
  (x.req? p 0x0013 = some r → fld r.payload 0 1 = g → bits (fld r.payload 1 1) 1 7 = 0 → fld r.payload 2 2 = 0 →
   (aGet x.bf.graphs g = none → exec (.graphStop t p) s = .next (x.answer p 0x0203)) ∧
   (∀ q, aGet x.bf.graphs g = some q → bit (fld r.payload 1 1) 0 = true →
    (q.inFlight = false → exec (.graphStop t p) s = .next (((x.removeGraph g).gateUnused).answer p 0)) ∧
    (q.inFlight = true → q.parked = false → exec (.graphStop t p) s = .next
     ((x.modGraph g fun q => { q with drain := .stop p }).startReq p))))

/-- After R71, R393 to R397, R400 to R408. -/
def Obligations.PeersTrainAndShare : Prop :=
 ∀ (s x : State) (t p k : Nat) (r : MbxReq), s.at t = x → k < 3 →
  (x.req? p 0x0061 = some r → peerReserved r.payload = true →
   (fld r.payload 0 1 = 0 → fld r.payload 1 1 = k →
    ((x.peer.at k).up = true → exec (.portUp t p) s = .next (x.answerPeer p 0 (x.peer.at k).report)) ∧
    ((x.peer.at k).up = false → (x.peer.at k).pair = none → exec (.portUp t p) s = .next ((x.modPeer k fun y => { y with
      enabled := true, allowHalf := bit (fld r.payload 2 1) 0, allowTwo := bit (fld r.payload 2 1) 1, since := x.now, pair := some p, failed := false }).startReq p))) ∧
   (fld r.payload 0 1 = 1 → fld r.payload 1 1 = k →
    (x.graphsOnPort k ≠ [] → exec (.portDown t p) s = .next (x.answer p 0x010D)) ∧
    (x.graphsOnPort k = [] → (∀ e < 15, (x.mem.dma.at e).item = none) →
     (x.bf.ctxs.filter fun c => x.remoteUse c.1 (x.wiredTo k) c.2 || x.claimsAt c.1 (x.wiredTo k) c.2) = [] → Completes (.portDown t p) s fun s' =>
     (s'.peer.at k).up = false ∧ (s'.peer.at k).enabled = false ∧ (s'.peer.at k).neighbour = 0 ∧ s'.mem.cells = x.mem.cells)) ∧
   (fld r.payload 0 1 = 2 → fld r.payload 2 2 ≤ 1023 →
    let ctr := bit (fld r.payload 4 1) 1
    (bit (fld r.payload 4 1) 0 = false → exec (.importEntry t p) s = .next
     (let y : State := { x with imports := aErase x.imports (fld r.payload 2 2) }
      (match aGet x.imports (fld r.payload 2 2) with
      | some e => y.endInstance e.graph 0
      | none => y).answerPeer p 0)) ∧
    (bit (fld r.payload 4 1) 0 = true → x.sharing? (fld r.payload 5 1) = none → exec (.importEntry t p) s = .next (x.answer p 0x0706)) ∧
    (∀ q, bit (fld r.payload 4 1) 0 = true → x.sharing? (fld r.payload 5 1) = some q →
     fld r.payload 8 2 < (if ctr = true then q.counters.length else q.image.beacons.length) → exec (.importEntry t p) s = .next
      (({ x with imports := aSet x.imports (fld r.payload 2 2) { counter := ctr, graph := fld r.payload 5 1, mask := fld r.payload 6 1, target := fld r.payload 8 2 } } : State).answerPeer p 0))) ∧
   (fld r.payload 0 1 = 3 → fld r.payload 6 2 ≤ 1023 → bit (fld r.payload 4 1) 2 = true →
    let m : CtrMap := { graph := fld r.payload 1 1, index := fld r.payload 2 2, home := bits (fld r.payload 4 1) 0 2, imp := fld r.payload 6 2 }
    (m.home = x.straps.module → exec (.counterMap t p) s = .next (x.answer p 0x0706)) ∧
    (∀ q, x.sharing? m.graph = some q → m.index < q.counters.length → m.home ≠ x.straps.module → exec (.counterMap t p) s = .next
     (({ x with ctrMaps := (x.ctrMaps.filter fun y => !(y.graph == m.graph && y.index == m.index)) ++ [m] } : State).answerPeer p 0)))) ∧
  (x.active = true → (x.peer.at k).enabled = true → (x.peer.at k).up = false →
   (∀ n, n ≠ x.wiredTo k → exec (.peerTrainingComplete t k n 4 false) s = .next (x.failPort k 0x0702)) ∧
   (Completes (.peerTrainingComplete t k (x.wiredTo k) 4 false) s fun s' => (s'.peer.at k).up = true ∧ (s'.peer.at k).neighbour = x.wiredTo k ∧
    (s'.peer.at k).lanes = 4 ∧ (s'.peer.at k).halfRate = false ∧ (s'.peer.at k).pair = none) ∧
   (x.now < (x.peer.at k).since + 1000000000 → exec (.peerTrainingTimeout t k) s = .next x) ∧
   ((x.peer.at k).since + 1000000000 ≤ x.now → exec (.peerTrainingTimeout t k) s = .next (x.failPort k 0x0701))) ∧
  (x.active = true → (x.peer.at k).up = true →
   ((x.peer.at k).retrain = false → (x.peer.at k).recent.length ≤ 7 → Completes (.peerFlitError t k) s fun s' =>
    (s'.peer.at k).replays = satInc 16 (x.peer.at k).replays ∧ (s'.peer.at k).retrain = false ∧ (s'.peer.at k).up = true ∧ { s' with peer := x.peer } = x) ∧
   ((x.peer.at k).retrain = false → (x.peer.at k).recent.length = 8 → (∀ y ∈ (x.peer.at k).recent, x.now < y + 1000000) →
    Completes (.peerFlitError t k) s fun s' => (s'.peer.at k).retrain = true ∧ (s'.peer.at k).retrains = satInc 8 (x.peer.at k).retrains ∧
     (s'.peer.at k).recent = [] ∧ (s'.peer.at k).lastStatus = 0x070A) ∧
   ((x.peer.at k).retrain = true → Completes (.peerRetrainComplete t k) s fun s' => (s'.peer.at k).retrain = false ∧ (s'.peer.at k).held = [] ∧
    s'.out = x.out ++ ([0, 1, 2].flatMap fun c => (x.peer.at k).held.filter fun o => o.flitClass == c) ∧ s'.mem = x.mem) ∧
   (exec (.peerRetrainTimeout t ⟨k, .portFailed⟩) s = .next (x.losePeer k)) ∧
   ((x.peer.at k).retrain = true → (x.peer.at k).since + 10000000 ≤ x.now → exec (.peerRetrainTimeout t ⟨k, .timeout⟩) s = .next (x.losePeer k)) ∧
   ((x.peer.at k).retrain = true → (x.peer.at k).since + 100000 ≤ x.now → exec (.peerRetrainTimeout t ⟨k, .silent⟩) s = .next (x.losePeer k))) ∧
  (x.portOpen k = true →
   (∀ imp inc e q b, x.import? k imp false = some (e, q) → q.image.beacons[e.target]? = some b →
    exec (.remoteSignal t k imp inc) s = .next ((x.signalBeacon b.index inc).endShared imp)) ∧
   (∀ imp inc, x.import? k imp false = none → exec (.remoteSignal t k imp inc) s = .next ((x.badImport k).endShared imp)) ∧
   (∀ imp v e q n, x.import? k imp true = some (e, q) → q.counters[e.target]? = some n → x.counterBad n = false →
    Completes (.remoteCounterOp t k imp v .clean) s fun s' => s'.counter n = (x.counter n + v) % 2 ^ 32 ∧
     s'.out = x.out ++ [.counterReply k (some (x.counter n))] ∧ (∀ j, j ≠ n → s'.counter j = x.counter j)) ∧
   (∀ a n, 0xF_0300_0000 ≤ a → exec (.peerRemoteAccess t k a n (.read .clean)) s = .next ((x.countRefusal (initPeerIn k) 0x0301).emit (.remoteReply k (zeros n) 0x0301 false))) ∧
   (∀ a n d, a < 0xF_0000_0000 → exec (.peerRemoteAccess t k a n (.write d)) s = .next
    ((x.write (initPeerIn k) a d).2.emit (.remoteReply k [] (x.write (initPeerIn k) a d).1 false)))) ∧
  (∀ e tag it q m, x.active = true → (x.mem.dma.at e).draining = [] → (x.mem.dma.at e).item = some it → it.reqs = [q] → q.tag = tag →
   regionOf q.addr = .peer m →
   (x.now < q.issued + 100000 → exec (.remoteRequestTimeout t (.engine e) tag) s = .next x) ∧
   (q.issued + 100000 ≤ x.now → exec (.remoteRequestTimeout t (.engine e) tag) s = .next (match x.silent? m with
    | none => (x.modDma e fun y => { y with item := some { it with reqs := [] } }).dmaFault e { it with reqs := [] } 0x0708
    | some k => x.losePeer k))) ∧
  (∀ i m c, x.active = true → x.ctx? i = some c → x.remoteUse i m c = true → c.tStart + 100000 ≤ x.dev → x.silent? m = none →
   exec (.remoteRequestTimeout t (.node i) m) s = .next (x.unitFault i 0x0708)) ∧
  (∀ y c g q v, (x.peer.at k).relay = some y → x.ctx? y.ctx = some c → x.relayGroup? c = some g → aGet x.bf.groups g = some q →
   q.recvs[c.relayRecv]? = some v → x.active = true → c.state = .running → c.draining = false → y.overs = false → (x.peer.at k).retrain = false →
   (v.delivered ≤ v.taken → exec (.relayUnit t k) s = .next x) ∧
   (v.taken < v.delivered → exec (.relayUnit t k) s = .next (x.relayOne k y c q v)))

/-- After R415, R420, R425 to R428. -/
def Obligations.FieldLinkKept : Prop :=
 ∀ (s x : State) (t p ch : Nat) (f : Bytes) (r : MbxReq), s.at t = x →
  (x.fieldOn = true → frameVerdict false f = .good →
   let y := x.fieldAccept f
   (fType f = 0x81 → fChan f = ch → ch < 6 → (x.field.chans.at ch).statusAddr = 0 → Completes (.fieldStatusReceive t f) s fun s' =>
    (s'.field.chans.at ch).state = fld f 0x12 1 ∧ (s'.field.chans.at ch).status = f ∧ s'.field.rxSeq = some (fSeq f) ∧
    s'.field.lastGood = x.now ∧ s'.field.crcRun = 0 ∧ s'.mem = x.mem) ∧
   (fType f = 0x90 → fld f 0xA 2 = 0 → fChan f = 7 → x.field.jobs = [] → exec (.fieldAckReceive t f) s = .next y) ∧
   (∀ j g, fType f = 0x90 → fld f 0xA 2 ≠ 0 → fChan f = 7 → x.field.jobs = [j] → j.frames = [g] → sub f 8 1 = sub g 9 1 → fld f 9 1 = fType g →
    fChan g = 7 →
    exec (.fieldAckReceive t f) s = .next ((y.fieldNote (fld f 0xA 2)).endJob (if j.status = 0 then fld f 0xA 2 else j.status))) ∧
   (fType f = 0x91 → fChan f = ch → ch < 6 → exec (.fieldEventReceive t f) s = .next
    ((((y.modFChan ch fun c => c.countEvent (fld f 8 2) (fld f 0xA 1)).fieldNote (fld f 8 2)).event (fld f 8 2) 8 ch [52] (sub f 8 16)))) ∧
   (fType f = 0x92 → bit (fld f 8 1) 0 = false → bit (fld f 8 1) 1 = false → x.field.up = true → x.field.selftestFail = false → Completes (.linkStatusReceive t f) s fun s' =>
    s'.field.up = true ∧ s'.field.lost = false ∧ s'.field.vfieldMv = fld f 0xA 2 ∧ s'.field.jobs = x.field.jobs ∧ s'.field.txSeq = x.field.txSeq)) ∧
  (∀ v, frameVerdict false f = v → v ≠ .good → x.fieldOn = true →
   exec (.fieldFrameDiscard t false f) s = .next { x with field := x.field.countBad v }) ∧
  (∀ v, frameVerdict true f = v → x.lantern.stage = .running →
   exec (.fieldFrameDiscard t true f) s = .next { x with lantern := x.lantern.countBad v }) ∧
  (∀ j js, x.field.jobs = j :: js → x.fieldOn = true →
   (x.now < j.sentAt + 100000 → exec (.fieldAckTimeout t) s = .next x) ∧
   (j.sentAt + 100000 ≤ x.now → j.tries < 3 → exec (.fieldAckTimeout t) s = .next x.sendHead) ∧
   (j.sentAt + 100000 ≤ x.now → 3 ≤ j.tries → exec (.fieldAckTimeout t) s = .next ((x.fieldNote 0x0804).endJob 0x0804))) ∧
  (x.fieldOn = true → x.field.up = true →
   (x.now < x.field.lastGood + 5000000 → x.field.crcRun < 16 → exec (.fieldLinkDown t) s = .next x) ∧
   (x.field.lastGood + 5000000 ≤ x.now ∨ 16 ≤ x.field.crcRun → x.field.runs = [] → Completes (.fieldLinkDown t) s fun s' =>
    s'.field.up = false ∧ s'.field.lost = true ∧ s'.field.lastStatus = 0x0801 ∧ s'.lantern = x.lantern)) ∧
  (∀ q c b y, x.active = true → x.field.runs = [q] → x.ctx? q.ctx = some c → c.state = .running → c.draining = false → q.sent < c.workCount →
   x.readElem c q.sent = (b, 0, y) →
   (recordOk b = false → exec (.fieldRecordSend t) s = .next ((y.fieldNote 0x080B).unitFault q.ctx 0x080B)) ∧
   (recordOk b = true → exec (.fieldRecordSend t) s = .next ((y.fieldSend (fType b) (fChan b) (sub b 8 20)).modField fun z =>
    { z with runs := z.runs.map fun w => if w.ctx = q.ctx then { w with sent := w.sent + 1, tLast := x.dev } else w }))) ∧
  (x.req? p 0x0060 = some r → fieldReqBad r.payload = false → fld r.payload 1 1 = ch →
   (fld r.payload 0 1 = 2 → exec (.fieldConfigRead t p) s = .next (x.answerField p ch 0)) ∧
   (fld r.payload 0 1 = 1 → exec (.fieldConfigControl t p) s = .next
    ((x.startReq p).addControl (some p) ch (fld r.payload 2 1) (fld r.payload 4 4))) ∧
   (fld r.payload 0 1 = 0 → exec (.fieldConfigConfigure t p) s = .next
    (((x.startReq p).modFChan ch fun c => { c with block := some (sub r.payload 0x10 64), statusAddr := fld r.payload 8 8 }).addConfig (some p) ch (sub r.payload 0x10 64))))

/-- After R412, R415 to R423 and R427, for a frame that the link unit has sent (any other does nothing here). -/
def Obligations.LanternActs : Prop :=
 ∀ (s x : State) (t ch : Nat) (f : Bytes), s.at t = x → ch < 6 →
  (x.lantern.stage = .running → f ∈ x.field.sent → frameVerdict true f = .good → fChan f = ch →
   let y := x.acceptFrame f
   let c := x.lchan ch
   (∀ sp : Setpoint, fType f = 1 →
    sp = { target := toSigned 32 (fld f 8 4), vlimit := fld f 0xC 4, alimit := fld f 0x10 4, frame := fld f 0x14 4, tag := fld f 0x18 2, arrived := x.now } →
    (c.state.tripable = true → Completes (.motorSetpoint t f) s fun s' => (s'.lchan ch).lastSet = x.now ∧ (s'.lchan ch).pending.head? = some sp ∧
     (s'.lchan ch).state = c.state ∧ (s'.lchan ch).pos = c.pos ∧ s'.lantern.rxSeq = some (fSeq f) ∧ s'.out = x.out) ∧
    (c.state.tripable = false → Completes (.motorSetpoint t f) s fun s' => (s'.lchan ch).state = c.state ∧ (s'.lchan ch).pending = c.pending ∧
     (s'.lchan ch).lastSet = c.lastSet ∧ (s'.lchan ch).discards = c.discards + 1)) ∧
   (fType f = 2 → c.state.tripable = true → Completes (.coolerSetpoint t f) s fun s' => (s'.lchan ch).lastSet = x.now ∧
    (s'.lchan ch).state = c.state ∧ (s'.lchan ch).duty = c.duty ∧ s'.out = x.out ∧
    (s'.lchan ch).pending.head? = some { target := fld f 8 2, frame := fld f 0xC 4, tag := fld f 0x10 2, arrived := x.now }) ∧
   (fType f = 0x10 →
    (c.state = .off → Completes (.configWrite t f) s fun s' => (s'.lchan ch).block = putBytes c.block (fld f 8 1) (sub f 0xC 16) ∧
     (s'.lchan ch).state = .off) ∧
    (c.state ≠ .off → exec (.configWrite t f) s = .next (y.lanternAck f 0x0803))) ∧
   (isControl f 0 = true → Completes (.controlDisable t f) s fun s' => (s'.lchan ch).state = .off ∧ (s'.lchan ch).enable = false ∧
    (s'.lchan ch).pending = [] ∧ (s'.lchan ch).block = c.block) ∧
   (isControl f 1 = true → c.state = .off →
    (x.lantern.selftestFail = true → exec (.controlEnable t f) s = .next (y.lanternAck f 0x080D)) ∧
    (x.lantern.selftestFail = false → blockOk ch c.block = false → exec (.controlEnable t f) s = .next (y.lanternAck f 0x0802)) ∧
    (x.lantern.selftestFail = false → blockOk ch c.block = true → 4 ≤ ch → c.overs = false → Completes (.controlEnable t f) s fun s' =>
     (s'.lchan ch).state = .armed ∧ (s'.lchan ch).enable = false ∧ (s'.lchan ch).block = c.block)) ∧
   (isControl f 2 = true → c.state = .tripped →
    (c.overs = true → exec (.controlClearTrip t f) s = .next (y.lanternAck f 0x0806)) ∧
    (c.overs = false → exec (.controlClearTrip t f) s = .next ((y.modLChan ch fun c => { c with state := .armed }).lanternAck f 0))) ∧
   (isControl f 3 = true →
    (c.state = .run ∨ c.state = .ramp ∨ 4 ≤ ch → exec (.controlSetPosition t f) s = .next (y.lanternAck f 0x080E)) ∧
    (c.state ≠ .run → c.state ≠ .ramp → ch < 4 → exec (.controlSetPosition t f) s = .next
     ((y.modLChan ch fun c => { c with reref := some (toSigned 32 (fld f 0xC 4)), pending := [] }).lanternAck f 0)))) ∧
  (x.lantern.stage = .running → f ∉ x.field.sent → exec (.motorSetpoint t f) s = .next x ∧ exec (.controlEnable t f) s = .next x) ∧
  (x.lantern.stage = .running → f ∈ x.field.sent → frameVerdict true f = .good → isControl f 4 = true → Completes (.linkAck t f) s fun s' =>
   s'.lantern.boot = false ∧ s'.lantern.chans = x.lantern.chans) ∧
  (x.lantern.stage = .running →
   ((x.lchan ch).state.tripable = true → Completes (.overcurrentTrip t ch) s fun s' => (s'.lchan ch).state = .tripped ∧ (s'.lchan ch).enable = false ∧
    (s'.lchan ch).overs = true ∧ ∀ j, j ≠ ch → s'.lchan j = x.lchan j) ∧
   ((x.lchan ch).state.tripable = false → Completes (.overcurrentTrip t ch) s fun s' => (s'.lchan ch).state = (x.lchan ch).state ∧ s'.out = x.out) ∧
   (ch < 4 → (x.lchan ch).blockP = false → (x.lchan ch).state.tripable = true → Completes (.limitTrip t ch true) s fun s' =>
    (s'.lchan ch).state = .tripped ∧ (s'.lchan ch).enable = false ∧ (s'.lchan ch).blockP = true ∧ ∀ j, j ≠ ch → s'.lchan j = x.lchan j) ∧
   (Completes (.vfieldUndervoltageTrip t) s fun s' => ∀ j < 6, (s'.lchan j).state =
    if (x.lchan j).state.tripable = true then .tripped else (x.lchan j).state) ∧
   (∀ ins, Completes (.loopStep t ins) s fun s' => s'.lantern.step = (x.lantern.step + 1) % 2 ^ 32 ∧
    ∀ j < 6, ((x.lchan j).state = .off ∨ (x.lchan j).state = .tripped → (s'.lchan j).state = (x.lchan j).state) ∧
     (s'.lchan j).block = (x.lchan j).block) ∧
   ((x.lchan ch).state = .run → (x.lchan ch).lastSet + (x.lchan ch).watchdog ≤ x.now → Completes (.watchdogExpiry t ch) s fun s' =>
    (s'.lchan ch).state = .ramp ∧ (s'.lchan ch).vel = (x.lchan ch).vel ∧ ∀ j, j ≠ ch → s'.lchan j = x.lchan j) ∧
   (x.now < (x.lchan ch).lastSet + (x.lchan ch).watchdog → exec (.watchdogExpiry t ch) s = .next x) ∧
   ((x.lchan ch).state ≠ .off → exec (.channelStatusSend t ch) s = .next (x.sendChanStatus ch)) ∧
   ((x.lchan ch).state = .off → exec (.channelStatusSend t ch) s = .next x) ∧
   (∀ mv temp, Completes (.linkStatusSend t mv temp) s fun s' => s'.lantern.vfieldMv = mv ∧ s'.lantern.chans = x.lantern.chans ∧
    s'.lantern.txSeq = (x.lantern.txSeq + 1) % 2 ^ 16 ∧ s'.out.length = x.out.length + 1)) ∧
  (∀ mv, x.lantern.stage = .reset → 3000 < mv → exec (.lanternResetRelease t mv) s = .next
   { x with lantern := { x.lantern with stage := .selftest, vfieldMv := mv } }) ∧
  (∀ pass, x.lantern.stage = .selftest → Completes (.lanternSelftestComplete t pass) s fun s' =>
   s'.lantern.stage = .running ∧ s'.lantern.selftestFail = !pass ∧ s'.lantern.chans = x.lantern.chans ∧ s'.out.length = x.out.length + 1) ∧
  (Completes (.lanternResetEntry t) s fun s' => s'.lantern = {} ∧ s'.field = x.field ∧ s'.out = x.out ++ (List.range 6).map fun j => .enable j false)

/-- The same of the other families (R38 to R41, R276 to R290, R297 to R316, R321 to R341, R355, R380, R394 to R408, R412 to R428). -/
def Obligations.EnginesCompleteOwnEffects : Prop :=
∀ (s x : State) (t p k i n a : Nat) (r : MbxReq) (c : Ctx) (b : Bytes) (y : State), s.at t = x →
let D : Instr → State → Prop := fun f y => exec f s = .next y
let E : Instr → (State → Prop) → Prop := fun f P => ∃ z, exec f s = .next z ∧ P z
let H : Nat → Prop := fun op => x.req? p op = some r
let f := fld r.payload
(∀ l, H 0x25 → f 0 1 = k → k ≤ 15 → allZero (sub r.payload 1 7) = true → x.takePset k (sub r.payload 8 16) = (0, l) → D (.psetSubmit t p) (l.answer p 0)) ∧
(H 0x26 → f 0 1 = k → f 1 1 = n → k ≤ 15 → n ≤ 3 → allZero (sub r.payload 2 6) = true → x.tapStatus k n (sub r.payload 8 64) = 0 → E (.tapConfig t p) fun z => ∃ g, z = (x.modRfe k g).answer p 0) ∧
(H 0x22 → x.NetPasses r.payload → E (.networkBind t p []) fun z => ∃ y : State, z = (y.moveSne (nCam r.payload) (nSne r.payload)).startReq p) ∧
(∀ w, H 0x23 → f 0 1 = k → k ≤ 15 → allZero (sub r.payload 1 3) = true → (x.cams.at k).net = some w → D (.networkUnbind t p) ((x.modCam k fun y => { y with net := some { w with unbindDue := true } }).answer p 0)) ∧
(H 0x28 → f 0 1 = k → k = 4 ∨ k = 5 → f 1 1 = 0 → f 2 2 ≠ 0 → (x.vis.at k).failed = false → D (.checkMode t p) ((x.modVis k fun y => y.enter 2 (f 2 2)).answer p 0)) ∧
(∀ m v w, H 0x10 → x.Admits r.payload m v w → D (.graphAdmit t p m) ((x.install v x.freeGraphId).answerAdmit p w x.freeGraphId v)) ∧
(∀ q g, g = f 0 1 → aGet x.bf.graphs g = some q → (H 0x11 → x.SaveDue q r.payload → E (.graphPark t ⟨p, false⟩) fun z => ∃ y : State, z = (y.evictGraph g p false).gateUnused) ∧
 (∀ v w, H 0x12 → allZero (sub r.payload 1 3) = true → x.Restores g q v w → E (.graphRestore t p) fun z => ∃ u : State, z = u.answerAdmit p w g v) ∧
 (H 0x13 → f 1 1 = 1 → f 2 2 = 0 → q.inFlight = false → D (.graphStop t p) (((x.removeGraph g).gateUnused).answer p 0))) ∧
(∀ j, H 0x61 → peerReserved r.payload = true → j = f 1 1 →
 (f 0 1 = 0 → j < 3 → (x.peer.at j).up = true → D (.portUp t p) (x.answerPeer p 0 (x.peer.at j).report)) ∧
 (f 0 1 = 1 → j < 3 → x.graphsOnPort j = [] → E (.portDown t p) fun z => ∃ y : State, z = y.updateHealth.answerPeer p 0) ∧
 (∀ q, f 0 1 = 2 → f 2 2 ≤ 1023 → f 4 1 = 1 → x.sharing? (f 5 1) = some q → f 8 2 < q.image.beacons.length → E (.importEntry t p) fun z => ∃ l, z = ({ x with imports := aSet x.imports (f 2 2) l } : State).answerPeer p 0) ∧
 (∀ q, f 0 1 = 3 → f 6 2 ≤ 1023 → bit (f 4 1) 2 = true → bits (f 4 1) 0 2 ≠ x.straps.module → x.sharing? j = some q → f 2 2 < q.counters.length →
 E (.counterMap t p) fun z => ∃ l h, z = ({ x with ctrMaps := l ++ [h] } : State).answerPeer p 0)) ∧
(H 0x60 → fieldReqBad r.payload = false → f 1 1 = k → (f 0 1 = 2 → D (.fieldConfigRead t p) (x.answerField p k 0)) ∧
 (f 0 1 = 1 → D (.fieldConfigControl t p) ((x.startReq p).addControl (some p) k (f 2 1) (f 4 4))) ∧ (f 0 1 = 0 → E (.fieldConfigConfigure t p) fun z => ∃ w : State, z = w.addConfig (some p) k (sub r.payload 0x10 64))) ∧
(x.active = true →
 (∀ e l, e < 12 → k < 16 → x.accessStatus (initDma e) (psetWindow k) 16 true = 0 → b.length = 16 → x.takePset k b = (0, l) → D (.rfePsetSubmitWrite t e k 0 b) l) ∧
 (∀ w, x.camOfRfe k = some i → (x.rfe.at k).failed = false → ((x.rfe.at k).shadow = none → (x.rfe.at k).loading = none → earliestSet (x.cams.at i).frameNo (x.rfe.at k).pending = some w →
  D (.psetLoadStart t k) (x.modRfe k fun y => { y with loading := some w, pending := y.pending.filter (· != w) })) ∧
 (x.SetPasses k i w b → E (.psetLoadComplete t k) fun z => ∃ y : State, ∃ l, z = y.modRfe k fun z => { z with shadow := some (w, b), shadowLate := l })) ∧
 (∀ g : Frame, (x.TapDue k i n g → E (.tapRowGroupWrite t k n [] .none) fun z => ∃ h, (z.cams.at i).frames.head? = some h ∧ h.tapNext.at n = g.tapNext.at n + 1) ∧
 (x.rfeCam k = some i → (x.cams.at i).frames.head? = some g → (x.rfe.at k).failed = false →
  (g.statsDone = false → g.tFe.isSome = true → bH (x.cams.at i).bind ≤ g.rows.length → E (.statsBlockComplete t k) fun z => ∃ y : State, z = y.sourceEvent i g.num g.since true (rfeHit k 2 0)) ∧
  (x.frameOver (x.cams.at i) g = true → g.parityLines = 0 → (x.cams.at i).leaving = false → E (.metadataRecordWrite t k) fun z => ∃ y : State,
  z = ((y.sourceEvent i g.num g.since true (rfeHit k 3 0)).endNet i).gateUnused))) ∧
 (∀ w g, (x.cams.at i).net = some w → (w.groups = [g] → w.active = true → g.deadline < x.now → D (.rowGroupDeadline t i) (x.missDeadline i g.index)) ∧
 (w.pair = some p → x.imageOk (nSne w.bindRec) (nImage w.bindRec) w.header = true → E (.networkWeightLoadComplete t i) fun z => ∃ y : State, z = y.answerNet p {}) ∧
 (x.imageCams k a = [i] → w.reloading = true → x.imageOk k a w.header = true → E (.sneWeightReloadComplete t k a) fun z => ∃ y : State, ∃ h, z = y.modSne k h)) ∧
 (k < 4 → (x.sne.at k).failed = false → D (.sneFault t k .control) (x.failSne k) ∧
 (∀ w f g, x.UnitDue k i w f g → E (.sneUnitStart t k) fun z => (z.sne.at k).unit = some { cam := i, frame := f.num, group := g.index, stripe := g.next }) ∧
 (∀ u w, x.UnitOnTime k u w → E (.sneUnitComplete t k u.group u.stripe) fun z => ((z.cams.at u.cam).net.map (·.unitsNet)) = some (w.unitsNet + 1))) ∧
 (k < 6 → (∀ w h l j, x.OpPasses k w c b y → y.readVisTable k b = (l, 0, h) → h.readHint k b = j → D (.visionOperationStart t k) (j.2.beginOp k w c b l j.1)) ∧
 (∀ w, x.OpRuns k w b → (x.BandPasses k w b → E (.visionBandComplete t k .clean) fun z => ∃ y : State, (y.vis.at k).run.map (·.band) = some (w.band + 1) ∧ z = y.fetchBand k (w.band + 3)) ∧
  (opBands k b ≤ w.band → E (.visionOperationComplete t k) fun z => (z.vis.at k).run.map (·.opsDone) = some (w.opsDone + 1)) ∧
  ((x.vis.at k).failed = false → E (.visionParityError t k) fun z => ∃ y : State, (y.vis.at k).selftest = true ∧ z = y.unitFault w.ctx 0x0603)) ∧
 ((x.vis.at k).selftest = true → (x.vis.at k).testPair = none → E (.visionSelftestComplete t k true) fun z => ∃ y : State, (y.vis.at k).selftest = false ∧ z = y.gateUnused)) ∧
 (k < 3 → let g := x.peer.at k
 (g.enabled = true → g.up = false → E (.peerTrainingComplete t k (x.wiredTo k) 4 false) (fun z => (z.peer.at k).up = true) ∧ (g.since + 1000000000 ≤ x.now → D (.peerTrainingTimeout t k) (x.failPort k 0x0701))) ∧
 (g.up = true → D (.peerRetrainTimeout t ⟨k, .portFailed⟩) (x.losePeer k) ∧ (g.retrain = false → E (.peerFlitError t k) fun z => (z.peer.at k).replays = satInc 16 g.replays) ∧
  (g.retrain = true → E (.peerRetrainComplete t k) fun z => (z.peer.at k).retrain = false)) ∧
 (x.portOpen k = true → (∀ h q l, x.import? k a false = some (h, q) → q.image.beacons[h.target]? = some l → D (.remoteSignal t k a n) ((x.signalBeacon l.index n).endShared a)) ∧
  (∀ h q l, x.import? k a true = some (h, q) → q.counters[h.target]? = some l → x.counterBad l = false → D (.remoteCounterOp t k a n .clean) ((x.setCounter l (x.counter l + n)).emit (.counterReply k (some (x.counter l))))) ∧
  (∀ j, windowTarget a = some j → D (.peerRemoteAccess t k a 0 (.write b)) ((x.write (initPeerIn k) j b).2.emit (.remoteReply k [] (x.write (initPeerIn k) j b).1 false)))) ∧
 (∀ m, x.ctx? i = some c → x.remoteUse i m c = true → c.tStart + 100000 ≤ x.dev → x.silent? m = none → D (.remoteRequestTimeout t (.node i) m) (x.unitFault i 0x0708)) ∧
 (∀ l q v, x.RelayDue k l c q v → D (.relayUnit t k) (x.relayOne k l c q v)))) ∧
(x.fieldOn = true → (frameVerdict false b = .good → y = x.fieldAccept b → (fType b = 0x81 → D (.fieldStatusReceive t b) (y.fieldStatus b)) ∧ (fType b = 0x90 → D (.fieldAckReceive t b) (y.fieldAck b)) ∧
 (fType b = 0x91 → D (.fieldEventReceive t b) (y.fieldEvent b)) ∧ (fType b = 0x92 → D (.linkStatusReceive t b) (y.linkStatus b))) ∧
 (∀ v, frameVerdict false b = v → v ≠ .good → D (.fieldFrameDiscard t false b) { x with field := x.field.countBad v }) ∧
 (∀ j l, x.field.jobs = j :: l → j.sentAt + 100000 ≤ x.now → j.tries < 3 → D (.fieldAckTimeout t) x.sendHead) ∧ (x.field.up = true → x.field.lastGood + 5000000 ≤ x.now → x.field.runs = [] → E (.fieldLinkDown t) fun z => z.field.up = false) ∧
 (∀ q, x.RecordDue q → E (.fieldRecordSend t) fun z => z.field.runs.map (·.sent) = [q.sent + 1])) ∧
(k < 6 → let T : State → Prop := fun z => (z.lchan k).state = .tripped
 (x.lantern.stage = .running → let g := x.lchan k
 (b ∈ x.field.sent → frameVerdict true b = .good → y = x.acceptFrame b → (isControl b 4 = true → E (.linkAck t b) fun z => z.lantern.boot = false) ∧ (fChan b = k →
  (g.state.tripable = true → (fType b = 1 → E (.motorSetpoint t b) fun z => (z.lchan k).lastSet = x.now) ∧ (fType b = 2 → E (.coolerSetpoint t b) fun z => (z.lchan k).lastSet = x.now)) ∧
  (fType b = 0x10 → g.state = .off → E (.configWrite t b) fun z => (z.lchan k).block = putBytes g.block (fld b 8 1) (sub b 0xC 16)) ∧ (isControl b 0 = true → E (.controlDisable t b) fun z => (z.lchan k).state = .off) ∧
  (isControl b 1 = true → g.state = .off → x.lantern.selftestFail = false → blockOk k g.block = true → 4 ≤ k → g.overs = false → E (.controlEnable t b) fun z => (z.lchan k).state = .armed) ∧
  (isControl b 2 = true → g.state = .tripped → g.overs = false → D (.controlClearTrip t b) ((y.modLChan k fun c => { c with state := .armed }).lanternAck b 0)) ∧
  (isControl b 3 = true → g.state = .armed → k < 4 → E (.controlSetPosition t b) fun z => ∃ l, z = (y.modLChan k fun c => { c with reref := l, pending := [] }).lanternAck b 0))) ∧
 (g.state.tripable = true → E (.overcurrentTrip t k) T ∧ E (.vfieldUndervoltageTrip t) T ∧ (k < 4 → g.blockP = false → E (.limitTrip t k true) T)) ∧
 (∀ l, E (.loopStep t l) fun z => z.lantern.step = (x.lantern.step + 1) % 2 ^ 32) ∧ (g.state = .run → g.lastSet + g.watchdog ≤ x.now → E (.watchdogExpiry t k) fun z => (z.lchan k).state = .ramp) ∧
 (g.state ≠ .off → D (.channelStatusSend t k) (x.sendChanStatus k)) ∧ E (.linkStatusSend t a n) fun z => z.lantern.vfieldMv = a) ∧
 (x.lantern.stage = .reset → 3000 < a → E (.lanternResetRelease t a) fun z => z.lantern.stage = .selftest) ∧
 (x.lantern.stage = .selftest → E (.lanternSelftestComplete t true) fun z => z.lantern.stage = .running) ∧ E (.lanternResetEntry t) fun z => z.lantern = {})
end

