-- ==== Sys2Proof/Laws/Mem.lean ====
section
/-! SUPPORT. The store: a byte written is the byte read, no other byte moves, and every operation keeps the canonical form. -/
namespace Sys2Proof.Machine
open Sys2Proof

theorem memWfFrom_mono {lo lo' : Nat} {m : List Host.Cell} (h : memWfFrom lo m = true) (hl : lo' ≤ lo) : memWfFrom lo' m = true := by
  cases m with
  | nil => rfl
  | cons c m =>
    obtain ⟨k, v⟩ := c
    simp only [memWfFrom, Bool.and_eq_true, decide_eq_true_eq] at h ⊢
    exact ⟨⟨Nat.le_trans hl h.1.1, h.1.2⟩, h.2⟩

/-- Below the least address that a store lists, every byte is empty. -/
theorem memGet_below {lo : Nat} {m : List Host.Cell} (h : memWfFrom lo m = true) {a : Nat} (ha : a < lo) : memGet m a = memEmpty := by
  induction m generalizing lo with
  | nil => rfl
  | cons c m ih =>
    obtain ⟨k, v⟩ := c
    simp only [memWfFrom, Bool.and_eq_true, decide_eq_true_eq] at h
    have hk : k ≠ a := by omega
    simp only [memGet, if_neg hk]
    exact ih h.2 (by omega)

theorem memSet_from {lo : Nat} {m : List Host.Cell} (h : memWfFrom lo m = true) (a : Nat) (b : Byte) (ha : lo ≤ a) :
    memWfFrom lo (memSet m a b) = true := by
  induction m generalizing lo with
  | nil =>
    by_cases hb : b = memEmpty <;> simp [memSet, hb, memWfFrom, ha]
  | cons c m ih =>
    obtain ⟨k, v⟩ := c
    have hw := h
    simp only [memWfFrom, Bool.and_eq_true, decide_eq_true_eq] at h
    unfold memSet
    by_cases h1 : a < k
    · rw [if_pos h1]
      by_cases hb : b = memEmpty
      · rw [if_pos hb]; exact hw
      · rw [if_neg hb]
        have hk : a + 1 ≤ k := h1
        simp [memWfFrom, ha, hb, hk, h.1.2, h.2]
    · rw [if_neg h1]
      by_cases h2 : a = k
      · rw [if_pos h2]
        by_cases hb : b = memEmpty
        · rw [if_pos hb]; exact memWfFrom_mono h.2 (by omega)
        · rw [if_neg hb]
          subst h2
          simp [memWfFrom, ha, hb, h.2]
      · rw [if_neg h2]
        have := ih h.2 (by omega)
        simp only [memWfFrom, Bool.and_eq_true, decide_eq_true_eq]
        exact ⟨h.1, this⟩

theorem memWrite_from {lo : Nat} {m : List Host.Cell} (h : memWfFrom lo m = true) (a : Nat) (bs : Bytes) (ha : lo ≤ a) :
    memWfFrom lo (memWrite m a bs) = true := by
  induction bs generalizing m a with
  | nil => exact h
  | cons b bs ih => exact ih (memSet_from h a b ha) (a + 1) (by omega)

theorem filter_from {lo : Nat} {m : List Host.Cell} (h : memWfFrom lo m = true) (p : Host.Cell → Bool) : memWfFrom lo (m.filter p) = true := by
  induction m generalizing lo with
  | nil => rfl
  | cons c m ih =>
    obtain ⟨k, v⟩ := c
    simp only [memWfFrom, Bool.and_eq_true, decide_eq_true_eq] at h
    rw [List.filter_cons]
    split
    · simp only [memWfFrom, Bool.and_eq_true, decide_eq_true_eq]
      exact ⟨h.1, ih h.2⟩
    · exact memWfFrom_mono (ih h.2) (by omega)

/-- A byte written keeps the canonical form. -/
theorem memSet_wf {m : List Host.Cell} (h : memWf m = true) (a : Nat) (b : Byte) : memWf (memSet m a b) = true := memSet_from h a b (Nat.zero_le a)

/-- A string of bytes written keeps it. -/
theorem memWrite_wf {m : List Host.Cell} (h : memWf m = true) (a : Nat) (bs : Bytes) : memWf (memWrite m a bs) = true :=
  memWrite_from h a bs (Nat.zero_le a)

/-- A range cleared keeps it. -/
theorem memClear_wf {m : List Host.Cell} (h : memWf m = true) (lo n : Nat) : memWf (memClear m lo n) = true := filter_from h _

/-- Cells removed keep it. -/
theorem filter_wf {m : List Host.Cell} (h : memWf m = true) (p : Host.Cell → Bool) : memWf (m.filter p) = true := filter_from h p

/-- A fold of single writes keeps it. -/
theorem foldl_memSet_wf {α : Type} (xs : List α) (k : α → Nat) (v : α → Byte) {m : List Host.Cell} (h : memWf m = true) :
    memWf (xs.foldl (fun m c => memSet m (k c) (v c)) m) = true := by
  induction xs generalizing m with
  | nil => exact h
  | cons x xs ih => exact ih (memSet_wf h (k x) (v x))

theorem memGet_memSet_from {lo : Nat} {m : List Host.Cell} (h : memWfFrom lo m = true) (a : Nat) (b : Byte) (x : Nat) :
    memGet (memSet m a b) x = if x = a then b else memGet m x := by
  induction m generalizing lo with
  | nil =>
    by_cases hb : b = memEmpty
    · subst hb; by_cases hx : x = a <;> simp [memSet, memGet, hx]
    · by_cases hx : x = a
      · subst hx; simp [memSet, hb, memGet]
      · simp [memSet, hb, memGet, hx, Ne.symm hx]
  | cons c m ih =>
    obtain ⟨k, v⟩ := c
    simp only [memWfFrom, Bool.and_eq_true, decide_eq_true_eq] at h
    have hbelow : ∀ y, y ≤ k → memGet m y = memEmpty := fun y hy => memGet_below h.2 (by omega)
    unfold memSet
    by_cases h1 : a < k
    · rw [if_pos h1]
      by_cases hb : b = memEmpty
      · rw [if_pos hb]
        by_cases hx : x = a
        · subst hx
          have hk : k ≠ x := by omega
          simp [memGet, hk, hbelow x (by omega), hb]
        · rw [if_neg hx]
      · rw [if_neg hb]
        by_cases hx : x = a
        · simp [memGet, hx]
        · rw [if_neg hx]
          have : a ≠ x := fun e => hx e.symm
          simp [memGet, this]
    · rw [if_neg h1]
      by_cases h2 : a = k
      · rw [if_pos h2]
        subst h2
        by_cases hb : b = memEmpty
        · rw [if_pos hb]
          by_cases hx : x = a
          · subst hx; simp [hbelow x (Nat.le_refl x), hb]
          · have : a ≠ x := fun e => hx e.symm
            simp [memGet, hx, this]
        · rw [if_neg hb]
          by_cases hx : x = a
          · subst hx; simp [memGet]
          · have : a ≠ x := fun e => hx e.symm
            simp [memGet, hx, this]
      · rw [if_neg h2]
        by_cases hk : k = x
        · subst hk
          have : ¬ k = a := fun e => h2 e.symm
          simp [memGet, this]
        · simp [memGet, hk, ih h.2]

/-- The byte at an address after a byte is written: it where it was written, what it was elsewhere. -/
theorem memGet_memSet {m : List Host.Cell} (h : memWf m = true) (a : Nat) (b : Byte) (x : Nat) :
    memGet (memSet m a b) x = if x = a then b else memGet m x := memGet_memSet_from h a b x

/-- The byte at an address after a string of bytes is written. -/
theorem memGet_memWrite {m : List Host.Cell} (h : memWf m = true) (a : Nat) (bs : Bytes) (x : Nat) :
    memGet (memWrite m a bs) x = if a ≤ x ∧ x < a + bs.length then bs.getD (x - a) 0 else memGet m x := by
  induction bs generalizing m a with
  | nil =>
    rw [memWrite, if_neg]
    simp only [List.length_nil]
    omega
  | cons b bs ih =>
    rw [memWrite, ih (memSet_wf h a b), memGet_memSet h]
    by_cases h1 : x = a
    · subst h1
      rw [if_neg (by omega), if_pos rfl, if_pos (by simp only [List.length_cons]; omega), Nat.sub_self]
      rfl
    · by_cases h2 : a + 1 ≤ x ∧ x < a + 1 + bs.length
      · rw [if_pos h2, if_pos (by simp only [List.length_cons]; omega)]
        have : x - a = (x - (a + 1)) + 1 := by omega
        rw [this, List.getD_cons_succ]
      · rw [if_neg h2, if_neg h1, if_neg (by simp only [List.length_cons]; omega)]

/-- A string of bytes read back is the string written. -/
theorem memRead_memWrite {m : List Host.Cell} (h : memWf m = true) (a : Nat) (bs : Bytes) : memRead (memWrite m a bs) a bs.length = bs := by
  have key : ∀ (n k : Nat), k + n = bs.length → memRead (memWrite m a bs) (a + k) n = bs.drop k := by
    intro n
    induction n with
    | zero => intro k hk; simp [memRead, List.drop_eq_nil_of_le (show bs.length ≤ k by omega)]
    | succ n ih =>
      intro k hk
      have hlt : k < bs.length := by omega
      rw [memRead, memGet_memWrite h, if_pos (by omega), show a + k + 1 = a + (k + 1) by omega, ih (k + 1) (by omega),
        show a + k - a = k by omega, List.drop_eq_getElem_cons hlt]
      simp [hlt]
  simpa using key bs.length 0 (by omega)

/-- Reading what a write does not touch. -/
theorem memRead_memWrite_disjoint {m : List Host.Cell} (h : memWf m = true) (a : Nat) (bs : Bytes) (x n : Nat)
    (hd : x + n ≤ a ∨ a + bs.length ≤ x) : memRead (memWrite m a bs) x n = memRead m x n := by
  induction n generalizing x with
  | zero => rfl
  | succ n ih => rw [memRead, memRead, memGet_memWrite h, if_neg (by omega), ih (x + 1) (by omega)]

end Sys2Proof.Machine
end

