-- ==== Sys2Proof/Laws/Keeps.lean ====
section
/-! SUPPORT. How the relation `Keeps` composes: reflexivity, transitivity, a record update, folds; and that the stores' operations keep the
canonical form. -/
namespace Sys2Proof.Machine
open Sys2Proof

theorem Keeps.refl (l f : Bool) (s : State) : Keeps l f s s :=
  ⟨rfl, rfl, rfl, id, fun _ => rfl, fun _ => rfl⟩

theorem Keeps.trans {l f : Bool} {a b c : State} (h : Keeps l f a b) (k : Keeps l f b c) : Keeps l f a c :=
  ⟨k.pending.trans h.pending, k.straps.trans h.straps, k.timebase.trans h.timebase, fun w => k.mem (h.mem w),
   fun x => (k.lantern x).trans (h.lantern x), fun x => (k.fuses x).trans (h.fuses x)⟩

/-- A relation that holds of everything a step may keep holds of less. -/
theorem Keeps.weaken {l f l' f' : Bool} {a b : State} (h : Keeps l f a b) (hl : l' = true → l = true) (hf : f' = true → f = true) : Keeps l' f' a b :=
  ⟨h.pending, h.straps, h.timebase, h.mem, fun x => h.lantern (hl x), fun x => h.fuses (hf x)⟩

/-- A change of other fields, with the timebase and the stores as they were. -/
theorem Keeps.upd {l f : Bool} {b x : State} {clock : Clock} {bf : Belfry} {mem : MemSys} {spc : Tab 128 Spc} {spire : List (Nat × SpireNode)}
    {ports : Tab 8 Port} {cams : Tab 16 Cam} {genlock : Tab 8 Genlock} {scu : Scu} {rfe : Tab 16 Rfe} {egress : Tab 2 Egress}
    {sne : Tab 4 Sne} {vis : Tab 6 VisUnit} {pci : Pci} {peer : Tab 3 Peer} {imports : List (Nat × Import)} {ctrMaps : List CtrMap}
    {field : Field} {reliab : Reliab} {watch : Watch} {flash : Flash} {power : Power} {resets : Resets} {out : List Output} {fresh : Nat}
    (hc : clock.timebase = x.clock.timebase) (hm : mem.cells = x.mem.cells) (hh : mem.host = x.mem.host) :
    Keeps l f b (State.mk clock bf mem spc spire ports cams genlock scu rfe egress sne vis pci peer imports ctrMaps field x.lantern reliab
      watch x.fuses flash power resets x.straps out fresh x.pending) ↔ Keeps l f b x :=
  ⟨fun h => ⟨h.pending, h.straps, hc.symm.trans h.timebase, fun w => ⟨hm ▸ (h.mem w).1, hh ▸ (h.mem w).2⟩, h.lantern, h.fuses⟩,
   fun h => ⟨h.pending, h.straps, hc.trans h.timebase, fun w => ⟨hm ▸ (h.mem w).1, hh ▸ (h.mem w).2⟩, h.lantern, h.fuses⟩⟩

/-- A change of Lantern and other fields, with the timebase and the stores as they were. -/
theorem Keeps.updLantern {f : Bool} {lan : Lantern} {b x : State} {clock : Clock} {bf : Belfry} {mem : MemSys} {spc : Tab 128 Spc} {spire : List (Nat × SpireNode)}
    {ports : Tab 8 Port} {cams : Tab 16 Cam} {genlock : Tab 8 Genlock} {scu : Scu} {rfe : Tab 16 Rfe} {egress : Tab 2 Egress}
    {sne : Tab 4 Sne} {vis : Tab 6 VisUnit} {pci : Pci} {peer : Tab 3 Peer} {imports : List (Nat × Import)} {ctrMaps : List CtrMap}
    {field : Field} {reliab : Reliab} {watch : Watch} {flash : Flash} {power : Power} {resets : Resets} {out : List Output} {fresh : Nat}
    (hc : clock.timebase = x.clock.timebase) (hm : mem.cells = x.mem.cells) (hh : mem.host = x.mem.host) :
    Keeps false f b (State.mk clock bf mem spc spire ports cams genlock scu rfe egress sne vis pci peer imports ctrMaps field lan reliab
      watch x.fuses flash power resets x.straps out fresh x.pending) ↔ Keeps false f b x :=
  ⟨fun h => ⟨h.pending, h.straps, hc.symm.trans h.timebase, fun w => ⟨hm ▸ (h.mem w).1, hh ▸ (h.mem w).2⟩, fun e => (Bool.false_ne_true e).elim, h.fuses⟩,
   fun h => ⟨h.pending, h.straps, hc.trans h.timebase, fun w => ⟨hm ▸ (h.mem w).1, hh ▸ (h.mem w).2⟩, fun e => (Bool.false_ne_true e).elim, h.fuses⟩⟩

/-- A change of other fields, with the timebase as it was and the stores still in canonical form. -/
theorem Keeps.store {l f : Bool} {x : State} {clock : Clock} {bf : Belfry} {mem : MemSys} {spc : Tab 128 Spc} {spire : List (Nat × SpireNode)}
    {ports : Tab 8 Port} {cams : Tab 16 Cam} {genlock : Tab 8 Genlock} {scu : Scu} {rfe : Tab 16 Rfe} {egress : Tab 2 Egress}
    {sne : Tab 4 Sne} {vis : Tab 6 VisUnit} {pci : Pci} {peer : Tab 3 Peer} {imports : List (Nat × Import)} {ctrMaps : List CtrMap}
    {field : Field} {reliab : Reliab} {watch : Watch} {flash : Flash} {power : Power} {resets : Resets} {out : List Output} {fresh : Nat}
    (hc : clock.timebase = x.clock.timebase) (hm : memWf x.mem.cells = true → memWf mem.cells = true)
    (hh : memWf x.mem.host = true → memWf mem.host = true) :
    Keeps l f x (State.mk clock bf mem spc spire ports cams genlock scu rfe egress sne vis pci peer imports ctrMaps field x.lantern reliab
      watch x.fuses flash power resets x.straps out fresh x.pending) :=
  ⟨rfl, rfl, hc, fun w => ⟨hm w.1, hh w.2⟩, fun _ => rfl, fun _ => rfl⟩

theorem Keeps.ite {l f : Bool} {b x y : State} {c : Prop} [Decidable c] (hx : Keeps l f b x) (hy : Keeps l f b y) :
    Keeps l f b (if c then x else y) := by
  split
  · exact hx
  · exact hy

theorem Keeps.foldl {l f : Bool} {α : Type} {b : State} {g : State → α → State} {xs : List α} {s : State} (h0 : Keeps l f b s)
    (h : ∀ s x, Keeps l f b s → Keeps l f b (g s x)) : Keeps l f b (xs.foldl g s) := by
  induction xs generalizing s with
  | nil => exact h0
  | cons x xs ih => exact ih (h s x h0)

theorem Keeps.foldl2 {l f : Bool} {α β : Type} {b : State} {g : β × State → α → β × State} {xs : List α} {p : β × State}
    (h0 : Keeps l f b p.2) (h : ∀ p x, Keeps l f b p.2 → Keeps l f b (g p x).2) : Keeps l f b (xs.foldl g p).2 := by
  induction xs generalizing p with
  | nil => exact h0
  | cons x xs ih => exact ih (h p x h0)

theorem Keeps.foldl1 {l f : Bool} {α β : Type} {b : State} {g : State × β → α → State × β} {xs : List α} {p : State × β}
    (h0 : Keeps l f b p.1) (h : ∀ p x, Keeps l f b p.1 → Keeps l f b (g p x).1) : Keeps l f b (xs.foldl g p).1 := by
  induction xs generalizing p with
  | nil => exact h0
  | cons x xs ih => exact ih (h p x h0)

theorem Keeps.foldl3 {l f : Bool} {α β γ : Type} {b : State} {g : β × γ × State → α → β × γ × State} {xs : List α} {p : β × γ × State}
    (h0 : Keeps l f b p.2.2) (h : ∀ p x, Keeps l f b p.2.2 → Keeps l f b (g p x).2.2) : Keeps l f b (xs.foldl g p).2.2 := by
  induction xs generalizing p with
  | nil => exact h0
  | cons x xs ih => exact ih (h p x h0)

end Sys2Proof.Machine
end

