-- ==== Sys2Proof/Laws/Keeps/Ops.lean ====
section
/-! SUPPORT. What the operations of Machine/Ops.lean leave alone. -/
namespace Sys2Proof.Machine
open Sys2Proof
set_option linter.unusedSimpArgs false

theorem State.emit_keeps {kl kf : Bool} {kb : State} (s : State) (o : Output)
    (hk : Keeps kl kf kb s) : Keeps kl kf kb (State.emit s o) := by
  unfold State.emit
  repeat' (first
    | intro _
    | with_reducible assumption
    | with_reducible apply Keeps.ite
    | split
    | dsimp only [id]
    | simp only [Keeps.upd])

theorem State.raise_keeps {kl kf : Bool} {kb : State} (s : State) (v : Nat)
    (hk : Keeps kl kf kb s) : Keeps kl kf kb (State.raise s v) := by
  unfold State.raise
  repeat' (first
    | intro _
    | with_reducible assumption
    | with_reducible apply State.emit_keeps
    | with_reducible apply Keeps.ite
    | split
    | dsimp only [id]
    | simp only [Keeps.upd])

theorem State.raiseAll_keeps {kl kf : Bool} {kb : State} (s : State) (vs : List Nat)
    (hk : Keeps kl kf kb s) : Keeps kl kf kb (State.raiseAll s vs) := by
  unfold State.raiseAll
  repeat' (first
    | intro _
    | with_reducible assumption
    | with_reducible apply Keeps.foldl
    | with_reducible apply State.raise_keeps)

theorem State.stampLog_keeps {kl kf : Bool} {kb : State} (s : State) (status : Nat)
    (hk : Keeps kl kf kb s) : Keeps kl kf kb (State.stampLog s status) := by
  unfold State.stampLog
  repeat' (first
    | intro _
    | with_reducible assumption
    | with_reducible apply Keeps.ite
    | split
    | dsimp only [id]
    | simp only [Keeps.upd])

theorem State.logEventRec_keeps {kl kf : Bool} {kb : State} (s : State) (r : Bytes)
    (hk : Keeps kl kf kb s) : Keeps kl kf kb (State.logEventRec s r) := by
  unfold State.logEventRec
  repeat' (first
    | intro _
    | with_reducible assumption
    | with_reducible apply Keeps.ite
    | split
    | dsimp only [id]
    | simp only [Keeps.upd])

theorem State.hostPut_keeps {kl kf : Bool} {kb : State} (s : State) (a : Nat) (bs : Bytes) (hk : Keeps kl kf kb s) :
    Keeps kl kf kb (State.hostPut s a bs) :=
  hk.trans (Keeps.store rfl id (fun h => memWrite_wf h _ _))

theorem State.mbxWrite_keeps {kl kf : Bool} {kb : State} (s : State) (p : Nat) (opcode : Nat) (seq : Nat) (tag : Nat) (event : Bool) (payload : Bytes)
    (hk : Keeps kl kf kb s) : Keeps kl kf kb (State.mbxWrite s p opcode seq tag event payload) := by
  unfold State.mbxWrite
  repeat' (first
    | intro _
    | with_reducible assumption
    | with_reducible apply State.hostPut_keeps
    | with_reducible apply State.raise_keeps
    | with_reducible apply Keeps.ite
    | split
    | dsimp only [id]
    | simp only [Keeps.upd])

theorem State.deliver_keeps {kl kf : Bool} {kb : State} (s : State) (p : Nat) (r : MbxReq) (payload : Bytes)
    (hk : Keeps kl kf kb s) : Keeps kl kf kb (State.deliver s p r payload) := by
  unfold State.deliver
  repeat' (first
    | intro _
    | with_reducible assumption
    | with_reducible apply State.mbxWrite_keeps
    | with_reducible apply Keeps.ite
    | split
    | dsimp only [id]
    | simp only [Keeps.upd])

theorem State.respond_keeps {kl kf : Bool} {kb : State} (s : State) (p : Nat) (status : Nat) (detail : Nat) (rest : Bytes)
    (hk : Keeps kl kf kb s) : Keeps kl kf kb (State.respond s p status detail rest) := by
  unfold State.respond
  repeat' (first
    | intro _
    | with_reducible assumption
    | with_reducible apply State.deliver_keeps
    | with_reducible apply Keeps.ite
    | split
    | dsimp only [id]
    | simp only [Keeps.upd])

theorem State.deliverHeld_keeps {kl kf : Bool} {kb : State} (s : State)
    (hk : Keeps kl kf kb s) : Keeps kl kf kb (State.deliverHeld s) := by
  unfold State.deliverHeld
  repeat' (first
    | intro _
    | with_reducible assumption
    | with_reducible apply Keeps.foldl
    | with_reducible apply State.deliver_keeps
    | with_reducible apply Keeps.ite
    | split)

theorem State.answer_keeps {kl kf : Bool} {kb : State} (s : State) (p : Nat) (status : Nat)
    (hk : Keeps kl kf kb s) : Keeps kl kf kb (State.answer s p status) := by
  unfold State.answer
  repeat' (first
    | intro _
    | with_reducible assumption
    | with_reducible apply State.respond_keeps)

theorem State.postEvent_keeps {kl kf : Bool} {kb : State} (s : State) (source : Nat) (payload : Bytes)
    (hk : Keeps kl kf kb s) : Keeps kl kf kb (State.postEvent s source payload) := by
  unfold State.postEvent
  repeat' (first
    | intro _
    | with_reducible assumption
    | with_reducible apply State.logEventRec_keeps
    | with_reducible apply State.mbxWrite_keeps
    | with_reducible apply State.stampLog_keeps
    | with_reducible apply Keeps.ite
    | split
    | dsimp only [id]
    | simp only [Keeps.upd])

theorem State.event_keeps {kl kf : Bool} {kb : State} (s : State) (status : Nat) (source : Nat) (unit : Nat) (vecs : List Nat) (data : Bytes)
    (hk : Keeps kl kf kb s) : Keeps kl kf kb (State.event s status source unit vecs data) := by
  unfold State.event
  repeat' (first
    | intro _
    | with_reducible assumption
    | with_reducible apply State.logEventRec_keeps
    | with_reducible apply State.postEvent_keeps
    | with_reducible apply State.raiseAll_keeps)

theorem State.note_keeps {kl kf : Bool} {kb : State} (s : State) (status : Nat) (source : Nat) (unit : Nat) (data : Bytes)
    (hk : Keeps kl kf kb s) : Keeps kl kf kb (State.note s status source unit data) := by
  unfold State.note
  repeat' (first
    | intro _
    | with_reducible assumption
    | with_reducible apply State.logEventRec_keeps)

theorem State.noteRare_keeps {kl kf : Bool} {kb : State} (s : State) (status : Nat) (source : Nat) (unit : Nat)
    (hk : Keeps kl kf kb s) : Keeps kl kf kb (State.noteRare s status source unit) := by
  unfold State.noteRare
  repeat' (first
    | intro _
    | with_reducible assumption
    | with_reducible apply State.note_keeps
    | with_reducible apply State.stampLog_keeps
    | with_reducible apply Keeps.ite)

theorem State.updateHealth_keeps {kl kf : Bool} {kb : State} (s : State)
    (hk : Keeps kl kf kb s) : Keeps kl kf kb (State.updateHealth s) := by
  unfold State.updateHealth
  repeat' (first
    | intro _
    | with_reducible assumption
    | with_reducible apply State.event_keeps
    | with_reducible apply Keeps.ite
    | split
    | dsimp only [id]
    | simp only [Keeps.upd])

theorem State.logError_keeps {kl kf : Bool} {kb : State} (s : State) (status : Nat) (store : Nat) (unit : Nat) (kind : Nat) (foundBy : Nat) (bitNo : Nat) (addr : Nat) (row : Nat) (count : Nat)
    (hk : Keeps kl kf kb s) : Keeps kl kf kb (State.logError s status store unit kind foundBy bitNo addr row count) := by
  unfold State.logError
  repeat' (first
    | intro _
    | with_reducible assumption
    | with_reducible apply Keeps.ite
    | split
    | dsimp only [id]
    | simp only [Keeps.upd])

theorem State.sendOn_keeps {kl kf : Bool} {kb : State} (s : State) (k : Nat) (o : Output)
    (hk : Keeps kl kf kb s) : Keeps kl kf kb (State.sendOn s k o) := by
  unfold State.sendOn
  repeat' (first
    | intro _
    | with_reducible assumption
    | with_reducible apply State.emit_keeps
    | with_reducible apply Keeps.ite
    | split
    | dsimp only [id]
    | simp only [Keeps.upd])

theorem State.sendHeld_keeps {kl kf : Bool} {kb : State} (s : State) (k : Nat)
    (hk : Keeps kl kf kb s) : Keeps kl kf kb (State.sendHeld s k) := by
  unfold State.sendHeld
  repeat' (first
    | intro _
    | with_reducible assumption
    | with_reducible apply Keeps.foldl
    | with_reducible apply State.emit_keeps
    | with_reducible apply Keeps.ite
    | split
    | dsimp only [id]
    | simp only [Keeps.upd])

theorem State.deny_keeps {kl kf : Bool} {kb : State} (s : State) (i : Nat)
    (hk : Keeps kl kf kb s) : Keeps kl kf kb (State.deny s i) := by
  unfold State.deny
  repeat' (first
    | intro _
    | with_reducible assumption
    | with_reducible apply State.noteRare_keeps
    | with_reducible apply Keeps.ite
    | split
    | dsimp only [id]
    | simp only [Keeps.upd])

theorem State.countRefusal_keeps {kl kf : Bool} {kb : State} (s : State) (i : Nat) (status : Nat)
    (hk : Keeps kl kf kb s) : Keeps kl kf kb (State.countRefusal s i status) := by
  unfold State.countRefusal
  repeat' (first
    | intro _
    | with_reducible assumption
    | with_reducible apply State.deny_keeps
    | with_reducible apply Keeps.ite
    | split
    | dsimp only [id]
    | simp only [Keeps.upd])

theorem State.strike_keeps {kl kf : Bool} {kb : State} (s : State) (a : Nat)
    (hk : Keeps kl kf kb s) : Keeps kl kf kb (State.strike s a) := by
  unfold State.strike
  repeat' (first
    | intro _
    | with_reducible assumption
    | with_reducible apply Keeps.ite
    | split
    | dsimp only [id]
    | simp only [Keeps.upd])

theorem State.countUncorrectable_keeps {kl kf : Bool} {kb : State} (s : State) (status : Nat) (a : Nat) (unit : Nat)
    (hk : Keeps kl kf kb s) : Keeps kl kf kb (State.countUncorrectable s status a unit) := by
  unfold State.countUncorrectable
  repeat' (first
    | intro _
    | with_reducible assumption
    | with_reducible apply State.logError_keeps
    | with_reducible apply Keeps.ite
    | split
    | dsimp only [id]
    | simp only [Keeps.upd])

theorem State.countPoison_keeps {kl kf : Bool} {kb : State} (s : State) (a : Nat)
    (hk : Keeps kl kf kb s) : Keeps kl kf kb (State.countPoison s a) := by
  unfold State.countPoison
  repeat' (first
    | intro _
    | with_reducible assumption
    | with_reducible apply State.logError_keeps
    | with_reducible apply Keeps.ite
    | split
    | dsimp only [id]
    | simp only [Keeps.upd])

theorem State.evict_keeps {kl kf : Bool} {kb : State} (s : State) (l : CacheLine)
    (hk : Keeps kl kf kb s) : Keeps kl kf kb (State.evict s l) := by
  unfold State.evict
  repeat' (first
    | intro _
    | with_reducible assumption
    | with_reducible apply Keeps.foldl
    | with_reducible apply State.countUncorrectable_keeps
    | with_reducible apply State.event_keeps
    | with_reducible apply Keeps.ite
    | split
    | dsimp only [id]
    | simp only [Keeps.upd])

theorem State.cacheLine_keeps {kl kf : Bool} {kb : State} (s : State) (line : Nat) (write : Bool) (noAlloc : Bool)
    (hk : Keeps kl kf kb s) : Keeps kl kf kb (State.cacheLine s line write noAlloc) := by
  unfold State.cacheLine
  repeat' (first
    | intro _
    | with_reducible assumption
    | with_reducible apply Keeps.foldl
    | with_reducible apply State.evict_keeps
    | with_reducible apply Keeps.ite
    | split
    | dsimp only [id]
    | simp only [Keeps.upd])

theorem State.cacheTouch_keeps {kl kf : Bool} {kb : State} (s : State) (a : Nat) (n : Nat) (write : Bool) (noAlloc : Bool)
    (hk : Keeps kl kf kb s) : Keeps kl kf kb (State.cacheTouch s a n write noAlloc) := by
  unfold State.cacheTouch
  repeat' (first
    | intro _
    | with_reducible assumption
    | with_reducible apply Keeps.foldl
    | with_reducible apply State.cacheLine_keeps
    | with_reducible apply Keeps.ite)

theorem State.read_keeps {kl kf : Bool} {kb : State} (s : State) (i : Nat) (a : Nat) (n : Nat) (noAlloc : Bool)
    (hk : Keeps kl kf kb s) : Keeps kl kf kb (State.read s i a n noAlloc).2.2 := by
  unfold State.read
  repeat' (first
    | intro _
    | with_reducible assumption
    | with_reducible apply State.cacheTouch_keeps
    | with_reducible apply State.countRefusal_keeps
    | with_reducible apply State.countUncorrectable_keeps
    | with_reducible apply Keeps.ite
    | split
    | dsimp only [id])

theorem State.poke_keeps {kl kf : Bool} {kb : State} (s : State) (a : Nat) (bs : Bytes) (hk : Keeps kl kf kb s) :
    Keeps kl kf kb (State.poke s a bs) := by
  unfold State.poke
  split
  · exact State.hostPut_keeps _ _ _ hk
  · exact State.sendOn_keeps _ _ _ hk
  · exact hk
  · exact hk
  · exact hk
  · exact hk.trans (Keeps.store rfl (fun h => memWrite_wf h _ _) id)

theorem State.writeRaw_keeps {kl kf : Bool} {kb : State} (s : State) (i : Nat) (a : Nat) (bs : Bytes) (noAlloc : Bool)
    (hk : Keeps kl kf kb s) : Keeps kl kf kb (State.writeRaw s i a bs noAlloc).2 := by
  unfold State.writeRaw
  repeat' (first
    | intro _
    | with_reducible assumption
    | with_reducible apply Keeps.foldl
    | with_reducible apply State.cacheTouch_keeps
    | with_reducible apply State.countPoison_keeps
    | with_reducible apply State.note_keeps
    | with_reducible apply State.poke_keeps
    | with_reducible apply Keeps.ite
    | split
    | dsimp only [id]
    | simp only [Keeps.upd])

theorem State.write_keeps {kl kf : Bool} {kb : State} (s : State) (i : Nat) (a : Nat) (bs : Bytes)
    (hk : Keeps kl kf kb s) : Keeps kl kf kb (State.write s i a bs).2 := by
  unfold State.write
  repeat' (first
    | intro _
    | with_reducible assumption
    | with_reducible apply State.countRefusal_keeps
    | with_reducible apply State.writeRaw_keeps
    | with_reducible apply Keeps.ite
    | split
    | dsimp only [id])

theorem State.record_keeps {kl kf : Bool} {kb : State} (s : State) (i : Nat) (a : Nat) (bs : Bytes)
    (hk : Keeps kl kf kb s) : Keeps kl kf kb (State.record s i a bs) := by
  unfold State.record
  repeat' (first
    | intro _
    | with_reducible assumption
    | with_reducible apply State.write_keeps)

theorem State.keepBlock_keeps {kl kf : Bool} {kb : State} (s : State) (head : Nat) (addr : Nat) (slot : Nat) (b : Bytes × Bytes)
    (hk : Keeps kl kf kb s) : Keeps kl kf kb (State.keepBlock s head addr slot b) := by
  unfold State.keepBlock
  repeat' (first
    | intro _
    | with_reducible assumption
    | with_reducible apply Keeps.ite
    | split
    | dsimp only [id]
    | simp only [Keeps.upd])

theorem State.retireGranule_keeps {kl kf : Bool} {kb : State} (s : State) (g : Nat) (bank : Nat)
    (hk : Keeps kl kf kb s) : Keeps kl kf kb (State.retireGranule s g bank) := by
  unfold State.retireGranule
  repeat' (first
    | intro _
    | with_reducible assumption
    | with_reducible apply State.event_keeps
    | with_reducible apply State.updateHealth_keeps
    | with_reducible apply Keeps.ite
    | split
    | dsimp only [id]
    | simp only [Keeps.upd])

theorem State.retireFreed_keeps {kl kf : Bool} {kb : State} (s : State)
    (hk : Keeps kl kf kb s) : Keeps kl kf kb (State.retireFreed s) := by
  unfold State.retireFreed
  repeat' (first
    | intro _
    | with_reducible assumption
    | with_reducible apply Keeps.foldl
    | with_reducible apply State.retireGranule_keeps)

theorem State.freeBytes_keeps {kl kf : Bool} {kb : State} (s : State) (n : Nat)
    (hk : Keeps kl kf kb s) : Keeps kl kf kb (State.freeBytes s n).2 := by
  unfold State.freeBytes
  repeat' (first
    | intro _
    | with_reducible assumption
    | with_reducible apply Keeps.ite
    | split
    | dsimp only [id]
    | simp only [Keeps.upd])

theorem State.modBlock_keeps {kl kf : Bool} {kb : State} (s : State) (i : Nat) (f : CalBlock → CalBlock)
    (hk : Keeps kl kf kb s) : Keeps kl kf kb (State.modBlock s i f) := by
  unfold State.modBlock
  repeat' (first
    | intro _
    | with_reducible assumption
    | with_reducible apply Keeps.ite
    | split
    | dsimp only [id]
    | simp only [Keeps.upd])

theorem State.calOff_keeps {kl kf : Bool} {kb : State} (s : State)
    (hk : Keeps kl kf kb s) : Keeps kl kf kb (State.calOff s) := by
  unfold State.calOff
  repeat' (first
    | intro _
    | with_reducible assumption
    | with_reducible apply Keeps.foldl
    | with_reducible apply Keeps.ite
    | split
    | dsimp only [id]
    | simp only [Keeps.upd, State.modBlock])

theorem State.startReq_keeps {kl kf : Bool} {kb : State} (s : State) (p : Nat)
    (hk : Keeps kl kf kb s) : Keeps kl kf kb (State.startReq s p) := by
  unfold State.startReq
  repeat' (first
    | intro _
    | with_reducible assumption
    | with_reducible apply Keeps.ite
    | split
    | dsimp only [id]
    | simp only [Keeps.upd])

theorem State.answerTest_keeps {kl kf : Bool} {kb : State} (s : State) (p : Nat) (outcome : Nat)
    (hk : Keeps kl kf kb s) : Keeps kl kf kb (State.answerTest s p outcome) := by
  unfold State.answerTest
  repeat' (first
    | intro _
    | with_reducible assumption
    | with_reducible apply State.respond_keeps)

end Sys2Proof.Machine
end

