-- ==== Sys2Proof/Laws/Keeps/GraphOps.lean ====
section
/-! SUPPORT. What the operations of Machine/GraphOps.lean leave alone. -/
namespace Sys2Proof.Machine
open Sys2Proof
set_option linter.unusedSimpArgs false

theorem State.modBf_keeps {kl kf : Bool} {kb : State} (s : State) (f : Belfry → Belfry)
    (hk : Keeps kl kf kb s) : Keeps kl kf kb (State.modBf s f) := by
  unfold State.modBf
  repeat' (first
    | intro _
    | with_reducible assumption
    | with_reducible apply Keeps.ite
    | split
    | dsimp only [id]
    | simp only [Keeps.upd])

theorem State.modCtx_keeps {kl kf : Bool} {kb : State} (s : State) (i : Nat) (f : Ctx → Ctx)
    (hk : Keeps kl kf kb s) : Keeps kl kf kb (State.modCtx s i f) := by
  unfold State.modCtx
  repeat' (first
    | intro _
    | with_reducible assumption
    | with_reducible apply Keeps.ite
    | split
    | dsimp only [id]
    | simp only [Keeps.upd, State.modBf])

theorem State.modGraph_keeps {kl kf : Bool} {kb : State} (s : State) (g : Nat) (f : Graph → Graph)
    (hk : Keeps kl kf kb s) : Keeps kl kf kb (State.modGraph s g f) := by
  unfold State.modGraph
  repeat' (first
    | intro _
    | with_reducible assumption
    | with_reducible apply Keeps.ite
    | split
    | dsimp only [id]
    | simp only [Keeps.upd, State.modBf])

theorem State.modGroup_keeps {kl kf : Bool} {kb : State} (s : State) (g : Nat) (f : McGroup → McGroup)
    (hk : Keeps kl kf kb s) : Keeps kl kf kb (State.modGroup s g f) := by
  unfold State.modGroup
  repeat' (first
    | intro _
    | with_reducible assumption
    | with_reducible apply Keeps.ite
    | split
    | dsimp only [id]
    | simp only [Keeps.upd, State.modBf])

theorem State.modRecv_keeps {kl kf : Bool} {kb : State} (s : State) (g : Nat) (r : Nat) (f : McRecv → McRecv)
    (hk : Keeps kl kf kb s) : Keeps kl kf kb (State.modRecv s g r f) := by
  unfold State.modRecv
  repeat' (first
    | intro _
    | with_reducible assumption
    | with_reducible apply Keeps.ite
    | split
    | dsimp only [id]
    | simp only [Keeps.upd, State.modBf, State.modGroup])

theorem State.setBeacon_keeps {kl kf : Bool} {kb : State} (s : State) (b : Nat) (v : Nat)
    (hk : Keeps kl kf kb s) : Keeps kl kf kb (State.setBeacon s b v) := by
  unfold State.setBeacon
  repeat' (first
    | intro _
    | with_reducible assumption
    | with_reducible apply Keeps.ite
    | split
    | dsimp only [id]
    | simp only [Keeps.upd, State.modBf])

theorem State.dropWaiting_keeps {kl kf : Bool} {kb : State} (s : State)
    (hk : Keeps kl kf kb s) : Keeps kl kf kb (State.dropWaiting s) := by
  unfold State.dropWaiting
  repeat' (first
    | intro _
    | with_reducible assumption
    | with_reducible apply Keeps.ite
    | split
    | dsimp only [id]
    | simp only [Keeps.upd])

theorem State.fatal_keeps {kl kf : Bool} {kb : State} (s : State) (status : Nat)
    (hk : Keeps kl kf kb s) : Keeps kl kf kb (State.fatal s status) := by
  unfold State.fatal
  repeat' (first
    | intro _
    | with_reducible assumption
    | with_reducible apply Keeps.foldl
    | with_reducible apply State.answer_keeps
    | with_reducible apply State.dropWaiting_keeps
    | with_reducible apply State.event_keeps
    | with_reducible apply Keeps.ite
    | split
    | dsimp only [id]
    | simp only [Keeps.upd, State.modBf])

theorem State.maskLane_keeps {kl kf : Bool} {kb : State} (s : State) (lane : Nat)
    (hk : Keeps kl kf kb s) : Keeps kl kf kb (State.maskLane s lane) := by
  unfold State.maskLane
  repeat' (first
    | intro _
    | with_reducible assumption
    | with_reducible apply State.event_keeps
    | with_reducible apply State.fatal_keeps
    | with_reducible apply State.updateHealth_keeps
    | with_reducible apply Keeps.ite
    | split
    | dsimp only [id]
    | simp only [Keeps.upd, State.modBf])

theorem State.laneDisagree_keeps {kl kf : Bool} {kb : State} (s : State) (lane : Nat)
    (hk : Keeps kl kf kb s) : Keeps kl kf kb (State.laneDisagree s lane) := by
  unfold State.laneDisagree
  repeat' (first
    | intro _
    | with_reducible assumption
    | with_reducible apply State.maskLane_keeps
    | with_reducible apply Keeps.ite
    | split
    | dsimp only [id]
    | simp only [Keeps.upd, State.modBf])

theorem State.voteRead_keeps {kl kf : Bool} {kb : State} (s : State) (b : Nat) (u : Option LaneUpset)
    (hk : Keeps kl kf kb s) : Keeps kl kf kb (State.voteRead s b u).2 := by
  unfold State.voteRead
  repeat' (first
    | intro _
    | with_reducible assumption
    | with_reducible apply State.fatal_keeps
    | with_reducible apply State.laneDisagree_keeps
    | with_reducible apply State.setBeacon_keeps
    | with_reducible apply Keeps.ite
    | split
    | dsimp only [id])

theorem State.refreshReady_keeps {kl kf : Bool} {kb : State} (s : State)
    (hk : Keeps kl kf kb s) : Keeps kl kf kb (State.refreshReady s) := by
  unfold State.refreshReady
  repeat' (first
    | intro _
    | with_reducible assumption
    | with_reducible apply Keeps.ite
    | split
    | dsimp only [id]
    | simp only [Keeps.upd, State.modBf])

theorem State.signalBeacon_keeps {kl kf : Bool} {kb : State} (s : State) (b : Nat) (inc : Nat) (u : Option LaneUpset)
    (hk : Keeps kl kf kb s) : Keeps kl kf kb (State.signalBeacon s b inc u) := by
  unfold State.signalBeacon
  repeat' (first
    | intro _
    | with_reducible assumption
    | with_reducible apply State.event_keeps
    | with_reducible apply State.fatal_keeps
    | with_reducible apply State.refreshReady_keeps
    | with_reducible apply State.setBeacon_keeps
    | with_reducible apply State.voteRead_keeps
    | with_reducible apply Keeps.ite
    | split
    | dsimp only [id]
    | simp only [Keeps.upd, State.modBf, State.modGraph])

theorem State.offerUnits_keeps {kl kf : Bool} {kb : State} (s : State) (g : Nat) (us : List McUnit)
    (hk : Keeps kl kf kb s) : Keeps kl kf kb (State.offerUnits s g us) := by
  unfold State.offerUnits
  repeat' (first
    | intro _
    | with_reducible assumption
    | with_reducible apply Keeps.foldl
    | with_reducible apply Keeps.ite
    | split
    | dsimp only [id]
    | simp only [Keeps.upd, State.modBf, State.modGroup])

theorem State.freeIfDone_keeps {kl kf : Bool} {kb : State} (s : State) (g : Nat)
    (hk : Keeps kl kf kb s) : Keeps kl kf kb (State.freeIfDone s g) := by
  unfold State.freeIfDone
  repeat' (first
    | intro _
    | with_reducible assumption
    | with_reducible apply State.signalBeacon_keeps
    | with_reducible apply Keeps.ite
    | split
    | dsimp only [id]
    | simp only [Keeps.upd, State.modBf, State.modGroup])

theorem State.shed_keeps {kl kf : Bool} {kb : State} (s : State) (g : Nat) (r : Nat) (reason : Nat) (due : Option Nat)
    (hk : Keeps kl kf kb s) : Keeps kl kf kb (State.shed s g r reason due) := by
  unfold State.shed
  repeat' (first
    | intro _
    | with_reducible assumption
    | with_reducible apply State.freeIfDone_keeps
    | with_reducible apply Keeps.ite
    | split
    | dsimp only [id]
    | simp only [Keeps.upd, State.modBf, State.modGroup, State.modRecv])

theorem State.shedNode_keeps {kl kf : Bool} {kb : State} (s : State) (c : Ctx)
    (hk : Keeps kl kf kb s) : Keeps kl kf kb (State.shedNode s c) := by
  unfold State.shedNode
  repeat' (first
    | intro _
    | with_reducible assumption
    | with_reducible apply Keeps.foldl
    | with_reducible apply State.shed_keeps)

theorem State.handBuffer_keeps {kl kf : Bool} {kb : State} (s : State) (g : Nat) (frame : Nat)
    (hk : Keeps kl kf kb s) : Keeps kl kf kb (State.handBuffer s g frame) := by
  unfold State.handBuffer
  repeat' (first
    | intro _
    | with_reducible assumption
    | with_reducible apply State.freeIfDone_keeps
    | with_reducible apply State.offerUnits_keeps
    | with_reducible apply Keeps.ite
    | split
    | dsimp only [id]
    | simp only [Keeps.upd, State.modBf, State.modGroup])

theorem State.sendSignal_keeps {kl kf : Bool} {kb : State} (s : State) (g : Nat) (m : Nat) (imp : Nat) (inc : Nat)
    (hk : Keeps kl kf kb s) : Keeps kl kf kb (State.sendSignal s g m imp inc) := by
  unfold State.sendSignal
  repeat' (first
    | intro _
    | with_reducible assumption
    | with_reducible apply State.noteRare_keeps
    | with_reducible apply State.sendOn_keeps
    | with_reducible apply Keeps.ite
    | split
    | dsimp only [id]
    | simp only [Keeps.upd])

theorem State.issueSignals_keeps {kl kf : Bool} {kb : State} (s : State) (i : Nat) (c : Ctx)
    (hk : Keeps kl kf kb s) : Keeps kl kf kb (State.issueSignals s i c) := by
  unfold State.issueSignals
  repeat' (first
    | intro _
    | with_reducible assumption
    | with_reducible apply Keeps.foldl
    | with_reducible apply State.handBuffer_keeps
    | with_reducible apply State.sendSignal_keeps
    | with_reducible apply State.signalBeacon_keeps
    | with_reducible apply Keeps.ite
    | split
    | dsimp only [id]
    | simp only [Keeps.upd, State.modBf, State.modCtx])

theorem State.restoreBeacons_keeps {kl kf : Bool} {kb : State} (s : State) (g : Nat) (copy : Nat)
    (hk : Keeps kl kf kb s) : Keeps kl kf kb (State.restoreBeacons s g copy) := by
  unfold State.restoreBeacons
  repeat' (first
    | intro _
    | with_reducible assumption
    | with_reducible apply Keeps.foldl
    | with_reducible apply State.setBeacon_keeps
    | with_reducible apply Keeps.ite
    | split)

theorem State.freeGraphHold_keeps {kl kf : Bool} {kb : State} (s : State) (g : Nat)
    (hk : Keeps kl kf kb s) : Keeps kl kf kb (State.freeGraphHold s g) := by
  unfold State.freeGraphHold
  repeat' (first
    | intro _
    | with_reducible assumption
    | with_reducible apply Keeps.foldl
    | with_reducible apply State.retireFreed_keeps
    | with_reducible apply State.updateHealth_keeps
    | with_reducible apply Keeps.ite
    | split
    | dsimp only [id]
    | simp only [Keeps.upd, State.modBf, State.modGraph])

theorem State.removeGraph_keeps {kl kf : Bool} {kb : State} (s : State) (g : Nat)
    (hk : Keeps kl kf kb s) : Keeps kl kf kb (State.removeGraph s g) := by
  unfold State.removeGraph
  repeat' (first
    | intro _
    | with_reducible assumption
    | with_reducible apply State.freeGraphHold_keeps
    | with_reducible apply Keeps.ite
    | split
    | dsimp only [id]
    | simp only [Keeps.upd, State.modBf])

theorem State.evictGraph_keeps {kl kf : Bool} {kb : State} (s : State) (g : Nat) (pair : Nat) (hostFail : Bool)
    (hk : Keeps kl kf kb s) : Keeps kl kf kb (State.evictGraph s g pair hostFail) := by
  unfold State.evictGraph
  repeat' (first
    | intro _
    | with_reducible assumption
    | with_reducible apply State.freeGraphHold_keeps
    | with_reducible apply State.respond_keeps
    | with_reducible apply State.write_keeps
    | with_reducible apply Keeps.ite
    | split
    | dsimp only [id]
    | simp only [Keeps.upd, State.modBf, State.modGraph])

theorem State.endInstance_keeps {kl kf : Bool} {kb : State} (s : State) (g : Nat) (copy : Nat)
    (hk : Keeps kl kf kb s) : Keeps kl kf kb (State.endInstance s g copy) := by
  unfold State.endInstance
  repeat' (first
    | intro _
    | with_reducible assumption
    | with_reducible apply State.restoreBeacons_keeps
    | with_reducible apply Keeps.ite
    | split
    | dsimp only [id]
    | simp only [Keeps.upd, State.modBf, State.modGraph])

theorem State.closeUnrun_keeps {kl kf : Bool} {kb : State} (s : State) (i : Nat) (c : Ctx)
    (hk : Keeps kl kf kb s) : Keeps kl kf kb (State.closeUnrun s i c) := by
  unfold State.closeUnrun
  repeat' (first
    | intro _
    | with_reducible assumption
    | with_reducible apply Keeps.foldl
    | with_reducible apply State.record_keeps
    | with_reducible apply Keeps.ite
    | split
    | dsimp only [id]
    | simp only [Keeps.upd, State.modBf, State.modCtx])

theorem State.endNode_keeps {kl kf : Bool} {kb : State} (s0 : State) (i : Nat) (st : NodeState) (status : Nat) (lastTile : Nat)
    (hk : Keeps kl kf kb s0) : Keeps kl kf kb (State.endNode s0 i st status lastTile) := by
  unfold State.endNode
  repeat' (first
    | intro _
    | with_reducible assumption
    | with_reducible apply State.closeUnrun_keeps
    | with_reducible apply State.endInstance_keeps
    | with_reducible apply State.issueSignals_keeps
    | with_reducible apply State.record_keeps
    | with_reducible apply State.shedNode_keeps
    | with_reducible apply Keeps.ite
    | split
    | dsimp only [id]
    | simp only [Keeps.upd, State.modBf, State.modCtx])

theorem State.cascade_keeps {kl kf : Bool} {kb : State} (s : State) (g : Nat) (copy : Nat) (y0 : Nat) (hk : Keeps kl kf kb s) :
    Keeps kl kf kb (State.cascade s g copy y0) := by
  induction y0 generalizing s with
  | zero => exact hk
  | succ n ih =>
    unfold State.cascade
    split
    · exact ih _ (State.endNode_keeps _ _ _ _ _ hk)
    · exact hk

theorem State.cascadeAll_keeps {kl kf : Bool} {kb : State} (s : State) (g : Nat) (copy : Nat)
    (hk : Keeps kl kf kb s) : Keeps kl kf kb (State.cascadeAll s g copy) := by
  unfold State.cascadeAll
  repeat' (first
    | intro _
    | with_reducible assumption
    | with_reducible apply State.cascade_keeps)

theorem State.faultNode_keeps {kl kf : Bool} {kb : State} (s : State) (i : Nat) (status : Nat) (lastTile : Nat)
    (hk : Keeps kl kf kb s) : Keeps kl kf kb (State.faultNode s i status lastTile) := by
  unfold State.faultNode
  repeat' (first
    | intro _
    | with_reducible assumption
    | with_reducible apply State.cascadeAll_keeps
    | with_reducible apply State.endNode_keeps
    | with_reducible apply Keeps.ite
    | split)

theorem State.cancelNode_keeps {kl kf : Bool} {kb : State} (s : State) (i : Nat)
    (hk : Keeps kl kf kb s) : Keeps kl kf kb (State.cancelNode s i) := by
  unfold State.cancelNode
  repeat' (first
    | intro _
    | with_reducible assumption
    | with_reducible apply State.cascadeAll_keeps
    | with_reducible apply State.endNode_keeps
    | with_reducible apply State.shedNode_keeps
    | with_reducible apply Keeps.ite
    | split
    | dsimp only [id]
    | simp only [Keeps.upd, State.modBf, State.modCtx])

theorem State.cancelInstance_keeps {kl kf : Bool} {kb : State} (s : State) (g : Nat) (copy : Nat)
    (hk : Keeps kl kf kb s) : Keeps kl kf kb (State.cancelInstance s g copy) := by
  unfold State.cancelInstance
  repeat' (first
    | intro _
    | with_reducible assumption
    | with_reducible apply Keeps.foldl
    | with_reducible apply State.cancelNode_keeps)

theorem State.cancelGraph_keeps {kl kf : Bool} {kb : State} (s : State) (g : Nat)
    (hk : Keeps kl kf kb s) : Keeps kl kf kb (State.cancelGraph s g) := by
  unfold State.cancelGraph
  repeat' (first
    | intro _
    | with_reducible assumption
    | with_reducible apply Keeps.foldl
    | with_reducible apply State.cancelInstance_keeps
    | with_reducible apply Keeps.ite
    | split)

theorem State.stopGraph_keeps {kl kf : Bool} {kb : State} (s : State) (g : Nat) (status : Nat)
    (hk : Keeps kl kf kb s) : Keeps kl kf kb (State.stopGraph s g status) := by
  unfold State.stopGraph
  repeat' (first
    | intro _
    | with_reducible assumption
    | with_reducible apply State.cancelGraph_keeps
    | with_reducible apply State.event_keeps
    | with_reducible apply Keeps.ite
    | split
    | dsimp only [id]
    | simp only [Keeps.upd, State.modBf, State.modGraph])

theorem State.haltGraph_keeps {kl kf : Bool} {kb : State} (s : State) (g : Nat) (status : Nat)
    (hk : Keeps kl kf kb s) : Keeps kl kf kb (State.haltGraph s g status) := by
  unfold State.haltGraph
  repeat' (first
    | intro _
    | with_reducible assumption
    | with_reducible apply State.event_keeps
    | with_reducible apply Keeps.ite
    | split
    | dsimp only [id]
    | simp only [Keeps.upd, State.modBf, State.modGraph])

theorem State.sourceEvent_keeps {kl kf : Bool} {kb : State} (s : State) (cam : Nat) (frame : Nat) (since : Nat) (last : Bool) (hit : Ctx → Option Nat)
    (hk : Keeps kl kf kb s) : Keeps kl kf kb (State.sourceEvent s cam frame since last hit) := by
  unfold State.sourceEvent
  repeat' (first
    | intro _
    | with_reducible assumption
    | with_reducible apply Keeps.foldl
    | with_reducible apply State.cascadeAll_keeps
    | with_reducible apply State.endNode_keeps
    | with_reducible apply State.issueSignals_keeps
    | with_reducible apply Keeps.ite
    | split
    | dsimp only [id]
    | simp only [Keeps.upd, State.modBf, State.modCtx])

theorem State.poisonSources_keeps {kl kf : Bool} {kb : State} (s : State) (cam : Nat) (frame : Nat) (since : Nat) (hit : Ctx → Option Nat)
    (hk : Keeps kl kf kb s) : Keeps kl kf kb (State.poisonSources s cam frame since hit) := by
  unfold State.poisonSources
  repeat' (first
    | intro _
    | with_reducible assumption
    | with_reducible apply Keeps.foldl
    | with_reducible apply Keeps.ite
    | split
    | dsimp only [id]
    | simp only [Keeps.upd, State.modBf, State.modCtx])

end Sys2Proof.Machine
end

