-- ==== Sys2Proof/Laws/Keeps/SpireOps.lean ====
section
/-! SUPPORT. What the operations of Machine/SpireOps.lean leave alone. -/
namespace Sys2Proof.Machine
open Sys2Proof
set_option linter.unusedSimpArgs false

theorem State.modSpc_keeps {kl kf : Bool} {kb : State} (s : State) (core : Nat) (f : Spc → Spc)
    (hk : Keeps kl kf kb s) : Keeps kl kf kb (State.modSpc s core f) := by
  unfold State.modSpc
  repeat' (first
    | intro _
    | with_reducible assumption
    | with_reducible apply Keeps.ite
    | split
    | dsimp only [id]
    | simp only [Keeps.upd])

theorem State.modLane_keeps {kl kf : Bool} {kb : State} (s : State) (core : Nat) (q : Nat) (f : Lane → Lane)
    (hk : Keeps kl kf kb s) : Keeps kl kf kb (State.modLane s core q f) := by
  unfold State.modLane
  repeat' (first
    | intro _
    | with_reducible assumption
    | with_reducible apply Keeps.ite
    | split
    | dsimp only [id]
    | simp only [Keeps.upd, State.modSpc])

theorem State.modMacro_keeps {kl kf : Bool} {kb : State} (s : State) (i : Nat) (k : Nat) (f : MacroRun → MacroRun)
    (hk : Keeps kl kf kb s) : Keeps kl kf kb (State.modMacro s i k f) := by
  unfold State.modMacro
  repeat' (first
    | intro _
    | with_reducible assumption
    | with_reducible apply Keeps.ite
    | split
    | dsimp only [id]
    | simp only [Keeps.upd])

theorem State.startSpire_keeps {kl kf : Bool} {kb : State} (s : State) (i : Nat)
    (hk : Keeps kl kf kb s) : Keeps kl kf kb (State.startSpire s i) := by
  unfold State.startSpire
  repeat' (first
    | intro _
    | with_reducible assumption
    | with_reducible apply Keeps.ite
    | split
    | dsimp only [id]
    | simp only [Keeps.upd])

theorem State.spireClose_keeps {kl kf : Bool} {kb : State} (s : State) (i : Nat) (c : Ctx) (st : NodeState) (status : Nat)
    (hk : Keeps kl kf kb s) : Keeps kl kf kb (State.spireClose s i c st status) := by
  unfold State.spireClose
  repeat' (first
    | intro _
    | with_reducible assumption
    | with_reducible apply Keeps.foldl
    | with_reducible apply State.raise_keeps
    | with_reducible apply State.record_keeps
    | with_reducible apply Keeps.ite
    | split
    | dsimp only [id]
    | simp only [Keeps.upd, State.modBf, State.modCtx])

theorem State.spireDrop_keeps {kl kf : Bool} {kb : State} (s : State) (i : Nat) (c : Ctx) (status : Nat)
    (hk : Keeps kl kf kb s) : Keeps kl kf kb (State.spireDrop s i c status) := by
  unfold State.spireDrop
  repeat' (first
    | intro _
    | with_reducible assumption
    | with_reducible apply Keeps.foldl
    | with_reducible apply Keeps.ite
    | split
    | dsimp only [id]
    | simp only [Keeps.upd, State.modSpc])

end Sys2Proof.Machine
end

