-- ==== Sys2Proof/Laws/Keeps/VisionOps.lean ====
section
/-! SUPPORT. What the operations of Machine/VisionOps.lean leave alone. -/
namespace Sys2Proof.Machine
open Sys2Proof
set_option linter.unusedSimpArgs false

theorem State.modVis_keeps {kl kf : Bool} {kb : State} (s : State) (u : Nat) (f : VisUnit → VisUnit)
    (hk : Keeps kl kf kb s) : Keeps kl kf kb (State.modVis s u f) := by
  unfold State.modVis
  repeat' (first
    | intro _
    | with_reducible assumption
    | with_reducible apply Keeps.ite
    | split
    | dsimp only [id]
    | simp only [Keeps.upd])

theorem State.startVision_keeps {kl kf : Bool} {kb : State} (s : State) (i : Nat) (c : Ctx)
    (hk : Keeps kl kf kb s) : Keeps kl kf kb (State.startVision s i c) := by
  unfold State.startVision
  repeat' (first
    | intro _
    | with_reducible assumption
    | with_reducible apply Keeps.ite
    | split
    | dsimp only [id]
    | simp only [Keeps.upd, State.modVis])

theorem State.visionClose_keeps {kl kf : Bool} {kb : State} (s : State) (i : Nat) (c : Ctx)
    (hk : Keeps kl kf kb s) : Keeps kl kf kb (State.visionClose s i c) := by
  unfold State.visionClose
  repeat' (first
    | intro _
    | with_reducible assumption
    | with_reducible apply Keeps.ite
    | split
    | dsimp only [id]
    | simp only [Keeps.upd, State.modBf, State.modCtx])

theorem State.visionDrop_keeps {kl kf : Bool} {kb : State} (s : State) (i : Nat) (c : Ctx) (status : Nat)
    (hk : Keeps kl kf kb s) : Keeps kl kf kb (State.visionDrop s i c status) := by
  unfold State.visionDrop
  repeat' (first
    | intro _
    | with_reducible assumption
    | with_reducible apply State.freeBytes_keeps
    | with_reducible apply State.record_keeps
    | with_reducible apply Keeps.ite
    | split
    | dsimp only [id]
    | simp only [Keeps.upd, State.modVis])

theorem State.loseVisionNode_keeps {kl kf : Bool} {kb : State} (s : State) (i : Nat) (status : Nat)
    (hk : Keeps kl kf kb s) : Keeps kl kf kb (State.loseVisionNode s i status) := by
  unfold State.loseVisionNode
  repeat' (first
    | intro _
    | with_reducible assumption
    | with_reducible apply State.endNode_keeps
    | with_reducible apply State.visionClose_keeps
    | with_reducible apply State.visionDrop_keeps
    | with_reducible apply Keeps.ite
    | split
    | dsimp only [id]
    | simp only [Keeps.upd])

theorem State.loseVision_keeps {kl kf : Bool} {kb : State} (s : State) (u : Nat) (status : Nat)
    (hk : Keeps kl kf kb s) : Keeps kl kf kb (State.loseVision s u status) := by
  unfold State.loseVision
  repeat' (first
    | intro _
    | with_reducible assumption
    | with_reducible apply Keeps.foldl
    | with_reducible apply State.cascadeAll_keeps
    | with_reducible apply State.haltGraph_keeps
    | with_reducible apply State.loseVisionNode_keeps
    | with_reducible apply State.updateHealth_keeps
    | with_reducible apply Keeps.ite
    | split
    | dsimp only [id]
    | simp only [Keeps.upd, State.modVis])

theorem State.fetchBand_keeps {kl kf : Bool} {kb : State} (s : State) (u : Nat) (k : Nat)
    (hk : Keeps kl kf kb s) : Keeps kl kf kb (State.fetchBand s u k) := by
  unfold State.fetchBand
  repeat' (first
    | intro _
    | with_reducible assumption
    | with_reducible apply Keeps.foldl
    | with_reducible apply State.cacheTouch_keeps
    | with_reducible apply Keeps.ite
    | split
    | dsimp only [id]
    | simp only [Keeps.upd, State.modVis])

end Sys2Proof.Machine
end

