-- ==== Sys2Proof/Laws/Keeps/PeerOps.lean ====
section
/-! SUPPORT. What the operations of Machine/PeerOps.lean leave alone. -/
namespace Sys2Proof.Machine
open Sys2Proof
set_option linter.unusedSimpArgs false

theorem State.modPeer_keeps {kl kf : Bool} {kb : State} (s : State) (k : Nat) (f : Peer → Peer)
    (hk : Keeps kl kf kb s) : Keeps kl kf kb (State.modPeer s k f) := by
  unfold State.modPeer
  repeat' (first
    | intro _
    | with_reducible assumption
    | with_reducible apply Keeps.ite
    | split
    | dsimp only [id]
    | simp only [Keeps.upd])

theorem State.startPeer_keeps {kl kf : Bool} {kb : State} (s : State) (i : Nat) (c : Ctx)
    (hk : Keeps kl kf kb s) : Keeps kl kf kb (State.startPeer s i c) := by
  unfold State.startPeer
  repeat' (first
    | intro _
    | with_reducible assumption
    | with_reducible apply Keeps.ite
    | split
    | dsimp only [id]
    | simp only [Keeps.upd, State.modPeer])

theorem State.peerDrop_keeps {kl kf : Bool} {kb : State} (s : State) (i : Nat) (c : Ctx)
    (hk : Keeps kl kf kb s) : Keeps kl kf kb (State.peerDrop s i c) := by
  unfold State.peerDrop
  repeat' (first
    | intro _
    | with_reducible assumption
    | with_reducible apply Keeps.ite
    | split
    | dsimp only [id]
    | simp only [Keeps.upd, State.modPeer])

end Sys2Proof.Machine
end

