-- ==== Sys2Proof/Laws/Keeps/FieldOps.lean ====
section
/-! SUPPORT. What the operations of Machine/FieldOps.lean leave alone. -/
namespace Sys2Proof.Machine
open Sys2Proof
set_option linter.unusedSimpArgs false

theorem State.modField_keeps {kl kf : Bool} {kb : State} (s : State) (f : Field → Field)
    (hk : Keeps kl kf kb s) : Keeps kl kf kb (State.modField s f) := by
  unfold State.modField
  repeat' (first
    | intro _
    | with_reducible assumption
    | with_reducible apply Keeps.ite
    | split
    | dsimp only [id]
    | simp only [Keeps.upd])

theorem State.startField_keeps {kl kf : Bool} {kb : State} (s : State) (i : Nat)
    (hk : Keeps kl kf kb s) : Keeps kl kf kb (State.startField s i) := by
  unfold State.startField
  repeat' (first
    | intro _
    | with_reducible assumption
    | with_reducible apply State.faultNode_keeps
    | with_reducible apply Keeps.ite
    | split
    | dsimp only [id]
    | simp only [Keeps.upd, State.modField])

theorem State.fieldClose_keeps {kl kf : Bool} {kb : State} (s : State) (i : Nat)
    (hk : Keeps kl kf kb s) : Keeps kl kf kb (State.fieldClose s i) := by
  unfold State.fieldClose
  repeat' (first
    | intro _
    | with_reducible assumption
    | with_reducible apply Keeps.ite
    | split
    | dsimp only [id]
    | simp only [Keeps.upd, State.modBf, State.modCtx])

theorem State.fieldDrop_keeps {kl kf : Bool} {kb : State} (s : State) (i : Nat)
    (hk : Keeps kl kf kb s) : Keeps kl kf kb (State.fieldDrop s i) := by
  unfold State.fieldDrop
  repeat' (first
    | intro _
    | with_reducible assumption
    | with_reducible apply Keeps.ite
    | split
    | dsimp only [id]
    | simp only [Keeps.upd, State.modField])

end Sys2Proof.Machine
end

