-- ==== Sys2Proof/Laws/Keeps/NodeOps.lean ====
section
/-! SUPPORT. What the operations of Machine/NodeOps.lean leave alone. -/
namespace Sys2Proof.Machine
open Sys2Proof
set_option linter.unusedSimpArgs false

theorem State.readElem_keeps {kl kf : Bool} {kb : State} (s : State) (c : Ctx) (k : Nat)
    (hk : Keeps kl kf kb s) : Keeps kl kf kb (State.readElem s c k).2.2 := by
  unfold State.readElem
  repeat' (first
    | intro _
    | with_reducible assumption
    | with_reducible apply State.read_keeps)

theorem State.closeWork_keeps {kl kf : Bool} {kb : State} (s : State) (i : Nat) (c : Ctx) (st : NodeState) (status : Nat)
    (hk : Keeps kl kf kb s) : Keeps kl kf kb (State.closeWork s i c st status) := by
  unfold State.closeWork
  repeat' (first
    | intro _
    | with_reducible assumption
    | with_reducible apply State.fieldClose_keeps
    | with_reducible apply State.spireClose_keeps
    | with_reducible apply State.visionClose_keeps
    | with_reducible apply Keeps.ite
    | split)

theorem State.dropWork_keeps {kl kf : Bool} {kb : State} (s : State) (i : Nat) (c : Ctx) (status : Nat)
    (hk : Keeps kl kf kb s) : Keeps kl kf kb (State.dropWork s i c status) := by
  unfold State.dropWork
  repeat' (first
    | intro _
    | with_reducible assumption
    | with_reducible apply State.fieldDrop_keeps
    | with_reducible apply State.peerDrop_keeps
    | with_reducible apply State.spireDrop_keeps
    | with_reducible apply State.visionDrop_keeps
    | with_reducible apply Keeps.ite
    | split
    | dsimp only [id]
    | simp only [Keeps.upd])

theorem State.unitFault_keeps {kl kf : Bool} {kb : State} (s : State) (i : Nat) (status : Nat)
    (hk : Keeps kl kf kb s) : Keeps kl kf kb (State.unitFault s i status) := by
  unfold State.unitFault
  repeat' (first
    | intro _
    | with_reducible assumption
    | with_reducible apply State.closeWork_keeps
    | with_reducible apply State.dropWork_keeps
    | with_reducible apply State.faultNode_keeps
    | with_reducible apply Keeps.ite
    | split)

end Sys2Proof.Machine
end

