-- ==== Sys2Proof/Laws/Keeps/CamOps.lean ====
section
/-! SUPPORT. What the operations of Machine/CamOps.lean leave alone. -/
namespace Sys2Proof.Machine
open Sys2Proof
set_option linter.unusedSimpArgs false

theorem State.modCam_keeps {kl kf : Bool} {kb : State} (s : State) (c : Nat) (f : Cam → Cam)
    (hk : Keeps kl kf kb s) : Keeps kl kf kb (State.modCam s c f) := by
  unfold State.modCam
  repeat' (first
    | intro _
    | with_reducible assumption
    | with_reducible apply Keeps.ite
    | split
    | dsimp only [id]
    | simp only [Keeps.upd])

theorem State.modRfe_keeps {kl kf : Bool} {kb : State} (s : State) (r : Nat) (f : Rfe → Rfe)
    (hk : Keeps kl kf kb s) : Keeps kl kf kb (State.modRfe s r f) := by
  unfold State.modRfe
  repeat' (first
    | intro _
    | with_reducible assumption
    | with_reducible apply Keeps.ite
    | split
    | dsimp only [id]
    | simp only [Keeps.upd])

theorem State.modPort_keeps {kl kf : Bool} {kb : State} (s : State) (p : Nat) (f : Port → Port)
    (hk : Keeps kl kf kb s) : Keeps kl kf kb (State.modPort s p f) := by
  unfold State.modPort
  repeat' (first
    | intro _
    | with_reducible assumption
    | with_reducible apply Keeps.ite
    | split
    | dsimp only [id]
    | simp only [Keeps.upd])

theorem State.modSne_keeps {kl kf : Bool} {kb : State} (s : State) (n : Nat) (f : Sne → Sne)
    (hk : Keeps kl kf kb s) : Keeps kl kf kb (State.modSne s n f) := by
  unfold State.modSne
  repeat' (first
    | intro _
    | with_reducible assumption
    | with_reducible apply Keeps.ite
    | split
    | dsimp only [id]
    | simp only [Keeps.upd])

theorem State.reportUnits_keeps {kl kf : Bool} {kb : State} (s : State) (g : Nat)
    (hk : Keeps kl kf kb s) : Keeps kl kf kb (State.reportUnits s g) := by
  unfold State.reportUnits
  repeat' (first
    | intro _
    | with_reducible assumption
    | with_reducible apply Keeps.foldl
    | with_reducible apply State.sourceEvent_keeps
    | with_reducible apply Keeps.ite
    | split
    | dsimp only [id]
    | simp only [Keeps.upd, State.modBf, State.modGroup])

theorem State.switchCam_keeps {kl kf : Bool} {kb : State} (s : State) (c : Nat) (reason : Nat)
    (hk : Keeps kl kf kb s) : Keeps kl kf kb (State.switchCam s c reason) := by
  unfold State.switchCam
  repeat' (first
    | intro _
    | with_reducible assumption
    | with_reducible apply State.event_keeps
    | with_reducible apply Keeps.ite
    | split
    | dsimp only [id]
    | simp only [Keeps.upd, State.modCam, State.modRfe])

theorem State.sneRecord_keeps {kl kf : Bool} {kb : State} (s : State) (c : Nat) (f : Frame) (n : Net)
    (hk : Keeps kl kf kb s) : Keeps kl kf kb (State.sneRecord s c f n) := by
  unfold State.sneRecord
  repeat' (first
    | intro _
    | with_reducible assumption
    | with_reducible apply State.raise_keeps
    | with_reducible apply State.record_keeps
    | with_reducible apply Keeps.ite
    | split
    | dsimp only [id]
    | simp only [Keeps.upd, State.modCam])

theorem State.sneFrameEnd_keeps {kl kf : Bool} {kb : State} (s : State) (c : Nat)
    (hk : Keeps kl kf kb s) : Keeps kl kf kb (State.sneFrameEnd s c) := by
  unfold State.sneFrameEnd
  repeat' (first
    | intro _
    | with_reducible assumption
    | with_reducible apply State.sneRecord_keeps
    | with_reducible apply Keeps.ite
    | split
    | dsimp only [id]
    | simp only [Keeps.upd, State.modCam])

theorem State.returnGroup_keeps {kl kf : Bool} {kb : State} (s : State) (c : Nat)
    (hk : Keeps kl kf kb s) : Keeps kl kf kb (State.returnGroup s c) := by
  unfold State.returnGroup
  repeat' (first
    | intro _
    | with_reducible assumption
    | with_reducible apply State.sneFrameEnd_keeps
    | with_reducible apply State.sourceEvent_keeps
    | with_reducible apply Keeps.ite
    | split
    | dsimp only [id]
    | simp only [Keeps.upd, State.modCam])

theorem State.returnGroups_keeps {kl kf : Bool} {kb : State} (s : State) (c : Nat) (y0 : Nat) (hk : Keeps kl kf kb s) :
    Keeps kl kf kb (State.returnGroups s c y0) := by
  induction y0 generalizing s with
  | zero => exact hk
  | succ n ih =>
    unfold State.returnGroups
    dsimp only
    split
    · split
      · exact ih _ (State.returnGroup_keeps _ _ hk)
      · exact hk
    · exact hk

theorem State.fallBack_keeps {kl kf : Bool} {kb : State} (s : State) (c : Nat) (reason : Nat)
    (hk : Keeps kl kf kb s) : Keeps kl kf kb (State.fallBack s c reason) := by
  unfold State.fallBack
  repeat' (first
    | intro _
    | with_reducible assumption
    | with_reducible apply State.returnGroups_keeps
    | with_reducible apply State.switchCam_keeps)

theorem State.stopCam_keeps {kl kf : Bool} {kb : State} (s : State) (c : Nat) (status : Nat)
    (hk : Keeps kl kf kb s) : Keeps kl kf kb (State.stopCam s c status) := by
  unfold State.stopCam
  repeat' (first
    | intro _
    | with_reducible assumption
    | with_reducible apply Keeps.ite
    | split
    | dsimp only [id]
    | simp only [Keeps.upd, State.modCam])

theorem State.moveRfe_keeps {kl kf : Bool} {kb : State} (s : State) (old : Nat) (new : Nat)
    (hk : Keeps kl kf kb s) : Keeps kl kf kb (State.moveRfe s old new) := by
  unfold State.moveRfe
  repeat' (first
    | intro _
    | with_reducible assumption
    | with_reducible apply Keeps.ite
    | split
    | dsimp only [id]
    | simp only [Keeps.upd, State.modBf])

theorem State.moveSne_keeps {kl kf : Bool} {kb : State} (s : State) (c : Nat) (sn : Nat)
    (hk : Keeps kl kf kb s) : Keeps kl kf kb (State.moveSne s c sn) := by
  unfold State.moveSne
  repeat' (first
    | intro _
    | with_reducible assumption
    | with_reducible apply Keeps.ite
    | split
    | dsimp only [id]
    | simp only [Keeps.upd, State.modBf])

theorem State.rehome_keeps {kl kf : Bool} {kb : State} (s : State) (r : Nat) (c : Nat)
    (hk : Keeps kl kf kb s) : Keeps kl kf kb (State.rehome s r c) := by
  unfold State.rehome
  repeat' (first
    | intro _
    | with_reducible assumption
    | with_reducible apply State.stopCam_keeps
    | with_reducible apply Keeps.ite
    | split
    | dsimp only [id]
    | simp only [Keeps.upd, State.modCam])

theorem State.failRfe_keeps {kl kf : Bool} {kb : State} (s : State) (r : Nat)
    (hk : Keeps kl kf kb s) : Keeps kl kf kb (State.failRfe s r) := by
  unfold State.failRfe
  repeat' (first
    | intro _
    | with_reducible assumption
    | with_reducible apply Keeps.foldl
    | with_reducible apply State.event_keeps
    | with_reducible apply State.rehome_keeps
    | with_reducible apply State.updateHealth_keeps
    | with_reducible apply Keeps.ite
    | split
    | dsimp only [id]
    | simp only [Keeps.upd, State.modRfe])

theorem State.dropNet_keeps {kl kf : Bool} {kb : State} (s : State) (c : Nat)
    (hk : Keeps kl kf kb s) : Keeps kl kf kb (State.dropNet s c) := by
  unfold State.dropNet
  repeat' (first
    | intro _
    | with_reducible assumption
    | with_reducible apply State.respond_keeps
    | with_reducible apply Keeps.ite
    | split
    | dsimp only [id]
    | simp only [Keeps.upd, State.modCam, State.modSne])

theorem State.unbindCam_keeps {kl kf : Bool} {kb : State} (s : State) (c : Nat)
    (hk : Keeps kl kf kb s) : Keeps kl kf kb (State.unbindCam s c) := by
  unfold State.unbindCam
  repeat' (first
    | intro _
    | with_reducible assumption
    | with_reducible apply State.calOff_keeps
    | with_reducible apply State.dropNet_keeps
    | with_reducible apply State.updateHealth_keeps
    | with_reducible apply Keeps.ite
    | split
    | dsimp only [id]
    | simp only [Keeps.upd, State.modCam, State.modPort, State.modRfe])

theorem State.fifoPut_keeps {kl kf : Bool} {kb : State} (s : State) (c : Nat) (n : Nat)
    (hk : Keeps kl kf kb s) : Keeps kl kf kb (State.fifoPut s c n) := by
  unfold State.fifoPut
  repeat' (first
    | intro _
    | with_reducible assumption
    | with_reducible apply Keeps.ite
    | split
    | dsimp only [id]
    | simp only [Keeps.upd])

theorem State.ringPut_keeps {kl kf : Bool} {kb : State} (s : State) (c : Nat) (slot : Nat) (codes : List Nat)
    (hk : Keeps kl kf kb s) : Keeps kl kf kb (State.ringPut s c slot codes) := by
  unfold State.ringPut
  repeat' (first
    | intro _
    | with_reducible assumption
    | with_reducible apply State.record_keeps
    | with_reducible apply Keeps.ite
    | split
    | dsimp only [id]
    | simp only [Keeps.upd])

theorem State.spillNext_keeps {kl kf : Bool} {kb : State} (s : State) (c : Nat)
    (hk : Keeps kl kf kb s) : Keeps kl kf kb (State.spillNext s c) := by
  unfold State.spillNext
  repeat' (first
    | intro _
    | with_reducible assumption
    | with_reducible apply State.ringPut_keeps
    | with_reducible apply Keeps.ite
    | split
    | dsimp only [id]
    | simp only [Keeps.upd, State.modCam])

theorem State.pushLine_keeps {kl kf : Bool} {kb : State} (s : State) (c : Nat) (codes : List Nat) (repaired : Bool) (flag : Bool)
    (hk : Keeps kl kf kb s) : Keeps kl kf kb (State.pushLine s c codes repaired flag) := by
  unfold State.pushLine
  repeat' (first
    | intro _
    | with_reducible assumption
    | with_reducible apply State.fifoPut_keeps
    | with_reducible apply State.ringPut_keeps
    | with_reducible apply Keeps.ite
    | split
    | dsimp only [id]
    | simp only [Keeps.upd, State.modCam])

theorem State.deliverLine_keeps {kl kf : Bool} {kb : State} (s : State) (c : Nat) (codes : Option (List Nat))
    (hk : Keeps kl kf kb s) : Keeps kl kf kb (State.deliverLine s c codes) := by
  unfold State.deliverLine
  repeat' (first
    | intro _
    | with_reducible assumption
    | with_reducible apply State.pushLine_keeps
    | with_reducible apply Keeps.ite
    | split
    | dsimp only [id]
    | simp only [Keeps.upd, State.modCam])

theorem State.fillFrame_keeps {kl kf : Bool} {kb : State} (s : State) (c : Nat) (y0 : Nat) (hk : Keeps kl kf kb s) :
    Keeps kl kf kb (State.fillFrame s c y0) := by
  induction y0 generalizing s with
  | zero => exact hk
  | succ n ih =>
    unfold State.fillFrame
    dsimp only
    split
    · exact ih _ (State.pushLine_keeps _ _ _ _ _ hk)
    · exact hk

theorem State.endFrame_keeps {kl kf : Bool} {kb : State} (s : State) (c : Nat) (short : Bool)
    (hk : Keeps kl kf kb s) : Keeps kl kf kb (State.endFrame s c short) := by
  unfold State.endFrame
  repeat' (first
    | intro _
    | with_reducible assumption
    | with_reducible apply State.fillFrame_keeps
    | with_reducible apply State.sneFrameEnd_keeps
    | with_reducible apply Keeps.ite
    | split
    | dsimp only [id]
    | simp only [Keeps.upd, State.modCam])

end Sys2Proof.Machine
end

