-- ==== Sys2Proof/Laws/Keeps/SneOps.lean ====
section
/-! SUPPORT. What the operations of Machine/SneOps.lean leave alone. -/
namespace Sys2Proof.Machine
open Sys2Proof
set_option linter.unusedSimpArgs false

theorem State.readmitOne_keeps {kl kf : Bool} {kb : State} (s : State) (a : Nat) (acc : State × List NetRef) (x : NetRef)
    (hk : Keeps kl kf kb acc.1) : Keeps kl kf kb (State.readmitOne s a acc x).1 := by
  unfold State.readmitOne
  repeat' (first
    | with_reducible assumption
    | simp only [Keeps.upd, State.modCam]
    | with_reducible apply State.event_keeps
    | with_reducible apply State.fallBack_keeps
    | split
    | dsimp only)

theorem State.readmit_keeps {kl kf : Bool} {kb : State} (s : State) (sn : Nat)
    (hk : Keeps kl kf kb s) : Keeps kl kf kb (State.readmit s sn) := by
  unfold State.readmit
  repeat' (first
    | intro _
    | with_reducible assumption
    | with_reducible apply Keeps.foldl
    | with_reducible apply Keeps.foldl2
    | with_reducible apply Keeps.foldl1
    | with_reducible apply Keeps.foldl3
    | with_reducible apply State.readmitOne_keeps)

theorem State.readmitAfterDrop_keeps {kl kf : Bool} {kb : State} (s : State) (sn : Nat)
    (hk : Keeps kl kf kb s) : Keeps kl kf kb (State.readmitAfterDrop s sn) := by
  unfold State.readmitAfterDrop
  repeat' (first
    | intro _
    | with_reducible assumption
    | with_reducible apply Keeps.foldl
    | with_reducible apply Keeps.foldl2
    | with_reducible apply Keeps.foldl1
    | with_reducible apply Keeps.foldl3
    | with_reducible apply State.readmitOne_keeps
    | dsimp only)

theorem State.endNet_keeps {kl kf : Bool} {kb : State} (s : State) (c : Nat)
    (hk : Keeps kl kf kb s) : Keeps kl kf kb (State.endNet s c) := by
  unfold State.endNet
  repeat' (first
    | intro _
    | with_reducible assumption
    | with_reducible apply State.dropNet_keeps
    | with_reducible apply State.readmitAfterDrop_keeps
    | with_reducible apply Keeps.ite
    | split
    | dsimp only [id]
    | simp only [Keeps.upd])

theorem State.endCam_keeps {kl kf : Bool} {kb : State} (s : State) (c : Nat)
    (hk : Keeps kl kf kb s) : Keeps kl kf kb (State.endCam s c) := by
  unfold State.endCam
  repeat' (first
    | intro _
    | with_reducible assumption
    | with_reducible apply State.readmitAfterDrop_keeps
    | with_reducible apply State.unbindCam_keeps
    | with_reducible apply Keeps.ite
    | split
    | dsimp only [id]
    | simp only [Keeps.upd])

theorem State.amendSwitch_keeps {kl kf : Bool} {kb : State} (s : State) (c : Nat)
    (hk : Keeps kl kf kb s) : Keeps kl kf kb (State.amendSwitch s c) := by
  unfold State.amendSwitch
  repeat' (first
    | intro _
    | with_reducible assumption
    | with_reducible apply Keeps.foldl
    | with_reducible apply State.hostPut_keeps
    | with_reducible apply Keeps.ite
    | split
    | dsimp only [id]
    | simp only [Keeps.upd])

theorem State.faultWins_keeps {kl kf : Bool} {kb : State} (s : State) (c : Nat)
    (hk : Keeps kl kf kb s) : Keeps kl kf kb (State.faultWins s c) := by
  unfold State.faultWins
  repeat' (first
    | intro _
    | with_reducible assumption
    | with_reducible apply State.amendSwitch_keeps
    | with_reducible apply Keeps.ite
    | split
    | dsimp only [id]
    | simp only [Keeps.upd, State.modCam])

theorem State.switchAll_keeps {kl kf : Bool} {kb : State} (s : State) (cs : List Nat)
    (hk : Keeps kl kf kb s) : Keeps kl kf kb (State.switchAll s cs) := by
  unfold State.switchAll
  repeat' (first
    | intro _
    | with_reducible assumption
    | with_reducible apply Keeps.foldl
    | with_reducible apply State.fallBack_keeps
    | with_reducible apply State.faultWins_keeps)

theorem State.failSne_keeps {kl kf : Bool} {kb : State} (s : State) (sn : Nat)
    (hk : Keeps kl kf kb s) : Keeps kl kf kb (State.failSne s sn) := by
  unfold State.failSne
  repeat' (first
    | intro _
    | with_reducible assumption
    | with_reducible apply State.event_keeps
    | with_reducible apply State.switchAll_keeps
    | with_reducible apply State.updateHealth_keeps
    | with_reducible apply Keeps.ite
    | split
    | dsimp only [id]
    | simp only [Keeps.upd, State.modSne])

theorem State.loseArray_keeps {kl kf : Bool} {kb : State} (s : State) (sn : Nat) (a : Nat)
    (hk : Keeps kl kf kb s) : Keeps kl kf kb (State.loseArray s sn a) := by
  unfold State.loseArray
  repeat' (first
    | intro _
    | with_reducible assumption
    | with_reducible apply State.event_keeps
    | with_reducible apply State.failSne_keeps
    | with_reducible apply State.readmit_keeps
    | with_reducible apply State.updateHealth_keeps
    | with_reducible apply Keeps.ite
    | split
    | dsimp only [id]
    | simp only [Keeps.upd, State.modSne])

end Sys2Proof.Machine
end

