-- ==== Sys2Proof/Laws/Keeps/UnitOps.lean ====
section
/-! SUPPORT. What the operations of Machine/UnitOps.lean leave alone. -/
namespace Sys2Proof.Machine
open Sys2Proof
set_option linter.unusedSimpArgs false

theorem State.modDma_keeps {kl kf : Bool} {kb : State} (s : State) (e : Nat) (f : DmaEngine → DmaEngine)
    (hk : Keeps kl kf kb s) : Keeps kl kf kb (State.modDma s e f) := by
  unfold State.modDma
  repeat' (first
    | intro _
    | with_reducible assumption
    | with_reducible apply Keeps.ite
    | split
    | dsimp only [id]
    | simp only [Keeps.upd])

theorem State.dmaFault_keeps {kl kf : Bool} {kb : State} (s : State) (e : Nat) (it : DmaItem) (status : Nat)
    (hk : Keeps kl kf kb s) : Keeps kl kf kb (State.dmaFault s e it status) := by
  unfold State.dmaFault
  repeat' (first
    | intro _
    | with_reducible assumption
    | with_reducible apply State.respond_keeps
    | with_reducible apply State.unitFault_keeps
    | with_reducible apply Keeps.ite
    | split
    | dsimp only [id]
    | simp only [Keeps.upd, State.modDma])

theorem State.windowFault_keeps {kl kf : Bool} {kb : State} (s : State) (e : Nat) (status : Nat)
    (hk : Keeps kl kf kb s) : Keeps kl kf kb (State.windowFault s e status) := by
  unfold State.windowFault
  repeat' (first
    | intro _
    | with_reducible assumption
    | with_reducible apply State.dmaFault_keeps
    | with_reducible apply Keeps.ite
    | split)

theorem State.rawPut_keeps {kl kf : Bool} {kb : State} (s : State) (i base size : Nat) (noAlloc : Bool) (y0 y1 : Nat) (y2 : Bytes)
    (hk : Keeps kl kf kb s) : Keeps kl kf kb (State.rawPut s i base size noAlloc y0 y1 y2).2 := by
  induction y0 generalizing s y1 y2 with
  | zero => exact hk
  | succ n ih =>
    unfold State.rawPut
    split
    · exact hk
    · exact State.writeRaw_keeps _ _ _ _ _ (State.freeBytes_keeps _ _ hk)
    · exact ih _ _ _ (State.keepBlock_keeps _ _ _ _ _ (State.writeRaw_keeps _ _ _ _ _ (State.writeRaw_keeps _ _ _ _ _ hk)))

theorem State.streamPut_keeps {kl kf : Bool} {kb : State} (s : State) (i : Nat) (a : Nat) (bs : Bytes) (noAlloc : Bool) (coded : Option (Nat × Nat))
    (hk : Keeps kl kf kb s) : Keeps kl kf kb (State.streamPut s i a bs noAlloc coded).2 := by
  unfold State.streamPut
  repeat' (first
    | intro _
    | with_reducible assumption
    | with_reducible apply State.rawPut_keeps
    | with_reducible apply State.writeRaw_keeps
    | with_reducible apply Keeps.ite
    | split
    | dsimp only [id]
    | simp only [Keeps.upd])

theorem State.writeStream_keeps {kl kf : Bool} {kb : State} (s : State) (i : Nat) (d : Stream) (table : List Nat) (y0 y1 : Nat) (y2 : Bytes)
    (hk : Keeps kl kf kb s) : Keeps kl kf kb (State.writeStream s i d table y0 y1 y2) := by
  induction y0 generalizing s y1 y2 with
  | zero => exact hk
  | succ n ih =>
    unfold State.writeStream
    split
    · exact hk
    · exact ih _ _ _ (State.streamPut_keeps _ _ _ _ _ _ hk)

theorem State.landReq_keeps {kl kf : Bool} {kb : State} (s : State) (e : Nat) (q : DmaReq)
    (hk : Keeps kl kf kb s) : Keeps kl kf kb (State.landReq s e q).2 := by
  unfold State.landReq
  repeat' (first
    | intro _
    | with_reducible assumption
    | with_reducible apply State.hostPut_keeps
    | with_reducible apply State.streamPut_keeps
    | with_reducible apply Keeps.ite
    | split
    | dsimp only [id]
    | simp only [Keeps.upd])

theorem State.landOlder_keeps {kl kf : Bool} {kb : State} (s : State) (e : Nat)
    (hk : Keeps kl kf kb s) : Keeps kl kf kb (State.landOlder s e) := by
  unfold State.landOlder
  repeat' (first
    | intro _
    | with_reducible assumption
    | with_reducible apply Keeps.foldl
    | with_reducible apply State.landReq_keeps
    | with_reducible apply State.write_keeps
    | with_reducible apply Keeps.ite
    | split
    | dsimp only [id]
    | simp only [Keeps.upd, State.modDma])

theorem State.dmaFlush_keeps {kl kf : Bool} {kb : State} (s : State) (e : Nat) (it : DmaItem)
    (hk : Keeps kl kf kb s) : Keeps kl kf kb (State.dmaFlush s e it) := by
  unfold State.dmaFlush
  repeat' (first
    | intro _
    | with_reducible assumption
    | with_reducible apply Keeps.foldl
    | with_reducible apply State.landOlder_keeps
    | with_reducible apply State.landReq_keeps
    | with_reducible apply State.write_keeps
    | with_reducible apply State.writeStream_keeps
    | with_reducible apply Keeps.ite
    | split
    | dsimp only [id]
    | simp only [Keeps.upd, State.modDma])

theorem State.setCounter_keeps {kl kf : Bool} {kb : State} (s : State) (k : Nat) (v : Nat)
    (hk : Keeps kl kf kb s) : Keeps kl kf kb (State.setCounter s k v) := by
  unfold State.setCounter
  repeat' (first
    | intro _
    | with_reducible assumption
    | with_reducible apply Keeps.ite
    | split
    | dsimp only [id]
    | simp only [Keeps.upd])

theorem State.counterUe_keeps {kl kf : Bool} {kb : State} (s : State) (k : Nat) (user : Option Nat)
    (hk : Keeps kl kf kb s) : Keeps kl kf kb (State.counterUe s k user) := by
  unfold State.counterUe
  repeat' (first
    | intro _
    | with_reducible assumption
    | with_reducible apply State.countUncorrectable_keeps
    | with_reducible apply State.strike_keeps
    | with_reducible apply State.unitFault_keeps
    | with_reducible apply Keeps.ite
    | split
    | dsimp only [id]
    | simp only [Keeps.upd])

theorem State.redoCheck_keeps {kl kf : Bool} {kb : State} (s : State) (i : Nat)
    (hk : Keeps kl kf kb s) : Keeps kl kf kb (State.redoCheck s i) := by
  unfold State.redoCheck
  repeat' (first
    | intro _
    | with_reducible assumption
    | with_reducible apply State.unitFault_keeps
    | with_reducible apply Keeps.ite
    | split
    | dsimp only [id]
    | simp only [Keeps.upd])

theorem State.leaveMacro_keeps {kl kf : Bool} {kb : State} (s : State) (i : Nat) (k : Nat) (core : Nat) (status : Nat)
    (hk : Keeps kl kf kb s) : Keeps kl kf kb (State.leaveMacro s i k core status) := by
  unfold State.leaveMacro
  repeat' (first
    | intro _
    | with_reducible assumption
    | with_reducible apply State.redoCheck_keeps
    | with_reducible apply State.unitFault_keeps
    | with_reducible apply Keeps.ite
    | split
    | dsimp only [id]
    | simp only [Keeps.upd, State.modMacro, State.modSpc])

theorem State.dropCores_keeps {kl kf : Bool} {kb : State} (s : State) (cores : List Nat)
    (hk : Keeps kl kf kb s) : Keeps kl kf kb (State.dropCores s cores) := by
  unfold State.dropCores
  repeat' (first
    | intro _
    | with_reducible assumption
    | with_reducible apply Keeps.foldl
    | with_reducible apply State.haltGraph_keeps
    | with_reducible apply Keeps.ite
    | split
    | dsimp only [id]
    | simp only [Keeps.upd, State.modBf])

theorem State.leaveAny_keeps {kl kf : Bool} {kb : State} (s : State) (core : Nat) (status : Nat)
    (hk : Keeps kl kf kb s) : Keeps kl kf kb (State.leaveAny s core status) := by
  unfold State.leaveAny
  repeat' (first
    | intro _
    | with_reducible assumption
    | with_reducible apply State.leaveMacro_keeps
    | with_reducible apply State.redoCheck_keeps
    | with_reducible apply Keeps.ite
    | split)

theorem State.afterLoss_keeps {kl kf : Bool} {kb : State} (s0 s : State) (core : Nat)
    (hk : Keeps kl kf kb s) : Keeps kl kf kb (State.afterLoss s0 s core) := by
  unfold State.afterLoss
  split
  · exact State.redoCheck_keeps _ _ hk
  · exact hk

theorem State.retireCore_keeps {kl kf : Bool} {kb : State} (s : State) (core : Nat) (status : Nat)
    (hk : Keeps kl kf kb s) : Keeps kl kf kb (State.retireCore s core status) := by
  unfold State.retireCore
  repeat' (first
    | intro _
    | with_reducible assumption
    | with_reducible apply State.afterLoss_keeps
    | with_reducible apply State.dropCores_keeps
    | with_reducible apply State.event_keeps
    | with_reducible apply State.leaveAny_keeps
    | with_reducible apply State.updateHealth_keeps
    | with_reducible apply Keeps.ite
    | split
    | dsimp only [id]
    | simp only [Keeps.upd, State.modSpc])

theorem State.loseLines_keeps {kl kf : Bool} {kb : State} (s : State)
    (hk : Keeps kl kf kb s) : Keeps kl kf kb (State.loseLines s) := by
  unfold State.loseLines
  repeat' (first
    | intro _
    | with_reducible assumption
    | with_reducible apply Keeps.foldl
    | with_reducible apply State.freeBytes_keeps
    | with_reducible apply Keeps.ite
    | split
    | dsimp only [id]
    | simp only [Keeps.upd, State.modCam])

theorem State.failDma_keeps {kl kf : Bool} {kb : State} (s : State) (e : Nat)
    (hk : Keeps kl kf kb s) : Keeps kl kf kb (State.failDma s e) := by
  unfold State.failDma
  repeat' (first
    | intro _
    | with_reducible assumption
    | with_reducible apply Keeps.foldl
    | with_reducible apply State.afterLoss_keeps
    | with_reducible apply State.dmaFault_keeps
    | with_reducible apply State.dropCores_keeps
    | with_reducible apply State.event_keeps
    | with_reducible apply State.leaveAny_keeps
    | with_reducible apply State.loseLines_keeps
    | with_reducible apply State.loseVision_keeps
    | with_reducible apply State.stopCam_keeps
    | with_reducible apply State.unitFault_keeps
    | with_reducible apply State.updateHealth_keeps
    | with_reducible apply Keeps.ite
    | split
    | dsimp only [id]
    | simp only [Keeps.upd, State.modDma])

theorem State.useSpare_keeps {kl kf : Bool} {kb : State} (s : State) (k : Nat × Nat)
    (hk : Keeps kl kf kb s) : Keeps kl kf kb (State.useSpare s k) := by
  unfold State.useSpare
  repeat' (first
    | intro _
    | with_reducible assumption
    | with_reducible apply Keeps.ite
    | split
    | dsimp only [id]
    | simp only [Keeps.upd])

theorem State.dropGranule_keeps {kl kf : Bool} {kb : State} (s : State) (g : Nat)
    (hk : Keeps kl kf kb s) : Keeps kl kf kb (State.dropGranule s g) := by
  unfold State.dropGranule
  repeat' (first
    | intro _
    | with_reducible assumption
    | with_reducible apply Keeps.foldl
    | with_reducible apply State.evict_keeps
    | with_reducible apply Keeps.ite
    | split
    | dsimp only [id]
    | simp only [Keeps.upd])

theorem State.wearDome_keeps {kl kf : Bool} {kb : State} (s : State) (bank : Nat) (row : Nat)
    (hk : Keeps kl kf kb s) : Keeps kl kf kb (State.wearDome s bank row) := by
  unfold State.wearDome
  repeat' (first
    | intro _
    | with_reducible assumption
    | with_reducible apply State.dropGranule_keeps
    | with_reducible apply State.note_keeps
    | with_reducible apply State.retireGranule_keeps
    | with_reducible apply Keeps.ite
    | split
    | dsimp only [id]
    | simp only [Keeps.upd])

theorem State.noteWorn_keeps {kl kf : Bool} {kb : State} (s : State) (store : Nat) (unit : Nat)
    (hk : Keeps kl kf kb s) : Keeps kl kf kb (State.noteWorn s store unit) := by
  unfold State.noteWorn
  repeat' (first
    | intro _
    | with_reducible assumption
    | with_reducible apply Keeps.ite
    | split
    | dsimp only [id]
    | simp only [Keeps.upd])

theorem State.wearOut_keeps {kl kf : Bool} {kb : State} (s : State) (w : WordError)
    (hk : Keeps kl kf kb s) : Keeps kl kf kb (State.wearOut s w) := by
  unfold State.wearOut
  repeat' (first
    | intro _
    | with_reducible assumption
    | with_reducible apply State.event_keeps
    | with_reducible apply State.failRfe_keeps
    | with_reducible apply State.failSne_keeps
    | with_reducible apply State.loseVision_keeps
    | with_reducible apply State.noteWorn_keeps
    | with_reducible apply State.retireCore_keeps
    | with_reducible apply State.updateHealth_keeps
    | with_reducible apply State.wearDome_keeps
    | with_reducible apply Keeps.ite
    | split
    | dsimp only [id]
    | simp only [Keeps.upd, State.modBf])

theorem State.wornRow_keeps {kl kf : Bool} {kb : State} (s : State) (w : WordError)
    (hk : Keeps kl kf kb s) : Keeps kl kf kb (State.wornRow s w) := by
  unfold State.wornRow
  repeat' (first
    | intro _
    | with_reducible assumption
    | with_reducible apply State.event_keeps
    | with_reducible apply State.note_keeps
    | with_reducible apply State.useSpare_keeps
    | with_reducible apply State.wearOut_keeps
    | with_reducible apply Keeps.ite
    | split
    | dsimp only [id]
    | simp only [Keeps.upd])

theorem State.countCorrected_keeps {kl kf : Bool} {kb : State} (s : State) (e : Option WordError)
    (hk : Keeps kl kf kb s) : Keeps kl kf kb (State.countCorrected s e) := by
  unfold State.countCorrected
  repeat' (first
    | intro _
    | with_reducible assumption
    | with_reducible apply State.logError_keeps
    | with_reducible apply State.wornRow_keeps
    | with_reducible apply Keeps.ite
    | split
    | dsimp only [id]
    | simp only [Keeps.upd])

theorem State.countLocal_keeps {kl kf : Bool} {kb : State} (s : State) (a : Nat)
    (hk : Keeps kl kf kb s) : Keeps kl kf kb (State.countLocal s a) := by
  unfold State.countLocal
  repeat' (first
    | intro _
    | with_reducible assumption
    | with_reducible apply State.logError_keeps
    | with_reducible apply Keeps.ite
    | split
    | dsimp only [id]
    | simp only [Keeps.upd])

theorem State.wearLocal_keeps {kl kf : Bool} {kb : State} (s : State) (a : Nat)
    (hk : Keeps kl kf kb s) : Keeps kl kf kb (State.wearLocal s a) := by
  unfold State.wearLocal
  repeat' (first
    | intro _
    | with_reducible assumption
    | with_reducible apply State.wornRow_keeps
    | with_reducible apply Keeps.ite
    | split
    | dsimp only [id]
    | simp only [Keeps.upd])

theorem State.noteCorrected_keeps {kl kf : Bool} {kb : State} (s : State) (err : ReadErr) (a : Nat)
    (hk : Keeps kl kf kb s) : Keeps kl kf kb (State.noteCorrected s err a) := by
  unfold State.noteCorrected
  repeat' (first
    | intro _
    | with_reducible assumption
    | with_reducible apply State.countCorrected_keeps
    | with_reducible apply Keeps.ite
    | split
    | dsimp only [id]
    | simp only [Keeps.upd])

theorem State.readMeet_keeps {kl kf : Bool} {kb : State} (s : State) (i : Nat) (a : Nat) (n : Nat) (err : ReadErr)
    (hk : Keeps kl kf kb s) : Keeps kl kf kb (State.readMeet s i a n err).2.2 := by
  unfold State.readMeet
  repeat' (first
    | intro _
    | with_reducible assumption
    | with_reducible apply State.noteCorrected_keeps
    | with_reducible apply State.read_keeps
    | with_reducible apply State.strike_keeps
    | with_reducible apply Keeps.ite
    | split
    | dsimp only [id]
    | simp only [Keeps.upd])

theorem State.setGate_keeps {kl kf : Bool} {kb : State} (s : State) (u : GateUnit) (g : Bool)
    (hk : Keeps kl kf kb s) : Keeps kl kf kb (State.setGate s u g) := by
  unfold State.setGate
  repeat' (first
    | intro _
    | with_reducible assumption
    | with_reducible apply Keeps.ite
    | split
    | dsimp only [id]
    | simp only [Keeps.upd])

theorem State.gateOne_keeps {kl kf : Bool} {kb : State} (s : State) (u : GateUnit)
    (hk : Keeps kl kf kb s) : Keeps kl kf kb (State.gateOne s u) := by
  unfold State.gateOne
  repeat' (first
    | intro _
    | with_reducible assumption
    | with_reducible apply State.setGate_keeps
    | with_reducible apply Keeps.ite
    | split
    | dsimp only [id]
    | simp only [Keeps.upd, State.modRfe, State.modSne])

theorem State.gateUnused_keeps {kl kf : Bool} {kb : State} (s : State)
    (hk : Keeps kl kf kb s) : Keeps kl kf kb (State.gateUnused s) := by
  unfold State.gateUnused
  repeat' (first
    | intro _
    | with_reducible assumption
    | with_reducible apply Keeps.foldl
    | with_reducible apply State.gateOne_keeps)

theorem State.beginUngate_keeps {kl kf : Bool} {kb : State} (s : State) (us : List GateUnit)
    (hk : Keeps kl kf kb s) : Keeps kl kf kb (State.beginUngate s us) := by
  unfold State.beginUngate
  repeat' (first
    | intro _
    | with_reducible assumption
    | with_reducible apply Keeps.ite
    | split
    | dsimp only [id]
    | simp only [Keeps.upd])

theorem State.clearUnit_keeps {kl kf : Bool} {kb : State} (s : State) (u : GateUnit) (hk : Keeps kl kf kb s) :
    Keeps kl kf kb (State.clearUnit s u) := by
  unfold State.clearUnit
  repeat' (first
    | intro _
    | with_reducible assumption
    | with_reducible apply Keeps.foldl
    | split
    | dsimp only
    | (refine Keeps.trans (by assumption) (Keeps.store rfl (fun h => memClear_wf h _ _) id)))

end Sys2Proof.Machine
end

