-- ==== Sys2Proof/Laws/Keeps/Belfry.lean ====
section
/-! SUPPORT. What the operations of Machine/Belfry.lean leave alone. -/
namespace Sys2Proof.Machine
open Sys2Proof
set_option linter.unusedSimpArgs false

theorem State.skipAnchor_keeps {kl kf : Bool} {kb : State} (s : State) (g : Nat)
    (hk : Keeps kl kf kb s) : Keeps kl kf kb (State.skipAnchor s g) := by
  unfold State.skipAnchor
  repeat' (first
    | intro _
    | with_reducible assumption
    | with_reducible apply State.event_keeps
    | with_reducible apply Keeps.ite
    | split
    | dsimp only [id]
    | simp only [Keeps.upd, State.modBf, State.modGraph])

theorem State.startInstance_keeps {kl kf : Bool} {kb : State} (s : State) (g : Nat) (copy : Nat) (frame : Nat) (anchor : Nat)
    (hk : Keeps kl kf kb s) : Keeps kl kf kb (State.startInstance s g copy frame anchor) := by
  unfold State.startInstance
  repeat' (first
    | intro _
    | with_reducible assumption
    | with_reducible apply State.endInstance_keeps
    | with_reducible apply State.refreshReady_keeps
    | with_reducible apply Keeps.ite
    | split
    | dsimp only [id]
    | simp only [Keeps.upd, State.modBf, State.modGraph])

theorem anchorEffect_keeps {kl kf : Bool} {kb : State} (t : Nat) (g : Nat) (s0 : State)
    (hk : Keeps kl kf kb (s0.at t)) : Keeps kl kf kb (anchorEffect t g s0) := by
  unfold anchorEffect
  repeat' (first
    | intro _
    | with_reducible assumption
    | with_reducible apply State.skipAnchor_keeps
    | with_reducible apply State.startInstance_keeps
    | with_reducible apply Keeps.ite
    | split
    | dsimp only [id]
    | simp only [Keeps.upd, State.modBf, State.modGraph])

theorem execAnchorEvent_keeps {kl kf : Bool} (t : Nat) (g : Nat) (s : State) :
    ∃ s1, execAnchorEvent t g s = .next s1 ∧ Keeps kl kf (s.at t) s1 := by
  refine ⟨_, rfl, ?_⟩
  repeat' (first
    | intro _
    | (with_reducible first | exact Keeps.refl _ _ _ | assumption)
    | with_reducible apply anchorEffect_keeps)

theorem State.consume_keeps {kl kf : Bool} {kb : State} (s : State) (c : Ctx)
    (hk : Keeps kl kf kb s) : Keeps kl kf kb (State.consume s c) := by
  unfold State.consume
  repeat' (first
    | intro _
    | with_reducible assumption
    | with_reducible apply Keeps.foldl
    | with_reducible apply State.setBeacon_keeps)

theorem State.readWaits_keeps {kl kf : Bool} {kb : State} (s : State) (c : Ctx) (u : Option LaneUpset)
    (hk : Keeps kl kf kb s) : Keeps kl kf kb (State.readWaits s c u) := by
  unfold State.readWaits
  repeat' (first
    | intro _
    | with_reducible assumption
    | with_reducible apply State.voteRead_keeps
    | with_reducible apply Keeps.ite
    | split)

theorem State.startNode_keeps {kl kf : Bool} {kb : State} (s : State) (i : Nat) (c : Ctx)
    (hk : Keeps kl kf kb s) : Keeps kl kf kb (State.startNode s i c) := by
  unfold State.startNode
  repeat' (first
    | intro _
    | with_reducible assumption
    | with_reducible apply State.faultNode_keeps
    | with_reducible apply State.readElem_keeps
    | with_reducible apply State.startField_keeps
    | with_reducible apply State.startPeer_keeps
    | with_reducible apply State.startSpire_keeps
    | with_reducible apply State.startVision_keeps
    | with_reducible apply Keeps.ite
    | split
    | dsimp only [id]
    | simp only [Keeps.upd, State.modBf, State.modCtx])

theorem State.contextUe_keeps {kl kf : Bool} {kb : State} (s : State) (i : Nat)
    (hk : Keeps kl kf kb s) : Keeps kl kf kb (State.contextUe s i) := by
  unfold State.contextUe
  repeat' (first
    | intro _
    | with_reducible assumption
    | with_reducible apply State.logError_keeps
    | with_reducible apply Keeps.ite
    | split
    | dsimp only [id]
    | simp only [Keeps.upd])

theorem State.contextCorrected_keeps {kl kf : Bool} {kb : State} (s : State) (i : Nat) (err : ReadErr)
    (hk : Keeps kl kf kb s) : Keeps kl kf kb (State.contextCorrected s i err) := by
  unfold State.contextCorrected
  repeat' (first
    | intro _
    | with_reducible assumption
    | with_reducible apply State.countCorrected_keeps
    | with_reducible apply Keeps.ite
    | split
    | dsimp only [id]
    | simp only [Keeps.upd])

theorem dispatchEffect_keeps {kl kf : Bool} {kb : State} (t : Nat) (i : Nat) (u : Option LaneUpset) (err : ReadErr) (s0 : State)
    (hk : Keeps kl kf kb (s0.at t)) : Keeps kl kf kb (dispatchEffect t i u err s0) := by
  unfold dispatchEffect
  repeat' (first
    | intro _
    | with_reducible assumption
    | with_reducible apply State.cascadeAll_keeps
    | with_reducible apply State.consume_keeps
    | with_reducible apply State.contextCorrected_keeps
    | with_reducible apply State.contextUe_keeps
    | with_reducible apply State.endNode_keeps
    | with_reducible apply State.readWaits_keeps
    | with_reducible apply State.startNode_keeps
    | with_reducible apply State.stopGraph_keeps
    | with_reducible apply Keeps.ite
    | split
    | dsimp only [id]
    | simp only [Keeps.upd, State.modBf, State.modCtx])

theorem execNodeDispatch_keeps {kl kf : Bool} (t : Nat) (i : Nat) (u : Option LaneUpset) (err : ReadErr) (s : State) :
    ∃ s1, execNodeDispatch t i u err s = .next s1 ∧ Keeps kl kf (s.at t) s1 := by
  refine ⟨_, rfl, ?_⟩
  repeat' (first
    | intro _
    | (with_reducible first | exact Keeps.refl _ _ _ | assumption)
    | with_reducible apply dispatchEffect_keeps)

theorem beaconSignalEffect_keeps {kl kf : Bool} {kb : State} (t : Nat) (b : Nat) (inc : Nat) (u : Option LaneUpset) (s0 : State)
    (hk : Keeps kl kf kb (s0.at t)) : Keeps kl kf kb (beaconSignalEffect t b inc u s0) := by
  unfold beaconSignalEffect
  repeat' (first
    | intro _
    | with_reducible assumption
    | with_reducible apply State.signalBeacon_keeps
    | with_reducible apply Keeps.ite)

theorem execBeaconSignal_keeps {kl kf : Bool} (t : Nat) (b : Nat) (inc : Nat) (u : Option LaneUpset) (s : State) :
    ∃ s1, execBeaconSignal t b inc u s = .next s1 ∧ Keeps kl kf (s.at t) s1 := by
  refine ⟨_, rfl, ?_⟩
  repeat' (first
    | intro _
    | (with_reducible first | exact Keeps.refl _ _ _ | assumption)
    | with_reducible apply beaconSignalEffect_keeps)

theorem nodeCompleteEffect_keeps {kl kf : Bool} {kb : State} (t : Nat) (i : Nat) (s0 : State)
    (hk : Keeps kl kf kb (s0.at t)) : Keeps kl kf kb (nodeCompleteEffect t i s0) := by
  unfold nodeCompleteEffect
  repeat' (first
    | intro _
    | with_reducible assumption
    | with_reducible apply State.cascadeAll_keeps
    | with_reducible apply State.closeWork_keeps
    | with_reducible apply State.dropWork_keeps
    | with_reducible apply State.endNode_keeps
    | with_reducible apply Keeps.ite
    | split
    | dsimp only [id])

theorem execNodeComplete_keeps {kl kf : Bool} (t : Nat) (i : Nat) (s : State) :
    ∃ s1, execNodeComplete t i s = .next s1 ∧ Keeps kl kf (s.at t) s1 := by
  refine ⟨_, rfl, ?_⟩
  repeat' (first
    | intro _
    | (with_reducible first | exact Keeps.refl _ _ _ | assumption)
    | with_reducible apply nodeCompleteEffect_keeps)

theorem nodeFaultEffect_keeps {kl kf : Bool} {kb : State} (t : Nat) (i : Nat) (status : Nat) (s0 : State)
    (hk : Keeps kl kf kb (s0.at t)) : Keeps kl kf kb (nodeFaultEffect t i status s0) := by
  unfold nodeFaultEffect
  repeat' (first
    | intro _
    | with_reducible assumption
    | with_reducible apply State.unitFault_keeps
    | with_reducible apply Keeps.ite
    | split
    | dsimp only [id])

theorem execNodeFault_keeps {kl kf : Bool} (t : Nat) (i : Nat) (status : Nat) (s : State) :
    ∃ s1, execNodeFault t i status s = .next s1 ∧ Keeps kl kf (s.at t) s1 := by
  refine ⟨_, rfl, ?_⟩
  repeat' (first
    | intro _
    | (with_reducible first | exact Keeps.refl _ _ _ | assumption)
    | with_reducible apply nodeFaultEffect_keeps)

theorem deadlineMissEffect_keeps {kl kf : Bool} {kb : State} (t : Nat) (i : Nat) (s0 : State)
    (hk : Keeps kl kf kb (s0.at t)) : Keeps kl kf kb (deadlineMissEffect t i s0) := by
  unfold deadlineMissEffect
  repeat' (first
    | intro _
    | with_reducible assumption
    | with_reducible apply State.cancelInstance_keeps
    | with_reducible apply State.cancelNode_keeps
    | with_reducible apply State.raise_keeps
    | with_reducible apply Keeps.ite
    | split
    | dsimp only [id]
    | simp only [Keeps.upd, State.modBf, State.modCtx])

theorem execDeadlineMiss_keeps {kl kf : Bool} (t : Nat) (i : Nat) (s : State) :
    ∃ s1, execDeadlineMiss t i s = .next s1 ∧ Keeps kl kf (s.at t) s1 := by
  refine ⟨_, rfl, ?_⟩
  repeat' (first
    | intro _
    | (with_reducible first | exact Keeps.refl _ _ _ | assumption)
    | with_reducible apply deadlineMissEffect_keeps)

theorem fusedResumeEffect_keeps {kl kf : Bool} {kb : State} (t : Nat) (i : Nat) (k : Nat) (s0 : State)
    (hk : Keeps kl kf kb (s0.at t)) : Keeps kl kf kb (fusedResumeEffect t i k s0) := by
  unfold fusedResumeEffect
  repeat' (first
    | intro _
    | with_reducible assumption
    | with_reducible apply Keeps.ite
    | split
    | dsimp only [id]
    | simp only [Keeps.upd, State.modBf])

theorem execFusedStageResume_keeps {kl kf : Bool} (t : Nat) (i : Nat) (k : Nat) (s : State) :
    ∃ s1, execFusedStageResume t i k s = .next s1 ∧ Keeps kl kf (s.at t) s1 := by
  refine ⟨_, rfl, ?_⟩
  repeat' (first
    | intro _
    | (with_reducible first | exact Keeps.refl _ _ _ | assumption)
    | with_reducible apply fusedResumeEffect_keeps)

theorem cancelEffect_keeps {kl kf : Bool} {kb : State} (t : Nat) (p : Nat) (s0 : State)
    (hk : Keeps kl kf kb (s0.at t)) : Keeps kl kf kb (cancelEffect t p s0) := by
  unfold cancelEffect
  repeat' (first
    | intro _
    | with_reducible assumption
    | with_reducible apply State.answer_keeps
    | with_reducible apply State.cancelGraph_keeps
    | with_reducible apply State.cancelInstance_keeps
    | with_reducible apply State.cancelNode_keeps
    | with_reducible apply Keeps.ite
    | split
    | dsimp only [id])

theorem execCancel_keeps {kl kf : Bool} (t : Nat) (p : Nat) (s : State) :
    ∃ s1, execCancel t p s = .next s1 ∧ Keeps kl kf (s.at t) s1 := by
  refine ⟨_, rfl, ?_⟩
  repeat' (first
    | intro _
    | (with_reducible first | exact Keeps.refl _ _ _ | assumption)
    | with_reducible apply cancelEffect_keeps)

theorem State.flushOpen_keeps {kl kf : Bool} {kb : State} (s : State) (i : Nat)
    (hk : Keeps kl kf kb s) : Keeps kl kf kb (State.flushOpen s i) := by
  unfold State.flushOpen
  repeat' (first
    | intro _
    | with_reducible assumption
    | with_reducible apply Keeps.foldl
    | with_reducible apply State.dmaFlush_keeps
    | with_reducible apply Keeps.ite
    | split)

theorem cancelDrainEffect_keeps {kl kf : Bool} {kb : State} (t : Nat) (i : Nat) (s0 : State)
    (hk : Keeps kl kf kb (s0.at t)) : Keeps kl kf kb (cancelDrainEffect t i s0) := by
  unfold cancelDrainEffect
  repeat' (first
    | intro _
    | with_reducible assumption
    | with_reducible apply State.closeWork_keeps
    | with_reducible apply State.dropWork_keeps
    | with_reducible apply State.endNode_keeps
    | with_reducible apply State.flushOpen_keeps
    | with_reducible apply Keeps.ite
    | split
    | dsimp only [id])

theorem execCancelDrainComplete_keeps {kl kf : Bool} (t : Nat) (i : Nat) (s : State) :
    ∃ s1, execCancelDrainComplete t i s = .next s1 ∧ Keeps kl kf (s.at t) s1 := by
  refine ⟨_, rfl, ?_⟩
  repeat' (first
    | intro _
    | (with_reducible first | exact Keeps.refl _ _ _ | assumption)
    | with_reducible apply cancelDrainEffect_keeps)

theorem State.holdOrShed_keeps {kl kf : Bool} {kb : State} (s : State) (g : Nat) (q : McGroup) (k : Nat)
    (hk : Keeps kl kf kb s) : Keeps kl kf kb (State.holdOrShed s g q k) := by
  unfold State.holdOrShed
  repeat' (first
    | intro _
    | with_reducible assumption
    | with_reducible apply State.shed_keeps
    | with_reducible apply Keeps.ite
    | split
    | dsimp only [id]
    | simp only [Keeps.upd, State.modBf, State.modGroup, State.modRecv])

theorem State.unitPieces_keeps {kl kf : Bool} {kb : State} (s : State) (q : McGroup) (u : McUnit)
    (hk : Keeps kl kf kb s) : Keeps kl kf kb (State.unitPieces s q u).2 := by
  unfold State.unitPieces
  repeat' (first
    | intro _
    | with_reducible assumption
    | with_reducible apply State.read_keeps
    | with_reducible apply Keeps.ite
    | split
    | dsimp only [id]
    | simp only [Keeps.upd])

theorem multicastWriteEffect_keeps {kl kf : Bool} {kb : State} (t : Nat) (g : Nat) (r : Nat) (s0 : State)
    (hk : Keeps kl kf kb (s0.at t)) : Keeps kl kf kb (multicastWriteEffect t g r s0) := by
  unfold multicastWriteEffect
  repeat' (first
    | intro _
    | with_reducible assumption
    | with_reducible apply Keeps.foldl
    | with_reducible apply State.freeIfDone_keeps
    | with_reducible apply State.holdOrShed_keeps
    | with_reducible apply State.record_keeps
    | with_reducible apply State.reportUnits_keeps
    | with_reducible apply State.setBeacon_keeps
    | with_reducible apply State.signalBeacon_keeps
    | with_reducible apply State.unitPieces_keeps
    | with_reducible apply Keeps.ite
    | split
    | dsimp only [id]
    | simp only [Keeps.upd, State.modBf, State.modGroup, State.modRecv])

theorem execMulticastUnitWrite_keeps {kl kf : Bool} (t : Nat) (g : Nat) (r : Nat) (s : State) :
    ∃ s1, execMulticastUnitWrite t g r s = .next s1 ∧ Keeps kl kf (s.at t) s1 := by
  refine ⟨_, rfl, ?_⟩
  repeat' (first
    | intro _
    | (with_reducible first | exact Keeps.refl _ _ _ | assumption)
    | with_reducible apply multicastWriteEffect_keeps)

theorem gapMarkerEffect_keeps {kl kf : Bool} {kb : State} (t : Nat) (g : Nat) (r : Nat) (s0 : State)
    (hk : Keeps kl kf kb (s0.at t)) : Keeps kl kf kb (gapMarkerEffect t g r s0) := by
  unfold gapMarkerEffect
  repeat' (first
    | intro _
    | with_reducible assumption
    | with_reducible apply State.freeBytes_keeps
    | with_reducible apply State.record_keeps
    | with_reducible apply State.reportUnits_keeps
    | with_reducible apply State.setBeacon_keeps
    | with_reducible apply State.signalBeacon_keeps
    | with_reducible apply Keeps.ite
    | split
    | dsimp only [id]
    | simp only [Keeps.upd, State.modBf, State.modGroup, State.modRecv])

theorem execGapMarkerWrite_keeps {kl kf : Bool} (t : Nat) (g : Nat) (r : Nat) (s : State) :
    ∃ s1, execGapMarkerWrite t g r s = .next s1 ∧ Keeps kl kf (s.at t) s1 := by
  refine ⟨_, rfl, ?_⟩
  repeat' (first
    | intro _
    | (with_reducible first | exact Keeps.refl _ _ _ | assumption)
    | with_reducible apply gapMarkerEffect_keeps)

theorem holdExpiryEffect_keeps {kl kf : Bool} {kb : State} (t : Nat) (g : Nat) (r : Nat) (s0 : State)
    (hk : Keeps kl kf kb (s0.at t)) : Keeps kl kf kb (holdExpiryEffect t g r s0) := by
  unfold holdExpiryEffect
  repeat' (first
    | intro _
    | with_reducible assumption
    | with_reducible apply State.cancelInstance_keeps
    | with_reducible apply State.event_keeps
    | with_reducible apply State.reportUnits_keeps
    | with_reducible apply State.shed_keeps
    | with_reducible apply Keeps.ite
    | split
    | dsimp only [id]
    | simp only [Keeps.upd, State.modBf, State.modGraph, State.modGroup, State.modRecv])

theorem execHoldLimitExpiry_keeps {kl kf : Bool} (t : Nat) (g : Nat) (r : Nat) (s : State) :
    ∃ s1, execHoldLimitExpiry t g r s = .next s1 ∧ Keeps kl kf (s.at t) s1 := by
  refine ⟨_, rfl, ?_⟩
  repeat' (first
    | intro _
    | (with_reducible first | exact Keeps.refl _ _ _ | assumption)
    | with_reducible apply holdExpiryEffect_keeps)

theorem execBelfryLockstepMismatch_keeps {kl kf : Bool} (t : Nat) (s : State) :
    ∃ s1, execBelfryLockstepMismatch t s = .next s1 ∧ Keeps kl kf (s.at t) s1 := by
  refine ⟨_, rfl, ?_⟩
  repeat' (first
    | intro _
    | (with_reducible first | exact Keeps.refl _ _ _ | assumption)
    | with_reducible apply State.fatal_keeps)

theorem parkDrainEffect_keeps {kl kf : Bool} {kb : State} (t : Nat) (g : Nat) (hostFail : Bool) (s0 : State)
    (hk : Keeps kl kf kb (s0.at t)) : Keeps kl kf kb (parkDrainEffect t g hostFail s0) := by
  unfold parkDrainEffect
  repeat' (first
    | intro _
    | with_reducible assumption
    | with_reducible apply State.answer_keeps
    | with_reducible apply State.evictGraph_keeps
    | with_reducible apply State.gateUnused_keeps
    | with_reducible apply State.removeGraph_keeps
    | with_reducible apply Keeps.ite
    | split
    | dsimp only [id])

theorem execParkDrainComplete_keeps {kl kf : Bool} (t : Nat) (g : HostSave) (s : State) :
    ∃ s1, execParkDrainComplete t g s = .next s1 ∧ Keeps kl kf (s.at t) s1 := by
  refine ⟨_, rfl, ?_⟩
  repeat' (first
    | intro _
    | (with_reducible first | exact Keeps.refl _ _ _ | assumption)
    | with_reducible apply parkDrainEffect_keeps)

end Sys2Proof.Machine
end

