-- ==== Sys2Proof/Laws/Keeps/HostOps.lean ====
section
/-! SUPPORT. What the operations of Machine/HostOps.lean leave alone. -/
namespace Sys2Proof.Machine
open Sys2Proof
set_option linter.unusedSimpArgs false

theorem State.modPci_keeps {kl kf : Bool} {kb : State} (s : State) (f : Pci → Pci)
    (hk : Keeps kl kf kb s) : Keeps kl kf kb (State.modPci s f) := by
  unfold State.modPci
  repeat' (first
    | intro _
    | with_reducible assumption
    | with_reducible apply Keeps.ite
    | split
    | dsimp only [id]
    | simp only [Keeps.upd])

theorem State.modPair_keeps {kl kf : Bool} {kb : State} (s : State) (p : Nat) (f : Pair → Pair)
    (hk : Keeps kl kf kb s) : Keeps kl kf kb (State.modPair s p f) := by
  unfold State.modPair
  repeat' (first
    | intro _
    | with_reducible assumption
    | with_reducible apply Keeps.ite
    | split
    | dsimp only [id]
    | simp only [Keeps.upd, State.modPci])

theorem State.discardWrite_keeps {kl kf : Bool} {kb : State} (s : State)
    (hk : Keeps kl kf kb s) : Keeps kl kf kb (State.discardWrite s) := by
  unfold State.discardWrite
  repeat' (first
    | intro _
    | with_reducible assumption
    | with_reducible apply Keeps.ite
    | split
    | dsimp only [id]
    | simp only [Keeps.upd, State.modPci])

theorem State.refuseWrite_keeps {kl kf : Bool} {kb : State} (s : State)
    (hk : Keeps kl kf kb s) : Keeps kl kf kb (State.refuseWrite s) := by
  unfold State.refuseWrite
  repeat' (first
    | intro _
    | with_reducible assumption
    | with_reducible apply State.discardWrite_keeps
    | with_reducible apply State.noteRare_keeps)

theorem State.sendPending_keeps {kl kf : Bool} {kb : State} (s : State)
    (hk : Keeps kl kf kb s) : Keeps kl kf kb (State.sendPending s) := by
  unfold State.sendPending
  repeat' (first
    | intro _
    | with_reducible assumption
    | with_reducible apply Keeps.foldl
    | with_reducible apply State.emit_keeps
    | with_reducible apply Keeps.ite
    | split
    | dsimp only [id]
    | simp only [Keeps.upd, State.modPci])

theorem State.stopPair_keeps {kl kf : Bool} {kb : State} (s : State) (p : Nat) (status : Nat)
    (hk : Keeps kl kf kb s) : Keeps kl kf kb (State.stopPair s p status) := by
  unfold State.stopPair
  repeat' (first
    | intro _
    | with_reducible assumption
    | with_reducible apply State.event_keeps
    | with_reducible apply State.note_keeps
    | with_reducible apply State.raise_keeps
    | with_reducible apply Keeps.ite
    | split
    | dsimp only [id]
    | simp only [Keeps.upd, State.modPair, State.modPci])

theorem State.writeSizes_keeps {kl kf : Bool} {kb : State} (s : State) (p : Nat) (v : Nat)
    (hk : Keeps kl kf kb s) : Keeps kl kf kb (State.writeSizes s p v) := by
  unfold State.writeSizes
  repeat' (first
    | intro _
    | with_reducible assumption
    | with_reducible apply State.discardWrite_keeps
    | with_reducible apply Keeps.ite
    | split
    | dsimp only [id]
    | simp only [Keeps.upd, State.modPair, State.modPci])

theorem State.setEnable_keeps {kl kf : Bool} {kb : State} (s : State) (p : Nat) (v : Nat)
    (hk : Keeps kl kf kb s) : Keeps kl kf kb (State.setEnable s p v) := by
  unfold State.setEnable
  repeat' (first
    | intro _
    | with_reducible assumption
    | with_reducible apply State.note_keeps
    | with_reducible apply State.writeSizes_keeps
    | with_reducible apply Keeps.ite
    | split
    | dsimp only [id]
    | simp only [Keeps.upd, State.modPair, State.modPci])

theorem State.clearEnable_keeps {kl kf : Bool} {kb : State} (s : State) (p : Nat) (v : Nat)
    (hk : Keeps kl kf kb s) : Keeps kl kf kb (State.clearEnable s p v) := by
  unfold State.clearEnable
  repeat' (first
    | intro _
    | with_reducible assumption
    | with_reducible apply State.writeSizes_keeps
    | with_reducible apply Keeps.ite
    | split
    | dsimp only [id]
    | simp only [Keeps.upd, State.modPair, State.modPci])

theorem State.ringDoorbell_keeps {kl kf : Bool} {kb : State} (s : State) (p : Nat) (tail : Nat)
    (hk : Keeps kl kf kb s) : Keeps kl kf kb (State.ringDoorbell s p tail) := by
  unfold State.ringDoorbell
  repeat' (first
    | intro _
    | with_reducible assumption
    | with_reducible apply State.discardWrite_keeps
    | with_reducible apply Keeps.ite
    | split
    | dsimp only [id]
    | simp only [Keeps.upd, State.modPair, State.modPci])

theorem State.writeRspHead_keeps {kl kf : Bool} {kb : State} (s : State) (p : Nat) (head : Nat)
    (hk : Keeps kl kf kb s) : Keeps kl kf kb (State.writeRspHead s p head) := by
  unfold State.writeRspHead
  repeat' (first
    | intro _
    | with_reducible assumption
    | with_reducible apply State.discardWrite_keeps
    | with_reducible apply Keeps.ite
    | split
    | dsimp only [id]
    | simp only [Keeps.upd, State.modPair, State.modPci])

theorem State.serveHeld_keeps {kl kf : Bool} {kb : State} (s : State)
    (hk : Keeps kl kf kb s) : Keeps kl kf kb (State.serveHeld s) := by
  unfold State.serveHeld
  repeat' (first
    | intro _
    | with_reducible assumption
    | with_reducible apply Keeps.foldl
    | with_reducible apply State.answer_keeps
    | with_reducible apply Keeps.ite
    | split)

theorem State.flushCache_keeps {kl kf : Bool} {kb : State} (s : State)
    (hk : Keeps kl kf kb s) : Keeps kl kf kb (State.flushCache s) := by
  unfold State.flushCache
  repeat' (first
    | intro _
    | with_reducible assumption
    | with_reducible apply Keeps.foldl
    | with_reducible apply State.evict_keeps
    | with_reducible apply Keeps.ite
    | split
    | dsimp only [id]
    | simp only [Keeps.upd])

theorem State.setCache_keeps {kl kf : Bool} {kb : State} (s : State) (n : Nat) (hk : Keeps kl kf kb s) : Keeps kl kf kb (State.setCache s n) := by
  unfold State.setCache
  dsimp only
  split
  · exact hk
  · exact (State.flushCache_keeps _ hk).trans (Keeps.store rfl (fun h => memClear_wf h _ _) id)

end Sys2Proof.Machine
end

