-- ==== Sys2Proof/Laws/Keeps/Rfe.lean ====
section
/-! SUPPORT. What the operations of Machine/Rfe.lean leave alone. -/
namespace Sys2Proof.Machine
open Sys2Proof
set_option linter.unusedSimpArgs false

theorem State.readyNet_keeps {kl kf : Bool} {kb : State} (s : State) (c : Nat) (n0 : Nat) (n1 : Nat)
    (hk : Keeps kl kf kb s) : Keeps kl kf kb (State.readyNet s c n0 n1) := by
  unfold State.readyNet
  repeat' (first
    | intro _
    | with_reducible assumption
    | with_reducible apply Keeps.foldl
    | with_reducible apply Keeps.ite
    | split
    | dsimp only [id]
    | simp only [Keeps.upd, State.modCam])

theorem State.lineCodes_keeps {kl kf : Bool} {kb : State} (s : State) (c : Nat) (l : Line) (err : ReadErr)
    (hk : Keeps kl kf kb s) : Keeps kl kf kb (State.lineCodes s c l err).2 := by
  have h (a n u : Nat) (s1 : State) (h1 : Keeps kl kf kb s1) :
      Keeps kl kf kb (if s1.isBad a n = true then (none, s1.countUncorrectable 0x0902 a u) else (some l.codes, s1.noteCorrected err a)).2 := by
    split
    · exact State.countUncorrectable_keeps _ _ _ _ h1
    · exact State.noteCorrected_keeps _ _ _ h1
  rw [State.lineCodes]
  cases hl : l.lost
  · cases l.slot with
    | none =>
      simp only [Bool.false_eq_true, if_false]
      exact h _ _ _ _ (Keeps.ite (State.strike_keeps _ _ hk) hk)
    | some i =>
      simp only [Bool.false_eq_true, if_false]
      split <;> exact State.readMeet_keeps _ _ _ _ _ hk
  · simpa only [if_true] using hk

theorem rfeLineReadEffect_keeps {kl kf : Bool} {kb : State} (t : Nat) (r : Nat) (err : ReadErr) (s0 : State)
    (hk : Keeps kl kf kb (s0.at t)) : Keeps kl kf kb (rfeLineReadEffect t r err s0) := by
  unfold rfeLineReadEffect
  repeat' (first
    | intro _
    | with_reducible assumption
    | with_reducible apply State.lineCodes_keeps
    | with_reducible apply State.readyNet_keeps
    | with_reducible apply State.returnGroups_keeps
    | with_reducible apply State.spillNext_keeps
    | with_reducible apply Keeps.ite
    | split
    | dsimp only [id]
    | simp only [Keeps.upd, State.modCam])

theorem execRfeLineRead_keeps {kl kf : Bool} (t : Nat) (r : Nat) (err : ReadErr) (s : State) :
    ∃ s1, execRfeLineRead t r err s = .next s1 ∧ Keeps kl kf (s.at t) s1 := by
  refine ⟨_, rfl, ?_⟩
  repeat' (first
    | intro _
    | (with_reducible first | exact Keeps.refl _ _ _ | assumption)
    | with_reducible apply rfeLineReadEffect_keeps)

theorem State.refusePset_keeps {kl kf : Bool} {kb : State} (s : State) (r : Nat) (status : Nat)
    (hk : Keeps kl kf kb s) : Keeps kl kf kb (State.refusePset s r status) := by
  unfold State.refusePset
  repeat' (first
    | intro _
    | with_reducible assumption
    | with_reducible apply Keeps.ite
    | split
    | dsimp only [id]
    | simp only [Keeps.upd, State.modRfe])

theorem State.rejectPset_keeps {kl kf : Bool} {kb : State} (s : State) (r : Nat) (status : Nat)
    (hk : Keeps kl kf kb s) : Keeps kl kf kb (State.rejectPset s r status) := by
  unfold State.rejectPset
  repeat' (first
    | intro _
    | with_reducible assumption
    | with_reducible apply State.note_keeps
    | with_reducible apply State.refusePset_keeps
    | with_reducible apply Keeps.ite
    | split
    | dsimp only [id]
    | simp only [Keeps.upd])

theorem State.takePset_keeps {kl kf : Bool} {kb : State} (s : State) (r : Nat) (b : Bytes)
    (hk : Keeps kl kf kb s) : Keeps kl kf kb (State.takePset s r b).2 := by
  unfold State.takePset
  repeat' (first
    | intro _
    | with_reducible assumption
    | with_reducible apply Keeps.foldl
    | with_reducible apply State.note_keeps
    | with_reducible apply State.refusePset_keeps
    | with_reducible apply State.rejectPset_keeps
    | with_reducible apply Keeps.ite
    | split
    | dsimp only [id]
    | simp only [Keeps.upd, State.modRfe])

theorem psetSubmitEffect_keeps {kl kf : Bool} {kb : State} (t : Nat) (p : Nat) (s0 : State)
    (hk : Keeps kl kf kb (s0.at t)) : Keeps kl kf kb (psetSubmitEffect t p s0) := by
  unfold psetSubmitEffect
  repeat' (first
    | intro _
    | with_reducible assumption
    | with_reducible apply State.answer_keeps
    | with_reducible apply State.takePset_keeps
    | with_reducible apply Keeps.ite
    | split
    | dsimp only [id])

theorem execPsetSubmit_keeps {kl kf : Bool} (t : Nat) (p : Nat) (s : State) :
    ∃ s1, execPsetSubmit t p s = .next s1 ∧ Keeps kl kf (s.at t) s1 := by
  refine ⟨_, rfl, ?_⟩
  repeat' (first
    | intro _
    | (with_reducible first | exact Keeps.refl _ _ _ | assumption)
    | with_reducible apply psetSubmitEffect_keeps)

theorem psetWindowWriteEffect_keeps {kl kf : Bool} {kb : State} (t : Nat) (e : Nat) (r : Nat) (off : Nat) (b : Bytes) (s0 : State)
    (hk : Keeps kl kf kb (s0.at t)) : Keeps kl kf kb (psetWindowWriteEffect t e r off b s0) := by
  unfold psetWindowWriteEffect
  repeat' (first
    | intro _
    | with_reducible assumption
    | with_reducible apply State.countRefusal_keeps
    | with_reducible apply State.takePset_keeps
    | with_reducible apply State.windowFault_keeps
    | with_reducible apply Keeps.ite)

theorem execRfePsetSubmitWrite_keeps {kl kf : Bool} (t : Nat) (e : Nat) (r : Nat) (off : Nat) (b : Bytes) (s : State) :
    ∃ s1, execRfePsetSubmitWrite t e r off b s = .next s1 ∧ Keeps kl kf (s.at t) s1 := by
  refine ⟨_, rfl, ?_⟩
  repeat' (first
    | intro _
    | (with_reducible first | exact Keeps.refl _ _ _ | assumption)
    | with_reducible apply psetWindowWriteEffect_keeps)

theorem psetLoadStartEffect_keeps {kl kf : Bool} {kb : State} (t : Nat) (r : Nat) (s0 : State)
    (hk : Keeps kl kf kb (s0.at t)) : Keeps kl kf kb (psetLoadStartEffect t r s0) := by
  unfold psetLoadStartEffect
  repeat' (first
    | intro _
    | with_reducible assumption
    | with_reducible apply Keeps.ite
    | split
    | dsimp only [id]
    | simp only [Keeps.upd, State.modRfe])

theorem execPsetLoadStart_keeps {kl kf : Bool} (t : Nat) (r : Nat) (s : State) :
    ∃ s1, execPsetLoadStart t r s = .next s1 ∧ Keeps kl kf (s.at t) s1 := by
  refine ⟨_, rfl, ?_⟩
  repeat' (first
    | intro _
    | (with_reducible first | exact Keeps.refl _ _ _ | assumption)
    | with_reducible apply psetLoadStartEffect_keeps)

theorem psetLoadCompleteEffect_keeps {kl kf : Bool} {kb : State} (t : Nat) (r : Nat) (s0 : State)
    (hk : Keeps kl kf kb (s0.at t)) : Keeps kl kf kb (psetLoadCompleteEffect t r s0) := by
  unfold psetLoadCompleteEffect
  repeat' (first
    | intro _
    | with_reducible assumption
    | with_reducible apply State.read_keeps
    | with_reducible apply State.rejectPset_keeps
    | with_reducible apply Keeps.ite
    | split
    | dsimp only [id]
    | simp only [Keeps.upd, State.modRfe])

theorem execPsetLoadComplete_keeps {kl kf : Bool} (t : Nat) (r : Nat) (s : State) :
    ∃ s1, execPsetLoadComplete t r s = .next s1 ∧ Keeps kl kf (s.at t) s1 := by
  refine ⟨_, rfl, ?_⟩
  repeat' (first
    | intro _
    | (with_reducible first | exact Keeps.refl _ _ _ | assumption)
    | with_reducible apply psetLoadCompleteEffect_keeps)

theorem tapConfigEffect_keeps {kl kf : Bool} {kb : State} (t : Nat) (p : Nat) (s0 : State)
    (hk : Keeps kl kf kb (s0.at t)) : Keeps kl kf kb (tapConfigEffect t p s0) := by
  unfold tapConfigEffect
  repeat' (first
    | intro _
    | with_reducible assumption
    | with_reducible apply State.answer_keeps
    | with_reducible apply Keeps.ite
    | split
    | dsimp only [id]
    | simp only [Keeps.upd, State.modRfe])

theorem execTapConfig_keeps {kl kf : Bool} (t : Nat) (p : Nat) (s : State) :
    ∃ s1, execTapConfig t p s = .next s1 ∧ Keeps kl kf (s.at t) s1 := by
  refine ⟨_, rfl, ?_⟩
  repeat' (first
    | intro _
    | (with_reducible first | exact Keeps.refl _ _ _ | assumption)
    | with_reducible apply tapConfigEffect_keeps)

theorem State.tapWrite_keeps {kl kf : Bool} {kb : State} (s : State) (r : Nat) (tap : Nat) (f : Frame) (a : Nat) (bs : Bytes)
    (hk : Keeps kl kf kb s) : Keeps kl kf kb (State.tapWrite s r tap f a bs) := by
  unfold State.tapWrite
  repeat' (first
    | intro _
    | with_reducible assumption
    | with_reducible apply State.poisonSources_keeps
    | with_reducible apply State.write_keeps
    | with_reducible apply Keeps.ite
    | split
    | dsimp only [id]
    | simp only [Keeps.upd])

theorem State.putRawBlock_keeps {kl kf : Bool} {kb : State} (s : State) (r : Nat) (tap : Nat) (f : Frame) (head : Nat) (addr : Nat) (slot : Nat) (b : Bytes × Bytes)
    (hk : Keeps kl kf kb s) : Keeps kl kf kb (State.putRawBlock s r tap f head addr slot b) := by
  unfold State.putRawBlock
  repeat' (first
    | intro _
    | with_reducible assumption
    | with_reducible apply State.keepBlock_keeps
    | with_reducible apply State.tapWrite_keeps
    | with_reducible apply Keeps.ite
    | split
    | dsimp only [id]
    | simp only [Keeps.upd])

theorem State.tapRingCoded_keeps {kl kf : Bool} {kb : State} (s : State) (r : Nat) (tap : Nat) (f : Frame) (d : Bytes) (depth : Nat) (buf : Nat) (ls : List (Nat × Nat × Bytes))
    (hk : Keeps kl kf kb s) : Keeps kl kf kb (State.tapRingCoded s r tap f d depth buf ls) := by
  unfold State.tapRingCoded
  repeat' (first
    | intro _
    | with_reducible assumption
    | with_reducible apply Keeps.foldl
    | with_reducible apply State.putRawBlock_keeps
    | with_reducible apply Keeps.ite
    | split
    | dsimp only [id]
    | simp only [Keeps.upd])

theorem State.tapRing_keeps {kl kf : Bool} {kb : State} (s : State) (r : Nat) (tap : Nat) (f : Frame) (d : Bytes) (depth : Nat) (buf : Nat) (ls : List (Nat × Nat × Bytes))
    (hk : Keeps kl kf kb s) : Keeps kl kf kb (State.tapRing s r tap f d depth buf ls) := by
  unfold State.tapRing
  repeat' (first
    | intro _
    | with_reducible assumption
    | with_reducible apply Keeps.foldl
    | with_reducible apply State.tapRingCoded_keeps
    | with_reducible apply State.tapWrite_keeps
    | with_reducible apply Keeps.ite
    | split)

theorem State.egressEnd_keeps {kl kf : Bool} {kb : State} (s : State) (port : Nat) (vc : Nat) (no : Nat)
    (hk : Keeps kl kf kb s) : Keeps kl kf kb (State.egressEnd s port vc no) := by
  unfold State.egressEnd
  repeat' (first
    | intro _
    | with_reducible assumption
    | with_reducible apply State.emit_keeps
    | with_reducible apply Keeps.ite
    | split
    | dsimp only [id]
    | simp only [Keeps.upd])

theorem State.tapEgressOut_keeps {kl kf : Bool} {kb : State} (s : State) (c : Nat) (f : Frame) (r : Nat) (tap : Nat) (d : Bytes) (g : Nat) (last : Bool) (trunc : EgressCut) (ls : List (Nat × Nat × Bytes))
    (hk : Keeps kl kf kb s) : Keeps kl kf kb (State.tapEgressOut s c f r tap d g last trunc ls) := by
  unfold State.tapEgressOut
  repeat' (first
    | intro _
    | with_reducible assumption
    | with_reducible apply Keeps.foldl
    | with_reducible apply State.egressEnd_keeps
    | with_reducible apply State.emit_keeps
    | with_reducible apply State.event_keeps
    | with_reducible apply Keeps.ite
    | split
    | dsimp only [id]
    | simp only [Keeps.upd, State.modRfe])

theorem tapWriteEffect_keeps {kl kf : Bool} {kb : State} (t : Nat) (r : Nat) (tap : Nat) (bad : List Nat) (trunc : EgressCut) (s0 : State)
    (hk : Keeps kl kf kb (s0.at t)) : Keeps kl kf kb (tapWriteEffect t r tap bad trunc s0) := by
  unfold tapWriteEffect
  repeat' (first
    | intro _
    | with_reducible assumption
    | with_reducible apply State.failRfe_keeps
    | with_reducible apply State.offerUnits_keeps
    | with_reducible apply State.reportUnits_keeps
    | with_reducible apply State.sourceEvent_keeps
    | with_reducible apply State.tapEgressOut_keeps
    | with_reducible apply State.tapRing_keeps
    | with_reducible apply Keeps.ite
    | split
    | dsimp only [id]
    | simp only [Keeps.upd, State.modCam, State.modRfe])

theorem execTapRowGroupWrite_keeps {kl kf : Bool} (t : Nat) (r : Nat) (tap : Nat) (bad : List Nat) (trunc : EgressCut) (s : State) :
    ∃ s1, execTapRowGroupWrite t r tap bad trunc s = .next s1 ∧ Keeps kl kf (s.at t) s1 := by
  refine ⟨_, rfl, ?_⟩
  repeat' (first
    | intro _
    | (with_reducible first | exact Keeps.refl _ _ _ | assumption)
    | with_reducible apply tapWriteEffect_keeps)

theorem State.ringLoss_keeps {kl kf : Bool} {kb : State} (s : State) (r : Nat) (lost : Bool)
    (hk : Keeps kl kf kb s) : Keeps kl kf kb (State.ringLoss s r lost) := by
  unfold State.ringLoss
  repeat' (first
    | intro _
    | with_reducible assumption
    | with_reducible apply State.note_keeps
    | with_reducible apply Keeps.ite
    | simp only [Keeps.upd, State.modRfe])

theorem statsEffect_keeps {kl kf : Bool} {kb : State} (t : Nat) (r : Nat) (s0 : State)
    (hk : Keeps kl kf kb (s0.at t)) : Keeps kl kf kb (statsEffect t r s0) := by
  unfold statsEffect
  repeat' (first
    | intro _
    | with_reducible assumption
    | with_reducible apply State.record_keeps
    | with_reducible apply State.ringLoss_keeps
    | with_reducible apply State.sourceEvent_keeps
    | with_reducible apply Keeps.ite
    | split
    | dsimp only [id]
    | simp only [Keeps.upd, State.modCam, State.modRfe])

theorem execStatsBlockComplete_keeps {kl kf : Bool} (t : Nat) (r : Nat) (s : State) :
    ∃ s1, execStatsBlockComplete t r s = .next s1 ∧ Keeps kl kf (s.at t) s1 := by
  refine ⟨_, rfl, ?_⟩
  repeat' (first
    | intro _
    | (with_reducible first | exact Keeps.refl _ _ _ | assumption)
    | with_reducible apply statsEffect_keeps)

theorem State.reportFrame_keeps {kl kf : Bool} {kb : State} (s : State) (f : Frame)
    (hk : Keeps kl kf kb s) : Keeps kl kf kb (State.reportFrame s f) := by
  unfold State.reportFrame
  repeat' (first
    | intro _
    | with_reducible assumption
    | with_reducible apply Keeps.foldl
    | with_reducible apply State.reportUnits_keeps
    | with_reducible apply Keeps.ite
    | split
    | dsimp only [id]
    | simp only [Keeps.upd])

theorem State.statsFlags_keeps {kl kf : Bool} {kb : State} (s : State) (f : Frame)
    (hk : Keeps kl kf kb s) : Keeps kl kf kb (State.statsFlags s f) := by
  unfold State.statsFlags
  repeat' (first
    | intro _
    | with_reducible assumption
    | with_reducible apply State.record_keeps
    | with_reducible apply Keeps.ite
    | split
    | dsimp only [id]
    | simp only [Keeps.upd])

theorem metadataEffect_keeps {kl kf : Bool} {kb : State} (t : Nat) (r : Nat) (s0 : State)
    (hk : Keeps kl kf kb (s0.at t)) : Keeps kl kf kb (metadataEffect t r s0) := by
  unfold metadataEffect
  repeat' (first
    | intro _
    | with_reducible assumption
    | with_reducible apply State.endCam_keeps
    | with_reducible apply State.endNet_keeps
    | with_reducible apply State.failRfe_keeps
    | with_reducible apply State.gateUnused_keeps
    | with_reducible apply State.record_keeps
    | with_reducible apply State.reportFrame_keeps
    | with_reducible apply State.ringLoss_keeps
    | with_reducible apply State.sourceEvent_keeps
    | with_reducible apply State.statsFlags_keeps
    | with_reducible apply Keeps.ite
    | split
    | dsimp only [id]
    | simp only [Keeps.upd, State.modCam, State.modRfe])

theorem execMetadataRecordWrite_keeps {kl kf : Bool} (t : Nat) (r : Nat) (s : State) :
    ∃ s1, execMetadataRecordWrite t r s = .next s1 ∧ Keeps kl kf (s.at t) s1 := by
  refine ⟨_, rfl, ?_⟩
  repeat' (first
    | intro _
    | (with_reducible first | exact Keeps.refl _ _ _ | assumption)
    | with_reducible apply metadataEffect_keeps)

end Sys2Proof.Machine
end

