-- ==== Sys2Proof/Laws/Keeps/Admit.lean ====
section
/-! SUPPORT. What the operations of Machine/Admit.lean leave alone. -/
namespace Sys2Proof.Machine
open Sys2Proof
set_option linter.unusedSimpArgs false

theorem State.zeroFlags_keeps {kl kf : Bool} {kb : State} (s : State) (p : AdmitPlan)
    (hk : Keeps kl kf kb s) : Keeps kl kf kb (State.zeroFlags s p) := by
  unfold State.zeroFlags
  repeat' (first
    | intro _
    | with_reducible assumption
    | with_reducible apply Keeps.foldl
    | with_reducible apply State.poke_keeps
    | with_reducible apply Keeps.ite)

theorem State.openGroup_keeps {kl kf : Bool} {kb : State} (s : State) (graph : Nat) (k : Nat) (d : Bytes)
    (hk : Keeps kl kf kb s) : Keeps kl kf kb (State.openGroup s graph k d) := by
  unfold State.openGroup
  repeat' (first
    | intro _
    | with_reducible assumption
    | with_reducible apply Keeps.foldl
    | with_reducible apply State.setBeacon_keeps
    | with_reducible apply Keeps.ite
    | split
    | dsimp only [id]
    | simp only [Keeps.upd, State.modBf])

theorem State.install_keeps {kl kf : Bool} {kb : State} (s : State) (p : AdmitPlan) (id : Nat)
    (hk : Keeps kl kf kb s) : Keeps kl kf kb (State.install s p id) := by
  unfold State.install
  repeat' (first
    | intro _
    | with_reducible assumption
    | with_reducible apply Keeps.foldl
    | with_reducible apply State.openGroup_keeps
    | with_reducible apply State.setBeacon_keeps
    | with_reducible apply State.zeroFlags_keeps
    | with_reducible apply Keeps.ite
    | split
    | dsimp only [id]
    | simp only [Keeps.upd, State.modBf, State.modVis])

theorem State.answerAdmit_keeps {kl kf : Bool} {kb : State} (s : State) (pair : Nat) (v : AdmitVerdict) (id : Nat) (p : AdmitPlan)
    (hk : Keeps kl kf kb s) : Keeps kl kf kb (State.answerAdmit s pair v id p) := by
  unfold State.answerAdmit
  repeat' (first
    | intro _
    | with_reducible assumption
    | with_reducible apply State.freeBytes_keeps
    | with_reducible apply State.respond_keeps
    | with_reducible apply Keeps.ite
    | split)

theorem State.finishAdmit_keeps {kl kf : Bool} {kb : State} (s : State) (pair : Nat) (r : AdmitPlan × AdmitVerdict) (id : Nat) (after : State → State) (h_after : ∀ (a0 : State), Keeps kl kf kb a0 → Keeps kl kf kb (after a0))
    (hk : Keeps kl kf kb s) : Keeps kl kf kb (State.finishAdmit s pair r id after) := by
  unfold State.finishAdmit
  repeat' (first
    | intro _
    | with_reducible assumption
    | with_reducible apply State.answerAdmit_keeps
    | with_reducible apply State.beginUngate_keeps
    | with_reducible apply State.install_keeps
    | with_reducible apply h_after
    | with_reducible apply Keeps.ite)

theorem graphAdmitEffect_keeps {kl kf : Bool} {kb : State} (t : Nat) (p : Nat) (image : GraphImage) (s0 : State)
    (hk : Keeps kl kf kb (s0.at t)) : Keeps kl kf kb (graphAdmitEffect t p image s0) := by
  unfold graphAdmitEffect
  repeat' (first
    | intro _
    | with_reducible assumption
    | with_reducible apply State.answer_keeps
    | with_reducible apply State.finishAdmit_keeps
    | with_reducible apply Keeps.ite
    | split
    | dsimp only [id])

theorem execGraphAdmit_keeps {kl kf : Bool} (t : Nat) (p : Nat) (image : GraphImage) (s : State) :
    ∃ s1, execGraphAdmit t p image s = .next s1 ∧ Keeps kl kf (s.at t) s1 := by
  refine ⟨_, rfl, ?_⟩
  repeat' (first
    | intro _
    | (with_reducible first | exact Keeps.refl _ _ _ | assumption)
    | with_reducible apply graphAdmitEffect_keeps)

theorem graphParkEffect_keeps {kl kf : Bool} {kb : State} (t : Nat) (p : Nat) (hostFail : Bool) (s0 : State)
    (hk : Keeps kl kf kb (s0.at t)) : Keeps kl kf kb (graphParkEffect t p hostFail s0) := by
  unfold graphParkEffect
  repeat' (first
    | intro _
    | with_reducible assumption
    | with_reducible apply State.answer_keeps
    | with_reducible apply State.evictGraph_keeps
    | with_reducible apply State.gateUnused_keeps
    | with_reducible apply State.startReq_keeps
    | with_reducible apply Keeps.ite
    | split
    | dsimp only [id]
    | simp only [Keeps.upd, State.modBf, State.modGraph])

theorem execGraphPark_keeps {kl kf : Bool} (t : Nat) (p : HostSave) (s : State) :
    ∃ s1, execGraphPark t p s = .next s1 ∧ Keeps kl kf (s.at t) s1 := by
  refine ⟨_, rfl, ?_⟩
  repeat' (first
    | intro _
    | (with_reducible first | exact Keeps.refl _ _ _ | assumption)
    | with_reducible apply graphParkEffect_keeps)

theorem State.restoreValues_keeps {kl kf : Bool} {kb : State} (s : State) (g : GraphImage) (saved : Bytes)
    (hk : Keeps kl kf kb s) : Keeps kl kf kb (State.restoreValues s g saved) := by
  unfold State.restoreValues
  repeat' (first
    | intro _
    | with_reducible assumption
    | with_reducible apply Keeps.foldl
    | with_reducible apply State.setBeacon_keeps)

theorem graphRestoreEffect_keeps {kl kf : Bool} {kb : State} (t : Nat) (p : Nat) (s0 : State)
    (hk : Keeps kl kf kb (s0.at t)) : Keeps kl kf kb (graphRestoreEffect t p s0) := by
  unfold graphRestoreEffect
  repeat' (first
    | intro _
    | with_reducible assumption
    | with_reducible apply State.answer_keeps
    | with_reducible apply State.answerAdmit_keeps
    | with_reducible apply State.finishAdmit_keeps
    | with_reducible apply State.read_keeps
    | with_reducible apply State.restoreValues_keeps
    | with_reducible apply Keeps.ite
    | split
    | dsimp only [id]
    | simp only [Keeps.upd, State.modBf, State.modGraph])

theorem execGraphRestore_keeps {kl kf : Bool} (t : Nat) (p : Nat) (s : State) :
    ∃ s1, execGraphRestore t p s = .next s1 ∧ Keeps kl kf (s.at t) s1 := by
  refine ⟨_, rfl, ?_⟩
  repeat' (first
    | intro _
    | (with_reducible first | exact Keeps.refl _ _ _ | assumption)
    | with_reducible apply graphRestoreEffect_keeps)

theorem graphStopEffect_keeps {kl kf : Bool} {kb : State} (t : Nat) (p : Nat) (s0 : State)
    (hk : Keeps kl kf kb (s0.at t)) : Keeps kl kf kb (graphStopEffect t p s0) := by
  unfold graphStopEffect
  repeat' (first
    | intro _
    | with_reducible assumption
    | with_reducible apply State.answer_keeps
    | with_reducible apply State.cancelGraph_keeps
    | with_reducible apply State.gateUnused_keeps
    | with_reducible apply State.removeGraph_keeps
    | with_reducible apply State.startReq_keeps
    | with_reducible apply Keeps.ite
    | split
    | dsimp only [id]
    | simp only [Keeps.upd, State.modBf, State.modGraph])

theorem execGraphStop_keeps {kl kf : Bool} (t : Nat) (p : Nat) (s : State) :
    ∃ s1, execGraphStop t p s = .next s1 ∧ Keeps kl kf (s.at t) s1 := by
  refine ⟨_, rfl, ?_⟩
  repeat' (first
    | intro _
    | (with_reducible first | exact Keeps.refl _ _ _ | assumption)
    | with_reducible apply graphStopEffect_keeps)

end Sys2Proof.Machine
end

