-- ==== Sys2Proof/Laws/Keeps/Resets.lean ====
section
/-! SUPPORT. What the operations of Machine/Resets.lean leave alone. -/
namespace Sys2Proof.Machine
open Sys2Proof
set_option linter.unusedSimpArgs false

theorem State.setReload_keeps {kl kf : Bool} {kb : State} (s : State)
    (hk : Keeps kl kf kb s) : Keeps kl kf kb (State.setReload s) := by
  unfold State.setReload
  repeat' (first
    | intro _
    | with_reducible assumption
    | with_reducible apply Keeps.ite
    | split
    | dsimp only [id]
    | simp only [Keeps.upd])

theorem State.beginFlash_keeps {kl kf : Bool} {kb : State} (s : State)
    (hk : Keeps kl kf kb s) : Keeps kl kf kb (State.beginFlash s) := by
  unfold State.beginFlash
  repeat' (first
    | intro _
    | with_reducible assumption
    | with_reducible apply State.setReload_keeps
    | with_reducible apply Keeps.ite
    | split
    | dsimp only [id]
    | simp only [Keeps.upd])

theorem Clock.afterReset_timebase (c : Clock) (k : ResetKind) : (c.afterReset k).timebase = c.timebase := by
  unfold Clock.afterReset
  repeat' (first
    | rfl
    | split)

theorem State.resetTo_keeps {kl kf : Bool} {kb : State} (s : State) (k : ResetKind) (cause : Nat) (hk : Keeps kl kf kb s) :
    Keeps kl kf kb (State.resetTo s k cause) := by
  refine hk.trans (Keeps.store (Clock.afterReset_timebase _ _) (fun h => ?_) id)
  dsimp only
  split
  · rfl
  · exact h

theorem State.hold_keeps {kl kf : Bool} {kb : State} (s : State) (h : ResetHold)
    (hk : Keeps kl kf kb s) : Keeps kl kf kb (State.hold s h) := by
  unfold State.hold
  repeat' (first
    | intro _
    | with_reducible assumption
    | with_reducible apply Keeps.ite
    | split
    | dsimp only [id]
    | simp only [Keeps.upd])

theorem State.bootNote_keeps {kl kf : Bool} {kb : State} (s : State) (status : Nat)
    (hk : Keeps kl kf kb s) : Keeps kl kf kb (State.bootNote s status) := by
  unfold State.bootNote
  repeat' (first
    | intro _
    | with_reducible assumption
    | with_reducible apply Keeps.ite
    | split
    | dsimp only [id]
    | simp only [Keeps.upd])

theorem State.readRetention_keeps {kl kf : Bool} {kb : State} (s : State) (lo : Nat) (hi : Nat)
    (hk : Keeps kl kf kb s) : Keeps kl kf kb (State.readRetention s lo hi) := by
  unfold State.readRetention
  repeat' (first
    | intro _
    | with_reducible assumption
    | with_reducible apply Keeps.foldl
    | with_reducible apply State.logError_keeps
    | with_reducible apply Keeps.ite
    | split
    | dsimp only [id]
    | simp only [Keeps.upd])

theorem State.startBoot_keeps {kl kf : Bool} {kb : State} (s : State)
    (hk : Keeps kl kf kb s) : Keeps kl kf kb (State.startBoot s) := by
  unfold State.startBoot
  repeat' (first
    | intro _
    | with_reducible assumption
    | with_reducible apply Keeps.ite
    | split
    | dsimp only [id]
    | simp only [Keeps.upd])

theorem State.release_keeps {kl kf : Bool} {kb : State} (s : State) (h : ResetHold)
    (hk : Keeps kl kf kb s) : Keeps kl kf kb (State.release s h) := by
  unfold State.release
  repeat' (first
    | intro _
    | with_reducible assumption
    | with_reducible apply State.startBoot_keeps
    | with_reducible apply Keeps.ite
    | split
    | dsimp only [id]
    | simp only [Keeps.upd])

theorem execPowerOnReset_keeps {kl kf : Bool} (t : Nat) (s : State) :
    ∃ s1, execPowerOnReset t s = .next s1 ∧ Keeps kl kf (s.at t) s1 := by
  refine ⟨_, rfl, ?_⟩
  repeat' (first
    | intro _
    | (with_reducible first | exact Keeps.refl _ _ _ | assumption)
    | with_reducible apply State.resetTo_keeps)

theorem execResetNAssert_keeps {kl kf : Bool} (t : Nat) (s : State) :
    ∃ s1, execResetNAssert t s = .next s1 ∧ Keeps kl kf (s.at t) s1 := by
  refine ⟨_, rfl, ?_⟩
  repeat' (first
    | intro _
    | (with_reducible first | exact Keeps.refl _ _ _ | assumption)
    | with_reducible apply State.hold_keeps
    | with_reducible apply State.resetTo_keeps)

theorem execPerstNAssert_keeps {kl kf : Bool} (t : Nat) (s : State) :
    ∃ s1, execPerstNAssert t s = .next s1 ∧ Keeps kl kf (s.at t) s1 := by
  refine ⟨_, rfl, ?_⟩
  repeat' (first
    | intro _
    | (with_reducible first | exact Keeps.refl _ _ _ | assumption)
    | with_reducible apply State.hold_keeps
    | with_reducible apply State.resetTo_keeps)

theorem resetReleaseEffect_keeps {kl kf : Bool} {kb : State} (t : Nat) (s0 : State)
    (hk : Keeps kl kf kb (s0.at t)) : Keeps kl kf kb (resetReleaseEffect t s0) := by
  unfold resetReleaseEffect
  repeat' (first
    | intro _
    | with_reducible assumption
    | with_reducible apply State.release_keeps
    | with_reducible apply Keeps.ite
    | split
    | dsimp only [id]
    | simp only [Keeps.upd])

theorem execResetRelease_keeps {kl kf : Bool} (t : Nat) (s : State) :
    ∃ s1, execResetRelease t s = .next s1 ∧ Keeps kl kf (s.at t) s1 := by
  refine ⟨_, rfl, ?_⟩
  repeat' (first
    | intro _
    | (with_reducible first | exact Keeps.refl _ _ _ | assumption)
    | with_reducible apply resetReleaseEffect_keeps)

theorem execSupplyFailure_keeps {kl kf : Bool} (t : Nat) (s : State) :
    ∃ s1, execSupplyFailure t s = .next s1 ∧ Keeps kl kf (s.at t) s1 := by
  refine ⟨_, rfl, ?_⟩
  repeat' (first
    | intro _
    | (with_reducible first | exact Keeps.refl _ _ _ | assumption)
    | with_reducible apply State.bootNote_keeps
    | with_reducible apply State.hold_keeps
    | with_reducible apply State.resetTo_keeps)

theorem execSupplyRestore_keeps {kl kf : Bool} (t : Nat) (s : State) :
    ∃ s1, execSupplyRestore t s = .next s1 ∧ Keeps kl kf (s.at t) s1 := by
  refine ⟨_, rfl, ?_⟩
  repeat' (first
    | intro _
    | (with_reducible first | exact Keeps.refl _ _ _ | assumption)
    | with_reducible apply State.release_keeps)

theorem execRefclkSysLoss_keeps {kl kf : Bool} (t : Nat) (s : State) :
    ∃ s1, execRefclkSysLoss t s = .next s1 ∧ Keeps kl kf (s.at t) s1 := by
  refine ⟨_, rfl, ?_⟩
  repeat' (first
    | intro _
    | (with_reducible first | exact Keeps.refl _ _ _ | assumption)
    | with_reducible apply State.bootNote_keeps
    | with_reducible apply State.hold_keeps
    | with_reducible apply State.resetTo_keeps)

theorem execRefclkSysRestore_keeps {kl kf : Bool} (t : Nat) (s : State) :
    ∃ s1, execRefclkSysRestore t s = .next s1 ∧ Keeps kl kf (s.at t) s1 := by
  refine ⟨_, rfl, ?_⟩
  repeat' (first
    | intro _
    | (with_reducible first | exact Keeps.refl _ _ _ | assumption)
    | with_reducible apply State.release_keeps)

theorem execWatchtowerWatchdogExpiry_keeps {kl kf : Bool} (t : Nat) (s : State) :
    ∃ s1, execWatchtowerWatchdogExpiry t s = .next s1 ∧ Keeps kl kf (s.at t) s1 := by
  refine ⟨_, rfl, ?_⟩
  repeat' (first
    | intro _
    | (with_reducible first | exact Keeps.refl _ _ _ | assumption)
    | with_reducible apply State.bootNote_keeps
    | with_reducible apply State.resetTo_keeps
    | with_reducible apply State.startBoot_keeps
    | with_reducible apply Keeps.ite)

theorem lockstepMismatchEffect_keeps {kl kf : Bool} {kb : State} (t : Nat) (s0 : State)
    (hk : Keeps kl kf kb (s0.at t)) : Keeps kl kf kb (lockstepMismatchEffect t s0) := by
  unfold lockstepMismatchEffect
  repeat' (first
    | intro _
    | with_reducible assumption
    | with_reducible apply State.bootNote_keeps
    | with_reducible apply State.fatal_keeps
    | with_reducible apply Keeps.ite
    | split
    | dsimp only [id]
    | simp only [Keeps.upd])

theorem execWatchtowerLockstepMismatch_keeps {kl kf : Bool} (t : Nat) (s : State) :
    ∃ s1, execWatchtowerLockstepMismatch t s = .next s1 ∧ Keeps kl kf (s.at t) s1 := by
  refine ⟨_, rfl, ?_⟩
  repeat' (first
    | intro _
    | (with_reducible first | exact Keeps.refl _ _ _ | assumption)
    | with_reducible apply lockstepMismatchEffect_keeps)

theorem State.resetLinked_keeps {kl kf : Bool} {kb : State} (s : State) (k : ResetKind) (cause : Nat)
    (hk : Keeps kl kf kb s) : Keeps kl kf kb (State.resetLinked s k cause) := by
  unfold State.resetLinked
  repeat' (first
    | intro _
    | with_reducible assumption
    | with_reducible apply State.event_keeps
    | with_reducible apply State.resetTo_keeps
    | with_reducible apply Keeps.ite
    | split
    | dsimp only [id]
    | simp only [Keeps.upd])

theorem State.warmReset_keeps {kl kf : Bool} {kb : State} (s : State)
    (hk : Keeps kl kf kb s) : Keeps kl kf kb (State.warmReset s) := by
  unfold State.warmReset
  repeat' (first
    | intro _
    | with_reducible assumption
    | with_reducible apply State.resetLinked_keeps)

theorem execFunctionLevelReset_keeps {kl kf : Bool} (t : Nat) (s : State) :
    ∃ s1, execFunctionLevelReset t s = .next s1 ∧ Keeps kl kf (s.at t) s1 := by
  refine ⟨_, rfl, ?_⟩
  repeat' (first
    | intro _
    | (with_reducible first | exact Keeps.refl _ _ _ | assumption)
    | with_reducible apply State.warmReset_keeps
    | with_reducible apply Keeps.ite)

theorem State.resetReq_keeps {kl kf : Bool} {kb : State} (s : State) (p : Nat) (kind : Nat) (f : State → State) (h_f : ∀ (a0 : State), Keeps kl kf kb a0 → Keeps kl kf kb (f a0))
    (hk : Keeps kl kf kb s) : Keeps kl kf kb (State.resetReq s p kind f) := by
  unfold State.resetReq
  repeat' (first
    | intro _
    | with_reducible assumption
    | with_reducible apply State.answer_keeps
    | with_reducible apply h_f
    | with_reducible apply Keeps.ite
    | split)

theorem execResetFull_keeps {kl kf : Bool} (t : Nat) (p : Nat) (s : State) :
    ∃ s1, execResetFull t p s = .next s1 ∧ Keeps kl kf (s.at t) s1 := by
  refine ⟨_, rfl, ?_⟩
  repeat' (first
    | intro _
    | (with_reducible first | exact Keeps.refl _ _ _ | assumption)
    | with_reducible apply State.resetLinked_keeps
    | with_reducible apply State.resetReq_keeps
    | with_reducible apply State.startBoot_keeps)

theorem execResetWarm_keeps {kl kf : Bool} (t : Nat) (p : Nat) (s : State) :
    ∃ s1, execResetWarm t p s = .next s1 ∧ Keeps kl kf (s.at t) s1 := by
  refine ⟨_, rfl, ?_⟩
  repeat' (first
    | intro _
    | (with_reducible first | exact Keeps.refl _ _ _ | assumption)
    | with_reducible apply State.resetReq_keeps
    | with_reducible apply State.warmReset_keeps)

end Sys2Proof.Machine
end

