-- ==== Sys2Proof/Laws/Keeps/SelfTest.lean ====
section
/-! SUPPORT. What the operations of Machine/SelfTest.lean leave alone. -/
namespace Sys2Proof.Machine
open Sys2Proof
set_option linter.unusedSimpArgs false

theorem State.setTest_keeps {kl kf : Bool} {kb : State} (s : State) (r : ArrayRef) (v : TestView)
    (hk : Keeps kl kf kb s) : Keeps kl kf kb (State.setTest s r v) := by
  unfold State.setTest
  repeat' (first
    | intro _
    | with_reducible assumption
    | with_reducible apply Keeps.ite
    | split
    | dsimp only [id]
    | simp only [Keeps.upd, State.modSne, State.modSpc])

theorem State.loseTested_keeps {kl kf : Bool} {kb : State} (s : State) (y0 : ArrayRef)
    (hk : Keeps kl kf kb s) : Keeps kl kf kb (State.loseTested s y0) := by
  unfold State.loseTested
  repeat' (first
    | intro _
    | with_reducible assumption
    | with_reducible apply State.loseArray_keeps
    | with_reducible apply State.retireCore_keeps
    | with_reducible apply Keeps.ite
    | split)

theorem State.answerTested_keeps {kl kf : Bool} {kb : State} (s : State) (v : TestView) (outcome : Nat)
    (hk : Keeps kl kf kb s) : Keeps kl kf kb (State.answerTested s v outcome) := by
  unfold State.answerTested
  repeat' (first
    | intro _
    | with_reducible assumption
    | with_reducible apply State.answerTest_keeps
    | with_reducible apply Keeps.ite
    | split)

theorem State.beginTest_keeps {kl kf : Bool} {kb : State} (s : State) (r : ArrayRef) (pair : Option Nat)
    (hk : Keeps kl kf kb s) : Keeps kl kf kb (State.beginTest s r pair) := by
  unfold State.beginTest
  repeat' (first
    | intro _
    | with_reducible assumption
    | with_reducible apply State.setTest_keeps
    | with_reducible apply State.updateHealth_keeps)

theorem State.openFor_keeps {kl kf : Bool} {kb : State} (s : State) (us : List GateUnit)
    (hk : Keeps kl kf kb s) : Keeps kl kf kb (State.openFor s us).2 := by
  unfold State.openFor
  repeat' (first
    | intro _
    | with_reducible assumption
    | with_reducible apply State.beginUngate_keeps
    | with_reducible apply Keeps.ite
    | split)

theorem State.rowFailed_keeps {kl kf : Bool} {kb : State} (s : State) (r : ArrayRef) (v : TestView) (row : Nat)
    (hk : Keeps kl kf kb s) : Keeps kl kf kb (State.rowFailed s r v row) := by
  unfold State.rowFailed
  repeat' (first
    | intro _
    | with_reducible assumption
    | with_reducible apply State.answerTested_keeps
    | with_reducible apply State.loseTested_keeps
    | with_reducible apply State.setTest_keeps
    | with_reducible apply Keeps.ite)

theorem arrayTestDone_keeps {kl kf : Bool} {kb : State} (t : Nat) (r : ArrayRef) (o : SelfTest) (s0 : State)
    (hk : Keeps kl kf kb (s0.at t)) : Keeps kl kf kb (arrayTestDone t r o s0) := by
  unfold arrayTestDone
  repeat' (first
    | intro _
    | with_reducible assumption
    | with_reducible apply State.answerTested_keeps
    | with_reducible apply State.gateUnused_keeps
    | with_reducible apply State.loseTested_keeps
    | with_reducible apply State.rowFailed_keeps
    | with_reducible apply State.setTest_keeps
    | with_reducible apply State.unitFault_keeps
    | with_reducible apply State.updateHealth_keeps
    | with_reducible apply Keeps.ite
    | split)

theorem execArraySelftestComplete_keeps {kl kf : Bool} (t : Nat) (a : ArrayRef) (r : SelfTest) (s : State) :
    ∃ s1, execArraySelftestComplete t a r s = .next s1 ∧ Keeps kl kf (s.at t) s1 := by
  refine ⟨_, rfl, ?_⟩
  repeat' (first
    | intro _
    | (with_reducible first | exact Keeps.refl _ _ _ | assumption)
    | with_reducible apply arrayTestDone_keeps)

theorem State.countSwitch_keeps {kl kf : Bool} {kb : State} (s : State) (y0 : ArrayRef)
    (hk : Keeps kl kf kb s) : Keeps kl kf kb (State.countSwitch s y0) := by
  unfold State.countSwitch
  repeat' (first
    | intro _
    | with_reducible assumption
    | with_reducible apply State.note_keeps
    | with_reducible apply Keeps.ite
    | split
    | dsimp only [id]
    | simp only [Keeps.upd, State.modSpc])

theorem spareSwitchEffect_keeps {kl kf : Bool} {kb : State} (t : Nat) (r : ArrayRef) (s0 : State)
    (hk : Keeps kl kf kb (s0.at t)) : Keeps kl kf kb (spareSwitchEffect t r s0) := by
  unfold spareSwitchEffect
  repeat' (first
    | intro _
    | with_reducible assumption
    | with_reducible apply State.answerTested_keeps
    | with_reducible apply State.countSwitch_keeps
    | with_reducible apply State.gateUnused_keeps
    | with_reducible apply State.setTest_keeps
    | with_reducible apply State.updateHealth_keeps
    | with_reducible apply Keeps.ite
    | split
    | dsimp only [id]
    | simp only [Keeps.upd])

theorem execSpareRowSwitch_keeps {kl kf : Bool} (t : Nat) (a : ArrayRef) (s : State) :
    ∃ s1, execSpareRowSwitch t a s = .next s1 ∧ Keeps kl kf (s.at t) s1 := by
  refine ⟨_, rfl, ?_⟩
  repeat' (first
    | intro _
    | (with_reducible first | exact Keeps.refl _ _ _ | assumption)
    | with_reducible apply spareSwitchEffect_keeps)

theorem periodicTestEffect_keeps {kl kf : Bool} {kb : State} (t : Nat) (r : ArrayRef) (s0 : State)
    (hk : Keeps kl kf kb (s0.at t)) : Keeps kl kf kb (periodicTestEffect t r s0) := by
  unfold periodicTestEffect
  repeat' (first
    | intro _
    | with_reducible assumption
    | with_reducible apply State.beginTest_keeps
    | with_reducible apply State.openFor_keeps
    | with_reducible apply Keeps.ite)

theorem execPeriodicSelftest_keeps {kl kf : Bool} (t : Nat) (a : ArrayRef) (s : State) :
    ∃ s1, execPeriodicSelftest t a s = .next s1 ∧ Keeps kl kf (s.at t) s1 := by
  refine ⟨_, rfl, ?_⟩
  repeat' (first
    | intro _
    | (with_reducible first | exact Keeps.refl _ _ _ | assumption)
    | with_reducible apply periodicTestEffect_keeps)

end Sys2Proof.Machine
end

