-- ==== Sys2Proof/Laws/Keeps/Boot.lean ====
section
/-! SUPPORT. What the operations of Machine/Boot.lean leave alone. -/
namespace Sys2Proof.Machine
open Sys2Proof
set_option linter.unusedSimpArgs false

theorem State.copyRetention_keeps {kl kf : Bool} {kb : State} (s0 : State)
    (hk : Keeps kl kf kb s0) : Keeps kl kf kb (State.copyRetention s0) := by
  unfold State.copyRetention
  repeat' (first
    | intro _
    | with_reducible assumption
    | with_reducible apply Keeps.foldl
    | with_reducible apply State.note_keeps
    | with_reducible apply State.readRetention_keeps
    | with_reducible apply Keeps.ite
    | split
    | dsimp only [id]
    | simp only [Keeps.upd])

theorem State.startImage_keeps {kl kf : Bool} {kb : State} (s : State) (k : Nat) (b : Bytes)
    (hk : Keeps kl kf kb s) : Keeps kl kf kb (State.startImage s k b) := by
  unfold State.startImage
  repeat' (first
    | intro _
    | with_reducible assumption
    | with_reducible apply State.copyRetention_keeps
    | with_reducible apply State.fatal_keeps
    | with_reducible apply State.setReload_keeps
    | with_reducible apply Keeps.ite
    | split
    | dsimp only [id]
    | simp only [Keeps.upd])

theorem State.enterRecovery_keeps {kl kf : Bool} {kb : State} (s : State)
    (hk : Keeps kl kf kb s) : Keeps kl kf kb (State.enterRecovery s) := by
  unfold State.enterRecovery
  repeat' (first
    | intro _
    | with_reducible assumption
    | with_reducible apply State.copyRetention_keeps
    | with_reducible apply State.event_keeps
    | with_reducible apply State.serveHeld_keeps
    | with_reducible apply Keeps.ite
    | split
    | dsimp only [id]
    | simp only [Keeps.upd])

theorem bootVerifiedEffect_keeps {kl kf : Bool} {kb : State} (t : Nat) (s0 : State)
    (hk : Keeps kl kf kb (s0.at t)) : Keeps kl kf kb (bootVerifiedEffect t s0) := by
  unfold bootVerifiedEffect
  repeat' (first
    | intro _
    | with_reducible assumption
    | with_reducible apply State.bootNote_keeps
    | with_reducible apply State.enterRecovery_keeps
    | with_reducible apply State.startImage_keeps
    | with_reducible apply Keeps.ite
    | split
    | dsimp only [id]
    | simp only [Keeps.upd])

theorem execBootImageVerified_keeps {kl kf : Bool} (t : Nat) (s : State) :
    ∃ s1, execBootImageVerified t s = .next s1 ∧ Keeps kl kf (s.at t) s1 := by
  refine ⟨_, rfl, ?_⟩
  repeat' (first
    | intro _
    | (with_reducible first | exact Keeps.refl _ _ _ | assumption)
    | with_reducible apply bootVerifiedEffect_keeps)

theorem State.applyProfile_keeps {kl kf : Bool} {kb : State} (s : State) (fails : List StartFail)
    (hk : Keeps kl kf kb s) : Keeps kl kf kb (State.applyProfile s fails) := by
  unfold State.applyProfile
  repeat' (first
    | intro _
    | with_reducible assumption
    | with_reducible apply State.note_keeps
    | with_reducible apply Keeps.ite
    | split
    | dsimp only [id]
    | simp only [Keeps.upd])

theorem State.trainMemory_keeps {kl kf : Bool} {kb : State} (s : State) (fails : List StartFail)
    (hk : Keeps kl kf kb s) : Keeps kl kf kb (State.trainMemory s fails) := by
  unfold State.trainMemory
  repeat' (first
    | intro _
    | with_reducible assumption
    | with_reducible apply Keeps.foldl
    | with_reducible apply State.event_keeps
    | with_reducible apply Keeps.ite
    | split
    | dsimp only [id]
    | simp only [Keeps.upd])

/-- The cells that start-up leaves in DRAM are in canonical form. -/
theorem State.freshDram_wf (s : State) : memWf s.freshDram.1 = true := by
  unfold State.freshDram
  split
  · rfl
  · generalize s.mem.cells.filter _ = l
    have key : ∀ (l : List Host.Cell) (acc : List Host.Cell × Nat), memWf acc.1 = true →
        memWf (l.foldl (fun (acc : List Host.Cell × Nat) c => (memSet acc.1 c.1 (Config.freeByte (s.fresh + acc.2)), acc.2 + 1)) acc).1 = true := by
      intro l
      induction l with
      | nil => exact fun _ h => h
      | cons c l ih => exact fun acc h => ih _ (memSet_wf h _ _)
    exact key l ([], 0) rfl

theorem State.zeroMemory_keeps {kl kf : Bool} {kb : State} (s : State) (hk : Keeps kl kf kb s) : Keeps kl kf kb (State.zeroMemory s) :=
  hk.trans (Keeps.store rfl (fun _ => foldl_memSet_wf _ _ _ (State.freshDram_wf s)) id)

theorem State.applyRepairs_keeps {kl kf : Bool} {kb : State} (s : State)
    (hk : Keeps kl kf kb s) : Keeps kl kf kb (State.applyRepairs s) := by
  unfold State.applyRepairs
  repeat' (first
    | intro _
    | with_reducible assumption
    | with_reducible apply Keeps.foldl
    | with_reducible apply State.failSne_keeps
    | with_reducible apply State.note_keeps
    | with_reducible apply Keeps.ite
    | split
    | dsimp only [id]
    | simp only [Keeps.upd])

theorem State.startRow_keeps {kl kf : Bool} {kb : State} (s : State) (r : ArrayRef) (row : Nat) (lose : State → State) (h_lose : ∀ (a0 : State), Keeps kl kf kb a0 → Keeps kl kf kb (lose a0))
    (hk : Keeps kl kf kb s) : Keeps kl kf kb (State.startRow s r row lose) := by
  unfold State.startRow
  repeat' (first
    | intro _
    | with_reducible assumption
    | with_reducible apply State.countSwitch_keeps
    | with_reducible apply State.setTest_keeps
    | with_reducible apply h_lose
    | with_reducible apply Keeps.ite
    | split
    | dsimp only [id]
    | simp only [Keeps.upd])

theorem State.startFail_keeps {kl kf : Bool} {kb : State} (s : State) (f : StartFail)
    (hk : Keeps kl kf kb s) : Keeps kl kf kb (State.startFail s f) := by
  unfold State.startFail
  repeat' (first
    | intro _
    | with_reducible assumption
    | with_reducible apply State.failDma_keeps
    | with_reducible apply State.failSne_keeps
    | with_reducible apply State.fatal_keeps
    | with_reducible apply State.loseArray_keeps
    | with_reducible apply State.loseVision_keeps
    | with_reducible apply State.maskLane_keeps
    | with_reducible apply State.note_keeps
    | with_reducible apply State.retireCore_keeps
    | with_reducible apply State.startRow_keeps
    | with_reducible apply Keeps.ite
    | split)

theorem State.blowFuses_keeps {kl : Bool} {kb : State} (s : State) (hk : Keeps kl false kb s) : Keeps kl false kb (State.blowFuses s) := by
  have blow : ∀ (s : State) (x : Fuses), Keeps kl false kb s → Keeps kl false kb { s with fuses := x } :=
    fun s x h => h.trans ⟨rfl, rfl, rfl, id, fun _ => rfl, fun e => nomatch e⟩
  unfold State.blowFuses
  dsimp only
  split
  · exact hk
  · refine Keeps.foldl ?_ ?_
    · split
      · exact State.note_keeps _ _ _ _ _ (blow _ _ hk)
      · exact hk
    · exact fun s k h => State.note_keeps _ _ _ _ _ (blow _ _ h)

theorem State.enterReady_keeps {kl : Bool} {kb : State} (s : State)
    (hk : Keeps kl false kb s) : Keeps kl false kb (State.enterReady s) := by
  unfold State.enterReady
  repeat' (first
    | intro _
    | with_reducible assumption
    | with_reducible apply State.blowFuses_keeps
    | with_reducible apply State.event_keeps
    | with_reducible apply State.serveHeld_keeps
    | with_reducible apply State.updateHealth_keeps
    | with_reducible apply Keeps.ite
    | split
    | dsimp only [id]
    | simp only [Keeps.upd])

theorem State.backToRecovery_keeps {kl kf : Bool} {kb : State} (s : State)
    (hk : Keeps kl kf kb s) : Keeps kl kf kb (State.backToRecovery s) := by
  unfold State.backToRecovery
  repeat' (first
    | intro _
    | with_reducible assumption
    | with_reducible apply State.event_keeps
    | with_reducible apply State.serveHeld_keeps
    | with_reducible apply Keeps.ite
    | split
    | dsimp only [id]
    | simp only [Keeps.upd])

theorem firmwareReadyEffect_keeps {kl : Bool} {kb : State} (t : Nat) (fails : List StartFail) (s0 : State)
    (hk : Keeps kl false kb (s0.at t)) : Keeps kl false kb (firmwareReadyEffect t fails s0) := by
  unfold firmwareReadyEffect
  repeat' (first
    | intro _
    | with_reducible assumption
    | with_reducible apply Keeps.foldl
    | with_reducible apply State.applyProfile_keeps
    | with_reducible apply State.applyRepairs_keeps
    | with_reducible apply State.backToRecovery_keeps
    | with_reducible apply State.enterReady_keeps
    | with_reducible apply State.fatal_keeps
    | with_reducible apply State.startFail_keeps
    | with_reducible apply State.trainMemory_keeps
    | with_reducible apply State.zeroMemory_keeps
    | with_reducible apply Keeps.ite)

theorem execFirmwareReady_keeps {kl : Bool} (t : Nat) (fails : List StartFail) (s : State) :
    ∃ s1, execFirmwareReady t fails s = .next s1 ∧ Keeps kl false (s.at t) s1 := by
  refine ⟨_, rfl, ?_⟩
  repeat' (first
    | intro _
    | (with_reducible first | exact Keeps.refl _ _ _ | assumption)
    | with_reducible apply firmwareReadyEffect_keeps)

theorem fwWriteEffect_keeps {kl kf : Bool} {kb : State} (t : Nat) (p : Nat) (s0 : State)
    (hk : Keeps kl kf kb (s0.at t)) : Keeps kl kf kb (fwWriteEffect t p s0) := by
  unfold fwWriteEffect
  repeat' (first
    | intro _
    | with_reducible assumption
    | with_reducible apply State.answer_keeps
    | with_reducible apply State.writeRaw_keeps
    | with_reducible apply Keeps.ite
    | split
    | dsimp only [id])

theorem execFwWrite_keeps {kl kf : Bool} (t : Nat) (p : Nat) (s : State) :
    ∃ s1, execFwWrite t p s = .next s1 ∧ Keeps kl kf (s.at t) s1 := by
  refine ⟨_, rfl, ?_⟩
  repeat' (first
    | intro _
    | (with_reducible first | exact Keeps.refl _ _ _ | assumption)
    | with_reducible apply fwWriteEffect_keeps)

theorem State.commitStaged_keeps {kl kf : Bool} {kb : State} (s : State) (p len : Nat) (image : Bytes) (hk : Keeps kl kf kb s) :
    Keeps kl kf kb (State.commitStaged s p len image) := by
  unfold State.commitStaged
  apply State.startBoot_keeps
  apply State.resetLinked_keeps
  apply State.answer_keeps
  exact hk.trans (Keeps.store rfl (fun h => memWrite_wf h _ _) id)

theorem State.commitSlot_keeps {kl kf : Bool} {kb : State} (s : State) (p : Nat) (target : Nat) (image : Bytes)
    (hk : Keeps kl kf kb s) : Keeps kl kf kb (State.commitSlot s p target image) := by
  unfold State.commitSlot
  repeat' (first
    | intro _
    | with_reducible assumption
    | with_reducible apply State.beginFlash_keeps
    | with_reducible apply State.startReq_keeps
    | with_reducible apply Keeps.ite
    | split
    | dsimp only [id]
    | simp only [Keeps.upd])

theorem fwCommitEffect_keeps {kl kf : Bool} {kb : State} (t : Nat) (p : Nat) (s0 : State)
    (hk : Keeps kl kf kb (s0.at t)) : Keeps kl kf kb (fwCommitEffect t p s0) := by
  unfold fwCommitEffect
  repeat' (first
    | intro _
    | with_reducible assumption
    | with_reducible apply State.answer_keeps
    | with_reducible apply State.commitSlot_keeps
    | with_reducible apply State.commitStaged_keeps
    | with_reducible apply Keeps.ite
    | split
    | dsimp only [id])

theorem execFwCommit_keeps {kl kf : Bool} (t : Nat) (p : Nat) (s : State) :
    ∃ s1, execFwCommit t p s = .next s1 ∧ Keeps kl kf (s.at t) s1 := by
  refine ⟨_, rfl, ?_⟩
  repeat' (first
    | intro _
    | (with_reducible first | exact Keeps.refl _ _ _ | assumption)
    | with_reducible apply fwCommitEffect_keeps)

theorem State.endCommit_keeps {kl kf : Bool} {kb : State} (s : State) (p : Option Nat) (target : Nat) (image : Bytes) (ok : Bool)
    (hk : Keeps kl kf kb s) : Keeps kl kf kb (State.endCommit s p target image ok) := by
  unfold State.endCommit
  repeat' (first
    | intro _
    | with_reducible assumption
    | with_reducible apply State.answer_keeps
    | with_reducible apply State.setReload_keeps
    | with_reducible apply Keeps.ite
    | split
    | dsimp only [id]
    | simp only [Keeps.upd])

theorem flashDoneEffect_keeps {kl kf : Bool} {kb : State} (t : Nat) (ok : Bool) (s0 : State)
    (hk : Keeps kl kf kb (s0.at t)) : Keeps kl kf kb (flashDoneEffect t ok s0) := by
  unfold flashDoneEffect
  repeat' (first
    | intro _
    | with_reducible assumption
    | with_reducible apply State.beginFlash_keeps
    | with_reducible apply State.endCommit_keeps
    | with_reducible apply State.record_keeps
    | with_reducible apply Keeps.ite
    | split
    | dsimp only [id]
    | simp only [Keeps.upd])

theorem execFlashWriteComplete_keeps {kl kf : Bool} (t : Nat) (ok : Bool) (s : State) :
    ∃ s1, execFlashWriteComplete t ok s = .next s1 ∧ Keeps kl kf (s.at t) s1 := by
  refine ⟨_, rfl, ?_⟩
  repeat' (first
    | intro _
    | (with_reducible first | exact Keeps.refl _ _ _ | assumption)
    | with_reducible apply flashDoneEffect_keeps)

/-- A JTAG debug command answers a next state unless DEBUG_OPEN is blown. -/
theorem execJtagDebugCommand_keeps {kl kf : Bool} (t : Nat) (s : State) (h : (s.at t).fuses.debugOpen = false) :
    ∃ s1, execJtagDebugCommand t s = .next s1 ∧ Keeps kl kf (s.at t) s1 := by
  refine ⟨_, if_neg (by simp [h]), ?_⟩
  simp only [Keeps.upd]
  exact Keeps.refl _ _ _

end Sys2Proof.Machine
end

