-- ==== Sys2Proof/Laws/Keeps/SpireStage.lean ====
section
/-! SUPPORT. What the operations of Machine/SpireStage.lean leave alone. -/
namespace Sys2Proof.Machine
open Sys2Proof
set_option linter.unusedSimpArgs false

theorem State.enterQuad_keeps {kl kf : Bool} {kb : State} (s : State) (i : Nat) (core : Nat)
    (hk : Keeps kl kf kb s) : Keeps kl kf kb (State.enterQuad s i core) := by
  unfold State.enterQuad
  repeat' (first
    | intro _
    | with_reducible assumption
    | with_reducible apply Keeps.ite
    | split
    | dsimp only [id]
    | simp only [Keeps.upd, State.modSpc])

theorem State.quadAbort_keeps {kl kf : Bool} {kb : State} (s : State) (i : Nat) (k : Nat) (core : Nat) (q : Nat) (status : Nat)
    (hk : Keeps kl kf kb s) : Keeps kl kf kb (State.quadAbort s i k core q status) := by
  unfold State.quadAbort
  repeat' (first
    | intro _
    | with_reducible assumption
    | with_reducible apply State.enterQuad_keeps
    | with_reducible apply Keeps.ite
    | split
    | dsimp only [id]
    | simp only [Keeps.upd, State.modMacro, State.modSpc])

theorem State.macroFault_keeps {kl kf : Bool} {kb : State} (s : State) (i : Nat) (k : Nat) (status : Nat)
    (hk : Keeps kl kf kb s) : Keeps kl kf kb (State.macroFault s i k status) := by
  unfold State.macroFault
  repeat' (first
    | intro _
    | with_reducible assumption
    | with_reducible apply State.quadAbort_keeps
    | with_reducible apply State.unitFault_keeps
    | with_reducible apply Keeps.ite
    | split
    | dsimp only [id]
    | simp only [Keeps.upd, State.modMacro])

theorem State.localFault_keeps {kl kf : Bool} {kb : State} (s : State) (i : Nat) (k : Nat) (core : Nat) (q : Nat) (a : Nat) (m : MacroRun)
    (hk : Keeps kl kf kb s) : Keeps kl kf kb (State.localFault s i k core q a m) := by
  unfold State.localFault
  repeat' (first
    | intro _
    | with_reducible assumption
    | with_reducible apply State.countLocal_keeps
    | with_reducible apply State.leaveMacro_keeps
    | with_reducible apply State.quadAbort_keeps
    | with_reducible apply State.wearLocal_keeps
    | with_reducible apply Keeps.ite
    | split
    | dsimp only [id]
    | simp only [Keeps.upd])

theorem State.feederError_keeps {kl kf : Bool} {kb : State} (s : State) (i k core q : Nat) (m : MacroRun) (err : ReadErr) (addr : Nat)
    (spans : List (Nat × Nat)) (r : State) (h : s.feederError i k core q m err addr spans = some r) (hk : Keeps kl kf kb s) :
    Keeps kl kf kb r := by
  unfold State.feederError at h
  dsimp only at h
  split at h
  · cases h
    exact State.localFault_keeps _ _ _ _ _ _ _ (State.strike_keeps _ _ hk)
  · obtain ⟨b, -, rfl⟩ := Option.map_eq_some_iff.mp h
    exact State.localFault_keeps _ _ _ _ _ _ _ hk

theorem State.fillBuf_keeps {kl kf : Bool} {kb : State} (s : State) (lo : Nat) (size : Nat) (ws : List MaskedByte)
    (hk : Keeps kl kf kb s) : Keeps kl kf kb (State.fillBuf s lo size ws) := by
  unfold State.fillBuf
  exact Keeps.foldl (hk.trans (Keeps.store rfl (fun h => memClear_wf h _ _) id)) fun _ _ h => State.poke_keeps _ _ _ h

theorem State.stageItem_keeps {kl kf : Bool} {kb : State} (s : State) (v : View) (base : Nat) (ix : Nat) (buf : Nat) (els : List (Pos × Nat))
    (hk : Keeps kl kf kb s) : Keeps kl kf kb (State.stageItem s v base ix buf els) := by
  unfold State.stageItem
  repeat' (first
    | intro _
    | with_reducible assumption
    | with_reducible apply State.fillBuf_keeps
    | with_reducible apply Keeps.ite
    | split
    | dsimp only [id]
    | simp only [Keeps.upd])

theorem State.fillStage_keeps {kl kf : Bool} {kb : State} (s : State) (v : View) (t : Stage) (keepA keepB keepC : Bool) (r : State)
    (h : s.fillStage v t keepA keepB keepC = some r) (hk : Keeps kl kf kb s) : Keeps kl kf kb r := by
  unfold State.fillStage at h
  dsimp only at h
  obtain ⟨bs, -, rfl⟩ := Option.map_eq_some_iff.mp h
  repeat' (first
    | with_reducible assumption
    | with_reducible apply State.stageItem_keeps
    | with_reducible apply Keeps.ite)

theorem State.stagePanelB_keeps {kl kf : Bool} {kb : State} (s : State) (v : View) (t : Stage) (cols : List Nat) (r : State)
    (h : s.stagePanelB v t cols = some r) (hk : Keeps kl kf kb s) : Keeps kl kf kb r := by
  unfold State.stagePanelB at h
  obtain ⟨bs, -, rfl⟩ := Option.map_eq_some_iff.mp h
  exact State.stageItem_keeps _ _ _ _ _ _ (State.stageItem_keeps _ _ _ _ _ _ hk)

theorem State.reachPanel_keeps {kl kf : Bool} {kb : State} (s : State) (v : View) (t : Stage) (p : Pass) (r : State)
    (h : s.reachPanel v t p = some r) (hk : Keeps kl kf kb s) : Keeps kl kf kb r := by
  unfold State.reachPanel at h
  split at h
  · exact State.stagePanelB_keeps _ _ _ _ _ h hk
  · cases h
    exact hk

theorem State.reachNext_keeps {kl kf : Bool} {kb : State} (s : State) (v : View) (next : Option (Stage × Pass × (Nat × Nat × Nat × Nat))) (r : State)
    (h : s.reachNext v next = some r) (hk : Keeps kl kf kb s) : Keeps kl kf kb r := by
  cases next with
  | none => cases h; exact hk
  | some x => exact State.reachPanel_keeps _ _ _ _ _ h hk

theorem State.reachOwn_keeps {kl kf : Bool} {kb : State} (s : State) (v : View) (t : Stage) (p : Pass) (loaded : Bool) (r : State)
    (h : s.reachOwn v t p loaded = some r) (hk : Keeps kl kf kb s) : Keeps kl kf kb r := by
  cases loaded with
  | false => exact State.reachPanel_keeps _ _ _ _ _ h hk
  | true => cases h; exact hk

theorem State.stagePanelsE_keeps {kl kf : Bool} {kb : State} (s : State) (v : View) (t : Stage)
    (hk : Keeps kl kf kb s) : Keeps kl kf kb (State.stagePanelsE s v t) := by
  unfold State.stagePanelsE
  repeat' (first
    | intro _
    | with_reducible assumption
    | with_reducible apply Keeps.foldl
    | with_reducible apply State.stageItem_keeps
    | with_reducible apply Keeps.ite
    | split
    | dsimp only [id]
    | simp only [Keeps.upd])

theorem State.fetchTile_keeps {kl kf : Bool} {kb : State} (s : State) (i : Nat) (k : Nat) (core : Nat) (q : Nat) (tile : Nat) (m : MacroRun) (err : ReadErr) (addr : Nat)
    (hk : Keeps kl kf kb s) : Keeps kl kf kb (State.fetchTile s i k core q tile m err addr) := by
  unfold State.fetchTile
  repeat' (first
    | intro _
    | with_reducible assumption
    | with_reducible apply Keeps.foldl
    | with_reducible apply State.cacheTouch_keeps
    | with_reducible apply State.countUncorrectable_keeps
    | with_reducible apply State.macroFault_keeps
    | with_reducible apply State.strike_keeps
    | with_reducible apply Keeps.ite
    | split
    | dsimp only [id]
    | simp only [Keeps.upd, State.modLane, State.modSpc]
    | refine State.fillStage_keeps _ _ _ _ _ _ _ (by assumption) ?_)

theorem State.stageAhead_keeps {kl kf : Bool} {kb : State} (s : State) (core : Nat) (q : Nat) (err : ReadErr) (addr : Nat) (y0 : Nat)
    (hk : Keeps kl kf kb s) : Keeps kl kf kb (State.stageAhead s core q err addr y0) := by
  induction y0 generalizing s with
  | zero => exact hk
  | succ n ih =>
    unfold State.stageAhead
    repeat' (first
      | with_reducible assumption
      | exact ih _ (State.fetchTile_keeps _ _ _ _ _ _ _ _ _ hk)
      | split)

end Sys2Proof.Machine
end

