-- ==== Sys2Proof/Laws/Keeps/Peer.lean ====
section
/-! SUPPORT. What the operations of Machine/Peer.lean leave alone. -/
namespace Sys2Proof.Machine
open Sys2Proof
set_option linter.unusedSimpArgs false

theorem State.answerPeer_keeps {kl kf : Bool} {kb : State} (s : State) (p : Nat) (status : Nat) (tail : Bytes)
    (hk : Keeps kl kf kb s) : Keeps kl kf kb (State.answerPeer s p status tail) := by
  unfold State.answerPeer
  repeat' (first
    | intro _
    | with_reducible assumption
    | with_reducible apply State.respond_keeps)

theorem State.peerReq_keeps {kl kf : Bool} {kb : State} (s : State) (p : Nat) (kind : Nat) (f : Bytes → State → State) (h_f : ∀ (a0 : Bytes) (a1 : State), Keeps kl kf kb a1 → Keeps kl kf kb (f a0 a1))
    (hk : Keeps kl kf kb s) : Keeps kl kf kb (State.peerReq s p kind f) := by
  unfold State.peerReq
  repeat' (first
    | intro _
    | with_reducible assumption
    | with_reducible apply State.answer_keeps
    | with_reducible apply h_f
    | with_reducible apply Keeps.ite
    | split)

theorem State.failPeerItems_keeps {kl kf : Bool} {kb : State} (s : State) (m : Nat) (status : Nat)
    (hk : Keeps kl kf kb s) : Keeps kl kf kb (State.failPeerItems s m status) := by
  unfold State.failPeerItems
  repeat' (first
    | intro _
    | with_reducible assumption
    | with_reducible apply Keeps.foldl
    | with_reducible apply State.dmaFault_keeps
    | with_reducible apply State.unitFault_keeps
    | with_reducible apply Keeps.ite
    | split)

theorem State.losePeer_keeps {kl kf : Bool} {kb : State} (s : State) (k : Nat)
    (hk : Keeps kl kf kb s) : Keeps kl kf kb (State.losePeer s k) := by
  unfold State.losePeer
  repeat' (first
    | intro _
    | with_reducible assumption
    | with_reducible apply Keeps.foldl
    | with_reducible apply State.event_keeps
    | with_reducible apply State.failPeerItems_keeps
    | with_reducible apply State.stopGraph_keeps
    | with_reducible apply State.updateHealth_keeps
    | with_reducible apply Keeps.ite
    | split
    | dsimp only [id]
    | simp only [Keeps.upd, State.modPeer])

theorem State.portUp_keeps {kl kf : Bool} {kb : State} (s : State) (p : Nat) (b : Bytes)
    (hk : Keeps kl kf kb s) : Keeps kl kf kb (State.portUp s p b) := by
  unfold State.portUp
  repeat' (first
    | intro _
    | with_reducible assumption
    | with_reducible apply State.answer_keeps
    | with_reducible apply State.answerPeer_keeps
    | with_reducible apply State.startReq_keeps
    | with_reducible apply Keeps.ite
    | split
    | dsimp only [id]
    | simp only [Keeps.upd, State.modPeer])

theorem execPortUp_keeps {kl kf : Bool} (t : Nat) (p : Nat) (s : State) :
    ∃ s1, execPortUp t p s = .next s1 ∧ Keeps kl kf (s.at t) s1 := by
  refine ⟨_, rfl, ?_⟩
  repeat' (first
    | intro _
    | (with_reducible first | exact Keeps.refl _ _ _ | assumption)
    | with_reducible apply State.peerReq_keeps
    | with_reducible apply State.portUp_keeps)

theorem State.answerTraining_keeps {kl kf : Bool} {kb : State} (s : State) (k : Nat) (status : Nat) (tail : Bytes)
    (hk : Keeps kl kf kb s) : Keeps kl kf kb (State.answerTraining s k status tail) := by
  unfold State.answerTraining
  repeat' (first
    | intro _
    | with_reducible assumption
    | with_reducible apply State.answerPeer_keeps
    | with_reducible apply Keeps.ite
    | split
    | dsimp only [id]
    | simp only [Keeps.upd, State.modPeer])

theorem State.portDown_keeps {kl kf : Bool} {kb : State} (s : State) (p : Nat) (b : Bytes)
    (hk : Keeps kl kf kb s) : Keeps kl kf kb (State.portDown s p b) := by
  unfold State.portDown
  repeat' (first
    | intro _
    | with_reducible assumption
    | with_reducible apply State.answer_keeps
    | with_reducible apply State.answerPeer_keeps
    | with_reducible apply State.answerTraining_keeps
    | with_reducible apply State.failPeerItems_keeps
    | with_reducible apply State.updateHealth_keeps
    | with_reducible apply Keeps.ite
    | split
    | dsimp only [id]
    | simp only [Keeps.upd, State.modBlock, State.modPeer])

theorem execPortDown_keeps {kl kf : Bool} (t : Nat) (p : Nat) (s : State) :
    ∃ s1, execPortDown t p s = .next s1 ∧ Keeps kl kf (s.at t) s1 := by
  refine ⟨_, rfl, ?_⟩
  repeat' (first
    | intro _
    | (with_reducible first | exact Keeps.refl _ _ _ | assumption)
    | with_reducible apply State.peerReq_keeps
    | with_reducible apply State.portDown_keeps)

theorem State.setImport_keeps {kl kf : Bool} {kb : State} (s : State) (p : Nat) (b : Bytes)
    (hk : Keeps kl kf kb s) : Keeps kl kf kb (State.setImport s p b) := by
  unfold State.setImport
  repeat' (first
    | intro _
    | with_reducible assumption
    | with_reducible apply State.answer_keeps
    | with_reducible apply State.answerPeer_keeps
    | with_reducible apply State.endInstance_keeps
    | with_reducible apply Keeps.ite
    | split
    | dsimp only [id]
    | simp only [Keeps.upd])

theorem execImport_keeps {kl kf : Bool} (t : Nat) (p : Nat) (s : State) :
    ∃ s1, execImport t p s = .next s1 ∧ Keeps kl kf (s.at t) s1 := by
  refine ⟨_, rfl, ?_⟩
  repeat' (first
    | intro _
    | (with_reducible first | exact Keeps.refl _ _ _ | assumption)
    | with_reducible apply State.peerReq_keeps
    | with_reducible apply State.setImport_keeps)

theorem State.setCtrMap_keeps {kl kf : Bool} {kb : State} (s : State) (p : Nat) (b : Bytes)
    (hk : Keeps kl kf kb s) : Keeps kl kf kb (State.setCtrMap s p b) := by
  unfold State.setCtrMap
  repeat' (first
    | intro _
    | with_reducible assumption
    | with_reducible apply State.answer_keeps
    | with_reducible apply State.answerPeer_keeps
    | with_reducible apply Keeps.ite
    | split
    | dsimp only [id]
    | simp only [Keeps.upd])

theorem execCounterMap_keeps {kl kf : Bool} (t : Nat) (p : Nat) (s : State) :
    ∃ s1, execCounterMap t p s = .next s1 ∧ Keeps kl kf (s.at t) s1 := by
  refine ⟨_, rfl, ?_⟩
  repeat' (first
    | intro _
    | (with_reducible first | exact Keeps.refl _ _ _ | assumption)
    | with_reducible apply State.peerReq_keeps
    | with_reducible apply State.setCtrMap_keeps)

theorem State.failPort_keeps {kl kf : Bool} {kb : State} (s : State) (k : Nat) (status : Nat)
    (hk : Keeps kl kf kb s) : Keeps kl kf kb (State.failPort s k status) := by
  unfold State.failPort
  repeat' (first
    | intro _
    | with_reducible assumption
    | with_reducible apply State.answerTraining_keeps
    | with_reducible apply State.note_keeps
    | with_reducible apply State.updateHealth_keeps
    | with_reducible apply Keeps.ite
    | split
    | dsimp only [id]
    | simp only [Keeps.upd, State.modBlock, State.modPeer])

theorem trainingDoneEffect_keeps {kl kf : Bool} {kb : State} (t : Nat) (k : Nat) (neighbour : Nat) (lanes : Nat) (half : Bool) (s0 : State)
    (hk : Keeps kl kf kb (s0.at t)) : Keeps kl kf kb (trainingDoneEffect t k neighbour lanes half s0) := by
  unfold trainingDoneEffect
  repeat' (first
    | intro _
    | with_reducible assumption
    | with_reducible apply State.answerTraining_keeps
    | with_reducible apply State.failPort_keeps
    | with_reducible apply State.note_keeps
    | with_reducible apply State.updateHealth_keeps
    | with_reducible apply Keeps.ite
    | split
    | dsimp only [id]
    | simp only [Keeps.upd, State.modPeer])

theorem execPeerTrainingComplete_keeps {kl kf : Bool} (t : Nat) (k : Nat) (neighbour : Nat) (lanes : Nat) (half : Bool) (s : State) :
    ∃ s1, execPeerTrainingComplete t k neighbour lanes half s = .next s1 ∧ Keeps kl kf (s.at t) s1 := by
  refine ⟨_, rfl, ?_⟩
  repeat' (first
    | intro _
    | (with_reducible first | exact Keeps.refl _ _ _ | assumption)
    | with_reducible apply trainingDoneEffect_keeps)

theorem execPeerTrainingTimeout_keeps {kl kf : Bool} (t : Nat) (k : Nat) (s : State) :
    ∃ s1, execPeerTrainingTimeout t k s = .next s1 ∧ Keeps kl kf (s.at t) s1 := by
  refine ⟨_, rfl, ?_⟩
  repeat' (first
    | intro _
    | (with_reducible first | exact Keeps.refl _ _ _ | assumption)
    | with_reducible apply State.failPort_keeps
    | with_reducible apply Keeps.ite)

theorem flitErrorEffect_keeps {kl kf : Bool} {kb : State} (t : Nat) (k : Nat) (s0 : State)
    (hk : Keeps kl kf kb (s0.at t)) : Keeps kl kf kb (flitErrorEffect t k s0) := by
  unfold flitErrorEffect
  repeat' (first
    | intro _
    | with_reducible assumption
    | with_reducible apply State.note_keeps
    | with_reducible apply Keeps.ite
    | split
    | dsimp only [id]
    | simp only [Keeps.upd, State.modPeer])

theorem execPeerFlitError_keeps {kl kf : Bool} (t : Nat) (k : Nat) (s : State) :
    ∃ s1, execPeerFlitError t k s = .next s1 ∧ Keeps kl kf (s.at t) s1 := by
  refine ⟨_, rfl, ?_⟩
  repeat' (first
    | intro _
    | (with_reducible first | exact Keeps.refl _ _ _ | assumption)
    | with_reducible apply flitErrorEffect_keeps)

theorem execPeerRetrainComplete_keeps {kl kf : Bool} (t : Nat) (k : Nat) (s : State) :
    ∃ s1, execPeerRetrainComplete t k s = .next s1 ∧ Keeps kl kf (s.at t) s1 := by
  refine ⟨_, rfl, ?_⟩
  repeat' (first
    | intro _
    | (with_reducible first | exact Keeps.refl _ _ _ | assumption)
    | with_reducible apply State.sendHeld_keeps
    | with_reducible apply Keeps.ite
    | split
    | dsimp only [id]
    | simp only [Keeps.upd, State.modPeer])

theorem execPeerRetrainTimeout_keeps {kl kf : Bool} (t : Nat) (k : LostPort) (s : State) :
    ∃ s1, execPeerRetrainTimeout t k s = .next s1 ∧ Keeps kl kf (s.at t) s1 := by
  refine ⟨_, rfl, ?_⟩
  repeat' (first
    | intro _
    | (with_reducible first | exact Keeps.refl _ _ _ | assumption)
    | with_reducible apply State.losePeer_keeps
    | with_reducible apply Keeps.ite)

theorem State.badImport_keeps {kl kf : Bool} {kb : State} (s : State) (k : Nat)
    (hk : Keeps kl kf kb s) : Keeps kl kf kb (State.badImport s k) := by
  unfold State.badImport
  repeat' (first
    | intro _
    | with_reducible assumption
    | with_reducible apply State.noteRare_keeps
    | with_reducible apply Keeps.ite
    | split
    | dsimp only [id]
    | simp only [Keeps.upd, State.modPeer])

theorem State.endShared_keeps {kl kf : Bool} {kb : State} (s : State) (imp : Nat)
    (hk : Keeps kl kf kb s) : Keeps kl kf kb (State.endShared s imp) := by
  unfold State.endShared
  repeat' (first
    | intro _
    | with_reducible assumption
    | with_reducible apply State.endInstance_keeps
    | with_reducible apply Keeps.ite
    | split
    | dsimp only [id]
    | simp only [Keeps.upd])

theorem remoteSignalEffect_keeps {kl kf : Bool} {kb : State} (t : Nat) (k : Nat) (imp : Nat) (inc : Nat) (s0 : State)
    (hk : Keeps kl kf kb (s0.at t)) : Keeps kl kf kb (remoteSignalEffect t k imp inc s0) := by
  unfold remoteSignalEffect
  repeat' (first
    | intro _
    | with_reducible assumption
    | with_reducible apply State.badImport_keeps
    | with_reducible apply State.endShared_keeps
    | with_reducible apply State.signalBeacon_keeps
    | with_reducible apply Keeps.ite
    | split)

theorem execRemoteSignal_keeps {kl kf : Bool} (t : Nat) (k : Nat) (imp : Nat) (inc : Nat) (s : State) :
    ∃ s1, execRemoteSignal t k imp inc s = .next s1 ∧ Keeps kl kf (s.at t) s1 := by
  refine ⟨_, rfl, ?_⟩
  repeat' (first
    | intro _
    | (with_reducible first | exact Keeps.refl _ _ _ | assumption)
    | with_reducible apply remoteSignalEffect_keeps)

theorem remoteCounterEffect_keeps {kl kf : Bool} {kb : State} (t : Nat) (k : Nat) (imp : Nat) (v : Nat) (err : ReadErr) (s0 : State)
    (hk : Keeps kl kf kb (s0.at t)) : Keeps kl kf kb (remoteCounterEffect t k imp v err s0) := by
  unfold remoteCounterEffect
  repeat' (first
    | intro _
    | with_reducible assumption
    | with_reducible apply State.badImport_keeps
    | with_reducible apply State.counterUe_keeps
    | with_reducible apply State.emit_keeps
    | with_reducible apply State.noteCorrected_keeps
    | with_reducible apply State.setCounter_keeps
    | with_reducible apply Keeps.ite
    | split)

theorem execRemoteCounterOp_keeps {kl kf : Bool} (t : Nat) (k : Nat) (imp : Nat) (v : Nat) (err : ReadErr) (s : State) :
    ∃ s1, execRemoteCounterOp t k imp v err s = .next s1 ∧ Keeps kl kf (s.at t) s1 := by
  refine ⟨_, rfl, ?_⟩
  repeat' (first
    | intro _
    | (with_reducible first | exact Keeps.refl _ _ _ | assumption)
    | with_reducible apply remoteCounterEffect_keeps)

theorem peerAccessEffect_keeps {kl kf : Bool} {kb : State} (t : Nat) (k : Nat) (a : Nat) (n : Nat) (x : OuterAccess) (s0 : State)
    (hk : Keeps kl kf kb (s0.at t)) : Keeps kl kf kb (peerAccessEffect t k a n x s0) := by
  unfold peerAccessEffect
  repeat' (first
    | intro _
    | with_reducible assumption
    | with_reducible apply State.countRefusal_keeps
    | with_reducible apply State.emit_keeps
    | with_reducible apply State.read_keeps
    | with_reducible apply State.readMeet_keeps
    | with_reducible apply State.write_keeps
    | with_reducible apply Keeps.ite
    | split)

theorem execPeerRemoteAccess_keeps {kl kf : Bool} (t : Nat) (k : Nat) (a : Nat) (n : Nat) (x : OuterAccess) (s : State) :
    ∃ s1, execPeerRemoteAccess t k a n x s = .next s1 ∧ Keeps kl kf (s.at t) s1 := by
  refine ⟨_, rfl, ?_⟩
  repeat' (first
    | intro _
    | (with_reducible first | exact Keeps.refl _ _ _ | assumption)
    | with_reducible apply peerAccessEffect_keeps)

theorem State.noResponse_keeps {kl kf : Bool} {kb : State} (s : State) (m : Nat) (f : State → State) (h_f : ∀ (a0 : State), Keeps kl kf kb a0 → Keeps kl kf kb (f a0))
    (hk : Keeps kl kf kb s) : Keeps kl kf kb (State.noResponse s m f) := by
  unfold State.noResponse
  repeat' (first
    | intro _
    | with_reducible assumption
    | with_reducible apply State.losePeer_keeps
    | with_reducible apply h_f
    | with_reducible apply Keeps.ite
    | split
    | dsimp only [id]
    | simp only [Keeps.upd])

theorem State.requestTimeout_keeps {kl kf : Bool} {kb : State} (s : State) (e : Nat) (tag : Nat)
    (hk : Keeps kl kf kb s) : Keeps kl kf kb (State.requestTimeout s e tag) := by
  unfold State.requestTimeout
  repeat' (first
    | intro _
    | with_reducible assumption
    | with_reducible apply State.dmaFault_keeps
    | with_reducible apply State.noResponse_keeps
    | with_reducible apply Keeps.ite
    | split
    | dsimp only [id]
    | simp only [Keeps.upd, State.modDma])

theorem remoteTimeoutEffect_keeps {kl kf : Bool} {kb : State} (t : Nat) (w : RemoteUser) (n : Nat) (s0 : State)
    (hk : Keeps kl kf kb (s0.at t)) : Keeps kl kf kb (remoteTimeoutEffect t w n s0) := by
  unfold remoteTimeoutEffect
  repeat' (first
    | intro _
    | with_reducible assumption
    | with_reducible apply State.noResponse_keeps
    | with_reducible apply State.requestTimeout_keeps
    | with_reducible apply State.unitFault_keeps
    | with_reducible apply Keeps.ite
    | split
    | dsimp only [id]
    | simp only [Keeps.upd])

theorem execRemoteRequestTimeout_keeps {kl kf : Bool} (t : Nat) (w : RemoteUser) (n : Nat) (s : State) :
    ∃ s1, execRemoteRequestTimeout t w n s = .next s1 ∧ Keeps kl kf (s.at t) s1 := by
  refine ⟨_, rfl, ?_⟩
  repeat' (first
    | intro _
    | (with_reducible first | exact Keeps.refl _ _ _ | assumption)
    | with_reducible apply remoteTimeoutEffect_keeps)

theorem State.takeCount_keeps {kl kf : Bool} {kb : State} (s : State) (held b : Nat) (r : Nat × State) (h : s.takeCount held b = some r)
    (hk : Keeps kl kf kb s) : Keeps kl kf kb r.2 := by
  unfold State.takeCount at h
  split at h
  · cases h; exact hk
  · split at h
    · cases h; exact State.setBeacon_keeps _ _ _ hk
    · cases h

theorem State.relayOne_keeps {kl kf : Bool} {kb : State} (s : State) (k : Nat) (r : Relay) (c : Ctx) (q : McGroup) (v : McRecv)
    (hk : Keeps kl kf kb s) : Keeps kl kf kb (State.relayOne s k r c q v) := by
  unfold State.relayOne
  dsimp only
  split
  · exact hk
  · rename_i units s1 h1
    have k1 : Keeps kl kf kb s1 := State.takeCount_keeps _ _ _ _ h1 hk
    split
    · exact hk
    · rename_i credits s2 h2
      have k2 : Keeps kl kf kb s2 := State.takeCount_keeps _ _ _ _ h2 k1
      clear h1 h2 hk k1
      repeat' (first
        | with_reducible assumption
        | with_reducible apply State.read_keeps
        | with_reducible apply State.sendSignal_keeps
        | with_reducible apply State.signalBeacon_keeps
        | with_reducible apply State.unitFault_keeps
        | with_reducible apply State.write_keeps
        | with_reducible apply Keeps.ite
        | simp only [Keeps.upd, State.modBf, State.modGroup, State.modRecv, State.modPeer])

theorem relayUnitEffect_keeps {kl kf : Bool} {kb : State} (t : Nat) (k : Nat) (s0 : State)
    (hk : Keeps kl kf kb (s0.at t)) : Keeps kl kf kb (relayUnitEffect t k s0) := by
  unfold relayUnitEffect
  repeat' (first
    | intro _
    | with_reducible assumption
    | with_reducible apply State.relayOne_keeps
    | with_reducible apply Keeps.ite
    | split
    | dsimp only [id])

theorem execRelayUnit_keeps {kl kf : Bool} (t : Nat) (k : Nat) (s : State) :
    ∃ s1, execRelayUnit t k s = .next s1 ∧ Keeps kl kf (s.at t) s1 := by
  refine ⟨_, rfl, ?_⟩
  repeat' (first
    | intro _
    | (with_reducible first | exact Keeps.refl _ _ _ | assumption)
    | with_reducible apply relayUnitEffect_keeps)

end Sys2Proof.Machine
end

