-- ==== Sys2Proof/Laws/Keeps/Power.lean ====
section
/-! SUPPORT. What the operations of Machine/Power.lean leave alone. -/
namespace Sys2Proof.Machine
open Sys2Proof
set_option linter.unusedSimpArgs false

theorem State.modPower_keeps {kl kf : Bool} {kb : State} (s : State) (f : Power → Power)
    (hk : Keeps kl kf kb s) : Keeps kl kf kb (State.modPower s f) := by
  unfold State.modPower
  repeat' (first
    | intro _
    | with_reducible assumption
    | with_reducible apply Keeps.ite
    | split
    | dsimp only [id]
    | simp only [Keeps.upd])

theorem execPcieRefclkLoss_keeps {kl kf : Bool} (t : Nat) (s : State) :
    ∃ s1, execPcieRefclkLoss t s = .next s1 ∧ Keeps kl kf (s.at t) s1 := by
  refine ⟨_, rfl, ?_⟩
  repeat' (first
    | intro _
    | (with_reducible first | exact Keeps.refl _ _ _ | assumption)
    | with_reducible apply Keeps.ite
    | split
    | dsimp only [id]
    | simp only [Keeps.upd, State.modPci, State.modPower])

theorem execPlRefclkLoss_keeps {kl kf : Bool} (t : Nat) (s : State) :
    ∃ s1, execPlRefclkLoss t s = .next s1 ∧ Keeps kl kf (s.at t) s1 := by
  refine ⟨_, rfl, ?_⟩
  repeat' (first
    | intro _
    | (with_reducible first | exact Keeps.refl _ _ _ | assumption)
    | with_reducible apply Keeps.foldl
    | with_reducible apply State.losePeer_keeps
    | with_reducible apply Keeps.ite
    | split
    | dsimp only [id]
    | simp only [Keeps.upd, State.modPower])

theorem execXtal32kLoss_keeps {kl kf : Bool} (t : Nat) (s : State) :
    ∃ s1, execXtal32kLoss t s = .next s1 ∧ Keeps kl kf (s.at t) s1 := by
  refine ⟨_, rfl, ?_⟩
  repeat' (first
    | intro _
    | (with_reducible first | exact Keeps.refl _ _ _ | assumption)
    | with_reducible apply State.note_keeps
    | with_reducible apply Keeps.ite
    | split
    | dsimp only [id]
    | simp only [Keeps.upd, State.modPower])

theorem State.modSteeple_keeps {kl kf : Bool} {kb : State} (s : State) (n : Nat) (f : Steeple → Steeple)
    (hk : Keeps kl kf kb s) : Keeps kl kf kb (State.modSteeple s n f) := by
  unfold State.modSteeple
  repeat' (first
    | intro _
    | with_reducible assumption
    | with_reducible apply Keeps.ite
    | split
    | dsimp only [id]
    | simp only [Keeps.upd, State.modPower])

theorem State.writeVout_keeps {kl kf : Bool} {kb : State} (s : State) (n : Nat) (point : Nat)
    (hk : Keeps kl kf kb s) : Keeps kl kf kb (State.writeVout s n point) := by
  unfold State.writeVout
  repeat' (first
    | intro _
    | with_reducible assumption
    | with_reducible apply State.emit_keeps
    | with_reducible apply Keeps.ite)

theorem State.startDvfs_keeps {kl kf : Bool} {kb : State} (s : State) (n : Nat) (point : Nat)
    (hk : Keeps kl kf kb s) : Keeps kl kf kb (State.startDvfs s n point) := by
  unfold State.startDvfs
  repeat' (first
    | intro _
    | with_reducible assumption
    | with_reducible apply State.writeVout_keeps
    | with_reducible apply Keeps.ite
    | split
    | dsimp only [id]
    | simp only [Keeps.upd, State.modPower, State.modSteeple])

theorem execDvfsChange_keeps {kl kf : Bool} (t : Nat) (st : Nat) (point : Nat) (s : State) :
    ∃ s1, execDvfsChange t st point s = .next s1 ∧ Keeps kl kf (s.at t) s1 := by
  refine ⟨_, rfl, ?_⟩
  repeat' (first
    | intro _
    | (with_reducible first | exact Keeps.refl _ _ _ | assumption)
    | with_reducible apply State.startDvfs_keeps)

theorem State.vrmFault_keeps {kl kf : Bool} {kb : State} (s : State) (n : Nat)
    (hk : Keeps kl kf kb s) : Keeps kl kf kb (State.vrmFault s n) := by
  unfold State.vrmFault
  repeat' (first
    | intro _
    | with_reducible assumption
    | with_reducible apply State.note_keeps
    | with_reducible apply State.updateHealth_keeps
    | with_reducible apply Keeps.ite
    | split
    | dsimp only [id]
    | simp only [Keeps.upd, State.modPower, State.modSteeple])

theorem voutSettledEffect_keeps {kl kf : Bool} {kb : State} (t : Nat) (n : Nat) (mv : Nat) (s0 : State)
    (hk : Keeps kl kf kb (s0.at t)) : Keeps kl kf kb (voutSettledEffect t n mv s0) := by
  unfold voutSettledEffect
  repeat' (first
    | intro _
    | with_reducible assumption
    | with_reducible apply State.vrmFault_keeps
    | with_reducible apply Keeps.ite
    | split
    | dsimp only [id]
    | simp only [Keeps.upd, State.modPower, State.modSteeple])

theorem execDvfsVoutSettled_keeps {kl kf : Bool} (t : Nat) (st : Nat) (mv : Nat) (s : State) :
    ∃ s1, execDvfsVoutSettled t st mv s = .next s1 ∧ Keeps kl kf (s.at t) s1 := by
  refine ⟨_, rfl, ?_⟩
  repeat' (first
    | intro _
    | (with_reducible first | exact Keeps.refl _ _ _ | assumption)
    | with_reducible apply voutSettledEffect_keeps)

theorem State.endThrottle_keeps {kl kf : Bool} {kb : State} (s : State) (n : Nat)
    (hk : Keeps kl kf kb s) : Keeps kl kf kb (State.endThrottle s n) := by
  unfold State.endThrottle
  repeat' (first
    | intro _
    | with_reducible assumption
    | with_reducible apply State.event_keeps
    | with_reducible apply Keeps.ite
    | split
    | dsimp only [id]
    | simp only [Keeps.upd])

theorem State.endIfBack_keeps {kl kf : Bool} {kb : State} (s : State) (n : Nat)
    (hk : Keeps kl kf kb s) : Keeps kl kf kb (State.endIfBack s n) := by
  unfold State.endIfBack
  repeat' (first
    | intro _
    | with_reducible assumption
    | with_reducible apply State.endThrottle_keeps
    | with_reducible apply Keeps.ite)

theorem relockEffect_keeps {kl kf : Bool} {kb : State} (t : Nat) (n : Nat) (s0 : State)
    (hk : Keeps kl kf kb (s0.at t)) : Keeps kl kf kb (relockEffect t n s0) := by
  unfold relockEffect
  repeat' (first
    | intro _
    | with_reducible assumption
    | with_reducible apply State.endIfBack_keeps
    | with_reducible apply State.writeVout_keeps
    | with_reducible apply Keeps.ite
    | split
    | dsimp only [id]
    | simp only [Keeps.upd, State.modPower, State.modSteeple])

theorem execDvfsRelockComplete_keeps {kl kf : Bool} (t : Nat) (st : Nat) (s : State) :
    ∃ s1, execDvfsRelockComplete t st s = .next s1 ∧ Keeps kl kf (s.at t) s1 := by
  refine ⟨_, rfl, ?_⟩
  repeat' (first
    | intro _
    | (with_reducible first | exact Keeps.refl _ _ _ | assumption)
    | with_reducible apply relockEffect_keeps)

theorem execPmbusFault_keeps {kl kf : Bool} (t : Nat) (st : Nat) (s : State) :
    ∃ s1, execPmbusFault t st s = .next s1 ∧ Keeps kl kf (s.at t) s1 := by
  refine ⟨_, rfl, ?_⟩
  repeat' (first
    | intro _
    | (with_reducible first | exact Keeps.refl _ _ _ | assumption)
    | with_reducible apply State.vrmFault_keeps
    | with_reducible apply Keeps.ite)

theorem ungateEffect_keeps {kl kf : Bool} {kb : State} (t : Nat) (u : GateUnit) (s0 : State)
    (hk : Keeps kl kf kb (s0.at t)) : Keeps kl kf kb (ungateEffect t u s0) := by
  unfold ungateEffect
  repeat' (first
    | intro _
    | with_reducible assumption
    | with_reducible apply State.clearUnit_keeps
    | with_reducible apply State.setGate_keeps
    | with_reducible apply Keeps.ite
    | split
    | dsimp only [id]
    | simp only [Keeps.upd, State.modPower])

theorem execUnitUngateComplete_keeps {kl kf : Bool} (t : Nat) (u : GateUnit) (s : State) :
    ∃ s1, execUnitUngateComplete t u s = .next s1 ∧ Keeps kl kf (s.at t) s1 := by
  refine ⟨_, rfl, ?_⟩
  repeat' (first
    | intro _
    | (with_reducible first | exact Keeps.refl _ _ _ | assumption)
    | with_reducible apply ungateEffect_keeps)

theorem State.startRun_keeps {kl kf : Bool} {kb : State} (s : State) (b : Nat)
    (hk : Keeps kl kf kb s) : Keeps kl kf kb (State.startRun s b) := by
  unfold State.startRun
  repeat' (first
    | intro _
    | with_reducible assumption
    | with_reducible apply Keeps.ite
    | split
    | dsimp only [id]
    | simp only [Keeps.upd, State.modBlock])

theorem State.startRuns_keeps {kl kf : Bool} {kb : State} (s : State)
    (hk : Keeps kl kf kb s) : Keeps kl kf kb (State.startRuns s) := by
  unfold State.startRuns
  repeat' (first
    | intro _
    | with_reducible assumption
    | with_reducible apply Keeps.foldl
    | with_reducible apply State.startRun_keeps
    | with_reducible apply Keeps.ite)

theorem State.trip_keeps {kl kf : Bool} {kb : State} (s : State)
    (hk : Keeps kl kf kb s) : Keeps kl kf kb (State.trip s) := by
  unfold State.trip
  repeat' (first
    | intro _
    | with_reducible assumption
    | with_reducible apply State.emit_keeps
    | with_reducible apply State.hold_keeps
    | with_reducible apply State.resetTo_keeps
    | with_reducible apply Keeps.ite
    | split
    | dsimp only [id]
    | simp only [Keeps.upd])

theorem State.checkWarn_keeps {kl kf : Bool} {kb : State} (s : State) (i : Nat)
    (hk : Keeps kl kf kb s) : Keeps kl kf kb (State.checkWarn s i) := by
  unfold State.checkWarn
  repeat' (first
    | intro _
    | with_reducible assumption
    | with_reducible apply State.event_keeps
    | with_reducible apply Keeps.ite
    | split
    | dsimp only [id]
    | simp only [Keeps.upd])

theorem State.checkHot_keeps {kl kf : Bool} {kb : State} (s : State) (i : Nat)
    (hk : Keeps kl kf kb s) : Keeps kl kf kb (State.checkHot s i) := by
  unfold State.checkHot
  repeat' (first
    | intro _
    | with_reducible assumption
    | with_reducible apply State.event_keeps
    | with_reducible apply Keeps.ite
    | split
    | dsimp only [id]
    | simp only [Keeps.upd])

theorem State.checkThrottle_keeps {kl kf : Bool} {kb : State} (s : State) (n : Nat)
    (hk : Keeps kl kf kb s) : Keeps kl kf kb (State.checkThrottle s n) := by
  unfold State.checkThrottle
  repeat' (first
    | intro _
    | with_reducible assumption
    | with_reducible apply State.endIfBack_keeps
    | with_reducible apply State.event_keeps
    | with_reducible apply Keeps.ite
    | split
    | dsimp only [id]
    | simp only [Keeps.upd])

theorem temperatureEffect_keeps {kl kf : Bool} {kb : State} (t : Nat) (temps : List Int) (s0 : State)
    (hk : Keeps kl kf kb (s0.at t)) : Keeps kl kf kb (temperatureEffect t temps s0) := by
  unfold temperatureEffect
  repeat' (first
    | intro _
    | with_reducible assumption
    | with_reducible apply Keeps.foldl
    | with_reducible apply State.checkHot_keeps
    | with_reducible apply State.checkThrottle_keeps
    | with_reducible apply State.checkWarn_keeps
    | with_reducible apply State.startRuns_keeps
    | with_reducible apply State.trip_keeps
    | with_reducible apply Keeps.ite
    | split
    | dsimp only [id]
    | simp only [Keeps.upd])

theorem execTemperatureSample_keeps {kl kf : Bool} (t : Nat) (temps : List Int) (s : State) :
    ∃ s1, execTemperatureSample t temps s = .next s1 ∧ Keeps kl kf (s.at t) s1 := by
  refine ⟨_, rfl, ?_⟩
  repeat' (first
    | intro _
    | (with_reducible first | exact Keeps.refl _ _ _ | assumption)
    | with_reducible apply temperatureEffect_keeps)

theorem throttleEffect_keeps {kl kf : Bool} {kb : State} (t : Nat) (n : Nat) (s0 : State)
    (hk : Keeps kl kf kb (s0.at t)) : Keeps kl kf kb (throttleEffect t n s0) := by
  unfold throttleEffect
  repeat' (first
    | intro _
    | with_reducible assumption
    | with_reducible apply State.endIfBack_keeps
    | with_reducible apply State.startDvfs_keeps
    | with_reducible apply Keeps.ite
    | split
    | dsimp only [id]
    | simp only [Keeps.upd])

theorem execThrottleStep_keeps {kl kf : Bool} (t : Nat) (st : Nat) (s : State) :
    ∃ s1, execThrottleStep t st s = .next s1 ∧ Keeps kl kf (s.at t) s1 := by
  refine ⟨_, rfl, ?_⟩
  repeat' (first
    | intro _
    | (with_reducible first | exact Keeps.refl _ _ _ | assumption)
    | with_reducible apply throttleEffect_keeps)

theorem State.checkRail_keeps {kl kf : Bool} {kb : State} (s : State) (r : Nat) (mv : Nat)
    (hk : Keeps kl kf kb s) : Keeps kl kf kb (State.checkRail s r mv) := by
  unfold State.checkRail
  repeat' (first
    | intro _
    | with_reducible assumption
    | with_reducible apply State.event_keeps
    | with_reducible apply Keeps.ite
    | split
    | dsimp only [id]
    | simp only [Keeps.upd])

theorem execVoltageSample_keeps {kl kf : Bool} (t : Nat) (mv : List Nat) (s : State) :
    ∃ s1, execVoltageSample t mv s = .next s1 ∧ Keeps kl kf (s.at t) s1 := by
  refine ⟨_, rfl, ?_⟩
  repeat' (first
    | intro _
    | (with_reducible first | exact Keeps.refl _ _ _ | assumption)
    | with_reducible apply Keeps.foldl
    | with_reducible apply State.checkRail_keeps
    | with_reducible apply Keeps.ite)

theorem ppsEdgeEffect_keeps {kl kf : Bool} {kb : State} (t : Nat) (s0 : State)
    (hk : Keeps kl kf kb (s0.at t)) : Keeps kl kf kb (ppsEdgeEffect t s0) := by
  unfold ppsEdgeEffect
  repeat' (first
    | intro _
    | with_reducible assumption
    | with_reducible apply Keeps.ite
    | split
    | dsimp only [id]
    | simp only [Keeps.upd])

theorem execPpsEdge_keeps {kl kf : Bool} (t : Nat) (s : State) :
    ∃ s1, execPpsEdge t s = .next s1 ∧ Keeps kl kf (s.at t) s1 := by
  refine ⟨_, rfl, ?_⟩
  repeat' (first
    | intro _
    | (with_reducible first | exact Keeps.refl _ _ _ | assumption)
    | with_reducible apply ppsEdgeEffect_keeps)

theorem execPpsLoss_keeps {kl kf : Bool} (t : Nat) (s : State) :
    ∃ s1, execPpsLoss t s = .next s1 ∧ Keeps kl kf (s.at t) s1 := by
  refine ⟨_, rfl, ?_⟩
  repeat' (first
    | intro _
    | (with_reducible first | exact Keeps.refl _ _ _ | assumption)
    | with_reducible apply State.event_keeps
    | with_reducible apply Keeps.ite
    | split
    | dsimp only [id]
    | simp only [Keeps.upd])

end Sys2Proof.Machine
end

