-- ==== Sys2Proof/Laws/Keeps/Calib.lean ====
section
/-! SUPPORT. What the operations of Machine/Calib.lean leave alone. -/
namespace Sys2Proof.Machine
open Sys2Proof
set_option linter.unusedSimpArgs false

theorem State.reportLow_keeps {kl kf : Bool} {kb : State} (s : State) (b : Nat) (lanes : List (Nat × CalLane))
    (hk : Keeps kl kf kb s) : Keeps kl kf kb (State.reportLow s b lanes) := by
  unfold State.reportLow
  repeat' (first
    | intro _
    | with_reducible assumption
    | with_reducible apply Keeps.foldl
    | with_reducible apply State.note_keeps)

theorem State.firstRun_keeps {kl kf : Bool} {kb : State} (s0 : State) (b : Nat) (rs : List CalResult) (codes : Bytes)
    (hk : Keeps kl kf kb s0) : Keeps kl kf kb (State.firstRun s0 b rs codes) := by
  unfold State.firstRun
  repeat' (first
    | intro _
    | with_reducible assumption
    | with_reducible apply Keeps.foldl
    | with_reducible apply State.readRetention_keeps
    | with_reducible apply State.reportLow_keeps
    | with_reducible apply State.updateHealth_keeps
    | with_reducible apply Keeps.ite
    | split
    | dsimp only [id]
    | simp only [Keeps.upd, State.modBlock])

theorem State.discardLane_keeps {kl kf : Bool} {kb : State} (s : State) (b : Nat) (lane : Nat)
    (hk : Keeps kl kf kb s) : Keeps kl kf kb (State.discardLane s b lane) := by
  unfold State.discardLane
  repeat' (first
    | intro _
    | with_reducible assumption
    | with_reducible apply State.note_keeps
    | with_reducible apply State.updateHealth_keeps
    | with_reducible apply Keeps.ite
    | split
    | dsimp only [id]
    | simp only [Keeps.upd, State.modBlock])

theorem State.judgeRun_keeps {kl kf : Bool} {kb : State} (s : State) (b : Nat) (rs : List CalResult) (codes : Bytes)
    (hk : Keeps kl kf kb s) : Keeps kl kf kb (State.judgeRun s b rs codes) := by
  unfold State.judgeRun
  repeat' (first
    | intro _
    | with_reducible assumption
    | with_reducible apply Keeps.foldl
    | with_reducible apply State.discardLane_keeps
    | with_reducible apply Keeps.ite
    | split
    | dsimp only [id]
    | simp only [Keeps.upd, State.modBlock])

theorem State.factoryRun_keeps {kl kf : Bool} {kb : State} (s : State) (b : Nat)
    (hk : Keeps kl kf kb s) : Keeps kl kf kb (State.factoryRun s b) := by
  unfold State.factoryRun
  repeat' (first
    | intro _
    | with_reducible assumption
    | with_reducible apply Keeps.ite
    | split
    | dsimp only [id]
    | simp only [Keeps.upd, State.modBlock])

theorem measureEffect_keeps {kl kf : Bool} {kb : State} (t : Nat) (b : Nat) (rs : List CalResult) (codes : Bytes) (s0 : State)
    (hk : Keeps kl kf kb (s0.at t)) : Keeps kl kf kb (measureEffect t b rs codes s0) := by
  unfold measureEffect
  repeat' (first
    | intro _
    | with_reducible assumption
    | with_reducible apply State.factoryRun_keeps
    | with_reducible apply State.firstRun_keeps
    | with_reducible apply State.judgeRun_keeps
    | with_reducible apply Keeps.ite)

theorem execCalibrationMeasureComplete_keeps {kl kf : Bool} (t : Nat) (b : Nat) (rs : List CalResult) (codes : Bytes) (s : State) :
    ∃ s1, execCalibrationMeasureComplete t b rs codes s = .next s1 ∧ Keeps kl kf (s.at t) s1 := by
  refine ⟨_, rfl, ?_⟩
  repeat' (first
    | intro _
    | (with_reducible first | exact Keeps.refl _ _ _ | assumption)
    | with_reducible apply measureEffect_keeps)

theorem State.askGap_keeps {kl kf : Bool} {kb : State} (s : State) (b : Nat) (since : Nat)
    (hk : Keeps kl kf kb s) : Keeps kl kf kb (State.askGap s b since) := by
  unfold State.askGap
  repeat' (first
    | intro _
    | with_reducible assumption
    | with_reducible apply State.emit_keeps
    | with_reducible apply Keeps.ite)

theorem calApplyEffect_keeps {kl kf : Bool} {kb : State} (t : Nat) (b : Nat) (s0 : State)
    (hk : Keeps kl kf kb (s0.at t)) : Keeps kl kf kb (calApplyEffect t b s0) := by
  unfold calApplyEffect
  repeat' (first
    | intro _
    | with_reducible assumption
    | with_reducible apply Keeps.foldl
    | with_reducible apply State.askGap_keeps
    | with_reducible apply State.reportLow_keeps
    | with_reducible apply State.updateHealth_keeps
    | with_reducible apply Keeps.ite
    | split
    | dsimp only [id]
    | simp only [Keeps.upd, State.modBlock])

theorem execCalibrationApply_keeps {kl kf : Bool} (t : Nat) (b : Nat) (s : State) :
    ∃ s1, execCalibrationApply t b s = .next s1 ∧ Keeps kl kf (s.at t) s1 := by
  refine ⟨_, rfl, ?_⟩
  repeat' (first
    | intro _
    | (with_reducible first | exact Keeps.refl _ _ _ | assumption)
    | with_reducible apply calApplyEffect_keeps)

theorem calNoGapEffect_keeps {kl kf : Bool} {kb : State} (t : Nat) (b : Nat) (s0 : State)
    (hk : Keeps kl kf kb (s0.at t)) : Keeps kl kf kb (calNoGapEffect t b s0) := by
  unfold calNoGapEffect
  repeat' (first
    | intro _
    | with_reducible assumption
    | with_reducible apply State.askGap_keeps
    | with_reducible apply State.note_keeps
    | with_reducible apply State.startRun_keeps
    | with_reducible apply Keeps.ite
    | split
    | dsimp only [id]
    | simp only [Keeps.upd, State.modBlock])

theorem execCalibrationNoGap_keeps {kl kf : Bool} (t : Nat) (b : Nat) (s : State) :
    ∃ s1, execCalibrationNoGap t b s = .next s1 ∧ Keeps kl kf (s.at t) s1 := by
  refine ⟨_, rfl, ?_⟩
  repeat' (first
    | intro _
    | (with_reducible first | exact Keeps.refl _ _ _ | assumption)
    | with_reducible apply calNoGapEffect_keeps)

theorem calRemeasureEffect_keeps {kl kf : Bool} {kb : State} (t : Nat) (b : Nat) (s0 : State)
    (hk : Keeps kl kf kb (s0.at t)) : Keeps kl kf kb (calRemeasureEffect t b s0) := by
  unfold calRemeasureEffect
  repeat' (first
    | intro _
    | with_reducible assumption
    | with_reducible apply Keeps.ite
    | split
    | dsimp only [id]
    | simp only [Keeps.upd, State.modBlock])

theorem execCalibrationRemeasure_keeps {kl kf : Bool} (t : Nat) (b : Nat) (s : State) :
    ∃ s1, execCalibrationRemeasure t b s = .next s1 ∧ Keeps kl kf (s.at t) s1 := by
  refine ⟨_, rfl, ?_⟩
  repeat' (first
    | intro _
    | (with_reducible first | exact Keeps.refl _ _ _ | assumption)
    | with_reducible apply calRemeasureEffect_keeps)

theorem windowEffect_keeps {kl kf : Bool} {kb : State} (t : Nat) (m : Nat) (s0 : State)
    (hk : Keeps kl kf kb (s0.at t)) : Keeps kl kf kb (windowEffect t m s0) := by
  unfold windowEffect
  repeat' (first
    | intro _
    | with_reducible assumption
    | with_reducible apply Keeps.ite
    | split
    | dsimp only [id]
    | simp only [Keeps.upd, State.modPower])

theorem execMaintenanceWindow_keeps {kl kf : Bool} (t : Nat) (m : Nat) (s : State) :
    ∃ s1, execMaintenanceWindow t m s = .next s1 ∧ Keeps kl kf (s.at t) s1 := by
  refine ⟨_, rfl, ?_⟩
  repeat' (first
    | intro _
    | (with_reducible first | exact Keeps.refl _ _ _ | assumption)
    | with_reducible apply windowEffect_keeps)

theorem execZqCalibration_keeps {kl kf : Bool} (t : Nat) (m : Nat) (s : State) :
    ∃ s1, execZqCalibration t m s = .next s1 ∧ Keeps kl kf (s.at t) s1 := by
  refine ⟨_, rfl, ?_⟩
  repeat' (first
    | intro _
    | (with_reducible first | exact Keeps.refl _ _ _ | assumption)
    | with_reducible apply Keeps.ite
    | split
    | dsimp only [id]
    | simp only [Keeps.upd, State.modPower])

theorem calReadEffect_keeps {kl kf : Bool} {kb : State} (t : Nat) (p : Nat) (s0 : State)
    (hk : Keeps kl kf kb (s0.at t)) : Keeps kl kf kb (calReadEffect t p s0) := by
  unfold calReadEffect
  repeat' (first
    | intro _
    | with_reducible assumption
    | with_reducible apply State.answer_keeps
    | with_reducible apply State.respond_keeps
    | with_reducible apply Keeps.ite
    | split
    | dsimp only [id])

theorem execCalRead_keeps {kl kf : Bool} (t : Nat) (p : Nat) (s : State) :
    ∃ s1, execCalRead t p s = .next s1 ∧ Keeps kl kf (s.at t) s1 := by
  refine ⟨_, rfl, ?_⟩
  repeat' (first
    | intro _
    | (with_reducible first | exact Keeps.refl _ _ _ | assumption)
    | with_reducible apply calReadEffect_keeps)

theorem calWriteEffect_keeps {kl kf : Bool} {kb : State} (t : Nat) (p : Nat) (s0 : State)
    (hk : Keeps kl kf kb (s0.at t)) : Keeps kl kf kb (calWriteEffect t p s0) := by
  unfold calWriteEffect
  repeat' (first
    | intro _
    | with_reducible assumption
    | with_reducible apply State.answer_keeps
    | with_reducible apply State.respond_keeps
    | with_reducible apply Keeps.ite
    | split
    | dsimp only [id]
    | simp only [Keeps.upd, State.modBlock])

theorem execCalWrite_keeps {kl kf : Bool} (t : Nat) (p : Nat) (s : State) :
    ∃ s1, execCalWrite t p s = .next s1 ∧ Keeps kl kf (s.at t) s1 := by
  refine ⟨_, rfl, ?_⟩
  repeat' (first
    | intro _
    | (with_reducible first | exact Keeps.refl _ _ _ | assumption)
    | with_reducible apply calWriteEffect_keeps)

end Sys2Proof.Machine
end

