-- ==== Sys2Proof/Laws/Keeps/Dma.lean ====
section
/-! SUPPORT. What the operations of Machine/Dma.lean leave alone. -/
namespace Sys2Proof.Machine
open Sys2Proof
set_option linter.unusedSimpArgs false

theorem State.readTable_keeps {kl kf : Bool} {kb : State} (s : State) (e : Nat) (d : Stream)
    (hk : Keeps kl kf kb s) : Keeps kl kf kb (State.readTable s e d).2.2 := by
  unfold State.readTable
  repeat' (first
    | intro _
    | with_reducible assumption
    | with_reducible apply State.read_keeps
    | with_reducible apply Keeps.ite
    | split)

theorem State.nextPairOf_keeps {kl kf : Bool} {kb : State} (s : State) (e : Nat) (o : DmaOwner) (r : Bytes × Nat × State)
    (h : s.nextPairOf e o = some r) (hk : Keeps kl kf kb s) : Keeps kl kf kb r.2.2 := by
  unfold State.nextPairOf at h
  dsimp only at h
  repeat' split at h
  all_goals first
    | (cases h; done)
    | (cases h; exact State.readElem_keeps _ _ _ hk)
    | (cases h; exact hk)

theorem dmaStartEffect_keeps {kl kf : Bool} {kb : State} (t : Nat) (e : Nat) (o : DmaOwner) (s0 : State)
    (hk : Keeps kl kf kb (s0.at t)) : Keeps kl kf kb (dmaStartEffect t e o s0) := by
  unfold dmaStartEffect
  dsimp only
  split
  · exact hk
  · split
    · exact hk
    · rename_i b st s1 h
      have k1 : Keeps kl kf kb s1 := State.nextPairOf_keeps _ _ _ _ h hk
      clear h hk
      repeat' (first
        | with_reducible assumption
        | with_reducible apply State.dmaFault_keeps
        | with_reducible apply State.readTable_keeps
        | with_reducible apply Keeps.ite
        | simp only [Keeps.upd, State.modDma])

theorem execDmaWorkItemStart_keeps {kl kf : Bool} (t : Nat) (e : Nat) (o : DmaOwner) (s : State) :
    ∃ s1, execDmaWorkItemStart t e o s = .next s1 ∧ Keeps kl kf (s.at t) s1 := by
  refine ⟨_, rfl, ?_⟩
  repeat' (first
    | intro _
    | (with_reducible first | exact Keeps.refl _ _ _ | assumption)
    | with_reducible apply dmaStartEffect_keeps)

theorem dmaIssueEffect_keeps {kl kf : Bool} {kb : State} (t : Nat) (e : Nat) (write : Bool) (s0 : State)
    (hk : Keeps kl kf kb (s0.at t)) : Keeps kl kf kb (dmaIssueEffect t e write s0) := by
  unfold dmaIssueEffect
  repeat' (first
    | intro _
    | with_reducible assumption
    | with_reducible apply Keeps.foldl
    | with_reducible apply State.cacheTouch_keeps
    | with_reducible apply State.countRefusal_keeps
    | with_reducible apply State.dmaFault_keeps
    | with_reducible apply State.write_keeps
    | with_reducible apply Keeps.ite
    | split
    | dsimp only [id]
    | simp only [Keeps.upd, State.modDma])

theorem execDmaRequestIssue_keeps {kl kf : Bool} (t : Nat) (e : Nat) (write : Bool) (s : State) :
    ∃ s1, execDmaRequestIssue t e write s = .next s1 ∧ Keeps kl kf (s.at t) s1 := by
  refine ⟨_, rfl, ?_⟩
  repeat' (first
    | intro _
    | (with_reducible first | exact Keeps.refl _ _ _ | assumption)
    | with_reducible apply State.write_keeps
    | with_reducible apply dmaIssueEffect_keeps)

theorem State.poisonOwner_keeps {kl kf : Bool} {kb : State} (s : State) (o : DmaOwner)
    (hk : Keeps kl kf kb s) : Keeps kl kf kb (State.poisonOwner s o) := by
  unfold State.poisonOwner
  repeat' (first
    | intro _
    | with_reducible assumption
    | with_reducible apply Keeps.ite
    | split
    | dsimp only [id]
    | simp only [Keeps.upd, State.modBf, State.modCtx])

theorem State.landMeet_keeps {kl kf : Bool} {kb : State} (s : State) (e : Nat) (q : DmaReq) (o : DmaOutcome) (corrected : Option WordError)
    (hk : Keeps kl kf kb s) : Keeps kl kf kb (State.landMeet s e q o corrected).2 := by
  unfold State.landMeet
  repeat' (first
    | intro _
    | with_reducible assumption
    | with_reducible apply Keeps.foldl
    | with_reducible apply State.countCorrected_keeps
    | with_reducible apply State.landReq_keeps
    | with_reducible apply State.strike_keeps
    | with_reducible apply Keeps.ite
    | split
    | dsimp only [id]
    | simp only [Keeps.upd])

theorem State.dmaLand_keeps {kl kf : Bool} {kb : State} (s : State) (e : Nat) (it : DmaItem) (q : DmaReq) (o : DmaOutcome) (corrected : Option WordError)
    (hk : Keeps kl kf kb s) : Keeps kl kf kb (State.dmaLand s e it q o corrected) := by
  unfold State.dmaLand
  repeat' (first
    | intro _
    | with_reducible assumption
    | with_reducible apply State.dmaFault_keeps
    | with_reducible apply State.landMeet_keeps
    | with_reducible apply State.poisonOwner_keeps
    | with_reducible apply Keeps.ite
    | split
    | dsimp only [id]
    | simp only [Keeps.upd, State.modDma])

theorem State.dmaStage_keeps {kl kf : Bool} {kb : State} (s : State) (e : Nat) (it : DmaItem) (q : DmaReq) (o : DmaOutcome) (corrected : Option WordError) (ext : Option Bytes)
    (hk : Keeps kl kf kb s) : Keeps kl kf kb (State.dmaStage s e it q o corrected ext) := by
  unfold State.dmaStage
  repeat' (first
    | intro _
    | with_reducible assumption
    | with_reducible apply State.countCorrected_keeps
    | with_reducible apply State.countUncorrectable_keeps
    | with_reducible apply State.dmaFault_keeps
    | with_reducible apply State.strike_keeps
    | with_reducible apply Keeps.ite
    | split
    | dsimp only [id]
    | simp only [Keeps.upd, State.modDma])

theorem State.drainReq_keeps {kl kf : Bool} {kb : State} (s : State) (e : Nat) (it : DmaItem) (q : DmaReq) (o : DmaOutcome) (corrected : Option WordError)
    (hk : Keeps kl kf kb s) : Keeps kl kf kb (State.drainReq s e it q o corrected) := by
  unfold State.drainReq
  repeat' (first
    | intro _
    | with_reducible assumption
    | with_reducible apply State.countUncorrectable_keeps
    | with_reducible apply State.landMeet_keeps
    | with_reducible apply State.poisonOwner_keeps
    | with_reducible apply State.strike_keeps
    | with_reducible apply State.write_keeps
    | with_reducible apply Keeps.ite
    | split
    | dsimp only [id]
    | simp only [Keeps.upd, State.modDma])

theorem dmaCompleteEffect_keeps {kl kf : Bool} {kb : State} (t : Nat) (e : Nat) (tag : Nat) (o : DmaOutcome) (corrected : Option WordError) (ext : Option Bytes) (s0 : State)
    (hk : Keeps kl kf kb (s0.at t)) : Keeps kl kf kb (dmaCompleteEffect t e tag o corrected ext s0) := by
  unfold dmaCompleteEffect
  repeat' (first
    | intro _
    | with_reducible assumption
    | with_reducible apply State.countUncorrectable_keeps
    | with_reducible apply State.dmaFault_keeps
    | with_reducible apply State.dmaLand_keeps
    | with_reducible apply State.dmaStage_keeps
    | with_reducible apply State.drainReq_keeps
    | with_reducible apply State.landMeet_keeps
    | with_reducible apply State.strike_keeps
    | with_reducible apply State.write_keeps
    | with_reducible apply Keeps.ite
    | split
    | dsimp only [id]
    | simp only [Keeps.upd, State.modDma])

theorem execDmaRequestComplete_keeps {kl kf : Bool} (t : Nat) (e : Nat) (tag : Nat) (o : DmaOutcome) (corrected : Option WordError) (ext : Option Bytes) (s : State) :
    ∃ s1, execDmaRequestComplete t e tag o corrected ext s = .next s1 ∧ Keeps kl kf (s.at t) s1 := by
  refine ⟨_, rfl, ?_⟩
  repeat' (first
    | intro _
    | (with_reducible first | exact Keeps.refl _ _ _ | assumption)
    | with_reducible apply dmaCompleteEffect_keeps)

theorem dmaChunkStartEffect_keeps {kl kf : Bool} {kb : State} (t : Nat) (e : Nat) (s0 : State)
    (hk : Keeps kl kf kb (s0.at t)) : Keeps kl kf kb (dmaChunkStartEffect t e s0) := by
  unfold dmaChunkStartEffect
  repeat' (first
    | intro _
    | with_reducible assumption
    | with_reducible apply State.write_keeps
    | with_reducible apply Keeps.ite
    | split
    | dsimp only [id]
    | simp only [Keeps.upd, State.modDma])

theorem execDmaChunkWriteStart_keeps {kl kf : Bool} (t : Nat) (e : Nat) (s : State) :
    ∃ s1, execDmaChunkWriteStart t e s = .next s1 ∧ Keeps kl kf (s.at t) s1 := by
  refine ⟨_, rfl, ?_⟩
  repeat' (first
    | intro _
    | (with_reducible first | exact Keeps.refl _ _ _ | assumption)
    | with_reducible apply dmaChunkStartEffect_keeps)

theorem dmaChunkDoneEffect_keeps {kl kf : Bool} {kb : State} (t : Nat) (e : Nat) (s0 : State)
    (hk : Keeps kl kf kb (s0.at t)) : Keeps kl kf kb (dmaChunkDoneEffect t e s0) := by
  unfold dmaChunkDoneEffect
  repeat' (first
    | intro _
    | with_reducible assumption
    | with_reducible apply State.respond_keeps
    | with_reducible apply State.write_keeps
    | with_reducible apply Keeps.ite
    | split
    | dsimp only [id]
    | simp only [Keeps.upd, State.modDma])

theorem execDmaChunkComplete_keeps {kl kf : Bool} (t : Nat) (e : Nat) (s : State) :
    ∃ s1, execDmaChunkComplete t e s = .next s1 ∧ Keeps kl kf (s.at t) s1 := by
  refine ⟨_, rfl, ?_⟩
  repeat' (first
    | intro _
    | (with_reducible first | exact Keeps.refl _ _ _ | assumption)
    | with_reducible apply dmaChunkDoneEffect_keeps)

theorem fetchAddEffect_keeps {kl kf : Bool} {kb : State} (t : Nat) (init : Nat) (a : Nat) (size : Nat) (v : Nat) (user : Option Nat) (err : ReadErr) (s0 : State)
    (hk : Keeps kl kf kb (s0.at t)) : Keeps kl kf kb (fetchAddEffect t init a size v user err s0) := by
  unfold fetchAddEffect
  repeat' (first
    | intro _
    | with_reducible assumption
    | with_reducible apply State.countRefusal_keeps
    | with_reducible apply State.counterUe_keeps
    | with_reducible apply State.emit_keeps
    | with_reducible apply State.note_keeps
    | with_reducible apply State.noteCorrected_keeps
    | with_reducible apply State.setCounter_keeps
    | with_reducible apply Keeps.ite)

theorem execFetchAdd_keeps {kl kf : Bool} (t : Nat) (init : Nat) (a : Nat) (size : Nat) (v : Nat) (user : Option Nat) (err : ReadErr) (s : State) :
    ∃ s1, execFetchAdd t init a size v user err s = .next s1 ∧ Keeps kl kf (s.at t) s1 := by
  refine ⟨_, rfl, ?_⟩
  repeat' (first
    | intro _
    | (with_reducible first | exact Keeps.refl _ _ _ | assumption)
    | with_reducible apply fetchAddEffect_keeps)

theorem execWorkCounterWrite_keeps {kl kf : Bool} (t : Nat) (init : Nat) (a : Nat) (bs : Bytes) (s : State) :
    ∃ s1, execWorkCounterWrite t init a bs s = .next s1 ∧ Keeps kl kf (s.at t) s1 := by
  refine ⟨_, rfl, ?_⟩
  repeat' (first
    | intro _
    | (with_reducible first | exact Keeps.refl _ _ _ | assumption)
    | with_reducible apply State.write_keeps
    | with_reducible apply Keeps.ite)

theorem execMemoryInterfaceLoss_keeps {kl kf : Bool} (t : Nat) (m : Nat) (s : State) :
    ∃ s1, execMemoryInterfaceLoss t m s = .next s1 ∧ Keeps kl kf (s.at t) s1 := by
  refine ⟨_, rfl, ?_⟩
  repeat' (first
    | intro _
    | (with_reducible first | exact Keeps.refl _ _ _ | assumption)
    | with_reducible apply State.fatal_keeps
    | with_reducible apply Keeps.ite
    | split
    | dsimp only [id]
    | simp only [Keeps.upd])

theorem execMemCfgLock_keeps {kl kf : Bool} (t : Nat) (m : Nat) (s : State) :
    ∃ s1, execMemCfgLock t m s = .next s1 ∧ Keeps kl kf (s.at t) s1 := by
  refine ⟨_, rfl, ?_⟩
  repeat' (first
    | intro _
    | (with_reducible first | exact Keeps.refl _ _ _ | assumption)
    | with_reducible apply Keeps.ite
    | split
    | dsimp only [id]
    | simp only [Keeps.upd])

end Sys2Proof.Machine
end

