-- ==== Sys2Proof/Laws/Keeps/Faults.lean ====
section
/-! SUPPORT. What the operations of Machine/Faults.lean leave alone. -/
namespace Sys2Proof.Machine
open Sys2Proof
set_option linter.unusedSimpArgs false

theorem State.scrubUe_keeps {kl kf : Bool} {kb : State} (s : State) (w : WordError)
    (hk : Keeps kl kf kb s) : Keeps kl kf kb (State.scrubUe s w) := by
  unfold State.scrubUe
  repeat' (first
    | intro _
    | with_reducible assumption
    | with_reducible apply State.event_keeps
    | with_reducible apply State.logError_keeps
    | with_reducible apply Keeps.ite
    | split
    | dsimp only [id]
    | simp only [Keeps.upd])

theorem State.scrubStrike_keeps {kl kf : Bool} {kb : State} (s : State) (w : WordError)
    (hk : Keeps kl kf kb s) : Keeps kl kf kb (State.scrubStrike s w) := by
  unfold State.scrubStrike
  repeat' (first
    | intro _
    | with_reducible assumption
    | with_reducible apply State.strike_keeps
    | with_reducible apply Keeps.ite
    | split
    | dsimp only [id]
    | simp only [Keeps.upd])

theorem State.scrubWord_keeps {kl kf : Bool} {kb : State} (s : State) (w : WordError) (err : ReadErr)
    (hk : Keeps kl kf kb s) : Keeps kl kf kb (State.scrubWord s w err) := by
  unfold State.scrubWord
  repeat' (first
    | intro _
    | with_reducible assumption
    | with_reducible apply State.countCorrected_keeps
    | with_reducible apply State.scrubStrike_keeps
    | with_reducible apply State.scrubUe_keeps
    | with_reducible apply Keeps.ite
    | split)

theorem scrubEffect_keeps {kl kf : Bool} {kb : State} (t : Nat) (w : WordError) (err : ReadErr) (last : Bool) (s0 : State)
    (hk : Keeps kl kf kb (s0.at t)) : Keeps kl kf kb (scrubEffect t w err last s0) := by
  unfold scrubEffect
  repeat' (first
    | intro _
    | with_reducible assumption
    | with_reducible apply State.scrubWord_keeps
    | with_reducible apply Keeps.ite
    | split
    | dsimp only [id]
    | simp only [Keeps.upd])

theorem execScrubRead_keeps {kl kf : Bool} (t : Nat) (w : WordError) (err : ReadErr) (last : Bool) (s : State) :
    ∃ s1, execScrubRead t w err last s = .next s1 ∧ Keeps kl kf (s.at t) s1 := by
  refine ⟨_, rfl, ?_⟩
  repeat' (first
    | intro _
    | (with_reducible first | exact Keeps.refl _ _ _ | assumption)
    | with_reducible apply scrubEffect_keeps)

theorem dramScrubEffect_keeps {kl kf : Bool} {kb : State} (t : Nat) (m : Nat) (a : Nat) (w : WordError) (err : ReadErr) (last : Bool) (s0 : State)
    (hk : Keeps kl kf kb (s0.at t)) : Keeps kl kf kb (dramScrubEffect t m a w err last s0) := by
  unfold dramScrubEffect
  repeat' (first
    | intro _
    | with_reducible assumption
    | with_reducible apply State.scrubWord_keeps
    | with_reducible apply Keeps.ite
    | split
    | dsimp only [id]
    | simp only [Keeps.upd])

theorem execDramScrubRead_keeps {kl kf : Bool} (t : Nat) (m : Nat) (a : Nat) (w : WordError) (err : ReadErr) (last : Bool) (s : State) :
    ∃ s1, execDramScrubRead t m a w err last s = .next s1 ∧ Keeps kl kf (s.at t) s1 := by
  refine ⟨_, rfl, ?_⟩
  repeat' (first
    | intro _
    | (with_reducible first | exact Keeps.refl _ _ _ | assumption)
    | with_reducible apply dramScrubEffect_keeps)

theorem fetchTrapEffect_keeps {kl kf : Bool} {kb : State} (t : Nat) (page : Nat) (hashOk : Bool) (s0 : State)
    (hk : Keeps kl kf kb (s0.at t)) : Keeps kl kf kb (fetchTrapEffect t page hashOk s0) := by
  unfold fetchTrapEffect
  repeat' (first
    | intro _
    | with_reducible assumption
    | with_reducible apply State.fatal_keeps
    | with_reducible apply State.logError_keeps
    | with_reducible apply State.note_keeps
    | with_reducible apply Keeps.ite
    | split
    | dsimp only [id]
    | simp only [Keeps.upd])

theorem execWatchtowerFetchTrap_keeps {kl kf : Bool} (t : Nat) (page : Nat) (hashOk : Bool) (s : State) :
    ∃ s1, execWatchtowerFetchTrap t page hashOk s = .next s1 ∧ Keeps kl kf (s.at t) s1 := by
  refine ⟨_, rfl, ?_⟩
  repeat' (first
    | intro _
    | (with_reducible first | exact Keeps.refl _ _ _ | assumption)
    | with_reducible apply fetchTrapEffect_keeps)

theorem execDmaEngineFailure_keeps {kl kf : Bool} (t : Nat) (e : Nat) (s : State) :
    ∃ s1, execDmaEngineFailure t e s = .next s1 ∧ Keeps kl kf (s.at t) s1 := by
  refine ⟨_, rfl, ?_⟩
  repeat' (first
    | intro _
    | (with_reducible first | exact Keeps.refl _ _ _ | assumption)
    | with_reducible apply State.failDma_keeps
    | with_reducible apply Keeps.ite)

theorem State.logCondition_keeps {kl kf : Bool} {kb : State} (s : State) (c : FatalCond)
    (hk : Keeps kl kf kb s) : Keeps kl kf kb (State.logCondition s c) := by
  unfold State.logCondition
  repeat' (first
    | intro _
    | with_reducible assumption
    | with_reducible apply State.logError_keeps
    | with_reducible apply Keeps.ite
    | split
    | dsimp only [id]
    | simp only [Keeps.upd])

theorem execFatalCondition_keeps {kl kf : Bool} (t : Nat) (c : FatalCond) (s : State) :
    ∃ s1, execFatalCondition t c s = .next s1 ∧ Keeps kl kf (s.at t) s1 := by
  refine ⟨_, rfl, ?_⟩
  repeat' (first
    | intro _
    | (with_reducible first | exact Keeps.refl _ _ _ | assumption)
    | with_reducible apply State.fatal_keeps
    | with_reducible apply State.logCondition_keeps
    | with_reducible apply Keeps.ite)

end Sys2Proof.Machine
end

