-- ==== Sys2Proof/Laws/Keeps/Field.lean ====
section
/-! SUPPORT. What the operations of Machine/Field.lean leave alone. -/
namespace Sys2Proof.Machine
open Sys2Proof
set_option linter.unusedSimpArgs false

theorem State.modFChan_keeps {kl kf : Bool} {kb : State} (s : State) (ch : Nat) (f : FieldChan → FieldChan)
    (hk : Keeps kl kf kb s) : Keeps kl kf kb (State.modFChan s ch f) := by
  unfold State.modFChan
  repeat' (first
    | intro _
    | with_reducible assumption
    | with_reducible apply Keeps.ite
    | split
    | dsimp only [id]
    | simp only [Keeps.upd, State.modField])

theorem State.fieldNote_keeps {kl kf : Bool} {kb : State} (s : State) (status : Nat)
    (hk : Keeps kl kf kb s) : Keeps kl kf kb (State.fieldNote s status) := by
  unfold State.fieldNote
  repeat' (first
    | intro _
    | with_reducible assumption
    | with_reducible apply Keeps.ite
    | split
    | dsimp only [id]
    | simp only [Keeps.upd, State.modField])

theorem State.fieldSend_keeps {kl kf : Bool} {kb : State} (s : State) (type : Nat) (chan : Nat) (payload : Bytes)
    (hk : Keeps kl kf kb s) : Keeps kl kf kb (State.fieldSend s type chan payload) := by
  unfold State.fieldSend
  repeat' (first
    | intro _
    | with_reducible assumption
    | with_reducible apply State.emit_keeps
    | with_reducible apply Keeps.ite
    | split
    | dsimp only [id]
    | simp only [Keeps.upd, State.modField])

theorem State.sendHead_keeps {kl kf : Bool} {kb : State} (s : State)
    (hk : Keeps kl kf kb s) : Keeps kl kf kb (State.sendHead s) := by
  unfold State.sendHead
  repeat' (first
    | intro _
    | with_reducible assumption
    | with_reducible apply State.fieldSend_keeps
    | with_reducible apply Keeps.ite
    | split
    | dsimp only [id]
    | simp only [Keeps.upd, State.modField])

theorem State.addJob_keeps {kl kf : Bool} {kb : State} (s : State) (j : FieldJob)
    (hk : Keeps kl kf kb s) : Keeps kl kf kb (State.addJob s j) := by
  unfold State.addJob
  repeat' (first
    | intro _
    | with_reducible assumption
    | with_reducible apply State.sendHead_keeps
    | with_reducible apply Keeps.ite
    | split
    | dsimp only [id]
    | simp only [Keeps.upd, State.modField])

theorem State.addControl_keeps {kl kf : Bool} {kb : State} (s : State) (pair : Option Nat) (ch : Nat) (action : Nat) (value : Nat)
    (hk : Keeps kl kf kb s) : Keeps kl kf kb (State.addControl s pair ch action value) := by
  unfold State.addControl
  repeat' (first
    | intro _
    | with_reducible assumption
    | with_reducible apply State.addJob_keeps
    | with_reducible apply Keeps.ite
    | split
    | dsimp only [id]
    | simp only [Keeps.upd, State.modField])

theorem State.addConfig_keeps {kl kf : Bool} {kb : State} (s : State) (pair : Option Nat) (ch : Nat) (block : Bytes)
    (hk : Keeps kl kf kb s) : Keeps kl kf kb (State.addConfig s pair ch block) := by
  unfold State.addConfig
  repeat' (first
    | intro _
    | with_reducible assumption
    | with_reducible apply State.addJob_keeps
    | with_reducible apply Keeps.ite
    | split
    | dsimp only [id]
    | simp only [Keeps.upd, State.modField])

theorem State.answerField_keeps {kl kf : Bool} {kb : State} (s : State) (p : Nat) (ch : Nat) (status : Nat)
    (hk : Keeps kl kf kb s) : Keeps kl kf kb (State.answerField s p ch status) := by
  unfold State.answerField
  repeat' (first
    | intro _
    | with_reducible assumption
    | with_reducible apply State.respond_keeps)

theorem State.endJob_keeps {kl kf : Bool} {kb : State} (s : State) (status : Nat)
    (hk : Keeps kl kf kb s) : Keeps kl kf kb (State.endJob s status) := by
  unfold State.endJob
  repeat' (first
    | intro _
    | with_reducible assumption
    | with_reducible apply State.answerField_keeps
    | with_reducible apply State.sendHead_keeps
    | with_reducible apply Keeps.ite
    | split
    | dsimp only [id]
    | simp only [Keeps.upd, State.modField])

theorem State.fieldReq_keeps {kl kf : Bool} {kb : State} (s : State) (p : Nat) (kind : Nat) (f : Bytes → State → State) (h_f : ∀ (a0 : Bytes) (a1 : State), Keeps kl kf kb a1 → Keeps kl kf kb (f a0 a1))
    (hk : Keeps kl kf kb s) : Keeps kl kf kb (State.fieldReq s p kind f) := by
  unfold State.fieldReq
  repeat' (first
    | intro _
    | with_reducible assumption
    | with_reducible apply State.answer_keeps
    | with_reducible apply h_f
    | with_reducible apply Keeps.ite
    | split)

theorem execFieldConfigConfigure_keeps {kl kf : Bool} (t : Nat) (p : Nat) (s0 : State) :
    ∃ s1, execFieldConfigConfigure t p s0 = .next s1 ∧ Keeps kl kf (s0.at t) s1 := by
  refine ⟨_, rfl, ?_⟩
  repeat' (first
    | intro _
    | (with_reducible first | exact Keeps.refl _ _ _ | assumption)
    | with_reducible apply State.addConfig_keeps
    | with_reducible apply State.fieldReq_keeps
    | with_reducible apply State.startReq_keeps
    | simp only [Keeps.upd, State.modFChan, State.modField])

theorem execFieldConfigControl_keeps {kl kf : Bool} (t : Nat) (p : Nat) (s0 : State) :
    ∃ s1, execFieldConfigControl t p s0 = .next s1 ∧ Keeps kl kf (s0.at t) s1 := by
  refine ⟨_, rfl, ?_⟩
  repeat' (first
    | intro _
    | (with_reducible first | exact Keeps.refl _ _ _ | assumption)
    | with_reducible apply State.addControl_keeps
    | with_reducible apply State.fieldReq_keeps
    | with_reducible apply State.startReq_keeps)

theorem execFieldConfigRead_keeps {kl kf : Bool} (t : Nat) (p : Nat) (s0 : State) :
    ∃ s1, execFieldConfigRead t p s0 = .next s1 ∧ Keeps kl kf (s0.at t) s1 := by
  refine ⟨_, rfl, ?_⟩
  repeat' (first
    | intro _
    | (with_reducible first | exact Keeps.refl _ _ _ | assumption)
    | with_reducible apply State.answerField_keeps
    | with_reducible apply State.fieldReq_keeps)

theorem State.fieldAccept_keeps {kl kf : Bool} {kb : State} (s : State) (f : Bytes)
    (hk : Keeps kl kf kb s) : Keeps kl kf kb (State.fieldAccept s f) := by
  unfold State.fieldAccept
  repeat' (first
    | intro _
    | with_reducible assumption
    | with_reducible apply Keeps.ite
    | split
    | dsimp only [id]
    | simp only [Keeps.upd, State.modField])

theorem State.onReceive_keeps {kl kf : Bool} {kb : State} (s : State) (f : Bytes) (mine : Bool) (eff : State → State) (h_eff : ∀ (a0 : State), Keeps kl kf kb a0 → Keeps kl kf kb (eff a0))
    (hk : Keeps kl kf kb s) : Keeps kl kf kb (State.onReceive s f mine eff) := by
  unfold State.onReceive
  repeat' (first
    | intro _
    | with_reducible assumption
    | with_reducible apply State.fieldAccept_keeps
    | with_reducible apply h_eff
    | with_reducible apply Keeps.ite)

theorem State.fieldStatus_keeps {kl kf : Bool} {kb : State} (s : State) (f : Bytes)
    (hk : Keeps kl kf kb s) : Keeps kl kf kb (State.fieldStatus s f) := by
  unfold State.fieldStatus
  repeat' (first
    | intro _
    | with_reducible assumption
    | with_reducible apply State.record_keeps
    | with_reducible apply Keeps.ite
    | split
    | dsimp only [id]
    | simp only [Keeps.upd, State.modFChan, State.modField])

theorem execFieldStatusReceive_keeps {kl kf : Bool} (t : Nat) (f : Bytes) (s0 : State) :
    ∃ s1, execFieldStatusReceive t f s0 = .next s1 ∧ Keeps kl kf (s0.at t) s1 := by
  refine ⟨_, rfl, ?_⟩
  repeat' (first
    | intro _
    | (with_reducible first | exact Keeps.refl _ _ _ | assumption)
    | with_reducible apply State.fieldStatus_keeps
    | with_reducible apply State.onReceive_keeps)

theorem State.fieldAck_keeps {kl kf : Bool} {kb : State} (s : State) (f : Bytes)
    (hk : Keeps kl kf kb s) : Keeps kl kf kb (State.fieldAck s f) := by
  unfold State.fieldAck
  repeat' (first
    | intro _
    | with_reducible assumption
    | with_reducible apply State.endJob_keeps
    | with_reducible apply State.fieldNote_keeps
    | with_reducible apply State.sendHead_keeps
    | with_reducible apply Keeps.ite
    | split
    | dsimp only [id]
    | simp only [Keeps.upd, State.modFChan, State.modField])

theorem execFieldAckReceive_keeps {kl kf : Bool} (t : Nat) (f : Bytes) (s0 : State) :
    ∃ s1, execFieldAckReceive t f s0 = .next s1 ∧ Keeps kl kf (s0.at t) s1 := by
  refine ⟨_, rfl, ?_⟩
  repeat' (first
    | intro _
    | (with_reducible first | exact Keeps.refl _ _ _ | assumption)
    | with_reducible apply State.fieldAck_keeps
    | with_reducible apply State.onReceive_keeps)

theorem State.fieldEvent_keeps {kl kf : Bool} {kb : State} (s : State) (f : Bytes)
    (hk : Keeps kl kf kb s) : Keeps kl kf kb (State.fieldEvent s f) := by
  unfold State.fieldEvent
  repeat' (first
    | intro _
    | with_reducible assumption
    | with_reducible apply State.event_keeps
    | with_reducible apply State.fieldNote_keeps
    | with_reducible apply Keeps.ite
    | split
    | dsimp only [id]
    | simp only [Keeps.upd, State.modFChan, State.modField])

theorem execFieldEventReceive_keeps {kl kf : Bool} (t : Nat) (f : Bytes) (s0 : State) :
    ∃ s1, execFieldEventReceive t f s0 = .next s1 ∧ Keeps kl kf (s0.at t) s1 := by
  refine ⟨_, rfl, ?_⟩
  repeat' (first
    | intro _
    | (with_reducible first | exact Keeps.refl _ _ _ | assumption)
    | with_reducible apply State.fieldEvent_keeps
    | with_reducible apply State.onReceive_keeps)

theorem State.resendBlocks_keeps {kl kf : Bool} {kb : State} (s : State)
    (hk : Keeps kl kf kb s) : Keeps kl kf kb (State.resendBlocks s) := by
  unfold State.resendBlocks
  repeat' (first
    | intro _
    | with_reducible assumption
    | with_reducible apply Keeps.foldl
    | with_reducible apply State.addConfig_keeps
    | with_reducible apply Keeps.ite
    | split)

theorem State.linkStatus_keeps {kl kf : Bool} {kb : State} (s : State) (f : Bytes)
    (hk : Keeps kl kf kb s) : Keeps kl kf kb (State.linkStatus s f) := by
  unfold State.linkStatus
  repeat' (first
    | intro _
    | with_reducible assumption
    | with_reducible apply State.addControl_keeps
    | with_reducible apply State.event_keeps
    | with_reducible apply State.fieldNote_keeps
    | with_reducible apply State.resendBlocks_keeps
    | with_reducible apply State.updateHealth_keeps
    | with_reducible apply Keeps.ite
    | split
    | dsimp only [id]
    | simp only [Keeps.upd, State.modField])

theorem execLinkStatusReceive_keeps {kl kf : Bool} (t : Nat) (f : Bytes) (s0 : State) :
    ∃ s1, execLinkStatusReceive t f s0 = .next s1 ∧ Keeps kl kf (s0.at t) s1 := by
  refine ⟨_, rfl, ?_⟩
  repeat' (first
    | intro _
    | (with_reducible first | exact Keeps.refl _ _ _ | assumption)
    | with_reducible apply State.linkStatus_keeps
    | with_reducible apply State.onReceive_keeps)

theorem execFieldFrameDiscard_keeps {kf : Bool} (t : Nat) (toLantern : Bool) (f : Bytes) (s0 : State) :
    ∃ s1, execFieldFrameDiscard t toLantern f s0 = .next s1 ∧ Keeps false kf (s0.at t) s1 := by
  refine ⟨_, rfl, ?_⟩
  repeat' (first
    | intro _
    | (with_reducible first | exact Keeps.refl _ _ _ | assumption)
    | with_reducible apply Keeps.ite
    | split
    | dsimp only [id]
    | simp only [Keeps.upd, Keeps.updLantern])

theorem execFieldAckTimeout_keeps {kl kf : Bool} (t : Nat) (s0 : State) :
    ∃ s1, execFieldAckTimeout t s0 = .next s1 ∧ Keeps kl kf (s0.at t) s1 := by
  refine ⟨_, rfl, ?_⟩
  repeat' (first
    | intro _
    | (with_reducible first | exact Keeps.refl _ _ _ | assumption)
    | with_reducible apply State.endJob_keeps
    | with_reducible apply State.fieldNote_keeps
    | with_reducible apply State.sendHead_keeps
    | with_reducible apply Keeps.ite
    | split)

theorem State.fieldLost_keeps {kl kf : Bool} {kb : State} (s : State)
    (hk : Keeps kl kf kb s) : Keeps kl kf kb (State.fieldLost s) := by
  unfold State.fieldLost
  repeat' (first
    | intro _
    | with_reducible assumption
    | with_reducible apply Keeps.foldl
    | with_reducible apply State.event_keeps
    | with_reducible apply State.unitFault_keeps
    | with_reducible apply State.updateHealth_keeps
    | with_reducible apply Keeps.ite
    | split
    | dsimp only [id]
    | simp only [Keeps.upd, State.modField])

theorem execFieldLinkDown_keeps {kl kf : Bool} (t : Nat) (s0 : State) :
    ∃ s1, execFieldLinkDown t s0 = .next s1 ∧ Keeps kl kf (s0.at t) s1 := by
  refine ⟨_, rfl, ?_⟩
  repeat' (first
    | intro _
    | (with_reducible first | exact Keeps.refl _ _ _ | assumption)
    | with_reducible apply State.fieldLost_keeps
    | with_reducible apply Keeps.ite)

theorem State.sendRecord_keeps {kl kf : Bool} {kb : State} (s : State) (r : FieldRun) (c : Ctx)
    (hk : Keeps kl kf kb s) : Keeps kl kf kb (State.sendRecord s r c) := by
  unfold State.sendRecord
  repeat' (first
    | intro _
    | with_reducible assumption
    | with_reducible apply State.fieldNote_keeps
    | with_reducible apply State.fieldSend_keeps
    | with_reducible apply State.readElem_keeps
    | with_reducible apply State.unitFault_keeps
    | with_reducible apply Keeps.ite
    | split
    | dsimp only [id]
    | simp only [Keeps.upd, State.modField])

theorem execFieldRecordSend_keeps {kl kf : Bool} (t : Nat) (s0 : State) :
    ∃ s1, execFieldRecordSend t s0 = .next s1 ∧ Keeps kl kf (s0.at t) s1 := by
  refine ⟨_, rfl, ?_⟩
  repeat' (first
    | intro _
    | (with_reducible first | exact Keeps.refl _ _ _ | assumption)
    | with_reducible apply State.sendRecord_keeps
    | with_reducible apply Keeps.ite
    | split)

end Sys2Proof.Machine
end

