-- ==== Sys2Proof/Laws/Keeps/HostPort.lean ====
section
/-! SUPPORT. What the operations of Machine/HostPort.lean leave alone. -/
namespace Sys2Proof.Machine
open Sys2Proof
set_option linter.unusedSimpArgs false

theorem State.refuseBar4_keeps {kl kf : Bool} {kb : State} (s : State) (status : Nat) (read : Bool)
    (hk : Keeps kl kf kb s) : Keeps kl kf kb (State.refuseBar4 s status read) := by
  unfold State.refuseBar4
  repeat' (first
    | intro _
    | with_reducible assumption
    | with_reducible apply State.countRefusal_keeps
    | with_reducible apply State.emit_keeps
    | with_reducible apply State.note_keeps
    | with_reducible apply State.read_keeps
    | with_reducible apply Keeps.ite
    | split
    | dsimp only [id]
    | simp only [Keeps.upd, State.modPci])

theorem bar4Effect_keeps {kl kf : Bool} {kb : State} (t : Nat) (off : Nat) (n : Nat) (x : OuterAccess) (s0 : State)
    (hk : Keeps kl kf kb (s0.at t)) : Keeps kl kf kb (bar4Effect t off n x s0) := by
  unfold bar4Effect
  repeat' (first
    | intro _
    | with_reducible assumption
    | with_reducible apply State.emit_keeps
    | with_reducible apply State.read_keeps
    | with_reducible apply State.readMeet_keeps
    | with_reducible apply State.refuseBar4_keeps
    | with_reducible apply State.write_keeps
    | with_reducible apply State.writeRaw_keeps
    | with_reducible apply Keeps.ite
    | split
    | dsimp only [id]
    | simp only [Keeps.upd, State.modPci])

theorem execBar4Access_keeps {kl kf : Bool} (t : Nat) (off : Nat) (n : Nat) (x : OuterAccess) (s : State) :
    ∃ s1, execBar4Access t off n x s = .next s1 ∧ Keeps kl kf (s.at t) s1 := by
  refine ⟨_, rfl, ?_⟩
  repeat' (first
    | intro _
    | (with_reducible first | exact Keeps.refl _ _ _ | assumption)
    | with_reducible apply bar4Effect_keeps)

theorem State.writeBar4Base_keeps {kl kf : Bool} {kb : State} (s : State) (v : Nat)
    (hk : Keeps kl kf kb s) : Keeps kl kf kb (State.writeBar4Base s v) := by
  unfold State.writeBar4Base
  repeat' (first
    | intro _
    | with_reducible assumption
    | with_reducible apply State.discardWrite_keeps
    | with_reducible apply Keeps.ite
    | split
    | dsimp only [id]
    | simp only [Keeps.upd, State.modPci])

theorem execPciBar4BaseWrite_keeps {kl kf : Bool} (t : Nat) (v : Nat) (s : State) :
    ∃ s1, execPciBar4BaseWrite t v s = .next s1 ∧ Keeps kl kf (s.at t) s1 := by
  refine ⟨_, rfl, ?_⟩
  repeat' (first
    | intro _
    | (with_reducible first | exact Keeps.refl _ _ _ | assumption)
    | with_reducible apply State.writeBar4Base_keeps
    | with_reducible apply Keeps.ite)

theorem State.clearCauses_keeps {kl kf : Bool} {kb : State} (s : State) (hi : Bool) (mask : Nat)
    (hk : Keeps kl kf kb s) : Keeps kl kf kb (State.clearCauses s hi mask) := by
  unfold State.clearCauses
  repeat' (first
    | intro _
    | with_reducible assumption
    | with_reducible apply Keeps.foldl
    | with_reducible apply Keeps.ite
    | split
    | dsimp only [id]
    | simp only [Keeps.upd, State.modPci])

theorem execPciIntStatusClear_keeps {kl kf : Bool} (t : Nat) (hi : Bool) (mask : Nat) (s : State) :
    ∃ s1, execPciIntStatusClear t hi mask s = .next s1 ∧ Keeps kl kf (s.at t) s1 := by
  refine ⟨_, rfl, ?_⟩
  repeat' (first
    | intro _
    | (with_reducible first | exact Keeps.refl _ _ _ | assumption)
    | with_reducible apply State.clearCauses_keeps
    | with_reducible apply Keeps.ite)

theorem State.writeMsix_keeps {kl kf : Bool} {kb : State} (s : State) (off : Nat) (v : Nat)
    (hk : Keeps kl kf kb s) : Keeps kl kf kb (State.writeMsix s off v) := by
  unfold State.writeMsix
  repeat' (first
    | intro _
    | with_reducible assumption
    | with_reducible apply State.sendPending_keeps
    | with_reducible apply Keeps.ite
    | split
    | dsimp only [id]
    | simp only [Keeps.upd, State.modPci])

theorem State.hostWrite0_keeps {kl kf : Bool} {kb : State} (s : State) (off : Nat) (v : Nat)
    (hk : Keeps kl kf kb s) : Keeps kl kf kb (State.hostWrite0 s off v) := by
  unfold State.hostWrite0
  repeat' (first
    | intro _
    | with_reducible assumption
    | with_reducible apply State.clearCauses_keeps
    | with_reducible apply State.refuseWrite_keeps
    | with_reducible apply State.writeBar4Base_keeps
    | with_reducible apply State.writeMsix_keeps
    | with_reducible apply Keeps.ite
    | split
    | dsimp only [id]
    | simp only [Keeps.upd, State.modPci])

theorem State.hostWrite2_keeps {kl kf : Bool} {kb : State} (s : State) (off : Nat) (v : Nat)
    (hk : Keeps kl kf kb s) : Keeps kl kf kb (State.hostWrite2 s off v) := by
  unfold State.hostWrite2
  repeat' (first
    | intro _
    | with_reducible assumption
    | with_reducible apply State.clearEnable_keeps
    | with_reducible apply State.discardWrite_keeps
    | with_reducible apply State.ringDoorbell_keeps
    | with_reducible apply State.setEnable_keeps
    | with_reducible apply State.writeRspHead_keeps
    | with_reducible apply Keeps.ite
    | split
    | dsimp only [id]
    | simp only [Keeps.upd, State.modPair, State.modPci])

theorem State.hostWrite_keeps {kl kf : Bool} {kb : State} (s : State) (page : Bool) (off : Nat) (b : Bytes)
    (hk : Keeps kl kf kb s) : Keeps kl kf kb (State.hostWrite s page off b) := by
  unfold State.hostWrite
  repeat' (first
    | intro _
    | with_reducible assumption
    | with_reducible apply State.discardWrite_keeps
    | with_reducible apply State.hostWrite0_keeps
    | with_reducible apply State.hostWrite2_keeps
    | with_reducible apply Keeps.ite)

theorem State.hostReadWord_keeps {kl kf : Bool} {kb : State} (s : State) (page : Bool) (off : Nat)
    (hk : Keeps kl kf kb s) : Keeps kl kf kb (State.hostReadWord s page off).2 := by
  unfold State.hostReadWord
  repeat' (first
    | intro _
    | with_reducible assumption
    | with_reducible apply Keeps.ite
    | split
    | dsimp only [id]
    | simp only [Keeps.upd])

theorem State.hostRead_keeps {kl kf : Bool} {kb : State} (s : State) (page : Bool) (off : Nat) (n : Nat)
    (hk : Keeps kl kf kb s) : Keeps kl kf kb (State.hostRead s page off n) := by
  unfold State.hostRead
  repeat' (first
    | intro _
    | with_reducible assumption
    | with_reducible apply State.emit_keeps
    | with_reducible apply State.hostReadWord_keeps
    | with_reducible apply Keeps.ite
    | split
    | dsimp only [id]
    | simp only [Keeps.upd])

theorem State.sizeBar4_keeps {kl kf : Bool} {kb : State} (s : State) (k : Nat)
    (hk : Keeps kl kf kb s) : Keeps kl kf kb (State.sizeBar4 s k) := by
  unfold State.sizeBar4
  repeat' (first
    | intro _
    | with_reducible assumption
    | with_reducible apply Keeps.ite
    | split
    | dsimp only [id]
    | simp only [Keeps.upd, State.modPci])

theorem State.prtCommit_keeps {kl kf : Bool} {kb : State} (s : State) (v : Nat)
    (hk : Keeps kl kf kb s) : Keeps kl kf kb (State.prtCommit s v) := by
  unfold State.prtCommit
  repeat' (first
    | intro _
    | with_reducible assumption
    | with_reducible apply Keeps.foldl
    | with_reducible apply Keeps.ite
    | split
    | dsimp only [id]
    | simp only [Keeps.upd])

theorem execPrtCommit_keeps {kl kf : Bool} (t : Nat) (v : Nat) (s : State) :
    ∃ s1, execPrtCommit t v s = .next s1 ∧ Keeps kl kf (s.at t) s1 := by
  refine ⟨_, rfl, ?_⟩
  repeat' (first
    | intro _
    | (with_reducible first | exact Keeps.refl _ _ _ | assumption)
    | with_reducible apply State.prtCommit_keeps
    | with_reducible apply Keeps.ite)

theorem State.firmwareWrite_keeps {kl kf : Bool} {kb : State} (s : State) (off : Nat) (v : Nat)
    (hk : Keeps kl kf kb s) : Keeps kl kf kb (State.firmwareWrite s off v) := by
  unfold State.firmwareWrite
  repeat' (first
    | intro _
    | with_reducible assumption
    | with_reducible apply State.emit_keeps
    | with_reducible apply State.prtCommit_keeps
    | with_reducible apply State.setCache_keeps
    | with_reducible apply Keeps.ite
    | split
    | dsimp only [id]
    | simp only [Keeps.upd, State.modPort, State.modRfe])

theorem registerWriteEffect_keeps {kl kf : Bool} {kb : State} (t : Nat) (host : Bool) (space : RegSpace) (off : Nat) (x : RegAccess) (s0 : State)
    (hk : Keeps kl kf kb (s0.at t)) : Keeps kl kf kb (registerWriteEffect t host space off x s0) := by
  unfold registerWriteEffect
  repeat' (first
    | intro _
    | with_reducible assumption
    | with_reducible apply State.calOff_keeps
    | with_reducible apply State.emit_keeps
    | with_reducible apply State.firmwareWrite_keeps
    | with_reducible apply State.hostRead_keeps
    | with_reducible apply State.hostWrite_keeps
    | with_reducible apply State.read_keeps
    | with_reducible apply State.sizeBar4_keeps
    | with_reducible apply State.write_keeps
    | with_reducible apply Keeps.ite
    | split
    | dsimp only [id]
    | simp only [Keeps.upd])

theorem execRegisterWrite_keeps {kl kf : Bool} (t : Nat) (host : Bool) (space : RegSpace) (off : Nat) (x : RegAccess) (s : State) :
    ∃ s1, execRegisterWrite t host space off x s = .next s1 ∧ Keeps kl kf (s.at t) s1 := by
  refine ⟨_, rfl, ?_⟩
  repeat' (first
    | intro _
    | (with_reducible first | exact Keeps.refl _ _ _ | assumption)
    | with_reducible apply registerWriteEffect_keeps)

theorem execMbxEnable_keeps {kl kf : Bool} (t : Nat) (p : Nat) (v : Nat) (s : State) :
    ∃ s1, execMbxEnable t p v s = .next s1 ∧ Keeps kl kf (s.at t) s1 := by
  refine ⟨_, rfl, ?_⟩
  repeat' (first
    | intro _
    | (with_reducible first | exact Keeps.refl _ _ _ | assumption)
    | with_reducible apply State.setEnable_keeps
    | with_reducible apply Keeps.ite)

theorem execMbxDisable_keeps {kl kf : Bool} (t : Nat) (p : Nat) (v : Nat) (s : State) :
    ∃ s1, execMbxDisable t p v s = .next s1 ∧ Keeps kl kf (s.at t) s1 := by
  refine ⟨_, rfl, ?_⟩
  repeat' (first
    | intro _
    | (with_reducible first | exact Keeps.refl _ _ _ | assumption)
    | with_reducible apply State.clearEnable_keeps
    | with_reducible apply Keeps.ite)

theorem execMbxReqDoorbell_keeps {kl kf : Bool} (t : Nat) (p : Nat) (tail : Nat) (writes : List (Nat × Bytes)) (s : State) :
    ∃ s1, execMbxReqDoorbell t p tail writes s = .next s1 ∧ Keeps kl kf (s.at t) s1 := by
  refine ⟨_, rfl, ?_⟩
  repeat' (first
    | intro _
    | (with_reducible first | exact Keeps.refl _ _ _ | assumption)
    | with_reducible apply Keeps.foldl
    | with_reducible apply State.hostPut_keeps
    | with_reducible apply State.ringDoorbell_keeps
    | with_reducible apply Keeps.ite)

theorem execMbxRspHeadWrite_keeps {kl kf : Bool} (t : Nat) (p : Nat) (head : Nat) (s : State) :
    ∃ s1, execMbxRspHeadWrite t p head s = .next s1 ∧ Keeps kl kf (s.at t) s1 := by
  refine ⟨_, rfl, ?_⟩
  repeat' (first
    | intro _
    | (with_reducible first | exact Keeps.refl _ _ _ | assumption)
    | with_reducible apply State.writeRspHead_keeps
    | with_reducible apply Keeps.ite)

theorem requestTakeEffect_keeps {kl kf : Bool} {kb : State} (t : Nat) (s0 : State)
    (hk : Keeps kl kf kb (s0.at t)) : Keeps kl kf kb (requestTakeEffect t s0) := by
  unfold requestTakeEffect
  repeat' (first
    | intro _
    | with_reducible assumption
    | with_reducible apply State.answer_keeps
    | with_reducible apply Keeps.ite
    | split
    | dsimp only [id]
    | simp only [Keeps.upd, State.modPair, State.modPci])

theorem execMailboxRequestTake_keeps {kl kf : Bool} (t : Nat) (s : State) :
    ∃ s1, execMailboxRequestTake t s = .next s1 ∧ Keeps kl kf (s.at t) s1 := by
  refine ⟨_, rfl, ?_⟩
  repeat' (first
    | intro _
    | (with_reducible first | exact Keeps.refl _ _ _ | assumption)
    | with_reducible apply requestTakeEffect_keeps)

theorem completionTimeoutEffect_keeps {kl kf : Bool} {kb : State} (t : Nat) (w : HostWait) (s0 : State)
    (hk : Keeps kl kf kb (s0.at t)) : Keeps kl kf kb (completionTimeoutEffect t w s0) := by
  unfold completionTimeoutEffect
  repeat' (first
    | intro _
    | with_reducible assumption
    | with_reducible apply State.dmaFault_keeps
    | with_reducible apply State.stopPair_keeps
    | with_reducible apply State.write_keeps
    | with_reducible apply Keeps.ite
    | split
    | dsimp only [id]
    | simp only [Keeps.upd, State.modDma])

theorem execPcieCompletionTimeout_keeps {kl kf : Bool} (t : Nat) (w : HostWait) (s : State) :
    ∃ s1, execPcieCompletionTimeout t w s = .next s1 ∧ Keeps kl kf (s.at t) s1 := by
  refine ⟨_, rfl, ?_⟩
  repeat' (first
    | intro _
    | (with_reducible first | exact Keeps.refl _ _ _ | assumption)
    | with_reducible apply completionTimeoutEffect_keeps)

theorem execD3hotEntry_keeps {kl kf : Bool} (t : Nat) (s : State) :
    ∃ s1, execD3hotEntry t s = .next s1 ∧ Keeps kl kf (s.at t) s1 := by
  refine ⟨_, rfl, ?_⟩
  repeat' (first
    | intro _
    | (with_reducible first | exact Keeps.refl _ _ _ | assumption)
    | with_reducible apply Keeps.ite
    | split
    | dsimp only [id]
    | simp only [Keeps.upd, State.modPci])

theorem execD0Return_keeps {kl kf : Bool} (t : Nat) (s : State) :
    ∃ s1, execD0Return t s = .next s1 ∧ Keeps kl kf (s.at t) s1 := by
  refine ⟨_, rfl, ?_⟩
  repeat' (first
    | intro _
    | (with_reducible first | exact Keeps.refl _ _ _ | assumption)
    | with_reducible apply State.deliverHeld_keeps
    | with_reducible apply State.sendPending_keeps
    | with_reducible apply Keeps.ite
    | split
    | dsimp only [id]
    | simp only [Keeps.upd, State.modPci])

end Sys2Proof.Machine
end

