-- ==== Sys2Proof/Laws/Keeps/Ingress.lean ====
section
/-! SUPPORT. What the operations of Machine/Ingress.lean leave alone. -/
namespace Sys2Proof.Machine
open Sys2Proof
set_option linter.unusedSimpArgs false

theorem State.genlockAdvance_keeps {kl kf : Bool} {kb : State} (s : State) (g : Nat)
    (hk : Keeps kl kf kb s) : Keeps kl kf kb (State.genlockAdvance s g) := by
  unfold State.genlockAdvance
  repeat' (first
    | intro _
    | with_reducible assumption
    | with_reducible apply Keeps.ite
    | split
    | dsimp only [id]
    | simp only [Keeps.upd])

theorem State.leadAnchor_keeps {kl kf : Bool} {kb : State} (s : State) (c : Nat)
    (hk : Keeps kl kf kb s) : Keeps kl kf kb (State.leadAnchor s c) := by
  unfold State.leadAnchor
  repeat' (first
    | intro _
    | with_reducible assumption
    | with_reducible apply State.genlockAdvance_keeps
    | with_reducible apply Keeps.ite)

theorem genlockAnchorEffect_keeps {kl kf : Bool} {kb : State} (t : Nat) (lead : Option Nat) (s0 : State)
    (hk : Keeps kl kf kb (s0.at t)) : Keeps kl kf kb (genlockAnchorEffect t lead s0) := by
  unfold genlockAnchorEffect
  repeat' (first
    | intro _
    | with_reducible assumption
    | with_reducible apply Keeps.foldl
    | with_reducible apply State.genlockAdvance_keeps
    | with_reducible apply State.leadAnchor_keeps
    | with_reducible apply Keeps.ite
    | split)

theorem execGenlockAnchor_keeps {kl kf : Bool} (t : Nat) (lead : Option Nat) (s : State) :
    ∃ s1, execGenlockAnchor t lead s = .next s1 ∧ Keeps kl kf (s.at t) s1 := by
  refine ⟨_, rfl, ?_⟩
  repeat' (first
    | intro _
    | (with_reducible first | exact Keeps.refl _ _ _ | assumption)
    | with_reducible apply genlockAnchorEffect_keeps)

theorem State.switchPset_keeps {kl kf : Bool} {kb : State} (s : State) (c : Nat) (n : Nat)
    (hk : Keeps kl kf kb s) : Keeps kl kf kb (State.switchPset s c n).1 := by
  unfold State.switchPset
  repeat' (first
    | intro _
    | with_reducible assumption
    | with_reducible apply Keeps.foldl
    | with_reducible apply State.event_keeps
    | with_reducible apply Keeps.ite
    | split
    | dsimp only [id]
    | simp only [Keeps.upd, State.modRfe])

theorem State.startNet_keeps {kl kf : Bool} {kb : State} (s : State) (c : Nat)
    (hk : Keeps kl kf kb s) : Keeps kl kf kb (State.startNet s c) := by
  unfold State.startNet
  repeat' (first
    | intro _
    | with_reducible assumption
    | with_reducible apply State.endNet_keeps
    | with_reducible apply State.gateUnused_keeps
    | with_reducible apply State.hold_keeps
    | with_reducible apply Keeps.ite
    | split
    | dsimp only [id]
    | simp only [Keeps.upd, State.modCam])

theorem State.openFrame_keeps {kl kf : Bool} {kb : State} (s : State) (c : Nat) (sensorFn : Nat) (no : StartNo)
    (hk : Keeps kl kf kb s) : Keeps kl kf kb (State.openFrame s c sensorFn no) := by
  unfold State.openFrame
  repeat' (first
    | intro _
    | with_reducible assumption
    | with_reducible apply State.event_keeps
    | with_reducible apply State.startNet_keeps
    | with_reducible apply State.switchPset_keeps
    | with_reducible apply Keeps.ite
    | split
    | dsimp only [id]
    | simp only [Keeps.upd, State.modCam, State.modRfe])

theorem State.leaveCam_keeps {kl kf : Bool} {kb : State} (s : State) (c : Nat)
    (hk : Keeps kl kf kb s) : Keeps kl kf kb (State.leaveCam s c) := by
  unfold State.leaveCam
  repeat' (first
    | intro _
    | with_reducible assumption
    | with_reducible apply State.endCam_keeps
    | with_reducible apply State.gateUnused_keeps
    | with_reducible apply Keeps.ite
    | split
    | dsimp only [id]
    | simp only [Keeps.upd, State.modCam, State.modPort])

theorem State.frameStart_keeps {kl kf : Bool} {kb : State} (s : State) (c : Nat) (sensorFn : Nat)
    (hk : Keeps kl kf kb s) : Keeps kl kf kb (State.frameStart s c sensorFn) := by
  unfold State.frameStart
  repeat' (first
    | intro _
    | with_reducible assumption
    | with_reducible apply State.endFrame_keeps
    | with_reducible apply State.event_keeps
    | with_reducible apply State.gateUnused_keeps
    | with_reducible apply State.leadAnchor_keeps
    | with_reducible apply State.leaveCam_keeps
    | with_reducible apply State.moveRfe_keeps
    | with_reducible apply State.openFrame_keeps
    | with_reducible apply State.updateHealth_keeps
    | with_reducible apply Keeps.ite
    | split
    | dsimp only [id]
    | simp only [Keeps.upd, State.modCam, State.modRfe])

theorem sensorFrameStartEffect_keeps {kl kf : Bool} {kb : State} (t : Nat) (c : Nat) (sensorFn : Nat) (s0 : State)
    (hk : Keeps kl kf kb (s0.at t)) : Keeps kl kf kb (sensorFrameStartEffect t c sensorFn s0) := by
  unfold sensorFrameStartEffect
  repeat' (first
    | intro _
    | with_reducible assumption
    | with_reducible apply State.frameStart_keeps
    | with_reducible apply Keeps.ite)

theorem execSensorFrameStart_keeps {kl kf : Bool} (t : Nat) (c : Nat) (sensorFn : Nat) (s : State) :
    ∃ s1, execSensorFrameStart t c sensorFn s = .next s1 ∧ Keeps kl kf (s.at t) s1 := by
  refine ⟨_, rfl, ?_⟩
  repeat' (first
    | intro _
    | (with_reducible first | exact Keeps.refl _ _ _ | assumption)
    | with_reducible apply sensorFrameStartEffect_keeps)

theorem sensorFrameEndEffect_keeps {kl kf : Bool} {kb : State} (t : Nat) (c : Nat) (s0 : State)
    (hk : Keeps kl kf kb (s0.at t)) : Keeps kl kf kb (sensorFrameEndEffect t c s0) := by
  unfold sensorFrameEndEffect
  repeat' (first
    | intro _
    | with_reducible assumption
    | with_reducible apply State.endFrame_keeps
    | with_reducible apply Keeps.ite)

theorem execSensorFrameEnd_keeps {kl kf : Bool} (t : Nat) (c : Nat) (s : State) :
    ∃ s1, execSensorFrameEnd t c s = .next s1 ∧ Keeps kl kf (s.at t) s1 := by
  refine ⟨_, rfl, ?_⟩
  repeat' (first
    | intro _
    | (with_reducible first | exact Keeps.refl _ _ _ | assumption)
    | with_reducible apply sensorFrameEndEffect_keeps)

theorem frameTimeoutEffect_keeps {kl kf : Bool} {kb : State} (t : Nat) (c : Nat) (s0 : State)
    (hk : Keeps kl kf kb (s0.at t)) : Keeps kl kf kb (frameTimeoutEffect t c s0) := by
  unfold frameTimeoutEffect
  repeat' (first
    | intro _
    | with_reducible assumption
    | with_reducible apply State.endFrame_keeps
    | with_reducible apply State.event_keeps
    | with_reducible apply Keeps.ite)

theorem execFrameTimeout_keeps {kl kf : Bool} (t : Nat) (c : Nat) (s : State) :
    ∃ s1, execFrameTimeout t c s = .next s1 ∧ Keeps kl kf (s.at t) s1 := by
  refine ⟨_, rfl, ?_⟩
  repeat' (first
    | intro _
    | (with_reducible first | exact Keeps.refl _ _ _ | assumption)
    | with_reducible apply frameTimeoutEffect_keeps)

theorem State.unsupported_keeps {kl kf : Bool} {kb : State} (s : State) (p : Nat)
    (hk : Keeps kl kf kb s) : Keeps kl kf kb (State.unsupported s p) := by
  unfold State.unsupported
  repeat' (first
    | intro _
    | with_reducible assumption
    | with_reducible apply State.noteRare_keeps
    | with_reducible apply Keeps.ite
    | split
    | dsimp only [id]
    | simp only [Keeps.upd, State.modPort])

theorem State.embeddedLine_keeps {kl kf : Bool} {kb : State} (s : State) (c : Nat) (b : Option Bytes)
    (hk : Keeps kl kf kb s) : Keeps kl kf kb (State.embeddedLine s c b) := by
  unfold State.embeddedLine
  repeat' (first
    | intro _
    | with_reducible assumption
    | with_reducible apply Keeps.ite
    | split
    | dsimp only [id]
    | simp only [Keeps.upd, State.modCam])

theorem State.shortPacket_keeps {kl kf : Bool} {kb : State} (s : State) (c : Nat) (k : Packet)
    (hk : Keeps kl kf kb s) : Keeps kl kf kb (State.shortPacket s c k) := by
  unfold State.shortPacket
  repeat' (first
    | intro _
    | with_reducible assumption
    | with_reducible apply Keeps.ite
    | split
    | dsimp only [id]
    | simp only [Keeps.upd, State.modCam])

theorem State.routePacket_keeps {kl kf : Bool} {kb : State} (s : State) (p : Nat) (k : Packet)
    (hk : Keeps kl kf kb s) : Keeps kl kf kb (State.routePacket s p k) := by
  unfold State.routePacket
  repeat' (first
    | intro _
    | with_reducible assumption
    | with_reducible apply State.deliverLine_keeps
    | with_reducible apply State.embeddedLine_keeps
    | with_reducible apply State.endFrame_keeps
    | with_reducible apply State.frameStart_keeps
    | with_reducible apply State.shortPacket_keeps
    | with_reducible apply State.unsupported_keeps
    | with_reducible apply Keeps.ite
    | split
    | dsimp only [id]
    | simp only [Keeps.upd, State.modPort])

theorem csi2PacketEffect_keeps {kl kf : Bool} {kb : State} (t : Nat) (p : Nat) (k : Packet) (s0 : State)
    (hk : Keeps kl kf kb (s0.at t)) : Keeps kl kf kb (csi2PacketEffect t p k s0) := by
  unfold csi2PacketEffect
  repeat' (first
    | intro _
    | with_reducible assumption
    | with_reducible apply State.routePacket_keeps
    | with_reducible apply Keeps.ite
    | split
    | dsimp only [id]
    | simp only [Keeps.upd, State.modPort])

theorem execCsi2PacketReceive_keeps {kl kf : Bool} (t : Nat) (p : Nat) (k : Packet) (s : State) :
    ∃ s1, execCsi2PacketReceive t p k s = .next s1 ∧ Keeps kl kf (s.at t) s1 := by
  refine ⟨_, rfl, ?_⟩
  repeat' (first
    | intro _
    | (with_reducible first | exact Keeps.refl _ _ _ | assumption)
    | with_reducible apply csi2PacketEffect_keeps)

theorem State.joinGroup_keeps {kl kf : Bool} {kb : State} (s : State) (b : Bytes)
    (hk : Keeps kl kf kb s) : Keeps kl kf kb (State.joinGroup s b) := by
  unfold State.joinGroup
  repeat' (first
    | intro _
    | with_reducible assumption
    | with_reducible apply Keeps.ite
    | split
    | dsimp only [id]
    | simp only [Keeps.upd])

theorem State.assignAddress_keeps {kl kf : Bool} {kb : State} (s : State) (c : Nat)
    (hk : Keeps kl kf kb s) : Keeps kl kf kb (State.assignAddress s c) := by
  unfold State.assignAddress
  repeat' (first
    | intro _
    | with_reducible assumption
    | with_reducible apply State.emit_keeps
    | with_reducible apply Keeps.ite
    | split
    | dsimp only [id]
    | simp only [Keeps.upd])

theorem State.startBinding_keeps {kl kf : Bool} {kb : State} (s : State) (pr : Nat) (b : Bytes)
    (hk : Keeps kl kf kb s) : Keeps kl kf kb (State.startBinding s pr b) := by
  unfold State.startBinding
  repeat' (first
    | intro _
    | with_reducible assumption
    | with_reducible apply State.answer_keeps
    | with_reducible apply State.assignAddress_keeps
    | with_reducible apply State.emit_keeps
    | with_reducible apply State.joinGroup_keeps
    | with_reducible apply State.startReq_keeps
    | with_reducible apply Keeps.ite
    | split
    | dsimp only [id]
    | simp only [Keeps.upd, State.modCam, State.modPort, State.modRfe])

theorem cameraBindEffect_keeps {kl kf : Bool} {kb : State} (t : Nat) (p : Nat) (s0 : State)
    (hk : Keeps kl kf kb (s0.at t)) : Keeps kl kf kb (cameraBindEffect t p s0) := by
  unfold cameraBindEffect
  repeat' (first
    | intro _
    | with_reducible assumption
    | with_reducible apply State.answer_keeps
    | with_reducible apply State.beginUngate_keeps
    | with_reducible apply State.startBinding_keeps
    | with_reducible apply Keeps.ite
    | split
    | dsimp only [id])

theorem execCameraBind_keeps {kl kf : Bool} (t : Nat) (p : Nat) (s : State) :
    ∃ s1, execCameraBind t p s = .next s1 ∧ Keeps kl kf (s.at t) s1 := by
  refine ⟨_, rfl, ?_⟩
  repeat' (first
    | intro _
    | (with_reducible first | exact Keeps.refl _ _ _ | assumption)
    | with_reducible apply cameraBindEffect_keeps)

theorem cameraUnbindEffect_keeps {kl kf : Bool} {kb : State} (t : Nat) (p : Nat) (s0 : State)
    (hk : Keeps kl kf kb (s0.at t)) : Keeps kl kf kb (cameraUnbindEffect t p s0) := by
  unfold cameraUnbindEffect
  repeat' (first
    | intro _
    | with_reducible assumption
    | with_reducible apply State.answer_keeps
    | with_reducible apply State.leaveCam_keeps
    | with_reducible apply Keeps.ite
    | split
    | dsimp only [id]
    | simp only [Keeps.upd, State.modCam])

theorem execCameraUnbind_keeps {kl kf : Bool} (t : Nat) (p : Nat) (s : State) :
    ∃ s1, execCameraUnbind t p s = .next s1 ∧ Keeps kl kf (s.at t) s1 := by
  refine ⟨_, rfl, ?_⟩
  repeat' (first
    | intro _
    | (with_reducible first | exact Keeps.refl _ _ _ | assumption)
    | with_reducible apply cameraUnbindEffect_keeps)

theorem State.finishBinding_keeps {kl kf : Bool} {kb : State} (s : State) (c : Nat)
    (hk : Keeps kl kf kb s) : Keeps kl kf kb (State.finishBinding s c) := by
  unfold State.finishBinding
  repeat' (first
    | intro _
    | with_reducible assumption
    | with_reducible apply State.answer_keeps
    | with_reducible apply Keeps.ite
    | split
    | dsimp only [id]
    | simp only [Keeps.upd, State.modCam])

theorem portLockEffect_keeps {kl kf : Bool} {kb : State} (t : Nat) (p : Nat) (s0 : State)
    (hk : Keeps kl kf kb (s0.at t)) : Keeps kl kf kb (portLockEffect t p s0) := by
  unfold portLockEffect
  repeat' (first
    | intro _
    | with_reducible assumption
    | with_reducible apply Keeps.foldl
    | with_reducible apply State.finishBinding_keeps
    | with_reducible apply Keeps.ite
    | split
    | dsimp only [id]
    | simp only [Keeps.upd, State.modPort])

theorem execSensorPortLock_keeps {kl kf : Bool} (t : Nat) (p : Nat) (s : State) :
    ∃ s1, execSensorPortLock t p s = .next s1 ∧ Keeps kl kf (s.at t) s1 := by
  refine ⟨_, rfl, ?_⟩
  repeat' (first
    | intro _
    | (with_reducible first | exact Keeps.refl _ _ _ | assumption)
    | with_reducible apply portLockEffect_keeps)

theorem lockTimeoutEffect_keeps {kl kf : Bool} {kb : State} (t : Nat) (c : Nat) (s0 : State)
    (hk : Keeps kl kf kb (s0.at t)) : Keeps kl kf kb (lockTimeoutEffect t c s0) := by
  unfold lockTimeoutEffect
  repeat' (first
    | intro _
    | with_reducible assumption
    | with_reducible apply State.answer_keeps
    | with_reducible apply State.gateUnused_keeps
    | with_reducible apply State.note_keeps
    | with_reducible apply State.unbindCam_keeps
    | with_reducible apply Keeps.ite
    | split
    | dsimp only [id]
    | simp only [Keeps.upd, State.modPort])

theorem execPortLockTimeout_keeps {kl kf : Bool} (t : Nat) (c : Nat) (s : State) :
    ∃ s1, execPortLockTimeout t c s = .next s1 ∧ Keeps kl kf (s.at t) s1 := by
  refine ⟨_, rfl, ?_⟩
  repeat' (first
    | intro _
    | (with_reducible first | exact Keeps.refl _ _ _ | assumption)
    | with_reducible apply lockTimeoutEffect_keeps)

theorem portFailureEffect_keeps {kl kf : Bool} {kb : State} (t : Nat) (u : IngressPart) (s0 : State)
    (hk : Keeps kl kf kb (s0.at t)) : Keeps kl kf kb (portFailureEffect t u s0) := by
  unfold portFailureEffect
  repeat' (first
    | intro _
    | with_reducible assumption
    | with_reducible apply Keeps.foldl
    | with_reducible apply State.stopCam_keeps
    | with_reducible apply Keeps.ite
    | split
    | dsimp only [id]
    | simp only [Keeps.upd, State.modPort])

theorem execSensorPortFailure_keeps {kl kf : Bool} (t : Nat) (u : IngressPart) (s : State) :
    ∃ s1, execSensorPortFailure t u s = .next s1 ∧ Keeps kl kf (s.at t) s1 := by
  refine ⟨_, rfl, ?_⟩
  repeat' (first
    | intro _
    | (with_reducible first | exact Keeps.refl _ _ _ | assumption)
    | with_reducible apply portFailureEffect_keeps)

end Sys2Proof.Machine
end

