-- ==== Sys2Proof/Laws/Keeps/Lantern.lean ====
section
/-! SUPPORT. What the operations of Machine/Lantern.lean leave alone. -/
namespace Sys2Proof.Machine
open Sys2Proof
set_option linter.unusedSimpArgs false

theorem State.modLantern_keeps {kf : Bool} {kb : State} (s : State) (f : Lantern → Lantern)
    (hk : Keeps false kf kb s) : Keeps false kf kb (State.modLantern s f) := by
  unfold State.modLantern
  repeat' (first
    | intro _
    | with_reducible assumption
    | with_reducible apply Keeps.ite
    | split
    | dsimp only [id]
    | simp only [Keeps.upd, Keeps.updLantern, State.modLantern, State.modLChan])

theorem State.modLChan_keeps {kf : Bool} {kb : State} (s : State) (ch : Nat) (f : LChan → LChan)
    (hk : Keeps false kf kb s) : Keeps false kf kb (State.modLChan s ch f) := by
  unfold State.modLChan
  repeat' (first
    | intro _
    | with_reducible assumption
    | with_reducible apply Keeps.ite
    | split
    | dsimp only [id]
    | simp only [Keeps.upd, Keeps.updLantern, State.modLantern, State.modLChan, State.modLantern])

theorem State.lanternSend_keeps {kf : Bool} {kb : State} (s : State) (type : Nat) (chan : Nat) (payload : Bytes)
    (hk : Keeps false kf kb s) : Keeps false kf kb (State.lanternSend s type chan payload) := by
  unfold State.lanternSend
  repeat' (first
    | intro _
    | with_reducible assumption
    | with_reducible apply State.emit_keeps
    | with_reducible apply Keeps.ite
    | split
    | dsimp only [id]
    | simp only [Keeps.upd, Keeps.updLantern, State.modLantern, State.modLChan, State.modLantern])

theorem State.intField_keeps {kf : Bool} {kb : State} (s : State) (n : Nat) (v : Int)
    (hk : Keeps false kf kb s) : Keeps false kf kb (State.intField s n v).2 := by
  unfold State.intField
  repeat' (first
    | intro _
    | with_reducible assumption
    | with_reducible apply State.freeBytes_keeps
    | with_reducible apply Keeps.ite
    | split)

theorem State.wholeOf_keeps {kf : Bool} {kb : State} (s : State) (num : Int) (den : Nat)
    (hk : Keeps false kf kb s) : Keeps false kf kb (State.wholeOf s num den).2 := by
  unfold State.wholeOf
  repeat' (first
    | intro _
    | with_reducible assumption
    | with_reducible apply State.freeBytes_keeps
    | with_reducible apply Keeps.ite
    | split)

theorem State.eventPosition_keeps {kf : Bool} {kb : State} (s : State) (ch : Nat)
    (hk : Keeps false kf kb s) : Keeps false kf kb (State.eventPosition s ch).2 := by
  unfold State.eventPosition
  repeat' (first
    | intro _
    | with_reducible assumption
    | with_reducible apply State.intField_keeps
    | with_reducible apply Keeps.ite
    | split)

theorem State.lanternEvent_keeps {kf : Bool} {kb : State} (s : State) (ch : Nat) (status : Nat)
    (hk : Keeps false kf kb s) : Keeps false kf kb (State.lanternEvent s ch status) := by
  unfold State.lanternEvent
  repeat' (first
    | intro _
    | with_reducible assumption
    | with_reducible apply State.eventPosition_keeps
    | with_reducible apply State.lanternSend_keeps)

theorem State.sendLinkStatus_keeps {kf : Bool} {kb : State} (s : State) (temp : Bytes)
    (hk : Keeps false kf kb s) : Keeps false kf kb (State.sendLinkStatus s temp) := by
  unfold State.sendLinkStatus
  repeat' (first
    | intro _
    | with_reducible assumption
    | with_reducible apply State.lanternSend_keeps)

theorem State.tripChan_keeps {kf : Bool} {kb : State} (s : State) (ch : Nat) (status : Nat)
    (hk : Keeps false kf kb s) : Keeps false kf kb (State.tripChan s ch status) := by
  unfold State.tripChan
  repeat' (first
    | intro _
    | with_reducible assumption
    | with_reducible apply State.emit_keeps
    | with_reducible apply State.lanternEvent_keeps
    | with_reducible apply Keeps.ite
    | split
    | dsimp only [id]
    | simp only [Keeps.upd, Keeps.updLantern, State.modLantern, State.modLChan, State.modLChan])

theorem State.limitTrip_keeps {kf : Bool} {kb : State} (s : State) (ch : Nat) (positive : Bool)
    (hk : Keeps false kf kb s) : Keeps false kf kb (State.limitTrip s ch positive) := by
  unfold State.limitTrip
  repeat' (first
    | intro _
    | with_reducible assumption
    | with_reducible apply State.tripChan_keeps
    | with_reducible apply Keeps.ite
    | split
    | dsimp only [id]
    | simp only [Keeps.upd, Keeps.updLantern, State.modLantern, State.modLChan, State.modLChan])

theorem State.comparators_keeps {kf : Bool} {kb : State} (s : State) (ch : Nat)
    (hk : Keeps false kf kb s) : Keeps false kf kb (State.comparators s ch) := by
  unfold State.comparators
  repeat' (first
    | intro _
    | with_reducible assumption
    | with_reducible apply State.limitTrip_keeps
    | with_reducible apply State.tripChan_keeps
    | with_reducible apply Keeps.ite)

theorem execLimitTrip_keeps {kf : Bool} (t : Nat) (ch : Nat) (positive : Bool) (s0 : State) :
    ∃ s1, execLimitTrip t ch positive s0 = .next s1 ∧ Keeps false kf (s0.at t) s1 := by
  refine ⟨_, rfl, ?_⟩
  repeat' (first
    | intro _
    | (with_reducible first | exact Keeps.refl _ _ _ | assumption)
    | with_reducible apply State.limitTrip_keeps
    | with_reducible apply Keeps.ite
    | split
    | dsimp only [id]
    | simp only [Keeps.upd, Keeps.updLantern, State.modLantern, State.modLChan, State.modLChan])

theorem execOvercurrentTrip_keeps {kf : Bool} (t : Nat) (ch : Nat) (s0 : State) :
    ∃ s1, execOvercurrentTrip t ch s0 = .next s1 ∧ Keeps false kf (s0.at t) s1 := by
  refine ⟨_, rfl, ?_⟩
  repeat' (first
    | intro _
    | (with_reducible first | exact Keeps.refl _ _ _ | assumption)
    | with_reducible apply State.tripChan_keeps
    | with_reducible apply Keeps.ite
    | split
    | dsimp only [id]
    | simp only [Keeps.upd, Keeps.updLantern, State.modLantern, State.modLChan, State.modLChan])

theorem execVfieldUndervoltageTrip_keeps {kf : Bool} (t : Nat) (s0 : State) :
    ∃ s1, execVfieldUndervoltageTrip t s0 = .next s1 ∧ Keeps false kf (s0.at t) s1 := by
  refine ⟨_, rfl, ?_⟩
  repeat' (first
    | intro _
    | (with_reducible first | exact Keeps.refl _ _ _ | assumption)
    | with_reducible apply Keeps.foldl
    | with_reducible apply State.tripChan_keeps
    | with_reducible apply Keeps.ite)

theorem State.acceptFrame_keeps {kf : Bool} {kb : State} (s : State) (f : Bytes)
    (hk : Keeps false kf kb s) : Keeps false kf kb (State.acceptFrame s f) := by
  unfold State.acceptFrame
  repeat' (first
    | intro _
    | with_reducible assumption
    | with_reducible apply Keeps.ite
    | split
    | dsimp only [id]
    | simp only [Keeps.upd, Keeps.updLantern, State.modLantern, State.modLChan, State.modField, State.modLantern])

theorem State.onFrame_keeps {kf : Bool} {kb : State} (s : State) (f : Bytes) (mine : Bool) (eff : State → State) (h_eff : ∀ (a0 : State), Keeps false kf kb a0 → Keeps false kf kb (eff a0))
    (hk : Keeps false kf kb s) : Keeps false kf kb (State.onFrame s f mine eff) := by
  unfold State.onFrame
  repeat' (first
    | intro _
    | with_reducible assumption
    | with_reducible apply State.acceptFrame_keeps
    | with_reducible apply h_eff
    | with_reducible apply Keeps.ite)

theorem State.lanternAck_keeps {kf : Bool} {kb : State} (s : State) (f : Bytes) (status : Nat)
    (hk : Keeps false kf kb s) : Keeps false kf kb (State.lanternAck s f status) := by
  unfold State.lanternAck
  repeat' (first
    | intro _
    | with_reducible assumption
    | with_reducible apply State.freeBytes_keeps
    | with_reducible apply State.lanternSend_keeps
    | with_reducible apply Keeps.ite
    | split)

theorem State.takeSetpoint_keeps {kf : Bool} {kb : State} (s : State) (ch : Nat) (sp : Setpoint)
    (hk : Keeps false kf kb s) : Keeps false kf kb (State.takeSetpoint s ch sp) := by
  unfold State.takeSetpoint
  repeat' (first
    | intro _
    | with_reducible assumption
    | with_reducible apply State.lanternEvent_keeps
    | with_reducible apply Keeps.ite
    | split
    | dsimp only [id]
    | simp only [Keeps.upd, Keeps.updLantern, State.modLantern, State.modLChan, State.modLChan])

theorem execMotorSetpoint_keeps {kf : Bool} (t : Nat) (f : Bytes) (s0 : State) :
    ∃ s1, execMotorSetpoint t f s0 = .next s1 ∧ Keeps false kf (s0.at t) s1 := by
  refine ⟨_, rfl, ?_⟩
  repeat' (first
    | intro _
    | (with_reducible first | exact Keeps.refl _ _ _ | assumption)
    | with_reducible apply State.onFrame_keeps
    | with_reducible apply State.takeSetpoint_keeps)

theorem execCoolerSetpoint_keeps {kf : Bool} (t : Nat) (f : Bytes) (s0 : State) :
    ∃ s1, execCoolerSetpoint t f s0 = .next s1 ∧ Keeps false kf (s0.at t) s1 := by
  refine ⟨_, rfl, ?_⟩
  repeat' (first
    | intro _
    | (with_reducible first | exact Keeps.refl _ _ _ | assumption)
    | with_reducible apply State.onFrame_keeps
    | with_reducible apply State.takeSetpoint_keeps)

theorem execConfigWrite_keeps {kf : Bool} (t : Nat) (f : Bytes) (s0 : State) :
    ∃ s1, execConfigWrite t f s0 = .next s1 ∧ Keeps false kf (s0.at t) s1 := by
  refine ⟨_, rfl, ?_⟩
  repeat' (first
    | intro _
    | (with_reducible first | exact Keeps.refl _ _ _ | assumption)
    | with_reducible apply State.lanternAck_keeps
    | with_reducible apply State.onFrame_keeps
    | with_reducible apply Keeps.ite
    | split
    | dsimp only [id]
    | simp only [Keeps.upd, Keeps.updLantern, State.modLantern, State.modLChan, State.modLChan])

theorem execControlDisable_keeps {kf : Bool} (t : Nat) (f : Bytes) (s0 : State) :
    ∃ s1, execControlDisable t f s0 = .next s1 ∧ Keeps false kf (s0.at t) s1 := by
  refine ⟨_, rfl, ?_⟩
  repeat' (first
    | intro _
    | (with_reducible first | exact Keeps.refl _ _ _ | assumption)
    | with_reducible apply State.emit_keeps
    | with_reducible apply State.lanternAck_keeps
    | with_reducible apply State.onFrame_keeps
    | with_reducible apply Keeps.ite
    | split
    | dsimp only [id]
    | simp only [Keeps.upd, Keeps.updLantern, State.modLantern, State.modLChan, State.modLChan])

theorem State.arm_keeps {kf : Bool} {kb : State} (s : State) (ch : Nat)
    (hk : Keeps false kf kb s) : Keeps false kf kb (State.arm s ch) := by
  unfold State.arm
  repeat' (first
    | intro _
    | with_reducible assumption
    | with_reducible apply State.comparators_keeps
    | with_reducible apply Keeps.ite
    | split
    | dsimp only [id]
    | simp only [Keeps.upd, Keeps.updLantern, State.modLantern, State.modLChan, State.modLChan])

theorem execControlEnable_keeps {kf : Bool} (t : Nat) (f : Bytes) (s0 : State) :
    ∃ s1, execControlEnable t f s0 = .next s1 ∧ Keeps false kf (s0.at t) s1 := by
  refine ⟨_, rfl, ?_⟩
  repeat' (first
    | intro _
    | (with_reducible first | exact Keeps.refl _ _ _ | assumption)
    | with_reducible apply State.arm_keeps
    | with_reducible apply State.lanternAck_keeps
    | with_reducible apply State.onFrame_keeps
    | with_reducible apply Keeps.ite)

theorem execControlClearTrip_keeps {kf : Bool} (t : Nat) (f : Bytes) (s0 : State) :
    ∃ s1, execControlClearTrip t f s0 = .next s1 ∧ Keeps false kf (s0.at t) s1 := by
  refine ⟨_, rfl, ?_⟩
  repeat' (first
    | intro _
    | (with_reducible first | exact Keeps.refl _ _ _ | assumption)
    | with_reducible apply State.lanternAck_keeps
    | with_reducible apply State.onFrame_keeps
    | with_reducible apply Keeps.ite
    | split
    | dsimp only [id]
    | simp only [Keeps.upd, Keeps.updLantern, State.modLantern, State.modLChan, State.modLChan])

theorem execControlSetPosition_keeps {kf : Bool} (t : Nat) (f : Bytes) (s0 : State) :
    ∃ s1, execControlSetPosition t f s0 = .next s1 ∧ Keeps false kf (s0.at t) s1 := by
  refine ⟨_, rfl, ?_⟩
  repeat' (first
    | intro _
    | (with_reducible first | exact Keeps.refl _ _ _ | assumption)
    | with_reducible apply State.lanternAck_keeps
    | with_reducible apply State.onFrame_keeps
    | with_reducible apply Keeps.ite
    | split
    | dsimp only [id]
    | simp only [Keeps.upd, Keeps.updLantern, State.modLantern, State.modLChan, State.modLChan])

theorem execLinkAck_keeps {kf : Bool} (t : Nat) (f : Bytes) (s0 : State) :
    ∃ s1, execLinkAck t f s0 = .next s1 ∧ Keeps false kf (s0.at t) s1 := by
  refine ⟨_, rfl, ?_⟩
  repeat' (first
    | intro _
    | (with_reducible first | exact Keeps.refl _ _ _ | assumption)
    | with_reducible apply State.lanternAck_keeps
    | with_reducible apply State.onFrame_keeps
    | with_reducible apply Keeps.ite
    | split
    | dsimp only [id]
    | simp only [Keeps.upd, Keeps.updLantern, State.modLantern, State.modLChan, State.modLantern])

theorem State.phaseCurrents_keeps {kf : Bool} {kb : State} (s : State) (c : LChan)
    (hk : Keeps false kf kb s) : Keeps false kf kb (State.phaseCurrents s c).2.2 := by
  unfold State.phaseCurrents
  repeat' (first
    | intro _
    | with_reducible assumption
    | with_reducible apply State.wholeOf_keeps
    | with_reducible apply Keeps.ite
    | split
    | dsimp only [id]
    | simp only [Keeps.upd, Keeps.updLantern, State.modLantern, State.modLChan])

theorem State.checkWatchdog_keeps {kf : Bool} {kb : State} (s : State) (ch : Nat)
    (hk : Keeps false kf kb s) : Keeps false kf kb (State.checkWatchdog s ch) := by
  unfold State.checkWatchdog
  repeat' (first
    | intro _
    | with_reducible assumption
    | with_reducible apply State.lanternEvent_keeps
    | with_reducible apply Keeps.ite
    | split
    | dsimp only [id]
    | simp only [Keeps.upd, Keeps.updLantern, State.modLantern, State.modLChan, State.modLChan])

theorem State.advanceRamp_keeps {kf : Bool} {kb : State} (s : State) (ch : Nat)
    (hk : Keeps false kf kb s) : Keeps false kf kb (State.advanceRamp s ch) := by
  unfold State.advanceRamp
  repeat' (first
    | intro _
    | with_reducible assumption
    | with_reducible apply State.emit_keeps
    | with_reducible apply State.lanternEvent_keeps
    | with_reducible apply Keeps.ite
    | split
    | dsimp only [id]
    | simp only [Keeps.upd, Keeps.updLantern, State.modLantern, State.modLChan, State.modLChan])

theorem State.advanceChan_keeps {kf : Bool} {kb : State} (s : State) (ch : Nat)
    (hk : Keeps false kf kb s) : Keeps false kf kb (State.advanceChan s ch) := by
  unfold State.advanceChan
  repeat' (first
    | intro _
    | with_reducible assumption
    | with_reducible apply State.advanceRamp_keeps
    | with_reducible apply Keeps.ite
    | split
    | dsimp only [id]
    | simp only [Keeps.upd, Keeps.updLantern, State.modLantern, State.modLChan, State.modLChan])

theorem State.drivePhases_keeps {kf : Bool} {kb : State} (s : State) (ch : Nat) (c : LChan)
    (hk : Keeps false kf kb s) : Keeps false kf kb (State.drivePhases s ch c) := by
  unfold State.drivePhases
  repeat' (first
    | intro _
    | with_reducible assumption
    | with_reducible apply State.emit_keeps
    | with_reducible apply State.freeBytes_keeps
    | with_reducible apply State.phaseCurrents_keeps
    | with_reducible apply Keeps.ite
    | split
    | dsimp only [id]
    | simp only [Keeps.upd, Keeps.updLantern, State.modLantern, State.modLChan, State.modLChan])

theorem State.driveChan_keeps {kf : Bool} {kb : State} (s : State) (ch : Nat)
    (hk : Keeps false kf kb s) : Keeps false kf kb (State.driveChan s ch) := by
  unfold State.driveChan
  repeat' (first
    | intro _
    | with_reducible assumption
    | with_reducible apply State.drivePhases_keeps
    | with_reducible apply State.emit_keeps
    | with_reducible apply Keeps.ite
    | split
    | dsimp only [id]
    | simp only [Keeps.upd, Keeps.updLantern, State.modLantern, State.modLChan, State.modLChan])

theorem State.useSetpoint_keeps {kf : Bool} {kb : State} (s : State) (ch : Nat)
    (hk : Keeps false kf kb s) : Keeps false kf kb (State.useSetpoint s ch) := by
  unfold State.useSetpoint
  repeat' (first
    | intro _
    | with_reducible assumption
    | with_reducible apply State.emit_keeps
    | with_reducible apply Keeps.ite
    | split
    | dsimp only [id]
    | simp only [Keeps.upd, Keeps.updLantern, State.modLantern, State.modLChan, State.modLChan])

theorem State.stepTrips_keeps {kf : Bool} {kb : State} (s : State) (ch : Nat)
    (hk : Keeps false kf kb s) : Keeps false kf kb (State.stepTrips s ch) := by
  unfold State.stepTrips
  repeat' (first
    | intro _
    | with_reducible assumption
    | with_reducible apply State.comparators_keeps
    | with_reducible apply State.tripChan_keeps
    | with_reducible apply Keeps.ite
    | split
    | dsimp only [id])

theorem State.stepChan_keeps {kf : Bool} {kb : State} (s : State) (ch : Nat) (i : Option ChanIn)
    (hk : Keeps false kf kb s) : Keeps false kf kb (State.stepChan s ch i) := by
  unfold State.stepChan
  repeat' (first
    | intro _
    | with_reducible assumption
    | with_reducible apply State.advanceChan_keeps
    | with_reducible apply State.checkWatchdog_keeps
    | with_reducible apply State.driveChan_keeps
    | with_reducible apply State.stepTrips_keeps
    | with_reducible apply State.useSetpoint_keeps
    | with_reducible apply Keeps.ite
    | split
    | dsimp only [id]
    | simp only [Keeps.upd, Keeps.updLantern, State.modLantern, State.modLChan, State.modLChan])

theorem execLoopStep_keeps {kf : Bool} (t : Nat) (ins : List ChanIn) (s0 : State) :
    ∃ s1, execLoopStep t ins s0 = .next s1 ∧ Keeps false kf (s0.at t) s1 := by
  refine ⟨_, rfl, ?_⟩
  repeat' (first
    | intro _
    | (with_reducible first | exact Keeps.refl _ _ _ | assumption)
    | with_reducible apply Keeps.foldl
    | with_reducible apply State.stepChan_keeps
    | with_reducible apply Keeps.ite
    | split
    | dsimp only [id]
    | simp only [Keeps.upd, Keeps.updLantern, State.modLantern, State.modLChan, State.modLantern])

theorem execWatchdogExpiry_keeps {kf : Bool} (t : Nat) (ch : Nat) (s0 : State) :
    ∃ s1, execWatchdogExpiry t ch s0 = .next s1 ∧ Keeps false kf (s0.at t) s1 := by
  refine ⟨_, rfl, ?_⟩
  repeat' (first
    | intro _
    | (with_reducible first | exact Keeps.refl _ _ _ | assumption)
    | with_reducible apply State.checkWatchdog_keeps
    | with_reducible apply Keeps.ite)

theorem State.currentField_keeps {kf : Bool} {kb : State} (s : State) (ch : Nat)
    (hk : Keeps false kf kb s) : Keeps false kf kb (State.currentField s ch).2 := by
  unfold State.currentField
  repeat' (first
    | intro _
    | with_reducible assumption
    | with_reducible apply State.freeBytes_keeps
    | with_reducible apply State.intField_keeps
    | with_reducible apply State.wholeOf_keeps
    | with_reducible apply Keeps.ite
    | split)

theorem State.useFields_keeps {kf : Bool} {kb : State} (s : State) (ch : Nat)
    (hk : Keeps false kf kb s) : Keeps false kf kb (State.useFields s ch).2 := by
  unfold State.useFields
  repeat' (first
    | intro _
    | with_reducible assumption
    | with_reducible apply State.freeBytes_keeps
    | with_reducible apply Keeps.ite
    | split)

theorem State.sendChanStatus_keeps {kf : Bool} {kb : State} (s : State) (ch : Nat)
    (hk : Keeps false kf kb s) : Keeps false kf kb (State.sendChanStatus s ch) := by
  unfold State.sendChanStatus
  repeat' (first
    | intro _
    | with_reducible assumption
    | with_reducible apply State.currentField_keeps
    | with_reducible apply State.intField_keeps
    | with_reducible apply State.lanternSend_keeps
    | with_reducible apply State.useFields_keeps
    | with_reducible apply State.wholeOf_keeps
    | with_reducible apply Keeps.ite)

theorem execChannelStatusSend_keeps {kf : Bool} (t : Nat) (ch : Nat) (s0 : State) :
    ∃ s1, execChannelStatusSend t ch s0 = .next s1 ∧ Keeps false kf (s0.at t) s1 := by
  refine ⟨_, rfl, ?_⟩
  repeat' (first
    | intro _
    | (with_reducible first | exact Keeps.refl _ _ _ | assumption)
    | with_reducible apply State.sendChanStatus_keeps
    | with_reducible apply Keeps.ite)

theorem execLinkStatusSend_keeps {kf : Bool} (t : Nat) (mv : Nat) (temp : Int) (s0 : State) :
    ∃ s1, execLinkStatusSend t mv temp s0 = .next s1 ∧ Keeps false kf (s0.at t) s1 := by
  refine ⟨_, rfl, ?_⟩
  repeat' (first
    | intro _
    | (with_reducible first | exact Keeps.refl _ _ _ | assumption)
    | with_reducible apply State.intField_keeps
    | with_reducible apply State.sendLinkStatus_keeps
    | with_reducible apply Keeps.ite
    | split
    | dsimp only [id]
    | simp only [Keeps.upd, Keeps.updLantern, State.modLantern, State.modLChan, State.modLantern])

theorem execLanternResetRelease_keeps {kf : Bool} (t : Nat) (mv : Nat) (s0 : State) :
    ∃ s1, execLanternResetRelease t mv s0 = .next s1 ∧ Keeps false kf (s0.at t) s1 := by
  refine ⟨_, rfl, ?_⟩
  repeat' (first
    | intro _
    | (with_reducible first | exact Keeps.refl _ _ _ | assumption)
    | with_reducible apply Keeps.ite
    | split
    | dsimp only [id]
    | simp only [Keeps.upd, Keeps.updLantern, State.modLantern, State.modLChan, State.modLantern])

theorem execLanternResetEntry_keeps {kf : Bool} (t : Nat) (s0 : State) :
    ∃ s1, execLanternResetEntry t s0 = .next s1 ∧ Keeps false kf (s0.at t) s1 := by
  refine ⟨_, rfl, ?_⟩
  repeat' (first
    | intro _
    | (with_reducible first | exact Keeps.refl _ _ _ | assumption)
    | with_reducible apply Keeps.foldl
    | with_reducible apply State.emit_keeps
    | with_reducible apply Keeps.ite
    | split
    | dsimp only [id]
    | simp only [Keeps.upd, Keeps.updLantern, State.modLantern, State.modLChan])

theorem execLanternSelftestComplete_keeps {kf : Bool} (t : Nat) (pass : Bool) (s0 : State) :
    ∃ s1, execLanternSelftestComplete t pass s0 = .next s1 ∧ Keeps false kf (s0.at t) s1 := by
  refine ⟨_, rfl, ?_⟩
  repeat' (first
    | intro _
    | (with_reducible first | exact Keeps.refl _ _ _ | assumption)
    | with_reducible apply State.freeBytes_keeps
    | with_reducible apply State.sendLinkStatus_keeps
    | with_reducible apply Keeps.ite
    | split
    | dsimp only [id]
    | simp only [Keeps.upd, Keeps.updLantern, State.modLantern, State.modLChan, State.modField, State.modLantern])

end Sys2Proof.Machine
end

