-- ==== Sys2Proof/Laws/Keeps/Mailbox.lean ====
section
/-! SUPPORT. What the operations of Machine/Mailbox.lean leave alone. -/
namespace Sys2Proof.Machine
open Sys2Proof
set_option linter.unusedSimpArgs false

theorem execIdentify_keeps {kl kf : Bool} (t : Nat) (p : Nat) (s : State) :
    ∃ s1, execIdentify t p s = .next s1 ∧ Keeps kl kf (s.at t) s1 := by
  refine ⟨_, rfl, ?_⟩
  repeat' (first
    | intro _
    | (with_reducible first | exact Keeps.refl _ _ _ | assumption)
    | with_reducible apply State.respond_keeps
    | with_reducible apply Keeps.ite
    | split)

theorem execGetState_keeps {kl kf : Bool} (t : Nat) (p : Nat) (s : State) :
    ∃ s1, execGetState t p s = .next s1 ∧ Keeps kl kf (s.at t) s1 := by
  refine ⟨_, rfl, ?_⟩
  repeat' (first
    | intro _
    | (with_reducible first | exact Keeps.refl _ _ _ | assumption)
    | with_reducible apply State.respond_keeps
    | with_reducible apply Keeps.ite
    | split)

theorem setEventsEffect_keeps {kl kf : Bool} {kb : State} (t : Nat) (p : Nat) (s0 : State)
    (hk : Keeps kl kf kb (s0.at t)) : Keeps kl kf kb (setEventsEffect t p s0) := by
  unfold setEventsEffect
  repeat' (first
    | intro _
    | with_reducible assumption
    | with_reducible apply State.answer_keeps
    | with_reducible apply Keeps.ite
    | split
    | dsimp only [id]
    | simp only [Keeps.upd, State.modPci])

theorem execSetEvents_keeps {kl kf : Bool} (t : Nat) (p : Nat) (s : State) :
    ∃ s1, execSetEvents t p s = .next s1 ∧ Keeps kl kf (s.at t) s1 := by
  refine ⟨_, rfl, ?_⟩
  repeat' (first
    | intro _
    | (with_reducible first | exact Keeps.refl _ _ _ | assumption)
    | with_reducible apply setEventsEffect_keeps)

theorem contextReadEffect_keeps {kl kf : Bool} {kb : State} (t : Nat) (p : Nat) (s0 : State)
    (hk : Keeps kl kf kb (s0.at t)) : Keeps kl kf kb (contextReadEffect t p s0) := by
  unfold contextReadEffect
  repeat' (first
    | intro _
    | with_reducible assumption
    | with_reducible apply State.answer_keeps
    | with_reducible apply State.respond_keeps
    | with_reducible apply Keeps.ite
    | split
    | dsimp only [id])

theorem execContextRead_keeps {kl kf : Bool} (t : Nat) (p : Nat) (s : State) :
    ∃ s1, execContextRead t p s = .next s1 ∧ Keeps kl kf (s.at t) s1 := by
  refine ⟨_, rfl, ?_⟩
  repeat' (first
    | intro _
    | (with_reducible first | exact Keeps.refl _ _ _ | assumption)
    | with_reducible apply contextReadEffect_keeps)

theorem setCacheEffect_keeps {kl kf : Bool} {kb : State} (t : Nat) (p : Nat) (s0 : State)
    (hk : Keeps kl kf kb (s0.at t)) : Keeps kl kf kb (setCacheEffect t p s0) := by
  unfold setCacheEffect
  repeat' (first
    | intro _
    | with_reducible assumption
    | with_reducible apply State.answer_keeps
    | with_reducible apply State.setCache_keeps
    | with_reducible apply Keeps.ite
    | split
    | dsimp only [id])

theorem execSetCache_keeps {kl kf : Bool} (t : Nat) (p : Nat) (s : State) :
    ∃ s1, execSetCache t p s = .next s1 ∧ Keeps kl kf (s.at t) s1 := by
  refine ⟨_, rfl, ?_⟩
  repeat' (first
    | intro _
    | (with_reducible first | exact Keeps.refl _ _ _ | assumption)
    | with_reducible apply setCacheEffect_keeps)

theorem hostWindowEffect_keeps {kl kf : Bool} {kb : State} (t : Nat) (p : Nat) (s0 : State)
    (hk : Keeps kl kf kb (s0.at t)) : Keeps kl kf kb (hostWindowEffect t p s0) := by
  unfold hostWindowEffect
  repeat' (first
    | intro _
    | with_reducible assumption
    | with_reducible apply State.answer_keeps
    | with_reducible apply State.write_keeps
    | with_reducible apply Keeps.ite
    | split
    | dsimp only [id]
    | simp only [Keeps.upd, State.modPci])

theorem execHostWindow_keeps {kl kf : Bool} (t : Nat) (p : Nat) (s : State) :
    ∃ s1, execHostWindow t p s = .next s1 ∧ Keeps kl kf (s.at t) s1 := by
  refine ⟨_, rfl, ?_⟩
  repeat' (first
    | intro _
    | (with_reducible first | exact Keeps.refl _ _ _ | assumption)
    | with_reducible apply hostWindowEffect_keeps)

theorem dmaCopyEffect_keeps {kl kf : Bool} {kb : State} (t : Nat) (p : Nat) (s0 : State)
    (hk : Keeps kl kf kb (s0.at t)) : Keeps kl kf kb (dmaCopyEffect t p s0) := by
  unfold dmaCopyEffect
  repeat' (first
    | intro _
    | with_reducible assumption
    | with_reducible apply State.answer_keeps
    | with_reducible apply State.startReq_keeps
    | with_reducible apply Keeps.ite
    | split
    | dsimp only [id])

theorem execDmaCopy_keeps {kl kf : Bool} (t : Nat) (p : Nat) (s : State) :
    ∃ s1, execDmaCopy t p s = .next s1 ∧ Keeps kl kf (s.at t) s1 := by
  refine ⟨_, rfl, ?_⟩
  repeat' (first
    | intro _
    | (with_reducible first | exact Keeps.refl _ _ _ | assumption)
    | with_reducible apply dmaCopyEffect_keeps)

theorem State.startArrayTest_keeps {kl kf : Bool} {kb : State} (s : State) (p : Nat) (a : ArrayRef)
    (hk : Keeps kl kf kb s) : Keeps kl kf kb (State.startArrayTest s p a) := by
  unfold State.startArrayTest
  repeat' (first
    | intro _
    | with_reducible assumption
    | with_reducible apply State.answer_keeps
    | with_reducible apply State.answerTest_keeps
    | with_reducible apply State.beginTest_keeps
    | with_reducible apply State.openFor_keeps
    | with_reducible apply State.startReq_keeps
    | with_reducible apply Keeps.ite)

theorem State.startVisionTest_keeps {kl kf : Bool} {kb : State} (s : State) (p : Nat) (u : Nat)
    (hk : Keeps kl kf kb s) : Keeps kl kf kb (State.startVisionTest s p u) := by
  unfold State.startVisionTest
  repeat' (first
    | intro _
    | with_reducible assumption
    | with_reducible apply State.answer_keeps
    | with_reducible apply State.answerTest_keeps
    | with_reducible apply State.openFor_keeps
    | with_reducible apply State.startReq_keeps
    | with_reducible apply Keeps.ite
    | split
    | dsimp only [id]
    | simp only [Keeps.upd, State.modVis])

theorem selftestEffect_keeps {kl kf : Bool} {kb : State} (t : Nat) (p : Nat) (s0 : State)
    (hk : Keeps kl kf kb (s0.at t)) : Keeps kl kf kb (selftestEffect t p s0) := by
  unfold selftestEffect
  repeat' (first
    | intro _
    | with_reducible assumption
    | with_reducible apply State.answer_keeps
    | with_reducible apply State.startArrayTest_keeps
    | with_reducible apply State.startVisionTest_keeps
    | with_reducible apply Keeps.ite
    | split
    | dsimp only [id])

theorem execSelftest_keeps {kl kf : Bool} (t : Nat) (p : Nat) (s : State) :
    ∃ s1, execSelftest t p s = .next s1 ∧ Keeps kl kf (s.at t) s1 := by
  refine ⟨_, rfl, ?_⟩
  repeat' (first
    | intro _
    | (with_reducible first | exact Keeps.refl _ _ _ | assumption)
    | with_reducible apply selftestEffect_keeps)

theorem execTelemetry_keeps {kl kf : Bool} (t : Nat) (p : Nat) (s : State) :
    ∃ s1, execTelemetry t p s = .next s1 ∧ Keeps kl kf (s.at t) s1 := by
  refine ⟨_, rfl, ?_⟩
  repeat' (first
    | intro _
    | (with_reducible first | exact Keeps.refl _ _ _ | assumption)
    | with_reducible apply State.freeBytes_keeps
    | with_reducible apply State.respond_keeps
    | with_reducible apply Keeps.ite
    | split)

theorem logReadEffect_keeps {kl kf : Bool} {kb : State} (t : Nat) (p : Nat) (s0 : State)
    (hk : Keeps kl kf kb (s0.at t)) : Keeps kl kf kb (logReadEffect t p s0) := by
  unfold logReadEffect
  repeat' (first
    | intro _
    | with_reducible assumption
    | with_reducible apply State.answer_keeps
    | with_reducible apply State.respond_keeps
    | with_reducible apply Keeps.ite
    | split
    | dsimp only [id])

theorem execLogRead_keeps {kl kf : Bool} (t : Nat) (p : Nat) (s : State) :
    ∃ s1, execLogRead t p s = .next s1 ∧ Keeps kl kf (s.at t) s1 := by
  refine ⟨_, rfl, ?_⟩
  repeat' (first
    | intro _
    | (with_reducible first | exact Keeps.refl _ _ _ | assumption)
    | with_reducible apply logReadEffect_keeps)

theorem State.answerTime_keeps {kl kf : Bool} {kb : State} (s : State) (p : Nat) (status : Nat)
    (hk : Keeps kl kf kb s) : Keeps kl kf kb (State.answerTime s p status) := by
  unfold State.answerTime
  repeat' (first
    | intro _
    | with_reducible assumption
    | with_reducible apply State.respond_keeps)

theorem State.devtimeReq_keeps {kl kf : Bool} {kb : State} (s : State) (p : Nat) (kind : Nat) (f : Nat → State → State) (h_f : ∀ (a0 : Nat) (a1 : State), Keeps kl kf kb a1 → Keeps kl kf kb (f a0 a1))
    (hk : Keeps kl kf kb s) : Keeps kl kf kb (State.devtimeReq s p kind f) := by
  unfold State.devtimeReq
  repeat' (first
    | intro _
    | with_reducible assumption
    | with_reducible apply State.answer_keeps
    | with_reducible apply h_f
    | with_reducible apply Keeps.ite
    | split)

theorem State.stepTime_keeps {kl kf : Bool} {kb : State} (s : State) (v : Nat)
    (hk : Keeps kl kf kb s) : Keeps kl kf kb (State.stepTime s v) := by
  unfold State.stepTime
  repeat' (first
    | intro _
    | with_reducible assumption
    | with_reducible apply Keeps.ite
    | split
    | dsimp only [id]
    | simp only [Keeps.upd])

theorem execDevtimeRead_keeps {kl kf : Bool} (t : Nat) (p : Nat) (s : State) :
    ∃ s1, execDevtimeRead t p s = .next s1 ∧ Keeps kl kf (s.at t) s1 := by
  refine ⟨_, rfl, ?_⟩
  repeat' (first
    | intro _
    | (with_reducible first | exact Keeps.refl _ _ _ | assumption)
    | with_reducible apply State.answerTime_keeps
    | with_reducible apply State.devtimeReq_keeps)

theorem execDevtimeStep_keeps {kl kf : Bool} (t : Nat) (p : Nat) (s : State) :
    ∃ s1, execDevtimeStep t p s = .next s1 ∧ Keeps kl kf (s.at t) s1 := by
  refine ⟨_, rfl, ?_⟩
  repeat' (first
    | intro _
    | (with_reducible first | exact Keeps.refl _ _ _ | assumption)
    | with_reducible apply State.answer_keeps
    | with_reducible apply State.answerTime_keeps
    | with_reducible apply State.devtimeReq_keeps
    | with_reducible apply State.stepTime_keeps
    | with_reducible apply Keeps.ite)

theorem execDevtimeSlew_keeps {kl kf : Bool} (t : Nat) (p : Nat) (s : State) :
    ∃ s1, execDevtimeSlew t p s = .next s1 ∧ Keeps kl kf (s.at t) s1 := by
  refine ⟨_, rfl, ?_⟩
  repeat' (first
    | intro _
    | (with_reducible first | exact Keeps.refl _ _ _ | assumption)
    | with_reducible apply State.answer_keeps
    | with_reducible apply State.answerTime_keeps
    | with_reducible apply State.devtimeReq_keeps
    | with_reducible apply Keeps.ite
    | split
    | dsimp only [id]
    | simp only [Keeps.upd])

theorem execDevtimePps_keeps {kl kf : Bool} (t : Nat) (p : Nat) (s : State) :
    ∃ s1, execDevtimePps t p s = .next s1 ∧ Keeps kl kf (s.at t) s1 := by
  refine ⟨_, rfl, ?_⟩
  repeat' (first
    | intro _
    | (with_reducible first | exact Keeps.refl _ _ _ | assumption)
    | with_reducible apply State.answer_keeps
    | with_reducible apply State.answerTime_keeps
    | with_reducible apply State.devtimeReq_keeps
    | with_reducible apply Keeps.ite
    | split
    | dsimp only [id]
    | simp only [Keeps.upd])

theorem execWtDevtimeRead_keeps {kl kf : Bool} (t : Nat) (s : State) :
    ∃ s1, execWtDevtimeRead t s = .next s1 ∧ Keeps kl kf (s.at t) s1 := by
  refine ⟨_, rfl, ?_⟩
  repeat' (first
    | intro _
    | (with_reducible first | exact Keeps.refl _ _ _ | assumption)
    | with_reducible apply State.emit_keeps
    | with_reducible apply Keeps.ite
    | split
    | dsimp only [id]
    | simp only [Keeps.upd])

end Sys2Proof.Machine
end

