-- ==== Sys2Proof/Laws/Keeps/Scu.lean ====
section
/-! SUPPORT. What the operations of Machine/Scu.lean leave alone. -/
namespace Sys2Proof.Machine
open Sys2Proof
set_option linter.unusedSimpArgs false

theorem State.writeCompletion_keeps {kl kf : Bool} {kb : State} (s : State) (c : Nat) (r : ExpReq) (status : Nat)
    (hk : Keeps kl kf kb s) : Keeps kl kf kb (State.writeCompletion s c r status) := by
  unfold State.writeCompletion
  repeat' (first
    | intro _
    | with_reducible assumption
    | with_reducible apply State.record_keeps
    | with_reducible apply Keeps.ite
    | split
    | dsimp only [id]
    | simp only [Keeps.upd, State.modCam])

theorem State.acceptExposure_keeps {kl kf : Bool} {kb : State} (s : State) (b : Bytes) (f : Nat) (epoch : Nat) (c : Nat)
    (hk : Keeps kl kf kb s) : Keeps kl kf kb (State.acceptExposure s b f epoch c) := by
  unfold State.acceptExposure
  repeat' (first
    | intro _
    | with_reducible assumption
    | with_reducible apply Keeps.foldl
    | with_reducible apply State.raise_keeps
    | with_reducible apply State.writeCompletion_keeps
    | with_reducible apply Keeps.ite
    | split
    | dsimp only [id]
    | simp only [Keeps.upd, State.modCam])

theorem State.setEpochCounter_keeps {kl kf : Bool} {kb : State} (s : State) (c : Nat) (e : Nat)
    (hk : Keeps kl kf kb s) : Keeps kl kf kb (State.setEpochCounter s c e) := by
  unfold State.setEpochCounter
  repeat' (first
    | intro _
    | with_reducible assumption
    | with_reducible apply Keeps.ite
    | split
    | dsimp only [id]
    | simp only [Keeps.upd, State.modCam])

theorem State.takeExposure_keeps {kl kf : Bool} {kb : State} (s : State) (b : Bytes)
    (hk : Keeps kl kf kb s) : Keeps kl kf kb (State.takeExposure s b).2.2 := by
  unfold State.takeExposure
  repeat' (first
    | intro _
    | with_reducible assumption
    | with_reducible apply Keeps.foldl
    | with_reducible apply State.acceptExposure_keeps
    | with_reducible apply State.setEpochCounter_keeps
    | with_reducible apply Keeps.ite
    | split
    | dsimp only [id])

theorem exposureEffect_keeps {kl kf : Bool} {kb : State} (t : Nat) (p : Nat) (s0 : State)
    (hk : Keeps kl kf kb (s0.at t)) : Keeps kl kf kb (exposureEffect t p s0) := by
  unfold exposureEffect
  repeat' (first
    | intro _
    | with_reducible assumption
    | with_reducible apply State.answer_keeps
    | with_reducible apply State.respond_keeps
    | with_reducible apply State.takeExposure_keeps
    | with_reducible apply Keeps.ite
    | split
    | dsimp only [id])

theorem execExposure_keeps {kl kf : Bool} (t : Nat) (p : Nat) (s : State) :
    ∃ s1, execExposure t p s = .next s1 ∧ Keeps kl kf (s.at t) s1 := by
  refine ⟨_, rfl, ?_⟩
  repeat' (first
    | intro _
    | (with_reducible first | exact Keeps.refl _ _ _ | assumption)
    | with_reducible apply exposureEffect_keeps)

theorem scuReqWriteEffect_keeps {kl kf : Bool} {kb : State} (t : Nat) (e : Nat) (a : Nat) (b : Bytes) (s0 : State)
    (hk : Keeps kl kf kb (s0.at t)) : Keeps kl kf kb (scuReqWriteEffect t e a b s0) := by
  unfold scuReqWriteEffect
  repeat' (first
    | intro _
    | with_reducible assumption
    | with_reducible apply State.countRefusal_keeps
    | with_reducible apply State.takeExposure_keeps
    | with_reducible apply State.windowFault_keeps
    | with_reducible apply Keeps.ite)

theorem execScuReqWrite_keeps {kl kf : Bool} (t : Nat) (e : Nat) (a : Nat) (b : Bytes) (s : State) :
    ∃ s1, execScuReqWrite t e a b s = .next s1 ∧ Keeps kl kf (s.at t) s1 := by
  refine ⟨_, rfl, ?_⟩
  repeat' (first
    | intro _
    | (with_reducible first | exact Keeps.refl _ _ _ | assumption)
    | with_reducible apply scuReqWriteEffect_keeps)

theorem State.issueTransaction_keeps {kl kf : Bool} {kb : State} (s : State) (bus : Nat) (o : BusOp)
    (hk : Keeps kl kf kb s) : Keeps kl kf kb (State.issueTransaction s bus o) := by
  unfold State.issueTransaction
  repeat' (first
    | intro _
    | with_reducible assumption
    | with_reducible apply State.emit_keeps
    | with_reducible apply State.read_keeps
    | with_reducible apply Keeps.ite
    | split
    | dsimp only [id]
    | simp only [Keeps.upd])

theorem State.modReq_keeps {kl kf : Bool} {kb : State} (s : State) (c : Nat) (epoch : Nat) (f : ExpReq → ExpReq)
    (hk : Keeps kl kf kb s) : Keeps kl kf kb (State.modReq s c epoch f) := by
  unfold State.modReq
  repeat' (first
    | intro _
    | with_reducible assumption
    | with_reducible apply Keeps.ite
    | split
    | dsimp only [id]
    | simp only [Keeps.upd, State.modCam])

theorem State.freeBus_keeps {kl kf : Bool} {kb : State} (s : State) (bus : Nat)
    (hk : Keeps kl kf kb s) : Keeps kl kf kb (State.freeBus s bus) := by
  unfold State.freeBus
  repeat' (first
    | intro _
    | with_reducible assumption
    | with_reducible apply Keeps.ite
    | split
    | dsimp only [id]
    | simp only [Keeps.upd])

theorem State.endRequest_keeps {kl kf : Bool} {kb : State} (s : State) (c : Nat) (r : ExpReq) (status : Nat)
    (hk : Keeps kl kf kb s) : Keeps kl kf kb (State.endRequest s c r status) := by
  unfold State.endRequest
  repeat' (first
    | intro _
    | with_reducible assumption
    | with_reducible apply Keeps.ite
    | split
    | dsimp only [id]
    | simp only [Keeps.upd, State.modCam])

theorem State.failRequest_keeps {kl kf : Bool} {kb : State} (s : State) (c : Nat) (epoch : Nat)
    (hk : Keeps kl kf kb s) : Keeps kl kf kb (State.failRequest s c epoch) := by
  unfold State.failRequest
  repeat' (first
    | intro _
    | with_reducible assumption
    | with_reducible apply State.endRequest_keeps
    | with_reducible apply Keeps.ite
    | split
    | dsimp only [id]
    | simp only [Keeps.upd, State.modCam, State.modReq])

theorem State.relapse_keeps {kl kf : Bool} {kb : State} (s : State) (c : Nat) (r : ExpReq)
    (hk : Keeps kl kf kb s) : Keeps kl kf kb (State.relapse s c r) := by
  unfold State.relapse
  repeat' (first
    | intro _
    | with_reducible assumption
    | with_reducible apply State.failRequest_keeps
    | with_reducible apply Keeps.ite
    | split
    | dsimp only [id]
    | simp only [Keeps.upd, State.modCam, State.modReq])

theorem State.relapseBus_keeps {kl kf : Bool} {kb : State} (s : State) (bus : Nat)
    (hk : Keeps kl kf kb s) : Keeps kl kf kb (State.relapseBus s bus) := by
  unfold State.relapseBus
  repeat' (first
    | intro _
    | with_reducible assumption
    | with_reducible apply Keeps.foldl
    | with_reducible apply State.relapse_keeps
    | with_reducible apply Keeps.ite
    | split
    | dsimp only [id]
    | simp only [Keeps.upd])

theorem sequenceIssueEffect_keeps {kl kf : Bool} {kb : State} (t : Nat) (bus : Nat) (s0 : State)
    (hk : Keeps kl kf kb (s0.at t)) : Keeps kl kf kb (sequenceIssueEffect t bus s0) := by
  unfold sequenceIssueEffect
  repeat' (first
    | intro _
    | with_reducible assumption
    | with_reducible apply State.issueTransaction_keeps
    | with_reducible apply State.relapseBus_keeps
    | with_reducible apply Keeps.ite
    | split
    | dsimp only [id]
    | simp only [Keeps.upd, State.modCam, State.modReq])

theorem execExposureSequenceIssue_keeps {kl kf : Bool} (t : Nat) (bus : Nat) (s : State) :
    ∃ s1, execExposureSequenceIssue t bus s = .next s1 ∧ Keeps kl kf (s.at t) s1 := by
  refine ⟨_, rfl, ?_⟩
  repeat' (first
    | intro _
    | (with_reducible first | exact Keeps.refl _ _ _ | assumption)
    | with_reducible apply sequenceIssueEffect_keeps)

theorem State.busFail_keeps {kl kf : Bool} {kb : State} (s : State) (bus : Nat) (o : BusOp)
    (hk : Keeps kl kf kb s) : Keeps kl kf kb (State.busFail s bus o) := by
  unfold State.busFail
  repeat' (first
    | intro _
    | with_reducible assumption
    | with_reducible apply State.event_keeps
    | with_reducible apply State.failRequest_keeps
    | with_reducible apply State.freeBus_keeps
    | with_reducible apply State.issueTransaction_keeps
    | with_reducible apply State.respond_keeps
    | with_reducible apply Keeps.ite
    | split
    | dsimp only [id]
    | simp only [Keeps.upd, State.modCam])

theorem State.busNext_keeps {kl kf : Bool} {kb : State} (s : State) (bus : Nat) (o : BusOp)
    (hk : Keeps kl kf kb s) : Keeps kl kf kb (State.busNext s bus o) := by
  unfold State.busNext
  repeat' (first
    | intro _
    | with_reducible assumption
    | with_reducible apply State.endRequest_keeps
    | with_reducible apply State.freeBus_keeps
    | with_reducible apply State.issueTransaction_keeps
    | with_reducible apply Keeps.ite
    | split
    | dsimp only [id]
    | simp only [Keeps.upd, State.modCam, State.modReq])

theorem i3cCompleteEffect_keeps {kl kf : Bool} {kb : State} (t : Nat) (bus : Nat) (nack : Bool) (data : Bytes) (s0 : State)
    (hk : Keeps kl kf kb (s0.at t)) : Keeps kl kf kb (i3cCompleteEffect t bus nack data s0) := by
  unfold i3cCompleteEffect
  repeat' (first
    | intro _
    | with_reducible assumption
    | with_reducible apply State.busFail_keeps
    | with_reducible apply State.busNext_keeps
    | with_reducible apply State.freeBus_keeps
    | with_reducible apply State.read_keeps
    | with_reducible apply State.respond_keeps
    | with_reducible apply Keeps.ite
    | split
    | dsimp only [id]
    | simp only [Keeps.upd, State.modCam])

theorem execI3cTransactionComplete_keeps {kl kf : Bool} (t : Nat) (bus : Nat) (nack : Bool) (data : Bytes) (s : State) :
    ∃ s1, execI3cTransactionComplete t bus nack data s = .next s1 ∧ Keeps kl kf (s.at t) s1 := by
  refine ⟨_, rfl, ?_⟩
  repeat' (first
    | intro _
    | (with_reducible first | exact Keeps.refl _ _ _ | assumption)
    | with_reducible apply i3cCompleteEffect_keeps)

theorem i3cTimeoutEffect_keeps {kl kf : Bool} {kb : State} (t : Nat) (bus : Nat) (s0 : State)
    (hk : Keeps kl kf kb (s0.at t)) : Keeps kl kf kb (i3cTimeoutEffect t bus s0) := by
  unfold i3cTimeoutEffect
  repeat' (first
    | intro _
    | with_reducible assumption
    | with_reducible apply State.busFail_keeps
    | with_reducible apply Keeps.ite
    | split
    | dsimp only [id])

theorem execI3cBusTimeout_keeps {kl kf : Bool} (t : Nat) (bus : Nat) (s : State) :
    ∃ s1, execI3cBusTimeout t bus s = .next s1 ∧ Keeps kl kf (s.at t) s1 := by
  refine ⟨_, rfl, ?_⟩
  repeat' (first
    | intro _
    | (with_reducible first | exact Keeps.refl _ _ _ | assumption)
    | with_reducible apply i3cTimeoutEffect_keeps)

theorem sequenceCompleteEffect_keeps {kl kf : Bool} {kb : State} (t : Nat) (c : Nat) (s0 : State)
    (hk : Keeps kl kf kb (s0.at t)) : Keeps kl kf kb (sequenceCompleteEffect t c s0) := by
  unfold sequenceCompleteEffect
  repeat' (first
    | intro _
    | with_reducible assumption
    | with_reducible apply Keeps.foldl
    | with_reducible apply State.event_keeps
    | with_reducible apply State.raise_keeps
    | with_reducible apply State.writeCompletion_keeps
    | with_reducible apply Keeps.ite
    | split
    | dsimp only [id]
    | simp only [Keeps.upd, State.modCam])

theorem execExposureSequenceComplete_keeps {kl kf : Bool} (t : Nat) (c : Nat) (s : State) :
    ∃ s1, execExposureSequenceComplete t c s = .next s1 ∧ Keeps kl kf (s.at t) s1 := by
  refine ⟨_, rfl, ?_⟩
  repeat' (first
    | intro _
    | (with_reducible first | exact Keeps.refl _ _ _ | assumption)
    | with_reducible apply sequenceCompleteEffect_keeps)

theorem ibiEffect_keeps {kl kf : Bool} {kb : State} (t : Nat) (bus : Nat) (addr : Nat) (s0 : State)
    (hk : Keeps kl kf kb (s0.at t)) : Keeps kl kf kb (ibiEffect t bus addr s0) := by
  unfold ibiEffect
  repeat' (first
    | intro _
    | with_reducible assumption
    | with_reducible apply Keeps.ite
    | split
    | dsimp only [id]
    | simp only [Keeps.upd])

theorem execI3cInBandInterrupt_keeps {kl kf : Bool} (t : Nat) (bus : Nat) (addr : Nat) (s : State) :
    ∃ s1, execI3cInBandInterrupt t bus addr s = .next s1 ∧ Keeps kl kf (s.at t) s1 := by
  refine ⟨_, rfl, ?_⟩
  repeat' (first
    | intro _
    | (with_reducible first | exact Keeps.refl _ _ _ | assumption)
    | with_reducible apply ibiEffect_keeps)

theorem imuSampleEffect_keeps {kl kf : Bool} {kb : State} (t : Nat) (base : Nat) (entries : Nat) (rates : List Nat) (accels : List Nat) (s0 : State)
    (hk : Keeps kl kf kb (s0.at t)) : Keeps kl kf kb (imuSampleEffect t base entries rates accels s0) := by
  unfold imuSampleEffect
  repeat' (first
    | intro _
    | with_reducible assumption
    | with_reducible apply State.record_keeps
    | with_reducible apply Keeps.ite
    | split
    | dsimp only [id]
    | simp only [Keeps.upd])

theorem execImuSample_keeps {kl kf : Bool} (t : Nat) (base : Nat) (entries : Nat) (rates : List Nat) (accels : List Nat) (s : State) :
    ∃ s1, execImuSample t base entries rates accels s = .next s1 ∧ Keeps kl kf (s.at t) s1 := by
  refine ⟨_, rfl, ?_⟩
  repeat' (first
    | intro _
    | (with_reducible first | exact Keeps.refl _ _ _ | assumption)
    | with_reducible apply imuSampleEffect_keeps)

theorem sensorXferEffect_keeps {kl kf : Bool} {kb : State} (t : Nat) (p : Nat) (s0 : State)
    (hk : Keeps kl kf kb (s0.at t)) : Keeps kl kf kb (sensorXferEffect t p s0) := by
  unfold sensorXferEffect
  repeat' (first
    | intro _
    | with_reducible assumption
    | with_reducible apply State.answer_keeps
    | with_reducible apply State.read_keeps
    | with_reducible apply State.startReq_keeps
    | with_reducible apply Keeps.ite
    | split
    | dsimp only [id]
    | simp only [Keeps.upd, State.modCam])

theorem execSensorXfer_keeps {kl kf : Bool} (t : Nat) (p : Nat) (s : State) :
    ∃ s1, execSensorXfer t p s = .next s1 ∧ Keeps kl kf (s.at t) s1 := by
  refine ⟨_, rfl, ?_⟩
  repeat' (first
    | intro _
    | (with_reducible first | exact Keeps.refl _ _ _ | assumption)
    | with_reducible apply sensorXferEffect_keeps)

end Sys2Proof.Machine
end

