-- ==== Sys2Proof/Laws/Keeps/Sne.lean ====
section
/-! SUPPORT. What the operations of Machine/Sne.lean leave alone. -/
namespace Sys2Proof.Machine
open Sys2Proof
set_option linter.unusedSimpArgs false

theorem State.answerNet_keeps {kl kf : Bool} {kb : State} (s : State) (p : Nat) (v : NetVerdict)
    (hk : Keeps kl kf kb s) : Keeps kl kf kb (State.answerNet s p v) := by
  unfold State.answerNet
  repeat' (first
    | intro _
    | with_reducible assumption
    | with_reducible apply State.respond_keeps)

theorem networkBindEffect_keeps {kl kf : Bool} {kb : State} (t : Nat) (p : Nat) (layers : List NetLayer) (s0 : State)
    (hk : Keeps kl kf kb (s0.at t)) : Keeps kl kf kb (networkBindEffect t p layers s0) := by
  unfold networkBindEffect
  repeat' (first
    | intro _
    | with_reducible assumption
    | with_reducible apply State.answerNet_keeps
    | with_reducible apply State.beginUngate_keeps
    | with_reducible apply State.moveSne_keeps
    | with_reducible apply State.read_keeps
    | with_reducible apply State.startReq_keeps
    | with_reducible apply Keeps.ite
    | split
    | dsimp only [id]
    | simp only [Keeps.upd, State.modCam])

theorem execNetworkBind_keeps {kl kf : Bool} (t : Nat) (p : Nat) (layers : List NetLayer) (s : State) :
    ∃ s1, execNetworkBind t p layers s = .next s1 ∧ Keeps kl kf (s.at t) s1 := by
  refine ⟨_, rfl, ?_⟩
  repeat' (first
    | intro _
    | (with_reducible first | exact Keeps.refl _ _ _ | assumption)
    | with_reducible apply networkBindEffect_keeps)

theorem State.packStore_keeps {kl kf : Bool} {kb : State} (s : State) (sn : Nat)
    (hk : Keeps kl kf kb s) : Keeps kl kf kb (State.packStore s sn) := by
  unfold State.packStore
  repeat' (first
    | intro _
    | with_reducible assumption
    | with_reducible apply Keeps.foldl
    | with_reducible apply State.poke_keeps
    | with_reducible apply Keeps.ite
    | split
    | dsimp only [id]
    | simp only [Keeps.upd, State.modSne])

theorem State.loadWeights_keeps {kl kf : Bool} {kb : State} (s : State) (sn : Nat) (image : Nat) (h : Bytes)
    (hk : Keeps kl kf kb s) : Keeps kl kf kb (State.loadWeights s sn image h) := by
  unfold State.loadWeights
  repeat' (first
    | intro _
    | with_reducible assumption
    | with_reducible apply State.packStore_keeps
    | with_reducible apply State.poke_keeps
    | with_reducible apply State.read_keeps
    | with_reducible apply Keeps.ite
    | split
    | dsimp only [id]
    | simp only [Keeps.upd, State.modSne])

theorem weightLoadEffect_keeps {kl kf : Bool} {kb : State} (t : Nat) (c : Nat) (s0 : State)
    (hk : Keeps kl kf kb (s0.at t)) : Keeps kl kf kb (weightLoadEffect t c s0) := by
  unfold weightLoadEffect
  repeat' (first
    | intro _
    | with_reducible assumption
    | with_reducible apply State.answerNet_keeps
    | with_reducible apply State.dropNet_keeps
    | with_reducible apply State.gateUnused_keeps
    | with_reducible apply State.loadWeights_keeps
    | with_reducible apply Keeps.ite
    | split
    | dsimp only [id]
    | simp only [Keeps.upd, State.modCam])

theorem execNetworkWeightLoadComplete_keeps {kl kf : Bool} (t : Nat) (c : Nat) (s : State) :
    ∃ s1, execNetworkWeightLoadComplete t c s = .next s1 ∧ Keeps kl kf (s.at t) s1 := by
  refine ⟨_, rfl, ?_⟩
  repeat' (first
    | intro _
    | (with_reducible first | exact Keeps.refl _ _ _ | assumption)
    | with_reducible apply weightLoadEffect_keeps)

theorem networkUnbindEffect_keeps {kl kf : Bool} {kb : State} (t : Nat) (p : Nat) (s0 : State)
    (hk : Keeps kl kf kb (s0.at t)) : Keeps kl kf kb (networkUnbindEffect t p s0) := by
  unfold networkUnbindEffect
  repeat' (first
    | intro _
    | with_reducible assumption
    | with_reducible apply State.answer_keeps
    | with_reducible apply Keeps.ite
    | split
    | dsimp only [id]
    | simp only [Keeps.upd, State.modCam])

theorem execNetworkUnbind_keeps {kl kf : Bool} (t : Nat) (p : Nat) (s : State) :
    ∃ s1, execNetworkUnbind t p s = .next s1 ∧ Keeps kl kf (s.at t) s1 := by
  refine ⟨_, rfl, ?_⟩
  repeat' (first
    | intro _
    | (with_reducible first | exact Keeps.refl _ _ _ | assumption)
    | with_reducible apply networkUnbindEffect_keeps)

theorem unitStartEffect_keeps {kl kf : Bool} {kb : State} (t : Nat) (sn : Nat) (s0 : State)
    (hk : Keeps kl kf kb (s0.at t)) : Keeps kl kf kb (unitStartEffect t sn s0) := by
  unfold unitStartEffect
  repeat' (first
    | intro _
    | with_reducible assumption
    | with_reducible apply Keeps.foldl
    | with_reducible apply Keeps.ite
    | split
    | dsimp only [id]
    | simp only [Keeps.upd, State.modBf, State.modCam, State.modGroup, State.modSne])

theorem execSneUnitStart_keeps {kl kf : Bool} (t : Nat) (sn : Nat) (s : State) :
    ∃ s1, execSneUnitStart t sn s = .next s1 ∧ Keeps kl kf (s.at t) s1 := by
  refine ⟨_, rfl, ?_⟩
  repeat' (first
    | intro _
    | (with_reducible first | exact Keeps.refl _ _ _ | assumption)
    | with_reducible apply unitStartEffect_keeps)

theorem State.missDeadline_keeps {kl kf : Bool} {kb : State} (s : State) (c : Nat) (gi : Nat)
    (hk : Keeps kl kf kb s) : Keeps kl kf kb (State.missDeadline s c gi) := by
  unfold State.missDeadline
  repeat' (first
    | intro _
    | with_reducible assumption
    | with_reducible apply State.event_keeps
    | with_reducible apply State.fallBack_keeps
    | with_reducible apply Keeps.ite
    | split
    | dsimp only [id]
    | simp only [Keeps.upd, State.modCam, State.modSne])

theorem State.dropUnit_keeps {kl kf : Bool} {kb : State} (s : State) (sn : Nat)
    (hk : Keeps kl kf kb s) : Keeps kl kf kb (State.dropUnit s sn) := by
  unfold State.dropUnit
  repeat' (first
    | intro _
    | with_reducible assumption
    | with_reducible apply Keeps.ite
    | split
    | dsimp only [id]
    | simp only [Keeps.upd, State.modSne])

theorem State.bufferUe_keeps {kl kf : Bool} {kb : State} (s : State) (sn : Nat)
    (hk : Keeps kl kf kb s) : Keeps kl kf kb (State.bufferUe s sn) := by
  unfold State.bufferUe
  repeat' (first
    | intro _
    | with_reducible assumption
    | with_reducible apply State.countUncorrectable_keeps
    | with_reducible apply State.dropUnit_keeps
    | with_reducible apply State.note_keeps
    | with_reducible apply State.switchAll_keeps
    | with_reducible apply Keeps.ite
    | split
    | dsimp only [id]
    | simp only [Keeps.upd, State.modSne])

theorem State.weightUe_keeps {kl kf : Bool} {kb : State} (s : State) (sn : Nat)
    (hk : Keeps kl kf kb s) : Keeps kl kf kb (State.weightUe s sn) := by
  unfold State.weightUe
  repeat' (first
    | intro _
    | with_reducible assumption
    | with_reducible apply Keeps.foldl
    | with_reducible apply State.countUncorrectable_keeps
    | with_reducible apply State.dropUnit_keeps
    | with_reducible apply State.note_keeps
    | with_reducible apply State.switchAll_keeps
    | with_reducible apply Keeps.ite
    | split
    | dsimp only [id]
    | simp only [Keeps.upd, State.modCam, State.modSne])

theorem unitCompleteEffect_keeps {kl kf : Bool} {kb : State} (t : Nat) (sn : Nat) (group : Nat) (stripe : Nat) (s0 : State)
    (hk : Keeps kl kf kb (s0.at t)) : Keeps kl kf kb (unitCompleteEffect t sn group stripe s0) := by
  unfold unitCompleteEffect
  repeat' (first
    | intro _
    | with_reducible assumption
    | with_reducible apply State.bufferUe_keeps
    | with_reducible apply State.missDeadline_keeps
    | with_reducible apply State.returnGroups_keeps
    | with_reducible apply State.weightUe_keeps
    | with_reducible apply Keeps.ite
    | split
    | dsimp only [id]
    | simp only [Keeps.upd, State.modBf, State.modCam, State.modGroup, State.modSne])

theorem execSneUnitComplete_keeps {kl kf : Bool} (t : Nat) (sn : Nat) (group : Nat) (stripe : Nat) (s : State) :
    ∃ s1, execSneUnitComplete t sn group stripe s = .next s1 ∧ Keeps kl kf (s.at t) s1 := by
  refine ⟨_, rfl, ?_⟩
  repeat' (first
    | intro _
    | (with_reducible first | exact Keeps.refl _ _ _ | assumption)
    | with_reducible apply unitCompleteEffect_keeps)

theorem rowGroupDeadlineEffect_keeps {kl kf : Bool} {kb : State} (t : Nat) (c : Nat) (s0 : State)
    (hk : Keeps kl kf kb (s0.at t)) : Keeps kl kf kb (rowGroupDeadlineEffect t c s0) := by
  unfold rowGroupDeadlineEffect
  repeat' (first
    | intro _
    | with_reducible assumption
    | with_reducible apply State.missDeadline_keeps
    | with_reducible apply Keeps.ite
    | split
    | dsimp only [id])

theorem execRowGroupDeadline_keeps {kl kf : Bool} (t : Nat) (c : Nat) (s : State) :
    ∃ s1, execRowGroupDeadline t c s = .next s1 ∧ Keeps kl kf (s.at t) s1 := by
  refine ⟨_, rfl, ?_⟩
  repeat' (first
    | intro _
    | (with_reducible first | exact Keeps.refl _ _ _ | assumption)
    | with_reducible apply rowGroupDeadlineEffect_keeps)

theorem sneFaultEffect_keeps {kl kf : Bool} {kb : State} (t : Nat) (sn : Nat) (f : SneFault) (s0 : State)
    (hk : Keeps kl kf kb (s0.at t)) : Keeps kl kf kb (sneFaultEffect t sn f s0) := by
  unfold sneFaultEffect
  repeat' (first
    | intro _
    | with_reducible assumption
    | with_reducible apply State.bufferUe_keeps
    | with_reducible apply State.failSne_keeps
    | with_reducible apply State.logError_keeps
    | with_reducible apply State.note_keeps
    | with_reducible apply State.noteCorrected_keeps
    | with_reducible apply State.switchAll_keeps
    | with_reducible apply State.updateHealth_keeps
    | with_reducible apply State.weightUe_keeps
    | with_reducible apply Keeps.ite
    | split
    | dsimp only [id]
    | simp only [Keeps.upd, State.modSne])

theorem execSneFault_keeps {kl kf : Bool} (t : Nat) (sn : Nat) (f : SneFault) (s : State) :
    ∃ s1, execSneFault t sn f s = .next s1 ∧ Keeps kl kf (s.at t) s1 := by
  refine ⟨_, rfl, ?_⟩
  repeat' (first
    | intro _
    | (with_reducible first | exact Keeps.refl _ _ _ | assumption)
    | with_reducible apply sneFaultEffect_keeps)

theorem weightReloadEffect_keeps {kl kf : Bool} {kb : State} (t : Nat) (sn : Nat) (image : Nat) (s0 : State)
    (hk : Keeps kl kf kb (s0.at t)) : Keeps kl kf kb (weightReloadEffect t sn image s0) := by
  unfold weightReloadEffect
  repeat' (first
    | intro _
    | with_reducible assumption
    | with_reducible apply Keeps.foldl
    | with_reducible apply State.event_keeps
    | with_reducible apply State.loadWeights_keeps
    | with_reducible apply Keeps.ite
    | split
    | dsimp only [id]
    | simp only [Keeps.upd, State.modCam, State.modSne])

theorem execSneWeightReloadComplete_keeps {kl kf : Bool} (t : Nat) (sn : Nat) (image : Nat) (s : State) :
    ∃ s1, execSneWeightReloadComplete t sn image s = .next s1 ∧ Keeps kl kf (s.at t) s1 := by
  refine ⟨_, rfl, ?_⟩
  repeat' (first
    | intro _
    | (with_reducible first | exact Keeps.refl _ _ _ | assumption)
    | with_reducible apply weightReloadEffect_keeps)

end Sys2Proof.Machine
end

