-- ==== Sys2Proof/Laws/Keeps/Spire.lean ====
section
/-! SUPPORT. What the operations of Machine/Spire.lean leave alone. -/
namespace Sys2Proof.Machine
open Sys2Proof
set_option linter.unusedSimpArgs false

theorem State.enterMacro_keeps {kl kf : Bool} {kb : State} (s : State) (i : Nat) (k : Nat) (c : Ctx) (d : Bytes) (wide : Option Nat)
    (hk : Keeps kl kf kb s) : Keeps kl kf kb (State.enterMacro s i k c d wide) := by
  unfold State.enterMacro
  repeat' (first
    | intro _
    | with_reducible assumption
    | with_reducible apply State.enterQuad_keeps
    | with_reducible apply State.setCounter_keeps
    | with_reducible apply Keeps.ite
    | split
    | dsimp only [id]
    | simp only [Keeps.upd, State.modLane, State.modSpc])

theorem macroStartEffect_keeps {kl kf : Bool} {kb : State} (t : Nat) (i : Nat) (k : Nat) (s0 : State)
    (hk : Keeps kl kf kb (s0.at t)) : Keeps kl kf kb (macroStartEffect t i k s0) := by
  unfold macroStartEffect
  repeat' (first
    | intro _
    | with_reducible assumption
    | with_reducible apply State.enterMacro_keeps
    | with_reducible apply State.macroFault_keeps
    | with_reducible apply State.read_keeps
    | with_reducible apply State.readElem_keeps
    | with_reducible apply State.unitFault_keeps
    | with_reducible apply Keeps.ite
    | split
    | dsimp only [id]
    | simp only [Keeps.upd])

theorem execMacroStart_keeps {kl kf : Bool} (t : Nat) (i : Nat) (k : Nat) (s : State) :
    ∃ s1, execMacroStart t i k s = .next s1 ∧ Keeps kl kf (s.at t) s1 := by
  refine ⟨_, rfl, ?_⟩
  repeat' (first
    | intro _
    | (with_reducible first | exact Keeps.refl _ _ _ | assumption)
    | with_reducible apply macroStartEffect_keeps)

theorem State.completeMacro_keeps {kl kf : Bool} {kb : State} (s : State) (i : Nat) (k : Nat)
    (hk : Keeps kl kf kb s) : Keeps kl kf kb (State.completeMacro s i k) := by
  unfold State.completeMacro
  repeat' (first
    | intro _
    | with_reducible assumption
    | with_reducible apply Keeps.foldl
    | with_reducible apply State.release_keeps
    | with_reducible apply Keeps.ite
    | split
    | dsimp only [id]
    | simp only [Keeps.upd, State.modMacro, State.modSpc])

theorem State.phaseDone_keeps {kl kf : Bool} {kb : State} (s : State) (i : Nat) (k : Nat)
    (hk : Keeps kl kf kb s) : Keeps kl kf kb (State.phaseDone s i k) := by
  unfold State.phaseDone
  repeat' (first
    | intro _
    | with_reducible assumption
    | with_reducible apply State.completeMacro_keeps
    | with_reducible apply Keeps.ite
    | split
    | dsimp only [id]
    | simp only [Keeps.upd, State.modMacro])

theorem State.giveRun_keeps {kl kf : Bool} {kb : State} (s : State) (core : Nat) (k : Nat) (r : TileRun)
    (hk : Keeps kl kf kb s) : Keeps kl kf kb (State.giveRun s core k r) := by
  unfold State.giveRun
  repeat' (first
    | intro _
    | with_reducible assumption
    | with_reducible apply Keeps.ite
    | split
    | dsimp only [id]
    | simp only [Keeps.upd, State.modLane, State.modSpc])

theorem State.takeRun_keeps {kl kf : Bool} {kb : State} (s : State) (i : Nat) (k : Nat) (core : Nat) (first : Nat) (m : MacroRun)
    (hk : Keeps kl kf kb s) : Keeps kl kf kb (State.takeRun s i k core first m) := by
  unfold State.takeRun
  repeat' (first
    | intro _
    | with_reducible assumption
    | with_reducible apply State.giveRun_keeps
    | with_reducible apply State.phaseDone_keeps
    | with_reducible apply Keeps.ite
    | split
    | dsimp only [id]
    | simp only [Keeps.upd, State.modMacro])

theorem State.sendClaim_keeps {kl kf : Bool} {kb : State} (s : State) (i : Nat) (k : Nat) (core : Nat) (c : Ctx) (m : MacroRun) (mp : CtrMap)
    (hk : Keeps kl kf kb s) : Keeps kl kf kb (State.sendClaim s i k core c m mp) := by
  unfold State.sendClaim
  repeat' (first
    | intro _
    | with_reducible assumption
    | with_reducible apply State.sendOn_keeps
    | with_reducible apply State.unitFault_keeps
    | with_reducible apply Keeps.ite
    | split
    | dsimp only [id]
    | simp only [Keeps.upd, State.modMacro])

theorem State.claimReply_keeps {kl kf : Bool} {kb : State} (s : State) (i : Nat) (k : Nat) (core : Nat) (m : MacroRun) (mp : CtrMap) (r : ClaimReply)
    (hk : Keeps kl kf kb s) : Keeps kl kf kb (State.claimReply s i k core m mp r) := by
  unfold State.claimReply
  repeat' (first
    | intro _
    | with_reducible assumption
    | with_reducible apply State.redoCheck_keeps
    | with_reducible apply State.takeRun_keeps
    | with_reducible apply State.unitFault_keeps
    | with_reducible apply Keeps.ite
    | split
    | dsimp only [id]
    | simp only [Keeps.upd, State.modMacro])

theorem tileClaimEffect_keeps {kl kf : Bool} {kb : State} (t : Nat) (i : Nat) (k : Nat) (core : Nat) (err : ReadErr) (reply : ClaimReply) (s0 : State)
    (hk : Keeps kl kf kb (s0.at t)) : Keeps kl kf kb (tileClaimEffect t i k core err reply s0) := by
  unfold tileClaimEffect
  repeat' (first
    | intro _
    | with_reducible assumption
    | with_reducible apply State.claimReply_keeps
    | with_reducible apply State.counterUe_keeps
    | with_reducible apply State.giveRun_keeps
    | with_reducible apply State.noteCorrected_keeps
    | with_reducible apply State.sendClaim_keeps
    | with_reducible apply State.setCounter_keeps
    | with_reducible apply State.takeRun_keeps
    | with_reducible apply Keeps.ite
    | split
    | dsimp only [id]
    | simp only [Keeps.upd, State.modMacro])

theorem execTileClaim_keeps {kl kf : Bool} (t : Nat) (i : Nat) (k : Nat) (core : Nat) (err : ReadErr) (reply : ClaimReply) (s : State) :
    ∃ s1, execTileClaim t i k core err reply s = .next s1 ∧ Keeps kl kf (s.at t) s1 := by
  refine ⟨_, rfl, ?_⟩
  repeat' (first
    | intro _
    | (with_reducible first | exact Keeps.refl _ _ _ | assumption)
    | with_reducible apply tileClaimEffect_keeps)

theorem tileStartEffect_keeps {kl kf : Bool} {kb : State} (t : Nat) (core : Nat) (q : Nat) (f : TileFetch) (s0 : State)
    (hk : Keeps kl kf kb (s0.at t)) : Keeps kl kf kb (tileStartEffect t core q f s0) := by
  unfold tileStartEffect
  repeat' (first
    | intro _
    | with_reducible assumption
    | with_reducible apply State.noteCorrected_keeps
    | with_reducible apply State.stageAhead_keeps
    | with_reducible apply Keeps.ite
    | split
    | dsimp only [id]
    | simp only [Keeps.upd, State.modLane, State.modMacro, State.modSpc])

theorem execTileStart_keeps {kl kf : Bool} (t : Nat) (core : Nat) (q : Nat) (f : TileFetch) (s : State) :
    ∃ s1, execTileStart t core q f s = .next s1 ∧ Keeps kl kf (s.at t) s1 := by
  refine ⟨_, rfl, ?_⟩
  repeat' (first
    | intro _
    | (with_reducible first | exact Keeps.refl _ _ _ | assumption)
    | with_reducible apply tileStartEffect_keeps)

theorem State.issueArray_keeps {kl kf : Bool} {kb : State} (s : State) (core : Nat) (q : Nat) (cycle : Nat) (gap : Nat) (w : Work) (p : Pass) (next : Option (Stage × Pass × (Nat × Nat × Nat × Nat)))
    (hk : Keeps kl kf kb s) : Keeps kl kf kb (State.issueArray s core q cycle gap w p next) := by
  unfold State.issueArray
  repeat' (first
    | intro _
    | with_reducible assumption
    | with_reducible apply State.macroFault_keeps
    | with_reducible apply Keeps.ite
    | split
    | dsimp only [id]
    | simp only [Keeps.upd, State.modLane, State.modSpc]
    | refine State.reachNext_keeps _ _ _ _ (by assumption) ?_)

theorem passIssueEffect_keeps {kl kf : Bool} {kb : State} (t : Nat) (core : Nat) (q : Nat) (cycle : Nat) (err : ReadErr) (addr : Nat) (s0 : State)
    (hk : Keeps kl kf kb (s0.at t)) : Keeps kl kf kb (passIssueEffect t core q cycle err addr s0) := by
  unfold passIssueEffect
  repeat' (first
    | intro _
    | with_reducible assumption
    | with_reducible apply State.issueArray_keeps
    | with_reducible apply State.macroFault_keeps
    | with_reducible apply State.noteCorrected_keeps
    | with_reducible apply Keeps.ite
    | split
    | dsimp only [id]
    | simp only [Keeps.upd, State.modLane, State.modSpc]
    | exact State.feederError_keeps _ _ _ _ _ _ _ _ _ _ (by assumption) (by assumption)
    | refine State.reachOwn_keeps _ _ _ _ _ _ (by assumption) ?_)

theorem execArrayPassIssue_keeps {kl kf : Bool} (t : Nat) (core : Nat) (q : Nat) (cycle : Nat) (err : ReadErr) (addr : Nat) (s : State) :
    ∃ s1, execArrayPassIssue t core q cycle err addr s = .next s1 ∧ Keeps kl kf (s.at t) s1 := by
  refine ⟨_, rfl, ?_⟩
  repeat' (first
    | intro _
    | (with_reducible first | exact Keeps.refl _ _ _ | assumption)
    | with_reducible apply passIssueEffect_keeps)

theorem mmvEffect_keeps {kl kf : Bool} {kb : State} (t : Nat) (core : Nat) (err : ReadErr) (addr : Nat) (s0 : State)
    (hk : Keeps kl kf kb (s0.at t)) : Keeps kl kf kb (mmvEffect t core err addr s0) := by
  unfold mmvEffect
  repeat' (first
    | intro _
    | with_reducible assumption
    | with_reducible apply State.macroFault_keeps
    | with_reducible apply State.noteCorrected_keeps
    | with_reducible apply Keeps.ite
    | split
    | dsimp only [id]
    | simp only [Keeps.upd, State.modLane, State.modSpc]
    | exact State.feederError_keeps _ _ _ _ _ _ _ _ _ _ (by assumption) (by assumption))

theorem execMmvExecute_keeps {kl kf : Bool} (t : Nat) (core : Nat) (err : ReadErr) (addr : Nat) (s : State) :
    ∃ s1, execMmvExecute t core err addr s = .next s1 ∧ Keeps kl kf (s.at t) s1 := by
  refine ⟨_, rfl, ?_⟩
  repeat' (first
    | intro _
    | (with_reducible first | exact Keeps.refl _ _ _ | assumption)
    | with_reducible apply mmvEffect_keeps)

theorem State.landWrites_keeps {kl kf : Bool} {kb : State} (s : State) (core : Nat) (ws : List MaskedByte)
    (hk : Keeps kl kf kb s) : Keeps kl kf kb (State.landWrites s core ws).2.2 := by
  unfold State.landWrites
  repeat' (first
    | intro _
    | with_reducible assumption
    | with_reducible apply Keeps.foldl
    | with_reducible apply Keeps.foldl2
    | with_reducible apply Keeps.foldl1
    | with_reducible apply Keeps.foldl3
    | with_reducible apply State.writeRaw_keeps
    | with_reducible apply Keeps.ite
    | split
    | dsimp only [id]
    | simp only [Keeps.upd])

theorem State.leaveDrained_keeps {kl kf : Bool} {kb : State} (s : State) (core : Nat) (q : Nat) (g : Nat) (w : Work) (tp : TileProg) (d : Drained)
    (hk : Keeps kl kf kb s) : Keeps kl kf kb (State.leaveDrained s core q g w tp d) := by
  unfold State.leaveDrained
  repeat' (first
    | intro _
    | with_reducible assumption
    | with_reducible apply Keeps.foldl
    | with_reducible apply State.landWrites_keeps
    | with_reducible apply State.macroFault_keeps
    | with_reducible apply State.poke_keeps
    | with_reducible apply State.stagePanelsE_keeps
    | with_reducible apply Keeps.ite
    | split
    | dsimp only [id]
    | simp only [Keeps.upd, State.modBf, State.modCtx, State.modLane, State.modSpc])

theorem groupDrainEffect_keeps {kl kf : Bool} {kb : State} (t : Nat) (core : Nat) (q : Nat) (err : ReadErr) (addr : Nat) (s0 : State)
    (hk : Keeps kl kf kb (s0.at t)) : Keeps kl kf kb (groupDrainEffect t core q err addr s0) := by
  unfold groupDrainEffect
  repeat' (first
    | intro _
    | with_reducible assumption
    | with_reducible apply State.leaveDrained_keeps
    | with_reducible apply State.macroFault_keeps
    | with_reducible apply State.noteCorrected_keeps
    | with_reducible apply Keeps.ite
    | split
    | dsimp only [id]
    | simp only [Keeps.upd]
    | exact State.feederError_keeps _ _ _ _ _ _ _ _ _ _ (by assumption) (by assumption))

theorem execGroupDrain_keeps {kl kf : Bool} (t : Nat) (core : Nat) (q : Nat) (err : ReadErr) (addr : Nat) (s : State) :
    ∃ s1, execGroupDrain t core q err addr s = .next s1 ∧ Keeps kl kf (s.at t) s1 := by
  refine ⟨_, rfl, ?_⟩
  repeat' (first
    | intro _
    | (with_reducible first | exact Keeps.refl _ _ _ | assumption)
    | with_reducible apply groupDrainEffect_keeps)

theorem State.finishTile_keeps {kl kf : Bool} {kb : State} (s : State) (i : Nat) (k : Nat) (core : Nat) (q : Nat) (tp : TileProg) (err : ReadErr) (addr : Nat)
    (hk : Keeps kl kf kb s) : Keeps kl kf kb (State.finishTile s i k core q tp err addr) := by
  unfold State.finishTile
  repeat' (first
    | intro _
    | with_reducible assumption
    | with_reducible apply State.phaseDone_keeps
    | with_reducible apply State.stageAhead_keeps
    | with_reducible apply Keeps.ite
    | split
    | dsimp only [id]
    | simp only [Keeps.upd, State.modLane, State.modMacro, State.modSpc])

theorem writeOutEffect_keeps {kl kf : Bool} {kb : State} (t : Nat) (core : Nat) (q : Nat) (err : ReadErr) (addr : Nat) (s0 : State)
    (hk : Keeps kl kf kb (s0.at t)) : Keeps kl kf kb (writeOutEffect t core q err addr s0) := by
  unfold writeOutEffect
  repeat' (first
    | intro _
    | with_reducible assumption
    | with_reducible apply State.finishTile_keeps
    | with_reducible apply State.landWrites_keeps
    | with_reducible apply State.macroFault_keeps
    | with_reducible apply State.noteCorrected_keeps
    | with_reducible apply Keeps.ite
    | split
    | dsimp only [id]
    | simp only [Keeps.upd, State.modBf, State.modCtx, State.modLane, State.modSpc])

theorem execGroupWriteOutRetire_keeps {kl kf : Bool} (t : Nat) (core : Nat) (q : LaneWrite) (s : State) :
    ∃ s1, execGroupWriteOutRetire t core q s = .next s1 ∧ Keeps kl kf (s.at t) s1 := by
  refine ⟨_, rfl, ?_⟩
  repeat' (first
    | intro _
    | (with_reducible first | exact Keeps.refl _ _ _ | assumption)
    | with_reducible apply writeOutEffect_keeps)

theorem parityEffect_keeps {kl kf : Bool} {kb : State} (t : Nat) (core : Nat) (e : ArrayError) (s0 : State)
    (hk : Keeps kl kf kb (s0.at t)) : Keeps kl kf kb (parityEffect t core e s0) := by
  unfold parityEffect
  repeat' (first
    | intro _
    | with_reducible assumption
    | with_reducible apply State.leaveAny_keeps
    | with_reducible apply State.logError_keeps
    | with_reducible apply Keeps.ite
    | split
    | dsimp only [id]
    | simp only [Keeps.upd, State.modSpc])

theorem execArrayParityError_keeps {kl kf : Bool} (t : Nat) (core : Nat) (e : ArrayError) (s : State) :
    ∃ s1, execArrayParityError t core e s = .next s1 ∧ Keeps kl kf (s.at t) s1 := by
  refine ⟨_, rfl, ?_⟩
  repeat' (first
    | intro _
    | (with_reducible first | exact Keeps.refl _ _ _ | assumption)
    | with_reducible apply parityEffect_keeps)

theorem quadExitEffect_keeps {kl kf : Bool} {kb : State} (t : Nat) (core : Nat) (s0 : State)
    (hk : Keeps kl kf kb (s0.at t)) : Keeps kl kf kb (quadExitEffect t core s0) := by
  unfold quadExitEffect
  repeat' (first
    | intro _
    | with_reducible assumption
    | with_reducible apply State.unitFault_keeps
    | with_reducible apply Keeps.ite
    | split
    | dsimp only [id]
    | simp only [Keeps.upd, State.modSpc])

theorem execQuadrantModeExit_keeps {kl kf : Bool} (t : Nat) (core : Nat) (s : State) :
    ∃ s1, execQuadrantModeExit t core s = .next s1 ∧ Keeps kl kf (s.at t) s1 := by
  refine ⟨_, rfl, ?_⟩
  repeat' (first
    | intro _
    | (with_reducible first | exact Keeps.refl _ _ _ | assumption)
    | with_reducible apply quadExitEffect_keeps)

theorem jobStartEffect_keeps {kl kf : Bool} {kb : State} (t : Nat) (i : Nat) (k : Nat) (s0 : State)
    (hk : Keeps kl kf kb (s0.at t)) : Keeps kl kf kb (jobStartEffect t i k s0) := by
  unfold jobStartEffect
  repeat' (first
    | intro _
    | with_reducible assumption
    | with_reducible apply State.macroFault_keeps
    | with_reducible apply State.writeRaw_keeps
    | with_reducible apply Keeps.ite
    | split
    | dsimp only [id]
    | simp only [Keeps.upd])

theorem execReductionJobStart_keeps {kl kf : Bool} (t : Nat) (i : Nat) (k : Nat) (s : State) :
    ∃ s1, execReductionJobStart t i k s = .next s1 ∧ Keeps kl kf (s.at t) s1 := by
  refine ⟨_, rfl, ?_⟩
  repeat' (first
    | intro _
    | (with_reducible first | exact Keeps.refl _ _ _ | assumption)
    | with_reducible apply jobStartEffect_keeps)

theorem State.jobDone_keeps {kl kf : Bool} {kb : State} (s : State) (slot : Nat) (j : RedJob)
    (hk : Keeps kl kf kb s) : Keeps kl kf kb (State.jobDone s slot j) := by
  unfold State.jobDone
  repeat' (first
    | intro _
    | with_reducible assumption
    | with_reducible apply Keeps.ite
    | split
    | dsimp only [id]
    | simp only [Keeps.upd, State.modMacro])

theorem State.jobWrite_keeps {kl kf : Bool} {kb : State} (s : State) (slot : Nat) (j : RedJob) (out : Bytes)
    (hk : Keeps kl kf kb s) : Keeps kl kf kb (State.jobWrite s slot j out) := by
  unfold State.jobWrite
  repeat' (first
    | intro _
    | with_reducible assumption
    | with_reducible apply State.jobDone_keeps
    | with_reducible apply State.unitFault_keeps
    | with_reducible apply State.write_keeps
    | with_reducible apply Keeps.ite
    | split
    | dsimp only [id]
    | simp only [Keeps.upd, State.modBf, State.modCtx])

theorem partialAddEffect_keeps {kl kf : Bool} {kb : State} (t : Nat) (slot : Nat) (err : ReadErr) (s0 : State)
    (hk : Keeps kl kf kb (s0.at t)) : Keeps kl kf kb (partialAddEffect t slot err s0) := by
  unfold partialAddEffect
  repeat' (first
    | intro _
    | with_reducible assumption
    | with_reducible apply State.countUncorrectable_keeps
    | with_reducible apply State.jobWrite_keeps
    | with_reducible apply State.noteCorrected_keeps
    | with_reducible apply State.strike_keeps
    | with_reducible apply State.unitFault_keeps
    | with_reducible apply Keeps.ite
    | split
    | dsimp only [id]
    | simp only [Keeps.upd])

theorem execReductionPartialAdd_keeps {kl kf : Bool} (t : Nat) (slot : Nat) (err : ReadErr) (s : State) :
    ∃ s1, execReductionPartialAdd t slot err s = .next s1 ∧ Keeps kl kf (s.at t) s1 := by
  refine ⟨_, rfl, ?_⟩
  repeat' (first
    | intro _
    | (with_reducible first | exact Keeps.refl _ _ _ | assumption)
    | with_reducible apply partialAddEffect_keeps)

theorem State.unstage_keeps {kl kf : Bool} {kb : State} (s : State) (c : Ctx) (k : Nat)
    (hk : Keeps kl kf kb s) : Keeps kl kf kb (State.unstage s c k) := by
  unfold State.unstage
  repeat' (first
    | intro _
    | with_reducible assumption
    | with_reducible apply Keeps.foldl
    | with_reducible apply Keeps.ite
    | split
    | dsimp only [id]
    | simp only [Keeps.upd, State.modSpc])

theorem drainStartEffect_keeps {kl kf : Bool} {kb : State} (t : Nat) (i : Nat) (k : Nat) (s0 : State)
    (hk : Keeps kl kf kb (s0.at t)) : Keeps kl kf kb (drainStartEffect t i k s0) := by
  unfold drainStartEffect
  repeat' (first
    | intro _
    | with_reducible assumption
    | with_reducible apply State.setCounter_keeps
    | with_reducible apply State.unstage_keeps
    | with_reducible apply Keeps.ite
    | split
    | dsimp only [id]
    | simp only [Keeps.upd, State.modMacro])

theorem execSplitkDrainStart_keeps {kl kf : Bool} (t : Nat) (i : Nat) (k : Nat) (s : State) :
    ∃ s1, execSplitkDrainStart t i k s = .next s1 ∧ Keeps kl kf (s.at t) s1 := by
  refine ⟨_, rfl, ?_⟩
  repeat' (first
    | intro _
    | (with_reducible first | exact Keeps.refl _ _ _ | assumption)
    | with_reducible apply drainStartEffect_keeps)

theorem State.afterVerdict_keeps {kl kf : Bool} {kb : State} (s : State) (i : Nat) (k : Nat) (m : MacroRun)
    (hk : Keeps kl kf kb s) : Keeps kl kf kb (State.afterVerdict s i k m) := by
  unfold State.afterVerdict
  repeat' (first
    | intro _
    | with_reducible assumption
    | with_reducible apply State.completeMacro_keeps
    | with_reducible apply Keeps.ite
    | split
    | dsimp only [id]
    | simp only [Keeps.upd, State.modMacro])

theorem verdictEffect_keeps {kl kf : Bool} {kb : State} (t : Nat) (i : Nat) (k : Nat) (s0 : State)
    (hk : Keeps kl kf kb (s0.at t)) : Keeps kl kf kb (verdictEffect t i k s0) := by
  unfold verdictEffect
  repeat' (first
    | intro _
    | with_reducible assumption
    | with_reducible apply State.afterVerdict_keeps
    | with_reducible apply State.setCounter_keeps
    | with_reducible apply State.unstage_keeps
    | with_reducible apply Keeps.ite
    | split
    | dsimp only [id]
    | simp only [Keeps.upd, State.modLane, State.modMacro, State.modSpc])

theorem execQuantVerdict_keeps {kl kf : Bool} (t : Nat) (i : Nat) (k : Nat) (s : State) :
    ∃ s1, execQuantVerdict t i k s = .next s1 ∧ Keeps kl kf (s.at t) s1 := by
  refine ⟨_, rfl, ?_⟩
  repeat' (first
    | intro _
    | (with_reducible first | exact Keeps.refl _ _ _ | assumption)
    | with_reducible apply verdictEffect_keeps)

theorem flagWriteEffect_keeps {kl kf : Bool} {kb : State} (t : Nat) (i : Nat) (k : Nat) (s0 : State)
    (hk : Keeps kl kf kb (s0.at t)) : Keeps kl kf kb (flagWriteEffect t i k s0) := by
  unfold flagWriteEffect
  repeat' (first
    | intro _
    | with_reducible assumption
    | with_reducible apply State.completeMacro_keeps
    | with_reducible apply State.macroFault_keeps
    | with_reducible apply State.write_keeps
    | with_reducible apply Keeps.ite
    | split
    | dsimp only [id]
    | simp only [Keeps.upd, State.modBf, State.modCtx, State.modMacro])

theorem execWideFlagWrite_keeps {kl kf : Bool} (t : Nat) (i : Nat) (k : Nat) (s : State) :
    ∃ s1, execWideFlagWrite t i k s = .next s1 ∧ Keeps kl kf (s.at t) s1 := by
  refine ⟨_, rfl, ?_⟩
  repeat' (first
    | intro _
    | (with_reducible first | exact Keeps.refl _ _ _ | assumption)
    | with_reducible apply flagWriteEffect_keeps)

end Sys2Proof.Machine
end

