-- ==== Sys2Proof/Laws/Keeps/Vision.lean ====
section
/-! SUPPORT. What the operations of Machine/Vision.lean leave alone. -/
namespace Sys2Proof.Machine
open Sys2Proof
set_option linter.unusedSimpArgs false

theorem State.resolveParam_keeps {kl kf : Bool} {kb : State} (s : State) (u : Nat) (c : Ctx) (d : Bytes)
    (hk : Keeps kl kf kb s) : Keeps kl kf kb (State.resolveParam s u c d).2.2 := by
  unfold State.resolveParam
  repeat' (first
    | intro _
    | with_reducible assumption
    | with_reducible apply State.read_keeps
    | with_reducible apply Keeps.ite
    | split
    | dsimp only [id])

theorem State.readHint_keeps {kl kf : Bool} {kb : State} (s : State) (u : Nat) (d : Bytes)
    (hk : Keeps kl kf kb s) : Keeps kl kf kb (State.readHint s u d).2 := by
  unfold State.readHint
  repeat' (first
    | intro _
    | with_reducible assumption
    | with_reducible apply State.read_keeps
    | with_reducible apply Keeps.ite
    | split)

theorem State.readVisTable_keeps {kl kf : Bool} {kb : State} (s : State) (u : Nat) (d : Bytes)
    (hk : Keeps kl kf kb s) : Keeps kl kf kb (State.readVisTable s u d).2.2 := by
  unfold State.readVisTable
  repeat' (first
    | intro _
    | with_reducible assumption
    | with_reducible apply State.read_keeps
    | with_reducible apply Keeps.ite
    | split
    | dsimp only [id]
    | simp only [Keeps.upd])

theorem State.visFault_keeps {kl kf : Bool} {kb : State} (s : State) (u : Nat) (i : Nat) (status : Nat)
    (hk : Keeps kl kf kb s) : Keeps kl kf kb (State.visFault s u i status) := by
  unfold State.visFault
  repeat' (first
    | intro _
    | with_reducible assumption
    | with_reducible apply State.unitFault_keeps
    | with_reducible apply Keeps.ite
    | split
    | dsimp only [id]
    | simp only [Keeps.upd, State.modVis])

theorem State.beginOp_keeps {kl kf : Bool} {kb : State} (s : State) (u : Nat) (r : VisRun) (c : Ctx) (d : Bytes) (table : Bytes) (hint : Option (Bytes × Nat))
    (hk : Keeps kl kf kb s) : Keeps kl kf kb (State.beginOp s u r c d table hint) := by
  unfold State.beginOp
  repeat' (first
    | intro _
    | with_reducible assumption
    | with_reducible apply Keeps.foldl
    | with_reducible apply State.fetchBand_keeps
    | with_reducible apply State.record_keeps
    | with_reducible apply Keeps.ite
    | split
    | dsimp only [id]
    | simp only [Keeps.upd, State.modVis])

theorem visionStartEffect_keeps {kl kf : Bool} {kb : State} (t : Nat) (u : Nat) (s0 : State)
    (hk : Keeps kl kf kb (s0.at t)) : Keeps kl kf kb (visionStartEffect t u s0) := by
  unfold visionStartEffect
  repeat' (first
    | intro _
    | with_reducible assumption
    | with_reducible apply State.beginOp_keeps
    | with_reducible apply State.readElem_keeps
    | with_reducible apply State.readHint_keeps
    | with_reducible apply State.readVisTable_keeps
    | with_reducible apply State.resolveParam_keeps
    | with_reducible apply State.visFault_keeps
    | with_reducible apply Keeps.ite
    | split
    | dsimp only [id])

theorem execVisionOperationStart_keeps {kl kf : Bool} (t : Nat) (u : Nat) (s : State) :
    ∃ s1, execVisionOperationStart t u s = .next s1 ∧ Keeps kl kf (s.at t) s1 := by
  refine ⟨_, rfl, ?_⟩
  repeat' (first
    | intro _
    | (with_reducible first | exact Keeps.refl _ _ _ | assumption)
    | with_reducible apply visionStartEffect_keeps)

theorem State.writeAll_keeps {kl kf : Bool} {kb : State} (s : State) (init : Nat) (ws : List (Nat × Bytes))
    (hk : Keeps kl kf kb s) : Keeps kl kf kb (State.writeAll s init ws).2 := by
  unfold State.writeAll
  repeat' (first
    | intro _
    | with_reducible assumption
    | with_reducible apply Keeps.foldl
    | with_reducible apply Keeps.foldl2
    | with_reducible apply Keeps.foldl1
    | with_reducible apply Keeps.foldl3
    | with_reducible apply State.write_keeps)

theorem State.bandBuf_keeps {kl kf : Bool} {kb : State} (s : State) (u : Nat) (r : VisRun) (d : Bytes)
    (hk : Keeps kl kf kb s) : Keeps kl kf kb (State.bandBuf s u r d).2 := by
  unfold State.bandBuf
  repeat' (first
    | intro _
    | with_reducible assumption
    | with_reducible apply Keeps.foldl
    | with_reducible apply State.cacheTouch_keeps
    | with_reducible apply Keeps.ite
    | split
    | dsimp only [id]
    | simp only [Keeps.upd])

theorem visionBandEffect_keeps {kl kf : Bool} {kb : State} (t : Nat) (u : Nat) (err : ReadErr) (s0 : State)
    (hk : Keeps kl kf kb (s0.at t)) : Keeps kl kf kb (visionBandEffect t u err s0) := by
  unfold visionBandEffect
  repeat' (first
    | intro _
    | with_reducible assumption
    | with_reducible apply State.bandBuf_keeps
    | with_reducible apply State.countUncorrectable_keeps
    | with_reducible apply State.fetchBand_keeps
    | with_reducible apply State.noteCorrected_keeps
    | with_reducible apply State.strike_keeps
    | with_reducible apply State.visFault_keeps
    | with_reducible apply State.writeAll_keeps
    | with_reducible apply Keeps.ite
    | split
    | dsimp only [id]
    | simp only [Keeps.upd, State.modBf, State.modCtx, State.modVis])

theorem execVisionBandComplete_keeps {kl kf : Bool} (t : Nat) (u : Nat) (err : ReadErr) (s : State) :
    ∃ s1, execVisionBandComplete t u err s = .next s1 ∧ Keeps kl kf (s.at t) s1 := by
  refine ⟨_, rfl, ?_⟩
  repeat' (first
    | intro _
    | (with_reducible first | exact Keeps.refl _ _ _ | assumption)
    | with_reducible apply visionBandEffect_keeps)

theorem State.closeOp_keeps {kl kf : Bool} {kb : State} (s : State) (u : Nat) (r : VisRun) (c : Ctx) (d : Bytes)
    (hk : Keeps kl kf kb s) : Keeps kl kf kb (State.closeOp s u r c d) := by
  unfold State.closeOp
  repeat' (first
    | intro _
    | with_reducible assumption
    | with_reducible apply State.freeBytes_keeps
    | with_reducible apply State.record_keeps
    | with_reducible apply Keeps.ite)

theorem visionCompleteEffect_keeps {kl kf : Bool} {kb : State} (t : Nat) (u : Nat) (s0 : State)
    (hk : Keeps kl kf kb (s0.at t)) : Keeps kl kf kb (visionCompleteEffect t u s0) := by
  unfold visionCompleteEffect
  repeat' (first
    | intro _
    | with_reducible assumption
    | with_reducible apply State.closeOp_keeps
    | with_reducible apply Keeps.ite
    | split
    | dsimp only [id]
    | simp only [Keeps.upd, State.modVis])

theorem execVisionOperationComplete_keeps {kl kf : Bool} (t : Nat) (u : Nat) (s : State) :
    ∃ s1, execVisionOperationComplete t u s = .next s1 ∧ Keeps kl kf (s.at t) s1 := by
  refine ⟨_, rfl, ?_⟩
  repeat' (first
    | intro _
    | (with_reducible first | exact Keeps.refl _ _ _ | assumption)
    | with_reducible apply visionCompleteEffect_keeps)

theorem visionParityEffect_keeps {kl kf : Bool} {kb : State} (t : Nat) (u : Nat) (s0 : State)
    (hk : Keeps kl kf kb (s0.at t)) : Keeps kl kf kb (visionParityEffect t u s0) := by
  unfold visionParityEffect
  repeat' (first
    | intro _
    | with_reducible assumption
    | with_reducible apply State.logError_keeps
    | with_reducible apply State.unitFault_keeps
    | with_reducible apply Keeps.ite
    | split
    | dsimp only [id]
    | simp only [Keeps.upd, State.modVis])

theorem execVisionParityError_keeps {kl kf : Bool} (t : Nat) (u : Nat) (s : State) :
    ∃ s1, execVisionParityError t u s = .next s1 ∧ Keeps kl kf (s.at t) s1 := by
  refine ⟨_, rfl, ?_⟩
  repeat' (first
    | intro _
    | (with_reducible first | exact Keeps.refl _ _ _ | assumption)
    | with_reducible apply visionParityEffect_keeps)

theorem visionSelftestEffect_keeps {kl kf : Bool} {kb : State} (t : Nat) (u : Nat) (pass : Bool) (s0 : State)
    (hk : Keeps kl kf kb (s0.at t)) : Keeps kl kf kb (visionSelftestEffect t u pass s0) := by
  unfold visionSelftestEffect
  repeat' (first
    | intro _
    | with_reducible assumption
    | with_reducible apply State.answerTest_keeps
    | with_reducible apply State.gateUnused_keeps
    | with_reducible apply State.loseVision_keeps
    | with_reducible apply State.note_keeps
    | with_reducible apply Keeps.ite
    | split
    | dsimp only [id]
    | simp only [Keeps.upd, State.modVis])

theorem execVisionSelftestComplete_keeps {kl kf : Bool} (t : Nat) (u : Nat) (pass : Bool) (s : State) :
    ∃ s1, execVisionSelftestComplete t u pass s = .next s1 ∧ Keeps kl kf (s.at t) s1 := by
  refine ⟨_, rfl, ?_⟩
  repeat' (first
    | intro _
    | (with_reducible first | exact Keeps.refl _ _ _ | assumption)
    | with_reducible apply visionSelftestEffect_keeps)

theorem checkModeEffect_keeps {kl kf : Bool} {kb : State} (t : Nat) (p : Nat) (s0 : State)
    (hk : Keeps kl kf kb (s0.at t)) : Keeps kl kf kb (checkModeEffect t p s0) := by
  unfold checkModeEffect
  repeat' (first
    | intro _
    | with_reducible assumption
    | with_reducible apply State.answer_keeps
    | with_reducible apply Keeps.ite
    | split
    | dsimp only [id]
    | simp only [Keeps.upd, State.modVis])

theorem execCheckMode_keeps {kl kf : Bool} (t : Nat) (p : Nat) (s : State) :
    ∃ s1, execCheckMode t p s = .next s1 ∧ Keeps kl kf (s.at t) s1 := by
  refine ⟨_, rfl, ?_⟩
  repeat' (first
    | intro _
    | (with_reducible first | exact Keeps.refl _ _ _ | assumption)
    | with_reducible apply checkModeEffect_keeps)

end Sys2Proof.Machine
end

