-- ==== Sys2Proof/Laws/State.lean ====
section
/-! SUPPORT. One lemma per field per update of the state, tables and keyed lists read after a change, and what the passage of time leaves alone. -/
namespace Sys2Proof

theorem Tab.at_mod {n : Nat} {α : Type} [Inhabited α] (t : Tab n α) (i j : Nat) (f : α → α) :
    (t.mod i f).at j = if i = j ∧ i < n then f (t.at i) else t.at j := by
  unfold Tab.mod Tab.at
  by_cases h : i < n
  · by_cases hij : i = j
    · subst hij; simp [h]
    · simp [h, hij]
  · simp [h]

@[simp] theorem Tab.at_mod_same {n : Nat} {α : Type} [Inhabited α] (t : Tab n α) (i : Nat) (f : α → α) (h : i < n) :
    (t.mod i f).at i = f (t.at i) := by simp [Tab.at_mod, h]

theorem Tab.at_mod_other {n : Nat} {α : Type} [Inhabited α] (t : Tab n α) (i j : Nat) (f : α → α) (h : i ≠ j) : (t.mod i f).at j = t.at j := by
  simp [Tab.at_mod, h]

end Sys2Proof

namespace Sys2Proof.Machine
open Sys2Proof

/-! ## Keyed lists -/

theorem aGet_aSet {α : Type} (l : List (Nat × α)) (i j : Nat) (v : α) : aGet (aSet l i v) j = if i = j then some v else aGet l j := by
  induction l with
  | nil => simp [aSet, aGet]
  | cons c l ih =>
    obtain ⟨k, w⟩ := c
    unfold aSet
    by_cases h1 : i < k
    · simp [h1, aGet]
    · by_cases h2 : i = k
      · subst h2; by_cases hj : i = j <;> simp [aGet, hj]
      · by_cases hj : k = j
        · have : ¬ i = j := fun e => h2 (e.trans hj.symm)
          rw [if_neg h1, if_neg h2, aGet, if_pos hj, if_neg this, aGet, if_pos hj]
        · simp [h1, h2, aGet, hj, ih]

theorem aGet_aMod {α : Type} (l : List (Nat × α)) (i j : Nat) (f : α → α) :
    aGet (aMod l i f) j = if i = j then (aGet l i).map f else aGet l j := by
  induction l with
  | nil => simp [aMod, aGet]
  | cons c l ih =>
    obtain ⟨k, w⟩ := c
    unfold aMod
    by_cases h1 : k = i
    · subst h1; by_cases hj : k = j <;> simp [aGet, hj]
    · by_cases hj : k = j
      · subst hj
        have : ¬ i = k := fun e => h1 e.symm
        simp [h1, aGet, this]
      · by_cases hij : i = j
        · subst hij; simp [h1, aGet, ih]
        · simp [h1, aGet, hj, hij, ih]

/-! ## Time -/

/-- Time that has been reached already does not pass again. -/
theorem State.at_of_le {s : State} {t : Nat} (h : t ≤ s.clock.timebase) : s.at t = s := by simp [State.at, h]

theorem Clock.run_timebase (c : Clock) (dt : Nat) : (c.run dt).timebase = c.timebase + dt := rfl

/-- The timebase takes every nanosecond that passes. -/
theorem Clock.advance_timebase (c : Clock) (dt : Nat) : (c.advance dt).timebase = c.timebase + dt := by
  unfold Clock.advance
  split
  · split
    · simp only [Clock.run_timebase]; omega
    · rfl
  · rfl

/-- Time never runs back. -/
theorem State.now_le_at (s : State) (t : Nat) : s.now ≤ (s.at t).now := by
  unfold State.at State.now
  split
  · exact Nat.le_refl _
  · simp only [Clock.advance_timebase]; omega

@[simp] theorem State.at_bf (s : State) (t : Nat) : (s.at t).bf = s.bf := by unfold State.at; split <;> rfl
@[simp] theorem State.at_mem (s : State) (t : Nat) : (s.at t).mem = s.mem := by unfold State.at; split <;> rfl
@[simp] theorem State.at_spc (s : State) (t : Nat) : (s.at t).spc = s.spc := by unfold State.at; split <;> rfl
@[simp] theorem State.at_spire (s : State) (t : Nat) : (s.at t).spire = s.spire := by unfold State.at; split <;> rfl
@[simp] theorem State.at_ports (s : State) (t : Nat) : (s.at t).ports = s.ports := by unfold State.at; split <;> rfl
@[simp] theorem State.at_cams (s : State) (t : Nat) : (s.at t).cams = s.cams := by unfold State.at; split <;> rfl
@[simp] theorem State.at_genlock (s : State) (t : Nat) : (s.at t).genlock = s.genlock := by unfold State.at; split <;> rfl
@[simp] theorem State.at_scu (s : State) (t : Nat) : (s.at t).scu = s.scu := by unfold State.at; split <;> rfl
@[simp] theorem State.at_rfe (s : State) (t : Nat) : (s.at t).rfe = s.rfe := by unfold State.at; split <;> rfl
@[simp] theorem State.at_egress (s : State) (t : Nat) : (s.at t).egress = s.egress := by unfold State.at; split <;> rfl
@[simp] theorem State.at_sne (s : State) (t : Nat) : (s.at t).sne = s.sne := by unfold State.at; split <;> rfl
@[simp] theorem State.at_vis (s : State) (t : Nat) : (s.at t).vis = s.vis := by unfold State.at; split <;> rfl
@[simp] theorem State.at_pci (s : State) (t : Nat) : (s.at t).pci = s.pci := by unfold State.at; split <;> rfl
@[simp] theorem State.at_peer (s : State) (t : Nat) : (s.at t).peer = s.peer := by unfold State.at; split <;> rfl
@[simp] theorem State.at_imports (s : State) (t : Nat) : (s.at t).imports = s.imports := by unfold State.at; split <;> rfl
@[simp] theorem State.at_ctrMaps (s : State) (t : Nat) : (s.at t).ctrMaps = s.ctrMaps := by unfold State.at; split <;> rfl
@[simp] theorem State.at_field (s : State) (t : Nat) : (s.at t).field = s.field := by unfold State.at; split <;> rfl
@[simp] theorem State.at_lantern (s : State) (t : Nat) : (s.at t).lantern = s.lantern := by unfold State.at; split <;> rfl
@[simp] theorem State.at_reliab (s : State) (t : Nat) : (s.at t).reliab = s.reliab := by unfold State.at; split <;> rfl
@[simp] theorem State.at_watch (s : State) (t : Nat) : (s.at t).watch = s.watch := by unfold State.at; split <;> rfl
@[simp] theorem State.at_fuses (s : State) (t : Nat) : (s.at t).fuses = s.fuses := by unfold State.at; split <;> rfl
@[simp] theorem State.at_flash (s : State) (t : Nat) : (s.at t).flash = s.flash := by unfold State.at; split <;> rfl
@[simp] theorem State.at_power (s : State) (t : Nat) : (s.at t).power = s.power := by unfold State.at; split <;> rfl
@[simp] theorem State.at_resets (s : State) (t : Nat) : (s.at t).resets = s.resets := by unfold State.at; split <;> rfl
@[simp] theorem State.at_straps (s : State) (t : Nat) : (s.at t).straps = s.straps := by unfold State.at; split <;> rfl
@[simp] theorem State.at_out (s : State) (t : Nat) : (s.at t).out = s.out := by unfold State.at; split <;> rfl
@[simp] theorem State.at_fresh (s : State) (t : Nat) : (s.at t).fresh = s.fresh := by unfold State.at; split <;> rfl
@[simp] theorem State.at_pending (s : State) (t : Nat) : (s.at t).pending = s.pending := by unfold State.at; split <;> rfl

/-! ### emit -/

@[simp] theorem State.emit_clock (s : State) (o : Output) : (s.emit o).clock = s.clock := rfl
@[simp] theorem State.emit_bf (s : State) (o : Output) : (s.emit o).bf = s.bf := rfl
@[simp] theorem State.emit_mem (s : State) (o : Output) : (s.emit o).mem = s.mem := rfl
@[simp] theorem State.emit_spc (s : State) (o : Output) : (s.emit o).spc = s.spc := rfl
@[simp] theorem State.emit_spire (s : State) (o : Output) : (s.emit o).spire = s.spire := rfl
@[simp] theorem State.emit_ports (s : State) (o : Output) : (s.emit o).ports = s.ports := rfl
@[simp] theorem State.emit_cams (s : State) (o : Output) : (s.emit o).cams = s.cams := rfl
@[simp] theorem State.emit_genlock (s : State) (o : Output) : (s.emit o).genlock = s.genlock := rfl
@[simp] theorem State.emit_scu (s : State) (o : Output) : (s.emit o).scu = s.scu := rfl
@[simp] theorem State.emit_rfe (s : State) (o : Output) : (s.emit o).rfe = s.rfe := rfl
@[simp] theorem State.emit_egress (s : State) (o : Output) : (s.emit o).egress = s.egress := rfl
@[simp] theorem State.emit_sne (s : State) (o : Output) : (s.emit o).sne = s.sne := rfl
@[simp] theorem State.emit_vis (s : State) (o : Output) : (s.emit o).vis = s.vis := rfl
@[simp] theorem State.emit_pci (s : State) (o : Output) : (s.emit o).pci = s.pci := rfl
@[simp] theorem State.emit_peer (s : State) (o : Output) : (s.emit o).peer = s.peer := rfl
@[simp] theorem State.emit_imports (s : State) (o : Output) : (s.emit o).imports = s.imports := rfl
@[simp] theorem State.emit_ctrMaps (s : State) (o : Output) : (s.emit o).ctrMaps = s.ctrMaps := rfl
@[simp] theorem State.emit_field (s : State) (o : Output) : (s.emit o).field = s.field := rfl
@[simp] theorem State.emit_lantern (s : State) (o : Output) : (s.emit o).lantern = s.lantern := rfl
@[simp] theorem State.emit_reliab (s : State) (o : Output) : (s.emit o).reliab = s.reliab := rfl
@[simp] theorem State.emit_watch (s : State) (o : Output) : (s.emit o).watch = s.watch := rfl
@[simp] theorem State.emit_fuses (s : State) (o : Output) : (s.emit o).fuses = s.fuses := rfl
@[simp] theorem State.emit_flash (s : State) (o : Output) : (s.emit o).flash = s.flash := rfl
@[simp] theorem State.emit_power (s : State) (o : Output) : (s.emit o).power = s.power := rfl
@[simp] theorem State.emit_resets (s : State) (o : Output) : (s.emit o).resets = s.resets := rfl
@[simp] theorem State.emit_straps (s : State) (o : Output) : (s.emit o).straps = s.straps := rfl
@[simp] theorem State.emit_out (s : State) (o : Output) : (s.emit o).out = s.out ++ [o] := rfl
@[simp] theorem State.emit_fresh (s : State) (o : Output) : (s.emit o).fresh = s.fresh := rfl
@[simp] theorem State.emit_pending (s : State) (o : Output) : (s.emit o).pending = s.pending := rfl

/-! ### modBf -/

@[simp] theorem State.modBf_clock (s : State) (f : Belfry → Belfry) : (s.modBf f).clock = s.clock := rfl
@[simp] theorem State.modBf_bf (s : State) (f : Belfry → Belfry) : (s.modBf f).bf = f s.bf := rfl
@[simp] theorem State.modBf_mem (s : State) (f : Belfry → Belfry) : (s.modBf f).mem = s.mem := rfl
@[simp] theorem State.modBf_spc (s : State) (f : Belfry → Belfry) : (s.modBf f).spc = s.spc := rfl
@[simp] theorem State.modBf_spire (s : State) (f : Belfry → Belfry) : (s.modBf f).spire = s.spire := rfl
@[simp] theorem State.modBf_ports (s : State) (f : Belfry → Belfry) : (s.modBf f).ports = s.ports := rfl
@[simp] theorem State.modBf_cams (s : State) (f : Belfry → Belfry) : (s.modBf f).cams = s.cams := rfl
@[simp] theorem State.modBf_genlock (s : State) (f : Belfry → Belfry) : (s.modBf f).genlock = s.genlock := rfl
@[simp] theorem State.modBf_scu (s : State) (f : Belfry → Belfry) : (s.modBf f).scu = s.scu := rfl
@[simp] theorem State.modBf_rfe (s : State) (f : Belfry → Belfry) : (s.modBf f).rfe = s.rfe := rfl
@[simp] theorem State.modBf_egress (s : State) (f : Belfry → Belfry) : (s.modBf f).egress = s.egress := rfl
@[simp] theorem State.modBf_sne (s : State) (f : Belfry → Belfry) : (s.modBf f).sne = s.sne := rfl
@[simp] theorem State.modBf_vis (s : State) (f : Belfry → Belfry) : (s.modBf f).vis = s.vis := rfl
@[simp] theorem State.modBf_pci (s : State) (f : Belfry → Belfry) : (s.modBf f).pci = s.pci := rfl
@[simp] theorem State.modBf_peer (s : State) (f : Belfry → Belfry) : (s.modBf f).peer = s.peer := rfl
@[simp] theorem State.modBf_imports (s : State) (f : Belfry → Belfry) : (s.modBf f).imports = s.imports := rfl
@[simp] theorem State.modBf_ctrMaps (s : State) (f : Belfry → Belfry) : (s.modBf f).ctrMaps = s.ctrMaps := rfl
@[simp] theorem State.modBf_field (s : State) (f : Belfry → Belfry) : (s.modBf f).field = s.field := rfl
@[simp] theorem State.modBf_lantern (s : State) (f : Belfry → Belfry) : (s.modBf f).lantern = s.lantern := rfl
@[simp] theorem State.modBf_reliab (s : State) (f : Belfry → Belfry) : (s.modBf f).reliab = s.reliab := rfl
@[simp] theorem State.modBf_watch (s : State) (f : Belfry → Belfry) : (s.modBf f).watch = s.watch := rfl
@[simp] theorem State.modBf_fuses (s : State) (f : Belfry → Belfry) : (s.modBf f).fuses = s.fuses := rfl
@[simp] theorem State.modBf_flash (s : State) (f : Belfry → Belfry) : (s.modBf f).flash = s.flash := rfl
@[simp] theorem State.modBf_power (s : State) (f : Belfry → Belfry) : (s.modBf f).power = s.power := rfl
@[simp] theorem State.modBf_resets (s : State) (f : Belfry → Belfry) : (s.modBf f).resets = s.resets := rfl
@[simp] theorem State.modBf_straps (s : State) (f : Belfry → Belfry) : (s.modBf f).straps = s.straps := rfl
@[simp] theorem State.modBf_out (s : State) (f : Belfry → Belfry) : (s.modBf f).out = s.out := rfl
@[simp] theorem State.modBf_fresh (s : State) (f : Belfry → Belfry) : (s.modBf f).fresh = s.fresh := rfl
@[simp] theorem State.modBf_pending (s : State) (f : Belfry → Belfry) : (s.modBf f).pending = s.pending := rfl

/-! ### modCtx -/

@[simp] theorem State.modCtx_clock (s : State) (i : Nat) (f : Ctx → Ctx) : (s.modCtx i f).clock = s.clock := rfl
@[simp] theorem State.modCtx_bf (s : State) (i : Nat) (f : Ctx → Ctx) : (s.modCtx i f).bf = { s.bf with ctxs := aMod s.bf.ctxs i f } := rfl
@[simp] theorem State.modCtx_mem (s : State) (i : Nat) (f : Ctx → Ctx) : (s.modCtx i f).mem = s.mem := rfl
@[simp] theorem State.modCtx_spc (s : State) (i : Nat) (f : Ctx → Ctx) : (s.modCtx i f).spc = s.spc := rfl
@[simp] theorem State.modCtx_spire (s : State) (i : Nat) (f : Ctx → Ctx) : (s.modCtx i f).spire = s.spire := rfl
@[simp] theorem State.modCtx_ports (s : State) (i : Nat) (f : Ctx → Ctx) : (s.modCtx i f).ports = s.ports := rfl
@[simp] theorem State.modCtx_cams (s : State) (i : Nat) (f : Ctx → Ctx) : (s.modCtx i f).cams = s.cams := rfl
@[simp] theorem State.modCtx_genlock (s : State) (i : Nat) (f : Ctx → Ctx) : (s.modCtx i f).genlock = s.genlock := rfl
@[simp] theorem State.modCtx_scu (s : State) (i : Nat) (f : Ctx → Ctx) : (s.modCtx i f).scu = s.scu := rfl
@[simp] theorem State.modCtx_rfe (s : State) (i : Nat) (f : Ctx → Ctx) : (s.modCtx i f).rfe = s.rfe := rfl
@[simp] theorem State.modCtx_egress (s : State) (i : Nat) (f : Ctx → Ctx) : (s.modCtx i f).egress = s.egress := rfl
@[simp] theorem State.modCtx_sne (s : State) (i : Nat) (f : Ctx → Ctx) : (s.modCtx i f).sne = s.sne := rfl
@[simp] theorem State.modCtx_vis (s : State) (i : Nat) (f : Ctx → Ctx) : (s.modCtx i f).vis = s.vis := rfl
@[simp] theorem State.modCtx_pci (s : State) (i : Nat) (f : Ctx → Ctx) : (s.modCtx i f).pci = s.pci := rfl
@[simp] theorem State.modCtx_peer (s : State) (i : Nat) (f : Ctx → Ctx) : (s.modCtx i f).peer = s.peer := rfl
@[simp] theorem State.modCtx_imports (s : State) (i : Nat) (f : Ctx → Ctx) : (s.modCtx i f).imports = s.imports := rfl
@[simp] theorem State.modCtx_ctrMaps (s : State) (i : Nat) (f : Ctx → Ctx) : (s.modCtx i f).ctrMaps = s.ctrMaps := rfl
@[simp] theorem State.modCtx_field (s : State) (i : Nat) (f : Ctx → Ctx) : (s.modCtx i f).field = s.field := rfl
@[simp] theorem State.modCtx_lantern (s : State) (i : Nat) (f : Ctx → Ctx) : (s.modCtx i f).lantern = s.lantern := rfl
@[simp] theorem State.modCtx_reliab (s : State) (i : Nat) (f : Ctx → Ctx) : (s.modCtx i f).reliab = s.reliab := rfl
@[simp] theorem State.modCtx_watch (s : State) (i : Nat) (f : Ctx → Ctx) : (s.modCtx i f).watch = s.watch := rfl
@[simp] theorem State.modCtx_fuses (s : State) (i : Nat) (f : Ctx → Ctx) : (s.modCtx i f).fuses = s.fuses := rfl
@[simp] theorem State.modCtx_flash (s : State) (i : Nat) (f : Ctx → Ctx) : (s.modCtx i f).flash = s.flash := rfl
@[simp] theorem State.modCtx_power (s : State) (i : Nat) (f : Ctx → Ctx) : (s.modCtx i f).power = s.power := rfl
@[simp] theorem State.modCtx_resets (s : State) (i : Nat) (f : Ctx → Ctx) : (s.modCtx i f).resets = s.resets := rfl
@[simp] theorem State.modCtx_straps (s : State) (i : Nat) (f : Ctx → Ctx) : (s.modCtx i f).straps = s.straps := rfl
@[simp] theorem State.modCtx_out (s : State) (i : Nat) (f : Ctx → Ctx) : (s.modCtx i f).out = s.out := rfl
@[simp] theorem State.modCtx_fresh (s : State) (i : Nat) (f : Ctx → Ctx) : (s.modCtx i f).fresh = s.fresh := rfl
@[simp] theorem State.modCtx_pending (s : State) (i : Nat) (f : Ctx → Ctx) : (s.modCtx i f).pending = s.pending := rfl

/-! ### modGraph -/

@[simp] theorem State.modGraph_clock (s : State) (g : Nat) (f : Graph → Graph) : (s.modGraph g f).clock = s.clock := rfl
@[simp] theorem State.modGraph_bf (s : State) (g : Nat) (f : Graph → Graph) : (s.modGraph g f).bf = { s.bf with graphs := aMod s.bf.graphs g f } := rfl
@[simp] theorem State.modGraph_mem (s : State) (g : Nat) (f : Graph → Graph) : (s.modGraph g f).mem = s.mem := rfl
@[simp] theorem State.modGraph_spc (s : State) (g : Nat) (f : Graph → Graph) : (s.modGraph g f).spc = s.spc := rfl
@[simp] theorem State.modGraph_spire (s : State) (g : Nat) (f : Graph → Graph) : (s.modGraph g f).spire = s.spire := rfl
@[simp] theorem State.modGraph_ports (s : State) (g : Nat) (f : Graph → Graph) : (s.modGraph g f).ports = s.ports := rfl
@[simp] theorem State.modGraph_cams (s : State) (g : Nat) (f : Graph → Graph) : (s.modGraph g f).cams = s.cams := rfl
@[simp] theorem State.modGraph_genlock (s : State) (g : Nat) (f : Graph → Graph) : (s.modGraph g f).genlock = s.genlock := rfl
@[simp] theorem State.modGraph_scu (s : State) (g : Nat) (f : Graph → Graph) : (s.modGraph g f).scu = s.scu := rfl
@[simp] theorem State.modGraph_rfe (s : State) (g : Nat) (f : Graph → Graph) : (s.modGraph g f).rfe = s.rfe := rfl
@[simp] theorem State.modGraph_egress (s : State) (g : Nat) (f : Graph → Graph) : (s.modGraph g f).egress = s.egress := rfl
@[simp] theorem State.modGraph_sne (s : State) (g : Nat) (f : Graph → Graph) : (s.modGraph g f).sne = s.sne := rfl
@[simp] theorem State.modGraph_vis (s : State) (g : Nat) (f : Graph → Graph) : (s.modGraph g f).vis = s.vis := rfl
@[simp] theorem State.modGraph_pci (s : State) (g : Nat) (f : Graph → Graph) : (s.modGraph g f).pci = s.pci := rfl
@[simp] theorem State.modGraph_peer (s : State) (g : Nat) (f : Graph → Graph) : (s.modGraph g f).peer = s.peer := rfl
@[simp] theorem State.modGraph_imports (s : State) (g : Nat) (f : Graph → Graph) : (s.modGraph g f).imports = s.imports := rfl
@[simp] theorem State.modGraph_ctrMaps (s : State) (g : Nat) (f : Graph → Graph) : (s.modGraph g f).ctrMaps = s.ctrMaps := rfl
@[simp] theorem State.modGraph_field (s : State) (g : Nat) (f : Graph → Graph) : (s.modGraph g f).field = s.field := rfl
@[simp] theorem State.modGraph_lantern (s : State) (g : Nat) (f : Graph → Graph) : (s.modGraph g f).lantern = s.lantern := rfl
@[simp] theorem State.modGraph_reliab (s : State) (g : Nat) (f : Graph → Graph) : (s.modGraph g f).reliab = s.reliab := rfl
@[simp] theorem State.modGraph_watch (s : State) (g : Nat) (f : Graph → Graph) : (s.modGraph g f).watch = s.watch := rfl
@[simp] theorem State.modGraph_fuses (s : State) (g : Nat) (f : Graph → Graph) : (s.modGraph g f).fuses = s.fuses := rfl
@[simp] theorem State.modGraph_flash (s : State) (g : Nat) (f : Graph → Graph) : (s.modGraph g f).flash = s.flash := rfl
@[simp] theorem State.modGraph_power (s : State) (g : Nat) (f : Graph → Graph) : (s.modGraph g f).power = s.power := rfl
@[simp] theorem State.modGraph_resets (s : State) (g : Nat) (f : Graph → Graph) : (s.modGraph g f).resets = s.resets := rfl
@[simp] theorem State.modGraph_straps (s : State) (g : Nat) (f : Graph → Graph) : (s.modGraph g f).straps = s.straps := rfl
@[simp] theorem State.modGraph_out (s : State) (g : Nat) (f : Graph → Graph) : (s.modGraph g f).out = s.out := rfl
@[simp] theorem State.modGraph_fresh (s : State) (g : Nat) (f : Graph → Graph) : (s.modGraph g f).fresh = s.fresh := rfl
@[simp] theorem State.modGraph_pending (s : State) (g : Nat) (f : Graph → Graph) : (s.modGraph g f).pending = s.pending := rfl

/-! ### modGroup -/

@[simp] theorem State.modGroup_clock (s : State) (g : Nat) (f : McGroup → McGroup) : (s.modGroup g f).clock = s.clock := rfl
@[simp] theorem State.modGroup_bf (s : State) (g : Nat) (f : McGroup → McGroup) : (s.modGroup g f).bf = { s.bf with groups := aMod s.bf.groups g f } := rfl
@[simp] theorem State.modGroup_mem (s : State) (g : Nat) (f : McGroup → McGroup) : (s.modGroup g f).mem = s.mem := rfl
@[simp] theorem State.modGroup_spc (s : State) (g : Nat) (f : McGroup → McGroup) : (s.modGroup g f).spc = s.spc := rfl
@[simp] theorem State.modGroup_spire (s : State) (g : Nat) (f : McGroup → McGroup) : (s.modGroup g f).spire = s.spire := rfl
@[simp] theorem State.modGroup_ports (s : State) (g : Nat) (f : McGroup → McGroup) : (s.modGroup g f).ports = s.ports := rfl
@[simp] theorem State.modGroup_cams (s : State) (g : Nat) (f : McGroup → McGroup) : (s.modGroup g f).cams = s.cams := rfl
@[simp] theorem State.modGroup_genlock (s : State) (g : Nat) (f : McGroup → McGroup) : (s.modGroup g f).genlock = s.genlock := rfl
@[simp] theorem State.modGroup_scu (s : State) (g : Nat) (f : McGroup → McGroup) : (s.modGroup g f).scu = s.scu := rfl
@[simp] theorem State.modGroup_rfe (s : State) (g : Nat) (f : McGroup → McGroup) : (s.modGroup g f).rfe = s.rfe := rfl
@[simp] theorem State.modGroup_egress (s : State) (g : Nat) (f : McGroup → McGroup) : (s.modGroup g f).egress = s.egress := rfl
@[simp] theorem State.modGroup_sne (s : State) (g : Nat) (f : McGroup → McGroup) : (s.modGroup g f).sne = s.sne := rfl
@[simp] theorem State.modGroup_vis (s : State) (g : Nat) (f : McGroup → McGroup) : (s.modGroup g f).vis = s.vis := rfl
@[simp] theorem State.modGroup_pci (s : State) (g : Nat) (f : McGroup → McGroup) : (s.modGroup g f).pci = s.pci := rfl
@[simp] theorem State.modGroup_peer (s : State) (g : Nat) (f : McGroup → McGroup) : (s.modGroup g f).peer = s.peer := rfl
@[simp] theorem State.modGroup_imports (s : State) (g : Nat) (f : McGroup → McGroup) : (s.modGroup g f).imports = s.imports := rfl
@[simp] theorem State.modGroup_ctrMaps (s : State) (g : Nat) (f : McGroup → McGroup) : (s.modGroup g f).ctrMaps = s.ctrMaps := rfl
@[simp] theorem State.modGroup_field (s : State) (g : Nat) (f : McGroup → McGroup) : (s.modGroup g f).field = s.field := rfl
@[simp] theorem State.modGroup_lantern (s : State) (g : Nat) (f : McGroup → McGroup) : (s.modGroup g f).lantern = s.lantern := rfl
@[simp] theorem State.modGroup_reliab (s : State) (g : Nat) (f : McGroup → McGroup) : (s.modGroup g f).reliab = s.reliab := rfl
@[simp] theorem State.modGroup_watch (s : State) (g : Nat) (f : McGroup → McGroup) : (s.modGroup g f).watch = s.watch := rfl
@[simp] theorem State.modGroup_fuses (s : State) (g : Nat) (f : McGroup → McGroup) : (s.modGroup g f).fuses = s.fuses := rfl
@[simp] theorem State.modGroup_flash (s : State) (g : Nat) (f : McGroup → McGroup) : (s.modGroup g f).flash = s.flash := rfl
@[simp] theorem State.modGroup_power (s : State) (g : Nat) (f : McGroup → McGroup) : (s.modGroup g f).power = s.power := rfl
@[simp] theorem State.modGroup_resets (s : State) (g : Nat) (f : McGroup → McGroup) : (s.modGroup g f).resets = s.resets := rfl
@[simp] theorem State.modGroup_straps (s : State) (g : Nat) (f : McGroup → McGroup) : (s.modGroup g f).straps = s.straps := rfl
@[simp] theorem State.modGroup_out (s : State) (g : Nat) (f : McGroup → McGroup) : (s.modGroup g f).out = s.out := rfl
@[simp] theorem State.modGroup_fresh (s : State) (g : Nat) (f : McGroup → McGroup) : (s.modGroup g f).fresh = s.fresh := rfl
@[simp] theorem State.modGroup_pending (s : State) (g : Nat) (f : McGroup → McGroup) : (s.modGroup g f).pending = s.pending := rfl

/-! ### modSpc -/

@[simp] theorem State.modSpc_clock (s : State) (core : Nat) (f : Spc → Spc) : (s.modSpc core f).clock = s.clock := rfl
@[simp] theorem State.modSpc_bf (s : State) (core : Nat) (f : Spc → Spc) : (s.modSpc core f).bf = s.bf := rfl
@[simp] theorem State.modSpc_mem (s : State) (core : Nat) (f : Spc → Spc) : (s.modSpc core f).mem = s.mem := rfl
@[simp] theorem State.modSpc_spc (s : State) (core : Nat) (f : Spc → Spc) : (s.modSpc core f).spc = s.spc.mod core f := rfl
@[simp] theorem State.modSpc_spire (s : State) (core : Nat) (f : Spc → Spc) : (s.modSpc core f).spire = s.spire := rfl
@[simp] theorem State.modSpc_ports (s : State) (core : Nat) (f : Spc → Spc) : (s.modSpc core f).ports = s.ports := rfl
@[simp] theorem State.modSpc_cams (s : State) (core : Nat) (f : Spc → Spc) : (s.modSpc core f).cams = s.cams := rfl
@[simp] theorem State.modSpc_genlock (s : State) (core : Nat) (f : Spc → Spc) : (s.modSpc core f).genlock = s.genlock := rfl
@[simp] theorem State.modSpc_scu (s : State) (core : Nat) (f : Spc → Spc) : (s.modSpc core f).scu = s.scu := rfl
@[simp] theorem State.modSpc_rfe (s : State) (core : Nat) (f : Spc → Spc) : (s.modSpc core f).rfe = s.rfe := rfl
@[simp] theorem State.modSpc_egress (s : State) (core : Nat) (f : Spc → Spc) : (s.modSpc core f).egress = s.egress := rfl
@[simp] theorem State.modSpc_sne (s : State) (core : Nat) (f : Spc → Spc) : (s.modSpc core f).sne = s.sne := rfl
@[simp] theorem State.modSpc_vis (s : State) (core : Nat) (f : Spc → Spc) : (s.modSpc core f).vis = s.vis := rfl
@[simp] theorem State.modSpc_pci (s : State) (core : Nat) (f : Spc → Spc) : (s.modSpc core f).pci = s.pci := rfl
@[simp] theorem State.modSpc_peer (s : State) (core : Nat) (f : Spc → Spc) : (s.modSpc core f).peer = s.peer := rfl
@[simp] theorem State.modSpc_imports (s : State) (core : Nat) (f : Spc → Spc) : (s.modSpc core f).imports = s.imports := rfl
@[simp] theorem State.modSpc_ctrMaps (s : State) (core : Nat) (f : Spc → Spc) : (s.modSpc core f).ctrMaps = s.ctrMaps := rfl
@[simp] theorem State.modSpc_field (s : State) (core : Nat) (f : Spc → Spc) : (s.modSpc core f).field = s.field := rfl
@[simp] theorem State.modSpc_lantern (s : State) (core : Nat) (f : Spc → Spc) : (s.modSpc core f).lantern = s.lantern := rfl
@[simp] theorem State.modSpc_reliab (s : State) (core : Nat) (f : Spc → Spc) : (s.modSpc core f).reliab = s.reliab := rfl
@[simp] theorem State.modSpc_watch (s : State) (core : Nat) (f : Spc → Spc) : (s.modSpc core f).watch = s.watch := rfl
@[simp] theorem State.modSpc_fuses (s : State) (core : Nat) (f : Spc → Spc) : (s.modSpc core f).fuses = s.fuses := rfl
@[simp] theorem State.modSpc_flash (s : State) (core : Nat) (f : Spc → Spc) : (s.modSpc core f).flash = s.flash := rfl
@[simp] theorem State.modSpc_power (s : State) (core : Nat) (f : Spc → Spc) : (s.modSpc core f).power = s.power := rfl
@[simp] theorem State.modSpc_resets (s : State) (core : Nat) (f : Spc → Spc) : (s.modSpc core f).resets = s.resets := rfl
@[simp] theorem State.modSpc_straps (s : State) (core : Nat) (f : Spc → Spc) : (s.modSpc core f).straps = s.straps := rfl
@[simp] theorem State.modSpc_out (s : State) (core : Nat) (f : Spc → Spc) : (s.modSpc core f).out = s.out := rfl
@[simp] theorem State.modSpc_fresh (s : State) (core : Nat) (f : Spc → Spc) : (s.modSpc core f).fresh = s.fresh := rfl
@[simp] theorem State.modSpc_pending (s : State) (core : Nat) (f : Spc → Spc) : (s.modSpc core f).pending = s.pending := rfl

/-! ### modLane -/

@[simp] theorem State.modLane_clock (s : State) (core q : Nat) (f : Lane → Lane) : (s.modLane core q f).clock = s.clock := rfl
@[simp] theorem State.modLane_bf (s : State) (core q : Nat) (f : Lane → Lane) : (s.modLane core q f).bf = s.bf := rfl
@[simp] theorem State.modLane_mem (s : State) (core q : Nat) (f : Lane → Lane) : (s.modLane core q f).mem = s.mem := rfl
@[simp] theorem State.modLane_spc (s : State) (core q : Nat) (f : Lane → Lane) : (s.modLane core q f).spc = s.spc.mod core fun x => { x with lanes := x.lanes.mod q f } := rfl
@[simp] theorem State.modLane_spire (s : State) (core q : Nat) (f : Lane → Lane) : (s.modLane core q f).spire = s.spire := rfl
@[simp] theorem State.modLane_ports (s : State) (core q : Nat) (f : Lane → Lane) : (s.modLane core q f).ports = s.ports := rfl
@[simp] theorem State.modLane_cams (s : State) (core q : Nat) (f : Lane → Lane) : (s.modLane core q f).cams = s.cams := rfl
@[simp] theorem State.modLane_genlock (s : State) (core q : Nat) (f : Lane → Lane) : (s.modLane core q f).genlock = s.genlock := rfl
@[simp] theorem State.modLane_scu (s : State) (core q : Nat) (f : Lane → Lane) : (s.modLane core q f).scu = s.scu := rfl
@[simp] theorem State.modLane_rfe (s : State) (core q : Nat) (f : Lane → Lane) : (s.modLane core q f).rfe = s.rfe := rfl
@[simp] theorem State.modLane_egress (s : State) (core q : Nat) (f : Lane → Lane) : (s.modLane core q f).egress = s.egress := rfl
@[simp] theorem State.modLane_sne (s : State) (core q : Nat) (f : Lane → Lane) : (s.modLane core q f).sne = s.sne := rfl
@[simp] theorem State.modLane_vis (s : State) (core q : Nat) (f : Lane → Lane) : (s.modLane core q f).vis = s.vis := rfl
@[simp] theorem State.modLane_pci (s : State) (core q : Nat) (f : Lane → Lane) : (s.modLane core q f).pci = s.pci := rfl
@[simp] theorem State.modLane_peer (s : State) (core q : Nat) (f : Lane → Lane) : (s.modLane core q f).peer = s.peer := rfl
@[simp] theorem State.modLane_imports (s : State) (core q : Nat) (f : Lane → Lane) : (s.modLane core q f).imports = s.imports := rfl
@[simp] theorem State.modLane_ctrMaps (s : State) (core q : Nat) (f : Lane → Lane) : (s.modLane core q f).ctrMaps = s.ctrMaps := rfl
@[simp] theorem State.modLane_field (s : State) (core q : Nat) (f : Lane → Lane) : (s.modLane core q f).field = s.field := rfl
@[simp] theorem State.modLane_lantern (s : State) (core q : Nat) (f : Lane → Lane) : (s.modLane core q f).lantern = s.lantern := rfl
@[simp] theorem State.modLane_reliab (s : State) (core q : Nat) (f : Lane → Lane) : (s.modLane core q f).reliab = s.reliab := rfl
@[simp] theorem State.modLane_watch (s : State) (core q : Nat) (f : Lane → Lane) : (s.modLane core q f).watch = s.watch := rfl
@[simp] theorem State.modLane_fuses (s : State) (core q : Nat) (f : Lane → Lane) : (s.modLane core q f).fuses = s.fuses := rfl
@[simp] theorem State.modLane_flash (s : State) (core q : Nat) (f : Lane → Lane) : (s.modLane core q f).flash = s.flash := rfl
@[simp] theorem State.modLane_power (s : State) (core q : Nat) (f : Lane → Lane) : (s.modLane core q f).power = s.power := rfl
@[simp] theorem State.modLane_resets (s : State) (core q : Nat) (f : Lane → Lane) : (s.modLane core q f).resets = s.resets := rfl
@[simp] theorem State.modLane_straps (s : State) (core q : Nat) (f : Lane → Lane) : (s.modLane core q f).straps = s.straps := rfl
@[simp] theorem State.modLane_out (s : State) (core q : Nat) (f : Lane → Lane) : (s.modLane core q f).out = s.out := rfl
@[simp] theorem State.modLane_fresh (s : State) (core q : Nat) (f : Lane → Lane) : (s.modLane core q f).fresh = s.fresh := rfl
@[simp] theorem State.modLane_pending (s : State) (core q : Nat) (f : Lane → Lane) : (s.modLane core q f).pending = s.pending := rfl

/-! ### modMacro -/

@[simp] theorem State.modMacro_clock (s : State) (i k : Nat) (f : MacroRun → MacroRun) : (s.modMacro i k f).clock = s.clock := rfl
@[simp] theorem State.modMacro_bf (s : State) (i k : Nat) (f : MacroRun → MacroRun) : (s.modMacro i k f).bf = s.bf := rfl
@[simp] theorem State.modMacro_mem (s : State) (i k : Nat) (f : MacroRun → MacroRun) : (s.modMacro i k f).mem = s.mem := rfl
@[simp] theorem State.modMacro_spc (s : State) (i k : Nat) (f : MacroRun → MacroRun) : (s.modMacro i k f).spc = s.spc := rfl
@[simp] theorem State.modMacro_spire (s : State) (i k : Nat) (f : MacroRun → MacroRun) : (s.modMacro i k f).spire = aMod s.spire i fun n => { n with macros := aMod n.macros k f } := rfl
@[simp] theorem State.modMacro_ports (s : State) (i k : Nat) (f : MacroRun → MacroRun) : (s.modMacro i k f).ports = s.ports := rfl
@[simp] theorem State.modMacro_cams (s : State) (i k : Nat) (f : MacroRun → MacroRun) : (s.modMacro i k f).cams = s.cams := rfl
@[simp] theorem State.modMacro_genlock (s : State) (i k : Nat) (f : MacroRun → MacroRun) : (s.modMacro i k f).genlock = s.genlock := rfl
@[simp] theorem State.modMacro_scu (s : State) (i k : Nat) (f : MacroRun → MacroRun) : (s.modMacro i k f).scu = s.scu := rfl
@[simp] theorem State.modMacro_rfe (s : State) (i k : Nat) (f : MacroRun → MacroRun) : (s.modMacro i k f).rfe = s.rfe := rfl
@[simp] theorem State.modMacro_egress (s : State) (i k : Nat) (f : MacroRun → MacroRun) : (s.modMacro i k f).egress = s.egress := rfl
@[simp] theorem State.modMacro_sne (s : State) (i k : Nat) (f : MacroRun → MacroRun) : (s.modMacro i k f).sne = s.sne := rfl
@[simp] theorem State.modMacro_vis (s : State) (i k : Nat) (f : MacroRun → MacroRun) : (s.modMacro i k f).vis = s.vis := rfl
@[simp] theorem State.modMacro_pci (s : State) (i k : Nat) (f : MacroRun → MacroRun) : (s.modMacro i k f).pci = s.pci := rfl
@[simp] theorem State.modMacro_peer (s : State) (i k : Nat) (f : MacroRun → MacroRun) : (s.modMacro i k f).peer = s.peer := rfl
@[simp] theorem State.modMacro_imports (s : State) (i k : Nat) (f : MacroRun → MacroRun) : (s.modMacro i k f).imports = s.imports := rfl
@[simp] theorem State.modMacro_ctrMaps (s : State) (i k : Nat) (f : MacroRun → MacroRun) : (s.modMacro i k f).ctrMaps = s.ctrMaps := rfl
@[simp] theorem State.modMacro_field (s : State) (i k : Nat) (f : MacroRun → MacroRun) : (s.modMacro i k f).field = s.field := rfl
@[simp] theorem State.modMacro_lantern (s : State) (i k : Nat) (f : MacroRun → MacroRun) : (s.modMacro i k f).lantern = s.lantern := rfl
@[simp] theorem State.modMacro_reliab (s : State) (i k : Nat) (f : MacroRun → MacroRun) : (s.modMacro i k f).reliab = s.reliab := rfl
@[simp] theorem State.modMacro_watch (s : State) (i k : Nat) (f : MacroRun → MacroRun) : (s.modMacro i k f).watch = s.watch := rfl
@[simp] theorem State.modMacro_fuses (s : State) (i k : Nat) (f : MacroRun → MacroRun) : (s.modMacro i k f).fuses = s.fuses := rfl
@[simp] theorem State.modMacro_flash (s : State) (i k : Nat) (f : MacroRun → MacroRun) : (s.modMacro i k f).flash = s.flash := rfl
@[simp] theorem State.modMacro_power (s : State) (i k : Nat) (f : MacroRun → MacroRun) : (s.modMacro i k f).power = s.power := rfl
@[simp] theorem State.modMacro_resets (s : State) (i k : Nat) (f : MacroRun → MacroRun) : (s.modMacro i k f).resets = s.resets := rfl
@[simp] theorem State.modMacro_straps (s : State) (i k : Nat) (f : MacroRun → MacroRun) : (s.modMacro i k f).straps = s.straps := rfl
@[simp] theorem State.modMacro_out (s : State) (i k : Nat) (f : MacroRun → MacroRun) : (s.modMacro i k f).out = s.out := rfl
@[simp] theorem State.modMacro_fresh (s : State) (i k : Nat) (f : MacroRun → MacroRun) : (s.modMacro i k f).fresh = s.fresh := rfl
@[simp] theorem State.modMacro_pending (s : State) (i k : Nat) (f : MacroRun → MacroRun) : (s.modMacro i k f).pending = s.pending := rfl

/-! ### modVis -/

@[simp] theorem State.modVis_clock (s : State) (u : Nat) (f : VisUnit → VisUnit) : (s.modVis u f).clock = s.clock := rfl
@[simp] theorem State.modVis_bf (s : State) (u : Nat) (f : VisUnit → VisUnit) : (s.modVis u f).bf = s.bf := rfl
@[simp] theorem State.modVis_mem (s : State) (u : Nat) (f : VisUnit → VisUnit) : (s.modVis u f).mem = s.mem := rfl
@[simp] theorem State.modVis_spc (s : State) (u : Nat) (f : VisUnit → VisUnit) : (s.modVis u f).spc = s.spc := rfl
@[simp] theorem State.modVis_spire (s : State) (u : Nat) (f : VisUnit → VisUnit) : (s.modVis u f).spire = s.spire := rfl
@[simp] theorem State.modVis_ports (s : State) (u : Nat) (f : VisUnit → VisUnit) : (s.modVis u f).ports = s.ports := rfl
@[simp] theorem State.modVis_cams (s : State) (u : Nat) (f : VisUnit → VisUnit) : (s.modVis u f).cams = s.cams := rfl
@[simp] theorem State.modVis_genlock (s : State) (u : Nat) (f : VisUnit → VisUnit) : (s.modVis u f).genlock = s.genlock := rfl
@[simp] theorem State.modVis_scu (s : State) (u : Nat) (f : VisUnit → VisUnit) : (s.modVis u f).scu = s.scu := rfl
@[simp] theorem State.modVis_rfe (s : State) (u : Nat) (f : VisUnit → VisUnit) : (s.modVis u f).rfe = s.rfe := rfl
@[simp] theorem State.modVis_egress (s : State) (u : Nat) (f : VisUnit → VisUnit) : (s.modVis u f).egress = s.egress := rfl
@[simp] theorem State.modVis_sne (s : State) (u : Nat) (f : VisUnit → VisUnit) : (s.modVis u f).sne = s.sne := rfl
@[simp] theorem State.modVis_vis (s : State) (u : Nat) (f : VisUnit → VisUnit) : (s.modVis u f).vis = s.vis.mod u f := rfl
@[simp] theorem State.modVis_pci (s : State) (u : Nat) (f : VisUnit → VisUnit) : (s.modVis u f).pci = s.pci := rfl
@[simp] theorem State.modVis_peer (s : State) (u : Nat) (f : VisUnit → VisUnit) : (s.modVis u f).peer = s.peer := rfl
@[simp] theorem State.modVis_imports (s : State) (u : Nat) (f : VisUnit → VisUnit) : (s.modVis u f).imports = s.imports := rfl
@[simp] theorem State.modVis_ctrMaps (s : State) (u : Nat) (f : VisUnit → VisUnit) : (s.modVis u f).ctrMaps = s.ctrMaps := rfl
@[simp] theorem State.modVis_field (s : State) (u : Nat) (f : VisUnit → VisUnit) : (s.modVis u f).field = s.field := rfl
@[simp] theorem State.modVis_lantern (s : State) (u : Nat) (f : VisUnit → VisUnit) : (s.modVis u f).lantern = s.lantern := rfl
@[simp] theorem State.modVis_reliab (s : State) (u : Nat) (f : VisUnit → VisUnit) : (s.modVis u f).reliab = s.reliab := rfl
@[simp] theorem State.modVis_watch (s : State) (u : Nat) (f : VisUnit → VisUnit) : (s.modVis u f).watch = s.watch := rfl
@[simp] theorem State.modVis_fuses (s : State) (u : Nat) (f : VisUnit → VisUnit) : (s.modVis u f).fuses = s.fuses := rfl
@[simp] theorem State.modVis_flash (s : State) (u : Nat) (f : VisUnit → VisUnit) : (s.modVis u f).flash = s.flash := rfl
@[simp] theorem State.modVis_power (s : State) (u : Nat) (f : VisUnit → VisUnit) : (s.modVis u f).power = s.power := rfl
@[simp] theorem State.modVis_resets (s : State) (u : Nat) (f : VisUnit → VisUnit) : (s.modVis u f).resets = s.resets := rfl
@[simp] theorem State.modVis_straps (s : State) (u : Nat) (f : VisUnit → VisUnit) : (s.modVis u f).straps = s.straps := rfl
@[simp] theorem State.modVis_out (s : State) (u : Nat) (f : VisUnit → VisUnit) : (s.modVis u f).out = s.out := rfl
@[simp] theorem State.modVis_fresh (s : State) (u : Nat) (f : VisUnit → VisUnit) : (s.modVis u f).fresh = s.fresh := rfl
@[simp] theorem State.modVis_pending (s : State) (u : Nat) (f : VisUnit → VisUnit) : (s.modVis u f).pending = s.pending := rfl

/-! ### modPeer -/

@[simp] theorem State.modPeer_clock (s : State) (k : Nat) (f : Peer → Peer) : (s.modPeer k f).clock = s.clock := rfl
@[simp] theorem State.modPeer_bf (s : State) (k : Nat) (f : Peer → Peer) : (s.modPeer k f).bf = s.bf := rfl
@[simp] theorem State.modPeer_mem (s : State) (k : Nat) (f : Peer → Peer) : (s.modPeer k f).mem = s.mem := rfl
@[simp] theorem State.modPeer_spc (s : State) (k : Nat) (f : Peer → Peer) : (s.modPeer k f).spc = s.spc := rfl
@[simp] theorem State.modPeer_spire (s : State) (k : Nat) (f : Peer → Peer) : (s.modPeer k f).spire = s.spire := rfl
@[simp] theorem State.modPeer_ports (s : State) (k : Nat) (f : Peer → Peer) : (s.modPeer k f).ports = s.ports := rfl
@[simp] theorem State.modPeer_cams (s : State) (k : Nat) (f : Peer → Peer) : (s.modPeer k f).cams = s.cams := rfl
@[simp] theorem State.modPeer_genlock (s : State) (k : Nat) (f : Peer → Peer) : (s.modPeer k f).genlock = s.genlock := rfl
@[simp] theorem State.modPeer_scu (s : State) (k : Nat) (f : Peer → Peer) : (s.modPeer k f).scu = s.scu := rfl
@[simp] theorem State.modPeer_rfe (s : State) (k : Nat) (f : Peer → Peer) : (s.modPeer k f).rfe = s.rfe := rfl
@[simp] theorem State.modPeer_egress (s : State) (k : Nat) (f : Peer → Peer) : (s.modPeer k f).egress = s.egress := rfl
@[simp] theorem State.modPeer_sne (s : State) (k : Nat) (f : Peer → Peer) : (s.modPeer k f).sne = s.sne := rfl
@[simp] theorem State.modPeer_vis (s : State) (k : Nat) (f : Peer → Peer) : (s.modPeer k f).vis = s.vis := rfl
@[simp] theorem State.modPeer_pci (s : State) (k : Nat) (f : Peer → Peer) : (s.modPeer k f).pci = s.pci := rfl
@[simp] theorem State.modPeer_peer (s : State) (k : Nat) (f : Peer → Peer) : (s.modPeer k f).peer = s.peer.mod k f := rfl
@[simp] theorem State.modPeer_imports (s : State) (k : Nat) (f : Peer → Peer) : (s.modPeer k f).imports = s.imports := rfl
@[simp] theorem State.modPeer_ctrMaps (s : State) (k : Nat) (f : Peer → Peer) : (s.modPeer k f).ctrMaps = s.ctrMaps := rfl
@[simp] theorem State.modPeer_field (s : State) (k : Nat) (f : Peer → Peer) : (s.modPeer k f).field = s.field := rfl
@[simp] theorem State.modPeer_lantern (s : State) (k : Nat) (f : Peer → Peer) : (s.modPeer k f).lantern = s.lantern := rfl
@[simp] theorem State.modPeer_reliab (s : State) (k : Nat) (f : Peer → Peer) : (s.modPeer k f).reliab = s.reliab := rfl
@[simp] theorem State.modPeer_watch (s : State) (k : Nat) (f : Peer → Peer) : (s.modPeer k f).watch = s.watch := rfl
@[simp] theorem State.modPeer_fuses (s : State) (k : Nat) (f : Peer → Peer) : (s.modPeer k f).fuses = s.fuses := rfl
@[simp] theorem State.modPeer_flash (s : State) (k : Nat) (f : Peer → Peer) : (s.modPeer k f).flash = s.flash := rfl
@[simp] theorem State.modPeer_power (s : State) (k : Nat) (f : Peer → Peer) : (s.modPeer k f).power = s.power := rfl
@[simp] theorem State.modPeer_resets (s : State) (k : Nat) (f : Peer → Peer) : (s.modPeer k f).resets = s.resets := rfl
@[simp] theorem State.modPeer_straps (s : State) (k : Nat) (f : Peer → Peer) : (s.modPeer k f).straps = s.straps := rfl
@[simp] theorem State.modPeer_out (s : State) (k : Nat) (f : Peer → Peer) : (s.modPeer k f).out = s.out := rfl
@[simp] theorem State.modPeer_fresh (s : State) (k : Nat) (f : Peer → Peer) : (s.modPeer k f).fresh = s.fresh := rfl
@[simp] theorem State.modPeer_pending (s : State) (k : Nat) (f : Peer → Peer) : (s.modPeer k f).pending = s.pending := rfl

/-! ### modField -/

@[simp] theorem State.modField_clock (s : State) (f : Field → Field) : (s.modField f).clock = s.clock := rfl
@[simp] theorem State.modField_bf (s : State) (f : Field → Field) : (s.modField f).bf = s.bf := rfl
@[simp] theorem State.modField_mem (s : State) (f : Field → Field) : (s.modField f).mem = s.mem := rfl
@[simp] theorem State.modField_spc (s : State) (f : Field → Field) : (s.modField f).spc = s.spc := rfl
@[simp] theorem State.modField_spire (s : State) (f : Field → Field) : (s.modField f).spire = s.spire := rfl
@[simp] theorem State.modField_ports (s : State) (f : Field → Field) : (s.modField f).ports = s.ports := rfl
@[simp] theorem State.modField_cams (s : State) (f : Field → Field) : (s.modField f).cams = s.cams := rfl
@[simp] theorem State.modField_genlock (s : State) (f : Field → Field) : (s.modField f).genlock = s.genlock := rfl
@[simp] theorem State.modField_scu (s : State) (f : Field → Field) : (s.modField f).scu = s.scu := rfl
@[simp] theorem State.modField_rfe (s : State) (f : Field → Field) : (s.modField f).rfe = s.rfe := rfl
@[simp] theorem State.modField_egress (s : State) (f : Field → Field) : (s.modField f).egress = s.egress := rfl
@[simp] theorem State.modField_sne (s : State) (f : Field → Field) : (s.modField f).sne = s.sne := rfl
@[simp] theorem State.modField_vis (s : State) (f : Field → Field) : (s.modField f).vis = s.vis := rfl
@[simp] theorem State.modField_pci (s : State) (f : Field → Field) : (s.modField f).pci = s.pci := rfl
@[simp] theorem State.modField_peer (s : State) (f : Field → Field) : (s.modField f).peer = s.peer := rfl
@[simp] theorem State.modField_imports (s : State) (f : Field → Field) : (s.modField f).imports = s.imports := rfl
@[simp] theorem State.modField_ctrMaps (s : State) (f : Field → Field) : (s.modField f).ctrMaps = s.ctrMaps := rfl
@[simp] theorem State.modField_field (s : State) (f : Field → Field) : (s.modField f).field = f s.field := rfl
@[simp] theorem State.modField_lantern (s : State) (f : Field → Field) : (s.modField f).lantern = s.lantern := rfl
@[simp] theorem State.modField_reliab (s : State) (f : Field → Field) : (s.modField f).reliab = s.reliab := rfl
@[simp] theorem State.modField_watch (s : State) (f : Field → Field) : (s.modField f).watch = s.watch := rfl
@[simp] theorem State.modField_fuses (s : State) (f : Field → Field) : (s.modField f).fuses = s.fuses := rfl
@[simp] theorem State.modField_flash (s : State) (f : Field → Field) : (s.modField f).flash = s.flash := rfl
@[simp] theorem State.modField_power (s : State) (f : Field → Field) : (s.modField f).power = s.power := rfl
@[simp] theorem State.modField_resets (s : State) (f : Field → Field) : (s.modField f).resets = s.resets := rfl
@[simp] theorem State.modField_straps (s : State) (f : Field → Field) : (s.modField f).straps = s.straps := rfl
@[simp] theorem State.modField_out (s : State) (f : Field → Field) : (s.modField f).out = s.out := rfl
@[simp] theorem State.modField_fresh (s : State) (f : Field → Field) : (s.modField f).fresh = s.fresh := rfl
@[simp] theorem State.modField_pending (s : State) (f : Field → Field) : (s.modField f).pending = s.pending := rfl

/-! ### modFChan -/

@[simp] theorem State.modFChan_clock (s : State) (ch : Nat) (f : FieldChan → FieldChan) : (s.modFChan ch f).clock = s.clock := rfl
@[simp] theorem State.modFChan_bf (s : State) (ch : Nat) (f : FieldChan → FieldChan) : (s.modFChan ch f).bf = s.bf := rfl
@[simp] theorem State.modFChan_mem (s : State) (ch : Nat) (f : FieldChan → FieldChan) : (s.modFChan ch f).mem = s.mem := rfl
@[simp] theorem State.modFChan_spc (s : State) (ch : Nat) (f : FieldChan → FieldChan) : (s.modFChan ch f).spc = s.spc := rfl
@[simp] theorem State.modFChan_spire (s : State) (ch : Nat) (f : FieldChan → FieldChan) : (s.modFChan ch f).spire = s.spire := rfl
@[simp] theorem State.modFChan_ports (s : State) (ch : Nat) (f : FieldChan → FieldChan) : (s.modFChan ch f).ports = s.ports := rfl
@[simp] theorem State.modFChan_cams (s : State) (ch : Nat) (f : FieldChan → FieldChan) : (s.modFChan ch f).cams = s.cams := rfl
@[simp] theorem State.modFChan_genlock (s : State) (ch : Nat) (f : FieldChan → FieldChan) : (s.modFChan ch f).genlock = s.genlock := rfl
@[simp] theorem State.modFChan_scu (s : State) (ch : Nat) (f : FieldChan → FieldChan) : (s.modFChan ch f).scu = s.scu := rfl
@[simp] theorem State.modFChan_rfe (s : State) (ch : Nat) (f : FieldChan → FieldChan) : (s.modFChan ch f).rfe = s.rfe := rfl
@[simp] theorem State.modFChan_egress (s : State) (ch : Nat) (f : FieldChan → FieldChan) : (s.modFChan ch f).egress = s.egress := rfl
@[simp] theorem State.modFChan_sne (s : State) (ch : Nat) (f : FieldChan → FieldChan) : (s.modFChan ch f).sne = s.sne := rfl
@[simp] theorem State.modFChan_vis (s : State) (ch : Nat) (f : FieldChan → FieldChan) : (s.modFChan ch f).vis = s.vis := rfl
@[simp] theorem State.modFChan_pci (s : State) (ch : Nat) (f : FieldChan → FieldChan) : (s.modFChan ch f).pci = s.pci := rfl
@[simp] theorem State.modFChan_peer (s : State) (ch : Nat) (f : FieldChan → FieldChan) : (s.modFChan ch f).peer = s.peer := rfl
@[simp] theorem State.modFChan_imports (s : State) (ch : Nat) (f : FieldChan → FieldChan) : (s.modFChan ch f).imports = s.imports := rfl
@[simp] theorem State.modFChan_ctrMaps (s : State) (ch : Nat) (f : FieldChan → FieldChan) : (s.modFChan ch f).ctrMaps = s.ctrMaps := rfl
@[simp] theorem State.modFChan_field (s : State) (ch : Nat) (f : FieldChan → FieldChan) : (s.modFChan ch f).field = { s.field with chans := s.field.chans.mod ch f } := rfl
@[simp] theorem State.modFChan_lantern (s : State) (ch : Nat) (f : FieldChan → FieldChan) : (s.modFChan ch f).lantern = s.lantern := rfl
@[simp] theorem State.modFChan_reliab (s : State) (ch : Nat) (f : FieldChan → FieldChan) : (s.modFChan ch f).reliab = s.reliab := rfl
@[simp] theorem State.modFChan_watch (s : State) (ch : Nat) (f : FieldChan → FieldChan) : (s.modFChan ch f).watch = s.watch := rfl
@[simp] theorem State.modFChan_fuses (s : State) (ch : Nat) (f : FieldChan → FieldChan) : (s.modFChan ch f).fuses = s.fuses := rfl
@[simp] theorem State.modFChan_flash (s : State) (ch : Nat) (f : FieldChan → FieldChan) : (s.modFChan ch f).flash = s.flash := rfl
@[simp] theorem State.modFChan_power (s : State) (ch : Nat) (f : FieldChan → FieldChan) : (s.modFChan ch f).power = s.power := rfl
@[simp] theorem State.modFChan_resets (s : State) (ch : Nat) (f : FieldChan → FieldChan) : (s.modFChan ch f).resets = s.resets := rfl
@[simp] theorem State.modFChan_straps (s : State) (ch : Nat) (f : FieldChan → FieldChan) : (s.modFChan ch f).straps = s.straps := rfl
@[simp] theorem State.modFChan_out (s : State) (ch : Nat) (f : FieldChan → FieldChan) : (s.modFChan ch f).out = s.out := rfl
@[simp] theorem State.modFChan_fresh (s : State) (ch : Nat) (f : FieldChan → FieldChan) : (s.modFChan ch f).fresh = s.fresh := rfl
@[simp] theorem State.modFChan_pending (s : State) (ch : Nat) (f : FieldChan → FieldChan) : (s.modFChan ch f).pending = s.pending := rfl

/-! ### modCam -/

@[simp] theorem State.modCam_clock (s : State) (c : Nat) (f : Cam → Cam) : (s.modCam c f).clock = s.clock := rfl
@[simp] theorem State.modCam_bf (s : State) (c : Nat) (f : Cam → Cam) : (s.modCam c f).bf = s.bf := rfl
@[simp] theorem State.modCam_mem (s : State) (c : Nat) (f : Cam → Cam) : (s.modCam c f).mem = s.mem := rfl
@[simp] theorem State.modCam_spc (s : State) (c : Nat) (f : Cam → Cam) : (s.modCam c f).spc = s.spc := rfl
@[simp] theorem State.modCam_spire (s : State) (c : Nat) (f : Cam → Cam) : (s.modCam c f).spire = s.spire := rfl
@[simp] theorem State.modCam_ports (s : State) (c : Nat) (f : Cam → Cam) : (s.modCam c f).ports = s.ports := rfl
@[simp] theorem State.modCam_cams (s : State) (c : Nat) (f : Cam → Cam) : (s.modCam c f).cams = s.cams.mod c f := rfl
@[simp] theorem State.modCam_genlock (s : State) (c : Nat) (f : Cam → Cam) : (s.modCam c f).genlock = s.genlock := rfl
@[simp] theorem State.modCam_scu (s : State) (c : Nat) (f : Cam → Cam) : (s.modCam c f).scu = s.scu := rfl
@[simp] theorem State.modCam_rfe (s : State) (c : Nat) (f : Cam → Cam) : (s.modCam c f).rfe = s.rfe := rfl
@[simp] theorem State.modCam_egress (s : State) (c : Nat) (f : Cam → Cam) : (s.modCam c f).egress = s.egress := rfl
@[simp] theorem State.modCam_sne (s : State) (c : Nat) (f : Cam → Cam) : (s.modCam c f).sne = s.sne := rfl
@[simp] theorem State.modCam_vis (s : State) (c : Nat) (f : Cam → Cam) : (s.modCam c f).vis = s.vis := rfl
@[simp] theorem State.modCam_pci (s : State) (c : Nat) (f : Cam → Cam) : (s.modCam c f).pci = s.pci := rfl
@[simp] theorem State.modCam_peer (s : State) (c : Nat) (f : Cam → Cam) : (s.modCam c f).peer = s.peer := rfl
@[simp] theorem State.modCam_imports (s : State) (c : Nat) (f : Cam → Cam) : (s.modCam c f).imports = s.imports := rfl
@[simp] theorem State.modCam_ctrMaps (s : State) (c : Nat) (f : Cam → Cam) : (s.modCam c f).ctrMaps = s.ctrMaps := rfl
@[simp] theorem State.modCam_field (s : State) (c : Nat) (f : Cam → Cam) : (s.modCam c f).field = s.field := rfl
@[simp] theorem State.modCam_lantern (s : State) (c : Nat) (f : Cam → Cam) : (s.modCam c f).lantern = s.lantern := rfl
@[simp] theorem State.modCam_reliab (s : State) (c : Nat) (f : Cam → Cam) : (s.modCam c f).reliab = s.reliab := rfl
@[simp] theorem State.modCam_watch (s : State) (c : Nat) (f : Cam → Cam) : (s.modCam c f).watch = s.watch := rfl
@[simp] theorem State.modCam_fuses (s : State) (c : Nat) (f : Cam → Cam) : (s.modCam c f).fuses = s.fuses := rfl
@[simp] theorem State.modCam_flash (s : State) (c : Nat) (f : Cam → Cam) : (s.modCam c f).flash = s.flash := rfl
@[simp] theorem State.modCam_power (s : State) (c : Nat) (f : Cam → Cam) : (s.modCam c f).power = s.power := rfl
@[simp] theorem State.modCam_resets (s : State) (c : Nat) (f : Cam → Cam) : (s.modCam c f).resets = s.resets := rfl
@[simp] theorem State.modCam_straps (s : State) (c : Nat) (f : Cam → Cam) : (s.modCam c f).straps = s.straps := rfl
@[simp] theorem State.modCam_out (s : State) (c : Nat) (f : Cam → Cam) : (s.modCam c f).out = s.out := rfl
@[simp] theorem State.modCam_fresh (s : State) (c : Nat) (f : Cam → Cam) : (s.modCam c f).fresh = s.fresh := rfl
@[simp] theorem State.modCam_pending (s : State) (c : Nat) (f : Cam → Cam) : (s.modCam c f).pending = s.pending := rfl

/-! ### modRfe -/

@[simp] theorem State.modRfe_clock (s : State) (r : Nat) (f : Rfe → Rfe) : (s.modRfe r f).clock = s.clock := rfl
@[simp] theorem State.modRfe_bf (s : State) (r : Nat) (f : Rfe → Rfe) : (s.modRfe r f).bf = s.bf := rfl
@[simp] theorem State.modRfe_mem (s : State) (r : Nat) (f : Rfe → Rfe) : (s.modRfe r f).mem = s.mem := rfl
@[simp] theorem State.modRfe_spc (s : State) (r : Nat) (f : Rfe → Rfe) : (s.modRfe r f).spc = s.spc := rfl
@[simp] theorem State.modRfe_spire (s : State) (r : Nat) (f : Rfe → Rfe) : (s.modRfe r f).spire = s.spire := rfl
@[simp] theorem State.modRfe_ports (s : State) (r : Nat) (f : Rfe → Rfe) : (s.modRfe r f).ports = s.ports := rfl
@[simp] theorem State.modRfe_cams (s : State) (r : Nat) (f : Rfe → Rfe) : (s.modRfe r f).cams = s.cams := rfl
@[simp] theorem State.modRfe_genlock (s : State) (r : Nat) (f : Rfe → Rfe) : (s.modRfe r f).genlock = s.genlock := rfl
@[simp] theorem State.modRfe_scu (s : State) (r : Nat) (f : Rfe → Rfe) : (s.modRfe r f).scu = s.scu := rfl
@[simp] theorem State.modRfe_rfe (s : State) (r : Nat) (f : Rfe → Rfe) : (s.modRfe r f).rfe = s.rfe.mod r f := rfl
@[simp] theorem State.modRfe_egress (s : State) (r : Nat) (f : Rfe → Rfe) : (s.modRfe r f).egress = s.egress := rfl
@[simp] theorem State.modRfe_sne (s : State) (r : Nat) (f : Rfe → Rfe) : (s.modRfe r f).sne = s.sne := rfl
@[simp] theorem State.modRfe_vis (s : State) (r : Nat) (f : Rfe → Rfe) : (s.modRfe r f).vis = s.vis := rfl
@[simp] theorem State.modRfe_pci (s : State) (r : Nat) (f : Rfe → Rfe) : (s.modRfe r f).pci = s.pci := rfl
@[simp] theorem State.modRfe_peer (s : State) (r : Nat) (f : Rfe → Rfe) : (s.modRfe r f).peer = s.peer := rfl
@[simp] theorem State.modRfe_imports (s : State) (r : Nat) (f : Rfe → Rfe) : (s.modRfe r f).imports = s.imports := rfl
@[simp] theorem State.modRfe_ctrMaps (s : State) (r : Nat) (f : Rfe → Rfe) : (s.modRfe r f).ctrMaps = s.ctrMaps := rfl
@[simp] theorem State.modRfe_field (s : State) (r : Nat) (f : Rfe → Rfe) : (s.modRfe r f).field = s.field := rfl
@[simp] theorem State.modRfe_lantern (s : State) (r : Nat) (f : Rfe → Rfe) : (s.modRfe r f).lantern = s.lantern := rfl
@[simp] theorem State.modRfe_reliab (s : State) (r : Nat) (f : Rfe → Rfe) : (s.modRfe r f).reliab = s.reliab := rfl
@[simp] theorem State.modRfe_watch (s : State) (r : Nat) (f : Rfe → Rfe) : (s.modRfe r f).watch = s.watch := rfl
@[simp] theorem State.modRfe_fuses (s : State) (r : Nat) (f : Rfe → Rfe) : (s.modRfe r f).fuses = s.fuses := rfl
@[simp] theorem State.modRfe_flash (s : State) (r : Nat) (f : Rfe → Rfe) : (s.modRfe r f).flash = s.flash := rfl
@[simp] theorem State.modRfe_power (s : State) (r : Nat) (f : Rfe → Rfe) : (s.modRfe r f).power = s.power := rfl
@[simp] theorem State.modRfe_resets (s : State) (r : Nat) (f : Rfe → Rfe) : (s.modRfe r f).resets = s.resets := rfl
@[simp] theorem State.modRfe_straps (s : State) (r : Nat) (f : Rfe → Rfe) : (s.modRfe r f).straps = s.straps := rfl
@[simp] theorem State.modRfe_out (s : State) (r : Nat) (f : Rfe → Rfe) : (s.modRfe r f).out = s.out := rfl
@[simp] theorem State.modRfe_fresh (s : State) (r : Nat) (f : Rfe → Rfe) : (s.modRfe r f).fresh = s.fresh := rfl
@[simp] theorem State.modRfe_pending (s : State) (r : Nat) (f : Rfe → Rfe) : (s.modRfe r f).pending = s.pending := rfl

/-! ### modPort -/

@[simp] theorem State.modPort_clock (s : State) (p : Nat) (f : Port → Port) : (s.modPort p f).clock = s.clock := rfl
@[simp] theorem State.modPort_bf (s : State) (p : Nat) (f : Port → Port) : (s.modPort p f).bf = s.bf := rfl
@[simp] theorem State.modPort_mem (s : State) (p : Nat) (f : Port → Port) : (s.modPort p f).mem = s.mem := rfl
@[simp] theorem State.modPort_spc (s : State) (p : Nat) (f : Port → Port) : (s.modPort p f).spc = s.spc := rfl
@[simp] theorem State.modPort_spire (s : State) (p : Nat) (f : Port → Port) : (s.modPort p f).spire = s.spire := rfl
@[simp] theorem State.modPort_ports (s : State) (p : Nat) (f : Port → Port) : (s.modPort p f).ports = s.ports.mod p f := rfl
@[simp] theorem State.modPort_cams (s : State) (p : Nat) (f : Port → Port) : (s.modPort p f).cams = s.cams := rfl
@[simp] theorem State.modPort_genlock (s : State) (p : Nat) (f : Port → Port) : (s.modPort p f).genlock = s.genlock := rfl
@[simp] theorem State.modPort_scu (s : State) (p : Nat) (f : Port → Port) : (s.modPort p f).scu = s.scu := rfl
@[simp] theorem State.modPort_rfe (s : State) (p : Nat) (f : Port → Port) : (s.modPort p f).rfe = s.rfe := rfl
@[simp] theorem State.modPort_egress (s : State) (p : Nat) (f : Port → Port) : (s.modPort p f).egress = s.egress := rfl
@[simp] theorem State.modPort_sne (s : State) (p : Nat) (f : Port → Port) : (s.modPort p f).sne = s.sne := rfl
@[simp] theorem State.modPort_vis (s : State) (p : Nat) (f : Port → Port) : (s.modPort p f).vis = s.vis := rfl
@[simp] theorem State.modPort_pci (s : State) (p : Nat) (f : Port → Port) : (s.modPort p f).pci = s.pci := rfl
@[simp] theorem State.modPort_peer (s : State) (p : Nat) (f : Port → Port) : (s.modPort p f).peer = s.peer := rfl
@[simp] theorem State.modPort_imports (s : State) (p : Nat) (f : Port → Port) : (s.modPort p f).imports = s.imports := rfl
@[simp] theorem State.modPort_ctrMaps (s : State) (p : Nat) (f : Port → Port) : (s.modPort p f).ctrMaps = s.ctrMaps := rfl
@[simp] theorem State.modPort_field (s : State) (p : Nat) (f : Port → Port) : (s.modPort p f).field = s.field := rfl
@[simp] theorem State.modPort_lantern (s : State) (p : Nat) (f : Port → Port) : (s.modPort p f).lantern = s.lantern := rfl
@[simp] theorem State.modPort_reliab (s : State) (p : Nat) (f : Port → Port) : (s.modPort p f).reliab = s.reliab := rfl
@[simp] theorem State.modPort_watch (s : State) (p : Nat) (f : Port → Port) : (s.modPort p f).watch = s.watch := rfl
@[simp] theorem State.modPort_fuses (s : State) (p : Nat) (f : Port → Port) : (s.modPort p f).fuses = s.fuses := rfl
@[simp] theorem State.modPort_flash (s : State) (p : Nat) (f : Port → Port) : (s.modPort p f).flash = s.flash := rfl
@[simp] theorem State.modPort_power (s : State) (p : Nat) (f : Port → Port) : (s.modPort p f).power = s.power := rfl
@[simp] theorem State.modPort_resets (s : State) (p : Nat) (f : Port → Port) : (s.modPort p f).resets = s.resets := rfl
@[simp] theorem State.modPort_straps (s : State) (p : Nat) (f : Port → Port) : (s.modPort p f).straps = s.straps := rfl
@[simp] theorem State.modPort_out (s : State) (p : Nat) (f : Port → Port) : (s.modPort p f).out = s.out := rfl
@[simp] theorem State.modPort_fresh (s : State) (p : Nat) (f : Port → Port) : (s.modPort p f).fresh = s.fresh := rfl
@[simp] theorem State.modPort_pending (s : State) (p : Nat) (f : Port → Port) : (s.modPort p f).pending = s.pending := rfl

/-! ### modSne -/

@[simp] theorem State.modSne_clock (s : State) (n : Nat) (f : Sne → Sne) : (s.modSne n f).clock = s.clock := rfl
@[simp] theorem State.modSne_bf (s : State) (n : Nat) (f : Sne → Sne) : (s.modSne n f).bf = s.bf := rfl
@[simp] theorem State.modSne_mem (s : State) (n : Nat) (f : Sne → Sne) : (s.modSne n f).mem = s.mem := rfl
@[simp] theorem State.modSne_spc (s : State) (n : Nat) (f : Sne → Sne) : (s.modSne n f).spc = s.spc := rfl
@[simp] theorem State.modSne_spire (s : State) (n : Nat) (f : Sne → Sne) : (s.modSne n f).spire = s.spire := rfl
@[simp] theorem State.modSne_ports (s : State) (n : Nat) (f : Sne → Sne) : (s.modSne n f).ports = s.ports := rfl
@[simp] theorem State.modSne_cams (s : State) (n : Nat) (f : Sne → Sne) : (s.modSne n f).cams = s.cams := rfl
@[simp] theorem State.modSne_genlock (s : State) (n : Nat) (f : Sne → Sne) : (s.modSne n f).genlock = s.genlock := rfl
@[simp] theorem State.modSne_scu (s : State) (n : Nat) (f : Sne → Sne) : (s.modSne n f).scu = s.scu := rfl
@[simp] theorem State.modSne_rfe (s : State) (n : Nat) (f : Sne → Sne) : (s.modSne n f).rfe = s.rfe := rfl
@[simp] theorem State.modSne_egress (s : State) (n : Nat) (f : Sne → Sne) : (s.modSne n f).egress = s.egress := rfl
@[simp] theorem State.modSne_sne (s : State) (n : Nat) (f : Sne → Sne) : (s.modSne n f).sne = s.sne.mod n f := rfl
@[simp] theorem State.modSne_vis (s : State) (n : Nat) (f : Sne → Sne) : (s.modSne n f).vis = s.vis := rfl
@[simp] theorem State.modSne_pci (s : State) (n : Nat) (f : Sne → Sne) : (s.modSne n f).pci = s.pci := rfl
@[simp] theorem State.modSne_peer (s : State) (n : Nat) (f : Sne → Sne) : (s.modSne n f).peer = s.peer := rfl
@[simp] theorem State.modSne_imports (s : State) (n : Nat) (f : Sne → Sne) : (s.modSne n f).imports = s.imports := rfl
@[simp] theorem State.modSne_ctrMaps (s : State) (n : Nat) (f : Sne → Sne) : (s.modSne n f).ctrMaps = s.ctrMaps := rfl
@[simp] theorem State.modSne_field (s : State) (n : Nat) (f : Sne → Sne) : (s.modSne n f).field = s.field := rfl
@[simp] theorem State.modSne_lantern (s : State) (n : Nat) (f : Sne → Sne) : (s.modSne n f).lantern = s.lantern := rfl
@[simp] theorem State.modSne_reliab (s : State) (n : Nat) (f : Sne → Sne) : (s.modSne n f).reliab = s.reliab := rfl
@[simp] theorem State.modSne_watch (s : State) (n : Nat) (f : Sne → Sne) : (s.modSne n f).watch = s.watch := rfl
@[simp] theorem State.modSne_fuses (s : State) (n : Nat) (f : Sne → Sne) : (s.modSne n f).fuses = s.fuses := rfl
@[simp] theorem State.modSne_flash (s : State) (n : Nat) (f : Sne → Sne) : (s.modSne n f).flash = s.flash := rfl
@[simp] theorem State.modSne_power (s : State) (n : Nat) (f : Sne → Sne) : (s.modSne n f).power = s.power := rfl
@[simp] theorem State.modSne_resets (s : State) (n : Nat) (f : Sne → Sne) : (s.modSne n f).resets = s.resets := rfl
@[simp] theorem State.modSne_straps (s : State) (n : Nat) (f : Sne → Sne) : (s.modSne n f).straps = s.straps := rfl
@[simp] theorem State.modSne_out (s : State) (n : Nat) (f : Sne → Sne) : (s.modSne n f).out = s.out := rfl
@[simp] theorem State.modSne_fresh (s : State) (n : Nat) (f : Sne → Sne) : (s.modSne n f).fresh = s.fresh := rfl
@[simp] theorem State.modSne_pending (s : State) (n : Nat) (f : Sne → Sne) : (s.modSne n f).pending = s.pending := rfl

/-! ### modDma -/

@[simp] theorem State.modDma_clock (s : State) (e : Nat) (f : DmaEngine → DmaEngine) : (s.modDma e f).clock = s.clock := rfl
@[simp] theorem State.modDma_bf (s : State) (e : Nat) (f : DmaEngine → DmaEngine) : (s.modDma e f).bf = s.bf := rfl
@[simp] theorem State.modDma_mem (s : State) (e : Nat) (f : DmaEngine → DmaEngine) : (s.modDma e f).mem = { s.mem with dma := s.mem.dma.mod e f } := rfl
@[simp] theorem State.modDma_spc (s : State) (e : Nat) (f : DmaEngine → DmaEngine) : (s.modDma e f).spc = s.spc := rfl
@[simp] theorem State.modDma_spire (s : State) (e : Nat) (f : DmaEngine → DmaEngine) : (s.modDma e f).spire = s.spire := rfl
@[simp] theorem State.modDma_ports (s : State) (e : Nat) (f : DmaEngine → DmaEngine) : (s.modDma e f).ports = s.ports := rfl
@[simp] theorem State.modDma_cams (s : State) (e : Nat) (f : DmaEngine → DmaEngine) : (s.modDma e f).cams = s.cams := rfl
@[simp] theorem State.modDma_genlock (s : State) (e : Nat) (f : DmaEngine → DmaEngine) : (s.modDma e f).genlock = s.genlock := rfl
@[simp] theorem State.modDma_scu (s : State) (e : Nat) (f : DmaEngine → DmaEngine) : (s.modDma e f).scu = s.scu := rfl
@[simp] theorem State.modDma_rfe (s : State) (e : Nat) (f : DmaEngine → DmaEngine) : (s.modDma e f).rfe = s.rfe := rfl
@[simp] theorem State.modDma_egress (s : State) (e : Nat) (f : DmaEngine → DmaEngine) : (s.modDma e f).egress = s.egress := rfl
@[simp] theorem State.modDma_sne (s : State) (e : Nat) (f : DmaEngine → DmaEngine) : (s.modDma e f).sne = s.sne := rfl
@[simp] theorem State.modDma_vis (s : State) (e : Nat) (f : DmaEngine → DmaEngine) : (s.modDma e f).vis = s.vis := rfl
@[simp] theorem State.modDma_pci (s : State) (e : Nat) (f : DmaEngine → DmaEngine) : (s.modDma e f).pci = s.pci := rfl
@[simp] theorem State.modDma_peer (s : State) (e : Nat) (f : DmaEngine → DmaEngine) : (s.modDma e f).peer = s.peer := rfl
@[simp] theorem State.modDma_imports (s : State) (e : Nat) (f : DmaEngine → DmaEngine) : (s.modDma e f).imports = s.imports := rfl
@[simp] theorem State.modDma_ctrMaps (s : State) (e : Nat) (f : DmaEngine → DmaEngine) : (s.modDma e f).ctrMaps = s.ctrMaps := rfl
@[simp] theorem State.modDma_field (s : State) (e : Nat) (f : DmaEngine → DmaEngine) : (s.modDma e f).field = s.field := rfl
@[simp] theorem State.modDma_lantern (s : State) (e : Nat) (f : DmaEngine → DmaEngine) : (s.modDma e f).lantern = s.lantern := rfl
@[simp] theorem State.modDma_reliab (s : State) (e : Nat) (f : DmaEngine → DmaEngine) : (s.modDma e f).reliab = s.reliab := rfl
@[simp] theorem State.modDma_watch (s : State) (e : Nat) (f : DmaEngine → DmaEngine) : (s.modDma e f).watch = s.watch := rfl
@[simp] theorem State.modDma_fuses (s : State) (e : Nat) (f : DmaEngine → DmaEngine) : (s.modDma e f).fuses = s.fuses := rfl
@[simp] theorem State.modDma_flash (s : State) (e : Nat) (f : DmaEngine → DmaEngine) : (s.modDma e f).flash = s.flash := rfl
@[simp] theorem State.modDma_power (s : State) (e : Nat) (f : DmaEngine → DmaEngine) : (s.modDma e f).power = s.power := rfl
@[simp] theorem State.modDma_resets (s : State) (e : Nat) (f : DmaEngine → DmaEngine) : (s.modDma e f).resets = s.resets := rfl
@[simp] theorem State.modDma_straps (s : State) (e : Nat) (f : DmaEngine → DmaEngine) : (s.modDma e f).straps = s.straps := rfl
@[simp] theorem State.modDma_out (s : State) (e : Nat) (f : DmaEngine → DmaEngine) : (s.modDma e f).out = s.out := rfl
@[simp] theorem State.modDma_fresh (s : State) (e : Nat) (f : DmaEngine → DmaEngine) : (s.modDma e f).fresh = s.fresh := rfl
@[simp] theorem State.modDma_pending (s : State) (e : Nat) (f : DmaEngine → DmaEngine) : (s.modDma e f).pending = s.pending := rfl

/-! ### modPci -/

@[simp] theorem State.modPci_clock (s : State) (f : Pci → Pci) : (s.modPci f).clock = s.clock := rfl
@[simp] theorem State.modPci_bf (s : State) (f : Pci → Pci) : (s.modPci f).bf = s.bf := rfl
@[simp] theorem State.modPci_mem (s : State) (f : Pci → Pci) : (s.modPci f).mem = s.mem := rfl
@[simp] theorem State.modPci_spc (s : State) (f : Pci → Pci) : (s.modPci f).spc = s.spc := rfl
@[simp] theorem State.modPci_spire (s : State) (f : Pci → Pci) : (s.modPci f).spire = s.spire := rfl
@[simp] theorem State.modPci_ports (s : State) (f : Pci → Pci) : (s.modPci f).ports = s.ports := rfl
@[simp] theorem State.modPci_cams (s : State) (f : Pci → Pci) : (s.modPci f).cams = s.cams := rfl
@[simp] theorem State.modPci_genlock (s : State) (f : Pci → Pci) : (s.modPci f).genlock = s.genlock := rfl
@[simp] theorem State.modPci_scu (s : State) (f : Pci → Pci) : (s.modPci f).scu = s.scu := rfl
@[simp] theorem State.modPci_rfe (s : State) (f : Pci → Pci) : (s.modPci f).rfe = s.rfe := rfl
@[simp] theorem State.modPci_egress (s : State) (f : Pci → Pci) : (s.modPci f).egress = s.egress := rfl
@[simp] theorem State.modPci_sne (s : State) (f : Pci → Pci) : (s.modPci f).sne = s.sne := rfl
@[simp] theorem State.modPci_vis (s : State) (f : Pci → Pci) : (s.modPci f).vis = s.vis := rfl
@[simp] theorem State.modPci_pci (s : State) (f : Pci → Pci) : (s.modPci f).pci = f s.pci := rfl
@[simp] theorem State.modPci_peer (s : State) (f : Pci → Pci) : (s.modPci f).peer = s.peer := rfl
@[simp] theorem State.modPci_imports (s : State) (f : Pci → Pci) : (s.modPci f).imports = s.imports := rfl
@[simp] theorem State.modPci_ctrMaps (s : State) (f : Pci → Pci) : (s.modPci f).ctrMaps = s.ctrMaps := rfl
@[simp] theorem State.modPci_field (s : State) (f : Pci → Pci) : (s.modPci f).field = s.field := rfl
@[simp] theorem State.modPci_lantern (s : State) (f : Pci → Pci) : (s.modPci f).lantern = s.lantern := rfl
@[simp] theorem State.modPci_reliab (s : State) (f : Pci → Pci) : (s.modPci f).reliab = s.reliab := rfl
@[simp] theorem State.modPci_watch (s : State) (f : Pci → Pci) : (s.modPci f).watch = s.watch := rfl
@[simp] theorem State.modPci_fuses (s : State) (f : Pci → Pci) : (s.modPci f).fuses = s.fuses := rfl
@[simp] theorem State.modPci_flash (s : State) (f : Pci → Pci) : (s.modPci f).flash = s.flash := rfl
@[simp] theorem State.modPci_power (s : State) (f : Pci → Pci) : (s.modPci f).power = s.power := rfl
@[simp] theorem State.modPci_resets (s : State) (f : Pci → Pci) : (s.modPci f).resets = s.resets := rfl
@[simp] theorem State.modPci_straps (s : State) (f : Pci → Pci) : (s.modPci f).straps = s.straps := rfl
@[simp] theorem State.modPci_out (s : State) (f : Pci → Pci) : (s.modPci f).out = s.out := rfl
@[simp] theorem State.modPci_fresh (s : State) (f : Pci → Pci) : (s.modPci f).fresh = s.fresh := rfl
@[simp] theorem State.modPci_pending (s : State) (f : Pci → Pci) : (s.modPci f).pending = s.pending := rfl

/-! ### modPair -/

@[simp] theorem State.modPair_clock (s : State) (p : Nat) (f : Pair → Pair) : (s.modPair p f).clock = s.clock := rfl
@[simp] theorem State.modPair_bf (s : State) (p : Nat) (f : Pair → Pair) : (s.modPair p f).bf = s.bf := rfl
@[simp] theorem State.modPair_mem (s : State) (p : Nat) (f : Pair → Pair) : (s.modPair p f).mem = s.mem := rfl
@[simp] theorem State.modPair_spc (s : State) (p : Nat) (f : Pair → Pair) : (s.modPair p f).spc = s.spc := rfl
@[simp] theorem State.modPair_spire (s : State) (p : Nat) (f : Pair → Pair) : (s.modPair p f).spire = s.spire := rfl
@[simp] theorem State.modPair_ports (s : State) (p : Nat) (f : Pair → Pair) : (s.modPair p f).ports = s.ports := rfl
@[simp] theorem State.modPair_cams (s : State) (p : Nat) (f : Pair → Pair) : (s.modPair p f).cams = s.cams := rfl
@[simp] theorem State.modPair_genlock (s : State) (p : Nat) (f : Pair → Pair) : (s.modPair p f).genlock = s.genlock := rfl
@[simp] theorem State.modPair_scu (s : State) (p : Nat) (f : Pair → Pair) : (s.modPair p f).scu = s.scu := rfl
@[simp] theorem State.modPair_rfe (s : State) (p : Nat) (f : Pair → Pair) : (s.modPair p f).rfe = s.rfe := rfl
@[simp] theorem State.modPair_egress (s : State) (p : Nat) (f : Pair → Pair) : (s.modPair p f).egress = s.egress := rfl
@[simp] theorem State.modPair_sne (s : State) (p : Nat) (f : Pair → Pair) : (s.modPair p f).sne = s.sne := rfl
@[simp] theorem State.modPair_vis (s : State) (p : Nat) (f : Pair → Pair) : (s.modPair p f).vis = s.vis := rfl
@[simp] theorem State.modPair_pci (s : State) (p : Nat) (f : Pair → Pair) : (s.modPair p f).pci = { s.pci with pairs := s.pci.pairs.mod p f } := rfl
@[simp] theorem State.modPair_peer (s : State) (p : Nat) (f : Pair → Pair) : (s.modPair p f).peer = s.peer := rfl
@[simp] theorem State.modPair_imports (s : State) (p : Nat) (f : Pair → Pair) : (s.modPair p f).imports = s.imports := rfl
@[simp] theorem State.modPair_ctrMaps (s : State) (p : Nat) (f : Pair → Pair) : (s.modPair p f).ctrMaps = s.ctrMaps := rfl
@[simp] theorem State.modPair_field (s : State) (p : Nat) (f : Pair → Pair) : (s.modPair p f).field = s.field := rfl
@[simp] theorem State.modPair_lantern (s : State) (p : Nat) (f : Pair → Pair) : (s.modPair p f).lantern = s.lantern := rfl
@[simp] theorem State.modPair_reliab (s : State) (p : Nat) (f : Pair → Pair) : (s.modPair p f).reliab = s.reliab := rfl
@[simp] theorem State.modPair_watch (s : State) (p : Nat) (f : Pair → Pair) : (s.modPair p f).watch = s.watch := rfl
@[simp] theorem State.modPair_fuses (s : State) (p : Nat) (f : Pair → Pair) : (s.modPair p f).fuses = s.fuses := rfl
@[simp] theorem State.modPair_flash (s : State) (p : Nat) (f : Pair → Pair) : (s.modPair p f).flash = s.flash := rfl
@[simp] theorem State.modPair_power (s : State) (p : Nat) (f : Pair → Pair) : (s.modPair p f).power = s.power := rfl
@[simp] theorem State.modPair_resets (s : State) (p : Nat) (f : Pair → Pair) : (s.modPair p f).resets = s.resets := rfl
@[simp] theorem State.modPair_straps (s : State) (p : Nat) (f : Pair → Pair) : (s.modPair p f).straps = s.straps := rfl
@[simp] theorem State.modPair_out (s : State) (p : Nat) (f : Pair → Pair) : (s.modPair p f).out = s.out := rfl
@[simp] theorem State.modPair_fresh (s : State) (p : Nat) (f : Pair → Pair) : (s.modPair p f).fresh = s.fresh := rfl
@[simp] theorem State.modPair_pending (s : State) (p : Nat) (f : Pair → Pair) : (s.modPair p f).pending = s.pending := rfl

/-! ### modBlock -/

@[simp] theorem State.modBlock_clock (s : State) (i : Nat) (f : CalBlock → CalBlock) : (s.modBlock i f).clock = s.clock := rfl
@[simp] theorem State.modBlock_bf (s : State) (i : Nat) (f : CalBlock → CalBlock) : (s.modBlock i f).bf = s.bf := rfl
@[simp] theorem State.modBlock_mem (s : State) (i : Nat) (f : CalBlock → CalBlock) : (s.modBlock i f).mem = s.mem := rfl
@[simp] theorem State.modBlock_spc (s : State) (i : Nat) (f : CalBlock → CalBlock) : (s.modBlock i f).spc = s.spc := rfl
@[simp] theorem State.modBlock_spire (s : State) (i : Nat) (f : CalBlock → CalBlock) : (s.modBlock i f).spire = s.spire := rfl
@[simp] theorem State.modBlock_ports (s : State) (i : Nat) (f : CalBlock → CalBlock) : (s.modBlock i f).ports = s.ports := rfl
@[simp] theorem State.modBlock_cams (s : State) (i : Nat) (f : CalBlock → CalBlock) : (s.modBlock i f).cams = s.cams := rfl
@[simp] theorem State.modBlock_genlock (s : State) (i : Nat) (f : CalBlock → CalBlock) : (s.modBlock i f).genlock = s.genlock := rfl
@[simp] theorem State.modBlock_scu (s : State) (i : Nat) (f : CalBlock → CalBlock) : (s.modBlock i f).scu = s.scu := rfl
@[simp] theorem State.modBlock_rfe (s : State) (i : Nat) (f : CalBlock → CalBlock) : (s.modBlock i f).rfe = s.rfe := rfl
@[simp] theorem State.modBlock_egress (s : State) (i : Nat) (f : CalBlock → CalBlock) : (s.modBlock i f).egress = s.egress := rfl
@[simp] theorem State.modBlock_sne (s : State) (i : Nat) (f : CalBlock → CalBlock) : (s.modBlock i f).sne = s.sne := rfl
@[simp] theorem State.modBlock_vis (s : State) (i : Nat) (f : CalBlock → CalBlock) : (s.modBlock i f).vis = s.vis := rfl
@[simp] theorem State.modBlock_pci (s : State) (i : Nat) (f : CalBlock → CalBlock) : (s.modBlock i f).pci = s.pci := rfl
@[simp] theorem State.modBlock_peer (s : State) (i : Nat) (f : CalBlock → CalBlock) : (s.modBlock i f).peer = s.peer := rfl
@[simp] theorem State.modBlock_imports (s : State) (i : Nat) (f : CalBlock → CalBlock) : (s.modBlock i f).imports = s.imports := rfl
@[simp] theorem State.modBlock_ctrMaps (s : State) (i : Nat) (f : CalBlock → CalBlock) : (s.modBlock i f).ctrMaps = s.ctrMaps := rfl
@[simp] theorem State.modBlock_field (s : State) (i : Nat) (f : CalBlock → CalBlock) : (s.modBlock i f).field = s.field := rfl
@[simp] theorem State.modBlock_lantern (s : State) (i : Nat) (f : CalBlock → CalBlock) : (s.modBlock i f).lantern = s.lantern := rfl
@[simp] theorem State.modBlock_reliab (s : State) (i : Nat) (f : CalBlock → CalBlock) : (s.modBlock i f).reliab = s.reliab := rfl
@[simp] theorem State.modBlock_watch (s : State) (i : Nat) (f : CalBlock → CalBlock) : (s.modBlock i f).watch = s.watch := rfl
@[simp] theorem State.modBlock_fuses (s : State) (i : Nat) (f : CalBlock → CalBlock) : (s.modBlock i f).fuses = s.fuses := rfl
@[simp] theorem State.modBlock_flash (s : State) (i : Nat) (f : CalBlock → CalBlock) : (s.modBlock i f).flash = s.flash := rfl
@[simp] theorem State.modBlock_power (s : State) (i : Nat) (f : CalBlock → CalBlock) : (s.modBlock i f).power = { s.power with blocks := s.power.blocks.mod i f } := rfl
@[simp] theorem State.modBlock_resets (s : State) (i : Nat) (f : CalBlock → CalBlock) : (s.modBlock i f).resets = s.resets := rfl
@[simp] theorem State.modBlock_straps (s : State) (i : Nat) (f : CalBlock → CalBlock) : (s.modBlock i f).straps = s.straps := rfl
@[simp] theorem State.modBlock_out (s : State) (i : Nat) (f : CalBlock → CalBlock) : (s.modBlock i f).out = s.out := rfl
@[simp] theorem State.modBlock_fresh (s : State) (i : Nat) (f : CalBlock → CalBlock) : (s.modBlock i f).fresh = s.fresh := rfl
@[simp] theorem State.modBlock_pending (s : State) (i : Nat) (f : CalBlock → CalBlock) : (s.modBlock i f).pending = s.pending := rfl

/-! ### modPower -/

@[simp] theorem State.modPower_clock (s : State) (f : Power → Power) : (s.modPower f).clock = s.clock := rfl
@[simp] theorem State.modPower_bf (s : State) (f : Power → Power) : (s.modPower f).bf = s.bf := rfl
@[simp] theorem State.modPower_mem (s : State) (f : Power → Power) : (s.modPower f).mem = s.mem := rfl
@[simp] theorem State.modPower_spc (s : State) (f : Power → Power) : (s.modPower f).spc = s.spc := rfl
@[simp] theorem State.modPower_spire (s : State) (f : Power → Power) : (s.modPower f).spire = s.spire := rfl
@[simp] theorem State.modPower_ports (s : State) (f : Power → Power) : (s.modPower f).ports = s.ports := rfl
@[simp] theorem State.modPower_cams (s : State) (f : Power → Power) : (s.modPower f).cams = s.cams := rfl
@[simp] theorem State.modPower_genlock (s : State) (f : Power → Power) : (s.modPower f).genlock = s.genlock := rfl
@[simp] theorem State.modPower_scu (s : State) (f : Power → Power) : (s.modPower f).scu = s.scu := rfl
@[simp] theorem State.modPower_rfe (s : State) (f : Power → Power) : (s.modPower f).rfe = s.rfe := rfl
@[simp] theorem State.modPower_egress (s : State) (f : Power → Power) : (s.modPower f).egress = s.egress := rfl
@[simp] theorem State.modPower_sne (s : State) (f : Power → Power) : (s.modPower f).sne = s.sne := rfl
@[simp] theorem State.modPower_vis (s : State) (f : Power → Power) : (s.modPower f).vis = s.vis := rfl
@[simp] theorem State.modPower_pci (s : State) (f : Power → Power) : (s.modPower f).pci = s.pci := rfl
@[simp] theorem State.modPower_peer (s : State) (f : Power → Power) : (s.modPower f).peer = s.peer := rfl
@[simp] theorem State.modPower_imports (s : State) (f : Power → Power) : (s.modPower f).imports = s.imports := rfl
@[simp] theorem State.modPower_ctrMaps (s : State) (f : Power → Power) : (s.modPower f).ctrMaps = s.ctrMaps := rfl
@[simp] theorem State.modPower_field (s : State) (f : Power → Power) : (s.modPower f).field = s.field := rfl
@[simp] theorem State.modPower_lantern (s : State) (f : Power → Power) : (s.modPower f).lantern = s.lantern := rfl
@[simp] theorem State.modPower_reliab (s : State) (f : Power → Power) : (s.modPower f).reliab = s.reliab := rfl
@[simp] theorem State.modPower_watch (s : State) (f : Power → Power) : (s.modPower f).watch = s.watch := rfl
@[simp] theorem State.modPower_fuses (s : State) (f : Power → Power) : (s.modPower f).fuses = s.fuses := rfl
@[simp] theorem State.modPower_flash (s : State) (f : Power → Power) : (s.modPower f).flash = s.flash := rfl
@[simp] theorem State.modPower_power (s : State) (f : Power → Power) : (s.modPower f).power = f s.power := rfl
@[simp] theorem State.modPower_resets (s : State) (f : Power → Power) : (s.modPower f).resets = s.resets := rfl
@[simp] theorem State.modPower_straps (s : State) (f : Power → Power) : (s.modPower f).straps = s.straps := rfl
@[simp] theorem State.modPower_out (s : State) (f : Power → Power) : (s.modPower f).out = s.out := rfl
@[simp] theorem State.modPower_fresh (s : State) (f : Power → Power) : (s.modPower f).fresh = s.fresh := rfl
@[simp] theorem State.modPower_pending (s : State) (f : Power → Power) : (s.modPower f).pending = s.pending := rfl

/-! ### modSteeple -/

@[simp] theorem State.modSteeple_clock (s : State) (n : Nat) (f : Steeple → Steeple) : (s.modSteeple n f).clock = s.clock := rfl
@[simp] theorem State.modSteeple_bf (s : State) (n : Nat) (f : Steeple → Steeple) : (s.modSteeple n f).bf = s.bf := rfl
@[simp] theorem State.modSteeple_mem (s : State) (n : Nat) (f : Steeple → Steeple) : (s.modSteeple n f).mem = s.mem := rfl
@[simp] theorem State.modSteeple_spc (s : State) (n : Nat) (f : Steeple → Steeple) : (s.modSteeple n f).spc = s.spc := rfl
@[simp] theorem State.modSteeple_spire (s : State) (n : Nat) (f : Steeple → Steeple) : (s.modSteeple n f).spire = s.spire := rfl
@[simp] theorem State.modSteeple_ports (s : State) (n : Nat) (f : Steeple → Steeple) : (s.modSteeple n f).ports = s.ports := rfl
@[simp] theorem State.modSteeple_cams (s : State) (n : Nat) (f : Steeple → Steeple) : (s.modSteeple n f).cams = s.cams := rfl
@[simp] theorem State.modSteeple_genlock (s : State) (n : Nat) (f : Steeple → Steeple) : (s.modSteeple n f).genlock = s.genlock := rfl
@[simp] theorem State.modSteeple_scu (s : State) (n : Nat) (f : Steeple → Steeple) : (s.modSteeple n f).scu = s.scu := rfl
@[simp] theorem State.modSteeple_rfe (s : State) (n : Nat) (f : Steeple → Steeple) : (s.modSteeple n f).rfe = s.rfe := rfl
@[simp] theorem State.modSteeple_egress (s : State) (n : Nat) (f : Steeple → Steeple) : (s.modSteeple n f).egress = s.egress := rfl
@[simp] theorem State.modSteeple_sne (s : State) (n : Nat) (f : Steeple → Steeple) : (s.modSteeple n f).sne = s.sne := rfl
@[simp] theorem State.modSteeple_vis (s : State) (n : Nat) (f : Steeple → Steeple) : (s.modSteeple n f).vis = s.vis := rfl
@[simp] theorem State.modSteeple_pci (s : State) (n : Nat) (f : Steeple → Steeple) : (s.modSteeple n f).pci = s.pci := rfl
@[simp] theorem State.modSteeple_peer (s : State) (n : Nat) (f : Steeple → Steeple) : (s.modSteeple n f).peer = s.peer := rfl
@[simp] theorem State.modSteeple_imports (s : State) (n : Nat) (f : Steeple → Steeple) : (s.modSteeple n f).imports = s.imports := rfl
@[simp] theorem State.modSteeple_ctrMaps (s : State) (n : Nat) (f : Steeple → Steeple) : (s.modSteeple n f).ctrMaps = s.ctrMaps := rfl
@[simp] theorem State.modSteeple_field (s : State) (n : Nat) (f : Steeple → Steeple) : (s.modSteeple n f).field = s.field := rfl
@[simp] theorem State.modSteeple_lantern (s : State) (n : Nat) (f : Steeple → Steeple) : (s.modSteeple n f).lantern = s.lantern := rfl
@[simp] theorem State.modSteeple_reliab (s : State) (n : Nat) (f : Steeple → Steeple) : (s.modSteeple n f).reliab = s.reliab := rfl
@[simp] theorem State.modSteeple_watch (s : State) (n : Nat) (f : Steeple → Steeple) : (s.modSteeple n f).watch = s.watch := rfl
@[simp] theorem State.modSteeple_fuses (s : State) (n : Nat) (f : Steeple → Steeple) : (s.modSteeple n f).fuses = s.fuses := rfl
@[simp] theorem State.modSteeple_flash (s : State) (n : Nat) (f : Steeple → Steeple) : (s.modSteeple n f).flash = s.flash := rfl
@[simp] theorem State.modSteeple_power (s : State) (n : Nat) (f : Steeple → Steeple) : (s.modSteeple n f).power = { s.power with steeples := s.power.steeples.mod n f } := rfl
@[simp] theorem State.modSteeple_resets (s : State) (n : Nat) (f : Steeple → Steeple) : (s.modSteeple n f).resets = s.resets := rfl
@[simp] theorem State.modSteeple_straps (s : State) (n : Nat) (f : Steeple → Steeple) : (s.modSteeple n f).straps = s.straps := rfl
@[simp] theorem State.modSteeple_out (s : State) (n : Nat) (f : Steeple → Steeple) : (s.modSteeple n f).out = s.out := rfl
@[simp] theorem State.modSteeple_fresh (s : State) (n : Nat) (f : Steeple → Steeple) : (s.modSteeple n f).fresh = s.fresh := rfl
@[simp] theorem State.modSteeple_pending (s : State) (n : Nat) (f : Steeple → Steeple) : (s.modSteeple n f).pending = s.pending := rfl

/-! ### modLantern -/

@[simp] theorem State.modLantern_clock (s : State) (f : Lantern → Lantern) : (s.modLantern f).clock = s.clock := rfl
@[simp] theorem State.modLantern_bf (s : State) (f : Lantern → Lantern) : (s.modLantern f).bf = s.bf := rfl
@[simp] theorem State.modLantern_mem (s : State) (f : Lantern → Lantern) : (s.modLantern f).mem = s.mem := rfl
@[simp] theorem State.modLantern_spc (s : State) (f : Lantern → Lantern) : (s.modLantern f).spc = s.spc := rfl
@[simp] theorem State.modLantern_spire (s : State) (f : Lantern → Lantern) : (s.modLantern f).spire = s.spire := rfl
@[simp] theorem State.modLantern_ports (s : State) (f : Lantern → Lantern) : (s.modLantern f).ports = s.ports := rfl
@[simp] theorem State.modLantern_cams (s : State) (f : Lantern → Lantern) : (s.modLantern f).cams = s.cams := rfl
@[simp] theorem State.modLantern_genlock (s : State) (f : Lantern → Lantern) : (s.modLantern f).genlock = s.genlock := rfl
@[simp] theorem State.modLantern_scu (s : State) (f : Lantern → Lantern) : (s.modLantern f).scu = s.scu := rfl
@[simp] theorem State.modLantern_rfe (s : State) (f : Lantern → Lantern) : (s.modLantern f).rfe = s.rfe := rfl
@[simp] theorem State.modLantern_egress (s : State) (f : Lantern → Lantern) : (s.modLantern f).egress = s.egress := rfl
@[simp] theorem State.modLantern_sne (s : State) (f : Lantern → Lantern) : (s.modLantern f).sne = s.sne := rfl
@[simp] theorem State.modLantern_vis (s : State) (f : Lantern → Lantern) : (s.modLantern f).vis = s.vis := rfl
@[simp] theorem State.modLantern_pci (s : State) (f : Lantern → Lantern) : (s.modLantern f).pci = s.pci := rfl
@[simp] theorem State.modLantern_peer (s : State) (f : Lantern → Lantern) : (s.modLantern f).peer = s.peer := rfl
@[simp] theorem State.modLantern_imports (s : State) (f : Lantern → Lantern) : (s.modLantern f).imports = s.imports := rfl
@[simp] theorem State.modLantern_ctrMaps (s : State) (f : Lantern → Lantern) : (s.modLantern f).ctrMaps = s.ctrMaps := rfl
@[simp] theorem State.modLantern_field (s : State) (f : Lantern → Lantern) : (s.modLantern f).field = s.field := rfl
@[simp] theorem State.modLantern_lantern (s : State) (f : Lantern → Lantern) : (s.modLantern f).lantern = f s.lantern := rfl
@[simp] theorem State.modLantern_reliab (s : State) (f : Lantern → Lantern) : (s.modLantern f).reliab = s.reliab := rfl
@[simp] theorem State.modLantern_watch (s : State) (f : Lantern → Lantern) : (s.modLantern f).watch = s.watch := rfl
@[simp] theorem State.modLantern_fuses (s : State) (f : Lantern → Lantern) : (s.modLantern f).fuses = s.fuses := rfl
@[simp] theorem State.modLantern_flash (s : State) (f : Lantern → Lantern) : (s.modLantern f).flash = s.flash := rfl
@[simp] theorem State.modLantern_power (s : State) (f : Lantern → Lantern) : (s.modLantern f).power = s.power := rfl
@[simp] theorem State.modLantern_resets (s : State) (f : Lantern → Lantern) : (s.modLantern f).resets = s.resets := rfl
@[simp] theorem State.modLantern_straps (s : State) (f : Lantern → Lantern) : (s.modLantern f).straps = s.straps := rfl
@[simp] theorem State.modLantern_out (s : State) (f : Lantern → Lantern) : (s.modLantern f).out = s.out := rfl
@[simp] theorem State.modLantern_fresh (s : State) (f : Lantern → Lantern) : (s.modLantern f).fresh = s.fresh := rfl
@[simp] theorem State.modLantern_pending (s : State) (f : Lantern → Lantern) : (s.modLantern f).pending = s.pending := rfl

/-! ### modLChan -/

@[simp] theorem State.modLChan_clock (s : State) (ch : Nat) (f : LChan → LChan) : (s.modLChan ch f).clock = s.clock := rfl
@[simp] theorem State.modLChan_bf (s : State) (ch : Nat) (f : LChan → LChan) : (s.modLChan ch f).bf = s.bf := rfl
@[simp] theorem State.modLChan_mem (s : State) (ch : Nat) (f : LChan → LChan) : (s.modLChan ch f).mem = s.mem := rfl
@[simp] theorem State.modLChan_spc (s : State) (ch : Nat) (f : LChan → LChan) : (s.modLChan ch f).spc = s.spc := rfl
@[simp] theorem State.modLChan_spire (s : State) (ch : Nat) (f : LChan → LChan) : (s.modLChan ch f).spire = s.spire := rfl
@[simp] theorem State.modLChan_ports (s : State) (ch : Nat) (f : LChan → LChan) : (s.modLChan ch f).ports = s.ports := rfl
@[simp] theorem State.modLChan_cams (s : State) (ch : Nat) (f : LChan → LChan) : (s.modLChan ch f).cams = s.cams := rfl
@[simp] theorem State.modLChan_genlock (s : State) (ch : Nat) (f : LChan → LChan) : (s.modLChan ch f).genlock = s.genlock := rfl
@[simp] theorem State.modLChan_scu (s : State) (ch : Nat) (f : LChan → LChan) : (s.modLChan ch f).scu = s.scu := rfl
@[simp] theorem State.modLChan_rfe (s : State) (ch : Nat) (f : LChan → LChan) : (s.modLChan ch f).rfe = s.rfe := rfl
@[simp] theorem State.modLChan_egress (s : State) (ch : Nat) (f : LChan → LChan) : (s.modLChan ch f).egress = s.egress := rfl
@[simp] theorem State.modLChan_sne (s : State) (ch : Nat) (f : LChan → LChan) : (s.modLChan ch f).sne = s.sne := rfl
@[simp] theorem State.modLChan_vis (s : State) (ch : Nat) (f : LChan → LChan) : (s.modLChan ch f).vis = s.vis := rfl
@[simp] theorem State.modLChan_pci (s : State) (ch : Nat) (f : LChan → LChan) : (s.modLChan ch f).pci = s.pci := rfl
@[simp] theorem State.modLChan_peer (s : State) (ch : Nat) (f : LChan → LChan) : (s.modLChan ch f).peer = s.peer := rfl
@[simp] theorem State.modLChan_imports (s : State) (ch : Nat) (f : LChan → LChan) : (s.modLChan ch f).imports = s.imports := rfl
@[simp] theorem State.modLChan_ctrMaps (s : State) (ch : Nat) (f : LChan → LChan) : (s.modLChan ch f).ctrMaps = s.ctrMaps := rfl
@[simp] theorem State.modLChan_field (s : State) (ch : Nat) (f : LChan → LChan) : (s.modLChan ch f).field = s.field := rfl
@[simp] theorem State.modLChan_lantern (s : State) (ch : Nat) (f : LChan → LChan) : (s.modLChan ch f).lantern = { s.lantern with chans := s.lantern.chans.mod ch f } := rfl
@[simp] theorem State.modLChan_reliab (s : State) (ch : Nat) (f : LChan → LChan) : (s.modLChan ch f).reliab = s.reliab := rfl
@[simp] theorem State.modLChan_watch (s : State) (ch : Nat) (f : LChan → LChan) : (s.modLChan ch f).watch = s.watch := rfl
@[simp] theorem State.modLChan_fuses (s : State) (ch : Nat) (f : LChan → LChan) : (s.modLChan ch f).fuses = s.fuses := rfl
@[simp] theorem State.modLChan_flash (s : State) (ch : Nat) (f : LChan → LChan) : (s.modLChan ch f).flash = s.flash := rfl
@[simp] theorem State.modLChan_power (s : State) (ch : Nat) (f : LChan → LChan) : (s.modLChan ch f).power = s.power := rfl
@[simp] theorem State.modLChan_resets (s : State) (ch : Nat) (f : LChan → LChan) : (s.modLChan ch f).resets = s.resets := rfl
@[simp] theorem State.modLChan_straps (s : State) (ch : Nat) (f : LChan → LChan) : (s.modLChan ch f).straps = s.straps := rfl
@[simp] theorem State.modLChan_out (s : State) (ch : Nat) (f : LChan → LChan) : (s.modLChan ch f).out = s.out := rfl
@[simp] theorem State.modLChan_fresh (s : State) (ch : Nat) (f : LChan → LChan) : (s.modLChan ch f).fresh = s.fresh := rfl
@[simp] theorem State.modLChan_pending (s : State) (ch : Nat) (f : LChan → LChan) : (s.modLChan ch f).pending = s.pending := rfl

end Sys2Proof.Machine
end

