-- ==== Sys2Proof/Laws/Exec.lean ====
section
/-! SUPPORT. Every command answers a next state, and what it keeps: one lemma over all the commands. -/
namespace Sys2Proof.Machine
open Sys2Proof

/-- Every command answers a next state (JTAG_DEBUG_COMMAND with debug access closed); it keeps the queue, the straps and the timebase of the command's time, the
canonical form of the stores, the field die where it does not act on it, and the fuses unless it is FIRMWARE_READY. -/
theorem exec_keeps (c : Instr) (s : State) (h : ∀ t, c = .jtagDebugCommand t → s.fuses.debugOpen = false) :
    ∃ t s1, exec c s = .next s1 ∧ Keeps (!onFieldDie c) (!blowsFuses c) (s.at t) s1 := by
  cases c with
  | anchorEvent t g => exact ⟨t, execAnchorEvent_keeps t g s⟩
  | nodeDispatch t ix u ue => exact ⟨t, execNodeDispatch_keeps t ix u ue s⟩
  | beaconSignal t b inc u => exact ⟨t, execBeaconSignal_keeps t b inc u s⟩
  | nodeComplete t ix => exact ⟨t, execNodeComplete_keeps t ix s⟩
  | deadlineMiss t ix => exact ⟨t, execDeadlineMiss_keeps t ix s⟩
  | fusedStageResume t ix k => exact ⟨t, execFusedStageResume_keeps t ix k s⟩
  | nodeFault t ix status => exact ⟨t, execNodeFault_keeps t ix status s⟩
  | cancel t p => exact ⟨t, execCancel_keeps t p s⟩
  | cancelDrainComplete t ix => exact ⟨t, execCancelDrainComplete_keeps t ix s⟩
  | multicastUnitWrite t g r => exact ⟨t, execMulticastUnitWrite_keeps t g r s⟩
  | gapMarkerWrite t g r => exact ⟨t, execGapMarkerWrite_keeps t g r s⟩
  | holdLimitExpiry t g r => exact ⟨t, execHoldLimitExpiry_keeps t g r s⟩
  | belfryLockstepMismatch t => exact ⟨t, execBelfryLockstepMismatch_keeps t s⟩
  | parkDrainComplete t g => exact ⟨t, execParkDrainComplete_keeps t g s⟩
  | dmaWorkItemStart t e o => exact ⟨t, execDmaWorkItemStart_keeps t e o s⟩
  | dmaRequestIssue t e write => exact ⟨t, execDmaRequestIssue_keeps t e write s⟩
  | dmaRequestComplete t e tag o corrected ext => exact ⟨t, execDmaRequestComplete_keeps t e tag o corrected ext s⟩
  | dmaChunkWriteStart t e => exact ⟨t, execDmaChunkWriteStart_keeps t e s⟩
  | dmaChunkComplete t e => exact ⟨t, execDmaChunkComplete_keeps t e s⟩
  | fetchAdd t init a size v user err => exact ⟨t, execFetchAdd_keeps t init a size v user err s⟩
  | workCounterWrite t init a bs => exact ⟨t, execWorkCounterWrite_keeps t init a bs s⟩
  | reductionJobStart t ix k => exact ⟨t, execReductionJobStart_keeps t ix k s⟩
  | reductionPartialAdd t slot err => exact ⟨t, execReductionPartialAdd_keeps t slot err s⟩
  | memoryInterfaceLoss t m => exact ⟨t, execMemoryInterfaceLoss_keeps t m s⟩
  | memCfgLock t m => exact ⟨t, execMemCfgLock_keeps t m s⟩
  | macroStart t ix k => exact ⟨t, execMacroStart_keeps t ix k s⟩
  | tileClaim t ix k core err reply => exact ⟨t, execTileClaim_keeps t ix k core err reply s⟩
  | tileStart t core q fetch => exact ⟨t, execTileStart_keeps t core q fetch s⟩
  | arrayPassIssue t core q cycle err addr => exact ⟨t, execArrayPassIssue_keeps t core q cycle err addr s⟩
  | groupDrain t core q err addr => exact ⟨t, execGroupDrain_keeps t core q err addr s⟩
  | groupWriteOutRetire t core q => exact ⟨t, execGroupWriteOutRetire_keeps t core q s⟩
  | mmvExecute t core err addr => exact ⟨t, execMmvExecute_keeps t core err addr s⟩
  | arrayParityError t core e => exact ⟨t, execArrayParityError_keeps t core e s⟩
  | arraySelftestComplete t a r => exact ⟨t, execArraySelftestComplete_keeps t a r s⟩
  | spareRowSwitch t a => exact ⟨t, execSpareRowSwitch_keeps t a s⟩
  | periodicSelftest t a => exact ⟨t, execPeriodicSelftest_keeps t a s⟩
  | quadrantModeExit t core => exact ⟨t, execQuadrantModeExit_keeps t core s⟩
  | splitkDrainStart t ix k => exact ⟨t, execSplitkDrainStart_keeps t ix k s⟩
  | quantVerdict t ix k => exact ⟨t, execQuantVerdict_keeps t ix k s⟩
  | wideFlagWrite t ix k => exact ⟨t, execWideFlagWrite_keeps t ix k s⟩
  | csi2PacketReceive t p k => exact ⟨t, execCsi2PacketReceive_keeps t p k s⟩
  | sensorFrameStart t c sensorFn => exact ⟨t, execSensorFrameStart_keeps t c sensorFn s⟩
  | sensorFrameEnd t c => exact ⟨t, execSensorFrameEnd_keeps t c s⟩
  | frameTimeout t c => exact ⟨t, execFrameTimeout_keeps t c s⟩
  | genlockAnchor t lead => exact ⟨t, execGenlockAnchor_keeps t lead s⟩
  | rfeLineRead t r err => exact ⟨t, execRfeLineRead_keeps t r err s⟩
  | cameraBind t p => exact ⟨t, execCameraBind_keeps t p s⟩
  | cameraUnbind t p => exact ⟨t, execCameraUnbind_keeps t p s⟩
  | portLockTimeout t c => exact ⟨t, execPortLockTimeout_keeps t c s⟩
  | sensorPortFailure t u => exact ⟨t, execSensorPortFailure_keeps t u s⟩
  | exposure t p => exact ⟨t, execExposure_keeps t p s⟩
  | scuReqWrite t e a b => exact ⟨t, execScuReqWrite_keeps t e a b s⟩
  | exposureSequenceIssue t bus => exact ⟨t, execExposureSequenceIssue_keeps t bus s⟩
  | i3cTransactionComplete t bus nack data => exact ⟨t, execI3cTransactionComplete_keeps t bus nack data s⟩
  | i3cBusTimeout t bus => exact ⟨t, execI3cBusTimeout_keeps t bus s⟩
  | exposureSequenceComplete t c => exact ⟨t, execExposureSequenceComplete_keeps t c s⟩
  | i3cInBandInterrupt t bus addr => exact ⟨t, execI3cInBandInterrupt_keeps t bus addr s⟩
  | imuSample t base entries rates accels => exact ⟨t, execImuSample_keeps t base entries rates accels s⟩
  | sensorXfer t p => exact ⟨t, execSensorXfer_keeps t p s⟩
  | psetSubmit t p => exact ⟨t, execPsetSubmit_keeps t p s⟩
  | rfePsetSubmitWrite t e r off b => exact ⟨t, execRfePsetSubmitWrite_keeps t e r off b s⟩
  | psetLoadStart t r => exact ⟨t, execPsetLoadStart_keeps t r s⟩
  | psetLoadComplete t r => exact ⟨t, execPsetLoadComplete_keeps t r s⟩
  | tapConfig t p => exact ⟨t, execTapConfig_keeps t p s⟩
  | tapRowGroupWrite t r tap bad trunc => exact ⟨t, execTapRowGroupWrite_keeps t r tap bad trunc s⟩
  | statsBlockComplete t r => exact ⟨t, execStatsBlockComplete_keeps t r s⟩
  | metadataRecordWrite t r => exact ⟨t, execMetadataRecordWrite_keeps t r s⟩
  | rowGroupDeadline t c => exact ⟨t, execRowGroupDeadline_keeps t c s⟩
  | sneUnitStart t n => exact ⟨t, execSneUnitStart_keeps t n s⟩
  | sneUnitComplete t n group stripe => exact ⟨t, execSneUnitComplete_keeps t n group stripe s⟩
  | networkBind t p layers => exact ⟨t, execNetworkBind_keeps t p layers s⟩
  | networkWeightLoadComplete t c => exact ⟨t, execNetworkWeightLoadComplete_keeps t c s⟩
  | networkUnbind t p => exact ⟨t, execNetworkUnbind_keeps t p s⟩
  | sneFault t n f => exact ⟨t, execSneFault_keeps t n f s⟩
  | sneWeightReloadComplete t n image => exact ⟨t, execSneWeightReloadComplete_keeps t n image s⟩
  | visionOperationStart t u => exact ⟨t, execVisionOperationStart_keeps t u s⟩
  | visionBandComplete t u err => exact ⟨t, execVisionBandComplete_keeps t u err s⟩
  | visionOperationComplete t u => exact ⟨t, execVisionOperationComplete_keeps t u s⟩
  | visionParityError t u => exact ⟨t, execVisionParityError_keeps t u s⟩
  | visionSelftestComplete t u pass => exact ⟨t, execVisionSelftestComplete_keeps t u pass s⟩
  | checkMode t p => exact ⟨t, execCheckMode_keeps t p s⟩
  | functionLevelReset t => exact ⟨t, execFunctionLevelReset_keeps t s⟩
  | bar4Access t off n data => exact ⟨t, execBar4Access_keeps t off n data s⟩
  | pciBar4BaseWrite t v => exact ⟨t, execPciBar4BaseWrite_keeps t v s⟩
  | pciIntStatusClear t hi mask => exact ⟨t, execPciIntStatusClear_keeps t hi mask s⟩
  | registerWrite t host space off x => exact ⟨t, execRegisterWrite_keeps t host space off x s⟩
  | mbxEnable t p v => exact ⟨t, execMbxEnable_keeps t p v s⟩
  | mbxDisable t p v => exact ⟨t, execMbxDisable_keeps t p v s⟩
  | mbxReqDoorbell t p tail writes => exact ⟨t, execMbxReqDoorbell_keeps t p tail writes s⟩
  | mbxRspHeadWrite t p head => exact ⟨t, execMbxRspHeadWrite_keeps t p head s⟩
  | mailboxRequestTake t => exact ⟨t, execMailboxRequestTake_keeps t s⟩
  | identify t p => exact ⟨t, execIdentify_keeps t p s⟩
  | getState t p => exact ⟨t, execGetState_keeps t p s⟩
  | setEvents t p => exact ⟨t, execSetEvents_keeps t p s⟩
  | resetFull t p => exact ⟨t, execResetFull_keeps t p s⟩
  | resetWarm t p => exact ⟨t, execResetWarm_keeps t p s⟩
  | graphAdmit t p image => exact ⟨t, execGraphAdmit_keeps t p image s⟩
  | graphPark t p => exact ⟨t, execGraphPark_keeps t p s⟩
  | graphRestore t p => exact ⟨t, execGraphRestore_keeps t p s⟩
  | graphStop t p => exact ⟨t, execGraphStop_keeps t p s⟩
  | contextRead t p => exact ⟨t, execContextRead_keeps t p s⟩
  | setCache t p => exact ⟨t, execSetCache_keeps t p s⟩
  | hostWindow t p => exact ⟨t, execHostWindow_keeps t p s⟩
  | dmaCopy t p => exact ⟨t, execDmaCopy_keeps t p s⟩
  | telemetry t p => exact ⟨t, execTelemetry_keeps t p s⟩
  | logRead t p => exact ⟨t, execLogRead_keeps t p s⟩
  | selftest t p => exact ⟨t, execSelftest_keeps t p s⟩
  | fwWrite t p => exact ⟨t, execFwWrite_keeps t p s⟩
  | fwCommit t p => exact ⟨t, execFwCommit_keeps t p s⟩
  | d3hotEntry t => exact ⟨t, execD3hotEntry_keeps t s⟩
  | d0Return t => exact ⟨t, execD0Return_keeps t s⟩
  | firmwareReady t fails => exact ⟨t, execFirmwareReady_keeps t fails s⟩
  | portUp t p => exact ⟨t, execPortUp_keeps t p s⟩
  | portDown t p => exact ⟨t, execPortDown_keeps t p s⟩
  | importEntry t p => exact ⟨t, execImport_keeps t p s⟩
  | counterMap t p => exact ⟨t, execCounterMap_keeps t p s⟩
  | peerTrainingComplete t k neighbour lanes half => exact ⟨t, execPeerTrainingComplete_keeps t k neighbour lanes half s⟩
  | peerTrainingTimeout t k => exact ⟨t, execPeerTrainingTimeout_keeps t k s⟩
  | peerFlitError t k => exact ⟨t, execPeerFlitError_keeps t k s⟩
  | peerRetrainTimeout t k => exact ⟨t, execPeerRetrainTimeout_keeps t k s⟩
  | remoteSignal t k imp inc => exact ⟨t, execRemoteSignal_keeps t k imp inc s⟩
  | remoteCounterOp t k imp v err => exact ⟨t, execRemoteCounterOp_keeps t k imp v err s⟩
  | peerRemoteAccess t k a n data => exact ⟨t, execPeerRemoteAccess_keeps t k a n data s⟩
  | remoteRequestTimeout t w n => exact ⟨t, execRemoteRequestTimeout_keeps t w n s⟩
  | relayUnit t k => exact ⟨t, execRelayUnit_keeps t k s⟩
  | motorSetpoint t f => exact ⟨t, execMotorSetpoint_keeps t f s⟩
  | coolerSetpoint t f => exact ⟨t, execCoolerSetpoint_keeps t f s⟩
  | configWrite t f => exact ⟨t, execConfigWrite_keeps t f s⟩
  | controlDisable t f => exact ⟨t, execControlDisable_keeps t f s⟩
  | controlEnable t f => exact ⟨t, execControlEnable_keeps t f s⟩
  | controlClearTrip t f => exact ⟨t, execControlClearTrip_keeps t f s⟩
  | controlSetPosition t f => exact ⟨t, execControlSetPosition_keeps t f s⟩
  | linkAck t f => exact ⟨t, execLinkAck_keeps t f s⟩
  | loopStep t ins => exact ⟨t, execLoopStep_keeps t ins s⟩
  | watchdogExpiry t ch => exact ⟨t, execWatchdogExpiry_keeps t ch s⟩
  | limitTrip t ch positive => exact ⟨t, execLimitTrip_keeps t ch positive s⟩
  | overcurrentTrip t ch => exact ⟨t, execOvercurrentTrip_keeps t ch s⟩
  | vfieldUndervoltageTrip t => exact ⟨t, execVfieldUndervoltageTrip_keeps t s⟩
  | lanternResetRelease t mv => exact ⟨t, execLanternResetRelease_keeps t mv s⟩
  | lanternResetEntry t => exact ⟨t, execLanternResetEntry_keeps t s⟩
  | lanternSelftestComplete t pass => exact ⟨t, execLanternSelftestComplete_keeps t pass s⟩
  | channelStatusSend t ch => exact ⟨t, execChannelStatusSend_keeps t ch s⟩
  | linkStatusSend t mv temp => exact ⟨t, execLinkStatusSend_keeps t mv temp s⟩
  | fieldStatusReceive t f => exact ⟨t, execFieldStatusReceive_keeps t f s⟩
  | fieldAckReceive t f => exact ⟨t, execFieldAckReceive_keeps t f s⟩
  | fieldEventReceive t f => exact ⟨t, execFieldEventReceive_keeps t f s⟩
  | linkStatusReceive t f => exact ⟨t, execLinkStatusReceive_keeps t f s⟩
  | fieldAckTimeout t => exact ⟨t, execFieldAckTimeout_keeps t s⟩
  | fieldLinkDown t => exact ⟨t, execFieldLinkDown_keeps t s⟩
  | fieldRecordSend t => exact ⟨t, execFieldRecordSend_keeps t s⟩
  | fieldConfigConfigure t p => exact ⟨t, execFieldConfigConfigure_keeps t p s⟩
  | fieldConfigControl t p => exact ⟨t, execFieldConfigControl_keeps t p s⟩
  | fieldConfigRead t p => exact ⟨t, execFieldConfigRead_keeps t p s⟩
  | scrubRead t w err last => exact ⟨t, execScrubRead_keeps t w err last s⟩
  | dramScrubRead t m a w err last => exact ⟨t, execDramScrubRead_keeps t m a w err last s⟩
  | watchtowerFetchTrap t page hashOk => exact ⟨t, execWatchtowerFetchTrap_keeps t page hashOk s⟩
  | dmaEngineFailure t e => exact ⟨t, execDmaEngineFailure_keeps t e s⟩
  | fatalCondition t c => exact ⟨t, execFatalCondition_keeps t c s⟩
  | resetRelease t => exact ⟨t, execResetRelease_keeps t s⟩
  | bootImageVerified t => exact ⟨t, execBootImageVerified_keeps t s⟩
  | temperatureSample t temps => exact ⟨t, execTemperatureSample_keeps t temps s⟩
  | throttleStep t st => exact ⟨t, execThrottleStep_keeps t st s⟩
  | voltageSample t mv => exact ⟨t, execVoltageSample_keeps t mv s⟩
  | ppsEdge t => exact ⟨t, execPpsEdge_keeps t s⟩
  | ppsLoss t => exact ⟨t, execPpsLoss_keeps t s⟩
  | devtimeRead t p => exact ⟨t, execDevtimeRead_keeps t p s⟩
  | devtimeStep t p => exact ⟨t, execDevtimeStep_keeps t p s⟩
  | devtimeSlew t p => exact ⟨t, execDevtimeSlew_keeps t p s⟩
  | devtimePps t p => exact ⟨t, execDevtimePps_keeps t p s⟩
  | wtDevtimeRead t => exact ⟨t, execWtDevtimeRead_keeps t s⟩
  | prtCommit t v => exact ⟨t, execPrtCommit_keeps t v s⟩
  | jtagDebugCommand t => exact ⟨t, execJtagDebugCommand_keeps t s (by rw [State.at_fuses]; exact h t rfl)⟩
  | watchtowerWatchdogExpiry t => exact ⟨t, execWatchtowerWatchdogExpiry_keeps t s⟩
  | watchtowerLockstepMismatch t => exact ⟨t, execWatchtowerLockstepMismatch_keeps t s⟩
  | powerOnReset t => exact ⟨t, execPowerOnReset_keeps t s⟩
  | supplyFailure t => exact ⟨t, execSupplyFailure_keeps t s⟩
  | resetNAssert t => exact ⟨t, execResetNAssert_keeps t s⟩
  | perstNAssert t => exact ⟨t, execPerstNAssert_keeps t s⟩
  | refclkSysLoss t => exact ⟨t, execRefclkSysLoss_keeps t s⟩
  | pcieRefclkLoss t => exact ⟨t, execPcieRefclkLoss_keeps t s⟩
  | plRefclkLoss t => exact ⟨t, execPlRefclkLoss_keeps t s⟩
  | xtal32kLoss t => exact ⟨t, execXtal32kLoss_keeps t s⟩
  | dvfsChange t st point => exact ⟨t, execDvfsChange_keeps t st point s⟩
  | dvfsVoutSettled t st mv => exact ⟨t, execDvfsVoutSettled_keeps t st mv s⟩
  | dvfsRelockComplete t st => exact ⟨t, execDvfsRelockComplete_keeps t st s⟩
  | pmbusFault t st => exact ⟨t, execPmbusFault_keeps t st s⟩
  | unitUngateComplete t u => exact ⟨t, execUnitUngateComplete_keeps t u s⟩
  | calibrationMeasureComplete t b rs codes => exact ⟨t, execCalibrationMeasureComplete_keeps t b rs codes s⟩
  | calibrationApply t b => exact ⟨t, execCalibrationApply_keeps t b s⟩
  | calibrationNoGap t b => exact ⟨t, execCalibrationNoGap_keeps t b s⟩
  | calibrationRemeasure t b => exact ⟨t, execCalibrationRemeasure_keeps t b s⟩
  | maintenanceWindow t m => exact ⟨t, execMaintenanceWindow_keeps t m s⟩
  | zqCalibration t m => exact ⟨t, execZqCalibration_keeps t m s⟩
  | calRead t p => exact ⟨t, execCalRead_keeps t p s⟩
  | calWrite t p => exact ⟨t, execCalWrite_keeps t p s⟩
  | sensorPortLock t p => exact ⟨t, execSensorPortLock_keeps t p s⟩
  | peerRetrainComplete t k => exact ⟨t, execPeerRetrainComplete_keeps t k s⟩
  | flashWriteComplete t ok => exact ⟨t, execFlashWriteComplete_keeps t ok s⟩
  | supplyRestore t => exact ⟨t, execSupplyRestore_keeps t s⟩
  | refclkSysRestore t => exact ⟨t, execRefclkSysRestore_keeps t s⟩
  | pcieCompletionTimeout t w => exact ⟨t, execPcieCompletionTimeout_keeps t w s⟩
  | fieldFrameDiscard t toLantern f => exact ⟨t, execFieldFrameDiscard_keeps t toLantern f s⟩

/-- What a command that answered a next state kept. -/
theorem exec_next_keeps {c : Instr} {s s' : State} (e : exec c s = .next s') :
    ∃ t, Keeps (!onFieldDie c) (!blowsFuses c) (s.at t) s' := by
  have h : ∀ t, c = .jtagDebugCommand t → s.fuses.debugOpen = false := by
    rintro t rfl
    rcases Bool.eq_false_or_eq_true s.fuses.debugOpen with h | h
    · simp [exec, execJtagDebugCommand, h] at e
    · exact h
  obtain ⟨t, s1, e1, k⟩ := exec_keeps c s h
  rw [e1] at e
  cases e
  exact ⟨t, k⟩

/-- The stores are canonical after time has passed exactly when they were before. -/
theorem State.at_memWf {s : State} {t : Nat} : (s.at t).MemWf ↔ s.MemWf := by simp [State.MemWf]

/-- Time passes in whole cycles of the timebase (R52). -/
theorem State.at_timebase (s : State) (t : Nat) : ∃ n, (s.at t).clock.timebase = s.clock.timebase + 4 * n := by
  unfold State.at
  split
  · exact ⟨0, rfl⟩
  · exact ⟨(t - s.clock.timebase) / 4, by simp only [Clock.advance_timebase]; omega⟩

end Sys2Proof.Machine
end

