-- ==== Sys2Proof/Laws/Lantern.lean ====
section
/-! SUPPORT. The operations of Lantern keep every channel safe: an enable pin is high only in RUN and RAMP (R412). -/
namespace Sys2Proof.Machine
open Sys2Proof

/-- Lantern runs and every channel is safe. -/
def State.Live (s : State) : Prop := s.lantern.stage = .running ∧ ∀ ch, (s.lchan ch).Safe

theorem State.Live.safe {s : State} (h : s.Live) : s.lantern.Safe := ⟨h.2, fun e => absurd h.1 e⟩

/-- What does not change Lantern keeps it live. -/
theorem State.Live.of_eq {s s' : State} (h : s.Live) (e : s'.lantern = s.lantern) : s'.Live := by
  unfold State.Live State.lchan
  rw [e]
  exact h

theorem LChan.rest_safe (c : LChan) (st : ChanState) : (c.rest st).Safe := fun h => absurd h Bool.false_ne_true

theorem State.ite_live {c : Prop} [Decidable c] {x y : State} (hx : x.Live) (hy : y.Live) : (if c then x else y).Live := by
  split
  · exact hx
  · exact hy

theorem State.emit_live {s : State} {o : Output} (h : s.Live) : (s.emit o).Live := h.of_eq rfl

theorem State.freeBytes_live {s : State} {n : Nat} (h : s.Live) : (s.freeBytes n).2.Live := h.of_eq rfl

theorem State.modLantern_live {s : State} {f : Lantern → Lantern} (h : s.Live) (hs : ∀ x, (f x).stage = x.stage)
    (hc : ∀ x, (f x).chans = x.chans) : (s.modLantern f).Live := by
  refine ⟨(hs _).trans h.1, fun ch => ?_⟩
  show ((f s.lantern).chans.at ch).Safe
  rw [hc]
  exact h.2 ch

theorem State.modLChan_live {s : State} {ch : Nat} {f : LChan → LChan} (h : s.Live) (hf : ∀ c, c.Safe → (f c).Safe) : (s.modLChan ch f).Live := by
  refine ⟨h.1, fun j => ?_⟩
  show ((s.lantern.chans.mod ch f).at j).Safe
  rw [Tab.at_mod]
  split
  · exact hf _ (h.2 ch)
  · exact h.2 j

theorem State.lanternSend_live {s : State} {type chan : Nat} {p : Bytes} (h : s.Live) : (s.lanternSend type chan p).Live :=
  State.modLantern_live (State.emit_live h) (fun _ => rfl) (fun _ => rfl)

theorem State.intField_live {s : State} {n : Nat} {v : Int} (h : s.Live) : (s.intField n v).2.Live := by
  unfold State.intField
  split
  · exact h
  · exact State.freeBytes_live h

theorem State.wholeOf_live {s : State} {num : Int} {den : Nat} (h : s.Live) : (s.wholeOf num den).2.Live := by
  unfold State.wholeOf
  split
  · exact h
  · exact State.freeBytes_live h

theorem State.eventPosition_live {s : State} {ch : Nat} (h : s.Live) : (s.eventPosition ch).2.Live := by
  unfold State.eventPosition
  split
  · exact State.intField_live h
  · exact h

theorem State.lanternEvent_live {s : State} {ch status : Nat} (h : s.Live) : (s.lanternEvent ch status).Live :=
  State.lanternSend_live (State.eventPosition_live h)

theorem State.sendLinkStatus_live {s : State} {temp : Bytes} (h : s.Live) : (s.sendLinkStatus temp).Live := State.lanternSend_live h

theorem State.tripChan_live {s : State} {ch status : Nat} (h : s.Live) : (s.tripChan ch status).Live := by
  unfold State.tripChan
  split
  · exact State.lanternEvent_live (State.emit_live (State.emit_live (State.modLChan_live h fun c _ => c.rest_safe _)))
  · exact h

theorem State.limitTrip_live {s : State} {ch : Nat} {p : Bool} (h : s.Live) : (s.limitTrip ch p).Live := by
  unfold State.limitTrip
  cases p <;> simp only [Bool.false_eq_true, if_true, if_false] <;> split
  all_goals first
    | exact h
    | exact State.tripChan_live (State.modLChan_live h fun _ hc => hc)

theorem State.comparators_live {s : State} {ch : Nat} (h : s.Live) : (s.comparators ch).Live := by
  unfold State.comparators
  dsimp only
  have h1 : (if ch < 4 && (s.lchan ch).limPActive then s.limitTrip ch true else s).Live := by
    split
    · exact State.limitTrip_live h
    · exact h
  have h2 : (if ch < 4 && (s.lchan ch).limNActive then
      (if ch < 4 && (s.lchan ch).limPActive then s.limitTrip ch true else s).limitTrip ch false
      else (if ch < 4 && (s.lchan ch).limPActive then s.limitTrip ch true else s)).Live := by
    split
    · exact State.limitTrip_live h1
    · exact h1
  split
  · exact State.tripChan_live h2
  · exact h2

theorem State.acceptFrame_live {s : State} {f : Bytes} (h : s.Live) : (s.acceptFrame f).Live :=
  State.modLantern_live h (fun _ => rfl) (fun _ => rfl)

theorem State.lanternAck_live {s : State} {f : Bytes} {status : Nat} (h : s.Live) : (s.lanternAck f status).Live := by
  unfold State.lanternAck
  refine State.lanternSend_live ?_
  split
  · exact State.freeBytes_live h
  · exact h

theorem State.takeSetpoint_live {s : State} {ch : Nat} {sp : Setpoint} (h : s.Live) : (s.takeSetpoint ch sp).Live := by
  unfold State.takeSetpoint
  dsimp only
  have h1 : (s.modLChan ch fun c => { c with discards := c.discards + 1 }).Live := State.modLChan_live h fun _ hc => hc
  split
  · exact State.ite_live (State.lanternEvent_live (State.modLChan_live h1 fun _ hc => hc)) h1
  · exact State.ite_live (State.lanternEvent_live (State.modLChan_live h1 fun _ hc => hc)) h1
  all_goals exact State.modLChan_live h fun _ hc => hc

theorem State.arm_live {s : State} {ch : Nat} (h : s.Live) : (s.arm ch).Live :=
  State.comparators_live (State.modLChan_live h fun c _ => c.rest_safe _)

/-- What a frame does keeps Lantern safe where the effect on an accepted frame keeps it live. -/
theorem State.onFrame_safe {s : State} {f : Bytes} {mine : Bool} {eff : State → State} (h : s.lantern.Safe) (he : ∀ s, s.Live → (eff s).Live) :
    (s.onFrame f mine eff).lantern.Safe := by
  unfold State.onFrame
  split
  · rename_i hc
    simp only [Bool.and_eq_true, beq_iff_eq] at hc
    exact (he _ (State.acceptFrame_live ⟨hc.1.1.1, h.1⟩)).safe
  · exact h

/-! ## The loop step -/

theorem LChan.rereference_safe {c : LChan} (h : c.Safe) : c.rereference.Safe := by
  unfold LChan.rereference
  split <;> exact h

theorem LChan.latch_safe {c : LChan} {i : Option ChanIn} (h : c.Safe) : (c.latch i).Safe := by
  unfold LChan.latch
  split <;> exact h

theorem LChan.takeNewest_safe {c : LChan} {motor : Bool} {now : Nat} (h : c.Safe) : (c.takeNewest motor now).1.Safe := by
  unfold LChan.takeNewest
  dsimp only
  split
  · exact h
  · exact fun _ => .inl rfl

theorem LChan.advanceMotor_safe {c : LChan} (h : c.Safe) : c.advanceMotor.Safe := by
  unfold LChan.advanceMotor
  split <;> exact h

theorem State.stepTrips_live {s : State} {ch : Nat} (h : s.Live) : (s.stepTrips ch).Live := by
  unfold State.stepTrips
  dsimp only
  split
  · exact State.tripChan_live (State.comparators_live h)
  · exact State.comparators_live h

theorem State.modLChan_const_live {s : State} {ch : Nat} {c : LChan} (h : s.Live) (hc : c.Safe) : (s.modLChan ch fun _ => c).Live :=
  State.modLChan_live h fun _ _ => hc

theorem State.useSetpoint_live {s : State} {ch : Nat} (h : s.Live) : (s.useSetpoint ch).Live := by
  unfold State.useSetpoint
  dsimp only
  split
  · have h1 := State.modLChan_const_live (ch := ch) h (LChan.takeNewest_safe (motor := decide (ch < 4)) (now := s.now) (h.2 ch))
    split
    · exact State.emit_live h1
    · exact h1
  · exact State.modLChan_live h fun _ hc => hc

theorem State.checkWatchdog_live {s : State} {ch : Nat} (h : s.Live) : (s.checkWatchdog ch).Live := by
  unfold State.checkWatchdog
  split
  · exact State.lanternEvent_live (State.modLChan_live h fun _ _ _ => .inr rfl)
  · exact h

theorem State.advanceRamp_live {s : State} {ch : Nat} (h : s.Live) : (s.advanceRamp ch).Live := by
  unfold State.advanceRamp
  dsimp only
  refine State.ite_live (State.lanternEvent_live (State.emit_live (State.modLChan_live h fun c _ => ?_))) (State.modLChan_live h fun c hc => ?_)
  · exact fun e => absurd e Bool.false_ne_true
  · split <;> exact hc

theorem State.advanceChan_live {s : State} {ch : Nat} (h : s.Live) : (s.advanceChan ch).Live := by
  unfold State.advanceChan
  split
  · refine State.modLChan_live h fun c hc => ?_
    split
    · exact LChan.advanceMotor_safe hc
    · split <;> exact hc
  · exact State.advanceRamp_live h
  all_goals exact h

theorem State.phaseCurrents_live {s : State} {c : LChan} (h : s.Live) : (s.phaseCurrents c).2.2.Live := by
  unfold State.phaseCurrents
  exact State.wholeOf_live (State.wholeOf_live h)

theorem State.drivePhases_live {s : State} {ch : Nat} {c : LChan} (h : s.Live) (hc : c.Safe) : (s.drivePhases ch c).Live := by
  unfold State.drivePhases
  exact State.emit_live (State.freeBytes_live (State.phaseCurrents_live (State.modLChan_const_live h hc)))

theorem State.driveChan_live {s : State} {ch : Nat} (h : s.Live) : (s.driveChan ch).Live := by
  unfold State.driveChan
  dsimp only
  split
  · split
    · exact State.emit_live h
    · split
      · split
        · exact State.modLChan_live h fun _ hc => hc
        · exact State.emit_live (State.modLChan_live h fun _ hc => hc)
      · exact State.drivePhases_live h (h.2 ch)
  · exact h

theorem State.stepChan_live {s : State} {ch : Nat} {i : Option ChanIn} (h : s.Live) : (s.stepChan ch i).Live :=
  State.driveChan_live (State.advanceChan_live (State.checkWatchdog_live (State.useSetpoint_live (State.stepTrips_live
    (State.modLChan_live h fun _ hc => LChan.rereference_safe (LChan.latch_safe hc))))))

theorem State.foldl_live {α : Type} {g : State → α → State} {xs : List α} {s : State} (h : s.Live) (hg : ∀ s x, s.Live → (g s x).Live) :
    (xs.foldl g s).Live := by
  induction xs generalizing s with
  | nil => exact h
  | cons x xs ih => exact ih (hg s x h)

/-! ## Status frames -/

theorem State.currentField_live {s : State} {ch : Nat} (h : s.Live) : (s.currentField ch).2.Live := by
  unfold State.currentField
  dsimp only
  refine State.intField_live (State.wholeOf_live ?_)
  split
  · exact h
  · split
    · exact h
    · exact State.freeBytes_live h

theorem State.useFields_live {s : State} {ch : Nat} (h : s.Live) : (s.useFields ch).2.Live := by
  unfold State.useFields
  split
  · exact h
  · exact State.freeBytes_live h

theorem State.sendChanStatus_live {s : State} {ch : Nat} (h : s.Live) : (s.sendChanStatus ch).Live := by
  have hu := State.useFields_live (ch := ch) (State.currentField_live (ch := ch) h)
  unfold State.sendChanStatus
  dsimp only
  split
  · exact State.lanternSend_live (State.intField_live (State.wholeOf_live (State.intField_live hu)))
  · exact State.lanternSend_live (State.intField_live (State.wholeOf_live hu))

/-- A reset leaves every channel OFF with its enable low. -/
theorem Lantern.reset_safe : ({} : Lantern).Safe := by
  have h : ∀ ch, (({} : Lantern).chans.at ch) = ({} : LChan) := by
    intro ch
    simp only [Tab.at, Vector.getElem?_replicate]
    split <;> rfl
  exact ⟨fun ch => by rw [h]; exact fun e => absurd e Bool.false_ne_true, fun _ ch => by rw [h]⟩

end Sys2Proof.Machine
end

