-- ==== Sys2Proof/Laws/Reports.lean ====
section
/-! SUPPORT. What reporting can do: an event, a logged status, an interrupt, a response or a change of health touches only the logs, the
mailbox rings, the interrupt bits, host memory and what leaves the chip. -/
namespace Sys2Proof.Machine
open Sys2Proof

/-- From `s` to `s'` nothing changes but what a report changes. -/
structure State.Reports (s s' : State) : Prop where
  rest : { s' with mem := { s'.mem with host := s.mem.host }, pci := s.pci, watch := s.watch, reliab := s.reliab, out := s.out } = s
  pci : { s'.pci with cause := s.pci.cause, pendingBits := s.pci.pendingBits, pairs := s.pci.pairs, eventsLost := s.pci.eventsLost
                      eventNo := s.pci.eventNo } = s.pci
  reliab : { s'.reliab with health := s.reliab.health } = s.reliab
  watch : { s'.watch with evLog := s.watch.evLog, errLog := s.watch.errLog, lastLogged := s.watch.lastLogged, ret := s.watch.ret } = s.watch

namespace State.Reports

theorem refl (s : State) : s.Reports s := ⟨rfl, rfl, rfl, rfl⟩

theorem trans {a b c : State} (h : a.Reports b) (k : b.Reports c) : a.Reports c where
  rest := (congrArg (fun z : State =>
    { z with mem := { z.mem with host := a.mem.host }, pci := a.pci, watch := a.watch, reliab := a.reliab, out := a.out }) k.rest).trans h.rest
  pci := (congrArg (fun z : Pci => { z with
    cause := a.pci.cause, pendingBits := a.pci.pendingBits, pairs := a.pci.pairs, eventsLost := a.pci.eventsLost
    eventNo := a.pci.eventNo }) k.pci).trans h.pci
  reliab := (congrArg (fun z : Reliab => { z with health := a.reliab.health }) k.reliab).trans h.reliab
  watch := (congrArg (fun z : Watch => { z with
    evLog := a.watch.evLog, errLog := a.watch.errLog, lastLogged := a.watch.lastLogged, ret := a.watch.ret }) k.watch).trans h.watch

theorem after {a b c : State} (k : b.Reports c) (h : a.Reports b) : a.Reports c := h.trans k

/-- A change of what a report changes. -/
theorem upd {a x : State} {mem : MemSys} {pci : Pci} {watch : Watch} {reliab : Reliab} {out : List Output} (h : a.Reports x)
    (hm : { mem with host := x.mem.host } = x.mem)
    (hp : { pci with cause := x.pci.cause, pendingBits := x.pci.pendingBits, pairs := x.pci.pairs, eventsLost := x.pci.eventsLost
                     eventNo := x.pci.eventNo } = x.pci)
    (hr : { reliab with health := x.reliab.health } = x.reliab)
    (hw : { watch with evLog := x.watch.evLog, errLog := x.watch.errLog, lastLogged := x.watch.lastLogged, ret := x.watch.ret } = x.watch) :
    a.Reports (State.mk x.clock x.bf mem x.spc x.spire x.ports x.cams x.genlock x.scu x.rfe x.egress x.sne x.vis pci x.peer x.imports x.ctrMaps
      x.field x.lantern reliab watch x.fuses x.flash x.power x.resets x.straps out x.fresh x.pending) :=
  h.trans ⟨congrArg (fun m => { x with mem := m }) hm, hp, hr, hw⟩

theorem ite {a x y : State} {c : Prop} [Decidable c] (hx : a.Reports x) (hy : a.Reports y) : a.Reports (if c then x else y) := by
  split
  · exact hx
  · exact hy

theorem foldl {α : Type} {a : State} {g : State → α → State} {xs : List α} {s : State} (h0 : a.Reports s)
    (h : ∀ s x, a.Reports s → a.Reports (g s x)) : a.Reports (xs.foldl g s) := by
  induction xs generalizing s with
  | nil => exact h0
  | cons x xs ih => exact ih (h s x h0)

theorem clock {a b : State} (h : a.Reports b) : b.clock = a.clock := (congrArg State.clock h.rest :)
theorem bf {a b : State} (h : a.Reports b) : b.bf = a.bf := (congrArg State.bf h.rest :)
theorem cells {a b : State} (h : a.Reports b) : b.mem.cells = a.mem.cells := (congrArg (fun z : State => z.mem.cells) h.rest :)
theorem dma {a b : State} (h : a.Reports b) : b.mem.dma = a.mem.dma := (congrArg (fun z : State => z.mem.dma) h.rest :)
theorem counters {a b : State} (h : a.Reports b) : b.mem.counters = a.mem.counters := (congrArg (fun z : State => z.mem.counters) h.rest :)
theorem jobs {a b : State} (h : a.Reports b) : b.mem.jobs = a.mem.jobs := (congrArg (fun z : State => z.mem.jobs) h.rest :)
theorem memCfg {a b : State} (h : a.Reports b) : b.mem.cfg = a.mem.cfg := (congrArg (fun z : State => z.mem.cfg) h.rest :)
theorem spc {a b : State} (h : a.Reports b) : b.spc = a.spc := (congrArg State.spc h.rest :)
theorem spire {a b : State} (h : a.Reports b) : b.spire = a.spire := (congrArg State.spire h.rest :)
theorem ports {a b : State} (h : a.Reports b) : b.ports = a.ports := (congrArg State.ports h.rest :)
theorem cams {a b : State} (h : a.Reports b) : b.cams = a.cams := (congrArg State.cams h.rest :)
theorem genlock {a b : State} (h : a.Reports b) : b.genlock = a.genlock := (congrArg State.genlock h.rest :)
theorem scu {a b : State} (h : a.Reports b) : b.scu = a.scu := (congrArg State.scu h.rest :)
theorem rfe {a b : State} (h : a.Reports b) : b.rfe = a.rfe := (congrArg State.rfe h.rest :)
theorem egress {a b : State} (h : a.Reports b) : b.egress = a.egress := (congrArg State.egress h.rest :)
theorem sne {a b : State} (h : a.Reports b) : b.sne = a.sne := (congrArg State.sne h.rest :)
theorem vis {a b : State} (h : a.Reports b) : b.vis = a.vis := (congrArg State.vis h.rest :)
theorem peer {a b : State} (h : a.Reports b) : b.peer = a.peer := (congrArg State.peer h.rest :)
theorem imports {a b : State} (h : a.Reports b) : b.imports = a.imports := (congrArg State.imports h.rest :)
theorem ctrMaps {a b : State} (h : a.Reports b) : b.ctrMaps = a.ctrMaps := (congrArg State.ctrMaps h.rest :)
theorem field {a b : State} (h : a.Reports b) : b.field = a.field := (congrArg State.field h.rest :)
theorem lantern {a b : State} (h : a.Reports b) : b.lantern = a.lantern := (congrArg State.lantern h.rest :)
theorem fuses {a b : State} (h : a.Reports b) : b.fuses = a.fuses := (congrArg State.fuses h.rest :)
theorem flash {a b : State} (h : a.Reports b) : b.flash = a.flash := (congrArg State.flash h.rest :)
theorem power {a b : State} (h : a.Reports b) : b.power = a.power := (congrArg State.power h.rest :)
theorem resets {a b : State} (h : a.Reports b) : b.resets = a.resets := (congrArg State.resets h.rest :)
theorem straps {a b : State} (h : a.Reports b) : b.straps = a.straps := (congrArg State.straps h.rest :)
theorem fresh {a b : State} (h : a.Reports b) : b.fresh = a.fresh := (congrArg State.fresh h.rest :)
theorem pending {a b : State} (h : a.Reports b) : b.pending = a.pending := (congrArg State.pending h.rest :)
theorem pciState {a b : State} (h : a.Reports b) : b.pci.state = a.pci.state := (congrArg Pci.state h.pci :)
theorem fatalStatus {a b : State} (h : a.Reports b) : b.pci.fatalStatus = a.pci.fatalStatus := (congrArg Pci.fatalStatus h.pci :)
theorem hokudan {a b : State} (h : a.Reports b) : b.pci.hokudan = a.pci.hokudan := (congrArg Pci.hokudan h.pci :)
theorem linkUp {a b : State} (h : a.Reports b) : b.pci.linkUp = a.pci.linkUp := (congrArg Pci.linkUp h.pci :)
theorem d3hot {a b : State} (h : a.Reports b) : b.pci.d3hot = a.pci.d3hot := (congrArg Pci.d3hot h.pci :)

end State.Reports

/-! ## The operations that report -/

theorem State.emit_reports (s : State) (o : Output) : s.Reports (s.emit o) := .upd (.refl s) rfl rfl rfl rfl

theorem State.raise_reports (s : State) (v : Nat) : s.Reports (s.raise v) := by
  unfold State.raise
  exact .ite (.refl s) (.ite (.upd (.upd (.refl s) rfl rfl rfl rfl) rfl rfl rfl rfl) (.after (State.emit_reports _ _) (.upd (.refl s) rfl rfl rfl rfl)))

theorem State.raiseAll_reports (s : State) (vs : List Nat) : s.Reports (s.raiseAll vs) :=
  State.Reports.foldl (.refl s) fun _ _ h => h.trans (State.raise_reports _ _)

theorem State.logEventRec_reports (s : State) (r : Bytes) : s.Reports (s.logEventRec r) := .upd (.refl s) rfl rfl rfl rfl

theorem State.stampLog_reports (s : State) (status : Nat) : s.Reports (s.stampLog status) := .upd (.refl s) rfl rfl rfl rfl

theorem State.logError_reports (s : State) (a b c d e f g h i : Nat) : s.Reports (s.logError a b c d e f g h i) := .upd (.refl s) rfl rfl rfl rfl

theorem State.hostPut_reports (s : State) (a : Nat) (b : Bytes) : s.Reports (s.hostPut a b) := .upd (.refl s) rfl rfl rfl rfl

theorem State.mbxWrite_reports (s : State) (p opcode seq tag : Nat) (event : Bool) (payload : Bytes) :
    s.Reports (s.mbxWrite p opcode seq tag event payload) := by
  unfold State.mbxWrite
  extract_lets q base phase hdr s1 pci s2
  have h1 : s.Reports s1 := .after (State.hostPut_reports _ _ _) (State.hostPut_reports _ _ _)
  clear_value s1
  have h2 : s.Reports s2 := .upd h1 rfl rfl rfl rfl
  exact h2.trans (State.raise_reports s2 (2 + p))

theorem State.deliver_reports (s : State) (p : Nat) (r : MbxReq) (payload : Bytes) : s.Reports (s.deliver p r payload) := by
  unfold State.deliver
  extract_lets q pci s0 s1
  have h0 : s.Reports s0 := .upd (.refl s) rfl rfl rfl rfl
  have h1 : s.Reports s1 := .ite (.after (State.mbxWrite_reports _ _ _ _ _ _ _) h0) h0
  exact .ite h1 (.upd h1 rfl rfl rfl rfl)

theorem State.respond_reports (s : State) (p status detail : Nat) (rest : Bytes) : s.Reports (s.respond p status detail rest) := by
  unfold State.respond
  split
  · exact .refl s
  · exact .ite (State.deliver_reports _ _ _ _) (.upd (.refl s) rfl rfl rfl rfl)

theorem State.answer_reports (s : State) (p status : Nat) : s.Reports (s.answer p status) := State.respond_reports s p status 0 []

theorem State.startReq_reports (s : State) (p : Nat) : s.Reports (s.startReq p) := .upd (.refl s) rfl rfl rfl rfl

theorem State.postEvent_reports (s : State) (source : Nat) (payload : Bytes) : s.Reports (s.postEvent source payload) := by
  have h0 : s.Reports { s with pci := { s.pci with eventsLost := satInc 32 s.pci.eventsLost } } := .upd (.refl s) rfl rfl rfl rfl
  unfold State.postEvent
  exact .ite (.after (State.mbxWrite_reports _ _ _ _ _ _ _) (.upd (.refl s) rfl rfl rfl rfl))
    (.ite (h0.trans ((State.stampLog_reports _ _).trans (State.logEventRec_reports _ _))) h0)

theorem State.event_reports (s : State) (status source unit : Nat) (vecs : List Nat) (data : Bytes) :
    s.Reports (s.event status source unit vecs data) :=
  ((State.logEventRec_reports _ _).trans (State.postEvent_reports _ _ _)).trans (State.raiseAll_reports _ _)

theorem State.note_reports (s : State) (status source unit : Nat) (data : Bytes) : s.Reports (s.note status source unit data) :=
  State.logEventRec_reports _ _

theorem State.noteRare_reports (s : State) (status source unit : Nat) : s.Reports (s.noteRare status source unit) :=
  .ite ((State.stampLog_reports _ _).trans (State.note_reports _ _ _ _ _)) (.refl s)

theorem State.updateHealth_reports (s : State) : s.Reports s.updateHealth :=
  .ite (.refl s) (.after (State.event_reports _ _ _ _ _ _) (.upd (.refl s) rfl rfl rfl rfl))

end Sys2Proof.Machine
end

