-- ==== Sys2Proof/WellFormed.lean ====
section
/-! DEFINITION. Which commands are well formed: their operands name units, pairs, channels and fields that the block has. A meaning acts on any
command; one that is not well formed stands for no event of the block. -/
namespace Sys2Proof

/-- A single error names one bit or byte of a word; every read error is of these. -/
def WellFormed.lane : Option LaneUpset → Bool
  | none => true
  | some u => u.lane < 3 && u.value < 2 ^ 16

/-- A corrected error names one of the stores of R442. -/
def WellFormed.wordError (w : WordError) : Bool := w.store < 15 && w.unit < 256 && w.foundBy < 4

/-- An array that exists: a core's, or one of an SNE. -/
def WellFormed.arrayRef : ArrayRef → Bool
  | .core n => n < 128
  | .sne n a => n < 4 && a < 4

/-- A unit that exists and has a power gate. -/
def WellFormed.gateUnit : GateUnit → Bool
  | .steeple n => n < 8
  | .sne n => n < 4
  | .rfe n => n < 16
  | .vis n => n < 6

/-- A DMA item's owner. -/
def WellFormed.owner : DmaOwner → Bool
  | .node i => i < 4096
  | .copy p => p < 16

/-- An ingress part that exists. -/
def WellFormed.part : IngressPart → Bool
  | .port p => p < 8
  | .controller b => b < 8
  | .crossbar c => c < 16

/-- A read of host memory that the block makes. -/
def WellFormed.hostWait : HostWait → Bool
  | .fetch p => p < 16
  | .response p => p < 16
  | .dma e tag => e < 12 && tag < 128

/-- The command's operands lie in the ranges that the block has. -/
def Instr.wellFormed : Instr → Bool
  -- an instant alone, and operands that no range bounds
  | .belfryLockstepMismatch _ | .genlockAnchor _ _ | .exposureSequenceIssue _ _ | .i3cBusTimeout _ _
  | .functionLevelReset _ | .mailboxRequestTake _ | .d3hotEntry _ | .d0Return _ | .firmwareReady _ _ | .loopStep _ _
  | .vfieldUndervoltageTrip _ | .lanternResetRelease _ _ | .lanternResetEntry _ | .lanternSelftestComplete _ _ | .fieldAckTimeout _
  | .fieldLinkDown _ | .fieldRecordSend _ | .watchtowerFetchTrap _ _ _ | .fatalCondition _ _ | .resetRelease _ | .bootImageVerified _
  | .ppsEdge _ | .ppsLoss _ | .wtDevtimeRead _ | .prtCommit _ _ | .jtagDebugCommand _ | .watchtowerWatchdogExpiry _
  | .watchtowerLockstepMismatch _ | .powerOnReset _ | .supplyFailure _ | .resetNAssert _ | .perstNAssert _ | .refclkSysLoss _
  | .pcieRefclkLoss _ | .plRefclkLoss _ | .xtal32kLoss _ | .flashWriteComplete _ _ | .supplyRestore _ | .refclkSysRestore _
  | .pciIntStatusClear _ _ _ | .linkStatusSend _ _ _ => true
  -- a mailbox pair
  | .cancel _ p | .cameraBind _ p | .cameraUnbind _ p | .exposure _ p | .sensorXfer _ p | .psetSubmit _ p | .tapConfig _ p
  | .networkBind _ p _ | .networkUnbind _ p | .checkMode _ p | .identify _ p | .getState _ p | .setEvents _ p | .resetFull _ p
  | .resetWarm _ p | .graphAdmit _ p _ | .graphPark _ ⟨p, _⟩ | .graphRestore _ p | .graphStop _ p | .contextRead _ p | .setCache _ p
  | .hostWindow _ p | .dmaCopy _ p | .telemetry _ p | .logRead _ p | .selftest _ p | .fwWrite _ p | .fwCommit _ p | .portUp _ p
  | .portDown _ p | .importEntry _ p | .counterMap _ p | .fieldConfigConfigure _ p | .fieldConfigControl _ p | .fieldConfigRead _ p
  | .devtimeRead _ p | .devtimeStep _ p | .devtimeSlew _ p | .devtimePps _ p | .calRead _ p | .calWrite _ p => p < 16
  | .sensorPortLock _ p => p < 8
  | .mbxEnable _ p v => p < 16 && v < 2 ^ 32
  | .mbxDisable _ p v => p < 16 && v < 2 ^ 32
  | .mbxReqDoorbell _ p tail _ => p < 16 && tail < 2 ^ 16
  | .mbxRspHeadWrite _ p head => p < 16 && head < 2 ^ 16
  -- a node context
  | .nodeDispatch _ i u _ => i < 4096 && WellFormed.lane u
  | .nodeFault _ i st => i < 4096 && statusReturned st
  | .nodeComplete _ i | .deadlineMiss _ i | .fusedStageResume _ i _ | .cancelDrainComplete _ i
  | .reductionJobStart _ i _ | .macroStart _ i _ | .splitkDrainStart _ i _ | .quantVerdict _ i _ | .wideFlagWrite _ i _ => i < 4096
  -- a graph, a beacon, a multicast group
  | .anchorEvent _ g | .parkDrainComplete _ ⟨g, _⟩ => g < 256
  | .beaconSignal _ b inc u => b < 16384 && inc ≤ 32768 && WellFormed.lane u
  | .multicastUnitWrite _ g _ | .gapMarkerWrite _ g _ | .holdLimitExpiry _ g _ => g < 256
  -- DMA engines, among them those of the peer ports
  | .dmaWorkItemStart _ e o => e < 15 && WellFormed.owner o
  | .dmaRequestIssue _ e _ | .dmaChunkWriteStart _ e | .dmaChunkComplete _ e => e < 15
  | .dmaRequestComplete _ e tag _ c _ => e < 15 && tag < 128 && c.all WellFormed.wordError
  | .remoteRequestTimeout _ (.engine e) tag => e < 15 && tag < 128
  | .remoteRequestTimeout _ (.node i) m => i < 4096 && m < 4
  | .dmaEngineFailure _ e => e < 12
  -- memory
  | .fetchAdd _ _ a size v _ _ => a < 2 ^ 40 && (size == 4 || size == 8) && v < 2 ^ 32
  | .workCounterWrite _ _ a bs => a < 2 ^ 40 && bs.length ≤ 8
  | .reductionPartialAdd _ slot _ => slot < 64
  | .memoryInterfaceLoss _ m | .memCfgLock _ m | .maintenanceWindow _ m | .zqCalibration _ m => m < 4
  | .dramScrubRead _ m a w _ _ => m < 4 && a < 2 ^ 40 && WellFormed.wordError w
  | .scrubRead _ w _ _ => WellFormed.wordError w && (w.store < 8 || 12 ≤ w.store)
  -- Spire cores
  | .tileClaim _ i _ core _ r => i < 4096 && core < 128 && match r with
    | .value v => v < 2 ^ 32
    | _ => true
  | .tileStart _ core q _ | .arrayPassIssue _ core q _ _ _ | .groupDrain _ core q _ _ | .groupWriteOutRetire _ core ⟨q, _, _⟩ => core < 128 && q < 5
  | .mmvExecute _ core _ _ | .arrayParityError _ core _ | .quadrantModeExit _ core => core < 128
  | .arraySelftestComplete _ a _ | .spareRowSwitch _ a | .periodicSelftest _ a => WellFormed.arrayRef a
  -- sensors
  | .csi2PacketReceive _ p k => p < 8 && k.vc < 16 && k.dataType < 64
  | .sensorFrameStart _ c _ | .sensorFrameEnd _ c | .frameTimeout _ c | .portLockTimeout _ c | .exposureSequenceComplete _ c => c < 16
  | .rfeLineRead _ r _ | .psetLoadStart _ r | .psetLoadComplete _ r | .statsBlockComplete _ r | .metadataRecordWrite _ r => r < 16
  | .sensorPortFailure _ u => WellFormed.part u
  | .scuReqWrite _ e _ _ => e < 12
  | .i3cTransactionComplete _ bus _ _ => bus < 8
  | .i3cInBandInterrupt _ bus addr => bus < 8 && addr < 128
  | .imuSample _ _ entries rates accels => 0 < entries && rates.length ≤ 3 && accels.length ≤ 3
  | .rfePsetSubmitWrite _ e r _ _ => e < 12 && r < 16
  | .tapRowGroupWrite _ r tap _ _ => r < 16 && tap < 4
  -- engines
  | .rowGroupDeadline _ c | .networkWeightLoadComplete _ c => c < 16
  | .sneUnitStart _ n | .sneUnitComplete _ n _ _ | .sneFault _ n _ | .sneWeightReloadComplete _ n _ => n < 4
  | .visionOperationStart _ u | .visionBandComplete _ u _ | .visionOperationComplete _ u | .visionParityError _ u
  | .visionSelftestComplete _ u _ => u < 6
  -- host and peers
  | .bar4Access _ off n _ => 0 < n && off < 2 ^ 36
  | .pciBar4BaseWrite _ v => v < 2 ^ 64
  | .registerWrite _ _ _ off x => off < 2 ^ 24 && match x with
    | .read n => 0 < n && n ≤ 4096
    | .write b => b.length ≤ 4096
  | .peerTrainingComplete _ k nb lanes _ => k < 3 && nb < 4 && lanes ≤ 4
  | .peerTrainingTimeout _ k | .peerFlitError _ k | .peerRetrainTimeout _ ⟨k, _⟩ | .relayUnit _ k | .peerRetrainComplete _ k => k < 3
  | .remoteSignal _ k imp inc => k < 3 && imp < 1024 && inc ≤ 32768
  | .remoteCounterOp _ k imp v _ => k < 3 && imp < 1024 && v < 2 ^ 32
  | .peerRemoteAccess _ k _ n _ => k < 3 && 0 < n
  | .pcieCompletionTimeout _ w => WellFormed.hostWait w
  -- the field side
  | .motorSetpoint _ f | .coolerSetpoint _ f | .configWrite _ f | .controlDisable _ f | .controlEnable _ f | .controlClearTrip _ f
  | .controlSetPosition _ f | .linkAck _ f | .fieldStatusReceive _ f | .fieldAckReceive _ f | .fieldEventReceive _ f
  | .linkStatusReceive _ f | .fieldFrameDiscard _ _ f => f.length == 32
  | .watchdogExpiry _ ch | .overcurrentTrip _ ch | .channelStatusSend _ ch => ch < 6
  | .limitTrip _ ch _ => ch < 4
  -- Watchtower, power and calibration
  | .temperatureSample _ ts => ts.length == 32
  | .throttleStep _ st | .dvfsRelockComplete _ st | .pmbusFault _ st => st < 8
  | .dvfsChange _ st point => st < 8 && point < 5
  | .dvfsVoutSettled _ st mv => st < 8 && mv < 2 ^ 16
  | .voltageSample _ mv => mv.length == 13
  | .unitUngateComplete _ u => WellFormed.gateUnit u
  | .calibrationMeasureComplete _ b _ _ => b < 18
  | .calibrationApply _ b | .calibrationNoGap _ b | .calibrationRemeasure _ b => b < 18

end Sys2Proof
end

