-- ==== Sys2Proof/Tests/Slice0.lean ====
section
/-! SUPPORT. The model's own tests: ill-formed commands that the check refuses; a concrete state and operands for the hypotheses of every clause of
every statement (each statement's `x` is `s.at t`, here at `t = 0`, where `State.at_zero` says that no time passes); and single values that
the manual states. -/
namespace Sys2Proof.Tests
set_option Elab.async false
open Sys2Proof Sys2Proof.Machine

/-! ## Ill-formed commands -/

theorem test_wf_pair : (Instr.identify 0 16).wellFormed = false ∧ (Instr.identify 0 15).wellFormed = true := by decide
theorem test_wf_doorbell : (Instr.mbxReqDoorbell 0 0 65536 []).wellFormed = false ∧ (Instr.mbxRspHeadWrite 0 16 0).wellFormed = false := by decide
theorem test_wf_enable : (Instr.mbxEnable 0 0 (2 ^ 32)).wellFormed = false ∧ (Instr.mbxDisable 0 16 0).wellFormed = false := by decide
theorem test_wf_context : (Instr.nodeDispatch 0 4096 none .clean).wellFormed = false ∧ (Instr.nodeComplete 0 4096).wellFormed = false := by decide
theorem test_wf_lane : (Instr.beaconSignal 0 0 1 (some { lane := 3, value := 0 })).wellFormed = false ∧
    (Instr.nodeDispatch 0 0 (some { lane := 0, value := 65536 }) .clean).wellFormed = false := by decide
theorem test_wf_graph : (Instr.anchorEvent 0 256).wellFormed = false ∧ (Instr.multicastUnitWrite 0 256 0).wellFormed = false := by decide
theorem test_wf_beacon : (Instr.beaconSignal 0 16384 1 none).wellFormed = false ∧ (Instr.beaconSignal 0 0 32769 none).wellFormed = false := by decide
theorem test_wf_dma : (Instr.dmaWorkItemStart 0 15 (.node 0)).wellFormed = false ∧ (Instr.dmaWorkItemStart 0 0 (.copy 16)).wellFormed = false ∧
    (Instr.dmaRequestComplete 0 0 128 .ok none none).wellFormed = false ∧ (Instr.dmaEngineFailure 0 12).wellFormed = false ∧
    (Instr.dmaChunkComplete 0 15).wellFormed = false ∧ (Instr.remoteRequestTimeout 0 (.engine 0) 128).wellFormed = false := by decide
theorem test_wf_memory : (Instr.fetchAdd 0 0 0 5 0 none .clean).wellFormed = false ∧ (Instr.workCounterWrite 0 0 (2 ^ 40) []).wellFormed = false ∧
    (Instr.reductionPartialAdd 0 64 .clean).wellFormed = false ∧ (Instr.memCfgLock 0 4).wellFormed = false ∧
    (Instr.dramScrubRead 0 0 0 { store := 15 } .clean false).wellFormed = false ∧ (Instr.scrubRead 0 { store := 8 } .clean false).wellFormed = false := by decide
theorem test_wf_spire : (Instr.tileClaim 0 0 0 128 .clean .issue).wellFormed = false ∧ (Instr.tileStart 0 0 5 {}).wellFormed = false ∧
    (Instr.mmvExecute 0 128 .clean 0).wellFormed = false ∧ (Instr.periodicSelftest 0 (.sne 0 4)).wellFormed = false := by decide
theorem test_wf_sensors : (Instr.csi2PacketReceive 0 8 {}).wellFormed = false ∧ (Instr.sensorFrameStart 0 16 0).wellFormed = false ∧
    (Instr.rfeLineRead 0 16 .clean).wellFormed = false ∧ (Instr.sensorPortFailure 0 (.port 8)).wellFormed = false ∧
    (Instr.scuReqWrite 0 12 0 []).wellFormed = false ∧ (Instr.i3cTransactionComplete 0 8 false []).wellFormed = false ∧
    (Instr.i3cInBandInterrupt 0 0 128).wellFormed = false ∧ (Instr.imuSample 0 0 0 [] []).wellFormed = false ∧
    (Instr.rfePsetSubmitWrite 0 0 16 0 []).wellFormed = false ∧ (Instr.tapRowGroupWrite 0 0 4 [] .none).wellFormed = false ∧
    (Instr.sensorPortLock 0 8).wellFormed = false := by decide
theorem test_wf_engines : (Instr.rowGroupDeadline 0 16).wellFormed = false ∧ (Instr.sneUnitStart 0 4).wellFormed = false ∧
    (Instr.visionParityError 0 6).wellFormed = false := by decide
theorem test_wf_host : (Instr.bar4Access 0 0 0 (.read .clean)).wellFormed = false ∧ (Instr.pciBar4BaseWrite 0 (2 ^ 64)).wellFormed = false ∧
    (Instr.registerWrite 0 true .bar0 (2 ^ 24) (.read 4)).wellFormed = false ∧ (Instr.pcieCompletionTimeout 0 (.fetch 16)).wellFormed = false := by decide
theorem test_wf_peers : (Instr.peerTrainingComplete 0 3 0 4 false).wellFormed = false ∧ (Instr.portUp 0 16).wellFormed = false ∧
    (Instr.peerFlitError 0 3).wellFormed = false ∧ (Instr.remoteSignal 0 0 1024 1).wellFormed = false ∧
    (Instr.remoteCounterOp 0 0 0 (2 ^ 32) .clean).wellFormed = false ∧ (Instr.peerRemoteAccess 0 0 0 0 (.read .clean)).wellFormed = false := by decide
theorem test_wf_field : (Instr.linkAck 0 []).wellFormed = false ∧ (Instr.watchdogExpiry 0 6).wellFormed = false ∧
    (Instr.limitTrip 0 4 true).wellFormed = false := by decide
theorem test_wf_power : (Instr.temperatureSample 0 []).wellFormed = false ∧ (Instr.throttleStep 0 8).wellFormed = false ∧
    (Instr.dvfsChange 0 0 5).wellFormed = false ∧ (Instr.dvfsVoutSettled 0 0 65536).wellFormed = false ∧ (Instr.voltageSample 0 []).wellFormed = false ∧
    (Instr.unitUngateComplete 0 (.vis 6)).wellFormed = false ∧ (Instr.calibrationApply 0 18).wellFormed = false := by decide

/-! ## Small states -/

/-- At time 0 no time passes. -/
theorem at_zero (s : State) : s.at 0 = s := by simp [State.at]

/-- The block at reset with commands waiting. -/
def block (q : List Instr) : State := { State.reset with pending := q }

/-- READY, out of reset, the link up, Hokudan and Belfry running, at 10 s. -/
def ready : State :=
  { pci := { state := .ready, hokudan := true, linkUp := true }, resets := { held := [] }, clock := { timebase := 10000000000, devtime := 10000000000 }
    bf := { ready := true, lockstepOk := true } }

/-- A request on mailbox pair 0, taken and not yet begun. -/
def asking (s : State) (op : Nat) (payload : Bytes) : State :=
  { s with pci := { s.pci with pairs := s.pci.pairs.mod 0 fun q =>
    { q with enabled := true, enable := true, cur := some { opcode := op, payload := payload } } } }

/-- The request as the block sees it. -/
def asks (s : State) (op : Nat) (payload : Bytes) : Prop :=
  (asking s op payload).req? 0 op = some { opcode := op, payload := payload }

/-- The block in reset, held by the pins alone. -/
def heldBy (h : List ResetHold) : State := { ready with resets := { held := h } }

/-! ## Witnesses -/

theorem wit_StepRunsFrontCommand : (block [.periodicSelftest 0 (.core 0)]).pending = [.periodicSelftest 0 (.core 0)] := by decide
theorem wit_steps : ∃ s', step (block [.periodicSelftest 0 (.core 0)]) = .next s' := ⟨_, rfl⟩
theorem wit_MemoryStaysCanonical : (block [.periodicSelftest 0 (.core 0)]).MemWf := ⟨rfl, rfl⟩
theorem wit_TimebaseNeverRunsBack : ∃ s', step (block [.ppsLoss 40]) = .next s' := ⟨_, rfl⟩
theorem wit_QueueTakenInOrder : (∃ s', step (block [.ppsLoss 40]) = .next s') ∧ (block []).pending = [] := ⟨⟨_, rfl⟩, rfl⟩
theorem wit_FieldDieKeepsItself : onFieldDie (.powerOnReset 0) = false ∧ ∃ s', exec (.powerOnReset 0) (block []) = .next s' := ⟨rfl, _, rfl⟩
theorem wit_FusesOnlyBlown : ∃ s', step (block [.jtagDebugCommand 0]) = .next s' := ⟨_, rfl⟩
theorem wit_EnablesFollowState : (block [.lanternResetEntry 0]).lantern.Safe ∧ ∃ s', step (block [.lanternResetEntry 0]) = .next s' :=
  ⟨Lantern.reset_safe, _, rfl⟩

/-- Two slots and rings as at reset: RSP_LOG2 1 and REQ_LOG2 8 are the ends of the range of sizes. -/
theorem wit_HostPairWrites_enable : ready.hostReach = true ∧ (ready.pci.pairs.at 15).enabled = false ∧ (ready.pci.pairs.at 15).enable = false ∧
    bits 0x18 4 4 = 1 ∧ bits 0x18 0 4 = 8 := by decide
theorem wit_HostPairWrites_disable : ((asking ready 1 []).modPair 0 fun q => { q with cur := none }).hostReach = true ∧
    ((((asking ready 1 []).modPair 0 fun q => { q with cur := none }).pci.pairs.at 0).enabled = true ∧
      (((asking ready 1 []).modPair 0 fun q => { q with cur := none }).pci.pairs.at 0).cur = none) ∧ bits 0x11 4 4 = 1 ∧ bits 0x11 0 4 = 1 := by decide
theorem wit_ResponseWritten : (asking ready 1 []).pci.pairs.at 0 = { enabled := true, enable := true, cur := some { opcode := 1 } } ∧
    memWf (asking ready 1 []).mem.host = true ∧ 0 < ((asking ready 1 []).pci.pairs.at 0).rspFree ∧ (asking ready 1 []).hostWritable = true ∧
    (zeros 4076).length = 4076 := by decide +kernel
theorem wit_InterruptSentOnce : bit ready.pci.cause 63 = false ∧ (ready.pci.msix.at 63).masked = true ∧
    (({ ready with pci := { ready.pci with msix := ready.pci.msix.mod 0 fun e => { e with masked := false } } } : State).pci.msix.at 0).masked = false := by decide
theorem wit_HostRegisterWrites : ready.hostReach = true ∧ ready.resets.held = [] ∧ bit 0x80000000 31 = true ∧ ([1, 2, 3, 4] : Bytes).length = 4 := by decide

/-- A request whose slot holds `h`: READY, pair 0 enabled with one slot waiting. -/
def waiting (h : Bytes) (st : DevState) : State :=
  { ready with pci := { ready.pci with state := st, pairs := ready.pci.pairs.mod 0 fun q => { q with enabled := true, enable := true, reqTail := 1, expect := some 0 } }
               mem := { ready.mem with host := memWrite [] 0 h } }
/-- A header: OPCODE, LENGTH, SEQ, TAG, FLAGS. -/
def head (op len seq flags : Nat) : Bytes := leBytes 2 op ++ leBytes 2 len ++ leBytes 4 seq ++ leBytes 4 0 ++ leBytes 4 flags
/-- What the taking of the request in `waiting` looks at. -/
def taken (h : Bytes) (st : DevState) : Option Nat × Bytes × Nat × Nat × Option Nat × Bool :=
  let s := waiting h st
  let r := s.slotRequest 0
  (s.nextTake, sub r.1 2 2, r.2.opcode, r.2.seq, (s.pci.pairs.at 0).expect, s.mailboxesServed)
theorem wit_RequestsTaken_length : taken (head 1 4081 0 0) .ready = (some 0, leBytes 2 4081, 1, 0, some 0, true) := by decide +kernel
theorem wit_RequestsTaken_flags : taken (head 1 0 0 1) .ready = (some 0, leBytes 2 0, 1, 0, some 0, true) ∧
    fld ((waiting (head 1 0 0 1) .ready).slotRequest 0).1 12 4 = 1 := by decide +kernel
theorem wit_RequestsTaken_seq : taken (head 1 0 7 0) .ready = (some 0, leBytes 2 0, 1, 7, some 0, true) := by decide +kernel
theorem wit_RequestsTaken_opcode : taken (head 0x7777 0 0 0) .ready = (some 0, leBytes 2 0, 0x7777, 0, some 0, true) ∧ opKnown 0x7777 = false := by decide +kernel
theorem wit_RequestsTaken_state : opKnown 0x10 = true ∧ opServed .fatal 0 0x10 = false ∧ opAlways 0x10 = false := by decide
theorem wit_RequestsTaken_held : taken (head 0x10 0 0 0) .booting = (some 0, leBytes 2 0, 0x10, 0, some 0, true) := by decide +kernel
theorem wit_RequestsTaken_refused : taken (head 0x10 0 0 0) .fatal = (some 0, leBytes 2 0, 0x10, 0, some 0, true) := by decide +kernel
theorem wit_RequestsTaken_served : opServed .ready 0 1 = true ∧ lengthOk 1 [] = true ∧ lengthOk 1 [0] = false ∧
    taken (head 1 0 0 0) .ready = (some 0, leBytes 2 0, 1, 0, some 0, true) := by decide +kernel
/-- No other pair has a request. -/
theorem wit_RequestsTaken_alone : ∀ k, k ≠ 0 → ((waiting (head 1 0 0 0) .ready).pci.pairs.at k).cur = none := by
  intro k _
  by_cases h : k < 16
  · have : ∀ c < 16, ((waiting (head 1 0 0 0) .ready).pci.pairs.at c).cur = none := by decide +kernel
    exact this k h
  · simp [Tab.at, h]; rfl

theorem wit_ManagementRequestsAnswered : (asking ready 1 []).req? 0 1 = some { opcode := 1 } ∧ (asking ready 2 []).req? 0 2 = some { opcode := 2 } ∧
    (asking ready 0x40 []).req? 0 0x40 = some { opcode := 0x40 } ∧ (asking ready 3 (zeros 8)).req? 0 3 = some { opcode := 3, payload := zeros 8 } ∧
    (asking ready 0x15 [255, 15, 0, 0]).req? 0 0x15 = some { opcode := 0x15, payload := [255, 15, 0, 0] } ∧
    (asking ready 0x41 [1, 126, 0, 0, 0, 0, 0, 0]).req? 0 0x41 = some { opcode := 0x41, payload := [1, 126, 0, 0, 0, 0, 0, 0] } := by decide
/-- The payloads of the four kinds, with VALUE at the end of the slew's range. -/
theorem wit_DevtimeCommands : ready.hostReach = true ∧ (∀ k < 4, (asking ready 0x43 ([BitVec.ofNat 8 k] ++ zeros 7 ++ leBytes 8 500000)).req? 0 0x43 =
    some { opcode := 0x43, payload := [BitVec.ofNat 8 k] ++ zeros 7 ++ leBytes 8 500000 } ∧
    allZero (sub ([BitVec.ofNat 8 k] ++ zeros 7 ++ leBytes 8 500000) 1 7) = true) ∧ toSigned 64 500000 = 500000 := by decide +kernel
/-- PPS discipline on, with DEVTIME at `d`. -/
def disciplined (d : Nat) : State := { ready with clock := { timebase := 10000000000, devtime := d, ppsOn := true } }
theorem wit_PpsDiscipline : ready.resets.held = [] ∧ ready.clock.ppsOn = false ∧ (disciplined 998999999).clock.ppsOn = true ∧
    (disciplined 998999999).clock.slewEnd = none ∧ (disciplined 998999999).clock.devtime % 1000000000 = 998999999 ∧
    (disciplined 500000000).clock.devtime % 1000000000 = 500000000 ∧ (disciplined 499999999).clock.devtime % 1000000000 < 500000000 ∧
    (disciplined 0).clock.ppsLast + 2000000000 ≤ (disciplined 0).clock.timebase ∧ (disciplined 0).clock.ppsLost = false := by decide
theorem wit_ClocksLost : ({ ready with power := { ready.power with xtal := true } } : State).power.xtal = true := by decide

/-- READY with Steeple 7 as given. -/
def steeple (k : Steeple) (pmbus : Bool) : State :=
  { ready with power := { ready.power with steeples := ready.power.steeples.mod 7 fun _ => k }, flash := { ready.flash with profile := { pmbus := pmbus } } }
theorem wit_OperatingPoints : ready.active = true ∧ (steeple { gated := false } false).power.steeples.at 7 = { gated := false } ∧
    (steeple { gated := false, point := 4 } true).power.steeples.at 7 = { gated := false, point := 4 } ∧
    (steeple { gated := false, change := .vout 0 10000000000 } true).power.steeples.at 7 = { gated := false, change := .vout 0 10000000000 } ∧
    ready.clock.timebase ≤ 10000000000 + 200000 ∧ 9999700000 + 200000 < ready.clock.timebase ∧ ready.pointMv 0 = 750 ∧
    ready.watch.rising = [] ∧ (steeple {} true).flash.profile.pmbus = true := by decide
/-- A throttled Steeple at P3 whose last step was 10 ms ago. -/
theorem wit_OperatingPoints_throttle :
    ({ ready with watch := { ready.watch with throttled := [(7, 9990000000)] } } : State).watch.throttled = [(7, 9990000000)] ∧
    9990000000 + 10000000 ≤ ready.clock.timebase ∧ ({ gated := false, point := 3 } : Steeple).point < 4 := by decide
theorem wit_MonitorsAct : ready.resets.held = [] ∧ (List.replicate 31 (0 : Int) ++ [920]).length = 32 ∧ (∃ v ∈ List.replicate 31 (0 : Int) ++ [920], 920 ≤ v) ∧
    (∀ v ∈ List.replicate 32 (759 : Int), v < 760) ∧ ready.pci.hokudan = true ∧ ready.watch.warn = 95 ∧ ready.watch.throttle = 103 ∧
    ready.watch.warned = [] ∧ ready.watch.throttled = [] ∧ ready.watch.rising = [] ∧
    ({ ready with power := { ready.power with refMissing := true } } : State).power.refMissing = true ∧ (List.replicate 13 750).length = 13 := by decide
/-- The rail of Steeple 0 at both ends of its window of 5 %. -/
theorem wit_MonitorsAct_window : ready.setPoint 0 = 750 ∧ 750 * 19 ≤ 713 * 20 ∧ 787 * 20 ≤ 750 * 21 := by decide
theorem wit_GatesOpen : ready.power.ungating.contains (.steeple 7) = false ∧ (∀ u ∈ [GateUnit.steeple 7, .sne 3, .rfe 15, .vis 5],
    ({ ready with power := { ready.power with ungating := [u] } } : State).power.ungating.contains u = true) := by decide
theorem wit_ResetSourcesHold : ready.resets.held = [] := by decide
theorem wit_ResetReleasedLast : ∀ h ∈ [ResetHold.pins, .supply, .clock], ready.resets.held.contains h = false ∧ (heldBy [h]).resets.held.contains h = true ∧
    (heldBy [h]).resets.held.filter (· ≠ h) = [] ∧ (heldBy [h, .trip]).resets.held.contains h = true ∧
    (heldBy [h, .trip]).resets.held.filter (· ≠ h) ≠ [] := by decide
theorem wit_ResetsByCommand : (∀ k < 2, (asking ready 4 [BitVec.ofNat 8 k, 0, 0, 0]).req? 0 4 = some { opcode := 4, payload := [BitVec.ofNat 8 k, 0, 0, 0] }) ∧
    ready.resets.held = [] ∧ ready.pci.linkUp = true ∧ ready.pci.state ≠ .recovery ∧ ready.pci.state ≠ .fatal := by decide
/-- The boot ROM at slot `k` with blank flash, or with a staged image asked for. -/
def booting (k : Nat) (g : Option StagedBoot) : State :=
  { resets := { held := [] }, watch := { booting := some k, ret := { staged := g } } }
/-- The smallest image of R460: key slot 0, one section of 8 bytes, FW_VERSION 5, SVN 7, signed with the private key 1 and the nonce 1; hashes and
signature computed outside the model. -/
def image : Bytes :=
  leBytes 4 0x54574C53 ++ [1, 0, 0, 0] ++ leBytes 4 1024 ++ [5, 0, 0, 0, 7, 0, 0] ++ zeros 13
    ++ beBytes 32 0x076a27c79e5ace2a3d47f9dd2e83e4ff6ea8872b3c2218f66c92b89b55f36560 ++ beBytes 32 g256.1 ++ beBytes 32 g256.2
    ++ leBytes 4 0x200 ++ leBytes 4 8 ++ zeros 120
    ++ beBytes 32 0x6b17d1f2e12c4247f8bce6e563a440f277037d812deb33a0f4a13945d898c296 ++ beBytes 32 0xc4d6e6c40e1d38bce99feba042032264290e062ef2249282326950c34b2c7e4b
    ++ zeros 704
/-- Fuses with the hash of that key in slot 0 and an anti-rollback value of 7. -/
def keyed : Fuses := { keyHash := [beBytes 32 0xd875db7def232236aec738c6b0bb3e80142f5d0fd8f4df24fed6eef5cbb50d9f], svn := 7 }
theorem test_image_verifies : imageStatus keyed.keyHash keyed.revoked keyed.svn image = 0 := by decide +kernel
theorem test_image_rolled_back : imageStatus keyed.keyHash keyed.revoked 8 image = 0x0A05 := by decide +kernel
theorem wit_BootVerifiesInOrder_passes : ({ booting 1 none with fuses := keyed } : State).verify image = 0 ∧
    ({ booting 1 none with fuses := keyed, flash := { slots := [[], image] } } : State).flash.slots.getD 1 [] = image :=
  ⟨test_image_verifies, rfl⟩
theorem wit_BootVerifiesInOrder_fails : (∀ k < 3, (booting k none).resets.held = [] ∧ (booting k none).watch.booting = some k) ∧
    (booting 0 none).verify [] ≠ 0 ∧ (booting 2 (some { addr := 0, len := 0 })).watch.ret.staged = some { addr := 0, len := 0 } ∧
    (booting 2 none).verify ((memRead (booting 2 none).mem.cells 0 0).take (imgBytes (memRead (booting 2 none).mem.cells 0 0))) ≠ 0 := by decide +kernel

/-- Hokudan running in BOOTING, with memory interface 0 populated in the flash profile. -/
def starting : State :=
  { pci := { hokudan := true }, resets := { held := [] }, flash := { profile := { mem := [(true, false, 0, 2)] } }, watch := { slot := 0 } }
theorem wit_FirmwareReadyStarts : starting.pci.state = .booting ∧ starting.pci.hokudan = true ∧ starting.resets.held = [] ∧ starting.watch.booting = none ∧
    starting.watch.slot ≠ 0xFF ∧ ({ starting with watch := { starting.watch with slot := 0xFF } } : State).watch.slot = 0xFF ∧ starting.watch.everReady = false ∧ StartFail.memory 0 ∈ [StartFail.memory 0] ∧ (cfgOf starting.flash.profile 0).populated = true ∧
    ready.pci.state ≠ .booting := by decide
/-- READY with one populated interface. -/
def dram : State := { ready with mem := { ready.mem with cfg := ready.mem.cfg.mod 0 fun k => { k with populated := true, capacity := 1 } } }
/-- The last aligned offset of the staging area, one past it, and a misaligned one. -/
theorem wit_FirmwareUpdates_write : 0x40_0000 ≤ dram.dramEnd ∧ dram.pci.state = .ready ∧ ∀ off ∈ [0x3F_FFF8, 0x40_0000, 4],
    (asking dram 0x50 (leBytes 4 off ++ zeros 4 ++ zeros 8)).req? 0 0x50 = some { opcode := 0x50, payload := leBytes 4 off ++ zeros 4 ++ zeros 8 } ∧
    allZero (sub (leBytes 4 off ++ zeros 4 ++ zeros 8) 4 4) = true := by decide +kernel
/-- A staged image that passes, committed to slot B from RECOVERY, where the staging area lies in the scratchpad. -/
def commits (b : Bytes) (len : Nat) : State :=
  asking { ready with pci := { ready.pci with state := .recovery }, fuses := keyed, mem := { ready.mem with cells := memWrite [] scratchBase b } } 0x51
    (leBytes 1 1 ++ zeros 3 ++ leBytes 4 len)
theorem wit_FirmwareUpdates_request : ∀ len ∈ [1024, 1028, 0x40_0000], (commits [] len).req? 0 0x51 = some { opcode := 0x51, payload := leBytes 1 1 ++ zeros 3 ++ leBytes 4 len } := by
  decide +kernel
theorem wit_FirmwareUpdates_staged : memRead (memWrite [] scratchBase image) scratchBase 1024 = image := by
  have h : ∀ n, image.length = n → memRead (memWrite [] scratchBase image) scratchBase n = image := by
    intro n e; subst e; exact memRead_memWrite (m := []) rfl scratchBase image
  exact h 1024 (by decide +kernel)
theorem wit_FirmwareUpdates_image : (commits image 1024).staging = scratchBase ∧ imgBytes image = 1024 ∧ imageStatus ({} : Fuses).keyHash 0 0 image ≠ 0 := by decide +kernel
theorem wit_FirmwareUpdates_idle (b : Bytes) : (commits b 1024).mem.cells = memWrite [] scratchBase b ∧ (commits b 1024).fuses = keyed ∧
    (commits b 1024).flash.writing = [] ∧ (commits b 1024).flash.repairDue = false := ⟨rfl, rfl, rfl, rfl⟩
theorem wit_FirmwareUpdates_length : imgBytes (memRead ready.mem.cells ready.staging 1024) ≠ 1024 := by decide +kernel
theorem wit_FirmwareUpdates_written : ready.resets.held = [] ∧ 2 ≤ ready.watch.slot ∧
    ({ ready with flash := { ready.flash with writing := [.commit (some 0) 1 image] } } : State).flash.writing = [.commit (some 0) 1 image] := ⟨rfl, by decide, rfl⟩
theorem wit_DebugCommands : ready.fuses.debugOpen = false ∧ ({ ready with fuses := { debugOpen := true } } : State).fuses.debugOpen = true := by decide

/-- READY with every class of block enabled: a port, an egress port, a memory interface, a peer port. -/
def enabled (k : CalBlock) (b : Nat) : State :=
  { ready with ports := ready.ports.mod 7 fun p => { p with enable := true }, egress := ready.egress.mod 0 fun p => { p with enable := true }
               mem := { ready.mem with cfg := ready.mem.cfg.mod 3 fun p => { p with populated := true } }
               peer := ready.peer.mod 0 fun p => { p with enabled := true }, power := { ready.power with blocks := ready.power.blocks.mod b fun _ => k } }
/-- A lane in use and a result that passes, and one whose code moves by 5. -/
def passing : CalResult := { lane := 0, codes := [4], quality := 255, height := 255, inUse := 0, inUseHeight := 0 }
theorem wit_CalibrationRuns : (∀ b ∈ [7, 8, 13, 14, 17], (enabled {} b).calibrating = true ∧ (enabled {} b).calEnabled b = true) ∧
    (enabled {} 7).seedOf 7 = none ∧ (enabled {} 7).power.blocks.at 7 = {} ∧ (enabled { live := true, running := true } 7).power.blocks.at 7 = { live := true, running := true } ∧
    calPasses 7 { codes := [0] } passing = true ∧ calPasses 7 { codes := [0] } { passing with codes := [5] } = false ∧
    (enabled { waiting := some (0, [(0, {})], []) } 7).power.blocks.at 7 = { waiting := some (0, [(0, {})], []) } ∧
    (enabled { live := true, lanes := [(0, { retryAt := some 10000000000 })] } 7).power.blocks.at 7 =
      { live := true, lanes := [(0, { retryAt := some 10000000000 })] } ∧ (10000000000 : Nat) ≤ ready.clock.timebase ∧ ready.power.refMissing = false ∧
    ({ ready with power := { ready.power with refMissing := true } } : State).power.refMissing = true := by decide +kernel
theorem wit_CalibrationNoGapDiscards : ready.calibrating = true ∧ ((enabled { waiting := some (9000000000, [], []) } 13).power.blocks.at 13).waiting = some (9000000000, [], []) ∧
    9000000000 + 1000000000 ≤ ready.clock.timebase ∧ ready.clock.timebase < 9000000001 + 1000000000 := by decide
/-- A block of class `c` and unit `u` as CAL_WRITE takes it, with its CRC. -/
def calBlock (c u : Nat) : Bytes :=
  let head := leBytes 1 c ++ leBytes 1 u ++ [1, 2] ++ zeros 24
  head ++ leBytes 4 (crc32 (head ++ zeros 224)) ++ zeros 224
theorem wit_CalibrationStored_read : ready.calRefusal 0 7 7 (calBlock 0 7) = 0 ∧ calBlockOf 0 7 = some 7 ∧ calBlockOf 0 8 = none ∧ calBlockOf 4 0 = some 17 ∧
    (asking ready 0x62 [0, 7, 0, 0]).req? 0 0x62 = some { opcode := 0x62, payload := [0, 7, 0, 0] } := by decide +kernel
theorem wit_CalibrationStored_write : ready.calRefusal 2 3 13 (calBlock 2 3) = 0 ∧ ready.calRefusal 0 7 7 (calBlock 0 6) = 2 ∧ (enabled {} 7).calRefusal 0 7 7 (calBlock 0 7) = 1 ∧
    calBlockOf 2 3 = some 13 ∧ (∀ x ∈ [calBlock 0 7, calBlock 2 3, calBlock 4 0], sub ([fld x 0 1, fld x 1 1, 0, 0].map (BitVec.ofNat 8) ++ x) 4 256 = x) := by decide +kernel
theorem wit_CalibrationStored_request : ∀ c ∈ [0, 2, 4], (asking ready 0x63 ([BitVec.ofNat 8 c, 0, 0, 0] ++ calBlock c 0)).req? 0 0x63 =
    some { opcode := 0x63, payload := [BitVec.ofNat 8 c, 0, 0, 0] ++ calBlock c 0 } := by decide +kernel
theorem wit_MaintenanceWindows : (enabled {} 0).memRuns 3 = true ∧ ({ enabled {} 0 with power := { ready.power with zq := ready.power.zq.mod 3 fun _ => true } } : State).power.zq.at 3 = true := by
  decide

/-- The program of a context: number, graph, type, waits, CONTROL, DEADLINE, units, work list, INLINE. -/
def program (i g ty : Nat) (waits : List Nat) (control deadline units work : Nat) (inline : Bytes) : Bytes :=
  leBytes 4 (i + g * 4096 + ty * 2 ^ 20 + waits.length * 2 ^ 24) ++ leBytes 4 control ++ leBytes 4 deadline ++ zeros 4 ++ padTo 64 (waits.flatMap (leBytes 4))
    ++ leBytes 16 units ++ leBytes 8 work ++ zeros 24 ++ padTo 64 inline
/-- READY with one graph of number 255, its copies as given, and one context, number 4095. -/
def graphed (q : Graph) (c : Ctx) (bs : List (Nat × Beacon)) : State :=
  { ready with bf := { ready.bf with graphs := [(255, q)], ctxs := [(4095, c)], beacons := bs } }
/-- A running DMA node, and a ready one, on engine 3. -/
def dmaNode (st : NodeState) (control : Nat) (waits : List Nat) : Ctx := { prog := program 4095 255 5 waits control 1 3 0 [], state := st }
/-- A NOP node. -/
def nopNode (st : NodeState) : Ctx := { prog := program 4095 255 9 [] 1 0 0 0 [], state := st }
/-- One copy in flight since 5 s, and one free. -/
def flying : Graph := { copies := [some { anchorTime := 5000000000 }] }
def timed (last : Nat) : Graph :=
  { copies := [none], timerLast := some last, image := { contexts := [{ bytes := putBytes (program 4095 255 9 [] 1 0 0 0 []) 0x70 (leBytes 8 (3 + 1000 * 256)) }] } }
def halfFree : Graph := { copies := [some {}, none] }

theorem wit_AnchorsSkipOrStart : aGet (graphed flying (nopNode .idle) []).bf.graphs 255 = some flying ∧ (graphed flying (nopNode .idle) []).active = true ∧
    (graphed flying (nopNode .idle) []).bf.halted = false ∧ (nopNode .idle).enable = true ∧ (∀ c ∈ flying.copies, c ≠ none) ∧
    (flying.parked || flying.stopped) = false ∧ flying.drain = .none ∧ (halfFree.parked || halfFree.stopped) = false ∧ halfFree.drain = .none ∧
    halfFree.copies[1]? = some none ∧ flying.anchorAt ready.clock.timebase = some 10000000000 := by decide +kernel
/-- A graph of a timer of 1,000 ns whose last anchor stands 1,000 ns ago, and 4 ns less. -/
theorem wit_AnchorsSkipOrStart_timer :
    (timed 9999999000).anchorAt ready.clock.timebase = some 10000000000 ∧ (timed 9999999004).anchorAt ready.clock.timebase = none := by decide +kernel
theorem wit_InstanceStartsWaiting : (graphed flying (nopNode .idle) []).ctx? 4095 = some (nopNode .idle) ∧ (nopNode .idle).graph = 255 ∧ (nopNode .idle).copy = 0 := by
  decide +kernel
/-- A wait of one count on beacon 16383, taken, observed, and not met. -/
theorem wit_DispatchTakesCounts_starts : let c := dmaNode .ready 1 [16383]
    c.waits = [{ beacon := 16383, observe := false, count := 1 }] ∧ c.type = 5 ∧ c.draining = false ∧
    (graphed flying c [(16383, { a := 1, b := 1, c := 1 })]).waitsMet c = true ∧ (graphed flying c [(16383, { a := 1, b := 1, c := 1 })]).mayStart 4095 c = true ∧
    (graphed flying c []).waitsMet c = false := by decide +kernel
theorem wit_DispatchTakesCounts_observes : (dmaNode .ready 1 [16383 + 16384]).waits = [{ beacon := 16383, observe := true, count := 1 }] := by decide +kernel
theorem wit_DispatchTakesCounts_done : (graphed flying (nopNode .ready) []).waitsMet (nopNode .ready) = true ∧
    (graphed flying (nopNode .ready) []).mayStart 4095 (nopNode .ready) = true ∧ (nopNode .ready).type = 9 := by decide +kernel
/-- The engine is taken by another node. -/
theorem wit_DispatchTakesCounts_waits : let c := dmaNode .ready 1 []
    let s : State := { graphed flying c [] with bf := { (graphed flying c []).bf with ctxs := [(4094, dmaNode .running 1 []), (4095, c)] } }
    s.waitsMet c = true ∧ s.mayStart 4095 c = false ∧ s.ctx? 4095 = some c := by decide +kernel
/-- A beacon at 65,534 to which 1 and 2 are added. -/
theorem wit_SignalsAdd : let s := graphed { flying with image := { beacons := [{ index := 16383 }] } } (nopNode .idle) [(16383, { a := 65534, b := 65534, c := 65534 })]
    s.active = true ∧ s.bf.halted = false ∧ s.bf.fatal = false ∧ s.beacon 16383 = { a := 65534, b := 65534, c := 65534 } ∧ s.beaconOwner 16383 = some 255 := by decide +kernel
theorem wit_NodesEnd : (graphed flying (dmaNode .running 1 []) []).ctx? 4095 = some (dmaNode .running 1 []) := by decide +kernel
theorem wit_NodesCompleteFaultOrMiss_done : let c := { nopNode .running with state := .running }
    (graphed flying c []).ctx? 4095 = some c ∧ (graphed flying c []).active = true ∧ c.draining = false ∧ c.isSource = false ∧ (graphed flying c []).workDone 4095 c = true := by
  decide +kernel
/-- The three policies, CANCELLABLE set, 1 ns after the anchor's instant plus the deadline and before it. -/
theorem wit_NodesCompleteFaultOrMiss_deadline : ∀ policy < 3, let c := dmaNode .running (3 + 4 * policy) []
    c.missPolicy = policy ∧ c.cancellable = true ∧ c.missed = false ∧ (graphed flying c []).absDeadline c = some 5000000001 ∧
    5000000001 < (graphed flying c []).clock.timebase ∧ (graphed { copies := [some { anchorTime := 9999999999 }] } c []).absDeadline c = some 10000000000 := by decide +kernel
theorem wit_NodesCompleteFaultOrMiss_fused : aGet ({ graphed flying (dmaNode .running 1 []) [] with
    bf := { ready.bf with fused := [(4095, { passed := [0] })] } } : State).bf.fused 4095 = some { passed := [0] } ∧ 0 < [0].length := by decide
/-- CANCEL's payload: scope, graph, copy, reserved, node. -/
def cancels (scope : Nat) : Bytes := [BitVec.ofNat 8 scope, 255, 0, 0, 255, 15, 0, 0]
theorem wit_CancelsByScope_request : ∀ scope < 3, (asking (graphed flying (dmaNode .running 1 []) []) 0x14 (cancels scope)).req? 0 0x14 =
    some { opcode := 0x14, payload := cancels scope } ∧ fld (cancels scope) 0 1 = scope ∧ fld (cancels scope) 1 1 = 255 ∧ fld (cancels scope) 4 2 = 4095 := by decide +kernel
theorem wit_CancelsByScope_node : ∀ control ∈ [1, 3], let c := dmaNode .running control []
    aGet (graphed flying c []).bf.graphs 255 = some flying ∧ (graphed flying c []).ctx? 4095 = some c ∧ c.graph = 255 ∧ c.cancellable = (control == 3) ∧
    flying.parked = false ∧ 0 < flying.copies.length ∧ aGet (graphed flying c []).bf.graphs 254 = none := by decide +kernel
theorem wit_CancelsByScope_drain : let c := { dmaNode .running 1 [] with draining := true }
    (graphed flying c []).ctx? 4095 = some c ∧ (graphed flying c []).active = true ∧ c.draining = true ∧ flying.inFlight = true ∧
    ({ copies := [none], drain := .park 0 } : Graph).inFlight = false ∧ ({ copies := [none], drain := .stop 0 } : Graph).drain = .stop 0 := by decide +kernel
/-- A camera tap's group with one receiver of two slots: policy, hold limit. -/
def mcGroup (policy hold : Nat) (v : McRecv) : McGroup :=
  { graph := 255, recvs := [v]
    desc := [BitVec.ofNat 8 policy, 0] ++ leBytes 2 hold ++ [1] ++ zeros 27 ++ leBytes 8 (0x40_0000_0000 + 2 ^ 40) ++ leBytes 4 128 ++ leBytes 2 7 ++ leBytes 2 8 ++ zeros 112 }
/-- A group in a READY device with `k` credits. -/
def delivering (q : McGroup) (k : Nat) : State :=
  { graphed flying (nopNode .idle) [(8, { a := k, b := k, c := k })] with bf := { (graphed flying (nopNode .idle) [(8, { a := k, b := k, c := k })]).bf with groups := [(255, q)] } }
/-- No credit under each policy, a hold limit of 0, and one credit. -/
theorem wit_MulticastDelivers_unit : ∀ policy < 3, ∀ hold ∈ [0, 1], ∀ k ∈ [0, 1], let v : McRecv := { todo := [{}] }
    let q := mcGroup policy hold v
    (delivering q k).recv? 255 0 = some (q, v) ∧ (delivering q k).active = true ∧ q.policy = policy ∧ q.holdLimit = hold ∧ q.isTap = true ∧ q.turnOf v = true ∧ v.gaps = [] ∧
    q.awaiting 0 v = [0] ∧ (delivering q k).lagging q 0 v = (if k = 0 then [0] else []) ∧ (delivering q k).beaconValue (q.creditBeacon 0) = k := by decide +kernel
theorem wit_MulticastDelivers_gap : let v : McRecv := { gaps := [{}] }
    (delivering (mcGroup 0 1 v) 1).recv? 255 0 = some (mcGroup 0 1 v, v) ∧ (delivering (mcGroup 0 1 v) 1).beaconValue ((mcGroup 0 1 v).creditBeacon 0) = 1 ∧ (delivering (mcGroup 0 1 v) 0).beaconValue ((mcGroup 0 1 v).creditBeacon 0) = 0 := by decide +kernel
/-- A node producer's group, one of whose receivers has an earlier unit to come than the other. -/
theorem wit_MulticastDelivers_turn : let v : McRecv := { todo := [{}] }
    let q : McGroup := { graph := 255, recvs := [v, { todo := [{}, {}] }], desc := putBytes (mcGroup 0 1 v).desc 4 [0] }
    (delivering q 1).recv? 255 0 = some (q, v) ∧ q.isTap = false ∧ q.turnOf v = false ∧
    (mcGroup 2 1 v).isTap = true ∧ flying.copies[0]? = some (some { anchorTime := 5000000000 }) ∧ findIdx (fun n : Option Instance => (n.map (·.frame)) == some 0) flying.copies 0 = some 0 := by decide +kernel
/-- A hold of 1 µs that began 1 µs ago, and one that began 4 ns later. -/
theorem wit_MulticastDelivers_hold : (∀ since ∈ [9999999000, 9999999004], let v : McRecv := { todo := [{}], holdFrom := some since }
    (delivering (mcGroup 2 1 v) 0).recv? 255 0 = some (mcGroup 2 1 v, v)) ∧ 9999999000 + 1 * 1000 ≤ ready.clock.timebase ∧ ready.clock.timebase < 9999999004 + 1 * 1000 := by
  decide +kernel
theorem wit_ScrubsTrapsAndFatal_fatal : ready.pci.state ≠ .fatal ∧ ({ ready with pci := { ready.pci with state := .fatal } } : State).pci.state = .fatal := by decide

/-- The protection unit opened to every initiator. -/
def opened (s : State) : State :=
  { s with watch := { s.watch with prt := [(0, { valid := true, read := true, write := true, initMask := 0, lastPage := 2 ^ 28 - 1 })] } }
/-- The last byte of the BAR4 window at reset, over 2 GiB of DRAM. -/
theorem wit_HostAndMemoryRequests_bar4 : dram.hostReach = true ∧ dram.resets.held = [] ∧ 0xFFF_FFFF + ([7] : Bytes).length ≤ dram.pci.bar4Size ∧
    dram.pci.bar4Base * 2 ^ 28 + 0xFFF_FFFF + 1 ≤ dram.dramEnd ∧ dram.dramEnd ≤ 0x10_0000_0000 ∧
    dram.allowed initPcie 0xFFF_FFFF 1 true = false ∧ dram.allowed initPcie 0xFFF_FFFF 1 false = false ∧
    (opened dram).allowed initPcie 0xFFF_FFFF 1 true = true ∧ (opened dram).hostReach = true := by decide
theorem wit_HostAndMemoryRequests_pairs : let s := { ready with pci := { ready.pci with pairs := ready.pci.pairs.mod 15 fun q => { q with enabled := true, reqTail := 1 } } }
    (s.pci.pairs.at 15).enabled = true ∧ 0 < (s.pci.pairs.at 15).waiting ∧ s.resets.held = [] ∧ ready.hostReach = true ∧
    ({ ready with pci := { ready.pci with d3hot := true } } : State).pci.d3hot = true := by decide
/-- SET_CACHE of 8 and of 9 eighths; a window of 1 GiB in entry 63; DMA_COPY on engine 11. -/
theorem wit_HostAndMemoryRequests_requests : (∀ n ∈ [8, 9], (asking ready 0x16 [BitVec.ofNat 8 n, 0, 0, 0]).req? 0 0x16 = some { opcode := 0x16, payload := [BitVec.ofNat 8 n, 0, 0, 0] }) ∧
    (asking ready 0x30 ([63, 3] ++ zeros 6 ++ leBytes 8 4096 ++ leBytes 8 0x4000_0000)).req? 0 0x30 =
      some { opcode := 0x30, payload := [63, 3] ++ zeros 6 ++ leBytes 8 4096 ++ leBytes 8 0x4000_0000 } ∧
    (asking ready 0x31 ([11] ++ zeros 135)).req? 0 0x31 = some { opcode := 0x31, payload := [11] ++ zeros 135 } ∧
    (dram.mem.cfg.at 0).populated = true ∧ dram.pci.state ≠ .fatal := by decide +kernel

/-- A stream of `n` bytes from `a`, and one that the manual's limits refuse (a reserved bit). -/
def stream (a n : Nat) : Bytes := leBytes 8 a ++ leBytes 2 (n - 1) ++ zeros 30 ++ leBytes 8 a ++ leBytes 8 n ++ zeros 8
/-- DMA_COPY on engine 11, begun, from the scratchpad's start to 4,096 bytes on. -/
def copying (src dst : Bytes) : State :=
  let s := asking (opened ready) 0x31 ([11] ++ zeros 7 ++ src ++ dst)
  { s with pci := { s.pci with pairs := s.pci.pairs.mod 0 fun q => { q with cur := q.cur.map fun r => { r with started := true } } } }
theorem wit_DmaEnginesMove_start : ((copying (stream scratchBase 64) (stream (scratchBase + 4096) 64)).nextPairOf 11 (.copy 0)).map (fun z => (z.1, z.2.1)) =
      some (stream scratchBase 64 ++ stream (scratchBase + 4096) 64, 0) ∧
    (streamOf (stream scratchBase 64)).invalid = false ∧ (streamOf (stream (scratchBase + 4096) 64)).invalid = false ∧ (streamOf (stream scratchBase 64)).gather = false ∧
    (copying (stream scratchBase 64) (stream (scratchBase + 4096) 64)).active = true ∧ (streamOf (putBytes (stream scratchBase 64) 6 [128])).invalid = true ∧
    (copying (stream scratchBase 64) (stream (scratchBase + 4096) 64)).mem.dma.at 11 = {} := by decide +kernel
/-- An engine with a work item. -/
def moving (it : DmaItem) : State := { opened ready with mem := { ready.mem with dma := ready.mem.dma.mod 14 fun d => { d with item := some it } } }
/-- The item of a copy of one chunk and one byte. -/
def item : DmaItem := { src := stream scratchBase 4097, dst := stream (scratchBase + 8192) 4097 }
theorem wit_DmaEnginesMove_issue : (moving item).mem.dma.at 14 = { item := some item } ∧ ((moving item).mem.dma.at 14).cancelDrain = false ∧
    (moving item).ownerShut item.owner ((moving item).fetches (streamOf item.src) scratchBase 256) = false ∧ freeTag item.reqs = some 0 ∧
    item.readIssued < (streamOf item.src).total ∧ (moving item).accessAll (initDma 14) ((moving item).fetches (streamOf item.src) scratchBase 256) false = 0 ∧
    ((streamOf item.src).addrOf [] 0).toNat = scratchBase ∧ (streamOf item.src).reqLen [] 0 4097 = 256 ∧
    ({ moving item with watch := ready.watch } : State).accessAll (initDma 14) ((moving item).fetches (streamOf item.src) scratchBase 256) false = 0x0A10 := by decide +kernel
/-- A chunk opened whose bytes are staged: its write may be issued. A port trained anew shuts out a graph admitted before. -/
theorem wit_DmaEnginesMove_write : let it := { item with readIssued := 4097, chunksOpen := 1 }
    (moving it).mem.dma.at 14 = { item := some it } ∧ freeTag it.reqs = some 0 ∧ it.writeIssued < it.openEnd ∧
    (moving it).ownerShut it.owner ((moving it).storeSpans (streamOf it.dst).coded 256 (scratchBase + 8192) 256) = false ∧
    (moving it).accessAll (initDma 14) ((moving it).storeSpans (streamOf it.dst).coded 256 (scratchBase + 8192) 256) true = 0 ∧
    ({ moving it with bf := (graphed flying (dmaNode .running 1 []) []).bf, peer := ready.peer.mod 2 fun y => { y with barred := [255] } } : State).ownerShut (.node 4095) [(0x80_0000_0000, 256)] = true := by decide +kernel
/-- One read in flight; every byte read; the last chunk written. -/
theorem wit_DmaEnginesMove_complete : let it := { item with reqs := [{ tag := 127, addr := scratchBase, len := 256 }] }
    (moving it).mem.dma.at 14 = { item := some it } ∧ ((moving it).fetches (streamOf item.src) scratchBase 256).all (fun r => !(moving it).isBad r.1 r.2) = true ∧
    ((moving item).readData (streamOf item.src) { tag := 127, addr := scratchBase, len := 256 } none).isSome = true ∧ (streamOf item.src).wcomp = false ∧
    (streamOf item.src).rawcomp = false ∧ regionOf 0x90_0000_0000 = .host ∧ (moving it).peerWaits [(scratchBase, 256)] = false ∧
    0 * 4096 < (streamOf item.dst).total ∧ min ((0 + 1) * 4096) (streamOf item.dst).total ≤ 4097 ∧
    1 * 4096 < (streamOf item.dst).total ∧ min ((1 + 1) * 4096) (streamOf item.dst).total ≤ 4097 ∧ (streamOf item.dst).total ≤ (1 + 1) * 4096 := by decide +kernel
theorem wit_DmaEnginesMove_last : let it := { item with readIssued := 4097, writeIssued := 4097, chunksOpen := 2, chunksDone := 1, owner := .node 4095 }
    let s : State := { moving it with bf := (graphed flying (dmaNode .running 1 []) []).bf }
    s.ctx? 4095 = some (dmaNode .running 1 []) ∧ (dmaNode .running 1 []).poisoned = false ∧ it.chunksDone < it.chunksOpen ∧ (streamOf it.dst).total ≤ it.writeIssued ∧
    s.active = true := by decide +kernel
/-- The last work counter. -/
theorem wit_CountersAndReduction_claim : regionOf 0x40_1000_7FF8 = .counters ∧ (opened ready).accessStatus initBelfry 0x40_1000_7FF8 4 true = 0 ∧ 0x40_1000_7FF8 % 8 = 0 ∧
    (opened ready).accessStatus initBelfry 0x40_1000_7FF8 8 true = 0 ∧ (opened ready).counterBad 0xFFF = false ∧ (opened ready).active = true ∧
    (opened ready).accessStatus initFirmware 0x40_1000_7FF8 ([1, 0, 0, 0] : Bytes).length true = 0 ∧ initDma 0 ≠ initBelfry ∧ initDma 0 ≠ initFirmware ∧
    (opened ready).accessStatus (initDma 0) 0x40_1000_7FF8 1 true = 0 := by decide
/-- A Spire node that runs macro 0 of its list as given. -/
def spireNode (st : NodeState) : Ctx := { prog := program 4095 255 4 [] 1 0 1 scratchBase [], state := st }
def macroed (m : MacroRun) : State := { graphed flying (spireNode .running) [] with spire := [(4095, { macros := [(0, m)] })] }
theorem wit_CountersAndReduction_job : (macroed { phase := .reduce }).ctx? 4095 = some (spireNode .running) ∧ (macroed { phase := .reduce }).macro? 4095 0 = some { phase := .reduce } ∧
    aGet (macroed { phase := .reduce }).mem.jobs (mRjob []) = none ∧ (macroed { phase := .reduce }).active = true := by decide +kernel
/-- A job of three partials of one FP32 element, one of them added; its node runs, or drains. -/
def job : RedJob := { format := 8, elems := 1, parts := [(scratchBase, 0), (scratchBase + 128, 1), (scratchBase + 256, 2)], added := 1, sum := [0x3F800000] }
theorem wit_CountersAndReduction_add : aGet ({ ready with mem := { ready.mem with jobs := [(63, job)] } } : State).mem.jobs 63 = some job ∧
    job.parts[1]? = some (scratchBase + 128, 1) ∧ 0 < job.added ∧ job.added + 1 < job.parts.length ∧ ready.isBad (scratchBase + 128) 4 = false ∧ (∀ d ∈ [false, true],
    (graphed flying { spireNode .running with draining := d } []).jobLive { job with ctx := 4095 } = !d) := by decide +kernel
theorem wit_ScrubsTrapsAndFatal_scrub : ready.active = true ∧ (0 : Nat) ≠ 8 ∧ storeOf scratchBase ≠ 1 ∧ ready.reliab.counted = [] ∧ ready.reliab.wear = [] ∧
    (({ dram with mem := { dram.mem with cfg := dram.mem.cfg.mod 0 fun k => { k with eccEn := true } } } : State).mem.cfg.at 0).populated = true ∧
    ({ dram with mem := { dram.mem with cfg := dram.mem.cfg.mod 0 fun k => { k with eccEn := true } } } : State).ecc = true := by decide
/-- A page whose last trap was 1 ns less than 1 s ago. -/
theorem wit_ScrubsTrapsAndFatal_trap : ready.resets.held = [] ∧ ready.pci.hokudan = true ∧ ready.watch.reload ≠ 3 ∧ aGet ready.reliab.wtPages 0 = none ∧
    ready.scrubBad {} = false ∧ ({ ready with mem := { ready.mem with bad := [scratchBase] } } : State).scrubBad { store := storeOf scratchBase, addr := scratchBase } = true ∧
    ready.pci.state ≠ .fatal ∧ aGet ({ ready with reliab := { ready.reliab with wtPages := [(0, 9000000001)] } } : State).reliab.wtPages 0 = some 9000000001 ∧
    ready.dev < 9000000001 + 1000000000 := by decide

/-- A macro of one row, one column and one product: INT8 operands, an FP32 result, in the scratchpad; CTRL, the word of ALT and that of the table. -/
def descriptor (op ctrl alt table : Nat) : Bytes :=
  leBytes 4 (op + 1 * 16 + 1 * 256 + 8 * 65536) ++ leBytes 4 ctrl ++ zeros 8 ++ leBytes 8 (scratchBase + 0x1000 + 128 * 2 ^ 40) ++ leBytes 8 (scratchBase + 0x2000 + 128 * 2 ^ 40)
    ++ zeros 8 ++ leBytes 8 (scratchBase + 0x3000 + 128 * 2 ^ 40) ++ leBytes 8 alt ++ leBytes 8 table ++ zeros 64
/-- READY with a Spire node on core 0, its first macro as given, and the core as given; the macro's descriptor stands in the work list. -/
def onCore (m : MacroRun) (core : Spc) : State :=
  { opened (graphed { flying with counters := [31] } (spireNode .running) []) with
    spire := [(4095, { macros := [(0, m)] })], spc := ready.spc.mod 0 fun _ => core, mem := { ready.mem with cells := memWrite [] scratchBase m.desc } }
theorem wit_MacrosRun_start : let s : State := { onCore { desc := descriptor 1 0 0 0 } {} with spire := [(4095, {})] }
    s.active = true ∧ s.ctx? 4095 = some (spireNode .running) ∧ (spireNode .running).type = 4 ∧ s.macro? 4095 0 = none ∧ (spireNode .running).cores = [0] ∧
    mQmode (s.macroDesc (spireNode .running) 0) = false ∧ (s.readElem (spireNode .running) 0).2.1 = 0 ∧ mDual (s.readElem (spireNode .running) 0).1 = false ∧
    ((spireNode .running).cores.map (· / 16)).eraseDups.map ((s.readElem (spireNode .running) 0).2.2.macroExtents (descriptor 1 0 0 0) false) = [0] ∧
    (s.readElem (spireNode .running) 0).1 = descriptor 1 0 0 0 := by decide +kernel
/-- The protection unit refuses the extents. -/
theorem wit_MacrosRun_refused : ((spireNode .running).cores.map (· / 16)).eraseDups.map
    (({ onCore {} {} with watch := ready.watch } : State).macroExtents (descriptor 1 0 0 0) false) = [0x0306] := by decide +kernel
theorem wit_MacrosRun_reduced : (onCore { phase := .reduced } {}).macro? 4095 0 = some { phase := .reduced } ∧
    (onCore { phase := .reduced } {}).macroCounter (spireNode .running) [] = some 31 ∧
    (macroed { phase := .reduced }).macroCounter (spireNode .running) [] = none := by decide +kernel
/-- SATURATED at its limit and one above it; ALT given and the policy RERUN_WIDE. -/
theorem wit_MacrosRun_verdict : let d := descriptor 1 0 (scratchBase + 0x4000 + 128 * 2 ^ 40) (2 * 2 ^ 40)
    mQpolicy d = 2 ∧ mAddr d 0x30 ≠ 0 ∧ mQmode d = false ∧ mSplitk d = false ∧ mSatLimit d * 65536 < 17 * 65536 ∧ ¬ mSatLimit d * 65536 < 16 * 65536 ∧
    mQpolicy (descriptor 1 0 0 0) = 0 ∧ (onCore { desc := d, phase := .verdict, counts := { v := 65536, sat := 17 } } {}).macro? 4095 0 =
      some { desc := d, phase := .verdict, counts := { v := 65536, sat := 17 } } := by decide +kernel
theorem wit_MacrosRun_rerun : ∀ flag ∈ [0, 1], let m : MacroRun := { desc := descriptor 1 (flag * 2 ^ 21) 0 0, phase := .verdict, rerun := some 0 }
    (onCore m {}).macro? 4095 0 = some m ∧ m.rerun.isSome = true ∧ mWflagOut m.desc = (flag == 1) ∧
    (onCore { m with phase := .flag } {}).macro? 4095 0 = some { m with phase := .flag } := by decide +kernel
/-- Core 0 in quadrant mode over a stretch of one complete quadrant macro, and with a quadrant aborted. -/
theorem wit_MacrosRun_quadrants : ∀ l ∈ [[], [(0, 0x0403)]], let s0 := onCore { desc := descriptor 1 64 0 0, phase := .complete } { quadMode := true }
    let s : State := { s0 with spire := s0.spire.map fun p => (p.1, { p.2 with aborted := l }) }
    s.nodeOfCore 0 = some (4095, spireNode .running) ∧ (s.spc.at 0).quadMode = true ∧ s.stretchDone 4095 (spireNode .running) = true ∧
    ((aGet s.spire 4095).map (·.aborted)).getD [] = l ∧
    ((List.range (spireNode .running).workCount).all fun j => !mQmode (s.macroDesc (spireNode .running) j) || s.quadOver 4095 j (spireNode .running)) = true := by decide +kernel

theorem wit_TilesRun_claim : (∀ redo ∈ [[], [({ first := 3, last := 4 } : TileRun)]], let m : MacroRun := { desc := descriptor 1 0 0 0, redo := redo }
    (onCore m {}).mayClaim 4095 0 0 (spireNode .running) m = true ∧ (onCore m {}).macro? 4095 0 = some m) ∧
    (onCore {} {}).mapped? (spireNode .running) (mWctr (descriptor 1 0 0 0)) = none ∧
    (onCore {} {}).macroCounter (spireNode .running) (descriptor 1 0 0 0) = some 31 ∧ (onCore {} {}).counterBad 31 = false ∧ ({} : MacroRun).claims.contains 0 = false ∧
    (onCore {} {}).counter 31 < ({ desc := descriptor 1 0 0 0 } : MacroRun).total ∧
    ({ desc := descriptor 1 0 0 0 } : MacroRun).total ≤ ((onCore {} {}).setCounter 31 1).counter 31 := by decide +kernel
/-- The core's lane for the whole array. -/
def lane (l : Lane) : Spc := { lanes := (Vector.replicate 5 ({} : Lane)).set 4 l }
/-- The staging of tile 0, and the work on it. -/
def staged : Staged := {}
def working (op ctrl : Nat) (tp : TileProg) : Work :=
  let m : MacroRun := { desc := descriptor op ctrl 0 0 }
  { node := 4095, ix := 0, run := m, tp := tp, stage := m.stageOf 0 4 staged }
theorem wit_TilesRun_start : let m : MacroRun := { desc := descriptor 1 0 0 0 }
    let s := onCore m (lane { macroIx := some 0, runs := [{ first := 0, last := 1 }] })
    s.nodeOfCore 0 = some (4095, spireNode .running) ∧ (s.lane 0 4).order[(s.lane 0 4).busy]? = some (0, 0, false) ∧ (s.lane 0 4).tile = none ∧ m.tilesRun = true ∧
    s.coreReady 0 = true ∧ ((s.stageAhead 0 4 .clean 0 3).lane 0 4).stagedAt 0 0 = some staged ∧
    (let y : State := { s with watch := ready.watch }
     ((y.stageAhead 0 4 .clean 0 3).lane 0 4).stagedAt 0 0 = none ∧
     (y.stageStatus 0 (y.tileReads m.view (m.stageOf 0 4 {}) false false false) .clean 0).map (·.2) = some 0x0306 ∧
     y.peerWaits ((y.tileReads m.view (m.stageOf 0 4 {}) false false false).map fun r => (r.1, r.2.1)) = false ∧
     y.nodeShut 4095 ((y.tileReads m.view (m.stageOf 0 4 {}) false false false).map fun r => (r.1, r.2.1)) = false) := by decide +kernel
/-- A lane with its tile at the given point. -/
def tiling (op ctrl : Nat) (tp : TileProg) (gap : Nat) : State :=
  onCore { desc := descriptor op ctrl 0 0 } (lane { macroIx := some 0, tile := some tp, staged := [staged], lastPass := 100, passGap := gap })
theorem wit_TilesRun_pass : let s := tiling 1 0 {} 0
    let w := working 1 0 {}
    let v := w.run.view
    s.workOn 0 4 (·.tile) = some w ∧ usesArray w.run.desc = true ∧ (tiling 1 0 {} 32).workOn 0 4 (·.tile) = some w ∧
    w.tp.nextFill (w.passes.length + v.passes2) (mGroups w.run.desc w.stage.mi) (s.prevHeld 0 4 4095) = some {} ∧ ((tiling 1 0 {} 32).lane 0 4).passGap = 32 ∧
    ((tiling 1 0 {} 32).lane 0 4).lastPass = 100 ∧ (s.lane 0 4).passGap = 0 ∧
    w.passes.map (fun p => (s.firstBad 0 (w.passSpans false p (s.nextSet 0 4 w 0)), s.reachOwn v w.stage p false == some s, s.reachNext v (s.nextSet 0 4 w 0) == some s,
      s.issueTrap s 0 4 200 w p (w.setName 0) (s.nextSet 0 4 w 0))) = [(none, true, true, none)] ∧
    w.passes.map (fun p => (
      (s.issuePass v w.stage 0 (tileCols w.run.desc w.stage.ni) p (passFrom w.passes 0 (tileK w.run.desc v.partials w.stage.ki v.aFmt).1) []).isSome)) = [true] := by
  decide +kernel
/-- The filled group of split-K partials, and of a macro that is not split; and a trap that waits. -/
theorem wit_TilesRun_drain : (∀ ctrl ∈ [0, 2 ^ 19], let tp : TileProg := { full := some { acc := [[.exact 5]] } }
    let s := tiling 1 ctrl tp 0
    let w := working 1 ctrl tp
    s.workOn 0 4 (s.drainSel 0) = some w ∧ w.run.view.partials = (ctrl == 2 ^ 19) ∧ w.tp.drainNext w.run = some ({ acc := [[.exact 5]] }, {}) ∧ (s.lane 0 4).trap = none ∧ s.firstBad 0 (w.run.view.drainSpans w.stage 0) = none ∧
    (s.closeGroup w.run.view w.stage { acc := [[.exact 5]] }).map (fun acc => (s.drainGroup w.run.view w.stage 0 acc).status) = some 0) ∧
    ({ trap := some (231, 0x0403) } : Lane).trap = some (231, 0x0403) := by decide +kernel
/-- A write-out of nothing, and one that the protection unit refuses. -/
theorem wit_TilesRun_retire : (tiling 1 0 { outs := [{}] } 0).workOn 0 4 (fun l => l.prevs.head?.or l.tile) = some (working 1 0 { outs := [{}] }) ∧
    (tiling 1 0 {} 0).peerWaits [] = false ∧ (tiling 1 0 {} 0).nodeShut 4095 [] = false ∧
    ((tiling 1 0 {} 0).landWrites 0 []).1 = 0 ∧ ((tiling 1 0 {} 0).landWrites 0 []).2.1 = false ∧
    (({ tiling 1 0 {} 0 with watch := ready.watch } : State).landWrites 0 [{ addr := scratchBase + 0x3000, value := 5 }]).1 = 0x0306 := by
  decide +kernel
theorem wit_TilesRun_vector : let s := tiling 2 0 {} 0
    let w := working 2 0 {}
    s.workOn 0 4 (·.tile) = some w ∧ mOp w.run.desc = 2 ∧ w.tp.nextFill 1 (mGroups w.run.desc w.stage.mi) (s.prevHeld 0 4 4095) = some {} ∧ s.mmvTrap w.run.view w.stage 0 = 0 ∧
    (let p : Pass := ⟨tileCols w.run.desc w.stage.ni, 0, mK w.run.desc⟩
     s.firstBad 0 (w.run.view.loadSpans w.stage p ++ w.run.view.feedSpans w.stage 0 p)) = none ∧
    (s.issuePass w.run.view w.stage 0 (tileCols w.run.desc w.stage.ni) ⟨tileCols w.run.desc w.stage.ni, 0, mK w.run.desc⟩ 0 []).isSome = true ∧
    (s.spc.at 0).retired = false := by decide +kernel

/-- READY with a core's self-test bits as given. -/
def testing (v : Spc) : State := { ready with spc := ready.spc.mod 127 fun _ => v }
theorem wit_ArraySelfTests : ready.active = true ∧ arrayExists (.core 127) = true ∧ arrayExists (.sne 3 3) = true ∧ ((testing {}).testOf (.core 127)).retired = false ∧
    ((testing { selftest := true }).testOf (.core 127)).selftest = true ∧ ((testing { selftest := true }).testOf (.core 127)).suspect = none ∧ ((testing { selftest := true }).testOf (.core 127)).rowDue = none ∧
    ((testing { selftest := true, failed := [1] }).testOf (.core 127)).failed.length < 2 ∧ 2 ≤ ((testing { selftest := true, failed := [1, 2] }).testOf (.core 127)).failed.length ∧
    ((testing { rowDue := some 255 }).testOf (.core 127)).rowDue = some 255 ∧ (testing { rowDue := some 255 }).arrayIdle (.core 127) = true ∧
    (testing {}).arrayNamed (.core 127) = false ∧ (testing {}).gated (arrayGate (.core 127)) = true ∧
    (steeple { gated := false } false).gated (arrayGate (.core 127)) = false := by decide +kernel
/-- Core 0 is named and busy while its node runs. -/
theorem wit_ArraySelfTests_named : (onCore {} (lane { macroIx := some 0 })).arrayNamed (.core 0) = true ∧ (onCore {} (lane { macroIx := some 0 })).arrayIdle (.core 0) = false ∧
    (∀ b ∈ [[0, 0, 0, 0], [0, 127, 0, 0], [3, 0, 0, (0 : Byte)]], (asking ready 0x42 b).req? 0 0x42 = some { opcode := 0x42, payload := b }) := by decide +kernel

/-- A binding of 64 bytes: camera 15 of 64 x 16 pixels of RAW10 on port 7, RFE 15, profile 1, two lanes of 1,600 Mbps. -/
def binding (rfe : Nat) : Bytes :=
  [15, BitVec.ofNat 8 rfe, 7 + 16, 0, 0x2B, 0] ++ leBytes 2 1600 ++ leBytes 2 63 ++ leBytes 2 15 ++ leBytes 2 1 ++ [0, 0x10, 0, 0, 0, 0] ++ zeros 4 ++ leBytes 8 0
    ++ leBytes 8 (0x10_0000 + 2 ^ 40) ++ leBytes 8 (0x20_0000 + 2 ^ 40) ++ leBytes 8 0x30_0000 ++ zeros 8
/-- A valid sensor profile: both latencies 1, one template entry, frames of 16.6 ms with 1 ms of blanking. -/
def profile : SensorProfile :=
  { header := leBytes 2 1 ++ [0, 0x11, 1, 1] ++ zeros 2 ++ zeros 4 ++ leBytes 4 (1 + 1000 * 65536) ++ leBytes 4 (15 + 15 * 65536) ++ zeros 44
    entries := [0x0020_0000], periodNs := 16600000, blankNs := 1000000 }
/-- DRAM, the profile in flash, port 7 locked with the camera on its virtual channel 0. -/
def sensors : State :=
  let s := { opened dram with flash := { profiles := [(1, profile)] }, power := { ready.power with rfeGated := ready.power.rfeGated.mod 15 fun _ => false } }
  { s with ports := ready.ports.mod 7 fun p => { p with enable := true, locked := true, lanesM1 := 1, rate := 1600, vcMap := p.vcMap.mod 0 fun _ => { valid := true, camera := 15, vc := 0, dataType := 0x2B } } }
/-- The camera bound. -/
def bound : Cam := { bind := binding 15, rfe := 15, profile := profile }
/-- Camera 15 as given. -/
def filming (k : Cam) : State := { sensors with cams := sensors.cams.mod 15 fun _ => k }
/-- An open frame whose limit of two frame periods ends now. -/
def frame : Frame := { num := 4, rfe := 15, since := 9966800000 }
theorem wit_FramesArrive_packet : (filming bound).active = true ∧ ((filming bound).ports.at 7).enable = true ∧ ((filming bound).ports.at 7).locked = true ∧
    ((filming bound).ports.at 7).route 0 none = some 15 ∧ ((filming bound).ports.at 7).route 0 (some 0x2B) = some 15 ∧ ((filming bound).ports.at 7).route 0 (some 0x2A) = none ∧
    ((filming bound).ports.at 7).route 15 (some 0x2E) = none ∧ (filming bound).cams.at 15 = bound ∧ bound.live = true := by decide +kernel
/-- A frame fits the ingress path of a camera with nothing outstanding, and not that of one with 2,000 frames outstanding. -/
theorem wit_FramesArrive_start : bound.leaving = false ∧ bound.open_ = false ∧ bound.unbindDue = false ∧ bound.stopDue = none ∧ bound.nextRfe = none ∧ bound.net = none ∧
    bMember bound.bind = false ∧ ((filming bound).rfe.at 15).shadow = none ∧ bFrameBytes bound.bind ≤ bound.capacity ∧
    ({ bound with frames := List.replicate 2000 frame } : Cam).capacity < bFrameBytes bound.bind := by decide +kernel
theorem wit_FramesArrive_end : let k : Cam := { bound with open_ := true, frames := [frame], started := true, frameNo := 4 }
    (filming k).cams.at 15 = k ∧ k.live = true ∧ k.frames.getLast? = some frame ∧ frame.since + k.timeoutNs ≤ (filming k).now ∧
    (filming k).now < 9966800001 + k.timeoutNs ∧ ({ bound with open_ := true, frames := [{ frame with dropped := true }] } : Cam).frames.getLast? = some { frame with dropped := true } := by
  decide +kernel
theorem wit_FramesArrive_line : let k : Cam := { bound with frames := [frame], lines := [{ frame := 4 }] }
    (filming k).rfeCam 15 = some 15 ∧ ((filming k).rfe.at 15).failed = false ∧ k.lines = [{ frame := 4 }] ∧ frame.num = 4 ∧ (filming k).rfeHeld frame none = false ∧
    (filming k).isBad (fifoAddr k) k.lineBytes = false := by decide +kernel

/-- The same with no camera on the port. -/
def unbound : State := { sensors with ports := ready.ports }
theorem wit_CamerasBind_checks : unbound.bindStatus (binding 15) = 0 ∧ unbound.bindStatus (putBytes (binding 15) 12 [2]) = 0x0507 ∧ bindMalformed (binding 15) = false ∧
    ((filming bound).cams.at (bCam (binding 15))).bound = true ∧ sensors.power.rfeGated.at 15 = false ∧
    (unbound.bindStatus (binding 14) = 0 ∧ sensors.power.rfeGated.at (bRfe (binding 14)) = true) := by decide +kernel
theorem wit_CamerasBind_rfe : let b := putBytes (binding 15) 0 [14]
    ((filming bound).cams.at (bCam b)).bound = false ∧ ((filming bound).rfe.at (bRfe b)).failed = false ∧ (filming bound).rfeUsed (bRfe b) = true ∧ bindMalformed b = false := by
  decide +kernel
theorem wit_CamerasBind_request : (∀ b ∈ [binding 15, binding 14], (asking sensors 0x20 b).req? 0 0x20 = some { opcode := 0x20, payload := b }) ∧
    (asking (filming bound) 0x21 [15, 0, 0, 0]).req? 0 0x21 = some { opcode := 0x21, payload := [15, 0, 0, 0] } ∧ (sensors.cams.at 15).bound = false ∧
    bound.waiting = none ∧ bound.leaving = false ∧ bound.stopped = false := by decide +kernel
/-- A wait for the port that began 100 ms ago, and one that began 4 ns later. -/
theorem wit_CamerasBind_ports : (∀ since ∈ [9900000000, 9900000004], ((filming { bound with waiting := some (0, since) }).cams.at 15).waiting = some (0, since)) ∧
    9900000000 + 100000000 ≤ ready.now ∧ ready.now < 9900000004 + 100000000 ∧
    (({ ready with ports := ready.ports.mod 7 fun p => { p with enable := true, rate := 1501 } } : State).ports.at 7).locked = false ∧
    (({ ready with ports := ready.ports.mod 7 fun p => { p with enable := true, rate := 1501 } } : State).ports.at 7).enable = true := by decide +kernel

/-- An exposure request of camera 15: WHAT, target. -/
def expose (what target : Nat) : Bytes := [15, BitVec.ofNat 8 what, 0, 0] ++ leBytes 4 target ++ leBytes 4 1000 ++ zeros 20
theorem wit_ExposureSequences_request : exposureMalformed (expose 1 5) = false ∧ exposureMalformed (expose 0 5) = true ∧ eCam (expose 1 5) = 15 ∧ eGroup (expose 1 5) = false ∧
    bound.exposureBad (expose 1 1024) = false ∧ bound.exposureBad (expose 1 1025) = true ∧ (sensors.cams.at 15).live = false ∧ (filming bound).camNow 15 = bound ∧
    ({ bound with pending := List.replicate 16 {} } : Cam).pending.length = 16 ∧
    (asking (filming bound) 0x24 (expose 1 1024)).req? 0 0x24 = some { opcode := 0x24, payload := expose 1 1024 } := by decide +kernel
theorem wit_ExposureSequences_window : (expose 1 5).length = 32 ∧ (∀ a ∈ [scuReqBase, scuReqBase + 480, scuReqBase + 511], (filming bound).accessStatus (initDma 11) a 1 true = 0) ∧
    (filming bound).accessStatus (initDma 11) (scuReqBase + 32 * 15) 32 true = 0 ∧ scuReqBase % 32 = 0 ∧
    ((filming bound).takeExposure (expose 1 5)).1 = 0 ∧ (sensors.takeExposure (expose 1 5)).1 ≠ 0 := by decide +kernel
/-- A camera in its write window, with a request whose exposure sequence is due. -/
def windowed : Cam := { bound with started := true, frameNo := 4, fsLast := 9990000000, feLast := some (4, 9999000000), pending := [{ body := expose 1 5, epoch := 1, achieved := 5 }] }
theorem wit_ExposureSequences_issue : (filming windowed).scu.bus.at 0 = none ∧ ((firstDue (((filming windowed).relapseBus 0).busDue 0)).map fun z => z.2.1) = some 15 ∧ (filming windowed).active = true := by decide +kernel
/-- A bus carrying an operation begun 1 ms ago, at each number of tries, of a profile with two entries. -/
def carrying (o : BusOp) : State := { filming { windowed with profile := { profile with header := putBytes profile.header 5 [2], entries := [0x0020_0000, 0x0020_0000] } } with
  scu := { ready.scu with bus := ready.scu.bus.mod 7 fun _ => some o, imuRing := some (0x40_0000, 4) } }
theorem wit_ExposureSequences_bus : (∀ tries ∈ [1, 2], (carrying { cam := 15, since := 9999000000, tries := tries }).scu.bus.at 7 = some { cam := 15, since := 9999000000, tries := tries }) ∧
    ((carrying {}).cams.at 15).inWindow (carrying {}).now = true ∧ bound.inWindow ready.now = false ∧
    0 + 1 < (((carrying {}).cams.at 15).profile.seq 0).length ∧ 9999000000 + 1000000 ≤ (carrying {}).now ∧ (carrying {}).now < 9999000004 + 1000000 ∧
    (carrying {}).scu.imuRing = some (0x40_0000, 4) ∧ (carrying {}).active = true := by decide +kernel
theorem wit_ExposureSequences_done : ((filming { bound with due := [{ status := 0 }] }).cams.at 15).due = [{ status := 0 }] ∧ (0 : Nat) ≠ 0x0510 := by decide +kernel
/-- SENSOR_XFER reads of 256 and of 257 bytes. -/
theorem wit_ExposureSequences_xfer : (∀ n ∈ [256, 257], (asking (filming bound) 0x27 ([15, 1, 0, 0] ++ leBytes 2 n ++ zeros 2)).req? 0 0x27 =
    some { opcode := 0x27, payload := [15, 1, 0, 0] ++ leBytes 2 n ++ zeros 2 }) ∧ bound.live = true := by decide +kernel

/-- PSET_SUBMIT's payload, and the set at `a`. -/
def submits (a : Nat) : Bytes := [15] ++ zeros 7 ++ leBytes 8 a ++ zeros 8
theorem wit_RawFrontEnd_submit : (∀ a ∈ [64, 65], (asking (filming bound) 0x25 (submits a)).req? 0 0x25 = some { opcode := 0x25, payload := submits a }) ∧
    (filming bound).camOfRfe 15 = some 15 ∧ sensors.camOfRfe 15 = none ∧ bound.started = false ∧ ((filming bound).rfe.at 15).pending = [] ∧
    (filming bound).accessStatus (initDma 11) (psetWindow 15) 16 true = 0 ∧ ((filming bound).takePset 15 (sub (submits 64) 8 16)).1 = 0 ∧
    ((filming bound).takePset 15 (sub (submits 65) 8 16)).1 = 0x0517 := by decide +kernel
/-- RFE 15 as given. -/
def raw (k : Cam) (r : Rfe) : State := { filming k with rfe := ready.rfe.mod 15 fun _ => r }
/-- The set reads with status 0. -/
theorem wit_RawFrontEnd_load : ((raw bound { pending := [{ addr := 64 }] }).rfe.at 15).pending = [{ addr := 64 }] ∧ earliestSet 0 [{ addr := 64 }] = some { addr := 64 } ∧
    ((raw bound { loading := some { addr := 64 } }).rfe.at 15).loading = some { addr := 64 } ∧
    (raw bound {}).accessStatus (initDma (raw bound {}).pixelDma) 64 24192 false = 0 ∧ (raw bound {}).isBad 64 24192 = false ∧ (raw bound {}).camOfRfe 15 = some 15 := by decide +kernel
/-- Four sets wait for frames behind frame 0. -/
theorem wit_RawFrontEnd_full : let r : Rfe := { pending := List.replicate 4 { addr := 64, target := 2 ^ 32 - 1 } }
    (asking (raw bound r) 0x25 (submits 64)).req? 0 0x25 = some { opcode := 0x25, payload := submits 64 } ∧ (raw bound r).camOfRfe 15 = some 15 ∧
    ((raw bound r).rfe.at 15).pending = r.pending ∧ (∀ w ∈ r.pending, w.target ≠ fld (sub (submits 64) 8 16) 8 4 ∧
      aheadOf w.target (fld (sub (submits 64) 8 16) 8 4) = false) ∧ 4 ≤ r.pending.length := by decide +kernel
/-- A tap that writes 64 x 16 NV12 to a ring of one buffer, and TAP_CONFIG of it. -/
def tapDesc : Bytes := [1, 1, 0, 0] ++ zeros 4 ++ leBytes 2 63 ++ leBytes 2 15 ++ leBytes 2 63 ++ leBytes 2 15 ++ leBytes 8 0x40_0000 ++ leBytes 4 4096 ++ zeros 4
  ++ leBytes 4 128 ++ leBytes 4 2048 ++ zeros 24
theorem wit_RawFrontEnd_tap : (filming bound).tapStatus 15 0 tapDesc = 0 ∧ tapDesc.length = 64 ∧
    (∀ tap ∈ [0, 3, 4], (asking (filming bound) 0x26 ([15, BitVec.ofNat 8 tap] ++ zeros 6 ++ tapDesc)).req? 0 0x26 = some { opcode := 0x26, payload := [15, BitVec.ofNat 8 tap] ++ zeros 6 ++ tapDesc }) ∧
    ({ filming bound with bf := { ready.bf with ctxs := [(0, { prog := program 0 0 1 [] 1 0 15 0 [0] })] } } : State).tapNamed 15 0 = true := by decide +kernel
/-- A frame whose lines have all been read and returned. -/
def whole : Frame := { frame with taps := (Vector.replicate 4 ([] : Bytes)).set 0 tapDesc, rows := List.replicate 16 [], returned := 1, tFe := some 0, statsDone := true, tapDone := Vector.replicate 4 true }
theorem wit_RawFrontEnd_frame : let k : Cam := { bound with frames := [{ whole with statsDone := false, tapDone := Vector.replicate 4 false }] }
    let s := raw k { taps := (Vector.replicate 4 ({} : Tap)).set 0 { desc := tapDesc } }
    s.rfeCam 15 = some 15 ∧ s.active = true ∧ (s.rfe.at 15).failed = false ∧ tapEnable (whole.taps.at 0) = true ∧ s.bf.ctxs = [] ∧
    whole.taps.at 0 ≠ [] ∧ tapDest (whole.taps.at 0) = 0 ∧ k.tapReady whole (whole.taps.at 0) 0 = true ∧ s.rfeHeld whole (some 0) = false ∧ whole.parityLines = 0 ∧
    bH k.bind ≤ whole.rows.length ∧ k.statsNext < bStatsBlocks k.bind ∧ k.metaNext < bMetaEntries k.bind ∧
    s.frameOver k whole = true ∧ s.frameOver k { whole with statsDone := false } = false ∧ frame.tFe = none := by decide +kernel
/-- A network whose one row-group's deadline is now, and one whose deadline was 4 ns ago. -/
theorem wit_RawFrontEnd_deadline : (∀ d ∈ [10000000000, 9999999996], let n : Net := { active := true, groups := [{ deadline := d }] }
    ((filming { bound with net := some n }).cams.at 15).net = some n) ∧ ready.now ≤ 10000000000 ∧ 9999999996 < ready.now := by decide +kernel

/-- A network's header: identifier 1, INT8 input, stripes of 64, one MAC, one weight byte of 0 with its CRC. -/
def netHeader : Bytes := leBytes 2 1 ++ [0, 1] ++ leBytes 2 63 ++ zeros 6 ++ leBytes 4 1 ++ leBytes 4 1 ++ leBytes 4 1 ++ zeros 8 ++ leBytes 4 256 ++ zeros 8
  ++ leBytes 4 0xD202EF8D ++ zeros 16
/-- Its binding to camera 15 on SNE 3, the image at `a`. -/
def netRec (a : Nat) : Bytes := [15, 3, 0, 0] ++ leBytes 4 1000 ++ leBytes 4 16600000 ++ zeros 4 ++ leBytes 8 a ++ leBytes 8 (0x60_0000 + 2 ^ 40)
/-- A layer of INT8 operands and an INT8 result. -/
def layer : NetLayer := { a := 1, b := 1, out := 1 }
/-- The camera bound, the image in DRAM, SNE 3 gated or not. -/
def neural (k : Cam) (gate : Bool) : State :=
  let s := filming k
  { s with mem := { s.mem with cells := memWrite [] 0x50_0000 netHeader }, power := { s.power with sneGated := s.power.sneGated.mod 3 fun _ => gate } }
theorem wit_StripeNetworks_bind : netHeader.length = 64 ∧ (∀ gate ∈ [true, false], let s := neural bound gate
    let h := s.read initFirmware 0x50_0000 64
    h.1 = netHeader ∧ h.2.1 = 0 ∧ s.gated (.sne 3) = gate ∧ (s.netChecks (netRec 0x50_0000) netHeader 0 [layer]).status = 0) ∧
    (∀ l ∈ [({ layer with a := 6 }, 0x0401), ({ layer with b := 2 }, 0x0401), ({ layer with traps := 1 }, 0x0416), ({ layer with qpolicy := 2 }, 0x0416)],
      ((neural bound true).netChecks (netRec 0x50_0000) netHeader 0 [l.1]).status = l.2) ∧ netRecBad (netRec 0x50_0001) = true := by decide +kernel
theorem wit_StripeNetworks_request : (∀ a ∈ [0x50_0000, 0x50_0001], (asking (neural bound true) 0x22 (netRec a)).req? 0 0x22 = some { opcode := 0x22, payload := netRec a }) ∧
    (asking (neural bound true) 0x23 [15, 0, 0, 0]).req? 0 0x23 = some { opcode := 0x23, payload := [15, 0, 0, 0] } ∧ ((neural bound true).cams.at 15).net = none := by decide +kernel
/-- The network bound, waiting for its weights; the image that is there, and one that fails its CRC. -/
def netted : Net := { bindRec := netRec 0x50_0000, header := netHeader, pair := some 0 }
theorem wit_StripeNetworks_load : ((neural { bound with net := some netted } false).cams.at 15).net = some netted ∧
    (neural { bound with net := some netted } false).imageOk 3 0x50_0000 netHeader = true ∧
    (neural { bound with net := some netted } false).imageOk 3 0x50_0000 (putBytes netHeader 0x2C [0]) = false ∧ (neural bound false).active = true := by decide +kernel
/-- The camera on the network path, its first row-group before the deadline, at it and past it. -/
def striped (deadline : Nat) (u : Option SneUnit) : State :=
  let s := neural { bound with net := some { netted with pair := none, loaded := true, active := true, groups := [{ deadline := deadline, index := 1 }] }, frames := [{ frame with classical := false, stripes := 2 }] } false
  { s with sne := s.sne.mod 3 fun x => { x with unit := u } }
theorem wit_StripeNetworks_start : ((neural bound false).sne.at 3).unit = none ∧ (neural bound false).sneChoices 3 = [] ∧ ((striped 10000000000 none).sne.at 3).unit = none ∧
    ((striped 10000000000 none).sne.at 3).inService ≠ 0 ∧ (striped 10000000000 none).sneChoices 3 = [(10000000000, 0, 15, 1)] ∧ ((striped 10000000000 none).sne.at 3).failed = false := by decide +kernel
theorem wit_StripeNetworks_complete : ∀ deadline ∈ [10000000000, 9999999996], let u : SneUnit := { cam := 15, frame := 4, group := 1 }
    ((striped deadline (some u)).sne.at 3).unit = some u ∧ ((striped deadline (some u)).cams.at 15).frames = [{ frame with classical := false, stripes := 2 }] ∧
    frame.switchUnit = none ∧ (striped deadline (some u)).weightsBad 3 = false ∧
    (striped deadline (some u)).isBad (0x42_000C_0000 + 3 * 0x10_0000) 0x4_0000 = false ∧ frame.num = u.frame ∧ frame.returned < u.group ∧ aGet frame.merged (frame.returned * 2) = none := by decide +kernel
theorem wit_StripeNetworks_reload : let s := neural { bound with net := some { netted with reloading := true } } false
    s.imageCams 3 0x50_0000 = [15] ∧ s.imageOk 3 0x50_0000 netHeader = true ∧ (neural { bound with net := some { netted with reloading := true } } false).active = true ∧
    ({ s with mem := { s.mem with cells := memSet s.mem.cells 0x50_0100 1 } } : State).imageOk 3 0x50_0000 netHeader = false := by decide +kernel

/-- An operation of the filter engine: the 3 × 3 median of a UINT8 image of 16 × 16 at 0x1000, to `dst`. -/
def image16 (a : Nat) : Bytes := leBytes 8 (a + 2 * 2 ^ 40) ++ leBytes 2 15 ++ leBytes 2 15 ++ leBytes 4 64 ++ zeros 16
def operation (dst : Nat) : Bytes := [3] ++ zeros 7 ++ image16 0x1000 ++ image16 dst ++ [2, 2] ++ zeros 54
/-- READY with DRAM, a node on vision engine 1 and the engine as given; the work list holds `d`. -/
def visNode : Ctx := { prog := program 4095 255 3 [] 1 0 1 scratchBase [], state := .running }
def seeing (d : Bytes) (v : VisUnit) : State :=
  { opened dram with bf := (graphed flying visNode []).bf, mem := { dram.mem with cells := memWrite [] scratchBase d }, vis := ready.vis.mod 1 fun _ => v }
theorem wit_VisionEngines_start : ∀ p ∈ [((0x2000, 0) : Nat × Nat), (0x1000, 0x0307)], let s := seeing (operation p.1) { run := some { ctx := 4095 } }
    s.visReady 1 = some ({ ctx := 4095 }, visNode) ∧ (s.readElem visNode 0).1 = operation p.1 ∧ (s.readElem visNode 0).2.1 = 0 ∧ vIndirect (operation p.1) = false ∧
    (s.readElem visNode 0).2.2.extentStatus (initVision 1) (opExtents 1 (operation p.1)) (opPieces 1 (operation p.1)) = p.2 ∧
    s.peerWaits (opRanges 1 (operation p.1)) = false ∧ s.nodeShut 4095 (opRanges 1 (operation p.1)) = false := by decide +kernel
/-- The descriptor cannot be read. -/
theorem wit_VisionEngines_unread : let s : State := { seeing (operation 0x2000) { run := some { ctx := 4095 } } with watch := ready.watch }
    s.visReady 1 = some ({ ctx := 4095 }, visNode) ∧ (s.readElem visNode 0).2.1 = 0x0A10 := by decide +kernel
theorem wit_VisionEngines_band : opBands 1 (operation 0x2000) = 1 ∧ (∀ band ∈ [0, 1], let r : VisRun := { ctx := 4095, op := some (operation 0x2000), band := band }
    let s := seeing (operation 0x2000) { run := some r }
    (s.vis.at 1).run = some r ∧ s.ctx? 4095 = some visNode ∧ s.active = true ∧ visNode.draining = false ∧ (s.vis.at 1).failed = false ∧
    s.peerWaits (opRanges 1 (operation 0x2000)) = false ∧ (s.bandBuf 1 r (operation 0x2000)).1.bad = false ∧
    ((s.bandBuf 1 r (operation 0x2000)).2.writeAll (initVision 1) (r.nextBand (readBufs [(s.bandBuf 1 r (operation 0x2000)).1] (s.bandBuf 1 r (operation 0x2000)).2.peek) 1 (operation 0x2000)).1).1 = 0) := by decide +kernel
theorem wit_VisionEngines_selftest : ∀ u ∈ [3, 4], let s : State := { ready with vis := ready.vis.mod u fun v => { v with selftest := true } }
    (s.vis.at u).selftest = true ∧ (s.vis.at u).testPair = none := by decide +kernel
theorem wit_VisionEngines_mode : ∀ b ∈ [[3, 0, 0, 0], [4, 0, 0, 0], [5, 0, 255, (255 : Byte)]], (asking ready 0x28 b).req? 0 0x28 = some { opcode := 0x28, payload := b } ∧
    (ready.vis.at (fld b 0 1)).failed = false := by decide +kernel

/-- An image of one NOP context with a timer anchor of 20 µs. -/
def nopImage : GraphImage := { contexts := [{ index := 4095, bytes := putBytes (program 4095 255 9 [] 1 0 0 0 []) 0x70 (leBytes 8 (3 + 20000 * 256)) }] }
/-- GRAPH_ADMIT's payload with identity maps, and one that is misaligned. -/
def admits (a : Nat) : Bytes := leBytes 8 a ++ zeros 4 ++ leBytes 4 0x7654_3210 ++ leBytes 8 0xFEDC_BA98_7654_3210 ++ zeros 8
theorem wit_GraphsComeAndGo_request : (∀ a ∈ [256, 255], (asking ready 0x10 (admits a)).req? 0 0x10 = some { opcode := 0x10, payload := admits a } ∧
    admitReqBad (admits a) = (a == 255)) ∧ mapsOk (fld (admits 256) 0x0C 4) (fld (admits 256) 0x10 8) nopImage = true := by decide +kernel
/-- READY with DRAM, a vision engine's work list in it. -/
def listed : State := { opened dram with mem := { dram.mem with cells := memWrite [] 0x4000 (operation 0x2000) } }
/-- The outcome of an image's admission: its status, and the gates it names. -/
def admission (g : GraphImage) : Nat × List GateUnit :=
  let y := mapImage (fld (admits 256) 0x0C 4) (fld (admits 256) 0x10 8) listed.straps.module g
  let v := listed.admitGraph y false none (imageCtxs y)
  (v.2.status, v.1.gates)
/-- An image that passes; one whose anchor's camera is not bound; one that names vision engine 1, whose gate is closed. -/
theorem wit_GraphsComeAndGo_admit : admission nopImage = (0, []) ∧ (admission { contexts := [{ index := 4095, bytes := program 4095 255 9 [] 1 0 0 0 [] }] }).1 = 0x0513 ∧
    admission { contexts := [{ index := 4095, bytes := putBytes (program 4095 255 3 [] 1 0 1 0x4000 []) 0x70 (leBytes 8 (3 + 20000 * 256)) }] } = (0, [.vis 1]) ∧
    listed.gated (.vis 1) = true := by decide +kernel
/-- GRAPH_PARK's payload: DRAIN, the region. -/
def parks (drain a : Nat) : Bytes := [255, BitVec.ofNat 8 drain, 0, 0] ++ leBytes 4 256 ++ leBytes 8 a
/-- READY with DRAM and graph 255 as given. -/
def holding (q : Graph) : State := { dram with bf := { ready.bf with graphs := [(255, q)] } }
theorem wit_GraphsComeAndGo_park : (∀ drain < 2, ∀ a ∈ [0x1000, 0x1001], (asking (holding flying) 0x11 (parks drain a)).req? 0 0x11 = some { opcode := 0x11, payload := parks drain a } ∧
    (holding flying).saveRegionOk flying a 256 = (a == 0x1000)) ∧ aGet ready.bf.graphs 255 = none ∧ flying.inFlight = true ∧ ({ copies := [none] } : Graph).inFlight = false := by
  decide +kernel
/-- A parked graph of the NOP image, its save region with the context and without it. -/
def parked : Graph := { image := nopImage, parked := true, saved := some (0x1000, 256) }
theorem wit_GraphsComeAndGo_restore : let s := { holding parked with mem := { dram.mem with cells := memWrite [] 0x1000 (putBytes (program 4095 255 9 [] 1 0 0 0 []) 0x70 (leBytes 8 (3 + 20000 * 256))) } }
    (asking s 0x12 [255, 0, 0, 0]).req? 0 0x12 = some { opcode := 0x12, payload := [255, 0, 0, 0] } ∧ aGet s.bf.graphs 255 = some parked ∧
    (s.read initFirmware 0x1000 (256 * 1 + 2 * 0)).2.1 = 0 ∧
    (let v := (s.read initFirmware 0x1000 256).2.2.admitGraph nopImage false (some 255) (restoredCtxs nopImage (s.read initFirmware 0x1000 256).1)
     (v.2.status, v.1.gates) = (0, [])) ∧
    ((holding parked).admitGraph { nopImage with inflight := 0 } false (some 255) []).2.status ≠ 0 := by decide +kernel
theorem wit_GraphsComeAndGo_stop : ∀ drain < 2, (asking (holding flying) 0x13 [255, BitVec.ofNat 8 drain, 0, 0]).req? 0 0x13 =
    some { opcode := 0x13, payload := [255, BitVec.ofNat 8 drain, 0, 0] } ∧ aGet (holding flying).bf.graphs 255 = some flying ∧ flying.parked = false := by decide +kernel

/-- PORT_UP and PORT_DOWN, an import of beacon 0 or counter 0 of graph 255, a counter mapped to module `home`. -/
def peers (kind : Nat) (b : Bytes) : Bytes := [BitVec.ofNat 8 kind] ++ padTo 15 b
/-- PORT_UP, PORT_DOWN, IMPORT and COUNTER_MAP of port 2, entry 1023, graph 255. -/
def peerReqs : List Bytes :=
  [[0, 2] ++ zeros 14, [1, 2] ++ zeros 14, [2, 0, 255, 3, 1, 255, 15, 0] ++ zeros 8, [2, 0, 255, 3, 3, 255, 15, 0] ++ zeros 8, [2, 0, 255, 3, 0, 0, 0, 0] ++ zeros 8,
   [3, 255, 0, 0, 5, 0, 255, 3] ++ zeros 8, [3, 255, 0, 0, 4, 0, 255, 3] ++ zeros 8]
/-- A graph of one beacon and one counter. -/
def sharing : Graph := { image := { beacons := [{ index := 9 }] }, counters := [31], copies := [none] }
/-- READY with peer port 2 of module 0 as given, the graph, and import entry 1023 of its beacon or its counter, open to every module. -/
def linked (p : Peer) (counter : Bool) : State :=
  { opened (holding sharing) with peer := ready.peer.mod 2 fun _ => p, imports := [(1023, { counter := counter, graph := 255, mask := 15 })] }
theorem wit_PeersTrainAndShare_requests : ∀ b ∈ peerReqs, (asking (linked {} false) 0x61 b).req? 0 0x61 = some { opcode := 0x61, payload := b } ∧ peerReserved b = true := by decide +kernel
theorem wit_PeersTrainAndShare_tables : (linked {} false).sharing? 255 = some sharing ∧ ready.sharing? 255 = none ∧ sharing.counters.length = 1 ∧ sharing.image.beacons.length = 1 ∧
    ready.straps.module = 0 ∧ bits 5 0 2 = 1 ∧ bit 5 2 = true ∧ bits 4 0 2 = 0 ∧ (linked { up := true } false).graphsOnPort 2 ≠ [] ∧ (linked {} false).wiredTo 2 = 3 ∧
    ready.graphsOnPort 2 = [] ∧ (∀ e < 15, (ready.mem.dma.at e).item = none) ∧ (ready.peer.at 2).pair = none := by decide +kernel
/-- Training that began 1 s ago, and 4 ns later; a port with seven and with eight replays in the last millisecond; a retrain that began 10 ms ago. -/
theorem wit_PeersTrainAndShare_ports : (∀ since ∈ [9000000000, 9000000004], ((linked { enabled := true, since := since } false).peer.at 2).enabled = true ∧
      ((linked { enabled := true, since := since } false).peer.at 2).up = false) ∧ 9000000000 + 1000000000 ≤ ready.now ∧ ready.now < 9000000004 + 1000000000 ∧
    (∀ n ∈ [7, 8], ((linked { up := true, recent := List.replicate n 9999000001 } false).peer.at 2).recent.length = n) ∧ ready.now < 9999000001 + 1000000 ∧
    ((linked { up := true, retrain := true, since := 9990000000 } false).peer.at 2).retrain = true ∧ 9990000000 + 10000000 ≤ ready.now := by decide +kernel
theorem wit_PeersTrainAndShare_remote : (∀ counter ∈ [true, false], (linked { up := true } counter).portOpen 2 = true ∧
      (linked { up := true } counter).import? 2 1023 counter = some ({ counter := counter, graph := 255, mask := 15 }, sharing)) ∧
    sharing.image.beacons[0]? = some { index := 9 } ∧ sharing.counters[0]? = some 31 ∧ (linked { up := true } false).import? 2 1023 true = none ∧
    (linked { up := true } true).import? 2 1023 false = none ∧ (linked { up := true } true).counterBad 31 = false := by decide +kernel
/-- A request through the window of module 3. -/
theorem wit_PeersTrainAndShare_timeout : let it : DmaItem := { reqs := [{ tag := 127, addr := 0x80_0000_0000, issued := 9999900000 }] }
    (moving it).mem.dma.at 14 = { item := some it } ∧ regionOf 0x80_0000_0000 = .peer 3 ∧ (moving it).active = true ∧ 9999900000 + 100000 ≤ ready.now ∧ (moving it).silent? 3 = none := by decide +kernel
/-- A RELAY node on port 2 for receiver 0 of the first group of its graph, with a unit to take and with none. -/
theorem wit_PeersTrainAndShare_relay : ∀ n ∈ [0, 1], let c : Ctx := { prog := program 4095 255 7 [] 1 0 2 0 [1, 0, 0, 1], state := .running }
    let v : McRecv := { delivered := n }
    let s : State := { graphed { flying with groups := [254] } c [] with
      bf := { (graphed { flying with groups := [254] } c []).bf with groups := [(254, mcGroup 0 0 v)] }, peer := ready.peer.mod 2 fun _ => { up := true, relay := some { ctx := 4095 } } }
    (s.peer.at 2).relay = some { ctx := 4095 } ∧ s.ctx? 4095 = some c ∧ s.relayGroup? c = some 254 ∧ aGet s.bf.groups 254 = some (mcGroup 0 0 v) ∧
    (mcGroup 0 0 v).recvs[c.relayRecv]? = some v ∧ s.active = true ∧ c.draining = false ∧ (s.peer.at 2).retrain = false := by decide +kernel
/-! ### The link unit -/

/-- READY with the link up and the link unit given. -/
def fielded (f : Field → Field) : State := { ready with field := f { up := true, lastGood := 9999999000 } }
/-- MOTOR_STATUS of channel 0 and COOLER_STATUS of channel 5, in RUN; an ACK of token 9 for the link; an EVENT of channel 5; LINK_STATUS without BOOT. -/
def motorStatus : Bytes := frameOf 0x81 0 65535 (zeros 10 ++ [2])
def ackFrame (status : Nat) : Bytes := frameOf 0x90 7 7 ([9, 0x11] ++ leBytes 2 status)
def eventFrame : Bytes := frameOf 0x91 5 7 (leBytes 2 0x0808 ++ [4])
def linkFrame : Bytes := frameOf 0x92 7 7 (zeros 2 ++ leBytes 2 5000)
/-- A LINK_ACK with token 9, waiting since 100 µs, and 4 ns less. -/
def acking (tries since : Nat) : FieldJob := { chan := 7, frames := [controlFrame 9 7 4 0], tries := tries, sentAt := since }
theorem wit_FieldLinkKept_frames : ∀ f ∈ [motorStatus, ackFrame 0, ackFrame 0x0804, eventFrame, linkFrame], frameVerdict false f = .good := by decide +kernel
theorem wit_FieldLinkKept_status : (fielded id).fieldOn = true ∧ fType motorStatus = 0x81 ∧ fChan motorStatus = 0 ∧ ((fielded id).field.chans.at 0).statusAddr = 0 ∧
    (fielded id).field.jobs = [] := by decide +kernel
theorem wit_FieldLinkKept_ack : ∀ st ∈ [1, 0xFFFF], let g := controlFrame 9 7 4 0
    fType (ackFrame st) = 0x90 ∧ fld (ackFrame st) 0xA 2 = st ∧ fld (ackFrame 0) 0xA 2 = 0 ∧ fChan (ackFrame st) = 7 ∧ sub (ackFrame st) 8 1 = sub g 9 1 ∧
    fld (ackFrame st) 9 1 = fType g ∧ fChan g = 7 ∧ (fielded fun x => { x with jobs := [acking 1 0] }).field.jobs = [acking 1 0] := by decide +kernel
theorem wit_FieldLinkKept_event : fType eventFrame = 0x91 ∧ fChan eventFrame = 5 ∧ fType linkFrame = 0x92 ∧ bit (fld linkFrame 8 1) 0 = false ∧
    bit (fld linkFrame 8 1) 1 = false ∧ (fielded id).field.up = true ∧ (fielded id).field.selftestFail = false := by decide +kernel
/-- A frame with a wrong CRC, one that is malformed, one of an unknown type; to the host and to Lantern. -/
theorem wit_FieldLinkKept_bad : (∀ side ∈ [false, true], frameVerdict side (0xBC :: zeros 31) = .crc ∧ frameVerdict side (zeros 32) = .unaligned ∧ frameVerdict side (frameOf 0xFF 0 0 []) = .unknown) ∧
    frameVerdict false (frameOf 0x81 4 0 []) = .malformed ∧ frameVerdict true (frameOf 0x11 7 0 []) = .malformed ∧ (fielded id).lantern.stage = .reset ∧
    ({ fielded id with lantern := { stage := .running } } : State).lantern.stage = .running := by decide +kernel
theorem wit_FieldLinkKept_timeout : ∀ p ∈ [(9999900004, 3), (9999900000, 2), (9999900000, 3)],
    (fielded fun x => { x with jobs := [acking p.2 p.1] }).field.jobs = acking p.2 p.1 :: [] ∧ ready.now = 10000000000 := by decide +kernel
theorem wit_FieldLinkKept_down : (∀ p ∈ [(9995000004, 15), (9995000004, 16), (9995000000, 0)], let s := fielded fun x => { x with lastGood := p.1, crcRun := p.2 }
    s.fieldOn = true ∧ s.field.up = true ∧ s.field.runs = []) ∧ ready.now < 9995000004 + 5000000 ∧ 9995000000 + 5000000 ≤ ready.now := by decide +kernel
/-- A field-message node of one record, a set-point for channel 3 and one for channel 4, which no motor has. -/
def fieldNode : Ctx := { prog := program 4095 255 8 [] 1 0 0 scratchBase [], state := .running }
theorem wit_FieldLinkKept_record : ∀ p ∈ [(3, true), (4, false)], let s : State := { opened (fielded fun x => { x with runs := [{ ctx := 4095 }] }) with
      bf := (graphed flying fieldNode []).bf, mem := { ready.mem with cells := memWrite [] scratchBase (frameOf 1 p.1 0 []) } }
    s.active = true ∧ s.field.runs = [{ ctx := 4095 }] ∧ s.ctx? 4095 = some fieldNode ∧ fieldNode.state = .running ∧ fieldNode.draining = false ∧ 0 < fieldNode.workCount ∧
    (s.readElem fieldNode 0).2.1 = 0 ∧ recordOk (s.readElem fieldNode 0).1 = p.2 := by decide +kernel
/-- FIELD_CONFIG's payload: ACTION, channel 5, CONTROL 3, and STATUS_ADDR. -/
def fieldAsk (kind addr : Nat) : Bytes := [BitVec.ofNat 8 kind, 5, 3, 0] ++ zeros 4 ++ leBytes 8 addr ++ zeros 64
theorem wit_FieldLinkKept_requests : ∀ kind < 3, (asking (fielded id) 0x60 (fieldAsk kind 0xFF_FFFF_FFC0)).req? 0 0x60 = some { opcode := 0x60, payload := fieldAsk kind 0xFF_FFFF_FFC0 } ∧
    fieldReqBad (fieldAsk kind 0xFF_FFFF_FFC0) = false ∧ fld (fieldAsk kind 0xFF_FFFF_FFC0) 1 1 = 5 := by decide +kernel

/-! ### Lantern -/

/-- A Lantern that runs, with one channel as given. -/
def lit (ch : Nat) (c : LChan) : State := { ready with lantern := { stage := .running, chans := (Lantern.chans {}).mod ch fun _ => c } }
/-- A CONTROL frame of an ACTION. -/
def control (ch action : Nat) : Bytes := frameOf 0x11 ch 65535 [BitVec.ofNat 8 action]
/-- Blocks that ENABLE accepts: a motor's in step mode, and a cooler's. -/
def motorBlock : Bytes := [1] ++ zeros 7 ++ leBytes 4 1 ++ leBytes 4 1 ++ leBytes 4 1 ++ zeros 44
def coolerBlock : Bytes := [2] ++ zeros 19 ++ leBytes 2 0 ++ leBytes 2 65535 ++ leBytes 2 20 ++ leBytes 2 1 ++ zeros 36
theorem wit_LanternActs_frames : (∀ ch < 4, frameVerdict true (frameOf 1 ch 65535 (leBytes 4 0x8000_0000)) = .good) ∧
    (∀ ch ∈ [4, 5], frameVerdict true (frameOf 2 ch 65535 (leBytes 2 65535)) = .good) ∧ (∀ o ∈ [0, 48], frameVerdict true (frameOf 0x10 5 0 [BitVec.ofNat 8 o]) = .good) ∧
    frameVerdict true (control 7 4) = .good ∧ isControl (control 7 4) 4 = true := by decide +kernel
theorem wit_LanternActs_controls : ∀ a < 4, ∀ ch ∈ [0, 3, 5], frameVerdict true (control ch a) = .good ∧ fChan (control ch a) = ch ∧ isControl (control ch a) a = true := by
  decide +kernel
theorem wit_LanternActs_sent : ∀ l ∈ [[], [control 3 1]], ({ lit 3 {} with field := { (lit 3 {}).field with sent := l } } : State).field.sent = l ∧
    (control 3 1 ∈ ([control 3 1] : List Bytes)) := by decide +kernel
theorem wit_LanternActs_states : (∀ st ∈ [ChanState.armed, .run, .ramp], st.tripable = true) ∧ ChanState.off.tripable = false ∧ ChanState.tripped.tripable = false ∧
    (∀ st ∈ [ChanState.off, .armed, .run, .ramp, .tripped], ((lit 3 { state := st }).lchan 3).state = st ∧ (lit 3 { state := st }).lantern.stage = .running ∧
      ((lit 3 { state := st }).lchan 3).blockP = false) := by decide +kernel
theorem wit_LanternActs_blocks : blockOk 3 motorBlock = true ∧ blockOk 4 coolerBlock = true ∧ blockOk 3 coolerBlock = false ∧ blockOk 4 (zeros 64) = false ∧
    (lit 4 {}).lantern.selftestFail = false ∧ ((lit 4 { block := coolerBlock }).lchan 4).block = coolerBlock ∧ ((lit 4 { block := coolerBlock }).lchan 4).overs = false ∧
    ((lit 4 { state := .tripped, overs := true }).lchan 4).overs = true := by decide +kernel
/-- 10 ms after the last set-point, where WATCHDOG_MS is 0, and 4 ns earlier. -/
theorem wit_LanternActs_watchdog : ∀ p ∈ [(9990000000, true), (9990000004, false)], let s := lit 5 { state := .run, enable := true, lastSet := p.1 }
    (s.lchan 5).state = .run ∧ decide ((s.lchan 5).lastSet + (s.lchan 5).watchdog ≤ s.now) = p.2 := by decide +kernel
theorem wit_LanternActs_stages : State.reset.lantern.stage = .reset ∧ 3000 < 3001 ∧ ({ ready with lantern := { stage := .selftest } } : State).lantern.stage = .selftest := by
  decide +kernel

/-! ## Values from the spec's worked examples -/

/-- Chapter 04, "Values at the edges", rows into INT8. -/
theorem test_edges_int8 : (([.fin false 5 (-1), .fin true 5 (-1), .fin false 255 (-1), .fin true 257 (-1), .nan] : List Val).map (convert 1 false false)) =
    [(2, .none), (0xFE, .none), (127, .sat), (0x80, .sat), (0, .invalid)] ∧ convert 1 true false (.fin false 128 0) = (127, .sat) ∧
    convert 1 true false (.fin false 1023 (-3)) = (127, .none) ∧ convert 2 false false (.fin true 1 (-1)) = (0, .sat) := by decide
/-- Chapter 04, "Values at the edges", rows into E4M3 and E5M2. -/
theorem test_edges_fp8 : (([.fin false 440 0, .fin false 432 0, .fin false 460 0, .fin false 464 0, .fin false 3 (-11), .fin false 3 (-10)] : List Val).map (convert 4 false false)) =
    [(0x7E, .none), (0x7E, .none), (0x7E, .none), (0x7E, .sat), (1, .none), (2, .none)] ∧
    convert 5 false true (.fin false 61439 0) = (0x7B, .none) ∧ convert 5 false true (.fin false 61440 0) = (0x7C, .sat) := by decide +kernel
/-- Chapter 04, "why the order is fixed": 2^30, 1, 1 and -2^30 sum to +0. -/
theorem test_order_fixed : orderedDot [some (.fin false 1 30), some (.fin false 1 0), some (.fin false 1 0), some (.fin true 1 30)] = .fin false 0 (-149) := by decide +kernel
/-- Chapter 14, "indices across the wrap": 4 request slots, every index at 0xFFFE. -/
def wrapped : State :=
  { ready with pci := { ready.pci with pairs := ready.pci.pairs.mod 3 fun q =>
    { q with enabled := true, enable := true, rspLog2 := 3, reqLog2 := 2, reqHead := 0xFFFE, reqTail := 0xFFFE, rspHead := 0xFFFE, rspTail := 0xFFFE } } }
/-- TAIL 0x0000 is taken, two requests wait, and TAIL 0x0004 is then discarded. -/
theorem test_wrap : ((wrapped.ringDoorbell 3 0).pci.pairs.at 3).waiting = 2 ∧ (((wrapped.ringDoorbell 3 0).ringDoorbell 3 4).pci.pairs.at 3).reqTail = 0 := by decide
/-- Chapter 17, "the last spare of a Dome bank": row 1,000 of DB17 lies in granule 2,001. -/
theorem test_dome_granule : domeGranule 17 1000 = 2001 := by decide
/-- Chapter 08, "a scale far too large" and "too small": 1,310 saturated of 262,144; WSHIFT 0, 8, and 4 with both. -/
theorem test_verdicts : 1310 * 65536 > 16 * 262144 ∧ wshiftOf 1 true false = 0 ∧ wshiftOf 1 false true = 8 ∧ wshiftOf 1 true true = 4 := by decide

/-! ### The conditions of the completion statements -/

theorem pair_eta {α β : Type} (p : α × β) : p = (p.1, p.2) := rfl

theorem wit_UnitsCompleteOwnEffects_bar4 : (opened dram).Bar4Ok 0xFFF_FFFF 1 ∧ ready.cacheFree = true ∧
    fld ([63, 0] ++ zeros 6 ++ zeros 16) 1 1 = 0 ∧ (ready.mem.dma.at 11).failed = false := by
  unfold State.Bar4Ok; decide +kernel
theorem wit_UnitsCompleteOwnEffects_pair : let s := copying (stream scratchBase 64) (stream (scratchBase + 4096) 64)
    s.PairPasses 11 (.copy 0) (stream scratchBase 64 ++ stream (scratchBase + 4096) 64) s := by
  unfold State.PairPasses; decide +kernel
/-- Every byte read and the first chunk open, its writes to come; all of it written; and one write in flight. -/
theorem wit_UnitsCompleteOwnEffects_moves : (∀ it ∈ [{ item with readIssued := 4097, chunksOpen := 1 }, { item with readIssued := 4097 },
      { item with readIssued := 4097, writeIssued := 4096, chunksOpen := 1 }, { item with reqs := [{ tag := 127, addr := scratchBase + 8192, len := 256, write := true }] }],
      (moving it).Moves 14 it) ∧ (moving { item with readIssued := 4097, chunksOpen := 1 }).WritePasses 14 { item with readIssued := 4097, chunksOpen := 1 } := by
  unfold State.Moves State.WritePasses; decide +kernel
theorem wit_UnitsCompleteOwnEffects_scrub : ready.scrubBad {} = false ∧ dram.ecc = false ∧
    ({ dram with mem := { dram.mem with cfg := dram.mem.cfg.mod 0 fun k => { k with eccEn := true } } } : State).scrubBad { store := 8, unit := 0, addr := 64 } = false ∧
    (aGet ready.reliab.wtPages 5).isNone = true := by decide +kernel
theorem wit_UnitsCompleteOwnEffects_macro : let s : State := { onCore { desc := descriptor 1 0 0 0 } {} with spire := [(4095, {})] }
    s.Runs 4095 (spireNode .running) ∧ s.MacroDue 4095 (spireNode .running) (descriptor 1 0 0 0) (s.readElem (spireNode .running) 0).2.2 := by
  unfold State.Runs State.MacroDue; decide +kernel
theorem wit_UnitsCompleteOwnEffects_phases : ∀ ph ∈ [MacroPhase.reduced, .verdict, .flag], let m : MacroRun := { desc := descriptor 1 0 0 0, phase := ph }
    (onCore m {}).macro? 4095 0 = some m ∧ mQpolicy m.desc ≠ 2 ∧ m.rerun = none ∧
    ((onCore m {}).write (initDma ((spireNode .running).cores.headD 0 / 16)) (scratchBase + 4 * mWfOut m.desc) (leBytes 4 m.flagWord)).1 = 0 := by decide +kernel
theorem wit_UnitsCompleteOwnEffects_tile : let m : MacroRun := { desc := descriptor 1 0 0 0 }
    (onCore m (lane { macroIx := some 0, runs := [{ first := 0, last := 1 }] })).TileDue 4095 0 4 0 0 (spireNode .running) m := by
  unfold State.TileDue; decide +kernel
theorem wit_UnitsCompleteOwnEffects_pass : let s := tiling 1 0 {} 0
    let w := working 1 0 {}
    ∃ p, w.passes = [p] ∧ s.PassDue 0 4 w p s := by
  unfold State.PassDue; exact ⟨_, rfl, by decide +kernel⟩
theorem wit_UnitsCompleteOwnEffects_drain : let tp : TileProg := { full := some { acc := [[.exact 5]] } }
    (tiling 1 0 tp 0).DrainDue 0 4 (working 1 0 tp) { acc := [[.exact 5]] } {} [[.exact 5]] := by
  unfold State.DrainDue; decide +kernel
theorem wit_UnitsCompleteOwnEffects_vector : (tiling 2 0 {} 0).MmvDue 0 (working 2 0 {}) {} [[.exact 0]] := by
  unfold State.MmvDue; decide +kernel
/-- A split macro of two partials, complete, in a graph with one page. -/
def splitDesc : Bytes := putBytes (putBytes (descriptor 1 (2 ^ 19) 0 0) 0x0C [32]) 0x58 (leBytes 8 scratchBase)
theorem wit_UnitsCompleteOwnEffects_job : let m : MacroRun := { desc := splitDesc, phase := .reduce }
    let s : State := { onCore m {} with bf := (graphed { flying with partitions := [(0, 1)] } (spireNode .running) []).bf }
    ∃ y, s.JobDue 4095 (spireNode .running) m y := by
  unfold State.JobDue; exact ⟨_, by decide +kernel, by decide +kernel, rfl, by decide +kernel⟩
/-- A macro of 512 rows in one chunk: its first group written out, of more. -/
def tallDesc : Bytes := putBytes (descriptor 1 0 0 0) 8 [255, 1, 240, 31]
theorem wit_UnitsCompleteOwnEffects_retire : let m : MacroRun := { desc := tallDesc }
    let s := onCore m (lane { macroIx := some 0, tile := some { outs := [{}] }, staged := [staged] })
    s.WriteOutDue 0 4 { node := 4095, ix := 0, run := m, tp := { outs := [{}] }, stage := m.stageOf 0 4 staged } {} [] := by
  unfold State.WriteOutDue; intro m s
  exact ⟨by decide +kernel, rfl, by decide +kernel, fun _ h => (List.not_mem_nil h).elim, by decide +kernel⟩
theorem wit_UnitsCompleteOwnEffects_arrays : ((testing {}).spc.at 127).retired = false ∧ (macroed {}).jobLive { job with ctx := 4095 } = true ∧
    (let j : RedJob := { job with added := 0, sum := [], ctx := 4095 }
     aGet ({ macroed {} with mem := { ready.mem with jobs := [(63, j)] } } : State).mem.jobs 63 = some j ∧ j.parts[j.added]? = some (scratchBase, 0) ∧ 1 < j.parts.length ∧
     ({ macroed {} with mem := { ready.mem with jobs := [(63, j)] } } : State).jobLive j = true ∧ ready.isBad scratchBase (j.elems * j.size) = false) ∧
    ready.genlock.at 7 = { } ∧ ({ ready with genlock := ready.genlock.mod 7 fun g => { g with pin := true } } : State).genlock.at 7 = { pin := true } := by
  decide +kernel
theorem wit_UnitsCompleteOwnEffects_line : let k : Cam := { bound with frames := [frame], lines := [{ frame := 4 }] }
    (filming k).LineDue 15 15 frame := by
  intro k; unfold State.LineDue; exact ⟨by decide +kernel, by decide +kernel, by decide +kernel, by decide +kernel, { frame := 4 }, [], by decide +kernel, rfl, rfl⟩
theorem wit_UnitsCompleteOwnEffects_sensors : (unbound.bindStatus (binding 15) = 0) ∧ ((filming bound).takeExposure (expose 1 1024)).1 = 0 ∧
    (∀ a ∈ [scuReqBase], (opened (filming bound)).accessStatus (initDma 11) a 32 true = 0) ∧ (carrying {}).scu.imuRing = some (0x40_0000, 4) ∧
    (filming bound).active = true := by decide +kernel

theorem wit_EnginesCompleteOwnEffects_tap : let k : Cam := { bound with frames := [{ whole with statsDone := false, tapDone := Vector.replicate 4 false }] }
    (raw k { taps := (Vector.replicate 4 ({} : Tap)).set 0 { desc := tapDesc } }).TapDue 15 15 0 { whole with statsDone := false, tapDone := Vector.replicate 4 false } := by
  unfold State.TapDue; decide +kernel
theorem wit_EnginesCompleteOwnEffects_unit : (striped 10000000000 none).UnitDue 3 15
      { netted with pair := none, loaded := true, active := true, groups := [{ deadline := 10000000000, index := 1 }] } { frame with classical := false, stripes := 2 } { deadline := 10000000000, index := 1 } := by
  unfold State.UnitDue; exact ⟨by decide +kernel, by decide +kernel, ⟨10000000000, 0, by decide +kernel⟩, by decide +kernel, rfl, by decide +kernel⟩
theorem wit_EnginesCompleteOwnEffects_ontime : let u : SneUnit := { cam := 15, frame := 4, group := 1 }
    (striped 10000000000 (some u)).UnitOnTime 3 u { netted with pair := none, loaded := true, active := true, groups := [{ deadline := 10000000000, index := 1 }] } := by
  intro u; unfold State.UnitOnTime
  exact ⟨by decide +kernel, by decide, by decide +kernel, by decide +kernel, by decide +kernel, rfl, { frame with classical := false, stripes := 2 }, { deadline := 10000000000, index := 1 },
    by decide +kernel, rfl, rfl, rfl, rfl, rfl, by decide +kernel, by decide, rfl, by decide, by decide +kernel⟩
theorem wit_EnginesCompleteOwnEffects_vision : let d := operation 0x2000
    let r : VisRun := { ctx := 4095, op := some d }
    (seeing d { run := some { ctx := 4095 } }).OpPasses 1 { ctx := 4095 } visNode d ((seeing d { run := some { ctx := 4095 } }).readElem visNode 0).2.2 ∧
      (seeing d { run := some r }).BandPasses 1 r d := by
  unfold State.OpPasses State.BandPasses; decide +kernel
theorem wit_EnginesCompleteOwnEffects_runs : ∀ band ∈ [0, 1], let d := operation 0x2000
    let r : VisRun := { ctx := 4095, op := some d, band := band }
    (seeing d { run := some r }).OpRuns 1 r d := by
  intro band h d r; unfold State.OpRuns
  exact ⟨rfl, rfl, visNode, (wit_VisionEngines_band.2 band h).2.1, by decide +kernel⟩
theorem wit_EnginesCompleteOwnEffects_park : let q : Graph := { parked := false, copies := [none] }
    (holding q).SaveDue q (parks 0 0x1000) := by
  unfold State.SaveDue; decide +kernel
theorem wit_EnginesCompleteOwnEffects_admit : ∃ v w, listed.Admits (admits 256) nopImage v w := by
  unfold State.Admits; exact ⟨_, _, by decide +kernel, by decide +kernel, pair_eta _, by decide +kernel, by decide +kernel⟩
theorem wit_EnginesCompleteOwnEffects_restore :
    let s := { holding parked with mem := { dram.mem with cells := memWrite [] 0x1000 (putBytes (program 4095 255 9 [] 1 0 0 0 []) 0x70 (leBytes 8 (3 + 20000 * 256))) } }
    ∃ v w, s.Restores 255 parked v w := by
  intro s; unfold State.Restores
  exact ⟨_, _, rfl, 0x1000, 256, (s.read initFirmware 0x1000 256).1, (s.read initFirmware 0x1000 256).2.2, rfl, by decide +kernel, pair_eta _, by decide +kernel, by decide +kernel⟩
theorem wit_EnginesCompleteOwnEffects_net : (neural bound false).NetPasses (netRec 0x50_0000) := by
  unfold State.NetPasses; decide +kernel
theorem wit_EnginesCompleteOwnEffects_record : let s : State := { opened (fielded fun x => { x with runs := [{ ctx := 4095 }] }) with
      bf := (graphed flying fieldNode []).bf, mem := { ready.mem with cells := memWrite [] scratchBase (frameOf 1 3 0 []) } }
    s.RecordDue { ctx := 4095 } := by
  intro s; unfold State.RecordDue State.Runs
  exact ⟨by decide +kernel, by decide +kernel, fieldNode, (s.readElem fieldNode 0).1, (s.readElem fieldNode 0).2.2, by decide +kernel, by decide +kernel, by decide +kernel, by decide +kernel⟩
theorem wit_EnginesCompleteOwnEffects_relay : let c : Ctx := { prog := program 4095 255 7 [] 1 0 2 0 [1, 0, 0, 1], state := .running }
    let v : McRecv := { delivered := 1 }
    let s : State := { graphed { flying with groups := [254] } c [] with
      bf := { (graphed { flying with groups := [254] } c []).bf with groups := [(254, mcGroup 0 0 v)] }, peer := ready.peer.mod 2 fun _ => { up := true, relay := some { ctx := 4095 } } }
    s.RelayDue 2 { ctx := 4095 } c (mcGroup 0 0 v) v := by
  intro c v s; unfold State.RelayDue State.Runs
  exact ⟨by decide +kernel, by decide +kernel, rfl, by decide +kernel, by decide, 254, by decide +kernel, by decide +kernel, by decide +kernel⟩
/-- A set with SIGMA, SW[0] and RW[0] alone; `wit_RawFrontEnd_load` shows that it reads. -/
theorem wit_EnginesCompleteOwnEffects_set : psetBad (bW bound.bind) (bH bound.bind) (putBytes (zeros 24192) 0x52 [1, 0, 1, 0, 0, 0, 1]) = false := by decide +kernel

end Sys2Proof.Tests
end

section
/-! Anchors that find every copy taken, and signals that fill a beacon (R34, R43). -/
namespace Sys2Proof.Machine
open Sys2Proof

/-! ## Reports and Belfry -/

/-- An event leaves Belfry as it was. -/
@[simp] theorem State.event_bf (s : State) (status source unit : Nat) (vecs : List Nat) (data : Bytes) :
    (s.event status source unit vecs data).bf = s.bf := (State.event_reports s status source unit vecs data).bf

/-! ## The rotation of copies (R33) -/

/-- Going round from any place reaches every number below `n`. -/
theorem exists_add_mod_eq (m : Nat) {n k : Nat} (h : k < n) : ∃ r < n, (m + r) % n = k := by
  have hm : m % n < n := Nat.mod_lt m (by omega)
  refine ⟨(k + (n - m % n)) % n, Nat.mod_lt _ (by omega), ?_⟩
  have round : m % n + (k + (n - m % n)) = k + n := by omega
  rw [Nat.add_mod_mod, ← Nat.mod_add_mod, round, Nat.add_mod_right, Nat.mod_eq_of_lt h]

/-- A copy is free where nothing is found in its place. -/
theorem Graph.copy_free_iff (q : Graph) {j : Nat} (h : j < q.copies.length) :
    (q.copies[j]?.join).isSome = false ↔ q.copies[j]? = some none := by
  rw [List.getElem?_eq_getElem h]
  cases q.copies[j] <;> simp

/-- The copy that the rotation finds is free. -/
theorem Graph.free_of_freeCopy {q : Graph} {j : Nat} (h : q.freeCopy = some j) : q.copies[j]? = some none := by
  unfold Graph.freeCopy at h
  obtain ⟨r, hfind, rfl⟩ := Option.map_eq_some_iff.mp h
  have hr : r < q.copies.length := List.mem_range.mp (List.mem_of_find?_eq_some hfind)
  have hfree := List.find?_some hfind
  exact (q.copy_free_iff (Nat.mod_lt _ (by omega))).mp (by simpa using hfree)

/-- With every copy taken none is found. -/
theorem Graph.freeCopy_eq_none {q : Graph} (h : ∀ c ∈ q.copies, c ≠ none) : q.freeCopy = none := by
  cases hj : q.freeCopy with
  | none => rfl
  | some j => exact absurd rfl (h none (List.mem_of_getElem? (Graph.free_of_freeCopy hj)))

/-- With a free copy one is found. -/
theorem Graph.exists_freeCopy {q : Graph} {k : Nat} (h : q.copies[k]? = some none) : ∃ j, q.freeCopy = some j := by
  obtain ⟨hk, -⟩ := List.getElem?_eq_some_iff.mp h
  obtain ⟨r, hr, hrk⟩ := exists_add_mod_eq q.nextCopy hk
  have hfree : (q.copies[(q.nextCopy + r) % q.copies.length]?.join).isSome = false := by rw [hrk, h]; rfl
  refine Option.isSome_iff_exists.mp ?_
  unfold Graph.freeCopy
  rw [Option.isSome_map, List.find?_isSome]
  exact ⟨r, List.mem_range.mpr hr, by rw [hfree]; rfl⟩

/-! ## Anchors (R34) -/

/-- Graph `g` is `q` and takes anchors: the units run, nothing holds the graph back, and its contexts are enabled. -/
structure State.TakesAnchors (s : State) (g : Nat) (q : Graph) : Prop where
  graph : aGet s.bf.graphs g = some q
  active : s.active = true
  halted : s.bf.halted = false
  parked : q.parked = false
  stopped : q.stopped = false
  drain : q.drain = .none
  enabled : ∀ p ∈ s.bf.ctxs, p.2.graph = g → p.2.enable = true

/-- The anchor at `a` is what a timer's next period counts from. -/
def State.passAnchor (s : State) (g a : Nat) : State :=
  s.modGraph g fun q => { q with timerLast := if q.anchorCtx.anchorKind = 3 then some a else none }

theorem State.TakesAnchors.all_enabled {s : State} {g : Nat} {q : Graph} (h : s.TakesAnchors g q) :
    ((s.bf.ctxs.filter fun p => p.2.graph == g).all fun p => p.2.enable) = true := by
  refine List.all_eq_true.mpr fun p hp => ?_
  obtain ⟨hmem, hgraph⟩ := List.mem_filter.mp hp
  exact h.enabled p hmem (beq_iff_eq.mp hgraph)

/-- A graph that starts no more lets every anchor pass. -/
theorem anchorEffect_of_stopped {s : State} {t g : Nat} {q : Graph} (hq : aGet s.bf.graphs g = some q) (hs : q.stopped = true) :
    anchorEffect t g s = s.at t := by
  simp [anchorEffect, hq, hs]

section
variable {s : State} {t g : Nat} {q : Graph} (h : (s.at t).TakesAnchors g q)
include h

/-- Within a timer's period no anchor comes (R52). -/
theorem anchorEffect_of_no_anchor (ha : q.anchorAt (s.at t).now = none) : anchorEffect t g s = s.at t := by
  simp only [anchorEffect, h.graph, h.active, h.halted, h.parked, h.stopped, ha]
  rfl

variable {a : Nat} (ha : q.anchorAt (s.at t).now = some a)
include ha

/-- An anchor is remembered by its timer; then a free copy starts on it, or it is skipped where none is free. -/
theorem anchorEffect_of_anchor : anchorEffect t g s = q.freeCopy.elim (((s.at t).passAnchor g a).skipAnchor g) fun j =>
    ((s.at t).passAnchor g a).startInstance g j (((s.at t).passAnchor g a).anchorFrame q) a := by
  simp only [anchorEffect, State.passAnchor, h.graph, h.active, h.halted, h.parked, h.stopped, h.drain, ha, State.modGraph_bf, h.all_enabled,
    Bool.not_true, Bool.or_self, bne_self_eq_false, Bool.false_eq_true, ↓reduceIte]
  cases q.freeCopy <;> rfl

end

/-- A skipped anchor changes two things in Belfry: its count and the graph's status. -/
theorem State.skipAnchor_bf (s : State) (g : Nat) : (s.skipAnchor g).bf =
    { s.bf with skipCount := min (s.bf.skipCount + 1) (2 ^ 32 - 1), graphs := aMod s.bf.graphs g fun q => { q with status := 0x020A } } := by
  simp [State.skipAnchor, satInc, satAdd]

/-- ANCHOR_EVENT answers a next state. -/
theorem exec_anchorEvent (t g : Nat) (s : State) : exec (.anchorEvent t g) s = .next (anchorEffect t g s) := rfl

/-! ## Signals (R43) -/

/-- Lanes that agree vote for their value, whichever lane is masked. -/
theorem Beacon.vote_agreed (v m : Nat) : ({ a := v, b := v, c := v } : Beacon).vote m = (v, none, false) := by
  simp [Beacon.vote]

/-- A read of agreeing lanes answers their value and changes nothing. -/
theorem State.voteRead_agreed {s : State} {b v : Nat} (h : s.beacon b = { a := v, b := v, c := v }) : s.voteRead b none = (v, s) := by
  simp [State.voteRead, h, Beacon.vote_agreed]

/-- Nodes that become ready change the contexts alone. -/
theorem State.refreshReady_bf (s : State) : ∃ cs, s.refreshReady.bf = { s.bf with ctxs := cs } := ⟨_, rfl⟩

/-- A beacon read from a list in which one has been written in all three lanes. -/
theorem State.beacon_of_set {s s' : State} {b v : Nat} (h : s'.bf.beacons = aSet s.bf.beacons b { a := v, b := v, c := v }) (k : Nat) :
    s'.beacon k = if b = k then { a := v, b := v, c := v } else s.beacon k := by
  unfold State.beacon
  rw [h, aGet_aSet]
  split <;> rfl

/-- The graphs once beacon `b` has overflowed: its owner, if it has one, starts no more. -/
def State.ownerStopped (s : State) (b : Nat) : List (Nat × Graph) :=
  (s.beaconOwner b).elim s.bf.graphs fun g => aMod s.bf.graphs g fun q => { q with status := 0x0209, stopped := true }

/-- Beacon `b` is full, and the overflow is counted. -/
def State.fillBeacon (s : State) (b : Nat) : State :=
  (s.setBeacon b 65535).modBf fun f => { f with overflowCount := satInc 32 f.overflowCount }

/-- The owner of beacon `b`, if it has one, starts no more and reports why. -/
def State.stopOwner (s : State) (b : Nat) : State :=
  (s.beaconOwner b).elim s fun g => (s.modGraph g fun q => { q with status := 0x0209, stopped := true }).event 0x0209 5 g [34 + g % 16]

theorem State.stopOwner_bf (s : State) (b : Nat) : (s.stopOwner b).bf = { s.bf with graphs := s.ownerStopped b } := by
  unfold State.stopOwner State.ownerStopped
  cases s.beaconOwner b with
  | none => rfl
  | some g => exact State.event_bf _ _ _ _ _ _

section
variable {s : State} {b inc v : Nat} (hv : s.beacon b = { a := v, b := v, c := v }) (hf : s.bf.fatal = false)
include hv hf

/-- A sum that the beacon holds is written to it, and nodes may become ready. -/
theorem State.signalBeacon_bf_of_le (h : v + inc ≤ 65535) : ∃ cs, (s.signalBeacon b inc).bf =
    { s.bf with beacons := aSet s.bf.beacons b { a := v + inc, b := v + inc, c := v + inc }, ctxs := cs } := by
  have writes : s.signalBeacon b inc = (s.setBeacon b (v + inc)).refreshReady := by
    simp [State.signalBeacon, State.voteRead_agreed hv, hf, h]
  rw [writes]
  exact State.refreshReady_bf _

/-- A sum beyond the beacon leaves it full, is counted, and stops the beacon's owner. -/
theorem State.signalBeacon_bf_of_gt (h : 65535 < v + inc) : ∃ cs, (s.signalBeacon b inc).bf =
    { s.bf with beacons := aSet s.bf.beacons b { a := 65535, b := 65535, c := 65535 }
                overflowCount := min (s.bf.overflowCount + 1) (2 ^ 32 - 1), graphs := s.ownerStopped b, ctxs := cs } := by
  have overflows : s.signalBeacon b inc = ((s.fillBeacon b).stopOwner b).refreshReady := by
    simp only [State.signalBeacon, State.voteRead_agreed hv, hf, Bool.false_eq_true, if_neg (Nat.not_le.mpr h), ↓reduceIte]
    unfold State.stopOwner State.fillBeacon
    cases State.beaconOwner _ b <;> rfl
  obtain ⟨cs, hcs⟩ := State.refreshReady_bf ((s.fillBeacon b).stopOwner b)
  rw [State.stopOwner_bf] at hcs
  exact ⟨cs, overflows ▸ hcs⟩

end

/-- A signal to one of the 16,384 beacons of a device that runs. -/
theorem exec_beaconSignal {s : State} {t b : Nat} (inc : Nat) (u : Option LaneUpset) (hb : b < 16384) (ha : (s.at t).active = true)
    (hh : (s.at t).bf.halted = false) : exec (.beaconSignal t b inc u) s = .next ((s.at t).signalBeacon b inc u) := by
  have run : exec (.beaconSignal t b inc u) s = .next (beaconSignalEffect t b inc u s) := rfl
  rw [run]
  simp only [beaconSignalEffect, ha, hh, Nat.mod_eq_of_lt hb]
  rfl

end Sys2Proof.Machine
end

section
open Sys2Proof Sys2Proof.Machine

/-- Settles O34: the copy that the rotation finds is free, and it finds one unless every copy is taken. -/
theorem anchorsSkipOrStart : Obligations.AnchorsSkipOrStart := by
  rintro s x t g q rfl hgraph hactive hhalted hparked hstopped hdrain henabled
  have h : (s.at t).TakesAnchors g q := ⟨hgraph, hactive, hhalted, hparked, hstopped, hdrain, henabled⟩
  refine ⟨fun hnone => ?_, fun a ha => ⟨fun hfull => ?_, fun k hk => ?_⟩⟩
  · rw [exec_anchorEvent, anchorEffect_of_no_anchor h hnone]
  · have skips := anchorEffect_of_anchor h ha
    rw [Graph.freeCopy_eq_none hfull, Option.elim_none] at skips
    exact ⟨_, (exec_anchorEvent t g s).trans (congrArg _ skips), State.skipAnchor_bf _ _⟩
  · obtain ⟨j, hj⟩ := Graph.exists_freeCopy hk
    have starts := anchorEffect_of_anchor h ha
    rw [hj, Option.elim_some] at starts
    exact ⟨_, (exec_anchorEvent t g s).trans (congrArg _ starts), j, Graph.free_of_freeCopy hj, rfl⟩

/-- Settles O37: the signal's sum is held or cut at 65,535, and an overflow stops the graph whose anchors then pass. -/
theorem signalsAdd : Obligations.SignalsAdd := by
  rintro s x t b inc v rfl hb hactive hhalted hfatal hv
  refine ⟨fun u => exec_beaconSignal inc u hb hactive hhalted, _, exec_beaconSignal inc none hb hactive hhalted, ?_⟩
  generalize hs' : (s.at t).signalBeacon b inc none = s'
  have passes : ∀ g q k, aGet s'.bf.graphs g = some q → q.stopped = true → exec (.anchorEvent k g) s' = .next (s'.at k) :=
    fun g q k hq hstop => by rw [exec_anchorEvent, anchorEffect_of_stopped hq hstop]
  by_cases hle : v + inc ≤ 65535
  · obtain ⟨cs, hbf⟩ := State.signalBeacon_bf_of_le hv hfatal hle
    rw [hs'] at hbf
    have hbeacon := State.beacon_of_set (s := s.at t) (s' := s') (by rw [hbf])
    rw [Nat.min_eq_left hle]
    exact ⟨by rw [hbeacon, if_pos rfl], fun k hk => by rw [hbeacon, if_neg (Ne.symm hk)],
      fun _ => ⟨by rw [hbf], by rw [hbf]⟩, fun hgt => absurd hle (Nat.not_le.mpr hgt)⟩
  · have hgt : 65535 < v + inc := Nat.not_le.mp hle
    obtain ⟨cs, hbf⟩ := State.signalBeacon_bf_of_gt hv hfatal hgt
    rw [hs'] at hbf
    have hbeacon := State.beacon_of_set (s := s.at t) (s' := s') (by rw [hbf])
    rw [Nat.min_eq_right (Nat.le_of_lt hgt)]
    refine ⟨by rw [hbeacon, if_pos rfl], fun k hk => by rw [hbeacon, if_neg (Ne.symm hk)], fun h => absurd h hle,
      fun _ => ⟨by rw [hbf], fun g hg => ?_, passes⟩⟩
    simp only [hbf, State.ownerStopped, hg, Option.elim_some]

end

section
/-! A calibration result that finds no gap within 1 s is discarded, and its block runs again (R499). -/
namespace Sys2Proof.Machine
open Sys2Proof

/-! ## Runs and gaps -/

/-- A report leaves the sensors' readings as they were. -/
theorem State.Reports.temp {a b : State} (h : a.Reports b) : b.watch.temp = a.watch.temp := (congrArg Watch.temp h.watch :)

/-- A run that starts after a report takes the reading and the device time of before it (R495). -/
theorem State.startRun_of_reports {a c : State} (h : a.Reports c) (b : Nat) : c.startRun b = c.modBlock b fun k =>
    { k with running := true, temp := a.watch.temp.at (calSensor b), dev := a.clock.devtime } := by
  rw [← h.temp, ← h.clock]
  rfl

/-- Only a peer receiver, blocks 14 to 16, asks its neighbour for a gap (R498). -/
theorem State.askGap_of_lt {b : Nat} (hb : b < 14) (s : State) (since : Nat) : s.askGap b since = s :=
  if_neg fun h => Nat.not_le.mpr hb h.1

/-! ## CALIBRATION_NO_GAP -/

/-- The results that wait in block `b` are dropped with status 0x0A23, and the block is no longer in its run. -/
def State.discardRun (s : State) (b : Nat) : State :=
  (s.modBlock b fun k => { k with waiting := none, running := false }).note 0x0A23 10 b

/-- The run after a discarded one starts from the sensor's reading at the discard. -/
theorem State.startRun_discardRun (s : State) (b : Nat) : (s.discardRun b).startRun b = (s.discardRun b).modBlock b fun k =>
    { k with running := true, temp := s.watch.temp.at (calSensor b), dev := s.clock.devtime } :=
  State.startRun_of_reports (State.note_reports _ _ _ _ _) b

section
variable {s : State} {t b since : Nat} {lanes : List (Nat × CalLane)} {image : Bytes}
  (hw : ((s.at t).power.blocks.at b).waiting = some (since, lanes, image))
include hw

/-- Within 1 s of its measurement a result goes on waiting. -/
theorem calNoGapEffect_of_early (early : (s.at t).clock.timebase < since + 1000000000) : calNoGapEffect t b s = s.at t := by
  simp only [calNoGapEffect, hw, State.now, early, decide_true, Bool.or_true, ↓reduceIte]

/-- From 1 s on the result is discarded, a peer receiver having asked for a gap, and the block runs again. -/
theorem calNoGapEffect_of_late (hc : (s.at t).calibrating = true) (late : ¬ (s.at t).clock.timebase < since + 1000000000) :
    calNoGapEffect t b s = (((s.at t).askGap b since).discardRun b).startRun b := by
  simp only [calNoGapEffect, State.discardRun, hw, hc, State.now, late, Bool.not_true, decide_false, Bool.or_self, Bool.false_eq_true, ↓reduceIte]

end

/-- CALIBRATION_NO_GAP answers a next state. -/
theorem exec_calibrationNoGap (t b : Nat) (s : State) : exec (.calibrationNoGap t b) s = .next (calNoGapEffect t b s) := rfl

end Sys2Proof.Machine
end

section
open Sys2Proof Sys2Proof.Machine

/-- Settles O31: blocks 0 to 13 ask nobody for a gap, so from 1 s on only the discard and the new run act. -/
theorem calibrationNoGapDiscards : Obligations.CalibrationNoGapDiscards := by
  rintro s x t b since lanes image rfl hb hw hc
  rw [exec_calibrationNoGap]
  split
  case isTrue early => rw [calNoGapEffect_of_early hw early]
  case isFalse late =>
    rw [calNoGapEffect_of_late hw hc late, State.askGap_of_lt hb, State.startRun_discardRun, State.discardRun]

end

section
/-! What every step keeps: the queue, the straps, the timebase, the stores' canonical form, Lantern and the fuses. -/
namespace Sys2Proof.Machine
open Sys2Proof

/-! ## Single bits -/

theorem bit_eq_testBit (v i : Nat) : bit v i = v.testBit i := by
  rw [Nat.testBit_eq_decide_div_mod_eq]
  rfl

/-- A word with bit `k` written, as the bits above and below it. -/
theorem setBits_one_eq (v k x : Nat) : setBits v k 1 x = 2 ^ k * (2 * (v / 2 ^ (k + 1)) + x % 2) + v % 2 ^ k := by
  have high : v / 2 ^ (k + 1) * 2 ^ (k + 1) = 2 ^ k * (2 * (v / 2 ^ (k + 1))) := by
    rw [Nat.mul_comm, Nat.pow_succ, Nat.mul_assoc]
  unfold setBits
  rw [high, Nat.pow_one, Nat.mul_add, Nat.mul_comm (x % 2)]
  omega

/-- Writing one bit of a word leaves every other bit. -/
theorem bit_setBits (v k x i : Nat) : bit (setBits v k 1 x) i = if i = k then x.testBit 0 else bit v i := by
  rw [bit_eq_testBit, bit_eq_testBit, setBits_one_eq, Nat.testBit_two_pow_mul_add _ (Nat.mod_lt _ (Nat.two_pow_pos k))]
  rcases Nat.lt_trichotomy i k with h | rfl | h
  · simp [h, Nat.ne_of_lt h]
  · simp
  · obtain ⟨j, rfl⟩ := Nat.exists_eq_add_of_lt h
    have upper : k + j + 1 - k = j + 1 := by omega
    rw [if_neg (by omega), if_neg (by omega), upper, Nat.testBit_succ, Nat.mul_add_div Nat.two_pos,
      Nat.div_eq_of_lt (Nat.mod_lt x Nat.two_pos), Nat.add_zero, Nat.testBit_div_two_pow, Nat.add_right_comm, Nat.add_comm]

theorem bit_setBits_one (v k i : Nat) : bit (setBits v k 1 1) i = (i == k || bit v i) := by
  rw [bit_setBits]
  by_cases h : i = k <;> simp [h]

theorem bit_setBits_zero (v k i : Nat) : bit (setBits v k 1 0) i = (i != k && bit v i) := by
  rw [bit_setBits]
  by_cases h : i = k <;> simp [h]

/-- Adding the weight of a bit that is clear sets it. -/
theorem add_two_pow_eq_setBits {v k : Nat} (h : bit v k = false) : v + 2 ^ k = setBits v k 1 1 := by
  have even : v / 2 ^ k = 2 * (v / 2 ^ k / 2) := by
    simp only [bit, beq_eq_false_iff_ne] at h
    omega
  rw [setBits_one_eq, Nat.pow_succ, ← Nat.div_div_eq_div_mul, Nat.mul_add, ← even, Nat.one_mod, Nat.mul_one]
  have := Nat.div_add_mod v (2 ^ k)
  omega

/-! ## The step -/

/-- With no command waiting, one timebase cycle passes. -/
theorem step_of_empty {s : State} (h : s.pending = []) : step s = .next (s.at (s.now + 4)) := by
  unfold step
  rw [h]

/-- With a command waiting, it acts on the rest of the queue. -/
theorem step_of_cons {s : State} {c : Instr} {rest : List Instr} (h : s.pending = c :: rest) :
    step s = exec c { s with pending := rest } := by
  unfold step
  rw [h]

/-- What a step can do: let a cycle pass on an empty queue, or run the front command. -/
theorem step_cases {s s' : State} (h : step s = .next s') :
    (s.pending = [] ∧ s' = s.at (s.now + 4)) ∨ ∃ c rest, s.pending = c :: rest ∧ exec c { s with pending := rest } = .next s' := by
  cases hp : s.pending with
  | nil =>
    rw [step_of_empty hp] at h
    exact .inl ⟨rfl, by cases h; rfl⟩
  | cons c rest => exact .inr ⟨c, rest, rfl, (step_of_cons hp).symm.trans h⟩

/-- What every step keeps, once some time has passed and the front command has left the queue. -/
theorem step_keeps {s s' : State} (h : step s = .next s') :
    ∃ t, Keeps false false (({ s with pending := s.pending.tail } : State).at t) s' := by
  rcases step_cases h with ⟨hp, rfl⟩ | ⟨c, rest, hp, he⟩
  · refine ⟨s.now + 4, ?_⟩
    rw [hp, List.tail_nil, ← hp]
    exact Keeps.refl _ _ _
  · obtain ⟨t, k⟩ := exec_next_keeps he
    exact ⟨t, by rw [hp]; exact k.weaken (fun e => nomatch e) (fun e => nomatch e)⟩

/-- Time passing changes nothing but the clock. -/
theorem State.at_rest (s : State) (t : Nat) : { s.at t with clock := s.clock } = s := by
  unfold State.at
  split <;> rfl

/-- One cycle later the count is 4 ns higher (R52). -/
theorem State.at_cycle (s : State) : (s.at (s.now + 4)).clock.timebase = s.clock.timebase + 4 := by
  unfold State.at State.now
  rw [if_neg (by omega)]
  simp only [Clock.advance_timebase]
  omega

/-! ## Fuses -/

theorem Fuses.Blown.refl (a : Fuses) : a.Blown a := ⟨Nat.le_refl _, fun _ => id, rfl⟩

theorem Fuses.Blown.trans {a b c : Fuses} (h : a.Blown b) (k : b.Blown c) : a.Blown c := by
  obtain ⟨svn, rev, rest⟩ := h
  obtain ⟨svn', rev', rest'⟩ := k
  refine ⟨Nat.le_trans svn svn', fun i e => rev' i (rev i e), ?_⟩
  rw [rest', rest]

theorem Fuses.Blown.of_eq {a b : Fuses} (h : b = a) : a.Blown b := h ▸ Fuses.Blown.refl a

/-- Raising the anti-rollback counter only blows fuses. -/
theorem Fuses.blown_svn (a : Fuses) (n : Nat) : a.Blown { a with svn := max a.svn n } := ⟨Nat.le_max_left _ _, fun _ => id, rfl⟩

/-- A key revocation only blows fuses. -/
theorem Fuses.blown_revoke (a : Fuses) (k : Nat) : a.Blown { a with revoked := setBits a.revoked k 1 1 } :=
  ⟨Nat.le_refl _, fun i h => by rw [bit_setBits_one, h, Bool.or_true], rfl⟩

/-- The first READY after a boot only blows fuses (R463). -/
theorem State.blowFuses_blown (s : State) : s.fuses.Blown s.blowFuses.fuses := by
  have revokes : ∀ (keys : List Nat) (y : State), y.fuses.Blown (keys.foldl (fun s k =>
      ({ s with fuses := { s.fuses with revoked := setBits s.fuses.revoked k 1 1 } } : State).note 0x0A13 10 k) y).fuses := by
    intro keys
    induction keys with
    | nil => exact fun y => .refl _
    | cons k keys ih =>
      intro y
      have first : y.fuses.Blown (({ y with fuses := { y.fuses with revoked := setBits y.fuses.revoked k 1 1 } } : State).note 0x0A13 10 k).fuses :=
        Fuses.blown_revoke y.fuses k
      exact first.trans (ih _)
  unfold State.blowFuses
  dsimp only
  split
  · exact .refl _
  · refine .trans ?_ (revokes _ _)
    split
    · exact Fuses.blown_svn _ _
    · exact .refl _

/-- READY only blows fuses. -/
theorem State.enterReady_blown (s : State) : s.fuses.Blown s.enterReady.fuses := by
  have reports : ∀ y : State, ((y.event 0 0 0xFF [1]).updateHealth.serveHeld).fuses = y.fuses := fun y =>
    (State.serveHeld_keeps (kl := true) _ (State.updateHealth_keeps _ (State.event_keeps _ _ _ _ _ _ (Keeps.refl true true y)))).fuses rfl
  unfold State.enterReady
  dsimp only
  rw [reports]
  split
  · exact (Fuses.Blown.of_eq (by rfl)).trans (State.blowFuses_blown _)
  · exact .refl _

/-- The end of start-up only blows fuses. -/
theorem firmwareReadyEffect_blown (t : Nat) (fails : List StartFail) (s : State) : (s.at t).fuses.Blown (firmwareReadyEffect t fails s).fuses := by
  have starts : Keeps true true (s.at t)
      (fails.foldl State.startFail ((((s.at t).applyProfile fails).trainMemory fails).zeroMemory.applyRepairs)) :=
    Keeps.foldl (State.applyRepairs_keeps _ (State.zeroMemory_keeps _ (State.trainMemory_keeps _ _ (State.applyProfile_keeps _ _ (.refl _ _ _)))))
      fun _ _ h => State.startFail_keeps _ _ h
  unfold firmwareReadyEffect
  dsimp only
  split
  · exact .refl _
  split
  · exact .of_eq ((State.backToRecovery_keeps (kl := true) _ (.refl _ _ _)).fuses rfl)
  split
  · exact .of_eq ((State.fatal_keeps (kl := true) _ _ (State.trainMemory_keeps _ _ (State.applyProfile_keeps _ _ (.refl _ _ _)))).fuses rfl)
  split
  · exact .of_eq (starts.fuses rfl)
  · exact (Fuses.Blown.of_eq (starts.fuses rfl)).trans (State.enterReady_blown _)

/-- A command that may blow fuses only blows them. -/
theorem exec_blown {c : Instr} {s s' : State} (e : exec c s = .next s') : s.fuses.Blown s'.fuses := by
  by_cases hb : blowsFuses c = false
  · obtain ⟨t, k⟩ := exec_next_keeps e
    exact .of_eq ((k.fuses (by rw [hb]; rfl)).trans (State.at_fuses s t))
  · cases c with
    | firmwareReady t fails =>
      have run : exec (.firmwareReady t fails) s = .next (firmwareReadyEffect t fails s) := rfl
      rw [run] at e
      cases e
      have h := firmwareReadyEffect_blown t fails s
      rwa [State.at_fuses] at h
    | _ => exact absurd rfl hb

/-! ## The field die -/

/-- A set-point from a frame keeps Lantern safe. -/
theorem State.onFrame_takeSetpoint_safe {s : State} (h : s.lantern.Safe) (f : Bytes) (mine : Bool) (sp : State → Setpoint) :
    (s.onFrame f mine fun s => s.takeSetpoint (fChan f) (sp s)).lantern.Safe :=
  State.onFrame_safe h fun _ => State.takeSetpoint_live

theorem State.onFrame_configWrite_safe {s : State} (h : s.lantern.Safe) (f : Bytes) (mine : Bool) :
    (s.onFrame f mine fun s =>
      if (s.lchan (fChan f)).state == .off then
        (s.modLChan (fChan f) fun c => { c with block := putBytes c.block (fld f 8 1) (sub f 0xC 16) }).lanternAck f 0
      else s.lanternAck f 0x0803).lantern.Safe :=
  State.onFrame_safe h fun _ live => State.ite_live (State.lanternAck_live (State.modLChan_live live fun _ hc => hc)) (State.lanternAck_live live)

theorem State.onFrame_disable_safe {s : State} (h : s.lantern.Safe) (f : Bytes) (mine : Bool) :
    (s.onFrame f mine fun s =>
      ((s.modLChan (fChan f) fun c => { c.rest .off with use := none, clamped := false, blockP := false, blockN := false }).emit
        (.enable (fChan f) false)).lanternAck f 0).lantern.Safe :=
  State.onFrame_safe h fun _ live => State.lanternAck_live (State.emit_live (State.modLChan_live live fun c _ => c.rest_safe .off))

theorem State.onFrame_enable_safe {s : State} (h : s.lantern.Safe) (f : Bytes) (mine : Bool) :
    (s.onFrame f mine fun s =>
      let ch := fChan f
      if (s.lchan ch).state != .off then s.lanternAck f 0
      else if s.lantern.selftestFail then s.lanternAck f 0x080D
      else if !blockOk ch (s.lchan ch).block then s.lanternAck f 0x0802
      else (s.arm ch).lanternAck f 0).lantern.Safe :=
  State.onFrame_safe h fun _ live => State.ite_live (State.lanternAck_live live) (State.ite_live (State.lanternAck_live live)
    (State.ite_live (State.lanternAck_live live) (State.lanternAck_live (State.arm_live live))))

/-- A tripped channel's enable is low, so a cleared trip leaves an ARMED channel's low. -/
theorem State.onFrame_clearTrip_safe {s : State} (h : s.lantern.Safe) (f : Bytes) (mine : Bool) :
    (s.onFrame f mine fun s =>
      let c := s.lchan (fChan f)
      if c.state != .tripped then s.lanternAck f 0
      else if c.overs then s.lanternAck f 0x0806
      else (s.modLChan (fChan f) fun c => { c with state := .armed }).lanternAck f 0).lantern.Safe := by
  refine State.onFrame_safe h fun y live => ?_
  dsimp only
  split
  · exact State.lanternAck_live live
  case isFalse hst =>
    refine State.ite_live (State.lanternAck_live live) (State.lanternAck_live ?_)
    have tripped : (y.lchan (fChan f)).state = .tripped := by simpa using hst
    have low : (y.lchan (fChan f)).enable ≠ true := fun high => by
      rcases live.2 (fChan f) high with e | e <;> rw [tripped] at e <;> cases e
    refine ⟨live.1, fun j => ?_⟩
    show ((y.lantern.chans.mod (fChan f) _).at j).Safe
    rw [Tab.at_mod]
    split
    · exact fun high => absurd high low
    · exact live.2 j

theorem State.onFrame_setPosition_safe {s : State} (h : s.lantern.Safe) (f : Bytes) (mine : Bool) :
    (s.onFrame f mine fun s =>
      let c := s.lchan (fChan f)
      if fChan f < 4 && c.state != .run && c.state != .ramp then
        (s.modLChan (fChan f) fun c => { c with reref := some (toSigned 32 (fld f 0xC 4)), pending := [] }).lanternAck f 0
      else s.lanternAck f 0x080E).lantern.Safe :=
  State.onFrame_safe h fun _ live => State.ite_live (State.lanternAck_live (State.modLChan_live live fun _ hc => hc)) (State.lanternAck_live live)

theorem State.onFrame_linkAck_safe {s : State} (h : s.lantern.Safe) (f : Bytes) (mine : Bool) :
    (s.onFrame f mine fun s => (s.modLantern fun x => { x with boot := false }).lanternAck f 0).lantern.Safe :=
  State.onFrame_safe h fun _ live => State.lanternAck_live (State.modLantern_live live (fun _ => rfl) fun _ => rfl)

/-- What happens only where Lantern runs, and there leaves it live, keeps it safe. -/
theorem State.ite_running_safe {s y : State} {p : Prop} [Decidable p] (h : s.lantern.Safe) (hp : p → s.lantern.stage = .running)
    (hy : s.Live → y.Live) : (if p then y else s).lantern.Safe := by
  split
  case isTrue hc => exact (hy ⟨hp hc, h.1⟩).safe
  case isFalse => exact h

theorem State.loopStep_live {s : State} (h : s.Live) (ins : List ChanIn) :
    ((List.range 6).foldl (fun s ch => s.stepChan ch ins[ch]?) (s.modLantern fun x => { x with step := (x.step + 1) % 2 ^ 32 })).Live :=
  State.foldl_live (State.modLantern_live h (fun _ => rfl) fun _ => rfl) fun _ _ => State.stepChan_live

/-- The self-test ends with Lantern running and every channel OFF still. -/
theorem State.selftestPassed_live {s : State} (h : s.lantern.Safe) (fail : Bool) :
    ((s.modLantern fun x => { x with stage := .running, selftestFail := fail }).modField fun x => { x with sent := [] }).Live := ⟨rfl, h.1⟩

/-- LANTERN_RESET_ENTRY leaves Lantern as after a reset. -/
theorem State.enablesLow_lantern (s : State) (chs : List Nat) : (chs.foldl (fun s ch => s.emit (.enable ch false)) s).lantern = s.lantern := by
  induction chs generalizing s with
  | nil => rfl
  | cons ch chs ih => exact ih _

theorem Lantern.Safe.countBad {x : Lantern} (h : x.Safe) (v : FrameVerdict) : (x.countBad v).Safe := by
  cases v <;> exact h

/-- A command of the field die keeps Lantern safe. -/
theorem exec_fieldDie_safe {c : Instr} (hc : onFieldDie c = true) {s s' : State} (hs : s.lantern.Safe) (e : exec c s = .next s') :
    s'.lantern.Safe := by
  have h : ∀ t, (s.at t).lantern.Safe := fun t => by rwa [State.at_lantern]
  have runs : ∀ {y : State} {b : Bool}, (y.lantern.stage == .running && b) = true → y.lantern.stage = .running := fun hb =>
    beq_iff_eq.mp (Bool.and_eq_true_iff.mp hb).1
  cases c with
  | motorSetpoint t f => cases e; exact State.onFrame_takeSetpoint_safe (h t) _ _ _
  | coolerSetpoint t f => cases e; exact State.onFrame_takeSetpoint_safe (h t) _ _ _
  | configWrite t f => cases e; exact State.onFrame_configWrite_safe (h t) _ _
  | controlDisable t f => cases e; exact State.onFrame_disable_safe (h t) _ _
  | controlEnable t f => cases e; exact State.onFrame_enable_safe (h t) _ _
  | controlClearTrip t f => cases e; exact State.onFrame_clearTrip_safe (h t) _ _
  | controlSetPosition t f => cases e; exact State.onFrame_setPosition_safe (h t) _ _
  | linkAck t f => cases e; exact State.onFrame_linkAck_safe (h t) _ _
  | loopStep t ins => cases e; exact State.ite_running_safe (h t) beq_iff_eq.mp fun live => State.loopStep_live live ins
  | watchdogExpiry t ch => cases e; exact State.ite_running_safe (h t) beq_iff_eq.mp State.checkWatchdog_live
  | limitTrip t ch positive =>
    cases e
    refine State.ite_running_safe (h t) runs fun live => State.limitTrip_live (State.modLChan_live live fun _ hc => ?_)
    split <;> exact hc
  | overcurrentTrip t ch =>
    cases e
    exact State.ite_running_safe (h t) runs fun live => State.tripChan_live (State.modLChan_live live fun _ hc => hc)
  | vfieldUndervoltageTrip t =>
    cases e
    exact State.ite_running_safe (h t) beq_iff_eq.mp fun live => State.foldl_live live fun _ _ => State.tripChan_live
  | lanternResetRelease t mv =>
    cases e
    split
    case isTrue hc =>
      have reset : (s.at t).lantern.stage = .reset := beq_iff_eq.mp (Bool.and_eq_true_iff.mp hc).1
      exact ⟨(h t).1, fun _ => (h t).2 (by rw [reset]; nofun)⟩
    case isFalse => exact h t
  | lanternResetEntry t =>
    cases e
    rw [State.enablesLow_lantern]
    exact Lantern.reset_safe
  | lanternSelftestComplete t pass =>
    cases e
    split
    · exact (State.sendLinkStatus_live (State.freeBytes_live (State.selftestPassed_live (h t) _))).safe
    · exact h t
  | channelStatusSend t ch =>
    cases e
    exact State.ite_running_safe (h t) (fun hc => runs (Bool.and_eq_true_iff.mp hc).1) State.sendChanStatus_live
  | linkStatusSend t mv temp =>
    cases e
    exact State.ite_running_safe (h t) beq_iff_eq.mp fun live =>
      State.sendLinkStatus_live (State.intField_live (State.modLantern_live live (fun _ => rfl) fun _ => rfl))
  | fieldFrameDiscard t toLantern f =>
    cases e
    split
    · split
      · exact (h t).countBad _
      · exact h t
    · split <;> exact h t
  | _ => cases hc

/-- Every command keeps Lantern safe. -/
theorem exec_safe {c : Instr} {s s' : State} (h : s.lantern.Safe) (e : exec c s = .next s') : s'.lantern.Safe := by
  rcases Bool.eq_false_or_eq_true (onFieldDie c) with hc | hc
  · exact exec_fieldDie_safe hc h e
  · obtain ⟨t, k⟩ := exec_next_keeps e
    rw [k.lantern (by rw [hc]; rfl), State.at_lantern]
    exact h

end Sys2Proof.Machine
end

section
open Sys2Proof Sys2Proof.Machine

/-- Settles O1. -/
theorem stepRunsFrontCommand : Obligations.StepRunsFrontCommand := fun _ _ _ => step_of_cons

/-- Settles O2: every command's lemma gives the next state it answers, and the one refusal is that of an opened debug unit. -/
theorem everyCommandCompletes : Obligations.EveryCommandCompletes := by
  intro c s
  by_cases h : ∀ t, c = .jtagDebugCommand t → s.fuses.debugOpen = false
  · obtain ⟨t, s', e, -⟩ := exec_keeps c s h
    exact .inl ⟨s', e⟩
  · obtain ⟨t, ht⟩ := Classical.not_forall.mp h
    obtain ⟨rfl, shut⟩ := Classical.not_imp.mp ht
    have opened : s.fuses.debugOpen = true := (Bool.not_eq_false _).mp shut
    refine .inr ⟨?_, ⟨t, rfl⟩, opened⟩
    show execJtagDebugCommand t s = _
    exact if_pos (by rw [State.at_fuses]; exact opened)

/-- Settles O3: what a step keeps holds the canonical form. -/
theorem memoryStaysCanonical : Obligations.MemoryStaysCanonical := by
  intro s s' wf e
  obtain ⟨t, k⟩ := step_keeps e
  exact k.mem (State.at_memWf.mpr wf)

/-- Settles O4: the reset state lists no cell and no command, and its Lantern is as after a reset. -/
theorem invariantsHoldAtReset : Obligations.InvariantsHoldAtReset :=
  ⟨⟨rfl, rfl⟩, rfl, rfl, rfl, Lantern.reset_safe, by decide⟩

/-- Settles O5: a step keeps the count of its command's time, which time reaches in whole cycles. -/
theorem timebaseNeverRunsBack : Obligations.TimebaseNeverRunsBack := by
  intro s s' e
  obtain ⟨t, k⟩ := step_keeps e
  obtain ⟨n, hn⟩ := State.at_timebase { s with pending := s.pending.tail } t
  exact ⟨n, k.timebase.trans hn⟩

/-- Settles O6: the queue and the straps are among what a step keeps; on an empty queue only a cycle passes. -/
theorem queueTakenInOrder : Obligations.QueueTakenInOrder := by
  refine ⟨fun s s' e => ?_, fun s hp => ⟨_, step_of_empty hp, State.at_cycle s, State.at_rest _ _⟩⟩
  obtain ⟨t, k⟩ := step_keeps e
  exact ⟨k.pending.trans (State.at_pending _ _), k.straps.trans (State.at_straps _ _)⟩

/-- Settles O7: a command of the host die keeps Lantern whole. -/
theorem fieldDieKeepsItself : Obligations.FieldDieKeepsItself := by
  intro c s s' hc e
  obtain ⟨t, k⟩ := exec_next_keeps e
  exact (k.lantern (by rw [hc]; rfl)).trans (State.at_lantern s t)

/-- Settles O8: only FIRMWARE_READY changes fuses, and it raises the counter to a maximum and sets bits. -/
theorem fusesOnlyBlown : Obligations.FusesOnlyBlown := by
  intro s s' e
  rcases step_cases e with ⟨-, rfl⟩ | ⟨c, rest, -, he⟩
  · exact .of_eq (State.at_fuses _ _)
  · exact exec_blown (s := { s with pending := rest }) he

/-- Settles O9: time leaves Lantern alone, a command of the host die too, and each of the field die's own keeps it safe. -/
theorem enablesFollowState : Obligations.EnablesFollowState := by
  intro s s' h e
  rcases step_cases e with ⟨-, rfl⟩ | ⟨c, rest, -, he⟩
  · rwa [State.at_lantern]
  · exact exec_safe (s := { s with pending := rest }) h he

end

section
/-! The mailbox pairs (R370 to R375), events and interrupts (R385, R386), and the host's registers (R367 to R369, R476). -/
namespace Sys2Proof

/-- Two changes of one entry are one. -/
theorem Tab.mod_mod {n : Nat} {α : Type} (t : Tab n α) (i : Nat) (f g : α → α) : (t.mod i f).mod i g = t.mod i fun x => g (f x) := by
  unfold Tab.mod
  split <;> simp

end Sys2Proof

namespace Sys2Proof.Machine
open Sys2Proof

/-! ## What a command that completes leaves -/

theorem Completes.of_next {c : Instr} {s s' : State} {P : State → Prop} (e : exec c s = .next s') (h : P s') : Completes c s P := ⟨s', e, h⟩

/-! ## Mailbox pairs -/

theorem PairOnly.modPair (s : State) (p : Nat) (f : Pair → Pair) : PairOnly s (s.modPair p f) p :=
  ⟨fun _ hk => Tab.at_mod_other _ _ _ _ (Ne.symm hk), rfl⟩

@[simp] theorem State.modPair_at_same (s : State) {p : Nat} (hp : p < 16) (f : Pair → Pair) :
    (s.modPair p f).pci.pairs.at p = f (s.pci.pairs.at p) := Tab.at_mod_same _ _ _ hp

theorem State.modPair_modPair (s : State) (p : Nat) (f g : Pair → Pair) : (s.modPair p f).modPair p g = s.modPair p fun q => g (f q) := by
  simp only [State.modPair, State.modPci, Tab.mod_mod]

/-- Host memory written leaves the pairs and the reach of the host. -/
theorem State.hostPut_hostReach (s : State) (a : Nat) (b : Bytes) : (s.hostPut a b).hostReach = s.hostReach := rfl

theorem State.discardWrite_pairs (s : State) : s.discardWrite.pci.pairs = s.pci.pairs := rfl

section
variable {s : State} {p v : Nat} (hp : p < 16)
include hp

/-- Setting ENABLE on a stopped pair with sizes from 1 to 8 enables it. -/
theorem State.setEnable_of_stopped (hd : (s.pci.pairs.at p).enabled = false) (he : (s.pci.pairs.at p).enable = false)
    (h1 : 1 ≤ bits v 4 4) (h2 : bits v 4 4 ≤ 8) (h3 : 1 ≤ bits v 0 4) (h4 : bits v 0 4 ≤ 8) :
    s.setEnable p v = s.modPair p fun q =>
      { q.idle with enable := true, enabled := true, fetchErr := false, writeErr := false, rspLog2 := bits v 4 4, reqLog2 := bits v 0 4 } := by
  simp [State.setEnable, State.writeSizes, hd, he, hp, h1, h2, h3, h4, State.modPair_modPair, Pair.idle, -State.modPair_pci]

/-- Clearing ENABLE on an idle pair in use stops it; the size fields of that write are discarded. -/
theorem State.clearEnable_of_idle (he : (s.pci.pairs.at p).enabled = true) (hc : (s.pci.pairs.at p).cur = none) :
    PairOnly s.discardWrite (s.clearEnable p v) p ∧ (s.clearEnable p v).pci.pairs.at p = { (s.pci.pairs.at p).idle with enable := false } := by
  have hw : s.writeSizes p v = s.discardWrite := by simp [State.writeSizes, he]
  unfold State.clearEnable
  rw [hw]
  exact ⟨PairOnly.modPair _ _ _, by simp [hp, State.discardWrite_pairs, hc, -State.modPair_pci]⟩

/-- A doorbell is taken when the pair is enabled and the pending count neither exceeds the entries nor falls. -/
theorem State.ringDoorbell_eq {q : Pair} (hq : s.pci.pairs.at p = q) :
    if q.enabled = true ∧ (v % 2 ^ 16 + 2 ^ 16 - q.reqHead) % 2 ^ 16 ≤ q.reqEntries ∧ q.waiting ≤ (v % 2 ^ 16 + 2 ^ 16 - q.reqHead) % 2 ^ 16
    then PairOnly s (s.ringDoorbell p v) p ∧ (s.ringDoorbell p v).pci.pairs.at p = { q with reqTail := v % 2 ^ 16 }
    else s.ringDoorbell p v = s.discardWrite := by
  unfold State.ringDoorbell
  rw [hq]
  dsimp only
  generalize (v % 2 ^ 16 + 2 ^ 16 - q.reqHead) % 2 ^ 16 = pend
  split
  case isTrue h =>
    obtain ⟨he, hle, hge⟩ := h
    have taken : (!q.enabled || decide (q.reqEntries < pend) || decide (pend < q.waiting)) = false := by
      simp [he, Nat.not_lt.mpr hle, Nat.not_lt.mpr hge]
    rw [taken]
    exact ⟨PairOnly.modPair _ _ _, by simp [hp, hq, -State.modPair_pci]⟩
  case isFalse h =>
    refine if_pos ?_
    refine Decidable.byContradiction fun hn => ?_
    simp only [Bool.or_eq_true, Bool.not_eq_true', decide_eq_true_eq, not_or, Bool.not_eq_false, Nat.not_lt] at hn
    exact h ⟨hn.1.1, hn.1.2, hn.2⟩

/-- A response head is taken when the pair is enabled and it does not pass RSP_TAIL. -/
theorem State.writeRspHead_eq {q : Pair} (hq : s.pci.pairs.at p = q) :
    if q.enabled = true ∧ (q.rspTail + 2 ^ 16 - v % 2 ^ 16) % 2 ^ 16 ≤ (q.rspTail + 2 ^ 16 - q.rspHead) % 2 ^ 16
    then PairOnly s (s.writeRspHead p v) p ∧ (s.writeRspHead p v).pci.pairs.at p = { q with rspHead := v % 2 ^ 16 }
    else s.writeRspHead p v = s.discardWrite := by
  unfold State.writeRspHead
  rw [hq]
  dsimp only
  generalize (q.rspTail + 2 ^ 16 - v % 2 ^ 16) % 2 ^ 16 = left
  generalize (q.rspTail + 2 ^ 16 - q.rspHead) % 2 ^ 16 = out
  split
  case isTrue h =>
    have taken : (!q.enabled || decide (out < left)) = false := by
      simp [h.1, Nat.not_lt.mpr h.2]
    rw [taken]
    exact ⟨PairOnly.modPair _ _ _, by simp [hp, hq, -State.modPair_pci]⟩
  case isFalse h =>
    refine if_pos ?_
    refine Decidable.byContradiction fun hn => ?_
    simp only [Bool.or_eq_true, Bool.not_eq_true', decide_eq_true_eq, not_or, Bool.not_eq_false, Nat.not_lt] at hn
    exact h hn

end

section
variable {s : State} {t : Nat} (h : (s.at t).hostReach = true)
include h

theorem exec_mbxEnable (p v : Nat) : exec (.mbxEnable t p v) s = .next ((s.at t).setEnable p v) := congrArg Host.Outcome.next (if_pos h)

theorem exec_mbxDisable (p v : Nat) : exec (.mbxDisable t p v) s = .next ((s.at t).clearEnable p v) := congrArg Host.Outcome.next (if_pos h)

theorem exec_mbxReqDoorbell (p v a : Nat) (b : Bytes) : exec (.mbxReqDoorbell t p v [(a, b)]) s = .next (((s.at t).hostPut a b).ringDoorbell p v) :=
  congrArg Host.Outcome.next (if_pos h)

theorem exec_mbxRspHeadWrite (p v : Nat) : exec (.mbxRspHeadWrite t p v) s = .next ((s.at t).writeRspHead p v) :=
  congrArg Host.Outcome.next (if_pos h)

end

end Sys2Proof.Machine
end

section
open Sys2Proof Sys2Proof.Machine

/-- Settles O10: each write acts on its pair alone where it is valid, and is discarded elsewhere. -/
theorem hostPairWrites : Obligations.HostPairWrites := by
  rintro s x t p v q hp rfl hreach rfl
  refine ⟨fun hd he h1 h2 h3 h4 => ?_, fun he hc => ?_, fun a b => ?_, ?_⟩
  · refine .of_next (exec_mbxEnable hreach p v) ?_
    rw [State.setEnable_of_stopped hp hd he h1 h2 h3 h4]
    exact ⟨PairOnly.modPair _ _ _, State.modPair_at_same _ hp _⟩
  · exact .of_next (exec_mbxDisable hreach p v) (State.clearEnable_of_idle hp he hc)
  · exact .of_next (exec_mbxReqDoorbell hreach p v a b) (State.ringDoorbell_eq hp rfl)
  · exact .of_next (exec_mbxRspHeadWrite hreach p v) (State.writeRspHead_eq hp rfl)

end

section
/-! Responses, events, interrupts and the taking of requests (R372, R375 to R378, R385, R386). -/
namespace Sys2Proof.Machine
open Sys2Proof

/-! ## Little-endian bytes and logs -/

@[simp] theorem leBytes_length (n v : Nat) : (leBytes n v).length = n := by
  induction n generalizing v with
  | zero => rfl
  | succ n ih => simp [leBytes, ih]

/-- The newest records of a log are kept. -/
theorem mem_keepLast_append {α : Type} {n : Nat} {l k : List α} (h : k.length ≤ n) {x : α} (hx : x ∈ k) : x ∈ keepLast n (l ++ k) := by
  unfold keepLast
  rw [List.length_append, List.drop_append]
  exact List.mem_append_right _ (by rwa [show l.length + k.length - n - l.length = 0 by omega])

/-- A record pushed stands last. -/
theorem keepLast_append_singleton {α : Type} {n : Nat} (hn : 0 < n) (l : List α) (x : α) : ∃ m, keepLast n (l ++ [x]) = m ++ [x] := by
  refine ⟨l.drop ((l ++ [x]).length - n), ?_⟩
  have : (l ++ [x]).length - n ≤ l.length := by simp; omega
  exact List.drop_append_of_le_length this

/-! ## Interrupts (R385) -/

/-- A vector whose bit is set stays as it is. -/
theorem State.raise_of_set {s : State} {v : Nat} (h : bit s.pci.cause v = true) : s.raise v = s := if_pos h

/-- Raising a vector sets its cause bit and no other. -/
theorem State.bit_raise (s : State) (v k : Nat) : bit (s.raise v).pci.cause k = (k == v || bit s.pci.cause k) := by
  rcases Bool.eq_false_or_eq_true (bit s.pci.cause v) with h | h
  · rw [State.raise_of_set h]
    by_cases hk : k = v <;> simp [hk, h]
  · have sets : (s.raise v).pci.cause = s.pci.cause + 2 ^ v := by
      unfold State.raise
      rw [h, if_neg Bool.false_ne_true]
      dsimp only
      split <;> rfl
    rw [sets, add_two_pow_eq_setBits h, bit_setBits_one]

/-- What neither the cause bits nor the pending bits nor the outputs hold, raising a vector leaves alone. -/
theorem State.raise_keeps_eq {α : Type} (f : State → α)
    (hf : ∀ (s : State) (c b : Nat) (o : List Output), f { s with pci := { s.pci with cause := c, pendingBits := b }, out := o } = f s) (s : State) (v : Nat) :
    f (s.raise v) = f s := by
  unfold State.raise
  dsimp only
  split
  · rfl
  · split
    · exact hf s _ _ _
    · exact hf s _ _ _

@[simp] theorem State.raise_mem (s : State) (v : Nat) : (s.raise v).mem = s.mem := State.raise_keeps_eq _ (fun _ _ _ _ => rfl) s v
@[simp] theorem State.raise_watch (s : State) (v : Nat) : (s.raise v).watch = s.watch := State.raise_keeps_eq _ (fun _ _ _ _ => rfl) s v
@[simp] theorem State.raise_pairs (s : State) (v : Nat) : (s.raise v).pci.pairs = s.pci.pairs :=
  State.raise_keeps_eq (·.pci.pairs) (fun _ _ _ _ => rfl) s v
@[simp] theorem State.raise_eventNo (s : State) (v : Nat) : (s.raise v).pci.eventNo = s.pci.eventNo :=
  State.raise_keeps_eq (·.pci.eventNo) (fun _ _ _ _ => rfl) s v
@[simp] theorem State.raise_eventsLost (s : State) (v : Nat) : (s.raise v).pci.eventsLost = s.pci.eventsLost :=
  State.raise_keeps_eq (·.pci.eventsLost) (fun _ _ _ _ => rfl) s v

/-- A set cause bit stays set while vectors are raised. -/
theorem State.bit_raise_of_set {s : State} {k : Nat} (h : bit s.pci.cause k = true) (v : Nat) : bit (s.raise v).pci.cause k = true := by
  rw [State.bit_raise, h, Bool.or_true]

theorem State.bit_raiseAll_of_set {vs : List Nat} {s : State} {k : Nat} (h : bit s.pci.cause k = true) : bit (s.raiseAll vs).pci.cause k = true := by
  induction vs generalizing s with
  | nil => exact h
  | cons v vs ih => exact ih (State.bit_raise_of_set h v)

/-- Raising a list sets the cause bit of each of its vectors. -/
theorem State.bit_raiseAll {vs : List Nat} {s : State} {k : Nat} (h : k ∈ vs) : bit (s.raiseAll vs).pci.cause k = true := by
  induction vs generalizing s with
  | nil => cases h
  | cons v vs ih =>
    rcases List.mem_cons.mp h with rfl | h
    · have set : bit (s.raise k).pci.cause k = true := by rw [State.bit_raise, beq_self_eq_true, Bool.true_or]
      exact State.bit_raiseAll_of_set (vs := vs) set
    · exact ih h

/-- What raising a list keeps, when raising one vector keeps it. -/
theorem State.raiseAll_keeps_eq {α : Type} (f : State → α) (hf : ∀ s v, f (s.raise v) = f s) (s : State) (vs : List Nat) :
    f (s.raiseAll vs) = f s := by
  induction vs generalizing s with
  | nil => rfl
  | cons v vs ih => exact (ih _).trans (hf s v)

@[simp] theorem State.raiseAll_watch (s : State) (vs : List Nat) : (s.raiseAll vs).watch = s.watch :=
  State.raiseAll_keeps_eq _ State.raise_watch s vs
@[simp] theorem State.raiseAll_eventNo (s : State) (vs : List Nat) : (s.raiseAll vs).pci.eventNo = s.pci.eventNo :=
  State.raiseAll_keeps_eq (·.pci.eventNo) State.raise_eventNo s vs
@[simp] theorem State.raiseAll_eventsLost (s : State) (vs : List Nat) : (s.raiseAll vs).pci.eventsLost = s.pci.eventsLost :=
  State.raiseAll_keeps_eq (·.pci.eventsLost) State.raise_eventsLost s vs

/-! ## Responses (R372, R375) -/

/-- The header of a message in slot RSP_TAIL of a pair. -/
def Pair.header (q : Pair) (opcode seq tag : Nat) (event : Bool) (len : Nat) : Bytes :=
  leBytes 2 opcode ++ leBytes 2 len ++ leBytes 4 seq ++ leBytes 4 tag ++ leBytes 4 (1 - q.rspTail / q.rspEntries % 2 + 2 * b2n event)

/-- The address of slot RSP_TAIL of a pair. -/
def Pair.slot (q : Pair) : Nat := q.rspBase + (q.rspTail % q.rspEntries) * 4096

theorem Pair.header_length (q : Pair) (opcode seq tag : Nat) (event : Bool) (len : Nat) : (q.header opcode seq tag event len).length = 16 := by
  simp [Pair.header]

/-- A message is the payload and then the header in the slot, the tail advanced, and the pair's vector raised. -/
theorem State.mbxWrite_eq (s : State) (p opcode seq tag : Nat) (event : Bool) (payload : Bytes) :
    s.mbxWrite p opcode seq tag event payload =
      ((((s.hostPut ((s.pci.pairs.at p).slot + 16) payload).hostPut (s.pci.pairs.at p).slot
        ((s.pci.pairs.at p).header opcode seq tag event payload.length)).modPair p fun q => { q with rspTail := (q.rspTail + 1) % 2 ^ 16 }).raise (2 + p)) := rfl

@[simp] theorem State.hostPut_pci (s : State) (a : Nat) (b : Bytes) : (s.hostPut a b).pci = s.pci := rfl
@[simp] theorem State.hostPut_watch (s : State) (a : Nat) (b : Bytes) : (s.hostPut a b).watch = s.watch := rfl
@[simp] theorem State.hostPut_host (s : State) (a : Nat) (b : Bytes) : (s.hostPut a b).mem.host = memWrite s.mem.host a b := rfl

/-- Host memory after a message. -/
theorem State.mbxWrite_host (s : State) (p opcode seq tag : Nat) (event : Bool) (payload : Bytes) :
    (s.mbxWrite p opcode seq tag event payload).mem.host = memWrite (memWrite s.mem.host ((s.pci.pairs.at p).slot + 16) payload) (s.pci.pairs.at p).slot
      ((s.pci.pairs.at p).header opcode seq tag event payload.length) := by
  simp [State.mbxWrite_eq]

/-- The pairs after a message. -/
theorem State.mbxWrite_pairs (s : State) (p opcode seq tag : Nat) (event : Bool) (payload : Bytes) :
    (s.mbxWrite p opcode seq tag event payload).pci.pairs = s.pci.pairs.mod p fun q => { q with rspTail := (q.rspTail + 1) % 2 ^ 16 } := by
  simp [State.mbxWrite_eq]

theorem State.mbxWrite_cause (s : State) (p opcode seq tag : Nat) (event : Bool) (payload : Bytes) :
    bit (s.mbxWrite p opcode seq tag event payload).pci.cause (2 + p) = true := by
  rw [State.mbxWrite_eq, State.bit_raise, beq_self_eq_true, Bool.true_or]

@[simp] theorem State.mbxWrite_watch (s : State) (p opcode seq tag : Nat) (event : Bool) (payload : Bytes) :
    (s.mbxWrite p opcode seq tag event payload).watch = s.watch := by simp [State.mbxWrite_eq]
@[simp] theorem State.mbxWrite_eventNo (s : State) (p opcode seq tag : Nat) (event : Bool) (payload : Bytes) :
    (s.mbxWrite p opcode seq tag event payload).pci.eventNo = s.pci.eventNo := by simp [State.mbxWrite_eq]
@[simp] theorem State.mbxWrite_eventsLost (s : State) (p opcode seq tag : Nat) (event : Bool) (payload : Bytes) :
    (s.mbxWrite p opcode seq tag event payload).pci.eventsLost = s.pci.eventsLost := by simp [State.mbxWrite_eq]

/-- A message written in a slot reads back, header and payload, and no other byte moved. -/
theorem message_reads_back {m : List Host.Cell} (h : memWf m = true) (base : Nat) {hdr payload : Bytes} (hh : hdr.length = 16) :
    memRead (memWrite (memWrite m (base + 16) payload) base hdr) base 16 = hdr ∧
      memRead (memWrite (memWrite m (base + 16) payload) base hdr) (base + 16) payload.length = payload ∧
      ∀ a, a < base ∨ base + 16 + payload.length ≤ a → memGet (memWrite (memWrite m (base + 16) payload) base hdr) a = memGet m a := by
  have h1 := memWrite_wf h (base + 16) payload
  refine ⟨?_, ?_, fun a ha => ?_⟩
  · have := memRead_memWrite h1 base hdr
    rwa [hh] at this
  · rw [memRead_memWrite_disjoint h1 _ _ _ _ (.inr (Nat.le_of_eq (by rw [hh]))), memRead_memWrite h]
  · rw [memGet_memWrite h1, memGet_memWrite h, if_neg (by omega), if_neg (by omega)]

/-- The response of an enabled pair with a free slot is a message, and the request is over. -/
theorem State.respond_eq_mbxWrite {s : State} {p : Nat} {r : MbxReq} (hc : (s.pci.pairs.at p).cur = some r)
    (he : (s.pci.pairs.at p).enabled = true) (hen : (s.pci.pairs.at p).enable = true) (hf : 0 < (s.pci.pairs.at p).rspFree)
    (hw : s.hostWritable = true) (st d : Nat) (rest : Bytes) :
    s.respond p st d rest =
      (s.modPair p fun q => { q with cur := none }).mbxWrite p r.opcode r.seq r.tag false (leBytes 2 st ++ leBytes 2 d ++ rest) := by
  simp only [State.respond, State.deliver, hc, hw, he, hen, hf, decide_true, Bool.and_self, ↓reduceIte]
  rfl

/-! ## Events (R386) -/

theorem State.stampLog_evLog (s : State) (st : Nat) : (s.stampLog st).watch.evLog = s.watch.evLog := rfl

/-- An event's message is written with the next event number, or the event is counted as lost. -/
theorem State.postEvent_counts (s : State) (src : Nat) (b : Bytes) :
    (s.postEvent src b).pci.eventNo = (s.pci.eventNo + 1) % 2 ^ 32 ∧ (s.postEvent src b).pci.eventsLost = s.pci.eventsLost ∨
      (s.postEvent src b).pci.eventNo = s.pci.eventNo ∧ (s.postEvent src b).pci.eventsLost = satInc 32 s.pci.eventsLost := by
  unfold State.postEvent
  dsimp only
  split
  · exact .inl ⟨State.mbxWrite_eventNo _ _ _ _ _ _ _, State.mbxWrite_eventsLost _ _ _ _ _ _ _⟩
  · split <;> exact .inr ⟨rfl, rfl⟩

/-- The event log after an event is posted or dropped: as it was, or with one more record, 0x010B. -/
theorem State.postEvent_evLog (s : State) (src : Nat) (b : Bytes) :
    (s.postEvent src b).watch.evLog = s.watch.evLog ∨ ∃ r, (s.postEvent src b).watch.evLog = s.watch.evLog.push 1024 r := by
  unfold State.postEvent
  dsimp only
  split
  · exact .inl (by rw [State.mbxWrite_watch])
  · split
    · exact .inr ⟨_, rfl⟩
    · exact .inl rfl

/-- A record just pushed is in the log still after one more. -/
theorem Log.mem_push_push (l : Log) {n : Nat} (hn : 2 ≤ n) (r r' : Bytes) : r ∈ ((l.push n r).push n r').recs := by
  obtain ⟨m, hm⟩ := keepLast_append_singleton (Nat.lt_of_lt_of_le Nat.two_pos hn) l.recs r
  show r ∈ keepLast n (keepLast n (l.recs ++ [r]) ++ [r'])
  rw [hm, List.append_assoc]
  exact mem_keepLast_append hn (List.mem_cons_self ..)

theorem Log.mem_push (l : Log) {n : Nat} (hn : 1 ≤ n) (r : Bytes) : r ∈ (l.push n r).recs := mem_keepLast_append hn (List.mem_singleton.mpr rfl)

/-- An event's record stands in the event log. -/
theorem State.event_logged (s : State) (st src u : Nat) (vs : List Nat) (data : Bytes) :
    eventPayload st src u s.deviceHealth.code s.dev data ∈ (s.event st src u vs data).watch.evLog.recs := by
  unfold State.event
  rw [State.raiseAll_watch]
  rcases State.postEvent_evLog (s.logEventRec (eventPayload st src u s.deviceHealth.code s.dev data)) src
    (eventPayload st src u s.deviceHealth.code s.dev data) with h | ⟨r, h⟩
  · rw [h]
    exact Log.mem_push _ (by decide) _
  · rw [h]
    exact Log.mem_push_push _ (by decide) _ _

/-! ## Requests (R376) -/

/-- The state in which a request has been taken from pair `p`. -/
def State.taken (s : State) (p : Nat) (r : MbxReq) : State :=
  (s.modPci fun x => { x with nextPair := (p + 1) % 16, takes := x.takes + 1 }).modPair p fun q =>
    { q with reqHead := (q.reqHead + 1) % 2 ^ 16, cur := some { r with turn := s.pci.takes }, expect := some ((r.seq + 1) % 2 ^ 32) }

section
variable {s x : State} {t p : Nat} {h : Bytes} {r : MbxReq} (hx : s.at t = x) (hserved : x.mailboxesServed = true) (hnext : x.nextTake = some p)
  (hslot : x.slotRequest p = (h, r))
include hx hserved hnext hslot

/-- A request that fails a check is answered with its status. -/
theorem exec_mailboxRequestTake_of_fails {st : Nat} (hst : x.takeStatus p h r = some (st + 1)) :
    exec (.mailboxRequestTake t) s = .next ((x.taken p r).answer p (st + 1)) := by
  have run : exec (.mailboxRequestTake t) s = .next (requestTakeEffect t s) := rfl
  rw [run]
  simp only [requestTakeEffect, hx, hserved, hnext, hslot, hst]
  rfl

/-- A request that passes the checks, or that BOOTING holds back, waits. -/
theorem exec_mailboxRequestTake_of_passes (hst : x.takeStatus p h r = none ∨ x.takeStatus p h r = some 0) :
    exec (.mailboxRequestTake t) s = .next (x.taken p r) := by
  have run : exec (.mailboxRequestTake t) s = .next (requestTakeEffect t s) := rfl
  rw [run]
  simp only [requestTakeEffect, hx, hserved, hnext, hslot]
  rcases hst with hst | hst <;> rw [hst] <;> rfl

end

/-- With no request in progress on any of the pairs, none names what the request names. -/
theorem State.busyOn_eq_false {s : State} {ps : List Nat} (h : ∀ p ∈ ps, (s.pci.pairs.at p).cur = none) (r : MbxReq) : s.busyOn ps r = false := by
  unfold State.busyOn
  rw [List.any_eq_false]
  intro p hp
  rw [h p hp]
  exact Bool.false_ne_true

/-- The pairs other than `p`. -/
theorem State.serveStatus_others {s : State} {p : Nat} {r : MbxReq} (hs : opServed s.pci.state p r.opcode = true) (hl : lengthOk r.opcode r.payload = true)
    (h : ∀ k, k ≠ p → (s.pci.pairs.at k).cur = none) : s.serveStatus ((List.range 16).filter (· != p)) p r = 0 := by
  have idle := State.busyOn_eq_false (s := s) (ps := (List.range 16).filter (· != p)) (fun k hk => h k (by simpa using (List.mem_filter.mp hk).2)) r
  simp [State.serveStatus, hs, hl, idle]

end Sys2Proof.Machine
end

section
open Sys2Proof Sys2Proof.Machine

/-- Settles O11: the response is a message in the pair's slot, which reads back. -/
theorem responseWritten : Obligations.ResponseWritten := by
  rintro s p st d rest q r base hp hwf rfl hcur hen henable hfree hw hlen rfl s'
  have written := State.respond_eq_mbxWrite hcur hen henable hfree hw st d rest
  generalize hs0 : (s.modPair p fun q => { q with cur := none }) = s0 at written
  have hq : s0.pci.pairs.at p = { s.pci.pairs.at p with cur := none } := by rw [← hs0]; exact State.modPair_at_same s hp _
  have hm : s0.mem = s.mem := by rw [← hs0]; rfl
  have hpay : (leBytes 2 st ++ leBytes 2 d ++ rest).length = 4 + rest.length := by simp only [List.length_append, leBytes_length]
  obtain ⟨hdr, pay, other⟩ := message_reads_back hwf ((s.pci.pairs.at p).slot)
    (hdr := (s.pci.pairs.at p).header r.opcode r.seq r.tag false (4 + rest.length)) (payload := leBytes 2 st ++ leBytes 2 d ++ rest)
    (Pair.header_length _ _ _ _ _ _)
  have host : s'.mem.host = memWrite (memWrite s.mem.host ((s.pci.pairs.at p).slot + 16) (leBytes 2 st ++ leBytes 2 d ++ rest)) (s.pci.pairs.at p).slot
      ((s.pci.pairs.at p).header r.opcode r.seq r.tag false (4 + rest.length)) := by
    show (s.respond p st d rest).mem.host = _
    rw [written, State.mbxWrite_host, hq, hm, hpay]
    rfl
  have pairs : s'.pci.pairs.at p = { s.pci.pairs.at p with cur := none, rspTail := ((s.pci.pairs.at p).rspTail + 1) % 2 ^ 16 } := by
    show (s.respond p st d rest).pci.pairs.at p = _
    rw [written, State.mbxWrite_pairs, Tab.at_mod_same _ _ _ hp, hq]
  rw [hpay] at pay other
  refine ⟨?_, ?_, by rw [pairs], by rw [pairs], ?_, fun a ha => ?_⟩
  · rw [host]; exact hdr
  · rw [host]; exact pay
  · show bit (s.respond p st d rest).pci.cause (2 + p) = true
    rw [written]
    exact State.mbxWrite_cause _ _ _ _ _ _ _
  · rw [host]
    exact other a (by unfold Pair.slot; omega)

/-- Settles O12: the record enters the log before the message is posted or dropped, and every vector is raised after it. -/
theorem eventsLoggedAndSignalled : Obligations.EventsLoggedAndSignalled := by
  intro s st src u vs data s'
  refine ⟨State.event_logged s st src u vs data, fun v hv => State.bit_raiseAll hv, ?_⟩
  have counts : s'.pci.eventNo = ((s.logEventRec (eventPayload st src u s.deviceHealth.code s.dev data)).postEvent src
        (eventPayload st src u s.deviceHealth.code s.dev data)).pci.eventNo ∧ s'.pci.eventsLost =
      ((s.logEventRec (eventPayload st src u s.deviceHealth.code s.dev data)).postEvent src
        (eventPayload st src u s.deviceHealth.code s.dev data)).pci.eventsLost := ⟨State.raiseAll_eventNo _ _, State.raiseAll_eventsLost _ _⟩
  rw [counts.1, counts.2]
  exact State.postEvent_counts _ _ _

/-- Settles O13: the cause bit is what decides whether a raise acts. -/
theorem interruptSentOnce : Obligations.InterruptSentOnce := by
  intro s v k
  refine ⟨State.bit_raise s v k, State.raise_of_set (by rw [State.bit_raise, beq_self_eq_true, Bool.true_or]), fun h => ?_⟩
  unfold State.raise
  rw [h]
  split
  case isTrue hc =>
    obtain ⟨hm, hd, hl⟩ := hc
    simp [hm, hd, hl]
  case isFalse hc =>
    have held : ((s.pci.msix.at v).masked || s.pci.d3hot || !s.pci.linkUp) = true := by
      refine Decidable.byContradiction fun hn => ?_
      simp only [Bool.not_eq_true, Bool.or_eq_false_iff, Bool.not_eq_false'] at hn
      exact hc ⟨hn.1.1, hn.1.2, hn.2⟩
    simp [held, bit_setBits_one]

/-- Settles O15: the checks of a request taken come in their order, and none follows a failed one. -/
theorem requestsTaken : Obligations.RequestsTaken := by
  rintro s x y t p h r hx hserved hnext hp hslot hy e fails
  obtain rfl : y = x.taken p r := hy
  have failing : ∀ st, x.takeStatus p h r = some (st + 1) → fails (st + 1) := fun st =>
    exec_mailboxRequestTake_of_fails hx hserved hnext hslot
  have passing := exec_mailboxRequestTake_of_passes hx hserved hnext hslot
  refine ⟨fun hl => failing 0x101 (if_pos hl), fun hl hf => failing 0x103 ?_, fun hl hf ⟨n, hn, hne⟩ => failing 0x104 ?_, fun hl hf hseq => ?_⟩
  · simp [State.takeStatus, Nat.not_lt.mpr hl, hf]
  · have late : (x.pci.pairs.at p).expect = some n := hn
    simp [State.takeStatus, Nat.not_lt.mpr hl, hf, late, hne]
  · have inOrder : ¬ ((x.pci.pairs.at p).expect ≠ none ∧ (x.pci.pairs.at p).expect ≠ some r.seq) := by
      rintro ⟨hsome, hne⟩
      obtain ⟨n, hn⟩ := Option.ne_none_iff_exists'.mp hsome
      exact hne (by rw [hn, hseq n hn])
    have checks : x.takeStatus p h r = if (!opKnown r.opcode) = true then some 0x0101
        else if x.pci.state = .booting ∧ (!opAlways r.opcode) = true then none
        else some (x.serveStatus ((List.range 16).filter (· != p)) p r) := by
      simp only [State.takeStatus, if_neg (Nat.not_lt.mpr hl), hf, if_neg inOrder, ne_eq, not_true_eq_false, ↓reduceIte]
    refine ⟨fun hk => failing 0x100 (by simp [checks, hk]), fun hk => ⟨fun hb ha => passing (.inl (by simp [checks, hk, hb, ha])),
      fun hb => ⟨fun hs => failing 0x105 ?_, fun hs hlen => failing 0x102 ?_, fun hs hlen idle => passing (.inr ?_)⟩⟩⟩
    · simp [checks, hk, hb, State.serveStatus, hs]
    · simp [checks, hk, hb, State.serveStatus, hs, hlen]
    · simp [checks, hk, hb, State.serveStatus_others hs hlen idle]

end

section
/-! The host's registers and firmware's protection commits (R10, R367 to R369, R385, R476). -/
namespace Sys2Proof.Machine
open Sys2Proof

/-! ## PCI_BAR4_BASE, PCI_INT_STATUS, the words of BAR0 -/

/-- A base is taken when it is a multiple of the BAR's size and the window lies in DRAM. -/
theorem State.writeBar4Base_eq (s : State) (v : Nat) : s.writeBar4Base v =
    if bits v 28 12 * 2 ^ 28 % s.pci.bar4Size = 0 ∧ bits v 28 12 * 2 ^ 28 + s.pci.bar4Size ≤ s.dramEnd
    then { s with pci := { s.pci with bar4Base := bits v 28 12 } } else s.discardWrite := by
  unfold State.writeBar4Base
  dsimp only
  by_cases h : bits v 28 12 * 2 ^ 28 % s.pci.bar4Size = 0 ∧ bits v 28 12 * 2 ^ 28 + s.pci.bar4Size ≤ s.dramEnd
  · rw [if_pos h, if_neg (by omega)]
    rfl
  · rw [if_neg h, if_pos (by omega)]

/-- Cause bits of a list are cleared where the mask has them, and nothing else changes. -/
theorem State.clearCauses_fold (lo mask : Nat) (ks : List Nat) (s : State) :
    let s' := ks.foldl (fun s k => if bit mask k then s.modPci fun x => { x with cause := setBits x.cause (lo + k) 1 0 } else s) s
    { s' with pci := { s'.pci with cause := s.pci.cause } } = s ∧
      ∀ i, bit s'.pci.cause i = (bit s.pci.cause i && !(ks.any fun k => i == lo + k && bit mask k)) := by
  induction ks generalizing s with
  | nil => exact ⟨rfl, fun i => by simp⟩
  | cons k ks ih =>
    obtain ⟨rest, bits⟩ := ih (if bit mask k then s.modPci fun x => { x with cause := setBits x.cause (lo + k) 1 0 } else s)
    rw [List.foldl_cons]
    generalize ks.foldl _ _ = s' at rest bits ⊢
    dsimp only at rest bits ⊢
    split at rest
    case isTrue hk =>
      refine ⟨congrArg (fun z : State => { z with pci := { z.pci with cause := s.pci.cause } }) rest, fun i => ?_⟩
      rw [bits, if_pos hk, State.modPci_pci, bit_setBits_zero, List.any_cons, hk]
      rw [Bool.and_true, Bool.not_or, bne, Bool.and_comm (!(i == lo + k)), Bool.and_assoc]
    case isFalse hk =>
      refine ⟨rest, fun i => ?_⟩
      rw [bits, if_neg hk, List.any_cons, eq_false_of_ne_true hk, Bool.and_false, Bool.false_or]

/-- Some of 32 bits from `lo` is the bit `i`, and the mask has it. -/
theorem any_range_bit (lo mask i : Nat) :
    ((List.range 32).any fun k => i == lo + k && bit mask k) = (decide (lo ≤ i) && decide (i < lo + 32) && bit mask (i - lo)) := by
  rw [Bool.eq_iff_iff]
  simp only [List.any_eq_true, List.mem_range, Bool.and_eq_true, beq_iff_eq, decide_eq_true_eq]
  constructor
  · rintro ⟨k, hk, rfl, hb⟩
    exact ⟨⟨by omega, by omega⟩, by rwa [Nat.add_sub_cancel_left]⟩
  · rintro ⟨⟨h1, h2⟩, hb⟩
    exact ⟨i - lo, by omega, by omega, hb⟩

/-- The cause bits written 1 in PCI_INT_STATUS clear, and no other. -/
theorem State.bit_clearCauses (s : State) (hi : Bool) (v k : Nat) : bit (s.clearCauses hi v).pci.cause k =
    (bit s.pci.cause k && !(if hi then 32 ≤ k && k < 64 && bit v (k - 32) else k < 32 && bit v k)) := by
  unfold State.clearCauses
  rw [(State.clearCauses_fold _ _ _ _).2 k, any_range_bit]
  cases hi <;> simp

/-- PCI_INT_STATUS written changes cause bits alone. -/
theorem State.clearCauses_rest (s : State) (hi : Bool) (v : Nat) :
    { s.clearCauses hi v with pci := { (s.clearCauses hi v).pci with cause := s.pci.cause } } = s := (State.clearCauses_fold _ _ _ _).1

/-- An aligned word of BAR0. -/
theorem State.hostWrite_word {s : State} {off : Nat} {b : Bytes} (hb : b.length = 4) (ha : off % 4 = 0) :
    s.hostWrite false off b = s.hostWrite0 off (fld b 0 4) := by
  simp [State.hostWrite, hb, ha]

/-- A misaligned word is discarded. -/
theorem State.hostWrite_of_misaligned {s : State} {page : Bool} {off : Nat} {b : Bytes} (ha : off % b.length ≠ 0) :
    s.hostWrite page off b = s.discardWrite := if_neg fun h => ha h.2

section
variable {s x : State} {t : Nat} (hx : s.at t = x)
include hx

theorem exec_pciBar4BaseWrite (h : x.hostReach = true) (v : Nat) : exec (.pciBar4BaseWrite t v) s = .next (x.writeBar4Base v) := by
  subst hx
  exact congrArg Host.Outcome.next (if_pos h)

theorem exec_pciIntStatusClear (h : x.hostReach = true) (hi : Bool) (v : Nat) :
    exec (.pciIntStatusClear t hi v) s = .next (x.clearCauses hi v) := by
  subst hx
  exact congrArg Host.Outcome.next (if_pos h)

/-- A host write of BAR0. -/
theorem exec_registerWrite_bar0 (h : x.hostReach = true) (off : Nat) (b : Bytes) :
    exec (.registerWrite t true .bar0 off (.write b)) s = .next (x.hostWrite false off b) := by
  have run : exec (.registerWrite t true .bar0 off (.write b)) s = .next (registerWriteEffect t true .bar0 off (.write b) s) := rfl
  rw [run]
  simp [registerWriteEffect, hx, h]

theorem exec_prtCommit (h : x.resets.held = []) (v : Nat) : exec (.prtCommit t v) s = .next (x.prtCommit v) := by
  subst hx
  exact congrArg Host.Outcome.next (if_pos (by rw [h]; rfl))

end

/-! ## PRT_COMMIT (R476) -/

/-- A staged commit of `n` slots from entry `first` on: the entry `j` afterwards. -/
theorem aGet_foldl_aSet {α : Type} (f : Nat → α) (first : Nat) (n : Nat) (l : List (Nat × α)) (j : Nat) :
    aGet ((List.range n).foldl (fun l k => aSet l (first + k) (f k)) l) j = if first ≤ j ∧ j < first + n then some (f (j - first)) else aGet l j := by
  induction n with
  | zero => rw [if_neg (by omega)]; rfl
  | succ n ih =>
    rw [List.range_succ, List.foldl_append, List.foldl_cons, List.foldl_nil, aGet_aSet, ih]
    by_cases hj : first + n = j
    · rw [if_pos hj, if_pos (by omega), ← hj, Nat.add_sub_cancel_left]
    · rw [if_neg hj]
      split
      · rw [if_pos (by omega)]
      · rw [if_neg (by omega)]

/-- The staged slots that `v` names may take effect: their entries exist, none is locked, and no reserved bit is set. -/
def State.Commits (s : State) (v : Nat) : Prop :=
  bits v 0 9 + bits v 9 3 + 1 ≤ 512 ∧ (∀ k ≤ bits v 9 3, prtReserved (s.watch.prtStage.at k) = false) ∧
    ∀ k ≤ bits v 9 3, ∀ e, aGet s.watch.prt (bits v 0 9 + k) = some e → e.lock = false

/-- A commit puts each staged slot in force where it passes, and where it does not changes no entry and reports 0x0A0E. -/
theorem State.prtCommit_cases {s : State} {v : Nat} (go : bit v 31 = true) :
    (s.Commits v ∧ s.prtCommit v = { s with watch := { s.watch with
      prt := (List.range (bits v 9 3 + 1)).foldl (fun l k => aSet l (bits v 0 9 + k) (prtOf (s.watch.prtStage.at k))) s.watch.prt, prtStatus := 0 } }) ∨
    (¬ s.Commits v ∧ s.prtCommit v = { s with watch := { s.watch with prtStatus := 0x0A0E } }) := by
  unfold State.prtCommit
  dsimp only
  rw [go, if_neg (by decide)]
  split
  case isTrue bad =>
    refine .inr ⟨fun ⟨hn, hreserved, hlocked⟩ => ?_, rfl⟩
    simp only [Bool.or_eq_true, decide_eq_true_eq, List.any_eq_true, List.mem_range, Nat.lt_succ_iff] at bad
    rcases bad with (h | ⟨k, hk, h⟩) | ⟨k, hk, h⟩
    · omega
    · rw [hreserved k hk] at h
      cases h
    · split at h
      · next e he =>
        rw [hlocked k hk e he] at h
        cases h
      · cases h
  case isFalse good =>
    simp only [Bool.or_eq_true, decide_eq_true_eq, List.any_eq_true, List.mem_range, Nat.lt_succ_iff, not_or, not_exists, not_and, Bool.not_eq_true] at good
    obtain ⟨⟨hn, hreserved⟩, hlocked⟩ := good
    refine .inl ⟨⟨by omega, hreserved, fun k hk e he => ?_⟩, rfl⟩
    have := hlocked k hk
    rwa [he] at this

/-- A commit that passes changes no entry but those it names. -/
theorem State.prtCommit_of_commits {s : State} {v : Nat} (go : bit v 31 = true) (h : s.Commits v) :
    { s.prtCommit v with watch := { (s.prtCommit v).watch with prt := s.watch.prt, prtStatus := s.watch.prtStatus } } = s ∧
      (s.prtCommit v).watch.prtStatus = 0 ∧
      ∀ j, aGet (s.prtCommit v).watch.prt j = if bits v 0 9 ≤ j ∧ j ≤ bits v 0 9 + bits v 9 3
        then some (prtOf (s.watch.prtStage.at (j - bits v 0 9))) else aGet s.watch.prt j := by
  obtain ⟨-, puts⟩ | ⟨hn, -⟩ := State.prtCommit_cases (s := s) go
  · rw [puts]
    refine ⟨rfl, rfl, fun j => ?_⟩
    dsimp only
    rw [aGet_foldl_aSet fun k => prtOf (s.watch.prtStage.at k)]
    simp only [Nat.lt_succ_iff, ← Nat.add_assoc]
  · exact absurd h hn

theorem State.prtCommit_of_not_commits {s : State} {v : Nat} (go : bit v 31 = true) (h : ¬ s.Commits v) :
    s.prtCommit v = { s with watch := { s.watch with prtStatus := 0x0A0E } } :=
  (State.prtCommit_cases go).elim (fun hc => absurd hc.1 h) And.right

end Sys2Proof.Machine
end

section
open Sys2Proof Sys2Proof.Machine

/-- Settles O14: each write is taken where its register takes it, and discarded elsewhere. -/
theorem hostRegisterWrites : Obligations.HostRegisterWrites := by
  rintro s x t v hx
  refine ⟨fun hr => ⟨?_, fun hi => ?_, fun b hb => ⟨?_, ?_, ?_⟩⟩, fun hheld go => .of_next (exec_prtCommit hx hheld v) ?_⟩
  · rw [exec_pciBar4BaseWrite hx hr, State.writeBar4Base_eq]
  · exact .of_next (exec_pciIntStatusClear hx hr hi v) ⟨State.clearCauses_rest _ _ _, State.bit_clearCauses _ _ _⟩
  · rw [exec_registerWrite_bar0 hx hr, State.hostWrite_word hb rfl]
    rfl
  · rw [exec_registerWrite_bar0 hx hr, State.hostWrite_of_misaligned (by rw [hb]; decide)]
  · rw [exec_registerWrite_bar0 hx hr, State.hostWrite_word hb rfl]
    rfl
  · split
    case isTrue h => exact State.prtCommit_of_commits go h
    case isFalse h => exact State.prtCommit_of_not_commits go h

end

section
/-! Fatal conditions, resets and what holds the device (R366, R391, R452, R453, R490 to R492). -/
namespace Sys2Proof.Machine
open Sys2Proof

/-! ## Fatal conditions (R452, R453) -/

/-- Work that outlives a fatal condition loses its pairs, whatever was reported. -/
theorem State.Reports.dropWaiting {a b : State} (h : a.Reports b) : a.dropWaiting.Reports b.dropWaiting :=
  ⟨congrArg State.dropWaiting h.rest, h.pci, h.reliab, h.watch⟩

theorem State.Reports.prt {a b : State} (h : a.Reports b) : b.watch.prt = a.watch.prt := (congrArg Watch.prt h.watch :)
theorem State.Reports.fwVersion {a b : State} (h : a.Reports b) : b.watch.fwVersion = a.watch.fwVersion := (congrArg Watch.fwVersion h.watch :)
theorem State.Reports.booting {a b : State} (h : a.Reports b) : b.watch.booting = a.watch.booting := (congrArg Watch.booting h.watch :)

/-- Dispatch stops, and the device is FATAL with a status. -/
def State.halt (s : State) (status : Nat) : State :=
  { s.modBf fun b => { b with ready := false, halted := true, fatal := b.fatal || status == 0x020C || status == 0x020E
                              lockstepOk := b.lockstepOk && status != 0x020C } with
    pci := { s.pci with state := .fatal, fatalStatus := status } }

/-- A second fatal condition changes nothing. -/
theorem State.fatal_of_fatal {s : State} (h : s.pci.state = .fatal) (status : Nat) : s.fatal status = s := if_pos h

/-- The first fatal condition halts the device, ends what waits, and reports. -/
theorem State.fatal_reports {s : State} (h : s.pci.state ≠ .fatal) (status : Nat) : (s.halt status).dropWaiting.Reports (s.fatal status) := by
  have answers : ∀ (ps : List Nat) (y : State), y.Reports (ps.foldl (fun s p => s.answer p 0x0106) y) := fun ps y =>
    State.Reports.foldl (.refl y) fun _ _ k => k.trans (State.answer_reports _ _ _)
  have fatal : s.fatal status = ((List.range 16).foldl (fun s p => s.answer p 0x0106) (s.halt status)).dropWaiting.event status 0 0xFF [1, 0] := if_neg h
  rw [fatal]
  exact (answers _ _).dropWaiting.trans (State.event_reports _ _ _ _ _ _)

/-! ## Resets (R490, R491) -/

/-- What a full reset with a cause leaves, from `x`. -/
structure State.FullReset (x s' : State) (cause : Nat) : Prop where
  cause : s'.resets.cause = cause
  count : s'.resets.count = satInc 16 x.resets.count
  clock : s'.clock = { timebase := x.clock.timebase }
  bf : s'.bf = {}
  events : s'.watch.ret.events = x.watch.ret.events
  fuses : s'.fuses = x.fuses
  lantern : s'.lantern = x.lantern
  straps : s'.straps = x.straps

/-- A full reset, held by one more source. -/
theorem State.fullReset_hold (x : State) (cause : Nat) (h : ResetHold) : x.FullReset ((x.resetTo .full cause).hold h) cause :=
  ⟨rfl, rfl, rfl, rfl, rfl, rfl, rfl, rfl⟩

/-- A full reset that leaves a boot status, held by one more source. -/
theorem State.fullReset_note_hold (x : State) (cause status : Nat) (h : ResetHold) :
    x.FullReset (((x.resetTo .full cause).bootNote status).hold h) cause := ⟨rfl, rfl, rfl, rfl, rfl, rfl, rfl, rfl⟩

/-- The watchdog's full reset leaves a boot status, and the boot starts. -/
theorem State.fullReset_note_boot (x : State) (cause status : Nat) :
    x.FullReset ((x.resetTo .full cause).bootNote status).startBoot cause := ⟨rfl, rfl, rfl, rfl, rfl, rfl, rfl, rfl⟩

theorem State.FullReset.and {x s' : State} {cause : Nat} (h : x.FullReset s' cause) :
    s'.resets.cause = cause ∧ s'.resets.count = satInc 16 x.resets.count ∧ s'.clock = { timebase := x.clock.timebase } ∧ s'.bf = {} ∧
      s'.watch.ret.events = x.watch.ret.events ∧ s'.fuses = x.fuses ∧ s'.lantern = x.lantern ∧ s'.straps = x.straps :=
  ⟨h.cause, h.count, h.clock, h.bf, h.events, h.fuses, h.lantern, h.straps⟩

theorem exec_watchtowerWatchdogExpiry {s : State} {t : Nat} (h : (s.at t).resets.held = []) :
    exec (.watchtowerWatchdogExpiry t) s = .next ((((s.at t).resetTo .full 5).bootNote 0x0A27).startBoot) :=
  congrArg Host.Outcome.next (if_pos (by rw [h]; rfl))

/-! ## Releases (R490, R492) -/

/-- A source that does not hold the device lets nothing go. -/
theorem State.release_of_not_held {s : State} {h : ResetHold} (hh : s.resets.held.contains h = false) : s.release h = s := by
  simp [State.release, hh, -List.contains_eq_mem]

/-- While another source holds the device, only the hold ends. -/
theorem State.release_of_other {s : State} {h : ResetHold} (hh : s.resets.held.contains h = true) (hne : s.resets.held.filter (· ≠ h) ≠ []) :
    s.release h = { s with resets := { s.resets with held := s.resets.held.filter (· ≠ h) } } := by
  unfold State.release
  rw [hh]
  exact if_neg fun e => hne (List.isEmpty_iff.mp e)

/-- With the last source gone the boot starts. -/
theorem State.release_of_last {s : State} {h : ResetHold} (hh : s.resets.held.contains h = true) (hne : s.resets.held.filter (· ≠ h) = []) :
    s.release h = ({ s with resets := { s.resets with held := [] } } : State).startBoot := by
  unfold State.release
  rw [hh, hne]
  rfl

/-- The references that the integrator has made stable. -/
def State.refsPresent (s : State) : State := { s with power := { s.power with refPcie := true, refPl := true, xtal := true } }

section
variable {s x : State} {t : Nat} (hx : s.at t = x)
include hx

theorem exec_resetRelease : exec (.resetRelease t) s =
    .next (if x.resets.held.contains .pins then x.refsPresent.release .pins else x) := by
  subst hx
  rfl

theorem exec_supplyRestore : exec (.supplyRestore t) s = .next (x.release .supply) := by
  subst hx
  rfl

theorem exec_refclkSysRestore : exec (.refclkSysRestore t) s = .next (x.release .clock) := by
  subst hx
  rfl

/-- A release of source `h` acts as `release` does on a state that differs in the references at most. -/
theorem exec_release {c : Instr} {h : ResetHold}
    (hc : c = .resetRelease t ∧ h = .pins ∨ c = .supplyRestore t ∧ h = .supply ∨ c = .refclkSysRestore t ∧ h = .clock) :
    (x.resets.held.contains h = false → exec c s = .next x) ∧
      ∃ y : State, y.resets = x.resets ∧ y.watch = x.watch ∧ y.pci = x.pci ∧ y.bf = x.bf ∧
        (x.resets.held.contains h = true → exec c s = .next (y.release h)) := by
  rcases hc with ⟨rfl, rfl⟩ | ⟨rfl, rfl⟩ | ⟨rfl, rfl⟩
  · rw [exec_resetRelease hx]
    exact ⟨fun hh => by rw [hh]; rfl, x.refsPresent, rfl, rfl, rfl, rfl, fun hh => by rw [hh]; rfl⟩
  · rw [exec_supplyRestore hx]
    exact ⟨fun hh => by rw [State.release_of_not_held hh], x, rfl, rfl, rfl, rfl, fun _ => rfl⟩
  · rw [exec_refclkSysRestore hx]
    exact ⟨fun hh => by rw [State.release_of_not_held hh], x, rfl, rfl, rfl, rfl, fun _ => rfl⟩

end

/-! ## Resets that keep the link (R366, R391) -/

/-- A reset that keeps the link is reported where it changes the state. -/
theorem State.resetLinked_reports (s : State) (k : ResetKind) (cause : Nat) : (s.resetTo k cause).Reports (s.resetLinked k cause) := by
  unfold State.resetLinked
  dsimp only
  split
  · exact .refl _
  · exact State.event_reports _ _ _ _ _ _

theorem State.resetReq_eq {s : State} {p kind : Nat} {r : MbxReq} (hr : s.req? p 0x04 = some r) (hz : allZero (sub r.payload 1 3) = true)
    (hk : fld r.payload 0 1 = kind) (h1 : kind ≤ 1) (f : State → State) : s.resetReq p kind f = f (s.answer p 0) := by
  simp [State.resetReq, hr, hz, hk, Nat.not_lt.mpr h1]

section
variable {s x : State} {t p : Nat} {r : MbxReq} (hx : s.at t = x)
include hx

theorem exec_resetFull (hr : x.req? p 0x04 = some r) (hz : allZero (sub r.payload 1 3) = true) (hk : fld r.payload 0 1 = 0) :
    exec (.resetFull t p) s = .next (((x.answer p 0).resetLinked .noLink 6).startBoot) := by
  have run : exec (.resetFull t p) s = .next ((s.at t).resetReq p 0 fun s => (s.resetLinked .noLink 6).startBoot) := rfl
  rw [run, hx, State.resetReq_eq hr hz hk (by decide)]

theorem exec_resetWarm (hr : x.req? p 0x04 = some r) (hz : allZero (sub r.payload 1 3) = true) (hk : fld r.payload 0 1 = 1) :
    exec (.resetWarm t p) s = .next ((x.answer p 0).resetLinked .warm 7) := by
  have run : exec (.resetWarm t p) s = .next ((s.at t).resetReq p 1 State.warmReset) := rfl
  rw [run, hx, State.resetReq_eq hr hz hk (by decide), State.warmReset]

theorem exec_functionLevelReset (hh : x.resets.held = []) (hl : x.pci.linkUp = true) :
    exec (.functionLevelReset t) s = .next (x.resetLinked .warm 7) := by
  subst hx
  exact congrArg Host.Outcome.next (if_pos (by rw [hh, hl]; rfl))

end

/-- What a lockstep mismatch leaves. -/
theorem lockstepMismatchEffect_leaves {s x : State} {t : Nat} (hx : s.at t = x) (hh : x.resets.held = []) (hst : x.pci.state ≠ .fatal) :
    let s' := lockstepMismatchEffect t s
    s'.pci.state = .fatal ∧ s'.pci.fatalStatus = 0x090B ∧ s'.bf.halted = true ∧ s'.resets.cause = 8 ∧ s'.watch.prt = x.watch.prt ∧
      s'.clock = x.clock ∧ 0x090B ∈ s'.watch.ret.bootStatus ∧ s'.watch.booting.isSome = true ∧ s'.lantern = x.lantern := by
  have h := State.fatal_reports hst 0x090B
  intro s'
  have e : s' = lockstepMismatchEffect t s := rfl
  simp only [lockstepMismatchEffect, hx, hh, List.isEmpty_nil, Bool.not_true, Bool.false_eq_true, ↓reduceIte] at e
  rw [e]
  exact ⟨h.pciState, h.fatalStatus, congrArg Belfry.halted h.bf, rfl, h.prt, h.clock,
    List.mem_append_right _ (List.mem_singleton.mpr rfl), rfl, h.lantern⟩

end Sys2Proof.Machine
end

section
open Sys2Proof Sys2Proof.Machine

/-- Settles O23: each source's reset is a full one with its cause, or a power-on. -/
theorem resetSourcesHold : Obligations.ResetSourcesHold := by
  rintro s x t rfl full held
  refine ⟨.of_next rfl ?_, .of_next rfl ?_, .of_next rfl ?_, .of_next rfl ?_, .of_next rfl ?_, fun hh => .of_next (exec_watchtowerWatchdogExpiry hh) ?_⟩
  · exact ⟨rfl, rfl, rfl, rfl, rfl, rfl, rfl, rfl, rfl⟩
  · exact ⟨(State.fullReset_hold _ 3 .pins).and, rfl, rfl, rfl⟩
  · exact ⟨(State.fullReset_hold _ 4 .pins).and, rfl, rfl, rfl⟩
  · exact ⟨(State.fullReset_note_hold _ 1 0x0A26 .supply).and, rfl, rfl, rfl⟩
  · exact ⟨(State.fullReset_note_hold _ 2 0x0A29 .clock).and, rfl, rfl, rfl⟩
  · exact ⟨(State.fullReset_note_boot _ 5 0x0A27).and, hh, rfl, rfl⟩

/-- Settles O24: a release acts on the hold alone, and the last one starts the boot. -/
theorem resetReleasedLast : Obligations.ResetReleasedLast := by
  intro s x t h hx boots c hc
  obtain ⟨idle, y, hresets, hwatch, hpci, hbf, runs⟩ := exec_release hx hc
  refine ⟨idle, fun hh hne => .of_next (runs hh) ?_, fun hh hlast => .of_next (runs hh) ?_⟩
  · rw [State.release_of_other (by rwa [hresets]) (by rwa [hresets])]
    exact ⟨congrArg (fun z : Resets => z.held.filter (· ≠ h)) hresets, hwatch, hpci⟩
  · rw [State.release_of_last (by rwa [hresets]) (by rwa [hresets])]
    refine ⟨rfl, ?_, rfl, rfl, hbf⟩
    show some (y.firstImage) = _
    unfold State.firstImage
    rw [hwatch]
    rfl

/-- Settles O25: each command's reset is a reset of its kind, reported, and a lockstep mismatch a fatal condition. -/
theorem resetsByCommand : Obligations.ResetsByCommand := by
  rintro s x t p r hx
  refine ⟨fun hr hz => ⟨fun hk => .of_next (exec_resetFull hx hr hz hk) ?_, fun hk => .of_next (exec_resetWarm hx hr hz hk) ?_⟩,
    fun hh hl => .of_next (exec_functionLevelReset hx hh hl) ?_, fun hh hst => .of_next rfl (lockstepMismatchEffect_leaves hx hh hst)⟩
  · have h := State.resetLinked_reports (x.answer p 0) .noLink 6
    refine ⟨rfl, congrArg Resets.cause h.resets, h.bf, ?_, rfl⟩
    exact (congrArg Clock.devtime h.clock).trans (congrArg Clock.devtime (State.answer_reports x p 0).clock)
  · have h := State.resetLinked_reports (x.answer p 0) .warm 7
    refine ⟨rfl, congrArg Resets.cause h.resets, h.bf, h.pciState, ?_⟩
    exact (congrArg Clock.devtime h.clock).trans (congrArg Clock.devtime (State.answer_reports x p 0).clock)
  · have h := State.resetLinked_reports x .warm 7
    exact ⟨rfl, h.pciState, h.linkUp.trans hl, h.clock, h.fwVersion, h.cells, h.bf, h.lantern, congrArg Resets.cause h.resets⟩

end

section
/-! Management requests, the device time, the reference clocks, debug and the maintenance windows (R37, R380 to R382, R386, R457, R470, R472, R473,
R482, R500). -/
namespace Sys2Proof.Machine
open Sys2Proof

/-- An entry of a table that a function has gone over. -/
@[simp] theorem Tab.at_map {n : Nat} {α β : Type} [Inhabited α] [Inhabited β] (t : Tab n α) (f : α → β) {i : Nat} (h : i < n) :
    Tab.at (t.map f) i = f (t.at i) := by
  simp [Tab.at, h]

/-- An entry of a table given by a function. -/
@[simp] theorem Tab.at_ofFn {n : Nat} {α : Type} [Inhabited α] (f : Fin n → α) {i : Nat} (h : i < n) :
    Tab.at (Vector.ofFn f : Tab n α) i = f ⟨i, h⟩ := by
  simp [Tab.at, h]

/-! ## Requests (R380 to R382, R386, R470, R472) -/

theorem exec_identify {s x : State} {t p : Nat} {r : MbxReq} (hx : s.at t = x) (h : x.req? p 0x01 = some r) :
    exec (.identify t p) s = .next (x.respond p 0 0 x.identity) := by
  change execIdentify t p s = _
  simp only [execIdentify, hx, h]

theorem exec_getState {s x : State} {t p : Nat} {r : MbxReq} (hx : s.at t = x) (h : x.req? p 0x02 = some r) :
    exec (.getState t p) s = .next (x.respond p 0 0 x.stateReport) := by
  change execGetState t p s = _
  simp only [execGetState, hx, h]

/-- The report of a state whose free bytes have been taken is the report of the state. -/
theorem exec_telemetry {s x : State} {t p : Nat} {r : MbxReq} (hx : s.at t = x) (h : x.req? p 0x40 = some r) :
    exec (.telemetry t p) s = .next ((x.freeBytes 4).2.respond p 0 0 (x.telemetry (x.freeBytes 4).1)) := by
  change execTelemetry t p s = _
  simp only [execTelemetry, hx, h]
  rfl

/-- The upper half of a byte is clear where its quotient is. -/
theorem exec_setEvents {s x : State} {t p : Nat} {r : MbxReq} (hx : s.at t = x) (h : x.req? p 0x03 = some r) :
    exec (.setEvents t p) s = .next
      (if fld r.payload 0 1 / 16 % 16 = 0 ∧ allZero (sub r.payload 1 3) = true
       then ({ x with pci := { x.pci with eventPair := fld r.payload 0 1 % 16, eventMask := fld r.payload 4 4 } } : State).answer p 0
       else x.answer p 0x0107) := by
  change Host.Outcome.next (setEventsEffect t p s) = _
  have hi : bits (fld r.payload 0 1) 4 4 = fld r.payload 0 1 / 16 % 16 := rfl
  have lo : bits (fld r.payload 0 1) 0 4 = fld r.payload 0 1 % 16 := by simp [bits]
  simp only [setEventsEffect, hx, h, hi, lo]
  by_cases ok : fld r.payload 0 1 / 16 % 16 = 0 ∧ allZero (sub r.payload 1 3) = true
  · rw [if_pos ok, if_neg (by simp [ok.1, ok.2])]
    rfl
  · rw [if_neg ok, if_pos (by rw [Bool.not_eq_true', ← Bool.not_eq_true]; exact Decidable.not_and_iff_not_or_not.mp ok)]

theorem exec_contextRead {s x : State} {t p : Nat} {r : MbxReq} (hx : s.at t = x) (h : x.req? p 0x15 = some r) :
    exec (.contextRead t p) s = .next
      (if fld r.payload 2 1 ≤ 14 ∧ fld r.payload 3 1 = 0 ∧ fld r.payload 0 2 + fld r.payload 2 1 < 4096
       then x.respond p 0 0 ((List.range (fld r.payload 2 1 + 1)).flatMap fun k =>
        x.ctxBytes (fld r.payload 0 2 + k) ((x.ctx? (fld r.payload 0 2 + k)).getD {}))
       else x.answer p 0x0107) := by
  change Host.Outcome.next (contextReadEffect t p s) = _
  simp only [contextReadEffect, hx, h]
  by_cases ok : fld r.payload 2 1 ≤ 14 ∧ fld r.payload 3 1 = 0 ∧ fld r.payload 0 2 + fld r.payload 2 1 < 4096
  · rw [if_pos ok, if_neg (by omega)]
  · rw [if_neg ok, if_pos (by omega)]

theorem exec_logRead {s x : State} {t p : Nat} {r : MbxReq} (hx : s.at t = x) (h : x.req? p 0x41 = some r) :
    exec (.logRead t p) s = .next
      (if fld r.payload 0 1 ≤ 1 ∧ fld r.payload 1 1 ≤ 126 ∧ fld r.payload 2 2 = 0
       then let a := (if fld r.payload 0 1 = 0 then x.watch.errLog else x.watch.evLog).answer (fld r.payload 4 4) (fld r.payload 1 1 + 1)
        x.respond p 0 a.1 a.2
       else x.answer p 0x0107) := by
  change Host.Outcome.next (logReadEffect t p s) = _
  simp only [logReadEffect, hx, h]
  by_cases ok : fld r.payload 0 1 ≤ 1 ∧ fld r.payload 1 1 ≤ 126 ∧ fld r.payload 2 2 = 0
  · rw [if_pos ok, if_neg (by omega)]
  · rw [if_neg ok, if_pos (by omega)]

/-! ## The device time (R473) -/

/-- A DEVTIME request with its reserved bytes clear, carried by the command of its kind, is served with its value. -/
theorem State.devtimeReq_of_kind {x : State} {p kind : Nat} {r : MbxReq} (f : Nat → State → State) (h : x.req? p 0x43 = some r)
    (hz : allZero (sub r.payload 1 7) = true) (hk : fld r.payload 0 1 = kind) (hle : kind ≤ 3) :
    x.devtimeReq p kind f = f (fld r.payload 8 8) x := by
  simp only [State.devtimeReq, h, hz, hk]
  simp only [Bool.not_true, Bool.false_eq_true, or_false, Nat.not_lt.mpr hle, ↓reduceIte]

/-- An error of at least half a second is a lag. -/
theorem ppsErrorOf_of_behind {v : Nat} (h : 500000000 ≤ v % 1000000000) : ppsErrorOf v = (v % 1000000000 : Int) - 1000000000 := by
  simp only [ppsErrorOf, Nat.not_lt.mpr h, ↓reduceIte]
  rfl

theorem ppsErrorOf_of_ahead {v : Nat} (h : v % 1000000000 < 500000000) : ppsErrorOf v = (v % 1000000000 : Int) := by
  simp only [ppsErrorOf, h, ↓reduceIte]
  rfl

/-- A lag is stepped to the next whole second. -/
theorem add_ppsError (v : Nat) :
    v + (-((v % 1000000000 : Int) - 1000000000)).toNat = v / 1000000000 * 1000000000 + 1000000000 := by
  omega

/-- Without discipline an edge changes nothing. -/
theorem exec_ppsEdge_of_off {s x : State} {t : Nat} (hx : s.at t = x) (off : x.clock.ppsOn = false) : exec (.ppsEdge t) s = .next x := by
  change Host.Outcome.next (ppsEdgeEffect t s) = _
  simp only [ppsEdgeEffect, hx, off, Bool.not_false, Bool.true_or, ↓reduceIte]

/-- What an edge steps: the time, and every camera's note of the step. -/
def State.ppsStepped (x : State) : State :=
  { x with
    clock := { x.clock with
      ppsError := (x.clock.devtime % 1000000000 : Int) - 1000000000, ppsLast := x.clock.timebase, ppsLost := false,
      devtime := (x.clock.devtime / 1000000000 * 1000000000 + 1000000000) % 2 ^ 64, frac := 0 }
    cams := x.cams.map fun k => { k with stepped := true } }

theorem exec_ppsEdge_of_behind {s x : State} {t : Nat} (hx : s.at t = x) (held : x.resets.held = []) (on : x.clock.ppsOn = true)
    (slew : x.clock.slewEnd = none) (behind : 500000000 ≤ x.clock.devtime % 1000000000) (far : x.clock.devtime % 1000000000 ≤ 998999999) :
    exec (.ppsEdge t) s = .next x.ppsStepped := by
  change Host.Outcome.next (ppsEdgeEffect t s) = _
  have lag : (x.clock.devtime % 1000000000 : Int) - 1000000000 < -1000000 := by omega
  simp only [ppsEdgeEffect, hx, on, held, slew, State.dev, State.now, List.isEmpty_nil, Bool.not_true, Bool.or_self, Bool.false_eq_true,
    ppsErrorOf_of_behind behind, lag, add_ppsError, ↓reduceIte, State.ppsStepped]

theorem exec_ppsEdge_of_ahead {s x : State} {t : Nat} (hx : s.at t = x) (held : x.resets.held = []) (on : x.clock.ppsOn = true)
    (slew : x.clock.slewEnd = none) (ahead : x.clock.devtime % 1000000000 < 500000000) :
    exec (.ppsEdge t) s = .next { x with clock := { x.clock with
      ppsError := (x.clock.devtime % 1000000000 : Int), ppsLast := x.clock.timebase, ppsLost := false,
      trimPpb := clampInt (-500000) 500000 (x.clock.trimPpb - (x.clock.devtime % 1000000000 : Int))
      slewEnd := some (x.clock.timebase + 1000000000, x.clock.trimPpb) } } := by
  change Host.Outcome.next (ppsEdgeEffect t s) = _
  simp only [ppsEdgeEffect, hx, on, held, slew, State.dev, State.now, List.isEmpty_nil, Bool.not_true, Bool.or_self, Bool.false_eq_true,
    ppsErrorOf_of_ahead ahead, ↓reduceIte]
  rw [if_neg (by omega)]

theorem exec_ppsLoss {s x : State} {t : Nat} (hx : s.at t = x) (held : x.resets.held = []) (on : x.clock.ppsOn = true)
    (found : x.clock.ppsLost = false) (late : x.clock.ppsLast + 2000000000 ≤ x.clock.timebase) :
    exec (.ppsLoss t) s = .next (({ x with clock := { x.clock with ppsLost := true } } : State).event 0x0A12 10 0xFF [1]) := by
  change execPpsLoss t s = _
  simp only [execPpsLoss, hx, held, on, found, State.now, late, List.isEmpty_nil, Bool.not_false, Bool.and_self, decide_true, ↓reduceIte]

/-! ## The reference clocks, debug access and the maintenance windows (R457, R482, R500) -/

theorem exec_xtal32kLoss {s x : State} {t : Nat} (hx : s.at t = x) (h : x.power.xtal = true) :
    exec (.xtal32kLoss t) s = .next (({ x with power := { x.power with xtal := false } } : State).note 0x0A2A 10 0xFF) := by
  change execXtal32kLoss t s = _
  simp only [execXtal32kLoss, hx, h, ↓reduceIte]
  rfl

theorem exec_zqCalibration {s x : State} {t m : Nat} (hx : s.at t = x) (h : x.memRuns m = true) :
    exec (.zqCalibration t m) s = .next (x.modPower fun p => { p with zq := p.zq.mod m fun _ => true }) := by
  change execZqCalibration t m s = _
  simp only [execZqCalibration, hx, h, ↓reduceIte]

theorem exec_maintenanceWindow {s x : State} {t m : Nat} (hx : s.at t = x) (h : x.memRuns m = true) :
    exec (.maintenanceWindow t m) s = .next (x.modPower fun p => { p with
      windows := p.windows.mod m (· + 1), zq := p.zq.mod m fun _ => false
      zqDone := p.zqDone.mod m fun n => n + b2n (p.zq.at m) }) := by
  change Host.Outcome.next (windowEffect t m s) = _
  simp only [windowEffect, hx, h, Bool.not_true, Bool.false_eq_true, ↓reduceIte]

end Sys2Proof.Machine
end

section
open Sys2Proof Sys2Proof.Machine

/-- Settles O16: each request has its command's answer. -/
theorem managementRequestsAnswered : Obligations.ManagementRequestsAnswered := by
  intro s x t p r hx
  exact ⟨exec_identify hx, exec_getState hx, exec_telemetry hx, exec_setEvents hx, exec_contextRead hx, exec_logRead hx⟩

/-- Settles O17: a request reaches the command of its kind with its value. -/
theorem devtimeCommands : Obligations.DevtimeCommands := by
  rintro s x t p r v hx
  refine ⟨fun hr => ?_, fun h hz hv => ?_⟩
  · change execWtDevtimeRead t s = _
    simp only [execWtDevtimeRead, hx, hr, ↓reduceIte]
    rfl
  subst hx hv
  refine ⟨fun hk => congrArg Host.Outcome.next (State.devtimeReq_of_kind _ h hz hk (by decide)),
    fun hk => congrArg Host.Outcome.next (State.devtimeReq_of_kind _ h hz hk (by decide)),
    fun hk => congrArg Host.Outcome.next (State.devtimeReq_of_kind _ h hz hk (by decide)),
    fun hk => congrArg Host.Outcome.next ((State.devtimeReq_of_kind _ h hz hk (by decide)).trans ?_)⟩
  by_cases one : fld r.payload 8 8 ≤ 1
  · rw [if_pos one, if_neg (Nat.not_lt.mpr one)]
    rfl
  · rw [if_neg one, if_pos (Nat.not_le.mp one)]

/-- Settles O18: an edge's error decides between a step and a slew. -/
theorem ppsDiscipline : Obligations.PpsDiscipline := by
  intro s x t hx held
  refine ⟨exec_ppsEdge_of_off hx, fun on slew => ⟨fun far behind => .of_next (exec_ppsEdge_of_behind hx held on slew behind far) ⟨rfl, ?_⟩,
    exec_ppsEdge_of_ahead hx held on slew⟩, exec_ppsLoss hx held⟩
  intro c hc
  rw [State.ppsStepped, Tab.at_map _ _ hc]

/-- Settles O19: each clock's loss. -/
theorem clocksLost : Obligations.ClocksLost := by
  rintro s x t rfl
  exact ⟨rfl, rfl, exec_xtal32kLoss rfl⟩

/-- Settles O29: debug access decides. -/
theorem debugCommands : Obligations.DebugCommands := by
  rintro s x t rfl
  exact ⟨fun h => if_neg (by simp [-State.at_fuses, h]), fun h => if_pos h⟩

/-- Settles O33: a calibration waits in its interface's bit, which the window takes. -/
theorem maintenanceWindows : Obligations.MaintenanceWindows := by
  intro s x t m hx hm hruns
  refine ⟨.of_next (exec_zqCalibration hx hruns) ⟨Tab.at_mod_same _ _ _ hm, fun k hk => Tab.at_mod_other _ _ _ _ hk.symm, rfl⟩,
    .of_next (exec_maintenanceWindow hx hruns) ⟨Tab.at_mod_same _ _ _ hm, Tab.at_mod_same _ _ _ hm, ?_, rfl⟩⟩
  refine (Tab.at_mod_same _ _ _ hm).trans (congrArg _ ?_)
  cases x.power.zq.at m <;> rfl

end

section
/-! Operating points, the sensors of temperature and voltage, and the power gates (R467 to R469, R484 to R488, R491). -/
namespace Sys2Proof.Machine
open Sys2Proof

/-! ## Operating points (R484 to R486) -/

/-- A Steeple that no fault and no other change holds goes to a lower point with the pause and the relock. -/
theorem State.startDvfs_lower {s : State} {n point : Nat} {k : Steeple} (hk : s.power.steeples.at n = k) (ha : s.active = true)
    (hg : k.gated = false) (hf : k.vrmFault = false) (hc : k.change = .none) (hlt : k.point < point) (hle : point ≤ 4) :
    s.startDvfs n point = s.modSteeple n fun k => { k with paused := true, change := .relock point true } := by
  have hne : (point == k.point) = false := beq_false_of_ne (Nat.ne_of_gt hlt)
  simp only [State.startDvfs, hk, ha, hg, hf, hc, hne, Bool.not_true, Bool.or_false, bne_self_eq_false, Bool.false_eq_true,
    Nat.not_lt.mpr hle, decide_false, hlt, ↓reduceIte]

/-- With PMBus it goes to a higher point with the voltage. -/
theorem State.startDvfs_higher {s : State} {n point : Nat} {k : Steeple} (hk : s.power.steeples.at n = k) (ha : s.active = true)
    (hg : k.gated = false) (hf : k.vrmFault = false) (hc : k.change = .none) (hlt : point < k.point) (hle : point ≤ 4)
    (hp : s.flash.profile.pmbus = true) :
    s.startDvfs n point = (s.emit (.vout n (s.pointMv point))).modSteeple n fun k => { k with change := .vout point s.clock.timebase } := by
  have hne : (point == k.point) = false := beq_false_of_ne (Nat.ne_of_lt hlt)
  simp only [State.startDvfs, hk, ha, hg, hf, hc, hne, hp, State.writeVout, State.now, Bool.not_true, Bool.or_false, bne_self_eq_false,
    Bool.false_eq_true, Nat.not_lt.mpr hle, decide_false, Nat.not_lt.mpr (Nat.le_of_lt hlt), ↓reduceIte]

/-- A Steeple changed twice. -/
theorem State.modSteeple_at_same (s : State) {n : Nat} (f : Steeple → Steeple) (hn : n < 8) :
    (s.modSteeple n f).power.steeples.at n = f (s.power.steeples.at n) := Tab.at_mod_same _ _ _ hn

/-- Within 10 mV of the new voltage the pause and the relock follow. -/
theorem voutSettledEffect_of_settled {s x : State} {t n point since mv : Nat} (hx : s.at t = x)
    (hc : (x.power.steeples.at n).change = .vout point since) (intime : x.clock.timebase ≤ since + 200000)
    (lo : mv ≤ x.pointMv point + 10) (hi : x.pointMv point ≤ mv + 10) :
    voutSettledEffect t n mv s = (x.modSteeple n fun k => { k with voutMv := mv }).modSteeple n fun k =>
      { k with paused := true, change := .relock point false } := by
  simp only [voutSettledEffect, hx, hc, State.now, Nat.not_lt.mpr intime, lo, hi, and_self, ↓reduceIte]

/-- Past 200 us the change is given up. -/
theorem voutSettledEffect_of_late {s x : State} {t n point since mv : Nat} (hx : s.at t = x)
    (hc : (x.power.steeples.at n).change = .vout point since) (late : since + 200000 < x.clock.timebase) :
    voutSettledEffect t n mv s = (x.modSteeple n fun k => { k with voutMv := mv }).vrmFault n := by
  simp only [voutSettledEffect, hx, hc, State.now, late, ↓reduceIte]

theorem State.writeVout_watch (s : State) (n point : Nat) : (s.writeVout n point).watch = s.watch := by
  rw [State.writeVout]
  split <;> rfl

/-- With no Steeple cooling, a relock ends in the new point, and a lower point's voltage is written. -/
theorem relockEffect_of_relock {s x : State} {t n point : Nat} {lower : Bool} (hx : s.at t = x)
    (hc : (x.power.steeples.at n).change = .relock point lower) (hr : x.watch.rising = []) :
    relockEffect t n s =
      let s1 := x.modSteeple n fun k => { k with point := point, paused := false, change := .none }
      if lower then s1.writeVout n point else s1 := by
  have keeps : ∀ y : State, y.watch.rising = [] → y.endIfBack n = y := fun y hy => by simp [State.endIfBack, hy]
  simp only [relockEffect, hx, hc]
  refine keeps _ ?_
  cases lower
  · exact hr
  · exact (congrArg Watch.rising (State.writeVout_watch _ _ _)).trans hr

theorem exec_pmbusFault {s x : State} {t n : Nat} (hx : s.at t = x) (ha : x.active = true) (hp : x.flash.profile.pmbus = true) (hn : n < 8) :
    exec (.pmbusFault t n) s = .next (x.vrmFault n) := by
  change execPmbusFault t n s = _
  simp only [execPmbusFault, hx, ha, hp, hn, decide_true, Bool.and_self, ↓reduceIte]

/-- A throttled Steeple that does not cool goes one point down when 10 ms have passed. -/
theorem throttleEffect_of_hot {s x : State} {t n last : Nat} (hx : s.at t = x) (hth : x.watch.throttled = [(n, last)])
    (hr : x.watch.rising = []) (due : last + 10000000 ≤ x.clock.timebase) :
    throttleEffect t n s =
      ({ x with watch := { x.watch with throttled := [(n, x.clock.timebase)] } } : State).startDvfs n
        (min 4 ((x.power.steeples.at n).point + 1)) := by
  simp only [throttleEffect, hx, hth, hr, State.now, due, List.find?_cons_of_pos, List.find?_nil, beq_self_eq_true, ↓reduceIte, aSet,
    Nat.lt_irrefl]

/-! ## Temperatures (R468) -/

/-- The sensors read what a sample says. -/
def State.sampled (s : State) (temps : List Int) : State :=
  { s with watch := { s.watch with temp := Vector.ofFn fun i => temps.getD i.val 0, tempTime := s.clock.devtime } }

theorem temperatureEffect_of_trip {s x : State} {t : Nat} {temps : List Int} (hx : s.at t = x) (hh : x.resets.held = [])
    (hl : temps.length = 32) (hot : ∃ v ∈ temps, 920 ≤ v) : temperatureEffect t temps s = (x.sampled temps).trip := by
  have any : (temps.any fun v => decide (920 ≤ v)) = true := List.any_eq_true.mpr (by simpa using hot)
  simp only [temperatureEffect, hx, hh, hl, any, List.isEmpty_nil, Bool.not_true, Bool.false_eq_true, ne_eq, not_true, or_self, ↓reduceIte]
  rfl

theorem State.sampled_rest (x : State) (temps : List Int) :
    { x.sampled temps with watch := { (x.sampled temps).watch with temp := x.watch.temp, tempTime := x.watch.tempTime } } = x := by
  simp only [State.sampled]

theorem State.sampled_trip_out (x : State) (temps : List Int) : (x.sampled temps).trip.out = x.out ++ [.thermtrip] := by
  simp only [State.trip, State.emit, State.hold, State.resetTo, State.sampled]

theorem State.sampled_trip_ret (x : State) (temps : List Int) : (x.sampled temps).trip.watch.ret = x.watch.ret := by
  simp only [State.trip, State.emit, State.hold, State.resetTo, Watch.afterReset, State.sampled]

/-- Below the default of WARN, with nothing warned of before, a sensor is left alone. -/
theorem State.checkWarn_of_cool {s : State} (hw : s.watch.warn = 95) (hd : s.watch.warned = []) (cool : ∀ i, s.watch.temp.at i < 760) (i : Nat) :
    s.checkWarn i = s := by
  have hot : ¬ 760 ≤ s.watch.temp.at i := Int.not_le.mpr (cool i)
  simp [State.checkWarn, hw, hd, hot]

theorem State.checkHot_of_cool {s : State} (ht : s.watch.throttle = 103) (hd : s.watch.warned = []) (cool : ∀ i, s.watch.temp.at i < 760) (i : Nat) :
    s.checkHot i = s := by
  have := cool i
  have hot : ¬ 824 ≤ s.watch.temp.at i := by omega
  simp [State.checkHot, ht, hd, hot]

theorem State.checkThrottle_of_cool {s : State} (ht : s.watch.throttle = 103) (hd : s.watch.throttled = []) (hr : s.watch.rising = [])
    (cool : ∀ i, s.watch.temp.at i < 760) (n : Nat) : s.checkThrottle n = s := by
  have a := cool (2 * n)
  have b := cool (2 * n + 1)
  have hot : ¬ ((103 : Nat) : Int) * 8 ≤ max (s.watch.temp.at (2 * n)) (s.watch.temp.at (2 * n + 1)) := by omega
  simp only [State.checkThrottle, ht, hd, hr, hot, List.any_nil, List.find?_nil, Option.map_none, Option.isSome_none, Bool.false_and,
    Bool.false_eq_true, ite_self, ↓reduceIte]

/-- A fold whose steps change nothing. -/
theorem foldl_eq_self {α β : Type} {f : α → β → α} {a : α} (h : ∀ b, f a b = a) (xs : List β) : xs.foldl f a = a := by
  induction xs with
  | nil => rfl
  | cons b xs ih => rw [List.foldl_cons, h, ih]

/-- Without a reference no run starts. -/
theorem State.startRuns_of_refMissing {s : State} (h : s.power.refMissing = true) : s.startRuns = s := by
  refine foldl_eq_self (fun b => ?_) _
  simp only [h, Bool.not_true, Bool.and_false, Bool.false_eq_true, ↓reduceIte]

theorem temperatureEffect_of_cool {s x : State} {t : Nat} {temps : List Int} (hx : s.at t = x) (hh : x.resets.held = [])
    (hl : temps.length = 32) (cool : ∀ v ∈ temps, v < 760) (hk : x.pci.hokudan = true) (hw : x.watch.warn = 95) (ht : x.watch.throttle = 103)
    (hd : x.watch.warned = []) (hth : x.watch.throttled = []) (hr : x.watch.rising = []) (hm : x.power.refMissing = true) :
    temperatureEffect t temps s = x.sampled temps := by
  have any : (temps.any fun v => decide (920 ≤ v)) = false := List.any_eq_false.mpr fun v hv => by
    have := cool v hv
    simp only [decide_eq_true_eq]
    omega
  have reads : ∀ i, (x.sampled temps).watch.temp.at i < 760 := fun i => by
    by_cases hi : i < 32
    · rw [State.sampled, Tab.at_ofFn _ hi, List.getD_eq_getElem?_getD, List.getElem?_eq_getElem (by omega), Option.getD_some]
      exact cool _ (List.getElem_mem _)
    · simp [State.sampled, Tab.at, hi]
  have checks : temperatureEffect t temps s = (((List.range 8).foldl State.checkThrottle (((List.range 16).map (· + 16)).foldl State.checkHot
      ((List.range 32).foldl State.checkWarn (x.sampled temps)))).startRuns) := by
    simp only [temperatureEffect, hx, hh, hl, hk, any, List.isEmpty_nil, Bool.not_true, Bool.false_eq_true, ne_eq, not_true, or_self, ↓reduceIte,
      State.sampled, State.dev]
  have warn : (x.sampled temps).watch.warn = 95 := by simpa only [State.sampled] using hw
  have throttle : (x.sampled temps).watch.throttle = 103 := by simpa only [State.sampled] using ht
  have warned : (x.sampled temps).watch.warned = [] := by simpa only [State.sampled] using hd
  have throttled : (x.sampled temps).watch.throttled = [] := by simpa only [State.sampled] using hth
  have rising : (x.sampled temps).watch.rising = [] := by simpa only [State.sampled] using hr
  rw [checks, foldl_eq_self (State.checkWarn_of_cool warn warned reads), foldl_eq_self (State.checkHot_of_cool throttle warned reads),
    foldl_eq_self (State.checkThrottle_of_cool throttle throttled rising reads), State.startRuns_of_refMissing]
  exact hm

/-! ## Voltages (R469) -/

theorem exec_voltageSample {s x : State} {t : Nat} {mv : List Nat} (hx : s.at t = x) (hh : x.resets.held = []) (hl : mv.length = 13)
    (hk : x.pci.hokudan = true) :
    exec (.voltageSample t mv) s = .next ((List.range 13).foldl (fun s r => s.checkRail r (mv.getD r 0)) x) := by
  change execVoltageSample t mv s = _
  simp only [execVoltageSample, hx, hh, hl, hk, List.isEmpty_nil, Bool.not_true, bne_self_eq_false, Bool.or_self, Bool.false_eq_true, ↓reduceIte]

/-- A rail reads `mv`, the `n`-th time in a row outside its window. -/
def State.railRead (y : State) (r mv n : Nat) : State :=
  { y with watch := { y.watch with volt := y.watch.volt.mod r fun _ => mv, voltOut := y.watch.voltOut.mod r fun _ => n } }

theorem State.checkRail_reports (y : State) (r mv : Nat) : ∃ n, (y.railRead r mv n).Reports (y.checkRail r mv) :=
  ⟨_, State.Reports.ite (State.event_reports _ _ _ _ _ _) (.refl _)⟩

/-- A rail's reading is kept, whether or not an event follows. -/
theorem State.checkRail_volt (y : State) {r : Nat} (mv : Nat) (hr : r < 13) : (y.checkRail r mv).watch.volt.at r = mv := by
  obtain ⟨n, h⟩ := y.checkRail_reports r mv
  have kept : (y.checkRail r mv).watch.volt = (y.railRead r mv n).watch.volt := (congrArg Watch.volt h.watch :)
  rw [kept]
  exact Tab.at_mod_same _ _ _ hr

/-- Within 5 % of its set point a rail counts nothing and reports nothing. -/
theorem State.checkRail_of_within (y : State) {r mv : Nat} (lo : y.setPoint r * 19 ≤ mv * 20) (hi : mv * 20 ≤ y.setPoint r * 21) :
    y.checkRail r mv = y.railRead r mv 0 := by
  simp only [State.checkRail, Nat.not_lt.mpr lo, Nat.not_lt.mpr hi, or_self, decide_false, Bool.false_eq_true, ↓reduceIte]
  rfl

/-! ## Power gates (R488) -/

/-- A range of a store that has been cleared reads as zero, and the rest as it was. -/
theorem memGet_memClear (m : List Host.Cell) (lo n a : Nat) : memGet (memClear m lo n) a = if lo ≤ a ∧ a < lo + n then 0 else memGet m a := by
  induction m with
  | nil => simp [memClear, memGet, memEmpty]
  | cons c m ih =>
    obtain ⟨k, v⟩ := c
    rw [memClear] at ih ⊢
    rw [List.filter_cons]
    by_cases keep : k < lo ∨ lo + n ≤ k
    · rw [if_pos (by simpa using keep)]
      simp only [memGet, ih]
      by_cases h : k = a
      · rw [if_pos h, if_pos h, if_neg (by omega)]
      · rw [if_neg h, if_neg h]
    · rw [if_neg (by simpa using keep), ih]
      by_cases h : k = a
      · rw [if_pos (by omega), if_pos (by omega)]
      · simp only [memGet, if_neg h]

/-- A range of the store is cleared. -/
def State.clearRange (s : State) (lo n : Nat) : State :=
  { s with mem := { s.mem with cells := memClear s.mem.cells lo n, bad := s.mem.bad.filter fun b => !(lo ≤ b && b < lo + n) } }

theorem State.clearRange_get (s : State) (lo n a : Nat) :
    memGet (s.clearRange lo n).mem.cells a = if lo ≤ a ∧ a < lo + n then 0 else memGet s.mem.cells a := memGet_memClear _ _ _ _

/-- A byte of one of the ranges that are cleared, or one that was zero before, is zero. -/
theorem foldl_clearRange_zero {α : Type} (lo : α → Nat) (n a : Nat) (ks : List α) (s : State)
    (h : memGet s.mem.cells a = 0 ∨ ∃ k ∈ ks, lo k ≤ a ∧ a < lo k + n) :
    memGet (ks.foldl (fun s k => s.clearRange (lo k) n) s).mem.cells a = 0 := by
  induction ks generalizing s with
  | nil => exact h.resolve_right (by simp)
  | cons k ks ih =>
    refine ih _ ?_
    rw [State.clearRange_get]
    by_cases here : lo k ≤ a ∧ a < lo k + n
    · exact .inl (if_pos here)
    · rw [if_neg here]
      refine h.imp_right fun ⟨j, hj, hin⟩ => ⟨j, (List.mem_cons.mp hj).resolve_left ?_, hin⟩
      rintro rfl
      exact here hin

theorem State.clearUnit_steeple (s : State) (n : Nat) :
    s.clearUnit (.steeple n) = (List.range 16).foldl (fun s k => s.clearRange (localBase (16 * n + k)) 0x8_0000) s := rfl

/-- Clearing changes the store alone. -/
theorem State.clearUnit_sets (s : State) (u : GateUnit) : ∃ m, s.clearUnit u = { s with mem := m } := by
  cases u with
  | steeple n =>
    rw [State.clearUnit_steeple]
    generalize List.range 16 = ks
    induction ks generalizing s with
    | nil => exact ⟨_, rfl⟩
    | cons k ks ih =>
      obtain ⟨m, hm⟩ := ih (s.clearRange (localBase (16 * n + k)) 0x8_0000)
      exact ⟨m, hm⟩
  | sne n => exact ⟨_, rfl⟩
  | rfe n => exact ⟨_, rfl⟩
  | vis n => exact ⟨_, rfl⟩

/-- An ungating is over, but for its unit's stores and gate. -/
def State.endUngate (x : State) (u : GateUnit) : State := x.modPower fun p => { p with ungating := p.ungating.filter (· ≠ u) }

theorem ungateEffect_of_ungating {s x : State} {t : Nat} {u : GateUnit} (hx : s.at t = x) (h : x.power.ungating.contains u = true) :
    ungateEffect t u s = ((x.endUngate u).clearUnit u).setGate u false := by
  simp only [ungateEffect, hx, h, ↓reduceIte]
  rfl

theorem State.setGate_mem (s : State) (u : GateUnit) (g : Bool) : (s.setGate u g).mem = s.mem := rfl

end Sys2Proof.Machine
end

section
open Sys2Proof Sys2Proof.Machine

/-- Settles O20: each step of a change follows from the one before it. -/
theorem operatingPoints : Obligations.OperatingPoints := by
  intro s x t n point k hx hn hk ha hg
  refine ⟨fun hf hc hlt hle => ?_, fun hf hc hlt hle hp => ?_, fun since mv hc => ⟨fun intime lo hi => .of_next rfl ?_, fun late => ?_⟩,
    fun lower hc hr => .of_next rfl ?_, fun hp => exec_pmbusFault hx ha hp hn, fun last hth hr due hf hc hlt => .of_next rfl ?_⟩
  · subst hx
    exact congrArg Host.Outcome.next (State.startDvfs_lower hk ha hg hf hc hlt hle)
  · subst hx
    exact congrArg Host.Outcome.next (State.startDvfs_higher hk ha hg hf hc hlt hle hp)
  · rw [voutSettledEffect_of_settled hx (hk ▸ hc) intime lo hi, State.modSteeple_at_same _ _ hn, State.modSteeple_at_same _ _ hn, hk]
  · exact congrArg Host.Outcome.next (voutSettledEffect_of_late hx (hk ▸ hc) late)
  · rw [relockEffect_of_relock hx (hk ▸ hc) hr, ← hk]
    have done := State.modSteeple_at_same x (fun k => { k with point := point, paused := false, change := .none }) hn
    cases lower with
    | false => exact ⟨done, by simp [State.modSteeple, State.modPower]⟩
    | true =>
      cases hp : x.flash.profile.pmbus <;>
        exact ⟨by simpa [State.writeVout, State.modSteeple, State.modPower, hp] using done,
          by simp [State.writeVout, State.modSteeple, State.modPower, hp, State.pointMv]⟩
  · rw [throttleEffect_of_hot hx hth hr due, hk, Nat.min_eq_right hlt,
      State.startDvfs_lower (s := { x with watch := { x.watch with throttled := [(n, x.clock.timebase)] } }) hk ha hg hf hc
        (Nat.lt_succ_self _) hlt]
    exact ⟨rfl, (State.modSteeple_at_same _ _ hn).trans (by rw [← hk])⟩

/-- Settles O21: a trip is a full reset, a cool sample is only kept, and a rail within its window counts nothing. -/
theorem monitorsAct : Obligations.MonitorsAct := by
  intro s x t hx hh
  refine ⟨fun temps hl hot => .of_next rfl ?_, fun temps hl cool hk hw ht hd hth hr hm => .of_next rfl ?_, fun mv hl hk =>
    ⟨exec_voltageSample hx hh hl hk, fun r hr y => ⟨y.checkRail_volt _ hr, fun lo hi => ?_⟩⟩⟩
  · rw [temperatureEffect_of_trip hx hh hl hot]
    refine ⟨?_, rfl, rfl, rfl, x.sampled_trip_out _, rfl, x.sampled_trip_ret _, rfl, rfl⟩
    show (if x.resets.held.contains ResetHold.trip then x.resets.held else x.resets.held ++ [.trip]) = [.trip]
    rw [hh]
    rfl
  · rw [temperatureEffect_of_cool hx hh hl cool hk hw ht hd hth hr hm]
    exact ⟨x.sampled_rest temps, rfl, fun i hi => Tab.at_ofFn _ hi⟩
  · rw [State.checkRail_of_within y lo hi]
    exact ⟨Tab.at_mod_same _ _ _ hr, rfl⟩

/-- Settles O22: the unit's ranges are cleared, and its gate's bit alone is written. -/
theorem gatesOpen : Obligations.GatesOpen := by
  intro s x t u hx
  refine ⟨fun h => ?_, fun h => .of_next (congrArg Host.Outcome.next (ungateEffect_of_ungating hx h)) ?_⟩
  · change Host.Outcome.next (ungateEffect t u s) = _
    simp only [ungateEffect, hx, h, Bool.false_eq_true, ↓reduceIte]
  obtain ⟨m, hm⟩ := (x.endUngate u).clearUnit_sets u
  have cells : (((x.endUngate u).clearUnit u).setGate u false).mem.cells = ((x.endUngate u).clearUnit u).mem.cells := rfl
  refine ⟨?_, ?_, ?_, ?_, ?_, ?_, ?_, ?_⟩
  · rw [hm]
    cases u <;> rfl
  · rw [hm]
    rfl
  · rw [hm]
    rfl
  · rw [hm]
    rfl
  · rintro n hn rfl
    refine ⟨?_, fun k hk a ha => ?_⟩
    · rw [hm]
      exact congrArg Steeple.gated (Tab.at_mod_same _ _ _ hn)
    · rw [State.setGate_mem, State.clearUnit_steeple]
      exact foldl_clearRange_zero (fun k => localBase (16 * n + k)) 0x8_0000 _ _ _
        (.inr ⟨k, List.mem_range.mpr hk, Nat.le_add_right _ _, Nat.add_lt_add_left ha _⟩)
  · rintro n hn rfl
    refine ⟨Tab.at_mod_same _ _ _ hn, fun a ha => ?_⟩
    rw [State.setGate_mem]
    exact (State.clearRange_get _ _ _ _).trans (if_pos ⟨Nat.le_add_right _ _, Nat.add_lt_add_left ha _⟩)
  · rintro n hn rfl
    refine ⟨Tab.at_mod_same _ _ _ hn, fun a ha => ?_⟩
    rw [State.setGate_mem]
    exact (State.clearRange_get _ _ _ _).trans (if_pos ⟨Nat.le_add_right _ _, Nat.add_lt_add_left ha _⟩)
  · rintro n hn rfl
    exact Tab.at_mod_same _ _ _ hn

end

section
/-! The boot, start-up and firmware updates (R390, R461 to R466, R471, R492). -/
namespace Sys2Proof.Machine
open Sys2Proof

/-! ## The boot (R461, R462) -/

theorem State.readRetention_reports (s : State) (lo hi : Nat) : s.Reports (s.readRetention lo hi) :=
  State.Reports.foldl (.upd (.refl s) rfl rfl rfl rfl) fun _ _ h => h.trans (State.logError_reports _ _ _ _ _ _ _ _ _ _)

theorem State.copyRetention_reports (s : State) : s.Reports s.copyRetention :=
  State.Reports.foldl ((State.readRetention_reports s _ _).trans (.upd (.refl _) rfl rfl rfl rfl)) fun _ _ h =>
    h.trans (State.note_reports _ _ _ _ _)

theorem State.serveHeld_reports (s : State) : s.Reports s.serveHeld := by
  refine State.Reports.foldl (.refl s) fun y p h => h.trans ?_
  split
  · exact .ite (.refl y) (State.answer_reports _ _ _)
  · exact .refl y

/-- An image has passed: its fields stand in the registers, and Hokudan runs. -/
def State.imageRuns (s : State) (k : Nat) (b : Bytes) : State :=
  { s with
    watch := { s.watch with
      slot := k, svnRunning := imgSvn b, fwVersion := imgVersion b, revoke := imgRevoke b, bodyHash := imgHash b
      loaded := (imgSections b).map fun (x : ImgSection) => (x.target, x.load, sub b x.offset x.length)
      booting := none, lockstepOk := s.pci.state != DevState.fatal, stagedHold := if k = 2 then 0x40_0000 else 0 }
    pci := { s.pci with hokudan := true } }

theorem State.startImage_reports (s : State) (k : Nat) (b : Bytes) : (s.imageRuns k b).setReload.Reports (s.startImage k b) :=
  State.copyRetention_reports _

/-- No image passes. -/
def State.noImage (s : State) : State :=
  { s with watch := { s.watch with booting := none, slot := 0xFF }, pci := { s.pci with hokudan := true, state := .recovery } }

theorem State.enterRecovery_reports (s : State) : s.noImage.Reports s.enterRecovery :=
  ((State.copyRetention_reports _).trans (State.event_reports _ _ _ _ _ _)).trans (State.serveHeld_reports _)

theorem State.Reports.slot {a b : State} (h : a.Reports b) : b.watch.slot = a.watch.slot := (congrArg Watch.slot h.watch :)
theorem State.Reports.svnRunning {a b : State} (h : a.Reports b) : b.watch.svnRunning = a.watch.svnRunning :=
  (congrArg Watch.svnRunning h.watch :)

/-- A slot's image is verified where it stands. -/
theorem bootVerifiedEffect_of_slot {s x : State} {t k : Nat} (hx : s.at t = x) (hh : x.resets.held = []) (hb : x.watch.booting = some k)
    (hk : k ≠ 2) :
    bootVerifiedEffect t s =
      if x.verify (x.flash.slots.getD k []) = 0 then x.startImage k (x.flash.slots.getD k [])
      else if k = 0 then { x.bootNote 0x0A01 with watch := { (x.bootNote 0x0A01).watch with booting := some 1 } }
      else (x.bootNote 0x0A02).enterRecovery := by
  simp only [bootVerifiedEffect, hx, hh, hb, State.bootImage, hk, List.isEmpty_nil, Bool.not_true, Bool.false_eq_true, ↓reduceIte]

/-- The staged image is forgotten when its verification ends, and slot A is next. -/
theorem bootVerifiedEffect_of_staged {s x : State} {t : Nat} {g : StagedBoot} (hx : s.at t = x) (hh : x.resets.held = [])
    (hb : x.watch.booting = some 2) (hg : x.watch.ret.staged = some g)
    (bad : x.verify ((memRead x.mem.cells g.addr g.len).take (imgBytes (memRead x.mem.cells g.addr g.len))) ≠ 0) :
    bootVerifiedEffect t s = { x with watch := { x.watch with
      booting := some 0, ret := { x.watch.ret with staged := none, bootStatus := x.watch.ret.bootStatus ++
        [x.verify ((memRead x.mem.cells g.addr g.len).take (imgBytes (memRead x.mem.cells g.addr g.len)))] } } } := by
  simp only [bootVerifiedEffect, hx, hh, hb, hg, State.bootImage, bad, List.isEmpty_nil, Bool.not_true, Bool.false_eq_true, State.bootNote, ↓reduceIte]

/-! ## Start-up (R390, R446, R492) -/

/-- A graph's node that counts the row-groups of camera 0's network and signals beacon 0 at each. -/
def startupNode : Ctx := { prog := leBytes 4 (2 * 2 ^ 20 + 2 ^ 28), state := .waiting }

/-- A camera of 32 lines with a network, all of a frame's lines read. -/
def startupCam : Cam :=
  { bind := List.replicate 10 0 ++ [31], net := some { active := true }, frames := [{ rows := List.replicate 32 [] }] }

/-- A state in BOOTING with an instance in flight, beacon 0 held differently in each lane, and every array of SNE 0 lost in the repair record. -/
def startupState : State :=
  { ({} : State) with
    bf := { ctxs := [(0, startupNode)], graphs := [(0, { copies := [some {}] })], beacons := [(0, { a := 1, b := 2, c := 3 })] }
    cams := Tab.mod (Vector.replicate 16 {} : Tab 16 Cam) 0 fun _ => startupCam
    pci := { hokudan := true }
    watch := { slot := 5, everReady := true }
    resets := { held := [] }
    flash := { repair := some { arrays := [0, 1, 2, 3] } } }

/-- The repairs fail SNE 0, its camera falls back and returns a row-group, the node signals the beacon, and the vote finds no two lanes alike. -/
theorem firmwareReadyEffect_startupState : (firmwareReadyEffect 0 [] startupState).pci.state = .fatal := by decide +kernel

/-! ## Firmware updates (R464 to R466) -/

theorem exec_fwWrite {s x : State} {t p : Nat} {r : MbxReq} (hx : s.at t = x) (h : x.req? p 0x50 = some r)
    (hz : allZero (sub r.payload 4 4) = true) (hr : x.pci.state = .ready) (hd : 0x40_0000 ≤ x.dramEnd) :
    exec (.fwWrite t p) s = .next
      (if fld r.payload 0 4 % 8 ≠ 0 then x.answer p 0x0107
       else if 0x40_0000 < fld r.payload 0 4 + (r.payload.drop 8).length then x.answer p 0x0A07
       else (x.writeRaw initFirmware (x.dramEnd - 0x40_0000 + fld r.payload 0 4) (r.payload.drop 8)).2.answer p 0) := by
  change Host.Outcome.next (fwWriteEffect t p s) = _
  have area : x.staging = x.dramEnd - 0x40_0000 := if_neg (by rw [hr]; decide)
  simp only [fwWriteEffect, hx, h, hz, hr, area, Nat.not_lt.mpr hd, Bool.not_true, Bool.false_eq_true, or_false, and_false]

/-- A commit of an image of the right length is refused by its check, or joins flash. -/
theorem exec_fwCommit {s x : State} {t p : Nat} {r : MbxReq} (hx : s.at t = x) (h : x.req? p 0x51 = some r) (ht : fld r.payload 0 1 < 2)
    (hz : allZero (sub r.payload 1 3) = true) (hl : fld r.payload 4 4 ≤ 0x40_0000) :
    let image := memRead x.mem.cells x.staging (fld r.payload 4 4)
    exec (.fwCommit t p) s = .next
      (if imgBytes image ≠ fld r.payload 4 4 then x.answer p 0x0A04
       else if x.verify image ≠ 0 then x.answer p (x.verify image)
       else x.commitSlot p (fld r.payload 0 1) image) := by
  intro image
  change Host.Outcome.next (fwCommitEffect t p s) = _
  simp only [fwCommitEffect, hx, h, hz, Nat.not_lt.mpr hl, Nat.not_lt.mpr (Nat.le_of_lt ht), Nat.ne_of_lt ht, Bool.not_true, Bool.false_eq_true, or_false, ↓reduceIte]
  by_cases len : imgBytes image = fld r.payload 4 4
  · simp only [image, len, ne_eq, not_true, ↓reduceIte]
  · simp only [image, len, ne_eq, not_false_eq_true, ↓reduceIte]
    rfl

/-- On idle flash a commit begins at once, which erases its slot. -/
theorem State.commitSlot_of_idle (x : State) (p target : Nat) (image : Bytes) (hw : x.flash.writing = []) (hd : x.flash.repairDue = false) :
    (x.commitSlot p target image).flash.writing = [.commit (some p) target image] ∧
      (x.commitSlot p target image).flash.slots = x.flash.slots.set target [] := by
  simp only [State.commitSlot, hw, hd, List.isEmpty_nil, Bool.false_eq_true, and_false, ↓reduceIte, List.nil_append]
  rw [(State.startReq_reports _ p).flash]
  simp only [State.beginFlash]
  split <;> exact ⟨rfl, rfl⟩

/-- Out of a flash slot the end of a commit leaves the reload source alone. -/
theorem exec_flashWriteComplete {s x : State} {t p target : Nat} {image : Bytes} {ok : Bool} (hx : s.at t = x) (hh : x.resets.held = [])
    (hw : x.flash.writing = [.commit (some p) target image]) (hs : 2 ≤ x.watch.slot) :
    exec (.flashWriteComplete t ok) s = .next
      (let good := ok && x.verify image == 0
       (({ x with flash := { x.flash with writing := [], slots := if good = true then x.flash.slots.set target image else x.flash.slots } } : State).answer
        p (if good = true then 0 else 0x0A08)).beginFlash) := by
  change Host.Outcome.next (flashDoneEffect t ok s) = _
  have verify : ({ x with flash := { x.flash with writing := [] } } : State).verify image = x.verify image := rfl
  simp only [flashDoneEffect, hx, hh, hw, List.isEmpty_nil, Bool.not_true, Bool.false_eq_true, ↓reduceIte, State.endCommit, verify]
  cases ok && x.verify image == 0
  · simp only [Bool.false_eq_true, ↓reduceIte, Nat.not_lt.mpr hs]
  · simp only [↓reduceIte, Nat.not_lt.mpr hs]

end Sys2Proof.Machine
end

section
open Sys2Proof Sys2Proof.Machine

/-- Settles O26: the image in turn passes, or the next one is verified. -/
theorem bootVerifiesInOrder : Obligations.BootVerifiesInOrder := by
  intro s x t k hx hh hb b
  refine ⟨fun hk ok => .of_next rfl ?_, fun hk bad => ?_, fun hk bad => .of_next rfl ?_, ?_⟩
  · rw [bootVerifiedEffect_of_slot hx hh hb (by omega), if_pos ok]
    have h := State.startImage_reports x k (x.flash.slots.getD k [])
    exact ⟨h.slot, h.svnRunning, h.fwVersion, h.booting, h.hokudan, h.pciState⟩
  · subst hk
    exact congrArg Host.Outcome.next ((bootVerifiedEffect_of_slot hx hh hb (by decide)).trans ((if_neg bad).trans (if_pos rfl)))
  · subst hk
    rw [bootVerifiedEffect_of_slot hx hh hb (by decide), if_neg bad, if_neg (by decide)]
    have h := State.enterRecovery_reports (x.bootNote 0x0A02)
    exact ⟨rfl, h.pciState, h.booting, h.slot⟩
  · intro g hk hg st bad
    subst hk
    exact congrArg Host.Outcome.next (bootVerifiedEffect_of_staged hx hh hb hg bad)

/-- Refutes O27: in BOOTING with an instance in flight, a camera with a network on an SNE that the repair record has left without an array, and a
beacon whose three lanes differ, start-up ends FATAL, though no part has failed its test. -/
theorem not_firmwareReadyStarts : ¬ Obligations.FirmwareReadyStarts := by
  intro h
  obtain ⟨⟨s', run, ready, -⟩, -⟩ := (h startupState startupState 0 rfl).2.1 rfl rfl rfl rfl (by decide)
  have same : s' = firmwareReadyEffect 0 [] startupState := (Host.Outcome.next.inj run).symm
  rw [same, firmwareReadyEffect_startupState] at ready
  exact absurd ready (by decide)

/-- Settles O28: each request's checks in order, and the end of a write. -/
theorem firmwareUpdates : Obligations.FirmwareUpdates := by
  intro s x t p r hx
  refine ⟨exec_fwWrite hx, fun h ht hz hl => ?_, fun target image ok => exec_flashWriteComplete hx⟩
  have run := exec_fwCommit hx h ht hz hl
  refine ⟨fun len => run.trans (congrArg _ (if_pos len)), fun len bad => run.trans (congrArg _ ((if_neg (not_not_intro len)).trans (if_pos bad))),
    fun len ok hw hd => .of_next (run.trans (congrArg _ ((if_neg (not_not_intro len)).trans (if_neg (not_not_intro ok))))) ?_⟩
  exact State.commitSlot_of_idle x p _ _ hw hd

end

section
/-! Calibration of the analogue front ends (R493 to R498, R501, R502). -/
namespace Sys2Proof.Machine
open Sys2Proof

/-! ## Blocks -/

/-- Two changes that agree on an entry change the table alike. -/
theorem Tab.mod_congr {n : Nat} {α : Type} [Inhabited α] (t : Tab n α) {i : Nat} {f g : α → α} (h : f (t.at i) = g (t.at i)) :
    t.mod i f = t.mod i g := by
  unfold Tab.mod
  split
  · rename_i hi
    have entry : t.at i = t[i] := by simp [Tab.at, hi]
    rw [entry] at h
    rw [h]
  · rfl

theorem State.modBlock_congr {s : State} {b : Nat} {f g : CalBlock → CalBlock} (h : f (s.power.blocks.at b) = g (s.power.blocks.at b)) :
    s.modBlock b f = s.modBlock b g :=
  congrArg (fun t => ({ s with power := { s.power with blocks := t } } : State)) (Tab.mod_congr _ h)

theorem State.modBlock_at_same (s : State) {b : Nat} (f : CalBlock → CalBlock) (hb : b < 18) :
    (s.modBlock b f).power.blocks.at b = f (s.power.blocks.at b) := Tab.at_mod_same _ _ _ hb

theorem State.reportLow_reports (s : State) (b : Nat) (lanes : List (Nat × CalLane)) : s.Reports (s.reportLow b lanes) :=
  State.Reports.foldl (.refl s) fun _ _ h => h.trans (State.note_reports _ _ _ _ _)

/-! ## The first run (R496, R502) -/

/-- A key without an entry has none among some of the entries. -/
theorem aGet_filter_of_none {α : Type} {l : List (Nat × α)} {i : Nat} (p : Nat × α → Bool) (h : aGet l i = none) : aGet (l.filter p) i = none := by
  induction l with
  | nil => rfl
  | cons c l ih =>
    obtain ⟨k, v⟩ := c
    have hk : k ≠ i := fun e => by simp [aGet, e] at h
    have rest : aGet l i = none := by simpa only [aGet, hk, ↓reduceIte] using h
    rw [List.filter_cons]
    split
    · simpa only [aGet, hk, ↓reduceIte] using ih rest
    · exact ih rest

/-- Logged errors leave retention memory alone. -/
theorem foldl_logError_ret (status store unit kind foundBy bitNo row count : Nat) (bad : List Nat) (s : State) :
    (bad.foldl (fun s a => s.logError status store unit kind foundBy bitNo a row count) s).watch.ret = s.watch.ret := by
  induction bad generalizing s with
  | nil => rfl
  | cons a bad ih => exact ih _

/-- Reading retention memory may discard a seed, and makes none. -/
theorem State.seedOf_readRetention {s : State} {b : Nat} (lo hi : Nat) (h : s.seedOf b = none) : (s.readRetention lo hi).seedOf b = none := by
  unfold State.seedOf at h ⊢
  by_cases mem : 10 ≤ b ∧ b < 14
  · rw [if_pos mem] at h ⊢
    rw [State.readRetention, foldl_logError_ret]
    exact aGet_filter_of_none _ h
  · rw [if_neg mem] at h ⊢
    rw [(State.readRetention_reports s lo hi).power]
    exact h

/-- Without a seed the search's codes stand, all lanes as found, with the sensor's reading and the time. -/
theorem State.firstRun_of_unseeded (s : State) {b : Nat} (rs : List CalResult) (codes : Bytes) (h : s.seedOf b = none) :
    ∃ (lanes : List (Nat × CalLane)) (y : State), s.Reports y ∧
      (y.modBlock b fun x => { x with
        done := true, live := true, running := false, seeded := false, lanes := lanes, temp := y.watch.temp.at (calSensor b), dev := y.dev
        codes := padTo 224 codes, waiting := none, seed := none }).Reports (s.firstRun b rs codes) := by
  have read : ∀ y : State, y.seedOf b = none → s.Reports y → (if 10 ≤ b ∧ b < 14 then s.readRetention (retSeeds + 512 * (b - 10)) (retSeeds + 512 * (b - 9))
      else s) = y → ∃ lanes, (y.modBlock b fun x => { x with
        done := true, live := true, running := false, seeded := false, lanes := lanes, temp := y.watch.temp.at (calSensor b), dev := y.dev
        codes := padTo 224 codes, waiting := none, seed := none }).Reports (s.firstRun b rs codes) := by
    intro y none _ e
    simp only [State.firstRun, e, none, Bool.false_eq_true, ↓reduceIte]
    exact ⟨_, (State.reportLow_reports _ _ _).trans (State.updateHealth_reports _)⟩
  by_cases mem : 10 ≤ b ∧ b < 14
  · have k := State.readRetention_reports s (retSeeds + 512 * (b - 10)) (retSeeds + 512 * (b - 9))
    obtain ⟨lanes, hl⟩ := read _ (State.seedOf_readRetention _ _ h) k (if_pos mem)
    exact ⟨lanes, _, k, hl⟩
  · obtain ⟨lanes, hl⟩ := read s h (.refl s) (if_neg mem)
    exact ⟨lanes, s, .refl s, hl⟩

/-! ## Runs in service (R497, R498) -/

/-- Of an enabled block in a device that calibrates, the measurement goes by what the block is doing. -/
theorem measureEffect_eq {s x : State} {t b : Nat} {rs : List CalResult} {codes : Bytes} (hx : s.at t = x) (hb : b < 18)
    (hc : x.calibrating = true) (he : x.calEnabled b = true) :
    measureEffect t b rs codes s =
      if !(x.power.blocks.at b).live then (if x.power.refMissing then x.factoryRun b else x.firstRun b rs codes)
      else if (x.power.blocks.at b).running && (x.power.blocks.at b).waiting.isNone then x.judgeRun b rs codes
      else x := by
  simp only [measureEffect, hx, hc, he, Nat.not_le.mpr hb, decide_false, Bool.not_true, Bool.or_self, Bool.false_eq_true, ↓reduceIte]

/-- A lane's passing result as it waits. -/
def CalResult.lanePut (b : Nat) (r : CalResult) : Nat × CalLane :=
  (r.lane, { codes := r.codes, quality := r.quality, height := r.height, low := !calAtLeast b r.quality r.height (calFloor b) (calFloorMv b) })

/-- Results that all pass wait together. -/
theorem State.judgeRun_of_passes {s : State} {b : Nat} {rs : List CalResult} (codes : Bytes) (hne : rs ≠ [])
    (pass : ∀ r ∈ rs, calPasses b ((aGet (s.power.blocks.at b).lanes r.lane).getD {}) r = true) :
    s.judgeRun b rs codes = s.modBlock b fun x => { x with waiting := some (s.now, rs.map (CalResult.lanePut b), padTo 224 codes) } := by
  have good : (rs.filter fun r => calPasses b ((aGet (s.power.blocks.at b).lanes r.lane).getD {}) r) = rs := List.filter_eq_self.mpr pass
  have bad : (rs.filter fun r => !calPasses b ((aGet (s.power.blocks.at b).lanes r.lane).getD {}) r) = [] :=
    List.filter_eq_nil_iff.mpr fun r hr => by simp [pass r hr]
  simp only [State.judgeRun, good, bad, List.foldl_nil, List.isEmpty_eq_false_iff.mpr hne, Bool.false_eq_true, ↓reduceIte]
  rfl

/-- A lane whose result does not pass ends a run of that lane alone. -/
theorem State.judgeRun_of_fails {s : State} {b : Nat} {r : CalResult} (codes : Bytes)
    (fail : calPasses b ((aGet (s.power.blocks.at b).lanes r.lane).getD {}) r = false) :
    s.judgeRun b [r] codes = (s.discardLane b r.lane).modBlock b fun x => { x with running := false } := by
  simp only [State.judgeRun, List.filter_cons, List.filter_nil, fail, Bool.not_false, Bool.false_eq_true, ↓reduceIte, List.foldl_cons, List.foldl_nil,
    List.isEmpty_nil]

/-- A first discard sets the lane's count and the time of its next measurement. -/
theorem State.discardLane_blocks {s : State} {b lane : Nat} (hb : b < 18) (first : ((aGet (s.power.blocks.at b).lanes lane).getD {}).discards = 0) :
    (s.discardLane b lane).power.blocks.at b = { s.power.blocks.at b with
      discards := satInc 8 (s.power.blocks.at b).discards
      lanes := aSet (s.power.blocks.at b).lanes lane { (aGet (s.power.blocks.at b).lanes lane).getD {} with
        discards := 1, retryAt := some (s.now + 1000000000) } } := by
  simp only [State.discardLane, first]
  rw [if_neg (by decide), (State.note_reports _ _ _ _ _).power, State.modBlock_at_same _ _ hb]
  simp

/-- A gap takes the results that wait. -/
theorem calApplyEffect_reports {s x : State} {t b since : Nat} {lanes : List (Nat × CalLane)} {image : Bytes} (hx : s.at t = x)
    (hc : x.calibrating = true) (hw : (x.power.blocks.at b).waiting = some (since, lanes, image)) :
    ((x.askGap b since).modBlock b fun y => { y with
      lanes := lanes.foldl (fun l z => aSet l z.1 z.2) y.lanes, codes := image, waiting := none, running := false }).Reports (calApplyEffect t b s) := by
  simp only [calApplyEffect, hx, hw, hc, Bool.not_true, Bool.false_eq_true, ↓reduceIte]
  exact (State.reportLow_reports _ _ _).trans (State.updateHealth_reports _)

theorem State.askGap_power (s : State) (b since : Nat) : (s.askGap b since).power = s.power := by
  rw [State.askGap]
  split <;> rfl

/-- The only lane of a block, due, is measured again. -/
theorem exec_calibrationRemeasure {s x : State} {t b lane due : Nat} {k : CalBlock} {l : CalLane} (hx : s.at t = x)
    (hk : x.power.blocks.at b = k) (hc : x.calibrating = true) (he : x.calEnabled b = true) (hl : k.live = true) (hr : k.running = false)
    (hw : k.waiting = none) (hls : k.lanes = [(lane, l)]) (hd : l.retryAt = some due) (now : due ≤ x.clock.timebase) :
    exec (.calibrationRemeasure t b) s =
      .next (x.modBlock b fun k => { k with running := true, lanes := [(lane, { l with retryAt := none })] }) := by
  change Host.Outcome.next (calRemeasureEffect t b s) = _
  simp only [calRemeasureEffect, hx, hk, hc, he, hl, hr, hw, hls, hd, State.now, now, Option.isNone_none, Bool.not_false, Bool.and_self, List.any_cons,
    List.any_nil, decide_true, Bool.or_false, ↓reduceIte]
  refine congrArg Host.Outcome.next (State.modBlock_congr ?_)
  simp only [hk, hls, hd, now, List.map_cons, List.map_nil, decide_true, ↓reduceIte]

/-! ## CAL_READ, CAL_WRITE (R501, R502) -/

theorem exec_calRead_of_none {s x : State} {t p : Nat} {r : MbxReq} (hx : s.at t = x) (h : x.req? p 0x62 = some r)
    (hb : calBlockOf (fld r.payload 0 1) (fld r.payload 1 1) = none) : exec (.calRead t p) s = .next (x.answer p 0x0107) := by
  change Host.Outcome.next (calReadEffect t p s) = _
  simp only [calReadEffect, hx, h, hb]

theorem exec_calRead_of_block {s x : State} {t p b : Nat} {r : MbxReq} (hx : s.at t = x) (h : x.req? p 0x62 = some r)
    (hb : calBlockOf (fld r.payload 0 1) (fld r.payload 1 1) = some b) (hz : fld r.payload 2 2 = 0) :
    exec (.calRead t p) s = .next
      (if (x.power.blocks.at b).done = true then x.respond p 0 0 (x.calImage (fld r.payload 0 1) (fld r.payload 1 1) b) else x.answer p 0x0A2B) := by
  change Host.Outcome.next (calReadEffect t p s) = _
  simp only [calReadEffect, hx, h, hb, hz, ne_eq, not_true, ↓reduceIte]
  cases (x.power.blocks.at b).done <;> rfl

/-- A block that is not refused is kept as its unit's seed, a memory interface's in retention memory. -/
theorem exec_calWrite {s x : State} {t p b : Nat} {r : MbxReq} (hx : s.at t = x) (h : x.req? p 0x63 = some r)
    (hb : calBlockOf (fld r.payload 0 1) (fld r.payload 1 1) = some b) (hz : fld r.payload 2 2 = 0) :
    exec (.calWrite t p) s = .next
      (if x.calRefusal (fld r.payload 0 1) (fld r.payload 1 1) b (sub r.payload 4 256) ≠ 0 then
        x.respond p 0x0A25 (x.calRefusal (fld r.payload 0 1) (fld r.payload 1 1) b (sub r.payload 4 256)) []
       else if fld r.payload 0 1 = 2 then
        ({ x with watch := { x.watch with ret := { x.watch.ret with
          memSeeds := aSet x.watch.ret.memSeeds (fld r.payload 1 1) (sub r.payload 4 256) } } } : State).answer p 0
       else (x.modBlock b fun k => { k with seed := some (sub r.payload 4 256) }).answer p 0) := by
  change Host.Outcome.next (calWriteEffect t p s) = _
  simp only [calWriteEffect, hx, h, hb, hz, ne_eq, not_true, ↓reduceIte]

end Sys2Proof.Machine
end

section
open Sys2Proof Sys2Proof.Machine

/-- Settles O30: a measurement goes by what its block is doing, and a gap and a due lane each change the block alone. -/
theorem calibrationRuns : Obligations.CalibrationRuns := by
  intro s x t b k codes hx hb hk hc he
  refine ⟨fun rs hl hm => ?_, fun rs hl hm hs => .of_next rfl ?_, fun rs hne hl hr hw pass => .of_next rfl ?_,
    fun r hl hr hw fail first => .of_next rfl ?_, fun since lanes image hw => .of_next rfl ?_, fun lane l due hl hr hw hls hd now =>
      exec_calibrationRemeasure hx hk hc he hl hr hw hls hd now⟩
  · refine congrArg Host.Outcome.next ((measureEffect_eq hx hb hc he).trans ?_)
    rw [hk, hl, hm]
    rfl
  · have first : measureEffect t b rs codes s = x.firstRun b rs codes := by
      rw [measureEffect_eq hx hb hc he, hk, hl, hm]
      rfl
    obtain ⟨lanes, y, hy, h⟩ := x.firstRun_of_unseeded rs codes hs
    rw [first, h.power, State.modBlock_at_same _ _ hb, hy.temp]
    exact ⟨rfl, rfl, rfl, rfl, rfl, congrArg Clock.devtime hy.clock, rfl⟩
  · have judge : measureEffect t b rs codes s = x.judgeRun b rs codes := by
      rw [measureEffect_eq hx hb hc he, hk, hl, hr, hw]
      rfl
    rw [judge, State.judgeRun_of_passes codes hne (by rwa [hk])]
    exact ⟨_, rfl, by simp [CalResult.lanePut], by simp [CalResult.lanePut]⟩
  · have judge : measureEffect t b [r] codes s = x.judgeRun b [r] codes := by
      rw [measureEffect_eq hx hb hc he, hk, hl, hr, hw]
      rfl
    rw [judge, State.judgeRun_of_fails codes (by rwa [hk]), State.modBlock_at_same _ _ hb, State.discardLane_blocks hb (by rwa [hk]), hk]
    exact ⟨rfl, rfl, (aGet_aSet _ _ _ _).trans (if_pos rfl)⟩
  · rw [(calApplyEffect_reports hx hc (by rw [hk]; exact hw)).power, State.modBlock_at_same _ _ hb, State.askGap_power, hk]
    exact ⟨rfl, rfl, rfl, rfl⟩

/-- Settles O32: the checks of each request in order. -/
theorem calibrationStored : Obligations.CalibrationStored := by
  intro s x t p b r hx
  refine ⟨fun h => ⟨exec_calRead_of_none hx h, exec_calRead_of_block hx h⟩, fun h hz => ⟨fun hc hu => ?_, fun hb hc => ⟨fun hd => ?_, fun hd h2 => ?_,
    fun hd h2 => ?_⟩⟩⟩
  · have hb : calBlockOf (fld r.payload 0 1) (fld r.payload 1 1) = some 17 := by rw [hc, hu]; rfl
    have hd : x.calRefusal (fld r.payload 0 1) (fld r.payload 1 1) 17 (sub r.payload 4 256) = 1 := if_pos (.inl hc)
    rw [exec_calWrite hx h hb hz, hd]
    rfl
  · exact (exec_calWrite hx h hb hz).trans (congrArg _ (if_pos hd))
  · exact (exec_calWrite hx h hb hz).trans (congrArg _ ((if_neg (not_not_intro hd)).trans (if_neg h2)))
  · exact (exec_calWrite hx h hb hz).trans (congrArg _ ((if_neg (not_not_intro hd)).trans (if_pos h2)))

end

section
/-! What an access of memory can change: the stores, the error counts and logs, and what leaves the chip (R70, R77, R433 to R435, R477). -/
namespace Sys2Proof.Machine
open Sys2Proof

/-- From `s` to `s'` nothing changes but what an access of memory changes: what the stores hold, counts and logs of errors and refusals, what waits at
a port, and what a report changes. -/
structure State.Accesses (s s' : State) : Prop where
  rest : { s' with mem := s.mem, pci := s.pci, watch := s.watch, reliab := s.reliab, peer := s.peer, out := s.out } = s
  mem : { s'.mem with
    cells := s.mem.cells, bad := s.mem.bad, behind := s.mem.behind, host := s.mem.host, cache := s.mem.cache, errCount := s.mem.errCount
    counters := s.mem.counters } = s.mem
  pci : { s'.pci with cause := s.pci.cause, pendingBits := s.pci.pendingBits, pairs := s.pci.pairs, eventsLost := s.pci.eventsLost
                      eventNo := s.pci.eventNo } = s.pci
  watch : { s'.watch with evLog := s.watch.evLog, errLog := s.watch.errLog, lastLogged := s.watch.lastLogged, ret := s.watch.ret
                          denyCount := s.watch.denyCount, denyLast := s.watch.denyLast } = s.watch

namespace State.Accesses

theorem refl (s : State) : s.Accesses s := ⟨rfl, rfl, rfl, rfl⟩

theorem trans {a b c : State} (h : a.Accesses b) (k : b.Accesses c) : a.Accesses c where
  rest := (congrArg (fun z : State =>
    { z with mem := a.mem, pci := a.pci, watch := a.watch, reliab := a.reliab, peer := a.peer, out := a.out }) k.rest).trans h.rest
  mem := (congrArg (fun z : MemSys => { z with
    cells := a.mem.cells, bad := a.mem.bad, behind := a.mem.behind, host := a.mem.host, cache := a.mem.cache, errCount := a.mem.errCount
    counters := a.mem.counters }) k.mem).trans h.mem
  pci := (congrArg (fun z : Pci => { z with
    cause := a.pci.cause, pendingBits := a.pci.pendingBits, pairs := a.pci.pairs, eventsLost := a.pci.eventsLost
    eventNo := a.pci.eventNo }) k.pci).trans h.pci
  watch := (congrArg (fun z : Watch => { z with
    evLog := a.watch.evLog, errLog := a.watch.errLog, lastLogged := a.watch.lastLogged, ret := a.watch.ret
    denyCount := a.watch.denyCount, denyLast := a.watch.denyLast }) k.watch).trans h.watch

theorem of_reports {a b : State} (h : a.Reports b) : a.Accesses b where
  rest := (congrArg (fun z : State => { z with mem := a.mem, peer := a.peer }) h.rest :)
  mem := (congrArg (fun z : State => { z.mem with
    cells := a.mem.cells, bad := a.mem.bad, behind := a.mem.behind, host := a.mem.host, cache := a.mem.cache, errCount := a.mem.errCount
    counters := a.mem.counters }) h.rest :)
  pci := h.pci
  watch := (congrArg (fun z : Watch => { z with denyCount := a.watch.denyCount, denyLast := a.watch.denyLast }) h.watch :)

/-- A change of what an access changes in memory and in the counts of errors. -/
theorem mem_of {a : State} {mem : MemSys} {reliab : Reliab}
    (h : { mem with
      cells := a.mem.cells, bad := a.mem.bad, behind := a.mem.behind, host := a.mem.host, cache := a.mem.cache, errCount := a.mem.errCount
      counters := a.mem.counters } = a.mem) : a.Accesses { a with mem := mem, reliab := reliab } :=
  ⟨rfl, h, rfl, rfl⟩

theorem ite {a x y : State} {c : Prop} [Decidable c] (hx : a.Accesses x) (hy : a.Accesses y) : a.Accesses (if c then x else y) := by
  split
  · exact hx
  · exact hy

theorem foldl {α : Type} {g : State → α → State} (h : ∀ (s : State) x, s.Accesses (g s x)) (xs : List α) (s : State) : s.Accesses (xs.foldl g s) := by
  induction xs generalizing s with
  | nil => exact .refl s
  | cons x xs ih => exact (h s x).trans (ih _)

theorem clock {a b : State} (h : a.Accesses b) : b.clock = a.clock := (congrArg State.clock h.rest :)
theorem bf {a b : State} (h : a.Accesses b) : b.bf = a.bf := (congrArg State.bf h.rest :)
theorem dma {a b : State} (h : a.Accesses b) : b.mem.dma = a.mem.dma := (congrArg MemSys.dma h.mem :)
theorem jobs {a b : State} (h : a.Accesses b) : b.mem.jobs = a.mem.jobs := (congrArg MemSys.jobs h.mem :)
theorem memCfg {a b : State} (h : a.Accesses b) : b.mem.cfg = a.mem.cfg := (congrArg MemSys.cfg h.mem :)
theorem spc {a b : State} (h : a.Accesses b) : b.spc = a.spc := (congrArg State.spc h.rest :)
theorem spire {a b : State} (h : a.Accesses b) : b.spire = a.spire := (congrArg State.spire h.rest :)
theorem ports {a b : State} (h : a.Accesses b) : b.ports = a.ports := (congrArg State.ports h.rest :)
theorem cams {a b : State} (h : a.Accesses b) : b.cams = a.cams := (congrArg State.cams h.rest :)
theorem scu {a b : State} (h : a.Accesses b) : b.scu = a.scu := (congrArg State.scu h.rest :)
theorem rfe {a b : State} (h : a.Accesses b) : b.rfe = a.rfe := (congrArg State.rfe h.rest :)
theorem sne {a b : State} (h : a.Accesses b) : b.sne = a.sne := (congrArg State.sne h.rest :)
theorem vis {a b : State} (h : a.Accesses b) : b.vis = a.vis := (congrArg State.vis h.rest :)
theorem field {a b : State} (h : a.Accesses b) : b.field = a.field := (congrArg State.field h.rest :)
theorem imports {a b : State} (h : a.Accesses b) : b.imports = a.imports := (congrArg State.imports h.rest :)
theorem power {a b : State} (h : a.Accesses b) : b.power = a.power := (congrArg State.power h.rest :)
theorem flash {a b : State} (h : a.Accesses b) : b.flash = a.flash := (congrArg State.flash h.rest :)
theorem resets {a b : State} (h : a.Accesses b) : b.resets = a.resets := (congrArg State.resets h.rest :)
theorem straps {a b : State} (h : a.Accesses b) : b.straps = a.straps := (congrArg State.straps h.rest :)
theorem pciState {a b : State} (h : a.Accesses b) : b.pci.state = a.pci.state := (congrArg Pci.state h.pci :)
theorem prt {a b : State} (h : a.Accesses b) : b.watch.prt = a.watch.prt := (congrArg Watch.prt h.watch :)

end State.Accesses

/-! ## The operations that access memory -/

theorem State.countUncorrectable_accesses (s : State) (status a unit : Nat) : s.Accesses (s.countUncorrectable status a unit) := by
  refine State.Accesses.trans ?_ (.of_reports (State.logError_reports _ _ _ _ _ _ _ _ _ _))
  exact .ite (.mem_of rfl) (.mem_of rfl)

theorem State.countPoison_accesses (s : State) (a : Nat) : s.Accesses (s.countPoison a) := by
  refine State.Accesses.trans ?_ (.of_reports (State.logError_reports _ _ _ _ _ _ _ _ _ _))
  exact .ite (.refl s) (.mem_of rfl)

theorem State.evict_accesses (s : State) (l : CacheLine) : s.Accesses (s.evict l) := by
  have dropped : s.Accesses { s with mem := { s.mem with bad := s.mem.bad.filter fun b => !(l.line * 128 ≤ b && b < l.line * 128 + 128) } } :=
    .mem_of rfl
  refine .ite (.mem_of rfl) (.ite (.ite ?_ dropped) (.refl s))
  exact (dropped.trans (State.countUncorrectable_accesses _ _ _ _)).trans (.of_reports (State.event_reports _ _ _ _ _ _))

theorem State.cacheLine_accesses (s : State) (line : Nat) (write noAlloc : Bool) : s.Accesses (s.cacheLine line write noAlloc) := by
  unfold State.cacheLine
  refine .ite (.refl s) ?_
  dsimp only
  split
  · exact .mem_of rfl
  · refine .ite (.refl s) ?_
    split
    · exact .mem_of rfl
    · exact (State.evict_accesses s _).trans (.mem_of rfl)
    · exact .refl s

theorem State.cacheTouch_accesses (s : State) (a n : Nat) (write noAlloc : Bool) : s.Accesses (s.cacheTouch a n write noAlloc) :=
  .ite (.refl s) (.foldl (fun _ _ => State.cacheLine_accesses _ _ _ _) _ _)

theorem State.deny_accesses (s : State) (i : Nat) : s.Accesses (s.deny i) := by
  have h1 : s.Accesses { s with watch := { s.watch with denyCount := satInc 24 s.watch.denyCount, denyLast := i % 256 } } := ⟨rfl, rfl, rfl, rfl⟩
  exact h1.trans (.of_reports (State.noteRare_reports _ _ _ _))

theorem State.countRefusal_accesses (s : State) (i status : Nat) : s.Accesses (s.countRefusal i status) := by
  have h1 : s.Accesses { s with mem := { s.mem with errCount := satInc 32 s.mem.errCount } } := .mem_of rfl
  exact .ite (.refl s) (.ite (.ite (State.deny_accesses _ _) (h1.trans (State.deny_accesses _ _))) h1)

theorem State.sendOn_accesses (s : State) (k : Nat) (o : Output) : s.Accesses (s.sendOn k o) :=
  .ite ⟨rfl, rfl, rfl, rfl⟩ (.of_reports (State.emit_reports _ _))

theorem State.poke_accesses (s : State) (a : Nat) (bs : Bytes) : s.Accesses (s.poke a bs) := by
  unfold State.poke
  split
  · exact .of_reports (State.hostPut_reports _ _ _)
  · exact State.sendOn_accesses _ _ _
  · exact .refl s
  · exact .refl s
  · exact .refl s
  · exact .mem_of rfl

theorem State.writeRaw_accesses (s : State) (i a : Nat) (bs : Bytes) (noAlloc : Bool) : s.Accesses (s.writeRaw i a bs noAlloc).2 := by
  unfold State.writeRaw
  split
  · exact .refl s
  split
  · split
    · exact .mem_of rfl
    · exact .of_reports (State.note_reports _ _ _ _ _)
  extract_lets s1 left
  have h1 : s.Accesses s1 := (State.cacheTouch_accesses _ _ _ _ _).trans (State.poke_accesses _ _ _)
  clear_value s1
  split
  · exact h1
  · exact h1.trans (.foldl (fun _ _ => State.countPoison_accesses _ _) _ _)

theorem State.write_accesses (s : State) (i a : Nat) (bs : Bytes) : s.Accesses (s.write i a bs).2 := by
  unfold State.write
  dsimp only
  split
  · exact State.countRefusal_accesses _ _ _
  · exact State.writeRaw_accesses _ _ _ _ _

theorem State.record_accesses (s : State) (i a : Nat) (bs : Bytes) : s.Accesses (s.record i a bs) := State.write_accesses s i a bs

theorem State.read_accesses (s : State) (i a n : Nat) (noAlloc : Bool) : s.Accesses (s.read i a n noAlloc).2.2 := by
  unfold State.read
  dsimp only
  split
  · exact State.countRefusal_accesses _ _ _
  have h1 := State.cacheTouch_accesses s a n false noAlloc
  split
  · exact h1.trans (State.countUncorrectable_accesses _ _ _ _)
  · exact h1

end Sys2Proof.Machine
end

section
/-! Instances, dispatch, the end of nodes, cancellation and multicast (R33 to R64, R380). -/
namespace Sys2Proof.Machine
open Sys2Proof

/-! ## What Belfry's shared operations can do to a context: a waiting one may become ready (R44) -/

/-- A keyed list in which each entry has been changed and keeps its key. -/
theorem aGet_map {α : Type} (f : Nat × α → Nat × α) (keeps : ∀ p, (f p).1 = p.1) (l : List (Nat × α)) (i : Nat) :
    aGet (l.map f) i = (aGet l i).map fun v => (f (i, v)).2 := by
  induction l with
  | nil => rfl
  | cons c l ih =>
    obtain ⟨k, v⟩ := c
    have key := keeps (k, v)
    by_cases h : k = i
    · subst h
      rw [List.map_cons]
      simp only [aGet, key, ↓reduceIte, Option.map_some]
    · rw [List.map_cons]
      simp only [aGet, key, h, ↓reduceIte]
      exact ih

theorem State.ctx?_modCtx_same {s : State} {i : Nat} {c : Ctx} (f : Ctx → Ctx) (h : s.ctx? i = some c) : (s.modCtx i f).ctx? i = some (f c) := by
  have same := aGet_aMod s.bf.ctxs i i f
  rw [if_pos rfl, show aGet s.bf.ctxs i = some c from h] at same
  exact same

/-- A waiting context has become ready. -/
def Ctx.readied (c : Ctx) (dev : Nat) : Ctx := { c with state := .ready, tReady := dev }

/-- Time does not pass, and no context changes but that a waiting one may become ready. -/
structure State.Readies (s s' : State) : Prop where
  clock : s'.clock = s.clock
  ctx : ∀ {i : Nat} {c : Ctx}, s.ctx? i = some c → s'.ctx? i = some c ∨ c.state = .waiting ∧ s'.ctx? i = some (c.readied s.dev)

namespace State.Readies

/-- A change that leaves the clock and the contexts alone. -/
theorem of_eq {a b : State} (hc : b.clock = a.clock) (hb : b.bf.ctxs = a.bf.ctxs) : a.Readies b :=
  ⟨hc, fun h => .inl (by rw [State.ctx?, hb]; exact h)⟩

theorem refl (s : State) : s.Readies s := .of_eq rfl rfl

theorem of_accesses {a b : State} (h : a.Accesses b) : a.Readies b := .of_eq h.clock (congrArg Belfry.ctxs h.bf)

theorem of_reports {a b : State} (h : a.Reports b) : a.Readies b := .of_eq h.clock (congrArg Belfry.ctxs h.bf)

theorem trans {a b c : State} (h : a.Readies b) (k : b.Readies c) : a.Readies c := by
  refine ⟨k.clock.trans h.clock, fun {i x} hx => ?_⟩
  obtain hb | ⟨hw, hb⟩ := h.ctx hx
  · have dev : b.dev = a.dev := congrArg Clock.devtime h.clock
    rw [← dev]
    exact k.ctx hb
  · obtain hc | ⟨hr, -⟩ := k.ctx hb
    · exact .inr ⟨hw, hc⟩
    · exact absurd hr (by simp [Ctx.readied])

theorem after {a b c : State} (k : b.Readies c) (h : a.Readies b) : a.Readies c := h.trans k

theorem ite {a x y : State} {c : Prop} [Decidable c] (hx : a.Readies x) (hy : a.Readies y) : a.Readies (if c then x else y) := by
  split
  · exact hx
  · exact hy

theorem foldl {α : Type} {g : State → α → State} (h : ∀ (s : State) x, s.Readies (g s x)) (xs : List α) (s : State) : s.Readies (xs.foldl g s) := by
  induction xs generalizing s with
  | nil => exact .refl s
  | cons x xs ih => exact (h s x).trans (ih _)

/-- A context that does not wait stays as it is. -/
theorem same {a b : State} (h : a.Readies b) {i : Nat} {c : Ctx} (hc : a.ctx? i = some c) (hs : c.state ≠ .waiting) : b.ctx? i = some c :=
  (h.ctx hc).resolve_right fun k => hs k.1

end State.Readies

theorem State.setBeacon_readies (s : State) (b v : Nat) : s.Readies (s.setBeacon b v) := .of_eq rfl rfl

/-- What the readiness test makes of a context. -/
theorem State.refreshReady_readies (s : State) : s.Readies s.refreshReady := by
  refine ⟨rfl, fun {i c} hc => ?_⟩
  have keys : ∀ p : Nat × Ctx, (if (p.2.state == .waiting && !p.2.isSource && !s.bf.halted && s.waitsMet p.2) = true
      then (p.1, { p.2 with state := .ready, tReady := s.dev }) else p).1 = p.1 := fun p => by split <;> rfl
  have same : s.refreshReady.ctx? i = _ := aGet_map _ keys s.bf.ctxs i
  rw [same, show aGet s.bf.ctxs i = some c from hc, Option.map_some]
  split
  next h =>
    simp only [Bool.and_eq_true, beq_iff_eq] at h
    exact .inr ⟨h.1.1.1, rfl⟩
  next => exact .inl rfl

theorem State.fatal_readies (s : State) (status : Nat) : s.Readies (s.fatal status) := by
  by_cases h : s.pci.state = .fatal
  · rw [State.fatal_of_fatal h]
    exact .refl s
  · have k := State.fatal_reports h status
    exact .of_eq (a := s) k.clock (congrArg Belfry.ctxs k.bf :)

theorem State.maskLane_readies (s : State) (lane : Nat) : s.Readies (s.maskLane lane) := by
  have mask : s.Readies (s.modBf fun b => { b with maskedLane := lane + 1 }) := .of_eq rfl rfl
  exact .ite (.refl s) (.ite (State.fatal_readies s _)
    (mask.trans (.of_reports ((State.event_reports _ _ _ _ _ _).trans (State.updateHealth_reports _)))))

theorem State.laneDisagree_readies (s : State) (lane : Nat) : s.Readies (s.laneDisagree lane) := by
  unfold State.laneDisagree
  have count : s.Readies (s.modBf fun b => { b with disagree := satInc 8 b.disagree, laneLast := aSet b.laneLast lane s.now }) := .of_eq rfl rfl
  dsimp only
  split
  · exact .ite (count.trans (State.maskLane_readies _ _)) count
  · exact count

theorem State.voteRead_readies (s : State) (b : Nat) (u : Option LaneUpset) : s.Readies (s.voteRead b u).2 := by
  unfold State.voteRead
  extract_lets x v
  clear_value v
  split
  · exact State.fatal_readies s _
  split
  · exact .after (State.laneDisagree_readies _ _) (State.setBeacon_readies s _ _)
  · exact .ite (State.setBeacon_readies s _ _) (.refl s)

theorem State.signalBeacon_readies (s : State) (b inc : Nat) (u : Option LaneUpset) : s.Readies (s.signalBeacon b inc u) := by
  have read := s.voteRead_readies b u
  unfold State.signalBeacon
  generalize s.voteRead b u = r at read
  refine .ite read (.ite (.after (State.refreshReady_readies _) (.after (State.setBeacon_readies _ _ _) read)) (.after (State.refreshReady_readies _) ?_))
  have full : s.Readies ((r.2.setBeacon b 65535).modBf fun f => { f with overflowCount := satInc 32 f.overflowCount }) :=
    read.trans (.of_eq rfl rfl)
  split
  · exact .after (.of_reports (State.event_reports _ _ _ _ _ _)) (full.trans (.of_eq rfl rfl))
  · exact full

theorem State.freeIfDone_readies (s : State) (g : Nat) : s.Readies (s.freeIfDone g) := by
  unfold State.freeIfDone
  split
  · exact .ite (.after (State.signalBeacon_readies _ _ _ _) (.of_eq rfl rfl)) (.refl s)
  · exact .refl s

theorem State.handBuffer_readies (s : State) (g frame : Nat) : s.Readies (s.handBuffer g frame) := by
  unfold State.handBuffer
  split
  · exact .ite (.refl s) (.after (State.freeIfDone_readies _ _) (.of_eq rfl rfl))
  · exact .refl s

theorem State.shed_readies (s : State) (g r reason : Nat) (due : Option Nat) : s.Readies (s.shed g r reason due) := by
  unfold State.shed
  split
  · exact .refl s
  split
  · exact .refl s
  split
  · exact .refl s
  · exact .after (State.freeIfDone_readies _ _) (.of_eq rfl rfl)

theorem State.shedNode_readies (s : State) (c : Ctx) : s.Readies (s.shedNode c) :=
  .foldl (fun _ _ => State.shed_readies _ _ _ _ _) _ _

theorem State.sendSignal_readies (s : State) (g m imp inc : Nat) : s.Readies (s.sendSignal g m imp inc) :=
  .ite (.of_accesses (State.sendOn_accesses _ _ _)) (.of_reports (State.noteRare_reports _ _ _ _))

/-- One entry of a node's list of signals. -/
def State.issueSignal (s : State) (c : Ctx) (e : Sig) : State :=
  if e.group then
    match (aGet s.bf.graphs c.graph).bind fun g => g.groups[e.beacon]? with
    | some gi => s.handBuffer gi c.frame
    | none => s
  else if e.module = s.straps.module then s.signalBeacon e.beacon e.inc
  else s.sendSignal c.graph e.module (e.beacon % 1024) e.inc

theorem State.issueSignal_readies (s : State) (c : Ctx) (e : Sig) : s.Readies (s.issueSignal c e) := by
  refine .ite ?_ (.ite (State.signalBeacon_readies _ _ _ _) (State.sendSignal_readies _ _ _ _ _))
  split
  · exact State.handBuffer_readies _ _ _
  · exact .refl s

theorem State.issueSignals_eq (s : State) (i : Nat) (c : Ctx) :
    s.issueSignals i c =
      if c.sigs.isEmpty then c.sigs.foldl (fun s e => s.issueSignal c e) s
      else (c.sigs.foldl (fun s e => s.issueSignal c e) s).modCtx i fun c => { c with signalled := true } := rfl

/-- A node that is over takes the note that it has signalled. -/
theorem State.issueSignals_ctx {z : State} {i : Nat} {c : Ctx} (d : Ctx) (h : z.ctx? i = some c) (hs : c.state ≠ .waiting) :
    ∃ sig, (z.issueSignals i d).ctx? i = some { c with signalled := sig } := by
  have signals := (State.Readies.foldl (fun s e => State.issueSignal_readies s d e) d.sigs z).same h hs
  rw [State.issueSignals_eq]
  split
  · exact ⟨_, signals⟩
  · exact ⟨true, State.ctx?_modCtx_same _ signals⟩

theorem State.restoreBeacons_readies (s : State) (g copy : Nat) : s.Readies (s.restoreBeacons g copy) := by
  unfold State.restoreBeacons
  split
  · exact .foldl (fun _ _ => State.setBeacon_readies _ _ _) _ _
  · exact .refl s

theorem State.endInstance_readies (s : State) (g copy : Nat) : s.Readies (s.endInstance g copy) := by
  unfold State.endInstance
  split
  · exact .refl s
  · exact .ite ((State.restoreBeacons_readies s g copy).trans (.of_eq rfl rfl)) (.refl s)

/-! ## The start of an instance (R33, R37) -/

/-- A context whose instance starts waits, with its frame number and nothing of the last instance. -/
def Ctx.atStart (c : Ctx) (frame : Nat) : Ctx :=
  { c with
    state := .waiting, missed := false, signalled := false, frame := frame, tReady := 0, tStart := 0, tDone := 0, lastTile := 0xFFFFFFFF
    draining := false, redone := false, poisoned := false, events := 0, source := none, typeData := [] }

/-- The contexts of a copy at the start of an instance, before the readiness test. -/
theorem startInstance_readies (s : State) (g copy frame anchor : Nat) : ∃ y : State, y.Readies (s.startInstance g copy frame anchor) ∧
    y.clock = s.clock ∧
    ∀ {i : Nat} {c : Ctx}, s.ctx? i = some c → y.ctx? i = some (if c.graph = g ∧ c.copy = copy then c.atStart frame else c) := by
  refine ⟨_, (State.refreshReady_readies _).trans (State.endInstance_readies _ g copy), rfl, fun {i c} hc => ?_⟩
  have keys : ∀ p : Nat × Ctx, (if (p.2.graph == g && p.2.copy == copy) = true then (p.1, p.2.atStart frame) else p).1 = p.1 :=
    fun p => by split <;> rfl
  refine (aGet_map _ keys s.bf.ctxs i).trans ?_
  rw [show aGet s.bf.ctxs i = some c from hc, Option.map_some]
  simp only [Bool.and_eq_true, beq_iff_eq]
  split <;> rfl

/-! ## The end of a node (R37, R51, R64) -/

/-- A node that ends before it has started leaves the data of its record, and nothing else of its context. -/
theorem State.closeUnrun_ctx {s : State} {i : Nat} {c : Ctx} (h : s.ctx? i = some c) :
    (s.closeUnrun i c).clock = s.clock ∧ ∃ data, (s.closeUnrun i c).ctx? i = some { c with typeData := data } := by
  unfold State.closeUnrun
  split
  · have recorded := State.Accesses.foldl (fun s k => State.record_accesses s initBelfry (c.complAddr + 64 + 32 * k) (zeros 32))
      (List.range c.workCount) s
    exact ⟨recorded.clock, _, State.ctx?_modCtx_same _ ((congrArg (fun b : Belfry => aGet b.ctxs i) recorded.bf).trans h)⟩
  · exact ⟨rfl, c.typeData, h⟩

/-- The status that a node's record carries: with none of its own, a poisoned write's before a missed deadline's. -/
def Ctx.endCode (c : Ctx) (st : NodeState) (status : Nat) : Nat :=
  if st = .done ∧ status = 0 then if c.poisoned then 0x0309 else if c.missed then 0x0208 else 0 else status

/-- The outcome that the end of a node leaves in its context. -/
def Ctx.ended (c : Ctx) (st : NodeState) (status lastTile dev : Nat) : Ctx :=
  { c with
    state := st, draining := false, lastStatus := c.endCode st status, tDone := dev, lastTile := lastTile
    runs := if st = .done then satInc 32 c.runs else c.runs
    cancels := if st = .cancelled then satInc 32 c.cancels else c.cancels }

/-- A node's outcome stands in its context, and its record is written. -/
def State.closeNode (y : State) (i : Nat) (d : Ctx) (st : NodeState) (status lastTile : Nat) : State :=
  ((y.modCtx i fun c => { c with
    state := st, draining := false, lastStatus := d.endCode st status, tDone := y.dev, lastTile := lastTile
    runs := if st = .done then satInc 32 c.runs else c.runs
    cancels := if st = .cancelled then satInc 32 c.cancels else c.cancels }).modBf fun b => { b with
      fused := aErase b.fused i, cancelCount := if st = .cancelled then satInc 32 b.cancelCount else b.cancelCount }).record initBelfry d.complAddr
    (d.record i (d.endCode st status) st lastTile y.dev)

theorem State.closeNode_ctx {y : State} {i : Nat} {d : Ctx} (st : NodeState) (status lastTile : Nat) (h : y.ctx? i = some d) :
    (y.closeNode i d st status lastTile).ctx? i = some (d.ended st status lastTile y.dev) := by
  unfold State.closeNode State.ctx?
  rw [(State.record_accesses _ _ _ _).bf]
  exact State.ctx?_modCtx_same _ h

/-- After its record a node signals or is shed, and its instance may end. -/
theorem State.endNode_eq {s : State} {i status lastTile : Nat} {st : NodeState} {c d : Ctx} (h : s.ctx? i = some c)
    (unrun : (s.closeUnrun i c).ctx? i = some d) :
    s.endNode i st status lastTile =
      let z := (s.closeUnrun i c).closeNode i d st status lastTile
      (if st = .done then z.issueSignals i d else if d.draining then z else z.shedNode d).endInstance d.graph d.copy := by
  simp only [State.endNode, h, unrun]
  rfl

/-- Of a node that ends, only the note that it has signalled comes after its outcome. -/
theorem State.endNode_ctx {s : State} {i status lastTile : Nat} {st : NodeState} {c : Ctx} (h : s.ctx? i = some c) (hst : st ≠ .waiting) :
    ∃ data sig, (s.endNode i st status lastTile).ctx? i =
      some { ({ c with typeData := data } : Ctx).ended st status lastTile s.dev with signalled := sig } := by
  obtain ⟨clock, data, unrun⟩ := State.closeUnrun_ctx h
  have closed := State.closeNode_ctx st status lastTile unrun
  rw [show (s.closeUnrun i c).dev = s.dev from congrArg Clock.devtime clock] at closed
  rw [State.endNode_eq h unrun]
  generalize hd : ({ c with typeData := data } : Ctx) = d at unrun closed
  generalize (s.closeUnrun i c).closeNode i d st status lastTile = z at closed
  -- what follows the record
  have after : ∃ sig, (if st = .done then z.issueSignals i d else if d.draining then z else z.shedNode d).ctx? i =
      some { d.ended st status lastTile s.dev with signalled := sig } := by
    split
    · exact State.issueSignals_ctx d closed hst
    split
    · exact ⟨_, closed⟩
    · exact ⟨_, (State.shedNode_readies _ _).same closed hst⟩
  obtain ⟨sig, hsig⟩ := after
  have kept := (State.endInstance_readies _ d.graph d.copy).same hsig hst
  subst hd
  exact ⟨data, sig, kept⟩

/-! ## Dispatch (R44, R49) -/

/-- Without an upset the reads of a node's waits change nothing. -/
theorem State.readWaits_none (s : State) (c : Ctx) : s.readWaits c none = s := by
  unfold State.readWaits
  cases c.waits <;> rfl

/-- A ready node's dispatch, its context read good. -/
theorem dispatchEffect_clean {s x : State} {t i : Nat} {c : Ctx} (hx : s.at t = x) (hc : x.ctx? i = some c) (ha : x.active = true)
    (hh : x.bf.halted = false) (hr : c.state = .ready) (hd : c.draining = false) :
    dispatchEffect t i none .clean s =
      if x.waitsMet c then
        if x.mayStart i c then
          (if c.type = 9 then ((x.consume c).modCtx i fun c => { c with tStart := x.clock.devtime }).endNode i .done 0 0xFFFFFFFF
            else (x.consume c).startNode i c).cascadeAll c.graph c.copy
        else x
      else (x.modCtx i fun c => { c with state := .waiting }).cascadeAll c.graph c.copy := by
  simp only [dispatchEffect, hx, hc, ha, hh, hr, hd, State.contextCorrected, State.readWaits_none, Bool.not_true, Bool.or_self, bne_self_eq_false,
    Bool.false_eq_true, reduceCtorEq, ↓reduceIte, State.dev]
  cases x.waitsMet c <;> cases x.mayStart i c <;> rfl

theorem dispatchEffect_uncorrectable {s x : State} {t i : Nat} {c : Ctx} (hx : s.at t = x) (hc : x.ctx? i = some c) (ha : x.active = true)
    (hh : x.bf.halted = false) (hr : c.state = .ready) (hd : c.draining = false) :
    dispatchEffect t i none .uncorrectable s = (x.contextUe i).stopGraph c.graph 0x0910 := by
  simp only [dispatchEffect, hx, hc, ha, hh, hr, hd, Bool.not_true, Bool.or_self, bne_self_eq_false, Bool.false_eq_true, ↓reduceIte]

/-- A beacon written in all three lanes votes for what was written. -/
theorem State.beaconValue_setBeacon (s : State) (b v : Nat) : (s.setBeacon b v).beaconValue b = v := by
  have written : (s.setBeacon b v).beacon b = { a := v, b := v, c := v } := (State.beacon_of_set rfl b).trans (if_pos rfl)
  rw [State.beaconValue, written, Beacon.vote_agreed]

/-! ## The ends of nodes (R45, R48, R51) -/

theorem nodeCompleteEffect_of_done {s x : State} {t i : Nat} {c : Ctx} (hx : s.at t = x) (hc : x.ctx? i = some c) (ha : x.active = true)
    (hd : c.draining = false) (hsrc : c.isSource = false) (hr : c.state = .running) (hw : x.workDone i c = true) :
    nodeCompleteEffect t i s =
      (((x.closeWork i c .done 0).endNode i .done 0 (x.lastTileOf i c)).dropWork i c 0).cascadeAll c.graph c.copy := by
  simp only [nodeCompleteEffect, hx, hc, ha, hd, hsrc, hr, hw, Bool.not_true, Bool.or_self, bne_self_eq_false, Bool.false_eq_true, ↓reduceIte]

theorem nodeFaultEffect_eq {s x : State} {t i : Nat} {c : Ctx} (st : Nat) (hx : s.at t = x) (hc : x.ctx? i = some c) (ha : x.active = true) :
    nodeFaultEffect t i st s = if c.type = 2 ∨ statusReturned st = false then x else x.unitFault i st := by
  simp only [nodeFaultEffect, hx, hc, ha, Bool.true_and]
  by_cases two : c.type = 2
  · simp [two]
  · cases statusReturned st <;> simp [two]

/-- A node misses its deadline: the flag, the counts and the graph's interrupt. -/
def State.missed (x : State) (i : Nat) (c : Ctx) : State :=
  ((x.modCtx i fun c => { c with missed := true, misses := satInc 32 c.misses }).modBf fun b =>
    { b with missCount := satInc 32 b.missCount }).raise (34 + c.graph % 16)

/-- Past the deadline of an unfinished node the miss comes first, and then the node's policy. -/
theorem deadlineMissEffect_eq {s x : State} {t i d : Nat} {c : Ctx} (hx : s.at t = x) (hc : x.ctx? i = some c) (ha : x.active = true)
    (hd : c.draining = false) (ht : x.absDeadline c = some d) (hs : c.state = .waiting ∨ c.state = .ready ∨ c.state = .running)
    (hm : c.missed = false) :
    deadlineMissEffect t i s =
      if x.clock.timebase ≤ d then x
      else match c.missPolicy with
        | 1 => if c.cancellable then (x.missed i c).cancelNode i else x.missed i c
        | 2 => (x.missed i c).cancelInstance c.graph c.copy
        | _ => x.missed i c := by
  have unfinished : c.state.overs = false ∧ (c.state == .idle) = false := by
    obtain h | h | h := hs <;> rw [h] <;> exact ⟨rfl, rfl⟩
  simp only [deadlineMissEffect, hx, hc, ha, hd, ht, hm, unfinished.1, unfinished.2, State.now, Bool.not_true, Bool.false_or, decide_eq_true_eq]
  rfl

theorem fusedResumeEffect_eq {s x : State} {t i k : Nat} {c : Ctx} {f : Fused} (hx : s.at t = x) (hc : x.ctx? i = some c) (ha : x.active = true)
    (hd : c.draining = false) (hf : aGet x.bf.fused i = some f) (hr : c.state = .running) (hk : k < f.passed.length) :
    fusedResumeEffect t i k s =
      if f.hasSlot c.fuseSlots k = true then { x with bf := { x.bf with fused := aSet x.bf.fused i { passed := f.passed.modify k (· + 1) } } }
      else x := by
  simp only [fusedResumeEffect, hx, hc, ha, hd, hf, hr, hk, Bool.not_false, beq_self_eq_true, decide_true, Bool.true_and]
  rfl

/-! ## Cancellation (R41, R60 to R62, R380) -/

/-- A CANCEL request whose fields are in range, by the graph that it names. -/
theorem cancelEffect_eq {s x : State} {t p : Nat} {r : MbxReq} (hx : s.at t = x) (h : x.req? p 0x14 = some r) (hz : fld r.payload 3 1 = 0)
    (hz' : fld r.payload 6 2 = 0) (hcopy : fld r.payload 2 1 ≤ 3) (hscope : fld r.payload 0 1 ≤ 2) :
    (aGet x.bf.graphs (fld r.payload 1 1) = none → cancelEffect t p s = x.answer p 0x0203) ∧
    ∀ q, aGet x.bf.graphs (fld r.payload 1 1) = some q → q.parked = false →
      (fld r.payload 0 1 = 0 → ∀ c, x.ctx? (fld r.payload 4 2) = some c → c.graph = fld r.payload 1 1 → cancelEffect t p s =
        if c.cancellable then (x.cancelNode (fld r.payload 4 2)).answer p 0 else x.answer p 0x0211) ∧
      (fld r.payload 0 1 = 1 → fld r.payload 2 1 < q.copies.length → cancelEffect t p s =
        (x.cancelInstance (fld r.payload 1 1) (fld r.payload 2 1)).answer p 0) ∧
      (fld r.payload 0 1 = 2 → cancelEffect t p s = (x.cancelGraph (fld r.payload 1 1)).answer p 0) := by
  have inRange : ¬ (2 < fld r.payload 0 1 ∨ 3 < fld r.payload 2 1 ∨ fld r.payload 3 1 ≠ 0 ∨ fld r.payload 6 2 ≠ 0) := by omega
  simp only [cancelEffect, hx, h, inRange, ↓reduceIte]
  refine ⟨fun none => by rw [none], fun q hq hp => ⟨fun h0 c hc hg => ?_, fun h1 hl => ?_, fun h2 => ?_⟩⟩
  · simp only [hq, hp, h0, hc, hg, ne_eq, not_true, Bool.false_eq_true, ↓reduceIte]
    cases c.cancellable <;> rfl
  · simp only [hq, hp, h1, Nat.not_le.mpr hl, Bool.false_eq_true, Nat.one_ne_zero, ↓reduceIte]
  · simp only [hq, hp, h2, Bool.false_eq_true, show ¬ 2 = 0 from by decide, show ¬ 2 = 1 from by decide, ↓reduceIte]

theorem cancelDrainEffect_of_draining {s x : State} {t i : Nat} {c : Ctx} (hx : s.at t = x) (hc : x.ctx? i = some c) (ha : x.active = true)
    (hd : c.draining = true) :
    cancelDrainEffect t i s =
      (((x.flushOpen i).closeWork i c .cancelled 0x0207).endNode i .cancelled 0x0207 ((x.flushOpen i).lastTileOf i c)).dropWork i c 0x0207 := by
  simp only [cancelDrainEffect, hx, hc, ha, hd, Bool.not_true, Bool.or_self, Bool.false_eq_true, ↓reduceIte]

/-- The end of a drain, by what the drain is for. -/
theorem parkDrainEffect_cases {s x : State} {t g p : Nat} {q : Graph} (hostFail : Bool) (hx : s.at t = x) (hq : aGet x.bf.graphs g = some q)
    (ha : x.active = true) :
    (q.inFlight = true → parkDrainEffect t g hostFail s = x) ∧
    (q.inFlight = false → q.drain = .park p → parkDrainEffect t g hostFail s = (x.evictGraph g p hostFail).gateUnused) ∧
    (q.inFlight = false → q.drain = .stop p → parkDrainEffect t g hostFail s = ((x.removeGraph g).gateUnused).answer p 0) := by
  simp only [parkDrainEffect, hx, hq, ha, Bool.not_true, Bool.false_or]
  exact ⟨fun h => if_pos h, fun h hd => by simp only [h, hd, Bool.false_eq_true, ↓reduceIte],
    fun h hd => by simp only [h, hd, Bool.false_eq_true, ↓reduceIte]⟩

/-! ## Multicast (R53 to R59) -/

/-- The next unit of a receiver, by its turn, the credits and the gap markers. -/
theorem multicastWriteEffect_eq {s x : State} {t g r : Nat} {q : McGroup} {v : McRecv} {u : McUnit} {us : List McUnit} (hx : s.at t = x)
    (hr : x.recv? g r = some (q, v)) (ha : x.active = true) (hu : v.todo = u :: us) :
    multicastWriteEffect t g r s =
      if q.turnOf v = false then x
      else if x.lagging q r v ≠ [] then ((x.lagging q r v).foldl (fun s k => s.holdOrShed g q k) x).reportUnits g
      else if (q.awaiting r v).any fun k => ((q.recvs[k]?).map fun x => !x.gaps.isEmpty) == some true then x
      else
        let y := x.setBeacon (q.creditBeacon r) (x.beaconValue (q.creditBeacon r) - 1)
        let a := q.slotAddr r v.delivered
        let p := y.unitPieces q u
        let z := (p.1.foldl (fun s l => s.record (s.groupInitiator q) (a + 16 + l.1) l.2) p.2).record (x.groupInitiator q) a
          (unitHeader g r { u with len := piecesLength p.1 })
        (((z.modRecv g r fun v => { v with todo := us, delivered := v.delivered + 1, holdFrom := none }).signalBeacon
          (q.unitBeacon r) 1).freeIfDone g).reportUnits g := by
  simp only [multicastWriteEffect, hx, hr, ha, hu, Bool.not_true, Bool.false_or]
  cases q.turnOf v
  · rfl
  · cases x.lagging q r v <;> rfl

/-- No receiver that is to have the unit has a gap marker before it. -/
theorem awaiting_any_gaps {q : McGroup} {ks : List Nat} (h : ∀ k ∈ ks, ∀ w, q.recvs[k]? = some w → w.gaps = []) :
    (ks.any fun k => ((q.recvs[k]?).map fun x => !x.gaps.isEmpty) == some true) = false := by
  refine List.any_eq_false.mpr fun k hk => ?_
  cases hw : q.recvs[k]? with
  | none => simp
  | some w => simp [h k hk w hw]

theorem gapMarkerEffect_eq {s x : State} {t g r : Nat} {q : McGroup} {v : McRecv} {m : GapMark} {ms : List GapMark} (hx : s.at t = x)
    (hr : x.recv? g r = some (q, v)) (ha : x.active = true) (hm : v.gaps = m :: ms) :
    gapMarkerEffect t g r s =
      if x.beaconValue (q.creditBeacon r) = 0 then x
      else
        let y := x.setBeacon (q.creditBeacon r) (x.beaconValue (q.creditBeacon r) - 1)
        let f := y.freeBytes (q.slotBytes r - 16)
        (((f.2.record (f.2.groupInitiator q) (q.slotAddr r v.delivered) (gapBytes g r m ++ f.1)).modRecv g r fun v =>
          { v with gaps := ms, delivered := v.delivered + 1, holdFrom := none }).signalBeacon (q.unitBeacon r) 1).reportUnits g := by
  simp only [gapMarkerEffect, hx, hr, ha, hm, Bool.not_true, Bool.false_or, beq_iff_eq]

/-- A hold that has a limit, by the time, the credit and the group's policy. -/
theorem holdExpiryEffect_eq {s x : State} {t g r since : Nat} {q : McGroup} {v : McRecv} {u : McUnit} {us : List McUnit} (hx : s.at t = x)
    (hr : x.recv? g r = some (q, v)) (ha : x.active = true) (hu : v.todo = u :: us) (hf : v.holdFrom = some since) :
    holdExpiryEffect t g r s =
      if x.clock.timebase < since + q.holdLimit * 1000 then x
      else if x.beaconValue (q.creditBeacon r) ≠ 0 then x.modRecv g r fun v => { v with holdFrom := none }
      else if q.policy = 2 then
        let y := (x.modGraph q.graph fun x => { x with status := 0x020B }).event 0x020B 5 q.graph [34 + q.graph % 16]
        if q.isTap then (y.shed g r 1).reportUnits g
        else ((aGet x.bf.graphs q.graph).bind fun x => findIdx (fun n => (n.map (·.frame)) == some u.frame) x.copies 0).elim
          (y.modRecv g r fun v => { v with holdFrom := none }) fun k => (y.modRecv g r fun v => { v with holdFrom := none }).cancelInstance q.graph k
      else (x.shed g r 1).reportUnits g := by
  simp only [holdExpiryEffect, hx, hr, ha, hu, hf, State.now, List.head?_cons, Bool.not_true, Bool.false_or, decide_eq_true_eq]
  cases (aGet x.bf.graphs q.graph).bind fun x => findIdx (fun n => (n.map (·.frame)) == some u.frame) x.copies 0 <;> rfl

end Sys2Proof.Machine
end

section
open Sys2Proof Sys2Proof.Machine

/-- Settles O35: a copy's contexts start waiting, and the readiness test makes at most ready. -/
theorem instanceStartsWaiting : Obligations.InstanceStartsWaiting := by
  intro s g k f a i c hc
  obtain ⟨y, readies, clock, starts⟩ := startInstance_readies s g k f a
  have dev : y.dev = s.dev := congrArg Clock.devtime clock
  have start := starts hc
  by_cases mine : c.graph = g ∧ c.copy = k
  · rw [if_pos mine] at start
    have other : c.graph ≠ g ∨ c.copy ≠ k → False := fun h => h.elim (fun h => h mine.1) fun h => h mine.2
    obtain h | ⟨-, h⟩ := readies.ctx start
    · exact ⟨_, h, rfl, rfl, fun _ _ => ⟨rfl, rfl, rfl, rfl, .inl rfl⟩, fun h => (other h).elim⟩
    · exact ⟨_, h, rfl, rfl, fun _ _ => ⟨rfl, rfl, rfl, rfl, .inr ⟨rfl, dev⟩⟩, fun h => (other h).elim⟩
  · rw [if_neg mine] at start
    obtain h | ⟨hw, h⟩ := readies.ctx start
    · exact ⟨_, h, rfl, rfl, fun hg hk => (mine ⟨hg, hk⟩).elim, fun _ => .inl rfl⟩
    · rw [dev] at h
      exact ⟨_, h, rfl, rfl, fun hg hk => (mine ⟨hg, hk⟩).elim, fun _ => .inr ⟨hw, rfl⟩⟩

/-- Settles O36: a dispatch by the waits and the ranks, and what it consumes. -/
theorem dispatchTakesCounts : Obligations.DispatchTakesCounts := by
  intro s x t i c hx hc ha hh hr hd
  have clean := dispatchEffect_clean hx hc ha hh hr hd
  have run : ∀ {y : State}, dispatchEffect t i none .clean s = y → exec (.nodeDispatch t i none .clean) s = .next y := fun h =>
    congrArg Host.Outcome.next h
  refine ⟨fun hw hm h9 => run ?_, fun hw hm h9 => run ?_, fun hw hm => run ?_, fun hw => run ?_,
    congrArg Host.Outcome.next (dispatchEffect_uncorrectable hx hc ha hh hr hd), fun w hw ho => ?_, fun w hw ho => ?_⟩
  · rw [clean, if_pos hw, if_pos hm, if_neg h9]
  · rw [clean, if_pos hw, if_pos hm, if_pos h9]
  · rw [clean, if_pos hw, if_neg (by simp [hm])]
  · rw [clean, if_neg (by simp [hw])]
  · simp only [State.consume, hw, ho, List.filter_cons, List.filter_nil, Bool.not_false, ↓reduceIte, List.foldl_cons, List.foldl_nil]
    exact State.beaconValue_setBeacon _ _ _
  · simp only [State.consume, hw, ho, List.filter_cons, List.filter_nil, Bool.not_true, Bool.false_eq_true, ↓reduceIte, List.foldl_nil]

/-- Settles O38: the outcome stands in the context, and only the note of its signals follows it. -/
theorem nodesEnd : Obligations.NodesEnd := by
  intro s i status last st c hc hst code
  have ended : st ≠ .waiting := by
    obtain h | h | h := hst <;> rw [h] <;> decide
  obtain ⟨data, sig, h⟩ := State.endNode_ctx (status := status) (lastTile := last) hc ended
  exact ⟨_, h, rfl, rfl, rfl, rfl, rfl, rfl, rfl, rfl, rfl⟩

/-- Settles O39: each command's effect on a node whose device runs. -/
theorem nodesCompleteFaultOrMiss : Obligations.NodesCompleteFaultOrMiss := by
  intro s x t i c hx hc ha hd
  refine ⟨fun hsrc hr hw => congrArg Host.Outcome.next (nodeCompleteEffect_of_done hx hc ha hd hsrc hr hw),
    fun st => congrArg Host.Outcome.next (nodeFaultEffect_eq st hx hc ha), fun d ht hs hm => ?_,
    fun k f hf hr hk => congrArg Host.Outcome.next (fusedResumeEffect_eq hx hc ha hd hf hr hk)⟩
  have miss := deadlineMissEffect_eq hx hc ha hd ht hs hm
  refine ⟨fun intime => congrArg Host.Outcome.next (miss.trans (if_pos intime)), fun late => ?_⟩
  rw [if_neg (Nat.not_le.mpr late)] at miss
  refine ⟨fun hp => congrArg Host.Outcome.next (miss.trans ?_), fun hp hcan => congrArg Host.Outcome.next (miss.trans ?_),
    fun hp => congrArg Host.Outcome.next (miss.trans ?_)⟩
  · obtain hp | ⟨hp, hcan⟩ := hp
    · rw [hp]
      rfl
    · rw [hp, hcan]
      rfl
  · rw [hp, hcan]
    rfl
  · rw [hp]
    rfl

/-- Settles O40: the request by its scope, and the ends of drains. -/
theorem cancelsByScope : Obligations.CancelsByScope := by
  intro s x t p g i r hx
  refine ⟨fun h hg hi hz hz' hcopy => ?_, fun c hc ha hd => congrArg Host.Outcome.next (cancelDrainEffect_of_draining hx hc ha hd),
    fun q hostFail hq ha => ?_⟩
  · subst hg hi
    have run : ∀ {y : State}, cancelEffect t p s = y → exec (.cancel t p) s = .next y := fun h => congrArg Host.Outcome.next h
    refine ⟨fun none hs => run ((cancelEffect_eq hx h hz hz' hcopy hs).1 none), fun q hq hp => ⟨fun c h0 hc hg => run ?_, fun h1 hl => run ?_,
      fun h2 => run ?_⟩⟩
    · exact ((cancelEffect_eq hx h hz hz' hcopy (by omega)).2 q hq hp).1 h0 c hc hg
    · exact ((cancelEffect_eq hx h hz hz' hcopy (by omega)).2 q hq hp).2.1 h1 hl
    · exact ((cancelEffect_eq hx h hz hz' hcopy (by omega)).2 q hq hp).2.2 h2
  · obtain ⟨waits, parks, stops⟩ := parkDrainEffect_cases (t := t) (p := p) hostFail hx hq ha
    exact ⟨fun h => congrArg Host.Outcome.next (waits h), fun h hd => congrArg Host.Outcome.next (parks h hd),
      fun h hd => congrArg Host.Outcome.next (stops h hd)⟩

/-- Settles O42: a unit, a marker and a hold, each by the credits. -/
theorem multicastDelivers : Obligations.MulticastDelivers := by
  intro s x t g r q v hx hr ha
  refine ⟨fun u us hu => ?_, fun m ms hm => ?_, fun u us since hu hf => ?_⟩
  · have write := multicastWriteEffect_eq hx hr ha hu
    have run : ∀ {y : State}, multicastWriteEffect t g r s = y → exec (.multicastUnitWrite t g r) s = .next y := fun h =>
      congrArg Host.Outcome.next h
    intro due short
    rw [show x.lagging q r v = short from rfl] at write
    refine ⟨fun htap => if_pos htap, fun hturn => run (write.trans (if_pos hturn)), fun hturn hshort => run (write.trans ?_), fun y k => rfl,
      fun hturn hshort hgaps => run (write.trans ?_)⟩
    · rw [if_neg (by simp [hturn]), if_pos hshort]
    · rw [if_neg (by simp [hturn]), if_neg (not_not_intro hshort), if_neg (by simpa using awaiting_any_gaps hgaps)]
  · have write := gapMarkerEffect_eq hx hr ha hm
    exact ⟨fun h => congrArg Host.Outcome.next (write.trans (if_pos h)), fun h => congrArg Host.Outcome.next (write.trans (if_neg h))⟩
  · have expiry := holdExpiryEffect_eq hx hr ha hu hf
    have run : ∀ {y : State}, holdExpiryEffect t g r s = y → exec (.holdLimitExpiry t g r) s = .next y := fun h => congrArg Host.Outcome.next h
    refine ⟨fun early => run (expiry.trans (if_pos early)), fun late credit => run ?_, fun late none hp => run ?_, fun late none hp htap => run ?_,
      fun y copy late none hp htap hy hcopy => run ?_⟩
    all_goals rw [expiry, if_neg (Nat.not_lt.mpr late)]
    · rw [if_pos credit]
    · rw [if_neg (not_not_intro none), if_neg hp]
    · rw [if_neg (not_not_intro none), if_pos hp]
      exact if_pos htap
    · rw [if_neg (not_not_intro none), if_pos hp]
      refine (if_neg (by simp [htap])).trans ?_
      rw [hy, Option.bind_some, hcopy]
      rfl

end

section
/-! The memory window, failed host transfers, D3hot, and the requests of the memory system (R75, R85, R104, R369, R374, R388, R474, R489). -/
namespace Sys2Proof.Machine
open Sys2Proof

/-! ## The memory window (R369, R474) -/

/-- An access that ends within the DRAM region lies in it, and its status is the protection unit's. -/
theorem State.accessStatus_dram {x : State} {i a n : Nat} (write : Bool) (hn : 0 < n) (hd : a + n ≤ x.dramEnd) (hcap : x.dramEnd ≤ 0x10_0000_0000) :
    (regionOf a = .dram ∧ regionOf (a + n - 1) = .dram) ∧ x.accessStatus i a n write = if x.allowed i a n write then 0 else 0x0A10 := by
  have lo : regionOf a = .dram := if_pos (by omega)
  have hi : regionOf (a + n - 1) = .dram := if_pos (by omega)
  refine ⟨⟨lo, hi⟩, ?_⟩
  have map : x.mapStatus a n write = 0 := by
    simp only [State.mapStatus, Nat.ne_of_gt hn, lo, hi, ne_eq, not_true, ↓reduceIte]
    exact if_pos (by omega)
  simp only [State.accessStatus, map, lo, ne_eq, not_true, reduceCtorEq, false_and, ↓reduceIte]
  cases x.allowed i a n write <;> rfl

/-- A write through the window that ends within DRAM. -/
theorem bar4Effect_write {s x : State} {t off : Nat} {b : Bytes} (hx : s.at t = x) (hr : x.hostReach = true) (hb : b ≠ [])
    (hs : off + b.length ≤ x.pci.bar4Size) (hd : x.pci.bar4Base * 2 ^ 28 + off + b.length ≤ x.dramEnd) (hcap : x.dramEnd ≤ 0x10_0000_0000) :
    bar4Effect t off 0 (.write b) s =
      if x.allowed initPcie (x.pci.bar4Base * 2 ^ 28 + off) b.length true then (x.writeRaw initPcie (x.pci.bar4Base * 2 ^ 28 + off) b).2
      else x.refuseBar4 0x0A10 false := by
  have len : 0 < b.length := List.length_pos_iff.mpr hb
  obtain ⟨inDram, status⟩ := State.accessStatus_dram (i := initPcie) true len hd hcap
  simp only [bar4Effect, hx, hr, Nat.not_lt.mpr hs, Nat.ne_of_gt len, inDram, status, Bool.not_true, Bool.false_or, decide_false, Bool.false_eq_true,
    and_self, decide_true, ↓reduceIte]
  cases x.allowed initPcie (x.pci.bar4Base * 2 ^ 28 + off) b.length true <;> rfl

/-- A read of it that the protection unit refuses. -/
theorem bar4Effect_read_refused {s x : State} {t off n : Nat} (hx : s.at t = x) (hr : x.hostReach = true) (hn : 0 < n)
    (hs : off + n ≤ x.pci.bar4Size) (hd : x.pci.bar4Base * 2 ^ 28 + off + n ≤ x.dramEnd) (hcap : x.dramEnd ≤ 0x10_0000_0000)
    (refused : x.allowed initPcie (x.pci.bar4Base * 2 ^ 28 + off) n false = false) :
    bar4Effect t off n (.read .clean) s = x.refuseBar4 0x0A10 true := by
  obtain ⟨inDram, status⟩ := State.accessStatus_dram (i := initPcie) false hn hd hcap
  rw [refused] at status
  simp only [bar4Effect, hx, hr, Nat.not_lt.mpr hs, Nat.ne_of_gt hn, inDram, status, Bool.not_true, Bool.false_or, decide_false, Bool.false_eq_true,
    and_self, decide_true, ↓reduceIte]
  rfl

/-- What a refusal of the protection unit counts, and where. -/
theorem State.refuseBar4_denied (x : State) (read : Bool) :
    let s' := x.refuseBar4 0x0A10 read
    s'.mem = x.mem ∧ s'.pci.bar4Refused = satInc 16 x.pci.bar4Refused ∧ s'.watch.denyCount = satInc 24 x.watch.denyCount ∧
      s'.watch.denyLast = initPcie ∧ s'.out = x.out ++ if read then [.bar4 none false] else [] := by
  have count : x.countRefusal initPcie 0x0A10 = x.deny initPcie := rfl
  have denied : (x.deny initPcie).mem = x.mem ∧ (x.deny initPcie).pci = x.pci ∧ (x.deny initPcie).out = x.out ∧
      (x.deny initPcie).watch.denyCount = satInc 24 x.watch.denyCount ∧ (x.deny initPcie).watch.denyLast = initPcie := by
    rw [State.deny, State.noteRare]
    split <;> exact ⟨rfl, rfl, rfl, rfl, rfl⟩
  obtain ⟨mem, pci, out, denyCount, denyLast⟩ := denied
  intro s'
  have e : s' = x.refuseBar4 0x0A10 read := rfl
  rw [State.refuseBar4, count] at e
  rw [e]
  cases read with
  | false => exact ⟨mem, congrArg (fun p : Pci => satInc 16 p.bar4Refused) pci, denyCount, denyLast, out.trans (List.append_nil _).symm⟩
  | true =>
    refine ⟨mem, congrArg (fun p : Pci => satInc 16 p.bar4Refused) pci, denyCount, denyLast, ?_⟩
    rw [if_pos rfl, if_pos rfl]
    exact congrArg (· ++ [Output.bar4 none false]) out

/-! ## Pairs that stop (R374) -/

/-- An event leaves every pair but the event pair alone. -/
theorem State.event_pairs_other {s : State} {p : Nat} (h : s.pci.eventPair ≠ p) (status source unit : Nat) (vecs : List Nat) (data : Bytes) :
    (s.event status source unit vecs data).pci.pairs.at p = s.pci.pairs.at p := by
  have posted : ∀ (y : State) (b : Bytes), y.pci.eventPair = s.pci.eventPair → (y.postEvent source b).pci.pairs.at p = y.pci.pairs.at p := by
    intro y b hy
    unfold State.postEvent
    dsimp only
    split
    · exact (congrArg (Tab.at · p) (State.mbxWrite_pairs _ _ _ _ _ _ _)).trans (Tab.at_mod_other _ _ _ _ (by rw [← hy] at h; exact h))
    · split <;> rfl
  unfold State.event
  rw [State.raiseAll_keeps_eq (fun z => z.pci.pairs) (fun z v => State.raise_pairs z v)]
  exact posted _ _ rfl

/-- A pair that stops is not enabled, has its error bit, and answers nothing more. -/
theorem State.stopPair_pairs {s : State} {p : Nat} (status : Nat) (hp : p < 16) :
    (s.stopPair p status).pci.pairs.at p = { (s.pci.pairs.at p).idle with
      cur := none, fetchErr := (s.pci.pairs.at p).fetchErr || status == 0x0109, writeErr := (s.pci.pairs.at p).writeErr || status == 0x010A } := by
  have stopped := State.modPair_at_same s hp fun q =>
    { q.idle with cur := none, fetchErr := q.fetchErr || status == 0x0109, writeErr := q.writeErr || status == 0x010A }
  unfold State.stopPair
  dsimp only
  split
  next h => exact (State.event_pairs_other h.1 _ _ _ _ _).trans stopped
  next => exact (congrArg (Tab.at · p) (State.raise_pairs _ _)).trans stopped

/-- A failed transfer of an enabled pair stops it. -/
theorem exec_pcieCompletionTimeout_response {s x : State} {t p : Nat} (hx : s.at t = x) (hh : x.resets.held = [])
    (he : (x.pci.pairs.at p).enabled = true) : exec (.pcieCompletionTimeout t (.response p)) s = .next (x.stopPair p 0x010A) := by
  change Host.Outcome.next (completionTimeoutEffect t _ s) = _
  simp only [completionTimeoutEffect, hx, hh, he, List.isEmpty_nil, Bool.not_true, Bool.false_eq_true, ↓reduceIte]

theorem exec_pcieCompletionTimeout_fetch {s x : State} {t p : Nat} (hx : s.at t = x) (hh : x.resets.held = [])
    (he : (x.pci.pairs.at p).enabled = true) (hw : 0 < (x.pci.pairs.at p).waiting) :
    exec (.pcieCompletionTimeout t (.fetch p)) s = .next (x.stopPair p 0x0109) := by
  change Host.Outcome.next (completionTimeoutEffect t _ s) = _
  simp only [completionTimeoutEffect, hx, hh, he, hw, decide_true, Bool.and_self, List.isEmpty_nil, Bool.not_true, Bool.false_eq_true, ↓reduceIte]

/-! ## D3hot (R489) -/

theorem exec_d3hotEntry {s x : State} {t : Nat} (hx : s.at t = x) (hr : x.hostReach = true) :
    exec (.d3hotEntry t) s = .next { x with pci := { x.pci with d3hot := true } } := by
  subst hx
  exact congrArg Host.Outcome.next (if_pos hr)

theorem exec_d0Return {s x : State} {t : Nat} (hx : s.at t = x) (hh : x.resets.held = []) (hd : x.pci.d3hot = true) :
    exec (.d0Return t) s = .next (({ x with pci := { x.pci with d3hot := false } } : State).deliverHeld.sendPending) := by
  subst hx
  exact congrArg Host.Outcome.next (if_pos (by rw [hh, hd]; rfl))

/-! ## Requests of the memory system (R75, R88, R388) -/

/-- The cache share is free to change where no admitted graph holds a partition. -/
theorem State.cacheFree_eq_false_iff (x : State) : x.cacheFree = false ↔ ∃ g ∈ x.bf.graphs, g.2.partitions ≠ [] := by
  simp [State.cacheFree]

theorem setCacheEffect_eq {s x : State} {t p : Nat} {r : MbxReq} (hx : s.at t = x) (h : x.req? p 0x16 = some r)
    (hz : allZero (sub r.payload 1 3) = true) :
    setCacheEffect t p s =
      if 8 < fld r.payload 0 1 then x.answer p 0x0107
      else if x.cacheFree = false then x.answer p 0x030D
      else (x.setCache (fld r.payload 0 1)).answer p 0 := by
  simp only [setCacheEffect, hx, h, hz, Bool.not_true, Bool.false_eq_true, or_false, Bool.not_eq_true']

/-- A window entry made valid for reads and writes is checked whole. -/
theorem hostWindowEffect_of_write {s x : State} {t p : Nat} {r : MbxReq} (hx : s.at t = x) (h : x.req? p 0x30 = some r) (he : fld r.payload 0 1 ≤ 63)
    (hf : fld r.payload 1 1 = 3) (hz : allZero (sub r.payload 2 6) = true) :
    hostWindowEffect t p s =
      if fld r.payload 8 8 % 4096 = 0 ∧ fld r.payload 16 8 % 4096 = 0 ∧ 4096 ≤ fld r.payload 16 8 ∧ fld r.payload 16 8 ≤ 0x4000_0000
      then ({ x with pci := { x.pci with windows := x.pci.windows.mod (fld r.payload 0 1) fun _ =>
        { valid := true, write := true, base := fld r.payload 8 8, size := fld r.payload 16 8 } } } : State).answer p 0
      else x.answer p 0x0107 := by
  have flags : bits 3 2 6 = 0 ∧ bit 3 0 = true ∧ bit 3 1 = true := by decide
  simp only [hostWindowEffect, hx, h, hf, hz, flags, Nat.not_lt.mpr he, Bool.not_true, Bool.false_eq_true, ne_eq, not_true, false_or, true_and, ↓reduceIte]
  by_cases ok : fld r.payload 8 8 % 4096 = 0 ∧ fld r.payload 16 8 % 4096 = 0 ∧ 4096 ≤ fld r.payload 16 8 ∧ fld r.payload 16 8 ≤ 0x4000_0000
  · rw [if_pos ok, if_neg (by omega)]
    rfl
  · rw [if_neg ok, if_pos (by omega)]

theorem dmaCopyEffect_eq {s x : State} {t p : Nat} {r : MbxReq} (hx : s.at t = x) (h : x.req? p 0x31 = some r) (he : fld r.payload 0 1 ≤ 11)
    (hz : allZero (sub r.payload 1 7) = true) :
    dmaCopyEffect t p s = if (x.mem.dma.at (fld r.payload 0 1)).failed = true then x.answer p 0x090D else x.startReq p := by
  simp only [dmaCopyEffect, hx, h, hz, Nat.not_lt.mpr he, Bool.not_true, Bool.false_eq_true, or_self, ↓reduceIte]

/-! ## MEM_CFG (R85, R104) -/

/-- An interface's MEM_CFG that a write sets while it is not locked. -/
def MemCfg.written (c : MemCfg) (v : Nat) : MemCfg :=
  { c with
    lock := bit v 31, eccEn := bit v 8, populated := bit v 7, capacity := if bits v 3 4 ≤ 5 then bits v 3 4 else c.capacity
    rate := if bits v 0 3 ≤ 2 then bits v 0 3 else c.rate }

theorem State.firmwareWrite_memCfg (s : State) {m : Nat} (hm : m < 4) (v : Nat) :
    (s.firmwareWrite (0x58_0000 + m * 0x1000) v).mem.cfg = s.mem.cfg.mod m fun c => if c.lock then c else c.written v := by
  match m, hm with
  | 0, _ | 1, _ | 2, _ | 3, _ => rfl

/-- The loss of an interface is a fatal condition with the interface marked. -/
theorem memoryInterfaceLoss_leaves {x : State} {m : Nat} (hm : m < 4) (hst : x.pci.state ≠ .fatal) :
    let s' := ({ x with mem := { x.mem with cfg := x.mem.cfg.mod m fun c => { c with trainFailed := true } } } : State).fatal 0x0312
    s'.pci.state = .fatal ∧ s'.pci.fatalStatus = 0x0312 ∧ (s'.mem.cfg.at m).trainFailed = true ∧ s'.bf.halted = true := by
  have h := State.fatal_reports (s := { x with mem := { x.mem with cfg := x.mem.cfg.mod m fun c => { c with trainFailed := true } } }) hst 0x0312
  refine ⟨h.pciState, h.fatalStatus, ?_, congrArg Belfry.halted h.bf⟩
  rw [h.memCfg]
  exact congrArg MemCfg.trainFailed (Tab.at_mod_same _ _ _ hm)

end Sys2Proof.Machine
end

section
open Sys2Proof Sys2Proof.Machine

/-- Settles O43: the window by the protection unit, a stopped pair, D3hot, and each request by its checks. -/
theorem hostAndMemoryRequests : Obligations.HostAndMemoryRequests := by
  intro s x t off p m b r hx
  refine ⟨fun hh => ⟨fun hr hb hs hd hcap => ?_, fun he hp => ⟨fun hw => ?_, ?_⟩, exec_d3hotEntry hx, exec_d0Return hx hh⟩, fun h hz => ?_, fun h he hf hz =>
    congrArg Host.Outcome.next (hostWindowEffect_of_write hx h he hf hz), fun h he hz => congrArg Host.Outcome.next (dmaCopyEffect_eq hx h he hz),
    fun hm => .of_next (s' := { x with mem := { x.mem with cfg := x.mem.cfg.mod m fun c => { c with lock := true } } }) (by subst hx; rfl) ?_,
    fun hm hpop hst => .of_next (congrArg Host.Outcome.next (by subst hx; exact if_pos hpop)) (memoryInterfaceLoss_leaves hm hst)⟩
  · have write := bar4Effect_write hx hr hb hs hd hcap
    refine ⟨fun ok => congrArg Host.Outcome.next (write.trans (if_pos ok)),
      fun refused => .of_next (congrArg Host.Outcome.next (write.trans (if_neg (by rw [refused]; decide)))) ?_,
      fun refused => .of_next (congrArg Host.Outcome.next (bar4Effect_read_refused hx hr (List.length_pos_iff.mpr hb) hs hd hcap refused)) ?_⟩
    · obtain ⟨mem, count, denyCount, denyLast, out⟩ := x.refuseBar4_denied false
      exact ⟨congrArg MemSys.cells mem, congrArg MemSys.errCount mem, count, denyCount, denyLast, out.trans (List.append_nil _)⟩
    · obtain ⟨mem, -, -, -, out⟩ := x.refuseBar4_denied true
      exact ⟨congrArg MemSys.cells mem, out⟩
  · refine .of_next (exec_pcieCompletionTimeout_fetch hx hh he hw) ?_
    rw [State.stopPair_pairs _ hp]
    exact ⟨rfl, Bool.or_true _, rfl⟩
  · refine .of_next (exec_pcieCompletionTimeout_response hx hh he) ?_
    rw [State.stopPair_pairs _ hp]
    exact ⟨rfl, Bool.or_true _, rfl⟩
  · refine (congrArg Host.Outcome.next (setCacheEffect_eq hx h hz)).trans ?_
    simp only [State.cacheFree_eq_false_iff]
  · have locked : (({ x with mem := { x.mem with cfg := x.mem.cfg.mod m fun c => { c with lock := true } } } : State).mem.cfg.at m).lock = true :=
      congrArg MemCfg.lock (Tab.at_mod_same _ _ _ hm)
    refine ⟨locked, rfl, fun v => ?_⟩
    rw [State.firmwareWrite_memCfg _ hm, Tab.at_mod_same _ _ _ hm, if_pos locked]

end

section
/-! A DMA engine that reads its own register page (R88, R90): a plain source whose answer its own request changes. -/
namespace Sys2Proof.Machine
open Sys2Proof

/-- A read of one byte: the number of DMA engine 0's tags in use (DMA_STATUS). -/
def tagsRead : DmaReq := { tag := 0, write := false, addr := 0xF0_0048_1002, len := 1 }

/-- An item whose one request is that read. -/
def tagsItem : DmaItem := { reqs := [tagsRead] }

/-- Engine 0 reads, for a plain source, how many of its own tags are in use. -/
def tagsState : State :=
  { ({} : State) with
    pci := { state := .ready }
    resets := { held := [] }
    mem := { dma := Tab.mod (Vector.replicate 15 {} : Tab 15 DmaEngine) 0 fun _ => { item := some tagsItem } } }

/-- The source is plain. -/
theorem tagsItem_plain : (streamOf tagsItem.src).wcomp = false ∧ (streamOf tagsItem.src).rawcomp = false := by decide +kernel

/-- The read returns once its tag is free, so it counts a tag fewer than the register held. -/
theorem readData_tagsState :
    (tagsState.modDma 0 fun d => { d with item := some { tagsItem with reqs := [] } }).readData (streamOf tagsItem.src) tagsRead none ≠
      some (tagsState.peek tagsRead.addr tagsRead.len) := by decide +kernel

end Sys2Proof.Machine
end

section
open Sys2Proof Sys2Proof.Machine

/-- Refutes O44: a read of the engine's own DMA_STATUS returns the register as it stands after the request left it, not as it stood before. -/
theorem not_dmaEnginesMove : ¬ Obligations.DmaEnginesMove := by
  unfold Obligations.DmaEnginesMove
  intro h
  obtain ⟨-, -, -, returns, -⟩ := h tagsState tagsState 0 0 { item := some tagsItem } rfl (by decide) (by decide +kernel) (by decide +kernel) rfl
  obtain ⟨-, plain, -⟩ := returns tagsItem tagsRead rfl rfl rfl rfl rfl (by decide +kernel)
  obtain ⟨-, data⟩ := plain tagsItem_plain.1 tagsItem_plain.2
  have inside : regionOf tagsRead.addr ≠ .host := by decide
  exact readData_tagsState (data.trans (congrArg some (if_neg inside)))

end

section
/-! Work counters (R80, R81) and the reduction unit (R82, R83, R182). -/
namespace Sys2Proof.Machine
open Sys2Proof

/-! ## Counters -/

theorem State.counter_setCounter (s : State) (k v j : Nat) : (s.setCounter k v).counter j = if k = j then v % 2 ^ 32 else s.counter j := by
  unfold State.counter State.setCounter
  rw [aGet_aSet]
  split <;> rfl

theorem fetchAddEffect_of_word {s x : State} {t i a v : Nat} (hx : s.at t = x) (active : x.active = true) (hr : regionOf a = .counters)
    (open_ : x.accessStatus i a 4 true = 0) (aligned : a % 8 = 0) (good : x.counterBad ((a - 0x40_1000_0000) / 8) = false) :
    fetchAddEffect t i a 4 v none .clean s = (x.setCounter ((a - 0x40_1000_0000) / 8) (x.counter ((a - 0x40_1000_0000) / 8) + v)).emit
      (.fetched a (some (x.counter ((a - 0x40_1000_0000) / 8)))) := by
  simp only [fetchAddEffect, hx, active, hr, open_, aligned, good, State.noteCorrected, Bool.not_true, Bool.false_eq_true, ne_eq, not_true,
    reduceCtorEq, or_self, ↓reduceIte]

theorem fetchAddEffect_of_size {s x : State} {t i a v n : Nat} (hx : s.at t = x) (active : x.active = true) (hn : n ≠ 4)
    (open_ : x.accessStatus i a n true = 0) :
    fetchAddEffect t i a n v none .clean s = (x.note 0x030F 6 0xFF).emit (.fetched a (some 0)) := by
  simp only [fetchAddEffect, hx, active, open_, Bool.not_true, Bool.false_eq_true, ne_eq, not_true, hn, not_false_eq_true, or_true, ↓reduceIte]

/-- A write of a counter that passes the address map writes an aligned word of Belfry's or firmware's and refuses any other. -/
theorem exec_workCounterWrite {s x : State} {t i a : Nat} {b : Bytes} (hx : s.at t = x) (active : x.active = true) (hr : regionOf a = .counters)
    (hb : b ≠ []) (open_ : x.accessStatus i a b.length true = 0) :
    exec (.workCounterWrite t i a b) s = .next (if (i = initBelfry ∨ i = initFirmware) ∧ a % 8 = 0 ∧ b.length = 4 then
      { x with mem := { x.mem with
        counters := aSet x.mem.counters ((a - 0x40_1000_0000) / 8) (leNat b), bad := x.mem.bad.filter (· ≠ a) } }
      else x.note 0x030F 6 0xFF) := by
  change Host.Outcome.next (if (s.at t).active && regionOf a == .counters then ((s.at t).write i a b).2 else s.at t) = _
  have counters : (x.active && regionOf a == .counters) = true := by rw [active, hr]; rfl
  rw [hx, if_pos counters]
  simp only [State.write, open_, ne_eq, not_true, State.writeRaw, hb, hr, ↓reduceIte]
  split <;> rfl

/-! ## Reduction jobs -/

theorem jobStartEffect_of_reduce {s x : State} {t i k : Nat} {c : Ctx} {m : MacroRun} (hx : s.at t = x) (active : x.active = true)
    (hc : x.ctx? i = some c) (hm : x.macro? i k = some m) (running : c.state = .running) (stays : c.draining = false) (phase : m.phase = .reduce)
    (free : aGet x.mem.jobs (mRjob m.desc) = none) :
    let b := jobBytes m.desc m.view.aFmt m.view.bFmt
    let y := (x.writeRaw initBelfry (0x40_2000_0000 + 1024 * mRjob m.desc) b).2
    jobStartEffect t i k s = if y.jobOk c.graph b (jobOf i b) = true
      then { y with mem := { y.mem with jobs := aSet y.mem.jobs (mRjob m.desc) (jobOf i b) } }
      else y.macroFault i k 0x030E := by
  have runs : (NodeState.running != .running) = false := by decide
  have reduces : (MacroPhase.reduce != .reduce) = false := by decide
  simp only [jobStartEffect, hx, hc, hm, active, running, stays, phase, free, runs, reduces, Option.isSome_none, Bool.not_true, Bool.or_self,
    Bool.false_eq_true, ↓reduceIte]

/-- The sums of a job after the partial that stands at `b`. -/
def RedJob.sums (j : RedJob) (b : Bytes) : List (Option Nat) :=
  (List.range j.elems).map fun e => redAdd j.size (j.added == 0) (j.sum.getD e 0) (fld b (e * j.size) (min j.size 12))

/-- A job of FP32 partials after its first adds each element and rounds once. -/
theorem RedJob.sums_of_fp32 {j : RedJob} (b : Bytes) (hf : j.format = 8) (later : 0 < j.added) :
    j.sums b = (List.range j.elems).map fun e => some (round32 ((val32 (j.sum.getD e 0)).add (val32 (fld b (e * 4) 4)))) := by
  have size : j.size = 4 := by rw [RedJob.size, hf]; rfl
  have more : (j.added == 0) = false := beq_eq_false_iff_ne.mpr (Nat.ne_of_gt later)
  simp only [RedJob.sums, size, more, redAdd]
  rfl

theorem partialAddEffect_of_live {s x : State} {t slot : Nat} {j : RedJob} {q : Nat × Nat} (err : ReadErr) (hx : s.at t = x)
    (active : x.active = true) (hj : aGet x.mem.jobs slot = some j) (hq : j.parts[j.added]? = some q) (live : x.jobLive j = true) :
    partialAddEffect t slot err s =
      (let s := x.noteCorrected err q.1
       let drop := fun (s : State) => ({ s with mem := { s.mem with jobs := aErase s.mem.jobs slot } } : State)
       if err = .uncorrectable ∨ s.isBad q.1 (j.elems * j.size) then
         (drop ((if err = .uncorrectable then s.strike q.1 else s).countUncorrectable 0x0902 q.1 (initUnit initReduce))).unitFault j.ctx 0x0313
       else
         let xs := j.sums (s.peek q.1 (j.elems * j.size))
         if xs.any (·.isNone) then (drop s).unitFault j.ctx 0x0406
         else if j.added + 1 < j.parts.length then
           { s with mem := { s.mem with jobs := aSet s.mem.jobs slot { j with added := j.added + 1, sum := xs.map (·.getD 0) } } }
         else (drop s).jobWrite slot j ((xs.map (·.getD 0)).map fun x => padTo j.size (leBytes (min j.size 12) x)).flatten) := by
  simp only [partialAddEffect, hx, hj, hq, active, live, Bool.and_self]
  rfl

theorem partialAddEffect_of_not_live {s x : State} {t slot : Nat} {j : RedJob} (err : ReadErr) (hx : s.at t = x)
    (hj : aGet x.mem.jobs slot = some j) (ended : x.jobLive j = false) : partialAddEffect t slot err s = x := by
  simp only [partialAddEffect, hx, hj, ended, Bool.and_false]
  split
  · contradiction
  · rfl

/-- One more partial of FP32 elements, not the first and not the last. -/
theorem partialAddEffect_of_fp32 {s x : State} {t slot : Nat} {j : RedJob} {q : Nat × Nat} (hx : s.at t = x) (active : x.active = true)
    (hj : aGet x.mem.jobs slot = some j) (hq : j.parts[j.added]? = some q) (live : x.jobLive j = true) (hf : j.format = 8) (later : 0 < j.added)
    (more : j.added + 1 < j.parts.length) (good : x.isBad q.1 (j.elems * 4) = false) :
    partialAddEffect t slot .clean s = { x with mem := { x.mem with jobs := aSet x.mem.jobs slot { j with
      added := j.added + 1
      sum := (List.range j.elems).map fun e =>
        round32 ((val32 (j.sum.getD e 0)).add (val32 (fld (x.peek q.1 (j.elems * 4)) (e * 4) 4))) } } } := by
  have size : j.size = 4 := by rw [RedJob.size, hf]; rfl
  simp only [partialAddEffect_of_live .clean hx active hj hq live, State.noteCorrected, size, good, RedJob.sums_of_fp32 _ hf later, more, List.any_map,
    List.map_map, reduceCtorEq, Bool.false_eq_true, or_self, ↓reduceIte]
  rw [if_neg (by simp)]
  rfl

end Sys2Proof.Machine
end

section
open Sys2Proof Sys2Proof.Machine

/-- Settles O45: the counter's word, the slot's job, and the sums element by element. -/
theorem countersAndReduction : Obligations.CountersAndReduction := by
  intro s x t i a v hx active hr
  refine ⟨fun open_ aligned good => ?_, fun open_ => congrArg Host.Outcome.next (fetchAddEffect_of_size hx active (by decide) open_),
    fun b hb open_ => ⟨fun notBelfry notFirmware => ?_, fun firmware aligned word => ?_⟩,
    fun i k c m hc hm running stays phase free => congrArg Host.Outcome.next (jobStartEffect_of_reduce hx active hc hm running stays phase free),
    fun slot j q hj hq live => ⟨?_, fun hf later more good => ?_⟩,
    fun slot j err hj ended => congrArg Host.Outcome.next (partialAddEffect_of_not_live err hx hj ended)⟩
  · refine .of_next (congrArg Host.Outcome.next (fetchAddEffect_of_word hx active hr open_ aligned good)) ?_
    exact ⟨rfl, (State.counter_setCounter _ _ _ _).trans (if_pos rfl), fun j hj => (State.counter_setCounter _ _ _ _).trans (if_neg hj.symm), rfl⟩
  · rw [exec_workCounterWrite hx active hr hb open_, if_neg fun h => h.1.elim notBelfry notFirmware]
  · refine .of_next ((exec_workCounterWrite hx active hr hb open_).trans (congrArg Host.Outcome.next (if_pos ⟨.inr firmware, aligned, word⟩))) ?_
    exact ⟨congrArg (Option.getD · 0) ((aGet_aSet _ _ _ _).trans (if_pos rfl)),
      fun j hj => congrArg (Option.getD · 0) ((aGet_aSet _ _ _ _).trans (if_neg hj.symm))⟩
  · exact congrArg Host.Outcome.next ((partialAddEffect_of_live .uncorrectable hx active hj hq live).trans (if_pos (.inl rfl)))
  · refine .of_next (congrArg Host.Outcome.next (partialAddEffect_of_fp32 hx active hj hq live hf later more good)) ?_
    refine ⟨_, (aGet_aSet _ _ _ _).trans (if_pos rfl), rfl, rfl, rfl, rfl, fun n hn => ?_⟩
    simp only [List.getD_eq_getElem?_getD, List.getElem?_map, List.getElem?_range hn, Option.map_some, Option.getD_some]

end

section
/-! Scrubs, Watchtower's fetch trap and the fatal conditions (R66, R436 to R441, R452, R453). -/
namespace Sys2Proof.Machine
open Sys2Proof

/-! ## Scrubs -/

/-- An uncorrectable word stays as it is: only what later readers meet is marked. -/
theorem State.scrubStrike_leaves (s : State) (w : WordError) : (s.scrubStrike w).reliab = s.reliab ∧ (s.scrubStrike w).mem.cells = s.mem.cells := by
  unfold State.scrubStrike State.strike
  dsimp only
  split
  · exact ⟨rfl, rfl⟩
  split
  · exact ⟨rfl, rfl⟩
  split
  · split <;> exact ⟨rfl, rfl⟩
  · exact ⟨rfl, rfl⟩

/-- Outside DRAM an uncorrectable word is counted, logged and left as it is. -/
theorem State.scrubUe_reports (s : State) {w : WordError} (hw : w.store ≠ 8) :
    ({ s with reliab := { s.reliab with uncorrectable := satInc 8 s.reliab.uncorrectable } } : State).Reports (s.scrubUe w) := by
  unfold State.scrubUe
  simp only [if_neg hw]
  exact (State.logError_reports _ _ _ _ _ _ _ _ _ _).trans (State.event_reports _ _ _ _ _ _)

theorem State.scrubWord_of_clean {s : State} {w : WordError} (good : s.scrubBad w = false) : s.scrubWord w .clean = s := by
  unfold State.scrubWord
  rw [good]
  rfl

theorem State.scrubWord_of_bad {s : State} {w : WordError} {err : ReadErr} (bad : err = .uncorrectable ∨ s.scrubBad w = true) :
    s.scrubWord w err = (s.scrubStrike w).scrubUe w :=
  if_pos (by simpa using bad)

/-- The first correction of a word, on a row that had none, is counted. -/
theorem State.scrubWord_of_correctable {s : State} {w : WordError} (b : Nat) (good : s.scrubBad w = false) (hw : w.store ≠ 8)
    (counted : s.reliab.counted = []) (wear : s.reliab.wear = []) :
    let y := s.scrubWord w (.correctable b)
    y.reliab.corrected = satInc 16 s.reliab.corrected ∧ y.reliab.counted = [(w.store, w.addr, s.dev)] ∧ y.mem.cells = s.mem.cells := by
  have one : (wearAfter [] { w with bit := b, foundBy := 1 } s.dev).2 ≠ 3 := by simp [wearAfter]
  have corrects : s.scrubWord w (.correctable b) = s.countCorrected (some { w with bit := b, foundBy := 1 }) := by
    unfold State.scrubWord
    rw [good]
    rfl
  rw [corrects]
  simp only [State.countCorrected, counted, wear, one, hw, List.any_nil, Bool.false_eq_true, ↓reduceIte]
  exact ⟨rfl, rfl, rfl⟩

/-- With `last` the scrubber's pass ends too. -/
def State.endPass (s : State) (last : Bool) : State :=
  if last then { s with reliab := { s.reliab with passes := (s.reliab.passes + 1) % 256 } } else s

theorem State.endPass_keeps (s : State) (last : Bool) :
    (s.endPass last).reliab.uncorrectable = s.reliab.uncorrectable ∧ (s.endPass last).reliab.corrected = s.reliab.corrected ∧
      (s.endPass last).reliab.counted = s.reliab.counted ∧ (s.endPass last).mem = s.mem := by
  cases last <;> exact ⟨rfl, rfl, rfl, rfl⟩

theorem exec_scrubRead {s x : State} {t : Nat} {w : WordError} (err : ReadErr) (last : Bool) (hx : s.at t = x) (active : x.active = true) :
    exec (.scrubRead t w err last) s = .next ((x.scrubWord w err).endPass last) := by
  change Host.Outcome.next (scrubEffect t w err last s) = _
  simp only [scrubEffect, hx, active, Bool.not_true, Bool.false_eq_true, ↓reduceIte]
  rfl

theorem exec_dramScrubRead_of_clean {s x : State} {t m a : Nat} {w : WordError} (last : Bool) (hx : s.at t = x) (active : x.active = true)
    (populated : (x.mem.cfg.at m).populated = true) (ecc : x.ecc = true) (good : x.scrubBad { w with store := 8, unit := m, addr := a } = false) :
    exec (.dramScrubRead t m a w .clean last) s = .next
      { x with reliab := { x.reliab with memScrubPos := x.reliab.memScrubPos.mod m fun n => if last then 0 else n + 1 } } := by
  change Host.Outcome.next (dramScrubEffect t m a w .clean last s) = _
  simp only [dramScrubEffect, hx, active, populated, ecc, State.scrubWord_of_clean good, Bool.not_true, Bool.or_self, Bool.false_eq_true, ↓reduceIte]

/-! ## Fetch traps and fatal conditions -/

/-- A trap is noted with its page and time, and logged. -/
def State.trapNoted (s : State) (page : Nat) : State :=
  ({ s with reliab := { s.reliab with wtPages := aSet s.reliab.wtPages page s.dev } } : State).logError 0x0902 7 0xFF 1 3 0xFFFF (page * 4096) 0 0

theorem fetchTrapEffect_of_first {s x : State} {t page : Nat} (hx : s.at t = x) (held : x.resets.held = []) (runs : x.pci.hokudan = true)
    (source : x.watch.reload ≠ 3) (first : aGet x.reliab.wtPages page = none) :
    fetchTrapEffect t page true s = (x.trapNoted page).note 0x0908 9 0xFF := by
  have source' : (x.watch.reload == 3) = false := beq_eq_false_iff_ne.mpr source
  simp only [fetchTrapEffect, hx, held, runs, first, source', List.isEmpty_nil, Bool.not_true, Bool.or_self, Bool.false_eq_true, ↓reduceIte]
  rfl

theorem fetchTrapEffect_of_again {s x : State} {t page d : Nat} (hashOk : Bool) (hx : s.at t = x) (held : x.resets.held = [])
    (runs : x.pci.hokudan = true) (before : aGet x.reliab.wtPages page = some d) (within : x.dev < d + 1000000000) :
    fetchTrapEffect t page hashOk s = (x.trapNoted page).fatal 0x0909 := by
  simp only [fetchTrapEffect, hx, held, runs, before, within, List.isEmpty_nil, Bool.not_true, Bool.or_self, Bool.false_eq_true, decide_true,
    Bool.true_or, ↓reduceIte]
  rfl

theorem State.logCondition_reports (s : State) (c : FatalCond) : s.Reports (s.logCondition c) := by
  cases c with
  | belfryFetch => exact State.logError_reports _ _ _ _ _ _ _ _ _ _
  | watchtowerData => exact State.logError_reports _ _ _ _ _ _ _ _ _ _
  | protectionEntry => exact State.logError_reports _ _ _ _ _ _ _ _ _ _
  | beaconLane => exact .refl s
  | memoryTraining => exact .refl s

theorem exec_fatalCondition {s x : State} {t : Nat} (c : FatalCond) (hx : s.at t = x) (held : x.resets.held = []) (runs : x.pci.hokudan = true) :
    exec (.fatalCondition t c) s = .next ((x.logCondition c).fatal (fatalStatusOf c)) := by
  subst hx
  exact congrArg Host.Outcome.next (if_pos (by rw [held, runs]; rfl))

/-- What a fatal condition leaves. -/
theorem State.fatal_leaves {s : State} (h : s.pci.state ≠ .fatal) (status : Nat) :
    (s.fatal status).pci.state = .fatal ∧ (s.fatal status).pci.fatalStatus = status ∧ (s.fatal status).bf.halted = true ∧
      (s.fatal status).mem.cells = s.mem.cells := by
  have k := State.fatal_reports h status
  exact ⟨k.pciState, k.fatalStatus, congrArg Belfry.halted k.bf, k.cells⟩

end Sys2Proof.Machine
end

section
open Sys2Proof Sys2Proof.Machine

/-- Settles O46: what a scrub makes of a word, a trap of its page, and a fatal condition of a device that is not FATAL yet. -/
theorem scrubsTrapsAndFatal : Obligations.ScrubsTrapsAndFatal := by
  intro s x t m a page w last hashOk c hx
  refine ⟨fun active => ⟨fun good => ?_, fun good => ?_, fun err hw bad => ?_, fun b counted wear hw good => ?_, fun hm populated ecc good => ?_⟩,
    fun held runs => ⟨fun source first => ?_, fun alive ⟨d, before, within⟩ => ?_, fun alive => ?_⟩, fun alive => ?_, fun dead i b inc => ?_⟩
  · rw [exec_scrubRead .clean false hx active, State.scrubWord_of_clean good]
    rfl
  · refine .of_next (exec_scrubRead .clean true hx active) ?_
    rw [State.scrubWord_of_clean good]
    exact ⟨rfl, rfl⟩
  · refine .of_next (exec_scrubRead err last hx active) ?_
    obtain ⟨uncorrectable, corrected, -, mem⟩ := State.endPass_keeps (x.scrubWord w err) last
    have h := State.scrubUe_reports (x.scrubStrike w) hw
    obtain ⟨reliab, cells⟩ := State.scrubStrike_leaves x w
    have kept : (x.scrubStrike w).reliab.corrected = x.reliab.corrected := congrArg Reliab.corrected reliab
    rw [uncorrectable, corrected, mem, State.scrubWord_of_bad bad]
    refine ⟨(congrArg Reliab.uncorrectable h.reliab).trans ?_, (congrArg Reliab.corrected h.reliab).trans kept, h.cells.trans cells⟩
    exact congrArg (fun r : Reliab => satInc 8 r.uncorrectable) reliab
  · refine .of_next (exec_scrubRead (.correctable b) last hx active) ?_
    obtain ⟨-, corrected, ledger, mem⟩ := State.endPass_keeps (x.scrubWord w (.correctable b)) last
    rw [corrected, ledger, mem]
    exact State.scrubWord_of_correctable b good hw counted wear
  · exact .of_next (exec_dramScrubRead_of_clean last hx active populated ecc good) ⟨Tab.at_mod_same _ _ _ hm, rfl⟩
  · refine .of_next (congrArg Host.Outcome.next (fetchTrapEffect_of_first hx held runs source first)) ?_
    have h := State.note_reports (x.trapNoted page) 0x0908 9 0xFF []
    refine ⟨h.pciState, (congrArg (fun r : Reliab => aGet r.wtPages page) h.reliab).trans ?_, h.bf⟩
    exact (aGet_aSet _ _ _ _).trans (if_pos rfl)
  · refine .of_next (congrArg Host.Outcome.next (fetchTrapEffect_of_again hashOk hx held runs before within)) ?_
    obtain ⟨state, status, halted, -⟩ := State.fatal_leaves (s := x.trapNoted page) alive 0x0909
    exact ⟨state, status, halted⟩
  · refine .of_next (exec_fatalCondition c hx held runs) ?_
    have h := State.logCondition_reports x c
    obtain ⟨state, status, halted, cells⟩ := State.fatal_leaves (s := x.logCondition c) (h.pciState ▸ alive) (fatalStatusOf c)
    exact ⟨state, status, halted, cells.trans h.cells⟩
  · subst hx
    have h := State.fatal_reports alive 0x020C
    refine .of_next rfl ⟨h.pciState, h.fatalStatus, h.bf.trans ?_⟩
    simp [State.halt, State.modBf, State.dropWaiting]
  · subst hx
    have idle : (s.at t).active = false := by rw [State.active, dead]; rfl
    refine ⟨congrArg Host.Outcome.next (State.fatal_of_fatal dead _), congrArg Host.Outcome.next ?_, congrArg Host.Outcome.next ?_⟩
    · unfold dispatchEffect
      dsimp only
      split
      · rfl
      · exact if_pos (by rw [idle]; rfl)
    · exact if_neg (by rw [idle]; simp)

end

section
/-! Macros, tiles, passes, drains and write-outs of the Spire cores (R94, R143 to R149, R153, R158 to R186, R211 to R221). -/
namespace Sys2Proof.Machine
open Sys2Proof

/-! ## The macros of a node -/

theorem State.macro?_modMacro_same {s : State} {i k : Nat} {m : MacroRun} (h : s.macro? i k = some m) (f : MacroRun → MacroRun) :
    (s.modMacro i k f).macro? i k = some (f m) := by
  obtain ⟨n, hn, hm⟩ := Option.bind_eq_some_iff.mp h
  show ((aGet (aMod s.spire i fun n => { n with macros := aMod n.macros k f }) i).bind fun n => aGet n.macros k) = _
  rw [aGet_aMod, if_pos rfl, hn]
  show aGet (aMod n.macros k f) k = _
  rw [aGet_aMod, if_pos rfl, hm]
  rfl

/-- What becomes of an entry depends on its value alone. -/
theorem aMod_congr {α : Type} {l : List (Nat × α)} {i : Nat} {v : α} (h : aGet l i = some v) {f g : α → α} (e : f v = g v) :
    aMod l i f = aMod l i g := by
  induction l with
  | nil => rfl
  | cons p l ih =>
    obtain ⟨j, w⟩ := p
    simp only [aGet, aMod] at h ⊢
    split at h
    · rw [if_pos ‹_›, if_pos ‹_›, Option.some.inj h, e]
    · rw [if_neg ‹_›, if_neg ‹_›, ih h]

theorem State.modMacro_congr {s : State} {i k : Nat} {m : MacroRun} (h : s.macro? i k = some m) {f g : MacroRun → MacroRun} (e : f m = g m) :
    s.modMacro i k f = s.modMacro i k g := by
  obtain ⟨n, hn, hm⟩ := Option.bind_eq_some_iff.mp h
  have entry : ({ n with macros := aMod n.macros k f } : SpireNode) = { n with macros := aMod n.macros k g } := by rw [aMod_congr hm e]
  unfold State.modMacro
  rw [aMod_congr (f := fun n => { n with macros := aMod n.macros k f }) (g := fun n => { n with macros := aMod n.macros k g }) hn entry]

/-- Lanes and counters are no part of a macro. -/
theorem State.macro?_of_spire {s s' : State} (h : s'.spire = s.spire) (i k : Nat) : s'.macro? i k = s.macro? i k := by
  unfold State.macro?
  rw [h]

theorem State.foldl_spire {α : Type} {g : State → α → State} (h : ∀ s a, (g s a).spire = s.spire) (xs : List α) (s : State) :
    (xs.foldl g s).spire = s.spire := by
  induction xs generalizing s with
  | nil => rfl
  | cons a xs ih => exact (ih _).trans (h s a)

theorem State.unstage_spire (s : State) (c : Ctx) (k : Nat) : (s.unstage c k).spire = s.spire := by
  refine State.foldl_spire ?_ _ _
  exact fun _ _ => rfl

/-- A macro that completes is otherwise as it was. -/
theorem State.completeMacro_macro {s : State} {i k : Nat} {m : MacroRun} (h : s.macro? i k = some m) :
    (s.completeMacro i k).macro? i k = some { m with phase := .complete } := by
  refine Eq.trans (State.macro?_of_spire ?_ i k) (State.macro?_modMacro_same h fun m => { m with phase := .complete })
  unfold State.completeMacro
  dsimp only
  split
  · rfl
  · refine State.foldl_spire ?_ _ _
    exact fun _ _ => rfl

/-- A macro whose verdicts stand writes its flag word next, or completes. -/
theorem State.afterVerdict_macro {s : State} {i k : Nat} {m : MacroRun} (h : s.macro? i k = some m) (m0 : MacroRun) :
    (s.afterVerdict i k m0).macro? i k = some { m with phase := if mWflagOut m0.desc = true then .flag else .complete } := by
  unfold State.afterVerdict
  split
  · exact State.macro?_modMacro_same h _
  · exact State.completeMacro_macro h

/-- Without an error of the feeder and with no bad word among what it reads, it reads well. -/
theorem State.feederError_of_good {s : State} {spans : List (Nat × Nat)} {core : Nat} (h : s.firstBad core spans = none)
    (i k q : Nat) (m : MacroRun) (a : Nat) : s.feederError i k core q m .clean a spans = none := by
  unfold State.feederError
  rw [h]
  rfl

/-! ## A node that runs -/

section
variable {s x : State} {t i k core q : Nat} {c : Ctx} {m : MacroRun}
  (hx : s.at t = x) (active : x.active = true) (hc : x.ctx? i = some c) (running : c.state = .running) (stays : c.draining = false)
include hx active hc running stays

/-- The first macro of a node starts, or faults on its extents. -/
theorem macroStartEffect_of_first {e : Bytes} {y : State} (ht : c.type = 4) (hw : 0 < c.workCount) (new : x.macro? i 0 = none)
    (free : ∀ j ∈ c.cores, (x.spc.at j).quadMode = false) (array : mQmode (x.macroDesc c 0) = false) (read : x.readElem c 0 = (e, 0, y))
    (single : mDual e = false) :
    macroStartEffect t i 0 s = (((c.cores.map (· / 16)).eraseDups.map (y.macroExtents e false)).find? (· ≠ 0)).elim (y.enterMacro i 0 c e none) fun st =>
      ({ y with spire := aMod y.spire i fun n => { n with macros := aSet n.macros 0 { desc := e } } } : State).macroFault i 0 st := by
  have runs : (NodeState.running != .running) = false := by decide
  have spire : ((4 : Nat) != 4) = false := by decide
  have cores : x.coresFree i 0 c = true := by
    simp only [State.coresFree, array, Bool.false_eq_true, ↓reduceIte, List.all_eq_true]
    intro j hj
    rw [free j hj]
    rfl
  simp only [macroStartEffect, hx, hc, active, running, stays, ht, runs, spire, Nat.not_le.mpr hw, new, cores, read, single, Option.isSome_none,
    List.range_zero, List.all_nil, Bool.not_true, decide_false, Bool.or_self, Bool.false_eq_true, ne_eq, not_true, ↓reduceIte]
  split <;> rename_i h <;> rw [h] <;> rfl

variable (hm : x.macro? i k = some m)
include hm

theorem drainStartEffect_of_reduced (phase : m.phase = .reduced) :
    let y := (x.modMacro i k fun m => { m with phase := .drain, done := [], exhausted := [], redo := [] }).unstage c k
    drainStartEffect t i k s = ((y.macroCounter c m.desc).map fun n => y.setCounter n 0).getD y := by
  have runs : (NodeState.running != .running) = false := by decide
  have reduced : (MacroPhase.reduced != .reduced) = false := by decide
  intro y
  simp only [drainStartEffect, hx, hc, hm, active, running, stays, phase, runs, reduced, Bool.not_true, Bool.or_self, Bool.false_eq_true, ↓reduceIte]
  split <;> rename_i h <;> rw [h] <;> rfl

theorem verdictEffect_of_first (phase : m.phase = .verdict) (first : m.rerun = none) (policy : mQpolicy m.desc ≠ 2) :
    verdictEffect t i k s =
      (x.modMacro i k fun n => { n with overs := overVerdict n.desc n.counts, under := underVerdict n.desc n.counts }).afterVerdict i k m := by
  have runs : (NodeState.running != .running) = false := by decide
  have verdict : (MacroPhase.verdict != .verdict) = false := by decide
  rw [State.modMacro_congr (g := fun n => { n with overs := overVerdict m.desc m.counts, under := underVerdict m.desc m.counts }) hm rfl]
  simp only [verdictEffect, hx, hc, hm, active, running, stays, phase, first, runs, verdict, policy, Option.isSome_none, Bool.not_true, Bool.or_self,
    Bool.false_eq_true, false_and, ↓reduceIte]

/-- The macro as its second run finds it (R216). -/
def MacroRun.again (m : MacroRun) (now : Nat) (o u split : Bool) : MacroRun :=
  { m with
    overs := o, under := u, rerun := some (wshiftOf (mOutFmt m.desc) o u), tVerdict := now
    phase := if split then .drain else .tiles, done := [], exhausted := [], redo := [] }

theorem verdictEffect_macro_of_over (phase : m.phase = .verdict) (first : m.rerun = none) (policy : mQpolicy m.desc = 2)
    (wide : mAddr m.desc 0x30 ≠ 0) (array : mQmode m.desc = false) (high : overVerdict m.desc m.counts = true) :
    (verdictEffect t i k s).macro? i k = some (m.again x.dev true (underVerdict m.desc m.counts) (mSplitk m.desc)) := by
  have runs : (NodeState.running != .running) = false := by decide
  have verdict : (MacroPhase.verdict != .verdict) = false := by decide
  simp only [verdictEffect, hx, hc, hm, active, running, stays, phase, first, runs, verdict, policy, wide, array, high, Option.isSome_none, Bool.not_true,
    Bool.or_self, Bool.false_eq_true, true_or, ne_eq, not_false_eq_true, and_self, ↓reduceIte]
  have twice := State.macro?_modMacro_same (State.macro?_modMacro_same hm fun m' =>
      { m' with overs := true, under := underVerdict m.desc m.counts }) fun m' => { m' with
        rerun := some (wshiftOf (mOutFmt m'.desc) true (underVerdict m.desc m.counts)), tVerdict := x.dev
        phase := if mSplitk m'.desc then .drain else .tiles, done := [], exhausted := [], redo := [] }
  split
  · exact (State.macro?_of_spire (State.unstage_spire _ _ _) i k).trans twice
  · exact (State.macro?_of_spire (State.unstage_spire _ _ _) i k).trans twice

theorem verdictEffect_of_rerun (phase : m.phase = .verdict) (again : m.rerun.isSome = true) :
    verdictEffect t i k s = (x.modMacro i k fun n => { n with
      rerunDone := true, rerunNs := n.tLast - n.tVerdict
      over2 := overVerdict n.desc n.counts2, under2 := underVerdict n.desc n.counts2 }).afterVerdict i k m := by
  have runs : (NodeState.running != .running) = false := by decide
  have verdict : (MacroPhase.verdict != .verdict) = false := by decide
  simp only [verdictEffect, hx, hc, hm, active, running, stays, phase, again, runs, verdict, Bool.not_true, Bool.or_self, Bool.false_eq_true, ↓reduceIte]

theorem flagWriteEffect_of_flag (phase : m.phase = .flag) :
    flagWriteEffect t i k s =
      (let w := x.write (initDma (c.cores.headD 0 / 16)) (scratchBase + 4 * mWfOut m.desc) (leBytes 4 m.flagWord)
       let fin := fun (z : State) => (z.modMacro i k fun m => { m with tLast := z.dev }).completeMacro i k
       if w.1 = 0 then fin w.2
       else if w.1 = 0x0309 then fin (w.2.modCtx i fun c => { c with poisoned := true })
       else w.2.macroFault i k (if w.1 = 0x0A10 then 0x0306 else w.1)) := by
  have runs : (NodeState.running != .running) = false := by decide
  have flag : (MacroPhase.flag != .flag) = false := by decide
  simp only [flagWriteEffect, hx, hc, hm, active, running, stays, phase, runs, flag, Bool.not_true, Bool.or_self, Bool.false_eq_true, ↓reduceIte]

/-! ## Claims and tiles -/

theorem tileClaimEffect_of_redo {r : TileRun} {rest : List TileRun} (may : x.mayClaim i k core c m = true) (idle : m.claims.contains core = false)
    (redo : m.redo = r :: rest) :
    tileClaimEffect t i k core .clean .issue s = (x.modMacro i k fun m => { m with redo := rest }).giveRun core k { r with redo := true } := by
  have runs : (NodeState.running != .running) = false := by decide
  simp only [tileClaimEffect, hx, hc, hm, active, running, stays, may, idle, redo, runs, Bool.not_true, Bool.or_self, Bool.false_eq_true, ↓reduceIte]

theorem tileClaimEffect_of_counter {n : Nat} (may : x.mayClaim i k core c m = true) (idle : m.claims.contains core = false) (redo : m.redo = [])
    (own : x.mapped? c (mWctr m.desc) = none) (counter : x.macroCounter c m.desc = some n) (good : x.counterBad n = false) :
    tileClaimEffect t i k core .clean .issue s = (x.setCounter n (x.counter n + mRun m.desc)).takeRun i k core (x.counter n) m := by
  have runs : (NodeState.running != .running) = false := by decide
  simp only [tileClaimEffect, hx, hc, hm, active, running, stays, may, idle, redo, own, counter, good, runs, State.noteCorrected, reduceCtorEq,
    Bool.not_true, Bool.or_self, Bool.false_eq_true, or_self, ↓reduceIte]

omit hc in
/-- A tile that may start stages ahead, and starts where its operands are then staged. -/
theorem tileStartEffect_eq {tile : Nat} {redo : Bool} {f : TileFetch} (node : x.nodeOfCore core = some (i, c))
    (next : (x.lane core q).order[(x.lane core q).busy]? = some (k, tile, redo)) (tiles : m.tilesRun = true) (ready : x.coreReady core = true)
    (free : (x.lane core q).tile = none ∨ ∃ tp n, (x.lane core q).tile = some tp ∧ x.macro? i tp.macroIx = some n ∧ tp.issued n = true) :
    let y := (x.noteCorrected f.err f.addr).stageAhead core q f.err f.addr 3
    tileStartEffect t core q f s = if ((y.lane core q).stagedAt k tile).isNone then y else
      (y.modLane core q fun l => l.begin { macroIx := k, tile := tile, redo := redo }).modMacro i k fun m =>
        { m with tFirst := if m.tFirst.isSome then m.tFirst else some x.dev, stall := aSet m.stall core ((aGet m.stall core).getD 0 + f.stall) } := by
  have runs : (NodeState.running != .running) = false := by decide
  intro y
  rcases free with none | ⟨tp, n, some, hn, issued⟩
  · simp only [tileStartEffect, hx, node, next, none, active, running, stays, hm, tiles, ready, runs, Option.any_some, Bool.not_true, Bool.or_self,
      Bool.false_eq_true, ↓reduceIte]
    split <;> rename_i h <;> rw [h] <;> rfl
  · simp only [tileStartEffect, hx, node, next, some, hn, issued, active, running, stays, hm, tiles, ready, runs, Option.any_some, Bool.not_true,
      Bool.or_self, Bool.false_eq_true, ↓reduceIte]
    split <;> rename_i h <;> rw [h] <;> rfl

end

/-- The core leaves quadrant mode, or its node ends with the first status of an aborted quadrant. -/
theorem exec_quadrantModeExit {s x : State} {t i core : Nat} {c : Ctx} (hx : s.at t = x) (active : x.active = true) (stays : c.draining = false)
    (node : x.nodeOfCore core = some (i, c)) (quad : (x.spc.at core).quadMode = true) (done : x.stretchDone i c = true) :
    exec (.quadrantModeExit t core) s = .next
      (match ((aGet x.spire i).map (·.aborted)).getD [], (List.range c.workCount).all fun j => !mQmode (x.macroDesc c j) || x.quadOver i j c with
        | y :: _, true => x.unitFault i y.2
        | _, _ => x.modSpc core fun y => { y with quadMode := false, lanes := Vector.replicate 5 {} }) := by
  change Host.Outcome.next (quadExitEffect t core s) = _
  simp only [quadExitEffect, hx, node, active, stays, quad, done, Bool.not_true, Bool.or_self, Bool.false_eq_true, ↓reduceIte] <;>
    rfl

/-! ## Fetches, passes, drains and write-outs -/

/-- A lane with nothing staged fetches every operand of the tile anew. -/
theorem State.fetchTile_of_empty {x : State} {i k core q tile : Nat} {m : MacroRun} (err : ReadErr) (a : Nat) (empty : (x.lane core q).staged = []) :
    let reads := x.tileReads m.view (m.stageOf core q { macroIx := k, tile := tile }) false false false
    let spans := reads.map fun r => (r.1, r.2.1)
    x.peerWaits spans = false →
      (x.nodeShut i spans = true → x.fetchTile i k core q tile m err a = x.macroFault i k 0x0301) ∧
      (∀ b, x.nodeShut i spans = false → x.stageStatus core reads err a = some (b, 0x0306) →
        x.fetchTile i k core q tile m err a = x.macroFault i k 0x0306) := by
  intro reads spans waits
  unfold State.fetchTile
  simp only [empty, List.getLast?_nil, Option.map_none, Option.getD_none, Option.any_none]
  refine ⟨fun shut => ?_, fun b served status => ?_⟩
  · rw [if_neg (by rw [waits]; decide), if_pos shut]
  · rw [if_neg (by rw [waits]; decide), if_neg (by rw [served]; decide), status]
    rfl

/-- A trap that falls before the next pass stops the macro; without one, the sums of the pass join the group. -/
theorem State.issueArray_of_next {y ahead : State} {core q cycle gap : Nat} {w : Work} {p : Pass} {next : Option (Stage × Pass × (Nat × Nat × Nat × Nat))}
    (reach : y.reachNext w.run.view next = some ahead) :
    let trap := y.issueTrap ahead core q cycle w p (w.setName w.tp.fill.pass) next
    (∀ n st, trap = some (n, st) → n < cycle + 32 + gap → y.issueArray core q cycle gap w p next = y.macroFault w.node w.ix st) ∧
    (∀ acc, trap = none → y.issuePass w.run.view w.stage w.tp.fill.index (tileCols w.run.desc w.stage.ni) p
        (passFrom w.passes w.tp.fill.pass (tileK w.run.desc w.run.view.partials w.stage.ki w.run.view.aFmt).1) w.tp.fill.acc = some acc →
      y.issueArray core q cycle gap w p next = ahead.modLane core q fun l =>
        { l.put { w.tp with fill := { w.tp.fill with pass := w.tp.fill.pass + 1, acc := acc } } with
          lastPass := cycle, passGap := gap, umber := !l.umber, trap := none, loaded := next.map (·.2.2) }) := by
  refine ⟨fun n st trap soon => ?_, fun acc trap sums => ?_⟩
  · simp only [State.issueArray, reach, trap, soon, Option.any_some, decide_true, ↓reduceIte, Option.map_some, Option.getD_some]
  · simp only [State.issueArray, reach, trap, sums, Option.any_none, Bool.false_eq_true, ↓reduceIte]

section
variable {s x : State} {t core q : Nat} (hx : s.at t = x)
include hx

/-- Before the floor after the pass before it, a pass does not issue. -/
theorem passIssueEffect_of_early {cycle a : Nat} {w : Work} (work : x.workOn core q (·.tile) = some w) (gap : (x.lane core q).passGap ≠ 0)
    (early : cycle < (x.lane core q).lastPass + (x.lane core q).passGap) : passIssueEffect t core q cycle .clean a s = x := by
  simp only [passIssueEffect, hx, work]
  split
  · rfl
  · exact if_pos (by simp [gap, early])

/-- A pass of the array whose operands read well issues with the panels that are its own. -/
theorem passIssueEffect_of_pass {cycle a : Nat} {w : Work} {tp : TileProg} {p : Pass} {y : State} (work : x.workOn core q (·.tile) = some w)
    (array : usesArray w.run.desc = true)
    (fill : w.tp.nextFill (w.passes.length + w.run.view.passes2) (mGroups w.run.desc w.stage.mi) (x.prevHeld core q w.node) = some tp)
    (gap : (x.lane core q).passGap = 0) (pass : w.passes[tp.fill.pass]? = some p) :
    let w1 : Work := { w with tp := tp }
    let loaded := (x.lane core q).loaded == some (w1.setName tp.fill.pass)
    let next := x.nextSet core q w1 tp.fill.pass
    x.firstBad core (w1.passSpans loaded p next) = none → x.reachOwn w.run.view w.stage p loaded = some y →
      passIssueEffect t core q cycle .clean a s = y.issueArray core q cycle
        (max ((groupRows w.run.desc w.stage.mi tp.fill.index).length * passRate w.run.view.aFmt) (passFloor w.run.view.path)) w1 p next := by
  intro w1 loaded next good reach
  have feeds := fun (i k : Nat) (m : MacroRun) => State.feederError_of_good good i k q m a
  simp only [passIssueEffect, hx, work, fill, array, gap, pass, State.noteCorrected, Bool.not_true, ne_eq, not_true, false_and,
    Option.map_some, Option.getD_some]
  simp only [feeds, reach, w1, loaded, next, decide_false, Bool.or_self, Bool.false_eq_true, ↓reduceIte]

/-- The bypass path takes the sums of the group that fills. -/
theorem mmvEffect_of_sums {a : Nat} {w : Work} {tp : TileProg} {acc : List (List Acc)} (work : x.workOn core 4 (·.tile) = some w)
    (op : mOp w.run.desc = 2) (fill : w.tp.nextFill 1 (mGroups w.run.desc w.stage.mi) (x.prevHeld core 4 w.node) = some tp)
    (trap : x.mmvTrap w.run.view w.stage tp.fill.index = 0) :
    let p : Pass := ⟨tileCols w.run.desc w.stage.ni, 0, mK w.run.desc⟩
    x.firstBad core (w.run.view.loadSpans w.stage p ++ w.run.view.feedSpans w.stage tp.fill.index p) = none →
      x.issuePass w.run.view w.stage tp.fill.index (tileCols w.run.desc w.stage.ni) p 0 [] = some acc →
      mmvEffect t core .clean a s = x.modLane core 4 fun l => l.put { tp with fill := { tp.fill with pass := 1, acc := acc } } := by
  intro p good sums
  have feeds := fun (i k : Nat) (m : MacroRun) => State.feederError_of_good good i k 4 m a
  simp only [p] at feeds sums
  simp only [mmvEffect, hx, work, fill, op, feeds, trap, sums, State.noteCorrected, ne_eq, not_true, ↓reduceIte]

/-- A group whose spans read well drains: a trap still pending comes first. -/
theorem groupDrainEffect_of_good {a : Nat} {w : Work} {g : AccGroup} {tp1 : TileProg} (work : x.workOn core q (x.drainSel core) = some w)
    (next : w.tp.drainNext w.run = some (g, tp1)) (good : x.firstBad core (w.run.view.drainSpans w.stage g.index) = none) :
    (∀ n st, (x.lane core q).trap = some (n, st) → groupDrainEffect t core q .clean a s = x.macroFault w.node w.ix st) ∧
    (∀ acc, (x.lane core q).trap = none → x.closeGroup w.run.view w.stage g = some acc →
      let d := x.drainGroup w.run.view w.stage g.index acc
      groupDrainEffect t core q .clean a s =
        if d.status = 0 then x.leaveDrained core q g.index w tp1 d else x.macroFault w.node w.ix d.status) := by
  have feeds := fun (i k : Nat) (m : MacroRun) => State.feederError_of_good good i k q m a
  refine ⟨fun n st trap => ?_, fun acc trap sums => ?_⟩
  · simp only [groupDrainEffect, hx, work, next, feeds, trap]
  · simp only [groupDrainEffect, hx, work, next, feeds, trap, State.noteCorrected, sums, ne_eq, ite_not]

/-- A write-out waits for a port that retrains, faults where a port or the map refuses it, and lands otherwise. -/
theorem writeOutEffect_eq {a : Nat} {w : Work} {o : GroupOut} {rest : List GroupOut} (work : x.workOn core q (fun l => l.prevs.head?.or l.tile) = some w)
    (outs : w.tp.outs = o :: rest) :
    let r := x.landWrites core o.writes
    let spans := o.writes.map fun y => (y.addr, 1)
    let s1 := if r.2.1 then r.2.2.modCtx w.node fun c => { c with poisoned := true } else r.2.2
    let tp1 := { w.tp with outs := rest, groupsDone := w.tp.groupsDone + 1 }
    writeOutEffect t core q .clean a s =
      if x.peerWaits spans = true then x else if x.nodeShut w.node spans = true then x.macroFault w.node w.ix 0x0301
      else if r.1 ≠ 0 then x.macroFault w.node w.ix r.1
      else if tp1.groupsDone < mGroups w.run.desc w.stage.mi then s1.modLane core q fun l => l.put tp1
      else s1.finishTile w.node w.ix core q tp1 .clean a := by
  simp only [writeOutEffect, hx, work, outs, State.noteCorrected]

theorem exec_arrayParityError (e : ArrayError) (active : x.active = true) (exists_ : core < 128) (kept : (x.spc.at core).retired = false) :
    exec (.arrayParityError t core e) s = .next
      (((x.modSpc core fun y => { y with parityEvents := if isParity e then satInc 16 y.parityEvents else y.parityEvents, selftest := true,
                                         suspect := errorRow e, lastStatus := 0x0407 }).logError
        0x0407 9 core 3 0 0xFFFF 0 ((errorRow e).getD 0) 0).leaveAny core 0x0407) := by
  change Host.Outcome.next (parityEffect t core e s) = _
  simp only [parityEffect, hx, active, kept, Nat.not_le.mpr exists_, Bool.not_true, Bool.false_eq_true, Bool.or_self, decide_false, ↓reduceIte]

end

end Sys2Proof.Machine
end

section
open Sys2Proof Sys2Proof.Machine

/-- Settles O47: a macro from its start to its flag word, by its phases. -/
theorem macrosRun : Obligations.MacrosRun := by
  intro s x t i k core c hx hc active running stays
  refine ⟨fun e y ht hw new free array read single => ?_, fun m hm => ⟨fun phase => ?_, fun phase first policy => ?_,
    fun phase first policy wide array split high => ?_, fun phase again => ?_, fun phase =>
      congrArg Host.Outcome.next (flagWriteEffect_of_flag hx active hc running stays hm phase)⟩,
    fun node quad done => exec_quadrantModeExit hx active stays node quad done⟩
  · have start := macroStartEffect_of_first hx active hc running stays ht hw new free array read single
    exact ⟨fun fits => congrArg Host.Outcome.next (by rw [start, fits]; rfl), fun st fails => congrArg Host.Outcome.next (by rw [start, fails]; rfl)⟩
  · have drain := drainStartEffect_of_reduced hx active hc running stays hm phase
    exact ⟨fun none => congrArg Host.Outcome.next (by rw [drain, none]; rfl), fun n some => congrArg Host.Outcome.next (by rw [drain, some]; rfl)⟩
  · exact congrArg Host.Outcome.next (verdictEffect_of_first hx active hc running stays hm phase first policy)
  · refine .of_next rfl ⟨_, verdictEffect_macro_of_over hx active hc running stays hm phase first policy wide array (decide_eq_true high), ?_⟩
    exact ⟨if_neg (by rw [split]; decide), rfl, rfl, rfl, rfl⟩
  · refine .of_next (congrArg Host.Outcome.next (verdictEffect_of_rerun hx active hc running stays hm phase again))
      ⟨_, State.afterVerdict_macro (State.macro?_modMacro_same hm _) m, rfl, rfl, rfl, fun flag => if_pos flag, fun none => if_neg (by rw [none]; decide)⟩

/-- Settles O48: a tile from its claim to its write-out, and what stops it. -/
theorem tilesRun : Obligations.TilesRun := by
  intro s x t i k core q cycle c m hx active hc hm running stays
  refine ⟨fun may idle => ⟨fun r rest redo => ?_, fun n redo own counter good => ?_⟩, fun tile redo f node next tiles ready free => ?_,
    fun tile err a b empty => ?_, fun w tp a work array fill => ⟨fun gap early => ?_, fun p y ahead gap pass => ?_⟩, fun w g tp1 a work next good => ?_,
    fun w o rest a work outs => ?_, fun w tp a acc work op fill trap good sums => ?_, fun e exists_ kept => exec_arrayParityError hx e active exists_ kept⟩
  · exact congrArg Host.Outcome.next (tileClaimEffect_of_redo hx active hc running stays hm may idle redo)
  · exact congrArg Host.Outcome.next (tileClaimEffect_of_counter hx active hc running stays hm may idle redo own counter good)
  · have start := tileStartEffect_eq (f := f) hx active running stays hm node next tiles ready free
    exact ⟨fun none => congrArg Host.Outcome.next (start.trans (if_pos (by rw [none]; rfl))),
      fun g some => congrArg Host.Outcome.next (start.trans (if_neg (by rw [some]; exact Bool.false_ne_true)))⟩
  · intro reads spans waits
    obtain ⟨shut, refused⟩ := State.fetchTile_of_empty err a empty waits
    exact ⟨shut, refused b⟩
  · exact congrArg Host.Outcome.next (passIssueEffect_of_early hx work gap early)
  · intro v w1 own loaded next good reach reachNext floor trap
    have issue := passIssueEffect_of_pass (cycle := cycle) (a := a) hx work array fill gap pass good reach
    obtain ⟨stops, issues⟩ := State.issueArray_of_next (w := w1) (core := core) (q := q) (cycle := cycle) (gap := floor) (p := p) reachNext
    exact ⟨fun n st pending soon => congrArg Host.Outcome.next (issue.trans (stops n st pending soon)),
      fun acc clear sums => congrArg Host.Outcome.next (issue.trans (issues acc clear sums))⟩
  · obtain ⟨pending, drains⟩ := groupDrainEffect_of_good (a := a) hx work next good
    exact ⟨fun n st trap => congrArg Host.Outcome.next (pending n st trap), fun acc trap sums => congrArg Host.Outcome.next (drains acc trap sums)⟩
  · have run := writeOutEffect_eq (a := a) hx work outs
    intro r spans
    refine ⟨fun waits => congrArg Host.Outcome.next (run.trans (if_pos waits)), fun waits shut => congrArg Host.Outcome.next (run.trans ?_),
      fun waits shut refused => congrArg Host.Outcome.next (run.trans ?_), fun waits shut lands clean => congrArg Host.Outcome.next (run.trans ?_)⟩
    · rw [if_neg (by rw [waits]; decide), if_pos shut]
    · rw [if_neg (by rw [waits]; decide), if_neg (by rw [shut]; decide), if_pos refused]
    · rw [if_neg (by rw [waits]; decide), if_neg (by rw [shut]; decide), if_neg (not_not_intro lands)]
      simp only [clean, r, Bool.false_eq_true, ↓reduceIte]
  · exact congrArg Host.Outcome.next (mmvEffect_of_sums hx work op fill trap good sums)

end

section
/-! The self-test of arrays and their spare rows (R152 to R156, R313, R314, R380). -/
namespace Sys2Proof.Machine
open Sys2Proof

theorem State.openFor_one (x : State) (u : GateUnit) : x.openFor [u] = if x.gated u = true then (false, x.beginUngate [u]) else (true, x) := by
  simp only [State.openFor, List.any_cons, List.any_nil, Bool.or_false]

section
variable {s x : State} {t : Nat} {r : ArrayRef} (hx : s.at t = x) (active : x.active = true)
include hx active

/-- What a test leaves of the array's view before its outcome. -/
def State.tested (x : State) (r : ArrayRef) : TestView := { x.testOf r with selftest := false, suspect := none, lastTest := x.dev }

/-- The outcomes of a test: a pass with no row suspect, a failing row, and a failing unit. -/
theorem arrayTestDone_of_test (exists_ : arrayExists r = true) (kept : (x.testOf r).retired = false) (test : (x.testOf r).selftest = true)
    (due : (x.testOf r).rowDue = none) :
    ((x.testOf r).suspect = none → arrayTestDone t r .pass s =
      (((x.setTest r { x.tested r with testPair := none }).answerTested (x.testOf r) 0).updateHealth).gateUnused) ∧
    (∀ row, arrayTestDone t r (.rowFails row) s = ((x.rowFailed r (x.tested r) row).updateHealth).gateUnused) ∧
    arrayTestDone t r .unitFault s =
      ((((x.setTest r { x.tested r with testPair := none }).loseTested r).answerTested (x.testOf r) (lostStatus r)).updateHealth).gateUnused := by
  refine ⟨fun clear => ?_, fun row => ?_, ?_⟩
  · simp only [arrayTestDone, hx, active, exists_, kept, test, due, clear, Option.isSome_none, Bool.not_true, Bool.or_self, Bool.false_eq_true, State.tested,
      ↓reduceIte]
  · simp only [arrayTestDone, hx, active, exists_, kept, test, due, Option.isSome_none, Bool.not_true, Bool.or_self, Bool.false_eq_true, State.tested,
      ↓reduceIte]
  · simp only [arrayTestDone, hx, active, exists_, kept, test, due, Option.isSome_none, Bool.not_true, Bool.or_self, Bool.false_eq_true, State.tested,
      ↓reduceIte]

/-- A due switch waits for its array to be idle. -/
theorem spareSwitchEffect_of_due {row : Nat} (kept : (x.testOf r).retired = false) (due : (x.testOf r).rowDue = some row) :
    let y := x.setTest r { x.testOf r with selftest := false, failed := sInsert (x.testOf r).failed row, rowDue := none, testPair := none }
    spareSwitchEffect t r s = if x.arrayIdle r = false then x else
      ((({ y with flash := { y.flash with repairDue := true } }.countSwitch r).answerTested (x.testOf r) 0x040C).updateHealth).gateUnused := by
  simp only [spareSwitchEffect, hx, active, kept, due, Bool.not_true, Bool.false_or, Bool.not_eq_true']

/-- Firmware tests an idle array that nothing names, behind an open gate. -/
theorem periodicTestEffect_of_idle (exists_ : arrayExists r = true) (kept : (x.testOf r).retired = false) (test : (x.testOf r).selftest = false)
    (due : (x.testOf r).rowDue = none) (unnamed : x.arrayNamed r = false) (idle : x.arrayIdle r = true) :
    periodicTestEffect t r s = if x.gated (arrayGate r) = true then x.beginUngate [arrayGate r] else x.beginTest r none := by
  simp only [periodicTestEffect, hx, active, exists_, kept, test, due, unnamed, idle, State.openFor_one, Option.isNone_none, Bool.not_false,
    Bool.and_self, ↓reduceIte]
  split <;> rfl

end

section
variable {s x : State} {t p : Nat} {b : MbxReq} (hx : s.at t = x) (h : x.req? p 0x0042 = some b)
include hx h

theorem selftestEffect_of_kind (kind : 2 < fld b.payload 0 1) : selftestEffect t p s = x.answer p 0x0107 := by
  simp only [selftestEffect, hx, h, kind, true_or, ↓reduceIte]

/-- A request for a core's test is the array's. -/
theorem selftestEffect_of_core (kind : fld b.payload 0 1 = 0) (zero : allZero (sub b.payload 2 2) = true) (exists_ : fld b.payload 1 1 < 128) :
    selftestEffect t p s = x.startArrayTest p (.core (fld b.payload 1 1)) := by
  simp only [selftestEffect, hx, h, kind, zero, Nat.not_lt_zero, Nat.not_le.mpr exists_, arrayOfTest, Bool.not_true, Bool.false_eq_true, or_self,
    Nat.zero_lt_succ, ↓reduceIte]

end

end Sys2Proof.Machine
end

section
open Sys2Proof Sys2Proof.Machine

/-- Settles O49: a test by its outcome, a switch by the idle array, and a request by what it names. -/
theorem arraySelfTests : Obligations.ArraySelfTests := by
  intro s x t p row r hx active exists_ kept
  refine ⟨fun test due => ?_, fun due => ?_, fun test due unnamed idle => ?_, fun b h => ⟨fun kind => ?_, fun kind zero core named => ?_⟩⟩
  · obtain ⟨pass, fails, fault⟩ := arrayTestDone_of_test hx active exists_ kept test due
    refine ⟨fun clear => congrArg Host.Outcome.next (pass clear), fun spares => congrArg Host.Outcome.next ((fails row).trans ?_),
      fun used => congrArg Host.Outcome.next ((fails row).trans ?_), congrArg Host.Outcome.next fault⟩
    · exact congrArg (fun z : State => z.updateHealth.gateUnused) (if_pos spares)
    · exact congrArg (fun z : State => z.updateHealth.gateUnused) (if_neg (Nat.not_lt.mpr used))
  · have switch := spareSwitchEffect_of_due hx active kept due
    exact ⟨fun busy => congrArg Host.Outcome.next (switch.trans (if_pos busy)),
      fun idle => congrArg Host.Outcome.next (switch.trans (if_neg (by rw [idle]; decide)))⟩
  · have test' := periodicTestEffect_of_idle hx active exists_ kept test due unnamed idle
    refine ⟨fun shut => congrArg Host.Outcome.next (test'.trans (if_neg (by rw [shut]; decide))),
      fun gated => congrArg Host.Outcome.next (test'.trans (if_pos gated)), fun b u h kind unit zero core open_ => congrArg Host.Outcome.next ?_⟩
    subst unit core
    rw [selftestEffect_of_core hx h kind zero (of_decide_eq_true exists_)]
    simp only [State.startArrayTest, kept, unnamed, test, due, idle, State.openFor_one, open_, Option.isSome_none, Bool.not_true, Bool.or_self,
      Bool.false_eq_true, ↓reduceIte]
  · exact congrArg Host.Outcome.next (selftestEffect_of_kind hx h kind)
  · subst core
    refine congrArg Host.Outcome.next ((selftestEffect_of_core hx h kind zero (of_decide_eq_true exists_)).trans ?_)
    simp only [State.startArrayTest, kept, named, Bool.true_or, Bool.false_eq_true, ↓reduceIte]

end

section
/-! Packets, frames and anchors, and the binding of cameras (R228 to R243, R257, R384). -/
namespace Sys2Proof.Machine
open Sys2Proof

/-- A choice by either of two equivalent conditions. -/
theorem ite_of_iff {α : Type} {p q : Prop} [Decidable p] [Decidable q] {a b : α} (h : p ↔ q) : (if p then a else b) = if q then a else b :=
  ite_congr (propext h) (fun _ => rfl) fun _ => rfl

/-! ## Packets (R230, R231) -/

section
variable {s x : State} {t p c : Nat} {k : Packet} (hx : s.at t = x) (active : x.active = true) (enabled : (x.ports.at p).enable = true)
  (locked : (x.ports.at p).locked = true)
include hx active enabled locked

theorem csi2PacketEffect_of_uncorrectable (bad : k.header = .uncorrectable) :
    csi2PacketEffect t p k s = x.modPort p fun y => { y with headerUnc := satInc 8 y.headerUnc } := by
  simp only [csi2PacketEffect, hx, active, enabled, locked, bad, Bool.not_true, Bool.or_self, Bool.false_eq_true, ↓reduceIte]

variable (good : k.header = .good)
include good

theorem csi2PacketEffect_of_good : csi2PacketEffect t p k s = x.routePacket p k := by
  simp only [csi2PacketEffect, hx, active, enabled, locked, good, Bool.not_true, Bool.or_self, Bool.false_eq_true, ↓reduceIte]

theorem csi2PacketEffect_of_frameStart (dt : k.dataType = 0) (route : (x.ports.at p).route k.vc none = some c) :
    csi2PacketEffect t p k s = x.frameStart c k.data := by
  rw [csi2PacketEffect_of_good hx active enabled locked good]
  simp only [State.routePacket, dt, route, Nat.zero_lt_succ, ↓reduceIte]

theorem csi2PacketEffect_of_frameEnd (dt : k.dataType = 1) (route : (x.ports.at p).route k.vc none = some c) (live : (x.cams.at c).live = true) :
    csi2PacketEffect t p k s = x.endFrame c false := by
  rw [csi2PacketEffect_of_good hx active enabled locked good]
  simp only [State.routePacket, dt, route, live, show 1 < 16 from by decide, Nat.one_ne_zero, ↓reduceIte]

/-- A pixel packet goes by its virtual channel and data type; a payload that fails its CRC is counted first. -/
theorem csi2PacketEffect_of_pixels (lo : 0x2A ≤ k.dataType) (hi : k.dataType ≤ 0x2E) (vc : k.vc ≤ 15) :
    let y := if k.crcOk = true then x else x.modPort p fun y => { y with crcErrors := satInc 8 y.crcErrors }
    ((x.ports.at p).route k.vc (some k.dataType) = none → csi2PacketEffect t p k s = y.unsupported p) ∧
    ((x.ports.at p).route k.vc (some k.dataType) = some c → (x.cams.at c).live = true → csi2PacketEffect t p k s =
      y.deliverLine c (if k.crcOk = true then some (unpackRaw (depthOf k.dataType) k.payload) else none)) := by
  intro y
  have long : ¬ k.dataType < 0x10 := by omega
  have known : ¬ (k.dataType = 0x10 ∨ k.dataType = 0x11) := by omega
  have pixel : (decide (0x2A ≤ k.dataType) && decide (k.dataType ≤ 0x2E)) = true := by simp [lo, hi]
  rw [csi2PacketEffect_of_good hx active enabled locked good]
  refine ⟨fun route => ?_, fun route live => ?_⟩
  · simp only [State.routePacket, long, known, pixel, Nat.not_lt.mpr vc, route, ↓reduceIte, y]
  · simp only [State.routePacket, long, known, pixel, Nat.not_lt.mpr vc, route, live, Bool.not_true, Bool.false_eq_true, ↓reduceIte, y]

end

/-! ## Frame starts (R236, R242) -/

/-- A change of an RFE that keeps the shadow set keeps it read, whichever RFE it is. -/
theorem State.modRfe_shadow (s : State) (r : Nat) (f : Rfe → Rfe) (h : ∀ x, (f x).shadow = x.shadow) :
    ((s.modRfe r f).rfe.at r).shadow = (s.rfe.at r).shadow := by
  show ((s.rfe.mod r f).at r).shadow = _
  rw [Tab.at_mod]
  split
  · exact h _
  · rfl

/-- With no parameter set waiting, a frame start takes the waiting tap descriptors alone. -/
theorem State.switchPset_of_none {s : State} {c : Nat} (n : Nat) (h : (s.rfe.at (s.cams.at c).rfe).shadow = none) :
    ∃ f, s.switchPset c n = (s.modRfe (s.cams.at c).rfe f, false) := by
  unfold State.switchPset
  dsimp only
  rw [h]
  exact ⟨_, rfl⟩

/-- A camera at a frame start that is on time, before the frame is accepted or dropped. -/
def Cam.startedAt (m : Cam) (num now : Nat) : Cam :=
  { (m.pruneSeen num) with
    frameNo := num, started := true, fsPrev := if m.started then some m.fsLast else none, fsLast := now
    fsTimes := keepLast 16 (m.fsTimes ++ [now])
    stepped := false, open_ := true, slips := m.slips, lastG := if bMember m.bind then some num else none }

/-- The path of a frame is no part of its number, its drop or its time. -/
theorem Frame.startPath_keeps (f : Frame) (net : Option Net) (w : Nat) :
    (f.startPath net w).num = f.num ∧ (f.startPath net w).dropped = f.dropped ∧ (f.startPath net w).tFs = f.tFs := by
  unfold Frame.startPath
  split
  · exact ⟨rfl, rfl, rfl⟩
  · dsimp only
    split <;> exact ⟨rfl, rfl, rfl⟩

/-- Opening a frame on time, with no network and no parameter set waiting: the frame joins, or is dropped whole. -/
theorem State.openFrame_onTime {s : State} {c : Nat} {m : Cam} (fn num : Nat) (hc : c < 16) (hm : s.cams.at c = m) (net : m.net = none)
    (shadow : (s.rfe.at m.rfe).shadow = none) :
    let no : StartNo := { num := num, slip := false, second := false }
    let s' := s.openFrame c fn no
    (bFrameBytes m.bind ≤ m.capacity → ∃ f, (s'.cams.at c).frames = m.frames ++ [f] ∧ f.num = num ∧ f.dropped = false ∧ f.tFs = s.dev ∧
      (s'.cams.at c).frameNo = num ∧ (s'.cams.at c).lastAccepted = num ∧ (s'.cams.at c).open_ = true ∧ (s'.cams.at c).drops = m.drops ∧
      s'.mem = s.mem) ∧
    (m.capacity < bFrameBytes m.bind → ∃ f, (s'.cams.at c).frames = m.frames ++ [f] ∧ f.num = num ∧ f.dropped = true ∧
      (s'.cams.at c).frameNo = num ∧ (s'.cams.at c).lastAccepted = m.lastAccepted ∧ (s'.cams.at c).open_ = true ∧
      (s'.cams.at c).drops = satInc 8 m.drops ∧ s'.mem.cells = s.mem.cells) := by
  intro no s'
  have opened : ((s.modCam c fun m => m.startedAt num s.now).cams.at c) = m.startedAt num s.now := by
    rw [← hm]
    exact Tab.at_mod_same _ _ _ hc
  obtain ⟨g, switch⟩ := State.switchPset_of_none (s := s.modCam c fun m => m.startedAt num s.now) (c := c) num (by rw [opened]; exact shadow)
  generalize hy : (s.modCam c fun m => m.startedAt num s.now).modRfe ((s.modCam c fun m => m.startedAt num s.now).cams.at c).rfe g = y at switch
  have started : y.cams.at c = m.startedAt num s.now := by
    rw [← hy]
    exact opened
  have mem : y.mem = s.mem := by
    rw [← hy]
    rfl
  have still : y.startNet c = y := by
    have none : (m.startedAt num s.now).net = none := net
    unfold State.startNet
    rw [started, none]
  simp only [Cam.startedAt] at switch
  have run : s' = s.openFrame c fn no := rfl
  unfold State.openFrame at run
  simp only [hm, no, Bool.or_self, Bool.false_eq_true, ↓reduceIte, switch, still, Bool.not_false, Bool.true_and, Bool.not_eq_true',
    decide_eq_false_iff_not] at run
  refine ⟨fun fits => ?_, fun full => ?_⟩
  · rw [run, if_neg (not_not_intro fits)]
    simp only [State.modCam, State.modRfe, Tab.at_mod_same _ _ _ hc, started]
    exact ⟨_, rfl, (Frame.startPath_keeps _ _ _).1, (Frame.startPath_keeps _ _ _).2.1, (Frame.startPath_keeps _ _ _).2.2, rfl, trivial, rfl, rfl, mem⟩
  · rw [run, if_pos (Nat.not_le.mpr full)]
    rw [(State.event_reports _ _ _ _ _ _).cams, (State.event_reports _ _ _ _ _ _).cells]
    simp only [State.modCam, Tab.at_mod_same _ _ _ hc, started]
    exact ⟨_, rfl, rfl, rfl, rfl, rfl, rfl, rfl, congrArg MemSys.cells mem⟩

/-- A frame start of a live camera of no group, with nothing due and no network, opens a frame on the camera's own RFE. -/
theorem State.frameStart_of_plain {s : State} {c : Nat} {m : Cam} (fn : Nat) (hm : s.cams.at c = m) (live : m.live = true) (stays : m.leaving = false)
    (closed : m.open_ = false) (bound : m.unbindDue = false) (runs : m.stopDue = none) (own : m.nextRfe = none) (single : bMember m.bind = false) :
    s.frameStart c fn = (s.modRfe m.rfe fun x => { x with enable := true, camera := c }).openFrame c fn
      { num := if m.started then nextFrame m.frameNo else 0, slip := false, second := false } := by
  have cams : (s.modRfe m.rfe fun x => { x with enable := true, camera := c }).cams.at c = m := hm
  simp only [State.frameStart, hm, live, stays, closed, bound, runs, own, Bool.not_true, Bool.or_self, Bool.false_eq_true, ↓reduceIte, State.leadAnchor,
    State.startNo, cams, single, false_and]

/-! ## Anchors (R238) -/

/-- An edge of the pin advances the groups anchored on it, each once. -/
theorem foldl_genlock (x : State) {n : Nat} (hn : n ≤ 8) :
    let y := (List.range n).foldl (fun s g => if (s.genlock.at g).pin then s.genlockAdvance g else s) x
    y.clock = x.clock ∧ ∀ g, y.genlock.at g = if g < n ∧ (x.genlock.at g).pin = true then { x.genlock.at g with
      number := nextFrame (x.genlock.at g).number, stamp := x.dev, anchored := some x.now, times := keepLast 16 ((x.genlock.at g).times ++ [x.now]) }
      else x.genlock.at g := by
  induction n with
  | zero => exact ⟨rfl, fun g => (if_neg fun h => Nat.not_lt_zero _ h.1).symm⟩
  | succ n ih =>
    obtain ⟨clock, groups⟩ := ih (by omega)
    simp only [List.range_succ, List.foldl_append, List.foldl_cons, List.foldl_nil]
    generalize (List.range n).foldl (fun s g => if (s.genlock.at g).pin then s.genlockAdvance g else s) x = y at clock groups ⊢
    have dev : y.dev = x.dev := congrArg Clock.devtime clock
    have now : y.now = x.now := congrArg Clock.timebase clock
    have this : y.genlock.at n = x.genlock.at n := by simp [groups]
    rw [this]
    split
    · rename_i pin
      refine ⟨clock, fun g => ?_⟩
      simp only [State.genlockAdvance, Tab.at_mod, dev, now]
      by_cases e : n = g
      · subst e
        rw [if_pos ⟨rfl, by omega⟩, if_pos ⟨by omega, pin⟩, this]
      · rw [if_neg fun h => e h.1, groups]
        exact ite_of_iff (and_congr_left fun _ => by omega)
    · rename_i plain
      refine ⟨clock, fun g => (groups g).trans ?_⟩
      by_cases e : n = g
      · subst e
        rw [if_neg fun h => plain h.2, if_neg fun h => plain h.2]
      · exact ite_of_iff (and_congr_left fun _ => by omega)

/-! ## Frame ends and lines (R232, R241) -/

section
variable {s x : State} {t c : Nat} {m : Cam} (hx : s.at t = x) (active : x.active = true) (hm : x.cams.at c = m)
include hx active hm

theorem exec_sensorFrameEnd (live : m.live = true) : exec (.sensorFrameEnd t c) s = .next (x.endFrame c false) := by
  subst hx
  exact congrArg Host.Outcome.next (if_pos (by rw [active, hm, live]; rfl))

/-- An open frame ends SHORT once FRAME_TIMEOUT has passed. -/
theorem frameTimeoutEffect_of_open {f : Frame} (live : m.live = true) (opened : m.open_ = true) (last : m.frames.getLast? = some f) :
    frameTimeoutEffect t c s = if f.since + m.timeoutNs ≤ x.now then (x.endFrame c true).event 0x050C 3 c [18 + c] else x := by
  simp only [frameTimeoutEffect, hx, active, hm, live, Cam.timedOut, opened, last, Bool.true_and, decide_eq_true_eq]

omit hx active in
/-- A dropped frame leaves no trace but its number. -/
theorem State.endFrame_of_dropped {f : Frame} (short : Bool) (opened : m.open_ = true) (last : m.frames.getLast? = some f) (dropped : f.dropped = true) :
    x.endFrame c short = x.modCam c fun k => { k with
      open_ := false, frames := k.frames.dropLast, feLast := some (f.num, x.now), feTimes := keepLast 16 (k.feTimes ++ [x.now]) } := by
  simp only [State.endFrame, hm, opened, last, dropped, Bool.not_true, Bool.false_eq_true, ↓reduceIte]

/-- The RFE reads the oldest line of the FIFO as it arrived, unless a hold of its outputs holds it. -/
theorem rfeLineReadEffect_of_fifo {r : Nat} {l : Line} {ls : List Line} {f : Frame} {fs : List Frame} (cam : x.rfeCam r = some c)
    (lines : m.lines = l :: ls) (frames : m.frames = f :: fs) (works : (x.rfe.at r).failed = false) (same : l.frame = f.num)
    (fifo : l.slot = none) (kept : l.lost = false) (good : x.isBad (fifoAddr m) m.lineBytes = false) :
    rfeLineReadEffect t r .clean s = if x.rfeHeld f none = true then x else
      ((x.modCam c fun k => { k.modHead (fun f => { f with rows := f.rows ++ [l.codes] }) with lines := ls }).readyNet c f.rows.length
        (f.rows.length + 1)).returnGroups c m.groupsN := by
  have number : (l.frame != f.num) = false := by rw [same]; exact bne_self_eq_false _
  simp only [rfeLineReadEffect, hx, cam, hm, lines, frames, active, works, number, Bool.not_true, Bool.false_or, State.lineCodes, fifo, kept, good,
    reduceCtorEq, Bool.false_eq_true, ↓reduceIte, State.noteCorrected, Option.getD_some, Option.isNone_some, Option.isSome_none, Bool.or_false, b2n,
    Nat.add_zero]

end

/-! ## Bindings (R234, R235, R257) -/

section
variable {s x : State} {t p c : Nat} {r : MbxReq} (hx : s.at t = x)
include hx

theorem cameraBindEffect_eq (h : x.req? p 0x0020 = some r) :
    cameraBindEffect t p s = if x.bindStatus r.payload ≠ 0 then x.answer p (x.bindStatus r.payload)
      else if x.power.rfeGated.at (bRfe r.payload) = true then x.beginUngate [.rfe (bRfe r.payload)] else x.startBinding p r.payload := by
  simp only [cameraBindEffect, hx, h]

theorem cameraUnbindEffect_eq (h : x.req? p 0x0021 = some r) (cam : fld r.payload 0 1 = c) (hc : c ≤ 15) (zero : allZero (sub r.payload 1 3) = true) :
    cameraUnbindEffect t p s =
      if (x.cams.at c).bound = false ∨ (x.cams.at c).waiting.isSome = true ∨ (x.cams.at c).leaving = true then x.answer p 0x0513
      else if (x.cams.at c).stopped = true then (x.leaveCam c).answer p 0 else (x.modCam c fun k => { k with unbindDue := true }).answer p 0 := by
  simp only [cameraUnbindEffect, hx, h, cam, zero, Nat.not_lt.mpr hc, Bool.not_true, Bool.false_eq_true, or_self, ↓reduceIte, Bool.not_eq_true']

theorem lockTimeoutEffect_of_waiting {q since : Nat} (active : x.active = true) (waits : (x.cams.at c).waiting = some (q, since)) :
    lockTimeoutEffect t c s = if x.now < since + 100000000 then x else
      ((((x.modPort (bPort (x.cams.at c).bind) fun y => { y with lastStatus := 0x0509 }).note 0x0509 3 c).unbindCam c).gateUnused).answer q 0x0509 := by
  simp only [lockTimeoutEffect, hx, waits, active, Bool.not_true, Bool.false_or, decide_eq_true_eq]

end

/-- The checks of R234 in their order: what a bound camera and an RFE in use answer. -/
theorem State.bindStatus_bound {x : State} {b : Bytes} (formed : bindMalformed b = false) (bound : (x.cams.at (bCam b)).bound = true) :
    x.bindStatus b = 0x0501 := by
  simp only [State.bindStatus, formed, bound, Bool.false_eq_true, Bool.true_or, ↓reduceIte]

theorem State.bindStatus_used {x : State} {b : Bytes} (formed : bindMalformed b = false) (free : (x.cams.at (bCam b)).bound = false)
    (works : (x.rfe.at (bRfe b)).failed = false) (used : x.rfeUsed (bRfe b) = true) : x.bindStatus b = 0x0502 := by
  simp only [State.bindStatus, formed, free, works, used, Bool.false_eq_true, Bool.or_self, ↓reduceIte]

/-- Completing bindings changes no port and no byte of memory. -/
theorem State.finishBinding_ports (s : State) (c : Nat) : (s.finishBinding c).ports = s.ports ∧ (s.finishBinding c).mem.cells = s.mem.cells := by
  unfold State.finishBinding
  split
  · exact ⟨(State.answer_reports _ _ _).ports, (State.answer_reports _ _ _).cells⟩
  · exact ⟨rfl, rfl⟩

theorem foldl_finishBinding (l : List Nat) (s : State) :
    (l.foldl State.finishBinding s).ports = s.ports ∧ (l.foldl State.finishBinding s).mem.cells = s.mem.cells := by
  induction l generalizing s with
  | nil => exact ⟨rfl, rfl⟩
  | cons c l ih =>
    obtain ⟨ports, cells⟩ := ih (s.finishBinding c)
    exact ⟨ports.trans (State.finishBinding_ports s c).1, cells.trans (State.finishBinding_ports s c).2⟩

theorem exec_sensorPortLock {s x : State} {t p : Nat} (hx : s.at t = x) (active : x.active = true) (enabled : (x.ports.at p).enable = true)
    (unlocked : (x.ports.at p).locked = false) :
    exec (.sensorPortLock t p) s = .next ((unitsWhere 16 fun c =>
        ((x.modPort p fun x => { x with locked := true, deskewed := !x.cphy && decide (1500 < x.rate) }).cams.at c).bound &&
          bPort ((x.modPort p fun x => { x with locked := true, deskewed := !x.cphy && decide (1500 < x.rate) }).cams.at c).bind == p).foldl
      State.finishBinding (x.modPort p fun x => { x with locked := true, deskewed := !x.cphy && decide (1500 < x.rate) })) := by
  change Host.Outcome.next (portLockEffect t p s) = _
  simp only [portLockEffect, hx, active, enabled, unlocked, Bool.not_true, Bool.or_self, Bool.false_eq_true, ↓reduceIte]
  rfl

/-- A bound camera is due to stop. -/
def Cam.stopWith (k : Cam) (status : Nat) : Cam := if k.bound then { k with stopDue := some status } else k

theorem Cam.stopWith_stopWith (k : Cam) (status : Nat) : (k.stopWith status).stopWith status = k.stopWith status := by
  unfold Cam.stopWith
  split
  · exact if_pos ‹_›
  · rfl

theorem Cam.stopWith_stopDue (k : Cam) (status : Nat) : (k.stopWith status).stopDue = if k.bound = true then some status else k.stopDue := by
  unfold Cam.stopWith
  split <;> rfl

/-- Stopping a list of cameras marks the bound ones of it and nothing else. -/
theorem foldl_stopCam (status : Nat) (l : List Nat) (s : State) :
    let y := l.foldl (fun s c => s.stopCam c status) s
    y.ports = s.ports ∧ y.mem = s.mem ∧ y.rfe = s.rfe ∧
      ∀ j < 16, y.cams.at j = if j ∈ l then (s.cams.at j).stopWith status else s.cams.at j := by
  induction l generalizing s with
  | nil => exact ⟨rfl, rfl, rfl, fun j _ => (if_neg List.not_mem_nil).symm⟩
  | cons c l ih =>
    obtain ⟨ports, mem, rfe, cams⟩ := ih (s.stopCam c status)
    refine ⟨ports, mem, rfe, fun j hj => (cams j hj).trans ?_⟩
    have one : (s.stopCam c status).cams.at j = if c = j ∧ c < 16 then (s.cams.at c).stopWith status else s.cams.at j := Tab.at_mod _ _ _ _
    by_cases e : c = j
    · subst e
      rw [one, if_pos (And.intro rfl hj), Cam.stopWith_stopWith, ite_self, if_pos List.mem_cons_self]
    · have keeps : (s.stopCam c status).cams.at j = s.cams.at j := one.trans (if_neg fun h => e h.1)
      rw [keeps]
      exact ite_of_iff (by simp [Ne.symm e])

theorem portFailureEffect_of_active {s x : State} {t : Nat} (u : IngressPart) (hx : s.at t = x) (active : x.active = true) :
    portFailureEffect t u s = match u with
    | .port p => (unitsWhere 16 fun c => (x.cams.at c).bound && bPort (x.cams.at c).bind == p).foldl (fun s c => s.stopCam c 0x0509)
        (x.modPort p fun x => { x with locked := false, deskewed := false, lastStatus := 0x0509 })
    | .controller b => (unitsWhere 16 fun c => (x.cams.at c).bound && bBus (x.cams.at c).bind == b).foldl (fun s c => s.stopCam c 0x0512) x
    | .crossbar c => x.stopCam c 0x0509 := by
  cases u with
  | port p => simp only [portFailureEffect, hx, active, Bool.not_true, Bool.false_eq_true, ↓reduceIte]
  | controller b => simp only [portFailureEffect, hx, active, Bool.not_true, Bool.false_eq_true, ↓reduceIte]
  | crossbar c => simp only [portFailureEffect, hx, active, Bool.not_true, Bool.false_eq_true, ↓reduceIte]

end Sys2Proof.Machine
end

section
open Sys2Proof Sys2Proof.Machine

/-- Settles O50: a packet by its header and type, a frame start by its capacity, a frame end, the anchors of the pin, and a line of the FIFO. -/
theorem framesArrive : Obligations.FramesArrive := by
  intro s x t p c r k m hx active hc hm
  subst hm
  refine ⟨fun enabled locked => ⟨fun bad => ?_, fun good dt route => ?_, fun good dt route live => ?_, fun good lo hi vc => ?_⟩,
    fun n live stays closed bound runs own net single shadow => ?_, fun f live opened last => ⟨fun dropped => ?_, ?_, fun early => ?_, fun late => ?_⟩, ?_,
    fun l ls f fs cam lines frames works same fifo kept good => ?_⟩
  · exact congrArg Host.Outcome.next (csi2PacketEffect_of_uncorrectable hx active enabled locked bad)
  · exact congrArg Host.Outcome.next (csi2PacketEffect_of_frameStart hx active enabled locked good dt route)
  · exact congrArg Host.Outcome.next (csi2PacketEffect_of_frameEnd hx active enabled locked good dt route live)
  · obtain ⟨unmapped, mapped⟩ := csi2PacketEffect_of_pixels (c := c) hx active enabled locked good lo hi vc
    refine ⟨fun none => ⟨fun crc => ?_, fun crc => ?_⟩, fun route live => ⟨fun crc => ?_, fun crc => ?_⟩⟩
    · exact congrArg Host.Outcome.next ((unmapped none).trans (by rw [crc]; rfl))
    · exact congrArg Host.Outcome.next ((unmapped none).trans (by rw [crc]; rfl))
    · exact congrArg Host.Outcome.next ((mapped route live).trans (by rw [crc]; rfl))
    · exact congrArg Host.Outcome.next ((mapped route live).trans (by rw [crc]; rfl))
  · have run : exec (.sensorFrameStart t c n) s = .next (x.frameStart c n) := by
      subst hx
      exact congrArg Host.Outcome.next (if_pos active)
    rw [State.frameStart_of_plain n rfl live stays closed bound runs own single] at run
    have dark := (State.modRfe_shadow x (x.cams.at c).rfe (fun y => { y with enable := true, camera := c }) fun _ => rfl).trans shadow
    obtain ⟨accepted, dropped⟩ := State.openFrame_onTime (s := x.modRfe (x.cams.at c).rfe fun y => { y with enable := true, camera := c }) n
      (if (x.cams.at c).started then nextFrame (x.cams.at c).frameNo else 0) hc rfl net dark
    exact ⟨fun fits => .of_next run (accepted fits), fun full => .of_next run (dropped full)⟩
  · refine .of_next (exec_sensorFrameEnd hx active rfl live) ?_
    rw [State.endFrame_of_dropped rfl false opened last dropped]
    simp only [State.modCam, Tab.at_mod_same _ _ _ hc]
    exact ⟨trivial, trivial, trivial, trivial⟩
  · exact exec_sensorFrameEnd hx active rfl live
  · exact congrArg Host.Outcome.next ((frameTimeoutEffect_of_open hx active rfl live opened last).trans (if_neg (Nat.not_le.mpr early)))
  · exact congrArg Host.Outcome.next ((frameTimeoutEffect_of_open hx active rfl live opened last).trans (if_pos late))
  · have run : exec (.genlockAnchor t none) s =
        .next ((List.range 8).foldl (fun s g => if (s.genlock.at g).pin then s.genlockAdvance g else s) x) := by
      subst hx
      exact congrArg Host.Outcome.next (if_neg (by rw [active]; decide))
    refine .of_next run fun g hg => ((foldl_genlock x (Nat.le_refl _)).2 g).trans ?_
    exact ite_of_iff (and_iff_right hg)
  · have read := rfeLineReadEffect_of_fifo hx active rfl cam lines frames works same fifo kept good
    exact ⟨fun held => congrArg Host.Outcome.next (read.trans (if_pos held)),
      fun free => congrArg Host.Outcome.next (read.trans (if_neg (by rw [free]; decide)))⟩

/-- Settles O51: the checks in their order, the lock, the limit, and the failures. -/
theorem camerasBind : Obligations.CamerasBind := by
  intro s x t p c r hx
  refine ⟨fun h => ?_, fun h cam hc zero => ?_, fun q since waits active => ?_, fun active enabled unlocked hp => ?_, fun active => ⟨fun hc bound => ?_, fun hp => ?_⟩⟩
  · have run := cameraBindEffect_eq hx h
    have refuse : ∀ st, x.bindStatus r.payload = st → st ≠ 0 → exec (.cameraBind t p) s = .next (x.answer p st) := by
      rintro st rfl bad
      exact congrArg Host.Outcome.next (run.trans (if_pos bad))
    refine ⟨refuse, fun formed bound => refuse _ (State.bindStatus_bound formed bound) (by decide),
      fun formed free works used => refuse _ (State.bindStatus_used formed free works used) (by decide), fun ok gated => ?_, fun ok opened => ?_⟩
    · exact congrArg Host.Outcome.next (run.trans ((if_neg (not_not_intro ok)).trans (if_pos gated)))
    · exact congrArg Host.Outcome.next (run.trans ((if_neg (not_not_intro ok)).trans (if_neg (by rw [opened]; decide))))
  · have run := cameraUnbindEffect_eq hx h cam hc zero
    refine ⟨fun free => congrArg Host.Outcome.next (run.trans (if_pos (.inl free))), fun bound still stays going => congrArg Host.Outcome.next (run.trans ?_)⟩
    rw [if_neg (by simp [bound, still, stays]), if_neg (by rw [going]; decide)]
  · have run := lockTimeoutEffect_of_waiting hx active waits
    exact ⟨fun early => congrArg Host.Outcome.next (run.trans (if_pos early)),
      fun late => congrArg Host.Outcome.next (run.trans (if_neg (Nat.not_lt.mpr late)))⟩
  · refine .of_next (exec_sensorPortLock hx active enabled unlocked) ?_
    obtain ⟨ports, cells⟩ := foldl_finishBinding (unitsWhere 16 fun c =>
      ((x.modPort p fun x => { x with locked := true, deskewed := !x.cphy && decide (1500 < x.rate) }).cams.at c).bound &&
        bPort ((x.modPort p fun x => { x with locked := true, deskewed := !x.cphy && decide (1500 < x.rate) }).cams.at c).bind == p)
      (x.modPort p fun x => { x with locked := true, deskewed := !x.cphy && decide (1500 < x.rate) })
    rw [ports, cells]
    simp only [State.modPort, Tab.at_mod_same _ _ _ hp]
    exact ⟨trivial, trivial, trivial⟩
  · exact congrArg Host.Outcome.next (portFailureEffect_of_active (.crossbar c) hx active)
  · refine .of_next (congrArg Host.Outcome.next (portFailureEffect_of_active (.port p) hx active)) ?_
    obtain ⟨ports, mem, rfe, cams⟩ := foldl_stopCam 0x0509 (unitsWhere 16 fun c => (x.cams.at c).bound && bPort (x.cams.at c).bind == p)
      (x.modPort p fun x => { x with locked := false, deskewed := false, lastStatus := 0x0509 })
    refine ⟨?_, ?_, fun j hj => ?_, mem, rfe⟩
    · rw [ports]
      exact congrArg Port.locked (Tab.at_mod_same _ _ _ hp)
    · rw [ports]
      exact congrArg Port.lastStatus (Tab.at_mod_same _ _ _ hp)
    · rw [cams j hj]
      have names : j ∈ (unitsWhere 16 fun c => (x.cams.at c).bound && bPort (x.cams.at c).bind == p) ↔
          (x.cams.at j).bound = true ∧ bPort (x.cams.at j).bind = p := by
        simp [unitsWhere, hj]
      by_cases e : (x.cams.at j).bound = true ∧ bPort (x.cams.at j).bind = p
      · rw [if_pos e, if_pos (names.mpr e), Cam.stopWith_stopDue]
        exact if_pos e.1
      · rw [if_neg e, if_neg fun h => e (names.mp h)]
        rfl

end

section
/-! Exposure requests, the I3C buses, the IMU and register transfers (R244 to R256, R380). -/
namespace Sys2Proof.Machine
open Sys2Proof

/-! ## Requests (R249, R250) -/

theorem State.takeExposure_malformed (x : State) {b : Bytes} (bad : exposureMalformed b = true) : x.takeExposure b = (0x050D, 0, x) := by
  simp only [State.takeExposure, bad, ↓reduceIte]

theorem State.takeExposure_not_live (x : State) {b : Bytes} (formed : exposureMalformed b = false) (dead : (x.cams.at (eCam b)).live = false) :
    x.takeExposure b = (0x0513, 0, x) := by
  simp only [State.takeExposure, formed, dead, Bool.not_false, Bool.true_or, Bool.false_eq_true, ↓reduceIte]

/-- A request for one camera is refused for its values or for the queue, and is otherwise accepted with the next epoch. -/
theorem State.takeExposure_one (x : State) {b : Bytes} {c : Nat} (formed : exposureMalformed b = false) (cam : eCam b = c)
    (live : (x.cams.at c).live = true) (stays : (x.cams.at c).leaving = false) (single : eGroup b = false) :
    x.takeExposure b = if (x.camNow c).exposureBad b = true then (0x050D, 0, x) else if 16 ≤ (x.cams.at c).pending.length then (0x050E, 0, x)
      else (0, nextEpoch (x.epochCounterOf c), (x.setEpochCounter c (nextEpoch (x.epochCounterOf c))).acceptExposure b
        (laterFrame (x.camNow c).frameNo ((x.camNow c).achieved b x.now)) (nextEpoch (x.epochCounterOf c)) c) := by
  have one : x.exposureCams b = [c] := by
    rw [State.exposureCams, single, cam]
    rfl
  unfold State.takeExposure
  dsimp only
  rw [if_neg (by rw [formed]; decide), cam, if_neg (by rw [live, stays]; decide), one]
  have bads : ([c].any fun c => (x.camNow c).exposureBad b) = (x.camNow c).exposureBad b := Bool.or_false _
  have fulls : ([c].any fun c => decide (16 ≤ (x.cams.at c).pending.length)) = decide (16 ≤ (x.cams.at c).pending.length) := Bool.or_false _
  rw [bads, fulls, List.foldl_cons, List.foldl_nil, List.foldl_cons, List.foldl_nil]
  by_cases bad : (x.camNow c).exposureBad b = true
  · rw [if_pos bad, if_pos bad]
  rw [if_neg bad, if_neg bad]
  by_cases full : 16 ≤ (x.cams.at c).pending.length
  · rw [if_pos full, if_pos (decide_eq_true full)]
  · rw [if_neg full, if_neg fun h => full (of_decide_eq_true h)]

section
variable {s x : State} {t p e : Nat} {r : MbxReq} {y : State} (hx : s.at t = x) (h : x.req? p 0x0024 = some r)
include hx h

theorem exposureEffect_of_refused {st : Nat} (refused : x.takeExposure r.payload = (st, e, y)) (hst : st ≠ 0) : exposureEffect t p s = x.answer p st := by
  simp only [exposureEffect, hx, h, refused, hst, ↓reduceIte]

theorem exposureEffect_of_taken (taken : x.takeExposure r.payload = (0, e, y)) : exposureEffect t p s = y.respond p 0 0 (leBytes 2 e ++ zeros 2) := by
  simp only [exposureEffect, hx, h, taken, ↓reduceIte]

end

/-- A write to a window that the map admits is one whole aligned request, or ends its item. -/
theorem scuReqWriteEffect_of_window {s x : State} {t e a : Nat} {b : Bytes} (hx : s.at t = x) (active : x.active = true) (he : e < 12)
    (lo : scuReqBase ≤ a) (hi : a < scuReqBase + 512) (open_ : x.accessStatus (initDma e) a b.length true = 0) :
    scuReqWriteEffect t e a b s = if b.length ≠ 32 ∨ a % 32 ≠ 0 then x.windowFault e 0x050D
      else if (x.takeExposure b).1 = 0 then (x.takeExposure b).2.2 else x.windowFault e (x.takeExposure b).1 := by
  have outside : ¬ scuReqBase + 16 * 32 ≤ a := by omega
  simp only [scuReqWriteEffect, hx, active, open_, Nat.not_le.mpr he, Nat.not_lt.mpr lo, outside, Bool.not_true, decide_false, Bool.or_self,
    Bool.false_eq_true, ne_eq, not_true, ↓reduceIte]

/-! ## Buses (R245, R246, R251) -/

section
variable {s x : State} {t bus : Nat} (hx : s.at t = x) (active : x.active = true)
include hx active

theorem sequenceIssueEffect_of_due {y : State} {l q ep kind : Nat} (hb : bus < 8) (idle : x.scu.bus.at bus = none) (lapse : x.relapseBus bus = y)
    (first : firstDue (y.busDue bus) = some (l, q, ep, kind)) :
    sequenceIssueEffect t bus s =
      (y.modReq q ep fun r => { r with begun := true }).issueTransaction bus { cam := q, kind := kind, epoch := ep } := by
  simp only [sequenceIssueEffect, hx, active, idle, lapse, first, Nat.not_le.mpr hb, Option.isSome_none, Bool.not_true, decide_false, Bool.or_self,
    Bool.false_eq_true, ↓reduceIte]

variable {o : BusOp} (busy : x.scu.bus.at bus = some o)
include busy

theorem i3cCompleteEffect_of_nack (d : Bytes) : i3cCompleteEffect t bus true d s = x.busFail bus o := by
  simp only [i3cCompleteEffect, hx, active, busy, Bool.not_true, Bool.false_eq_true, ↓reduceIte]

theorem i3cCompleteEffect_of_sequence (d : Bytes) (sequence : o.kind ≠ 2) : i3cCompleteEffect t bus false d s = x.busNext bus o := by
  simp only [i3cCompleteEffect, hx, active, busy, sequence, Bool.not_true, Bool.false_eq_true, ↓reduceIte]

theorem i3cTimeoutEffect_of_busy : i3cTimeoutEffect t bus s = if o.since + 1000000 ≤ x.now then x.busFail bus o else x := by
  simp only [i3cTimeoutEffect, hx, active, busy, Bool.true_and, decide_eq_true_eq]

end

/-- A failed transaction is retried twice within the write window. -/
theorem State.busFail_retry {x : State} {bus : Nat} {o : BusOp} (tries : o.tries < 2) (window : (x.cams.at o.cam).inWindow x.now = true) :
    x.busFail bus o = x.issueTransaction bus { o with tries := o.tries + 1 } := if_pos ⟨tries, window⟩

/-- After that, or past the window, its sequence ends with 0x0512. -/
theorem State.busFail_end {x : State} {bus : Nat} {o : BusOp} (over_ : 2 ≤ o.tries ∨ (x.cams.at o.cam).inWindow x.now = false) (sequence : o.kind ≠ 2) :
    x.busFail bus o = ((x.freeBus bus).event 0x0512 3 o.cam [18 + o.cam]).failRequest o.cam o.epoch := by
  have ends : ¬ (o.tries < 2 ∧ (x.cams.at o.cam).inWindow x.now = true) := by
    rintro ⟨tries, window⟩
    rcases over_ with many | closed
    · omega
    · exact Bool.false_ne_true (closed.symm.trans window)
  simp only [State.busFail, ends, sequence, ↓reduceIte]

/-! ## The IMU, completions and transfers (R255, R256, R380) -/

/-- A sample of the configured ring goes to its next entry, with the next sequence number. -/
theorem imuSampleEffect_of_ring {s x : State} {t base n : Nat} (ra ac : List Nat) (hx : s.at t = x) (active : x.active = true)
    (ring : x.scu.imuRing = some (base, n)) (hn : 0 < n) :
    ∃ y, x.Accesses y ∧ imuSampleEffect t base n ra ac s =
      { y with scu := { x.scu with imuNext := (x.scu.imuNext + 1) % n, imuSeq := (x.scu.imuSeq + 1) % 65536 } } := by
  simp only [imuSampleEffect, hx, active, ring, Nat.ne_of_gt hn, Bool.not_true, Bool.false_or, decide_false, Bool.false_eq_true, ↓reduceIte]
  exact ⟨_, State.record_accesses _ _ _ _, rfl⟩

/-- One completion that waits is written, with one interrupt. -/
theorem sequenceCompleteEffect_of_one {s x : State} {t c : Nat} {d : ExpDone} (hx : s.at t = x) (active : x.active = true)
    (due : (x.cams.at c).due = [d]) (well : d.status ≠ 0x0510) :
    sequenceCompleteEffect t c s = ((x.writeCompletion c d.req d.status).modCam c fun k => { k with due := [] }).raise (18 + c) := by
  have ok : (d.status == 0x0510) = false := beq_eq_false_iff_ne.mpr well
  simp only [sequenceCompleteEffect, hx, active, due, ok, List.isEmpty_cons, Bool.not_true, Bool.or_self, Bool.false_eq_true, ↓reduceIte, List.foldl_cons,
    List.foldl_nil, List.any_cons, List.any_nil]

section
variable {s x : State} {t p c n : Nat} {r : MbxReq} (hx : s.at t = x) (h : x.req? p 0x0027 = some r) (length : fld r.payload 4 2 = n)
include hx h length

theorem sensorXferEffect_of_long (long : 256 < n) : sensorXferEffect t p s = x.answer p 0x0107 := by
  simp only [sensorXferEffect, hx, h, length, long, or_true, ↓reduceIte]

theorem sensorXferEffect_of_ok {rd : Bool} (cam : fld r.payload 0 1 = c) (hc : c ≤ 15) (flags : bits (fld r.payload 1 1) 1 7 = 0)
    (read : bit (fld r.payload 1 1) 0 = rd) (zero : fld r.payload 6 2 = 0) (some_ : 0 < n) (short : n ≤ 256)
    (whole : r.payload.length = 8 + (if rd = true then 0 else n)) (live : (x.cams.at c).live = true) :
    sensorXferEffect t p s = (x.modCam c fun k => { k with
      xfers := k.xfers ++ [{ pair := p, read := rd, addr := fld r.payload 2 2, n := n, data := sub r.payload 8 n }] }).startReq p := by
  simp only [sensorXferEffect, hx, h, length, cam, Nat.not_lt.mpr hc, flags, read, zero, Nat.ne_of_gt some_, Nat.not_lt.mpr short, whole, live, ne_eq, not_true,
    or_self, Bool.not_true, Bool.false_eq_true, ↓reduceIte]

end

end Sys2Proof.Machine
end

section
open Sys2Proof Sys2Proof.Machine

/-- Settles O52: a request by its checks, a bus by what it is at, and what each completion writes. -/
theorem exposureSequences : Obligations.ExposureSequences := by
  intro s x t p c bus r hx
  refine ⟨fun h => ?_, fun e a b active he lo hi open_ => ?_, fun active hb => ⟨fun y l q ep kind idle lapse first => ?_, fun o d busy => ?_, fun a => ?_,
    fun base n ra ac ring hn => ?_⟩, fun d active due well => ?_, fun n rd h cam hc flags read zero length => ⟨fun long => ?_, fun some_ short whole live => ?_⟩⟩
  · refine ⟨fun bad => ?_, fun formed dead => ?_, fun formed cam live stays single => ?_⟩
    · exact congrArg Host.Outcome.next (exposureEffect_of_refused hx h (State.takeExposure_malformed x bad) (by decide))
    · exact congrArg Host.Outcome.next (exposureEffect_of_refused hx h (State.takeExposure_not_live x formed dead) (by decide))
    · have take := State.takeExposure_one x formed cam live stays single
      refine ⟨fun bad => ?_, fun good full => ?_, fun good room => ?_⟩
      · exact congrArg Host.Outcome.next (exposureEffect_of_refused hx h (take.trans (if_pos bad)) (by decide))
      · rw [if_neg (by rw [good]; decide), if_pos full] at take
        exact congrArg Host.Outcome.next (exposureEffect_of_refused hx h take (by decide))
      · rw [if_neg (by rw [good]; decide), if_neg (Nat.not_le.mpr room)] at take
        exact congrArg Host.Outcome.next (exposureEffect_of_taken hx h take)
  · have run := scuReqWriteEffect_of_window hx active he lo hi open_
    exact ⟨fun part => congrArg Host.Outcome.next (run.trans (if_pos part)),
      fun length aligned => congrArg Host.Outcome.next (run.trans (if_neg (by simp [length, aligned])))⟩
  · exact congrArg Host.Outcome.next (sequenceIssueEffect_of_due hx active hb idle lapse first)
  · have nack := i3cCompleteEffect_of_nack hx active busy d
    have timeout := i3cTimeoutEffect_of_busy hx active busy
    refine ⟨fun tries window => ?_, fun over_ sequence => ?_, fun sequence more => ?_, fun early => ?_, fun late tries window => ?_⟩
    · exact congrArg Host.Outcome.next (nack.trans (State.busFail_retry tries window))
    · exact congrArg Host.Outcome.next (nack.trans (State.busFail_end over_ sequence))
    · exact congrArg Host.Outcome.next ((i3cCompleteEffect_of_sequence hx active busy d sequence).trans (if_pos more))
    · exact congrArg Host.Outcome.next (timeout.trans (if_neg (Nat.not_le.mpr early)))
    · exact congrArg Host.Outcome.next (timeout.trans ((if_pos late).trans (State.busFail_retry tries window)))
  · subst hx
    exact congrArg Host.Outcome.next (if_pos (by rw [active]; simp [hb]))
  · obtain ⟨y, accesses, run⟩ := imuSampleEffect_of_ring ra ac hx active ring hn
    exact .of_next (congrArg Host.Outcome.next run) ⟨rfl, rfl, ring, accesses.cams⟩
  · exact congrArg Host.Outcome.next (sequenceCompleteEffect_of_one hx active due well)
  · exact congrArg Host.Outcome.next (sensorXferEffect_of_long hx h length long)
  · exact congrArg Host.Outcome.next (sensorXferEffect_of_ok hx h length cam hc flags read zero some_ short whole live)

end

section
/-! Parameter sets, taps, statistics, metadata and deadlines of the raw front-ends (R250, R268, R276 to R290, R303). -/
namespace Sys2Proof.Machine
open Sys2Proof

/-! ## Parameter sets (R276, R277) -/

section
variable {s x : State} {t p r c : Nat} {q : MbxReq} (hx : s.at t = x)
include hx

theorem psetSubmitEffect_eq (h : x.req? p 0x0025 = some q) (rfe : fld q.payload 0 1 = r) (hr : r ≤ 15) (zero : allZero (sub q.payload 1 7) = true) :
    psetSubmitEffect t p s = (x.takePset r (sub q.payload 8 16)).2.answer p (x.takePset r (sub q.payload 8 16)).1 := by
  simp only [psetSubmitEffect, hx, h, rfe, zero, Nat.not_lt.mpr hr, Bool.not_true, Bool.false_eq_true, or_self, ↓reduceIte]

/-- A write to a window that the map admits is one whole submission, or ends its item. -/
theorem psetWindowWriteEffect_of_window {e : Nat} {b : Bytes} (active : x.active = true) (he : e < 12) (hr : r < 16)
    (open_ : x.accessStatus (initDma e) (psetWindow r) b.length true = 0) :
    psetWindowWriteEffect t e r 0 b s = if b.length ≠ 16 then x.windowFault e 0x0517
      else if (x.takePset r b).1 = 0 then (x.takePset r b).2 else (x.takePset r b).2.windowFault e (x.takePset r b).1 := by
  simp only [psetWindowWriteEffect, hx, active, open_, Nat.not_le.mpr he, Nat.not_le.mpr hr, Nat.add_zero, Nat.reduceLeDiff, Bool.not_true, decide_false,
    Bool.or_self, Bool.false_eq_true, ne_eq, not_true, or_false, ↓reduceIte]

theorem psetLoadStartEffect_of_free {w : PsetSub} (active : x.active = true) (cam : x.camOfRfe r = some c) (works : (x.rfe.at r).failed = false)
    (shadow : (x.rfe.at r).shadow = none) (loading : (x.rfe.at r).loading = none)
    (first : earliestSet (x.cams.at c).frameNo (x.rfe.at r).pending = some w) :
    psetLoadStartEffect t r s = x.modRfe r fun y => { y with loading := some w, pending := y.pending.filter (· != w) } := by
  simp only [psetLoadStartEffect, hx, cam, active, works, shadow, loading, first, Option.isSome_none, Bool.not_true, Bool.or_self, Bool.false_eq_true,
    ↓reduceIte]

theorem psetLoadCompleteEffect_of_read {w : PsetSub} {d : Bytes} {y : State} (active : x.active = true) (cam : x.camOfRfe r = some c)
    (loading : (x.rfe.at r).loading = some w) (read : x.read (initDma x.pixelDma) w.addr 24192 = (d, 0, y)) :
    psetLoadCompleteEffect t r s = if psetBad (bW (x.cams.at c).bind) (bH (x.cams.at c).bind) d = true
      then (y.modRfe r fun z => { z with loading := none }).rejectPset r 0x0517
      else (y.modRfe r fun z => { z with loading := none }).modRfe r fun z => { z with
        shadow := some (w, d), shadowLate := (x.cams.at c).started && !aheadOf w.target (x.cams.at c).frameNo } := by
  simp only [psetLoadCompleteEffect, hx, cam, active, loading, read, Bool.not_true, Bool.false_eq_true, ne_eq, not_true, false_or, ↓reduceIte]

end

theorem State.takePset_unbound {x : State} {r : Nat} (b : Bytes) (free : x.camOfRfe r = none) : x.takePset r b = (0x0513, x) := by
  simp only [State.takePset, free]

theorem State.takePset_malformed {x : State} {r c : Nat} {b : Bytes} (cam : x.camOfRfe r = some c)
    (bad : bits (fld b 0 8) 40 24 ≠ 0 ∨ fld b 0x0E 2 ≠ 0 ∨ bits (fld b 0 8) 0 40 % 64 ≠ 0) : x.takePset r b = (0x0517, x.rejectPset r 0x0517) := by
  simp only [State.takePset, cam]
  exact if_pos bad

/-- Before the first frame a submission keeps its target; with every waiting set due before it, it joins them, or finds no room. -/
theorem State.takePset_early {x : State} {r c : Nat} {b : Bytes} (cam : x.camOfRfe r = some c) (high : bits (fld b 0 8) 40 24 = 0)
    (zero : fld b 0x0E 2 = 0) (aligned : bits (fld b 0 8) 0 40 % 64 = 0) (early : (x.cams.at c).started = false)
    (before : ∀ w, w ∈ (x.rfe.at r).pending → w.target ≠ fld b 8 4 ∧ aheadOf w.target (fld b 8 4) = false) :
    x.takePset r b = if 4 ≤ (x.rfe.at r).pending.length + b2n (x.rfe.at r).loading.isSome then (0x0518, x.refusePset r 0x0518)
      else (0, x.modRfe r fun y => { y with
        pending := (x.rfe.at r).pending ++ [{ addr := bits (fld b 0 8) 0 40, target := fld b 8 4, tag := fld b 0x0C 2 }] }) := by
  have gone : ((x.rfe.at r).pending.filter fun w => w.target == fld b 8 4 || aheadOf w.target (fld b 8 4)) = [] := by
    rw [List.filter_eq_nil_iff]
    intro w hw
    simp [before w hw]
  have kept : ((x.rfe.at r).pending.filter fun w => !(w.target == fld b 8 4 || aheadOf w.target (fld b 8 4))) = (x.rfe.at r).pending := by
    rw [List.filter_eq_self]
    intro w hw
    simp [before w hw]
  simp only [State.takePset, cam, high, zero, aligned, early, Bool.false_and, Bool.false_eq_true, ne_eq, not_true, or_self, ↓reduceIte, gone, kept,
    List.foldl_nil]

/-! ## Tap descriptors (R279) -/

section
variable {s x : State} {t p r c tap : Nat} {q : MbxReq} (hx : s.at t = x) (h : x.req? p 0x0026 = some q) (rfe : fld q.payload 0 1 = r)
  (htap : fld q.payload 1 1 = tap)
include hx h rfe htap

theorem tapConfigEffect_of_no_tap (beyond : 3 < tap) : tapConfigEffect t p s = x.answer p 0x0107 := by
  simp only [tapConfigEffect, hx, h, rfe, htap, beyond, true_or, or_true, ↓reduceIte]

theorem tapConfigEffect_eq (hr : r ≤ 15) (zero : allZero (sub q.payload 2 6) = true) (tap3 : tap ≤ 3) :
    tapConfigEffect t p s = if x.tapStatus r tap (sub q.payload 8 64) ≠ 0 then x.answer p (x.tapStatus r tap (sub q.payload 8 64))
      else (x.modRfe r fun y => { y with taps := y.taps.mod tap fun z => { z with next := some (sub q.payload 8 64) } }).answer p 0 := by
  simp only [tapConfigEffect, hx, h, rfe, htap, zero, Nat.not_lt.mpr hr, Nat.not_lt.mpr tap3, Bool.not_true, Bool.false_eq_true, or_self, ↓reduceIte]

end

theorem State.tapStatus_named {x : State} {r tap c : Nat} (d : Bytes) (cam : x.camOfRfe r = some c) (named : x.tapNamed r tap = true) :
    x.tapStatus r tap d = 0x051B := by
  simp only [State.tapStatus, cam, named, Bool.true_or, ↓reduceIte]

/-! ## Row-groups of a tap to DRAM (R281) -/

/-- Writing a tap's lines leaves the dispatcher, the cameras and the RFEs alone. -/
structure State.TapStores (s s' : State) : Prop where
  bf : s'.bf = s.bf
  cams : s'.cams = s.cams
  rfe : s'.rfe = s.rfe

theorem State.TapStores.trans {a b c : State} (h : a.TapStores b) (k : b.TapStores c) : a.TapStores c :=
  ⟨k.bf.trans h.bf, k.cams.trans h.cams, k.rfe.trans h.rfe⟩

theorem State.TapStores.foldl {α : Type} {g : State → α → State} (h : ∀ (s : State) a, s.bf.ctxs = [] → s.TapStores (g s a)) (l : List α) (s : State)
    (none : s.bf.ctxs = []) : s.TapStores (l.foldl g s) := by
  induction l generalizing s with
  | nil => exact ⟨rfl, rfl, rfl⟩
  | cons a l ih =>
    have one := h s a none
    exact one.trans (ih _ (by rw [one.bf]; exact none))

theorem State.poisonSources_of_empty {s : State} (cam frame since : Nat) (hit : Ctx → Option Nat) (none : s.bf.ctxs = []) :
    s.poisonSources cam frame since hit = s := by
  unfold State.poisonSources
  rw [none]
  rfl

theorem State.sourceEvent_of_empty {s : State} (cam frame since : Nat) (last : Bool) (hit : Ctx → Option Nat) (none : s.bf.ctxs = []) :
    s.sourceEvent cam frame since last hit = s := by
  unfold State.sourceEvent
  rw [none]
  rfl

/-- With no node in the device, a tap's write is a write alone. -/
theorem State.tapWrite_stores (s : State) (r tap : Nat) (f : Frame) (a : Nat) (bs : Bytes) (none : s.bf.ctxs = []) : s.TapStores (s.tapWrite r tap f a bs) := by
  have w := State.write_accesses s (initDma s.pixelDma) a bs
  unfold State.tapWrite
  dsimp only
  rw [State.poisonSources_of_empty _ _ _ _ (by rw [w.bf]; exact none), ite_self]
  exact ⟨w.bf, w.cams, w.rfe⟩

theorem State.keepBlock_stores (s : State) (head addr slot : Nat) (b : Bytes × Bytes) : s.TapStores (s.keepBlock head addr slot b) := ⟨rfl, rfl, rfl⟩

theorem State.putRawBlock_stores (s : State) (r tap : Nat) (f : Frame) (head addr slot : Nat) (b : Bytes × Bytes) (none : s.bf.ctxs = []) :
    s.TapStores (s.putRawBlock r tap f head addr slot b) := by
  have one := State.tapWrite_stores s r tap f addr b.1 none
  have two := State.tapWrite_stores (s.tapWrite r tap f addr b.1) r tap f head (leBytes 1 (b.1.length / 32)) (by rw [one.bf]; exact none)
  unfold State.putRawBlock
  exact (one.trans two).trans (State.keepBlock_stores _ _ _ _ _)

theorem State.tapRing_stores (s : State) (r tap : Nat) (f : Frame) (d : Bytes) (depth buf : Nat) (ls : List (Nat × Nat × Bytes)) (none : s.bf.ctxs = []) :
    s.TapStores (s.tapRing r tap f d depth buf ls) := by
  unfold State.tapRing
  split
  · exact State.TapStores.foldl (fun s _ none => State.TapStores.foldl (fun s _ none => State.putRawBlock_stores s _ _ _ _ _ _ _ none) _ s none) _ s none
  · exact State.TapStores.foldl (fun s _ none => State.tapWrite_stores s _ _ _ _ _ none) _ s none

/-- With no node in the device there is none after a tap's row-group. -/
theorem State.tapRing_idle {x : State} (empty : x.bf.ctxs = []) (r' : Nat) (h : Rfe → Rfe) (r tap : Nat) (f : Frame) (d : Bytes) (depth buf : Nat)
    (ls : List (Nat × Nat × Bytes)) (c : Nat) (g : Cam → Cam) : (((x.modRfe r' h).tapRing r tap f d depth buf ls).modCam c g).bf.ctxs = [] :=
  (congrArg Belfry.ctxs (State.tapRing_stores (x.modRfe r' h) r tap f d depth buf ls empty).bf).trans empty

/-- A tap after a group of a frame: its buffer and frame follow with the last one. -/
def Tap.wrote (t : Tap) (prev : List (Nat × Bytes)) (buf num g : Nat) (last : Bool) : Tap :=
  { t with buffer := if last then buf else t.buffer, prev := prev, cut := t.cut && g != 0, frameLo := if last then num % 2 ^ 16 else t.frameLo }

/-- A frame after a group of a tap, without a parity error. -/
def Frame.wrote (f : Frame) (tap : Nat) (last : Bool) : Frame :=
  { f with
    tapNext := f.tapNext.mod tap (· + 1), tapDone := f.tapDone.mod tap fun _ => last
    parityLines := f.parityLines + ([] : List Nat).length, repaired := f.repaired || !([] : List Nat).isEmpty }

/-- A row-group of a tap to DRAM goes to its ring, and the frame's tap advances. -/
theorem tapWriteEffect_of_dram {s x : State} {t r c tap : Nat} {f : Frame} {fs : List Frame} (trunc : EgressCut) (hx : s.at t = x)
    (active : x.active = true) (cam : x.rfeCam r = some c) (frames : (x.cams.at c).frames = f :: fs) (works : (x.rfe.at r).failed = false) (htap : tap < 4)
    (enabled : tapEnable (f.taps.at tap) = true) (empty : x.bf.ctxs = []) (free : x.rfeHeld f (some tap) = false) (some_ : f.taps.at tap ≠ [])
    (undone : f.tapDone.at tap = false) (dram : tapDest (f.taps.at tap) = 0) (parity : f.parityLines = 0)
    (ready : (x.cams.at c).tapReady f (f.taps.at tap) (f.tapNext.at tap) = true) :
    let d := f.taps.at tap
    let g := f.tapNext.at tap
    let last := decide (tapOutH d ≤ 16 * (g + 1))
    ∃ prev y, (x.modRfe r fun z => { z with
      parity := satAdd 8 z.parity ([] : List Nat).length, taps := z.taps.mod tap fun t => t.wrote prev (f.tapBuf.at tap) f.num g last }).TapStores y ∧
      tapWriteEffect t r tap [] trunc s = y.modCam c fun k => k.modHead fun f => f.wrote tap last := by
  intro d g last
  have given : d.isEmpty = false := List.isEmpty_eq_false_iff.mpr some_
  refine ⟨(x.tapGroupLines (x.cams.at c) f tap d [] ((x.rfe.at r).taps.at tap).prev g).2, _, State.tapRing_stores _ r tap f d (bDepth (x.cams.at c).bind) (f.tapBuf.at tap)
    (x.tapGroupLines (x.cams.at c) f tap d [] ((x.rfe.at r).taps.at tap).prev g).1 empty, ?_⟩
  simp only [tapWriteEffect, hx, cam, frames, active, works, Nat.not_le.mpr htap, given, enabled, undone, ready, dram, free, List.filter_nil,
      Bool.not_true, decide_false, Bool.or_self, Bool.and_false, Bool.false_eq_true, ↓reduceIte, Nat.zero_ne_one, Bool.false_and, d, g]
  rw [if_neg (by rw [parity]; decide)]
  rw [State.sourceEvent_of_empty _ _ _ _ _ (State.tapRing_idle empty _ _ _ _ _ _ _ _ _ _ _),
    State.sourceEvent_of_empty _ _ _ _ _ (State.tapRing_idle empty _ _ _ _ _ _ _ _ _ _ _), ite_self]
  rfl

/-! ## Statistics and metadata (R285, R286) -/

section
variable {s x : State} {t r c : Nat} {f : Frame} {fs : List Frame} (hx : s.at t = x) (active : x.active = true) (cam : x.rfeCam r = some c)
  (frames : (x.cams.at c).frames = f :: fs) (works : (x.rfe.at r).failed = false)
include hx active cam frames works

theorem statsEffect_of_over (due : f.statsDone = false) (ended : f.tFe.isSome = true) (rows : bH (x.cams.at c).bind ≤ f.rows.length)
    (room : (x.cams.at c).statsNext < bStatsBlocks (x.cams.at c).bind) :
    let n := bStatsBlocks (x.cams.at c).bind
    let a := bStats (x.cams.at c).bind + 9280 * ((x.cams.at c).statsNext % n)
    let y := x.record (initDma x.pixelDma) a (f.statsBlock c (x.cams.at c))
    statsEffect t r s = (y.modCam c fun k => { k.modHead (fun f => { f with statsDone := true, statsAt := a, statsFlags := f.flags }) with
      statsNext := k.statsNext + 1
      statsUsed := ringUsed k.statsNext n k.statsUsed (x.eventTaken c f.num f.since (rfeHit r 2 0)) }).sourceEvent c f.num f.since true (rfeHit r 2 0) := by
  have end_ : f.tFe.isNone = false := by rw [← Option.not_isSome, ended]; rfl
  simp only [statsEffect, hx, cam, frames, active, works, due, end_, Nat.not_lt.mpr rows, ringLost, Nat.not_le.mpr room, State.ringLoss, Bool.not_true,
    decide_false, Bool.or_self, Bool.false_and, Bool.false_eq_true, ↓reduceIte]

omit active works in
theorem statsEffect_of_open (opened : f.tFe = none) : statsEffect t r s = x := by
  simp only [statsEffect, hx, cam, frames, opened, Option.isNone_none, Bool.or_true, Bool.true_or, ↓reduceIte]

theorem metadataEffect_of_over (over_ : x.frameOver (x.cams.at c) f = true) (parity : f.parityLines = 0)
    (room : (x.cams.at c).metaNext < bMetaEntries (x.cams.at c).bind) (stays : (x.cams.at c).leaving = false) :
    let n := bMetaEntries (x.cams.at c).bind
    let z := (x.reportFrame f).statsFlags f
    metadataEffect t r s =
      (((((z.record (initDma x.pixelDma) (bMeta (x.cams.at c).bind + 128 * ((x.cams.at c).metaNext % n)) (metaRecord c (x.cams.at c) f)).modRfe r
        fun y => { y with badFrames := 0 }).modCam c fun k => { k with
          frames := k.frames.drop 1, metaNext := k.metaNext + 1
          metaUsed := ringUsed k.metaNext n k.metaUsed (z.eventTaken c f.num f.since (rfeHit r 3 0)) }).sourceEvent c f.num f.since true
        (rfeHit r 3 0)).endNet c).gateUnused := by
  have few : ¬ 3 ≤ 0 := by decide
  simp only [metadataEffect, hx, cam, frames, active, works, over_, parity, ringLost, Nat.not_le.mpr room, State.ringLoss, stays, few, Bool.not_true,
    decide_false, Bool.or_self, Bool.false_and, Bool.false_eq_true, ↓reduceIte]

omit active works in
theorem metadataEffect_of_open (open_ : x.frameOver (x.cams.at c) f = false) : metadataEffect t r s = x := by
  simp only [metadataEffect, hx, cam, frames, open_, Bool.not_false, Bool.or_true, ↓reduceIte]

end

/-! ## Deadlines (R303) -/

theorem rowGroupDeadlineEffect_of_none {s x : State} {t c : Nat} {n : Net} (hx : s.at t = x) (net : (x.cams.at c).net = some n)
    (timely : ∀ g ∈ n.groups, x.now ≤ g.deadline) : rowGroupDeadlineEffect t c s = x := by
  have find : (n.groups.find? fun g => decide (g.deadline < x.now)) = none := by
    rw [List.find?_eq_none]
    intro g hg
    simp [timely g hg]
  simp only [rowGroupDeadlineEffect, hx, net, find]

theorem rowGroupDeadlineEffect_of_late {s x : State} {t c : Nat} {n : Net} {g : RowGroup} (hx : s.at t = x) (active : x.active = true)
    (net : (x.cams.at c).net = some n) (groups : n.groups = [g]) (on : n.active = true) (late : g.deadline < x.now) :
    rowGroupDeadlineEffect t c s = x.missDeadline c g.index := by
  have find : ([g].find? fun g => decide (g.deadline < x.now)) = some g := List.find?_cons_of_pos (decide_eq_true late)
  simp only [rowGroupDeadlineEffect, hx, net, groups, find, active, on, Bool.and_self, ↓reduceIte]

end Sys2Proof.Machine
end

section
open Sys2Proof Sys2Proof.Machine

/-- Settles O53: a set by its checks, a descriptor by its status, and each ring's write by the frame. -/
theorem rawFrontEnd : Obligations.RawFrontEnd := by
  intro s x t p r c q hx
  refine ⟨fun h rfe hr zero => ?_, fun e b active he hr open_ => ?_, fun active cam => ⟨fun w works shadow loading first => ?_, fun w d y loading read => ?_⟩,
    fun tap h rfe htap hr zero => ?_, fun f fs active cam hc frames works => ⟨fun tap bad trunc htap enabled empty hr free given undone dram parity none ready => ?_,
      fun due ended rows room => ?_, fun opened => ?_, fun over_ parity room stays => ?_, fun open_ => ?_⟩,
    fun n g active net => ⟨fun none => ?_, fun groups on timely => ?_, fun groups on late => ?_⟩⟩
  · have run := psetSubmitEffect_eq hx h rfe hr zero
    refine ⟨fun free => ?_, fun cam bad => ?_, fun cam high zero aligned early before full => ?_, fun cam high zero aligned early none => ?_⟩
    · rw [State.takePset_unbound _ free] at run
      exact congrArg Host.Outcome.next run
    · rw [State.takePset_malformed cam (.inr (.inr bad))] at run
      exact congrArg Host.Outcome.next run
    · rw [State.takePset_early cam high zero aligned early before, if_pos full] at run
      exact congrArg Host.Outcome.next run
    · have few : ¬ 4 ≤ ([] : List PsetSub).length + b2n (x.rfe.at r).loading.isSome := by
        cases (x.rfe.at r).loading.isSome <;> decide
      rw [State.takePset_early cam high zero aligned early (by rw [none]; exact fun _ h => absurd h List.not_mem_nil), none, if_neg few] at run
      exact congrArg Host.Outcome.next run
  · have run := psetWindowWriteEffect_of_window hx active he hr open_
    exact ⟨fun part => congrArg Host.Outcome.next (run.trans (if_pos part)),
      fun whole => congrArg Host.Outcome.next (run.trans (if_neg (not_not_intro whole)))⟩
  · exact congrArg Host.Outcome.next (psetLoadStartEffect_of_free hx active cam works shadow loading first)
  · exact congrArg Host.Outcome.next (psetLoadCompleteEffect_of_read hx active cam loading read)
  · refine ⟨fun beyond => congrArg Host.Outcome.next (tapConfigEffect_of_no_tap hx h rfe htap beyond), fun tap3 cam named => ?_, fun tap3 ok => ?_⟩
    · have run := tapConfigEffect_eq hx h rfe htap hr zero tap3
      rw [State.tapStatus_named _ cam named] at run
      exact congrArg Host.Outcome.next run
    · exact congrArg Host.Outcome.next ((tapConfigEffect_eq hx h rfe htap hr zero tap3).trans (if_neg (not_not_intro ok)))
  · subst none
    obtain ⟨prev, y, stores, run⟩ := tapWriteEffect_of_dram trunc hx active cam frames works htap enabled empty free given undone dram parity ready
    refine .of_next (congrArg Host.Outcome.next run) ?_
    have head : (y.modCam c fun k => k.modHead fun f' => f'.wrote tap (decide (tapOutH (f.taps.at tap) ≤ 16 * (f.tapNext.at tap + 1)))).cams.at c =
        (x.cams.at c).modHead fun f' => f'.wrote tap (decide (tapOutH (f.taps.at tap) ≤ 16 * (f.tapNext.at tap + 1))) := by
      rw [← show y.cams.at c = x.cams.at c from congrArg (fun t : Tab 16 Cam => t.at c) stores.cams]
      exact Tab.at_mod_same _ _ _ hc
    refine ⟨f.wrote tap (decide (tapOutH (f.taps.at tap) ≤ 16 * (f.tapNext.at tap + 1))), ?_, Tab.at_mod_same _ _ _ htap, Tab.at_mod_same _ _ _ htap, rfl,
      fun last => ?_, fun j hj => ?_⟩
    · rw [head]
      simp only [Cam.modHead, frames]
    · show ((y.rfe.at r).taps.at tap).buffer = _
      rw [stores.rfe]
      simp only [State.modRfe, Tab.at_mod_same _ _ _ hr, Tab.at_mod_same _ _ _ htap, Tap.wrote, last, decide_true, ↓reduceIte]
    · refine (Tab.at_mod_other _ _ _ _ hj.symm).trans ?_
      rw [stores.cams]
      rfl
  · exact congrArg Host.Outcome.next (statsEffect_of_over hx active cam frames works due ended rows room)
  · exact congrArg Host.Outcome.next (statsEffect_of_open hx cam frames opened)
  · exact congrArg Host.Outcome.next (metadataEffect_of_over hx active cam frames works over_ parity room stays)
  · exact congrArg Host.Outcome.next (metadataEffect_of_open hx cam frames open_)
  · exact congrArg Host.Outcome.next (rowGroupDeadlineEffect_of_none hx net (by rw [none]; exact fun _ h => absurd h List.not_mem_nil))
  · exact congrArg Host.Outcome.next (rowGroupDeadlineEffect_of_none hx net (by rw [groups]; simpa using timely))
  · exact congrArg Host.Outcome.next (rowGroupDeadlineEffect_of_late hx active net groups on late)

end

section
/-! Stripe networks: bindings, weights, units, deadlines and faults (R297 to R316). -/
namespace Sys2Proof.Machine
open Sys2Proof

/-! ## Bindings (R306 to R309) -/

section
variable {s x : State} {t p c : Nat} {q : MbxReq} (hx : s.at t = x)
include hx

theorem networkBindEffect_eq (ls : List NetLayer) (h : x.req? p 0x0022 = some q) :
    let h := x.read initFirmware (nImage q.payload) 64
    let v := x.netChecks q.payload h.1 h.2.1 ls
    networkBindEffect t p ls s = if v.status ≠ 0 then x.answerNet p v
      else if x.gated (.sne (nSne q.payload)) = true then x.beginUngate [.sne (nSne q.payload)]
      else ((x.modCam (nCam q.payload) fun k => { k with net := some { bindRec := q.payload, header := h.1, program := ls.take (hLayers h.1), pair := some p } }).moveSne
        (nCam q.payload) (nSne q.payload)).startReq p := by
  simp only [networkBindEffect, hx, h]

theorem networkUnbindEffect_eq (h : x.req? p 0x0023 = some q) (cam : fld q.payload 0 1 = c) (hc : c ≤ 15) (zero : allZero (sub q.payload 1 3) = true) :
    networkUnbindEffect t p s = ((x.cams.at c).net.map fun n => (x.modCam c fun k => { k with net := some { n with unbindDue := true } }).answer p 0).getD
      (x.answer p 0x0425) := by
  simp only [networkUnbindEffect, hx, h, cam, zero, Nat.not_lt.mpr hc, Bool.not_true, Bool.false_eq_true, or_self, ↓reduceIte]
  split <;> rename_i e <;> rw [e] <;> rfl

/-- A weight load ends: with a good image the network is loaded and answered, with a bad one the camera is unbound. -/
theorem weightLoadEffect_of_net {n : Net} (active : x.active = true) (net : (x.cams.at c).net = some n) (pair : n.pair = some p) :
    weightLoadEffect t c s = if x.imageOk (nSne n.bindRec) (nImage n.bindRec) n.header = true then
      ((if x.imageHeld (nSne n.bindRec) (nImage n.bindRec) = true then x else x.loadWeights (nSne n.bindRec) (nImage n.bindRec) n.header).modCam c fun k =>
        { k with net := some { n with
          pair := none, loaded := true, code := x.peek (nImage n.bindRec + hProgOff n.header) (hProgBytes n.header) } }).answerNet p {}
      else (((x.modCam c fun k => { k with net := some { n with pair := none } }).dropNet c).gateUnused).answerNet p { check := 1, status := 0x0419 } := by
  simp only [weightLoadEffect, hx, net, pair, active, Bool.not_true, Bool.false_eq_true, ↓reduceIte]
  cases x.imageOk (nSne n.bindRec) (nImage n.bindRec) n.header <;> rfl

end

theorem State.netChecks_malformed (x : State) {r : Bytes} (h : Bytes) (st : Nat) (ls : List NetLayer) (bad : netRecBad r = true) :
    x.netChecks r h st ls = { check := 1, status := 0x0419 } := by
  simp only [State.netChecks, bad, Bool.true_or, ↓reduceIte]

/-! ## Units (R304, R268, R303) -/

section
variable {s x : State} {t sn c : Nat} (hx : s.at t = x) (active : x.active = true)
include hx active

theorem unitStartEffect_of_none (idle : (x.sne.at sn).unit = none) (none : x.sneChoices sn = []) : unitStartEffect t sn s = x := by
  simp only [unitStartEffect, hx, active, idle, none, Option.isSome_none, Bool.not_true, Bool.or_self, Bool.false_or, List.foldl_nil]
  exact ite_self _

/-- An idle SNE with one row-group to serve takes its next stripe. -/
theorem unitStartEffect_of_one {n : Net} {f : Frame} {fs : List Frame} {g : RowGroup} {d rk : Nat} (idle : (x.sne.at sn).unit = none)
    (serves : (x.sne.at sn).inService ≠ 0) (one : x.sneChoices sn = [(d, rk, c, g.index)]) (net : (x.cams.at c).net = some n) (groups : n.groups = [g])
    (frames : (x.cams.at c).frames = f :: fs) :
    ∃ bad, unitStartEffect t sn s = (({ x with mem := { x.mem with bad := bad } } : State).modCam c fun k =>
        { k with net := k.net.map fun n => n.modGroup g.index fun g => { g with next := g.next + 1 } }).modSne sn fun y =>
      { y with unit := some { cam := c, frame := f.num, group := g.index, stripe := g.next } } := by
  have find : ([g].find? fun h => h.index == g.index) = some g := List.find?_cons_of_pos (beq_self_eq_true _)
  simp only [unitStartEffect, hx, active, idle, serves, one, net, groups, frames, find, Option.isSome_none, Bool.not_true, Bool.or_self,
    decide_false, Bool.false_eq_true, ↓reduceIte, List.foldl_cons, List.foldl_nil, Option.bind_some, List.head?_cons, Option.map_some, Option.getD_some]
  exact ⟨_, rfl⟩

end

/-- A row-group whose first unit is not merged, on the network path, is not returned. -/
theorem State.returnGroups_of_unmerged {s : State} {c : Nat} {f : Frame} {fs : List Frame} (frames : (s.cams.at c).frames = f :: fs) (stripes : 1 < f.stripes)
    (net : f.classical = false) (kept : f.switchUnit = none) (first : aGet f.merged (f.returned * f.stripes) = none) (fuel : Nat) :
    s.returnGroups c fuel = s := by
  cases fuel with
  | zero => rfl
  | succ fuel =>
    have stays : (s.cams.at c).mayReturn f = false := by
      have striped : (f.stripes == 0) = false := beq_eq_false_iff_ne.mpr (by omega)
      have waits : ((List.range f.stripes).all fun st =>
          (aGet f.merged (f.returned * f.stripes + st)).isSome || match f.switchUnit with
            | some sw => decide (sw ≤ f.returned * f.stripes + st)
            | none => false) = false := by
        rw [List.all_eq_false]
        refine ⟨0, List.mem_range.mpr (by omega), ?_⟩
        simp [first, kept]
      unfold Cam.mayReturn
      rw [striped, net]
      simp only [Bool.false_or]
      erw [waits]
      exact Bool.and_false _
    unfold State.returnGroups
    simp only [frames, stays, Bool.false_eq_true, ↓reduceIte]

section
variable {s x : State} {t sn c : Nat} {u : SneUnit} {n : Net} {f : Frame} {fs : List Frame} {g : RowGroup} (hx : s.at t = x) (active : x.active = true)
  (unit : (x.sne.at sn).unit = some u) (weights : x.weightsBad sn = false) (buffers : x.isBad (0x42_000C_0000 + sn * 0x10_0000) 0x4_0000 = false)
  (cam : u.cam = c) (net : (x.cams.at c).net = some n) (on : n.active = true) (frames : (x.cams.at c).frames = f :: fs) (num : f.num = u.frame)
  (kept : f.switchUnit = none) (path : f.classical = false) (groups : n.groups = [g]) (index : g.index = u.group)
include hx active unit weights buffers cam net on frames num kept path groups index

/-- A late unit switches its camera. -/
theorem unitCompleteEffect_of_late (late : g.deadline < x.now) :
    unitCompleteEffect t sn u.group u.stripe s = (x.modSne sn fun y => { y with unit := none }).missDeadline c g.index := by
  have number : (f.num != u.frame) = false := by rw [num]; exact bne_self_eq_false _
  have find : ([g].find? fun h => h.index == u.group) = some g := List.find?_cons_of_pos (beq_iff_eq.mpr index)
  have cams : (x.modSne sn fun y => { y with unit := none }).cams = x.cams := rfl
  simp only [unitCompleteEffect, hx, unit, active, weights, buffers, cam, cams, net, on, frames, number, kept, path, groups, find, late, index,
    Option.filter_some, beq_self_eq_true, Bool.and_self, Bool.true_and, Bool.not_true, Bool.or_self, Option.isSome_none, Bool.false_eq_true, ↓reduceIte]

/-- A unit on time is counted and merged, one of several of its row-group. -/
theorem unitCompleteEffect_of_timely (timely : x.now ≤ g.deadline) (stripes : 1 < f.stripes) (first : g.merged = 0) :
    ∃ n', n'.unitsNet = n.unitsNet + 1 ∧ n'.groups = [{ g with merged := 1 }] ∧ unitCompleteEffect t sn u.group u.stripe s =
      ((x.modSne sn fun y => { y with unit := none }).modCam c fun k =>
        { k.modHead (fun f' => { f' with merged := aSet f'.merged (u.group * f'.stripes + u.stripe) (stripeOutput n.header (x.netImage n)
            (stripeInput n.header (f.raw (x.cams.at c)) u.group u.stripe) (f'.raw k) u.group u.stripe) }) with net := some n' }).returnGroups c
        (x.cams.at c).groupsN := by
  have number : (f.num != u.frame) = false := by rw [num]; exact bne_self_eq_false _
  have find : ([g].find? fun h => h.index == u.group) = some g := List.find?_cons_of_pos (beq_iff_eq.mpr index)
  have part : (g.merged + 1 == f.stripes) = false := beq_eq_false_iff_ne.mpr (by omega)
  have cams : (x.modSne sn fun y => { y with unit := none }).cams = x.cams := rfl
  simp only [unitCompleteEffect, hx, unit, active, weights, buffers, cam, cams, net, on, frames, number, kept, path, groups, find, Nat.not_lt.mpr timely, part,
    Option.filter_some, beq_self_eq_true, Bool.and_self, Bool.true_and, Bool.not_true, Bool.or_self, Option.isSome_none, Bool.false_eq_true, ↓reduceIte]
  refine ⟨_, rfl, ?_, rfl⟩
  simp only [Net.modGroup, groups, List.map_cons, List.map_nil, index, first, ↓reduceIte]

end

/-! ## Faults and reloads (R310) -/

section
variable {s x : State} {t sn : Nat} (hx : s.at t = x) (active : x.active = true)
include hx active

theorem sneFaultEffect_of_control (works : (x.sne.at sn).failed = false) : sneFaultEffect t sn .control s = x.failSne sn := by
  simp only [sneFaultEffect, hx, active, works, Bool.not_true, Bool.or_self, Bool.false_eq_true, ↓reduceIte]

theorem sneFaultEffect_of_buffers (works : (x.sne.at sn).failed = false) : sneFaultEffect t sn .buffers s = x.bufferUe sn := by
  simp only [sneFaultEffect, hx, active, works, Bool.not_true, Bool.or_self, Bool.false_eq_true, ↓reduceIte]

/-- The reload of one camera's image ends by its check. -/
theorem weightReloadEffect_of_one {i c : Nat} {n : Net} (cams : x.imageCams sn i = [c]) (net : (x.cams.at c).net = some n) (reloading : n.reloading = true) :
    let y := fun ok : Bool => x.modCam c fun k => { k with net := k.net.map fun n => { n with reloading := false, suspended := n.suspended || !ok } }
    weightReloadEffect t sn i s = if x.imageOk sn i n.header = true
      then ((y true).loadWeights sn i n.header).modSne sn fun y => { y with reloads := satInc 8 y.reloads }
      else ((y false).modSne sn fun y => { y with reloads := satInc 8 y.reloads, lastStatus := 0x041E }).event 0x041E 2 sn [50] := by
  have waits : ([c].filter fun c => ((x.cams.at c).net.map (·.reloading)).getD false) = [c] := by
    rw [List.filter_cons_of_pos (by rw [net]; exact reloading)]
    rfl
  simp only [weightReloadEffect, hx, cams, waits, List.head?_cons, Option.bind_some, net, active, Bool.not_true, Bool.false_eq_true, ↓reduceIte,
    List.foldl_cons, List.foldl_nil]
  by_cases ok : x.imageOk sn i n.header = true
  · simp only [ok, Bool.not_true, ↓reduceIte]
  · simp only [Bool.eq_false_iff.mpr ok, Bool.not_false, Bool.false_eq_true, ↓reduceIte]

end

/-- With no unit in progress an uncorrectable buffer is counted and changes no camera. -/
theorem State.bufferUe_idle {x : State} {sn : Nat} (idle : (x.sne.at sn).unit = none) :
    ((x.dropUnit sn).modSne sn fun y => { y with storeUe := satInc 8 y.storeUe, lastStatus := 0x0421 }).Accesses (x.bufferUe sn) := by
  unfold State.bufferUe
  simp only [idle]
  exact (State.countUncorrectable_accesses _ _ _ _).trans (.of_reports (State.note_reports _ _ _ _ _))

end Sys2Proof.Machine
end

section
open Sys2Proof Sys2Proof.Machine

/-- Settles O54: a binding by its checks, a unit by its deadline, and what each fault leaves. -/
theorem stripeNetworks : Obligations.StripeNetworks := by
  intro s x t p c sn q hx
  refine ⟨fun h ls => ?_, fun h cam hc zero => ?_, fun n active net pair => ?_, fun active hsn works => ⟨fun idle none => ?_,
    fun n f fs g d rk idle serves one net groups frames hc => ?_,
    fun u n f fs g unit weights buffers cam hc net on frames num kept path groups index => ⟨fun timely stripes first before unmerged => ?_, fun late => ?_⟩,
    ?_, fun idle => ?_, fun i n cams net reloading => ⟨fun bad => ?_, fun good => ?_⟩⟩⟩
  · have run := networkBindEffect_eq hx ls h
    refine ⟨fun fails => congrArg Host.Outcome.next (run.trans (if_pos fails)),
      fun ok gated => congrArg Host.Outcome.next (run.trans ((if_neg (not_not_intro ok)).trans (if_pos gated))),
      fun ok opened => congrArg Host.Outcome.next (run.trans ((if_neg (not_not_intro ok)).trans (if_neg (by rw [opened]; decide)))), fun bad => ?_⟩
    simp only [State.netChecks_malformed _ _ _ _ bad] at run
    exact congrArg Host.Outcome.next run
  · have run := networkUnbindEffect_eq hx h cam hc zero
    exact ⟨fun none => congrArg Host.Outcome.next (by rw [run, none]; rfl), fun n some => congrArg Host.Outcome.next (by rw [run, some]; rfl)⟩
  · have run := weightLoadEffect_of_net hx active net pair
    exact ⟨fun good => congrArg Host.Outcome.next (run.trans (if_pos good)),
      fun bad => congrArg Host.Outcome.next (run.trans (if_neg (by rw [bad]; decide)))⟩
  · exact congrArg Host.Outcome.next (unitStartEffect_of_none hx active idle none)
  · obtain ⟨bad, run⟩ := unitStartEffect_of_one hx active idle serves one net groups frames
    refine .of_next (congrArg Host.Outcome.next run) ?_
    simp only [State.modSne, State.modCam, Tab.at_mod_same _ _ _ hsn, Tab.at_mod_same _ _ _ hc, net, Option.map_some, Net.modGroup, groups, List.map_cons,
      List.map_nil, ↓reduceIte]
    exact ⟨trivial, trivial, trivial⟩
  · obtain ⟨n', units, groups', run⟩ :=
      unitCompleteEffect_of_timely hx active unit weights buffers cam net on frames num kept path groups index timely stripes first
    have head := frames
    generalize hy : (x.modSne sn fun y => { y with unit := none }).modCam c (fun k =>
        { k.modHead (fun f' => { f' with merged := aSet f'.merged (u.group * f'.stripes + u.stripe) (stripeOutput n.header (x.netImage n)
            (stripeInput n.header (f.raw (x.cams.at c)) u.group u.stripe) (f'.raw k) u.group u.stripe) }) with net := some n' }) = y at run
    have after : y.cams.at c = { (x.cams.at c) with
        frames := { f with merged := aSet f.merged (u.group * f.stripes + u.stripe) (stripeOutput n.header (x.netImage n)
          (stripeInput n.header (f.raw (x.cams.at c)) u.group u.stripe) (f.raw (x.cams.at c)) u.group u.stripe) } :: fs
        net := some n' } := by
      rw [← hy]
      simp only [State.modSne, State.modCam, Tab.at_mod_same _ _ _ hc, Cam.modHead, frames]
    have lower : ¬ u.group * f.stripes + u.stripe = f.returned * f.stripes := by
      have := Nat.mul_lt_mul_of_pos_right before (show 0 < f.stripes by omega)
      omega
    rw [State.returnGroups_of_unmerged (congrArg Cam.frames after) stripes path kept ((aGet_aSet _ _ _ _).trans ((if_neg lower).trans unmerged))] at run
    refine .of_next (congrArg Host.Outcome.next run) ⟨?_, n', _, congrArg Cam.net after, congrArg Cam.frames after, units, groups', rfl⟩
    rw [← hy]
    exact congrArg Sne.unit (Tab.at_mod_same _ _ _ hsn)
  · exact congrArg Host.Outcome.next (unitCompleteEffect_of_late hx active unit weights buffers cam net on frames num kept path groups index late)
  · exact congrArg Host.Outcome.next (sneFaultEffect_of_control hx active works)
  · refine .of_next (congrArg Host.Outcome.next (sneFaultEffect_of_buffers hx active works)) ?_
    have h := State.bufferUe_idle idle
    rw [h.sne, h.cams]
    simp only [State.dropUnit, State.modSne, Tab.at_mod_same _ _ _ hsn]
    exact ⟨trivial, trivial, trivial, trivial⟩
  · have run := (weightReloadEffect_of_one hx active cams net reloading).trans (if_neg (by rw [bad]; decide))
    refine .of_next (congrArg Host.Outcome.next run) ?_
    rw [(State.event_reports _ _ _ _ _ _).sne, (State.event_reports _ _ _ _ _ _).cells]
    simp only [State.modSne, State.modCam, Tab.at_mod_same _ _ _ hsn]
    exact ⟨trivial, trivial, trivial⟩
  · exact congrArg Host.Outcome.next ((weightReloadEffect_of_one hx active cams net reloading).trans (if_pos good))

end

section
/-! The vision engines (chapters 12 and 13): operations, bands, parity errors and check modes. -/
namespace Sys2Proof.Machine
open Sys2Proof

/-! ## The start of an operation (R321, R322) -/

section
variable {s x : State} {t u : Nat} {r : VisRun} {c : Ctx} (hx : s.at t = x) (ready : x.visReady u = some (r, c))
include hx ready

theorem visionStartEffect_of_unread {e : Bytes} {st : Nat} {y : State} (read : x.readElem c r.opsDone = (e, st, y)) (fails : st ≠ 0) :
    visionStartEffect t u s = y.visFault u r.ctx st := by
  simp only [visionStartEffect, hx, ready, read]
  exact if_pos fails

variable {e : Bytes} {y : State} (read : x.readElem c r.opsDone = (e, 0, y)) (direct : vIndirect e = false)
  (reach : x.peerWaits (opRanges u e) = false)
include read direct reach

/-- A descriptor with its PARAM block in place goes on to its extents. -/
theorem visionStartEffect_of_direct :
    visionStartEffect t u s =
      (let st := if x.nodeShut r.ctx (opRanges u e) = true then 0x0301 else y.extentStatus (initVision u) (opExtents u e) (opPieces u e)
       if st ≠ 0 then y.visFault u r.ctx st
       else
         let w := y.readVisTable u e
         if w.2.1 ≠ 0 then w.2.2.visFault u r.ctx w.2.1
         else (w.2.2.readHint u e).2.beginOp u r c e w.1 (w.2.2.readHint u e).1) := by
  have resolved : y.resolveParam u c e = (e, 0, y) := by
    unfold State.resolveParam
    exact if_pos (by rw [direct]; rfl)
  simp only [visionStartEffect, hx, ready, read, resolved, reach, ne_eq, not_true_eq_false, Bool.false_eq_true, ↓reduceIte]

theorem visionStartEffect_of_shut (shut : x.nodeShut r.ctx (opRanges u e) = true) : visionStartEffect t u s = y.visFault u r.ctx 0x0301 := by
  rw [visionStartEffect_of_direct hx ready read direct reach]
  simp only [shut, ↓reduceIte]
  exact if_pos (by decide)

variable (open_ : x.nodeShut r.ctx (opRanges u e) = false)
include open_

theorem visionStartEffect_of_extents (fails : y.extentStatus (initVision u) (opExtents u e) (opPieces u e) ≠ 0) :
    visionStartEffect t u s = y.visFault u r.ctx (y.extentStatus (initVision u) (opExtents u e) (opPieces u e)) := by
  rw [visionStartEffect_of_direct hx ready read direct reach]
  simp only [open_, Bool.false_eq_true, ↓reduceIte]
  exact if_pos fails

theorem visionStartEffect_of_table {tb : Bytes} {st : Nat} {z : State} (clean : y.extentStatus (initVision u) (opExtents u e) (opPieces u e) = 0)
    (table : y.readVisTable u e = (tb, st, z)) :
    visionStartEffect t u s = if st ≠ 0 then z.visFault u r.ctx st else (z.readHint u e).2.beginOp u r c e tb (z.readHint u e).1 := by
  rw [visionStartEffect_of_direct hx ready read direct reach]
  simp only [open_, clean, table, ne_eq, not_true_eq_false, Bool.false_eq_true, ↓reduceIte]

end

/-- The fetch of a band adds to what the engine's run has fetched, and changes nothing else of the run (R94). -/
theorem State.fetchBand_run {y : State} {u : Nat} (k : Nat) (hu : u < 6) {r : VisRun} (run : (y.vis.at u).run = some r) :
    ∃ bufs, ((y.fetchBand u k).vis.at u).run = some { r with bufs := bufs } := by
  unfold State.fetchBand
  simp only [run]
  split
  · exact ⟨_, run⟩
  · split
    · exact ⟨_, run⟩
    · exact ⟨_, by simp only [State.modVis, Tab.at_mod_same _ _ _ hu]; rfl⟩

theorem State.fetchBands_run {P : VisRun → Prop} (keeps : ∀ r bufs, P r → P { r with bufs := bufs }) {u : Nat} (hu : u < 6) (ks : List Nat) {y : State}
    (run : ∃ r, (y.vis.at u).run = some r ∧ P r) : ∃ r, ((ks.foldl (fun s k => s.fetchBand u k) y).vis.at u).run = some r ∧ P r := by
  induction ks generalizing y with
  | nil => exact run
  | cons k ks ih =>
    obtain ⟨r, run, hr⟩ := run
    obtain ⟨b, next⟩ := State.fetchBand_run k hu run
    exact ih ⟨_, next, keeps r b hr⟩

/-- An operation of an image engine runs from its first band, with its table (R322). -/
theorem State.beginOp_run {y : State} {u : Nat} (hu : u < 3) (r : VisRun) (c : Ctx) (d table : Bytes) (hint : Option (Bytes × Nat)) :
    ∃ r', ((y.beginOp u r c d table hint).vis.at u).run = some r' ∧ r'.op = some d ∧ r'.band = 0 ∧ r'.ctx = r.ctx ∧ r'.opsDone = r.opsDone ∧
      r'.table = table := by
  unfold State.beginOp
  simp only [show u < 4 from by omega, show u ≠ 3 from by omega, ↓reduceIte]
  refine State.fetchBands_run (fun _ _ h => h) (by omega) _ ⟨_, congrArg VisUnit.run (Tab.at_mod_same _ _ _ (by omega)), ?_⟩
  exact ⟨rfl, rfl, rfl, rfl, rfl⟩

/-! ## Bands and completion (R323, R340, R341) -/

section
variable {s x : State} {t u : Nat} {r : VisRun} {d : Bytes} {c : Ctx} (hx : s.at t = x) (run : (x.vis.at u).run = some r) (op : r.op = some d)
  (ctx : x.ctx? r.ctx = some c)
include hx run op ctx

theorem visionBandEffect_of_last (last : opBands u d ≤ r.band) (err : ReadErr) : visionBandEffect t u err s = x := by
  simp only [visionBandEffect, hx, run, op, ctx, last, decide_true, Bool.or_true, Bool.true_or, ↓reduceIte]

theorem visionCompleteEffect_of_band (band : r.band < opBands u d) : visionCompleteEffect t u s = x := by
  simp only [visionCompleteEffect, hx, run, op, ctx, band, decide_true, Bool.or_true, ↓reduceIte]

variable (active : x.active = true) (going : c.draining = false)
include active going

theorem visionCompleteEffect_of_last (last : opBands u d ≤ r.band) :
    visionCompleteEffect t u s = (x.closeOp u r c d).modVis u fun y =>
      { y with lastStatus := 0, run := some { r with op := none, opsDone := r.opsDone + 1, table := [], bufs := [] } } := by
  simp only [visionCompleteEffect, hx, run, op, ctx, active, going, Nat.not_lt.mpr last, decide_false, Bool.not_true, Bool.or_self, Bool.false_eq_true,
    ↓reduceIte]

variable (band : r.band < opBands u d) (reach : x.peerWaits (opRanges u d) = false) {f : VisBuf × State} (buf : x.bandBuf u r d = f)
include band reach buf

/-- A word of the band's lines that is uncorrectable ends the node. -/
theorem visionBandEffect_of_struck (bad : f.1.bad = true ∨ ∃ z ∈ f.1.lines, f.2.mayErr z.1 = true) :
    let a := ((f.1.lines.head?).map (·.1)).getD (vSrc d).addr
    visionBandEffect t u .uncorrectable s = ((f.2.strike a).countUncorrectable 0x0902 a u).visFault u r.ctx 0x0308 := by
  have meets : (f.1.lines.any (fun z => f.2.mayErr z.1) || f.1.bad) = true := by
    rw [Bool.or_eq_true, List.any_eq_true]
    exact bad.symm
  simp only [visionBandEffect, hx, run, op, ctx, active, going, reach, buf, Nat.not_le.mpr band, meets, State.noteCorrected, decide_false, Bool.not_true,
    Bool.or_self, Bool.true_and, Bool.false_eq_true, beq_self_eq_true, ↓reduceIte]

theorem visionBandEffect_of_bad (bad : f.1.bad = true) :
    let a := ((f.1.lines.head?).map (·.1)).getD (vSrc d).addr
    visionBandEffect t u .clean s = (f.2.countUncorrectable 0x0902 a u).visFault u r.ctx 0x0308 := by
  have clean : (ReadErr.clean == .uncorrectable) = false := rfl
  simp only [visionBandEffect, hx, run, op, ctx, active, going, reach, buf, Nat.not_le.mpr band, bad, clean, State.noteCorrected, decide_false, Bool.not_true,
    Bool.or_self, Bool.or_true, Bool.false_eq_true, ↓reduceIte]

theorem visionBandEffect_of_written (good : f.1.bad = false) :
    let b := r.nextBand (readBufs [f.1] f.2.peek) u d
    let w := f.2.writeAll (initVision u) b.1
    w.1 = 0 → visionBandEffect t u .clean s =
      (w.2.modVis u fun y => { y with
        run := some { b.2.1 with bufs := if u < 4 then b.2.1.bufs.filter (·.band != r.band) else b.2.1.bufs }
        oversize := satAdd 16 y.oversize b.2.2 }).fetchBand u (r.band + 3) := by
  intro b w lands
  have clean : (ReadErr.clean == .uncorrectable) = false := rfl
  simp only [visionBandEffect, hx, run, op, ctx, active, going, reach, buf, Nat.not_le.mpr band, good, clean, State.noteCorrected, decide_false,
    Bool.not_true, Bool.or_self, Bool.false_and, Bool.false_eq_true, ↓reduceIte]
  exact if_pos lands

end

/-- The next band counts one and stays with its node. -/
theorem VisRun.nextBand_band (r : VisRun) (rd : Reader) (u : Nat) (d : Bytes) :
    (r.nextBand rd u d).2.1.band = r.band + 1 ∧ (r.nextBand rd u d).2.1.ctx = r.ctx := by
  unfold VisRun.nextBand
  split
  · exact ⟨rfl, rfl⟩
  · exact ⟨rfl, rfl⟩

/-! ## Parity errors, self-tests, CHECK_MODE (R341, R355, R363) -/

section
variable {s x : State} {t u p : Nat} (hx : s.at t = x)
include hx

theorem visionParityEffect_of_run {r : VisRun} (active : x.active = true) (hu : u < 6) (works : (x.vis.at u).failed = false)
    (run : (x.vis.at u).run = some r) :
    visionParityEffect t u s = ((x.modVis u fun y => { y with parity := satInc 8 y.parity, selftest := true, lastStatus := 0x0603 }).logError 0x0603 11
      u 3 0 0xFFFF 0 0 0).unitFault r.ctx 0x0603 := by
  simp only [visionParityEffect, hx, active, works, run, Nat.not_le.mpr hu, decide_false, Bool.not_true, Bool.or_self, Bool.false_eq_true, ↓reduceIte]

theorem visionSelftestEffect_of_periodic (active : x.active = true) (test : (x.vis.at u).selftest = true) (own : (x.vis.at u).testPair = none)
    (pass : Bool) :
    visionSelftestEffect t u pass s =
      (let s1 := x.modVis u fun y =>
         if pass = true ∧ 4 ≤ u then ({ y with selftest := false, testPair := none } : VisUnit).enter 3 16
         else { y with selftest := false, testPair := none }
       if pass = true then s1 else (s1.note 0x0604 4 u).loseVision u 0x0604).gateUnused := by
  simp only [visionSelftestEffect, hx, active, test, own, Bool.not_true, Bool.or_self, Bool.false_eq_true, ↓reduceIte]

theorem checkModeEffect_of_request {q : MbxReq} (req : x.req? p 0x0028 = some q) :
    checkModeEffect t p s =
      (let u := fld q.payload 0 1
       if (u ≠ 4 ∧ u ≠ 5) ∨ fld q.payload 1 1 ≠ 0 then x.answer p 0x0107
       else if (x.vis.at u).failed ∨ fld q.payload 2 2 = 0 then x.answer p 0x0609
       else (x.modVis u fun y => y.enter 2 (fld q.payload 2 2)).answer p 0) := by
  simp only [checkModeEffect, hx, req]

end

end Sys2Proof.Machine
end

section
open Sys2Proof Sys2Proof.Machine

/-- Settles O55: an operation by its checks, a band by its buffer, and what a parity error and a test leave. -/
theorem visionEngines : Obligations.VisionEngines := by
  intro s x t u p hx hu
  refine ⟨fun r c e y ready => ⟨fun st fails read => ?_, fun st read direct reach => ⟨fun shut => ?_, fun open_ hst => ⟨fun fails => ?_,
    fun tb st2 z clean table => ?_⟩⟩⟩, fun r d c run op ctx active going => ⟨fun band reach => ⟨fun bad => ?_, fun bad => ?_, fun good => ⟨fun lands => ?_,
    VisRun.nextBand_band _ _ _ _⟩⟩, fun last => ?_, fun band => ?_, fun last => ?_, fun works => ?_⟩, fun test own active => ⟨fun image => ?_, fun flow => ?_,
    ?_⟩, fun q req zero => ⟨fun image => ?_, fun named flow none => ?_, fun named flow some works => ?_⟩⟩
  · exact congrArg Host.Outcome.next (visionStartEffect_of_unread hx ready read fails)
  · exact congrArg Host.Outcome.next (visionStartEffect_of_shut hx ready read direct reach shut)
  · subst hst
    exact congrArg Host.Outcome.next (visionStartEffect_of_extents hx ready read direct reach open_ fails)
  · have start := visionStartEffect_of_table hx ready read direct reach open_ (hst.symm.trans clean) table
    refine ⟨fun fails => congrArg Host.Outcome.next (start.trans (if_pos fails)),
      fun good => congrArg Host.Outcome.next (start.trans (if_neg (not_not_intro good))), fun good image => ?_⟩
    exact .of_next (congrArg Host.Outcome.next (start.trans (if_neg (not_not_intro good)))) (State.beginOp_run image _ _ _ _ _)
  · exact congrArg Host.Outcome.next (visionBandEffect_of_struck hx run op ctx active going band reach rfl bad)
  · exact congrArg Host.Outcome.next (visionBandEffect_of_bad hx run op ctx active going band reach rfl bad)
  · exact congrArg Host.Outcome.next (visionBandEffect_of_written hx run op ctx active going band reach rfl good lands)
  · exact congrArg Host.Outcome.next (visionBandEffect_of_last hx run op ctx last .clean)
  · exact congrArg Host.Outcome.next (visionCompleteEffect_of_band hx run op ctx band)
  · exact congrArg Host.Outcome.next (visionCompleteEffect_of_last hx run op ctx active going last)
  · exact congrArg Host.Outcome.next (visionParityEffect_of_run hx active hu works run)
  · refine congrArg Host.Outcome.next ((visionSelftestEffect_of_periodic hx active test own true).trans ?_)
    simp only [Nat.not_le.mpr image, and_false, ↓reduceIte]
  · refine congrArg Host.Outcome.next ((visionSelftestEffect_of_periodic hx active test own true).trans ?_)
    simp only [flow, and_self, ↓reduceIte]
  · refine congrArg Host.Outcome.next ((visionSelftestEffect_of_periodic hx active test own false).trans ?_)
    simp only [Bool.false_eq_true, false_and, ↓reduceIte]
  · exact congrArg Host.Outcome.next ((checkModeEffect_of_request hx req).trans (if_pos (.inl (by omega))))
  · have known : ¬ ((fld q.payload 0 1 ≠ 4 ∧ fld q.payload 0 1 ≠ 5) ∨ fld q.payload 1 1 ≠ 0) := by omega
    exact congrArg Host.Outcome.next ((checkModeEffect_of_request hx req).trans ((if_neg known).trans (if_pos (.inr none))))
  · have known : ¬ ((fld q.payload 0 1 ≠ 4 ∧ fld q.payload 0 1 ≠ 5) ∨ fld q.payload 1 1 ≠ 0) := by omega
    subst named
    exact congrArg Host.Outcome.next ((checkModeEffect_of_request hx req).trans ((if_neg known).trans (if_neg (by
      rintro (failed | none)
      · exact Bool.false_ne_true (works.symm.trans failed)
      · exact some none))))

end

section
/-! Graphs that come, are parked, come back and leave (R38 to R41, R380, R383, R488). -/
namespace Sys2Proof.Machine
open Sys2Proof

/-! ## Admission (R383, R488) -/

section
variable {x : State} {p id : Nat} {v : AdmitPlan × AdmitVerdict} {after : State → State}

theorem State.finishAdmit_of_failed (fails : v.2.status ≠ 0) : x.finishAdmit p v id after = x.answerAdmit p v.2 0 v.1 := if_pos fails

theorem State.finishAdmit_of_gated (passes : v.2.status = 0) (gated : ∃ u ∈ v.1.gates, x.gated u = true) :
    x.finishAdmit p v id after = x.beginUngate v.1.gates := by
  unfold State.finishAdmit
  rw [if_neg (not_not_intro passes), if_pos (List.any_eq_true.mpr gated)]

theorem State.finishAdmit_of_open (passes : v.2.status = 0) (opened : ∀ u ∈ v.1.gates, x.gated u = false) :
    x.finishAdmit p v id after = (after (x.install v.1 id)).answerAdmit p v.2 id v.1 := by
  have none : ¬ v.1.gates.any x.gated = true := by
    rw [List.any_eq_true]
    rintro ⟨u, hu, gated⟩
    exact Bool.false_ne_true ((opened u hu).symm.trans gated)
  unfold State.finishAdmit
  rw [if_neg (not_not_intro passes), if_neg none]

end

section
variable {s x : State} {t p : Nat} {r : MbxReq} (hx : s.at t = x)
include hx

section
variable (req : x.req? p 0x0010 = some r) (image : GraphImage)
include req

theorem graphAdmitEffect_of_invalid (bad : admitReqBad r.payload = true) : graphAdmitEffect t p image s = x.answer p 0x0107 := by
  simp only [graphAdmitEffect, hx, req, bad, Bool.true_or, ↓reduceIte]

theorem graphAdmitEffect_of_valid (good : admitReqBad r.payload = false) (maps : mapsOk (fld r.payload 0x0C 4) (fld r.payload 0x10 8) image = true) :
    let y := mapImage (fld r.payload 0x0C 4) (fld r.payload 0x10 8) x.straps.module image
    graphAdmitEffect t p image s =
      x.finishAdmit p (x.admitGraph y (bit (fld r.payload 0x18 1) 0) none (imageCtxs y)) x.freeGraphId id := by
  simp only [graphAdmitEffect, hx, req, good, maps, Bool.not_true, Bool.or_self, Bool.false_eq_true, ↓reduceIte]

end

/-! ## Park, restore and stop (R41, R380) -/

section
variable (hf : Bool) (req : x.req? p 0x0011 = some r) (flags : bits (fld r.payload 1 1) 1 7 = 0) (free : fld r.payload 2 2 = 0)
  (addr : bits (fld r.payload 8 8) 40 24 = 0)
include req flags free addr

theorem graphParkEffect_of_none (none : aGet x.bf.graphs (fld r.payload 0 1) = none) : graphParkEffect t p hf s = x.answer p 0x0203 := by
  simp only [graphParkEffect, hx, req, flags, free, addr, none, ne_eq, not_true_eq_false, or_self, ↓reduceIte]

variable {q : Graph} (graph : aGet x.bf.graphs (fld r.payload 0 1) = some q) (placed : q.parked = false)
include graph placed

/-- A park of an admitted graph: its save region, then its instances in flight. -/
theorem graphParkEffect_of_graph :
    graphParkEffect t p hf s =
      (let g := fld r.payload 0 1
       let y := x.modGraph g fun q => { q with saved := some (fld r.payload 8 8, fld r.payload 4 4) }
       if (!x.saveRegionOk q (fld r.payload 8 8) (fld r.payload 4 4)) = true then x.answer p 0x0107
       else if (!q.inFlight) = true then (y.evictGraph g p hf).gateUnused
       else if bit (fld r.payload 1 1) 0 = true then (y.modGraph g fun q => { q with drain := .park p }).startReq p
       else x.answer p 0x0210) := by
  simp only [graphParkEffect, hx, req, flags, free, addr, graph, placed, ne_eq, not_true_eq_false, or_self, Bool.false_eq_true, ↓reduceIte]

end

section
variable (req : x.req? p 0x0012 = some r) (zero : allZero (sub r.payload 1 3) = true) {q : Graph}
  (graph : aGet x.bf.graphs (fld r.payload 0 1) = some q)
include req zero graph

theorem graphRestoreEffect_of_placed (placed : q.parked = false) : graphRestoreEffect t p s = x.answer p 0x0203 := by
  simp only [graphRestoreEffect, hx, req, zero, graph, placed, Bool.not_true, Bool.false_eq_true, ↓reduceIte]

theorem graphRestoreEffect_of_saved {a n : Nat} {b : Bytes} {y : State} (parked : q.parked = true) (saved : q.saved = some (a, n))
    (read : x.read initFirmware a (256 * q.image.contexts.length + 2 * q.image.beacons.length) = (b, 0, y)) :
    graphRestoreEffect t p s = y.finishAdmit p (y.admitGraph q.image q.bestEffort (some (fld r.payload 0 1)) (restoredCtxs q.image b))
      (fld r.payload 0 1) fun z => (z.restoreValues q.image b).modGraph (fld r.payload 0 1) fun q => { q with saved := none } := by
  simp only [graphRestoreEffect, hx, req, zero, graph, parked, saved, read, ne_eq, not_true_eq_false, Bool.not_true, Bool.false_eq_true, ↓reduceIte]

end

section
variable (req : x.req? p 0x0013 = some r) (flags : bits (fld r.payload 1 1) 1 7 = 0) (free : fld r.payload 2 2 = 0)
include req flags free

theorem graphStopEffect_of_none (none : aGet x.bf.graphs (fld r.payload 0 1) = none) : graphStopEffect t p s = x.answer p 0x0203 := by
  simp only [graphStopEffect, hx, req, flags, free, none, ne_eq, not_true_eq_false, or_self, ↓reduceIte]

theorem graphStopEffect_of_drain {q : Graph} (graph : aGet x.bf.graphs (fld r.payload 0 1) = some q) (drain : bit (fld r.payload 1 1) 0 = true) :
    graphStopEffect t p s = if (q.parked || !q.inFlight) = true then ((x.removeGraph (fld r.payload 0 1)).gateUnused).answer p 0
      else (x.modGraph (fld r.payload 0 1) fun q => { q with drain := .stop p }).startReq p := by
  simp only [graphStopEffect, hx, req, flags, free, graph, drain, ne_eq, not_true_eq_false, or_self, ↓reduceIte]

end

end

end Sys2Proof.Machine
end

section
open Sys2Proof Sys2Proof.Machine

/-- Settles O56: a graph is admitted by its checks, parked and stopped by what it has in flight, and restored from its save region. -/
theorem graphsComeAndGo : Obligations.GraphsComeAndGo := by
  intro s x t p g hf r hx
  refine ⟨fun req image => ⟨fun bad => ?_, fun good maps => ⟨fun fails => ?_, fun passes opened => ?_, fun passes gated => ?_⟩⟩,
    fun req named flags free addr => ?_, fun req named zero q graph => ?_, fun req named flags free => ?_⟩
  · exact congrArg Host.Outcome.next (graphAdmitEffect_of_invalid hx req image bad)
  · exact congrArg Host.Outcome.next ((graphAdmitEffect_of_valid hx req image good maps).trans (State.finishAdmit_of_failed fails))
  · exact congrArg Host.Outcome.next ((graphAdmitEffect_of_valid hx req image good maps).trans (State.finishAdmit_of_open passes opened))
  · exact congrArg Host.Outcome.next ((graphAdmitEffect_of_valid hx req image good maps).trans (State.finishAdmit_of_gated passes gated))
  · subst named
    refine ⟨fun none => congrArg Host.Outcome.next (graphParkEffect_of_none hx hf req flags free addr none), fun q graph placed => ?_⟩
    have run := graphParkEffect_of_graph hx hf req flags free addr graph placed
    refine ⟨fun short => congrArg Host.Outcome.next (run.trans (if_pos (by rw [short]; rfl))), fun serves => ?_⟩
    have run := run.trans (if_neg (by rw [serves]; decide))
    exact ⟨fun idle => congrArg Host.Outcome.next (run.trans (if_pos (by rw [idle]; rfl))),
      fun flight now => congrArg Host.Outcome.next (run.trans ((if_neg (by rw [flight]; decide)).trans (if_neg (by rw [now]; decide)))),
      fun flight drain => congrArg Host.Outcome.next (run.trans ((if_neg (by rw [flight]; decide)).trans (if_pos drain)))⟩
  · subst named
    refine ⟨fun placed => congrArg Host.Outcome.next (graphRestoreEffect_of_placed hx req zero graph placed), fun a n b y parked saved read => ?_⟩
    have run := graphRestoreEffect_of_saved hx req zero graph parked saved read
    exact ⟨fun fails => congrArg Host.Outcome.next (run.trans (State.finishAdmit_of_failed fails)),
      fun passes opened => congrArg Host.Outcome.next (run.trans (State.finishAdmit_of_open passes opened))⟩
  · subst named
    refine ⟨fun none => congrArg Host.Outcome.next (graphStopEffect_of_none hx req flags free none), fun q graph drain => ?_⟩
    have run := graphStopEffect_of_drain hx req flags free graph drain
    exact ⟨fun idle => congrArg Host.Outcome.next (run.trans (if_pos (by rw [idle, Bool.or_eq_true]; exact .inr rfl))),
      fun flight placed => congrArg Host.Outcome.next (run.trans (if_neg (by rw [flight, placed]; decide)))⟩

end

section
/-! The host's link unit to the field die (R415, R420, R425 to R428). -/
namespace Sys2Proof.Machine
open Sys2Proof

/-! ## Good frames from Lantern (R415, R420, R427) -/

/-- A good frame of a type that the command takes is accepted and acts. -/
theorem State.onReceive_of_good {x : State} {f : Bytes} {mine : Bool} {eff : State → State} (on : x.fieldOn = true) (good : frameVerdict false f = .good)
    (type : mine = true) : x.onReceive f mine eff = eff (x.fieldAccept f) := by
  unfold State.onReceive
  exact if_pos (by rw [on, good, type]; rfl)

/-- The status of a motor channel with no status address is kept by the link unit alone. -/
theorem State.fieldStatus_motor {y : State} {f : Bytes} (motor : fType f = 0x81) (silent : (y.field.chans.at (fChan f)).statusAddr = 0) :
    y.fieldStatus f = y.modFChan (fChan f) fun c => { c with state := fld f 0x12 1, status := f } := by
  simp only [State.fieldStatus, motor, silent, ↓reduceIte]

/-- An acknowledgement for no channel, with no frame in progress, does nothing more. -/
theorem State.fieldAck_idle {y : State} {f : Bytes} (good : fld f 0xA 2 = 0) (link : fChan f = 7) (idle : y.field.jobs = []) : y.fieldAck f = y := by
  simp only [State.fieldAck, good, link, idle, show ¬ 7 < 6 from by decide, ↓reduceIte]

/-- A refusal that answers the last frame of the link's own job ends it. -/
theorem State.fieldAck_refused {y : State} {f g : Bytes} {j : FieldJob} (bad : fld f 0xA 2 ≠ 0) (link : fChan f = 7) (jobs : y.field.jobs = [j])
    (frames : j.frames = [g]) (token : sub f 8 1 = sub g 9 1) (type : fld f 9 1 = fType g) (chan : fChan g = 7) :
    y.fieldAck f = (y.fieldNote (fld f 0xA 2)).endJob (if j.status = 0 then fld f 0xA 2 else j.status) := by
  have kept : (y.fieldNote (fld f 0xA 2)).field.jobs = [j] := jobs
  simp only [State.fieldAck, bad, link, kept, frames, token, type, chan, show ¬ 7 < 6 from by decide, and_self, ne_eq, not_true_eq_false, ↓reduceIte]

theorem State.fieldEvent_channel {y : State} {f : Bytes} (chan : fChan f < 6) :
    y.fieldEvent f = (((y.modFChan (fChan f) fun c => c.countEvent (fld f 8 2) (fld f 0xA 1)).fieldNote (fld f 8 2)).event (fld f 8 2) 8 (fChan f) [52]
      (sub f 8 16)) := by
  simp only [State.fieldEvent, chan, ↓reduceIte]

/-- A LINK_STATUS without BOOT and without a failed self-test, on a link that is up, asks for nothing. -/
theorem State.linkStatus_quiet {y : State} {f : Bytes} (boot : bit (fld f 8 1) 0 = false) (fail : bit (fld f 8 1) 1 = false) (up : y.field.up = true) :
    y.linkStatus f = (y.modField fun z =>
      { z with up := true, lost := false, boot := false, selftestFail := false, vfieldMv := fld f 0xA 2 }).updateHealth := by
  simp only [State.linkStatus, boot, fail, up, Bool.false_and, Bool.false_or, Bool.not_true, Bool.false_eq_true, ↓reduceIte]

/-! ## Records and requests (R425, R426, R428) -/

section
variable {s x : State} {t : Nat} (hx : s.at t = x) {q : FieldRun} {c : Ctx}
include hx

theorem execFieldRecordSend_of_one (active : x.active = true) (runs : x.field.runs = [q]) (ctx : x.ctx? q.ctx = some c) (state : c.state = .running)
    (going : c.draining = false) (left : q.sent < c.workCount) : execFieldRecordSend t s = .next (x.sendRecord q c) := by
  have run : (NodeState.running == .running) = true := rfl
  simp only [execFieldRecordSend, hx, active, runs, ctx, state, going, left, run, List.findSome?_cons, Option.bind_some, Bool.not_false, Bool.and_self,
    decide_true, ↓reduceIte]

theorem execFieldFrameDiscard_host (f : Bytes) (on : x.fieldOn = true) :
    execFieldFrameDiscard t false f s = .next { x with field := x.field.countBad (frameVerdict false f) } := by
  simp only [execFieldFrameDiscard, hx, on, Bool.false_eq_true, ↓reduceIte]

theorem execFieldFrameDiscard_lantern (f : Bytes) (stage : x.lantern.stage = .running) :
    execFieldFrameDiscard t true f s = .next { x with lantern := x.lantern.countBad (frameVerdict true f) } := by
  simp only [execFieldFrameDiscard, hx, stage, beq_self_eq_true, ↓reduceIte]

theorem execFieldLinkDown_eq (on : x.fieldOn = true) (up : x.field.up = true) :
    execFieldLinkDown t s = .next (if x.field.lastGood + 5000000 ≤ x.now ∨ 16 ≤ x.field.crcRun then x.fieldLost else x) := by
  simp only [execFieldLinkDown, hx, on, up, Bool.true_and, decide_eq_true_eq]

theorem execFieldAckTimeout_of_job {j : FieldJob} {js : List FieldJob} (jobs : x.field.jobs = j :: js) (on : x.fieldOn = true) :
    execFieldAckTimeout t s = .next (if j.sentAt + 100000 ≤ x.now then if j.tries < 3 then x.sendHead else (x.fieldNote 0x0804).endJob 0x0804 else x) := by
  simp only [execFieldAckTimeout, hx, jobs, on, Bool.true_and, decide_eq_true_eq]

end

section
variable {x y : State} {q : FieldRun} {c : Ctx} {b : Bytes} (read : x.readElem c q.sent = (b, 0, y))
include read

theorem State.sendRecord_of_bad (bad : recordOk b = false) : x.sendRecord q c = (y.fieldNote 0x080B).unitFault q.ctx 0x080B := by
  simp only [State.sendRecord, read, bad, Bool.not_false, ne_eq, not_true_eq_false, ↓reduceIte]

theorem State.sendRecord_of_good (good : recordOk b = true) :
    x.sendRecord q c = (y.fieldSend (fType b) (fChan b) (sub b 8 20)).modField fun z =>
      { z with runs := z.runs.map fun w => if w.ctx = q.ctx then { w with sent := w.sent + 1, tLast := x.dev } else w } := by
  simp only [State.sendRecord, read, good, Bool.not_true, Bool.false_eq_true, ne_eq, not_true_eq_false, ↓reduceIte]

end

theorem State.fieldReq_of_kind {x : State} {p kind : Nat} {r : MbxReq} {f : Bytes → State → State} (req : x.req? p 0x0060 = some r)
    (good : fieldReqBad r.payload = false) (same : fld r.payload 0 1 = kind) : x.fieldReq p kind f = f r.payload x := by
  simp only [State.fieldReq, req, good, same, Bool.false_eq_true, ↓reduceIte]

/-- With no field-message node in progress the loss of the link changes the link unit, and reports. -/
theorem State.fieldLost_idle {x : State} (idle : x.field.runs = []) :
    (x.modField fun z => { z with up := false, lost := true, lastStatus := 0x0801 }).Reports x.fieldLost := by
  have told := State.event_reports (x.modField fun z => { z with up := false, lost := true, lastStatus := 0x0801 }) 0x0801 8 0xFF [52] []
  have none : ((x.modField fun z => { z with up := false, lost := true, lastStatus := 0x0801 }).event 0x0801 8 0xFF [52]).field.runs = [] := by
    rw [told.field]
    exact idle
  simp only [State.fieldLost, none, List.map_nil, List.foldl_nil]
  exact told.trans (State.updateHealth_reports _)

end Sys2Proof.Machine
end

section
open Sys2Proof Sys2Proof.Machine

/-- Settles O58: what each good frame does, the retries and the loss of the link, records, and the requests of FIELD_CONFIG. -/
theorem fieldLinkKept : Obligations.FieldLinkKept := by
  intro s x t p ch f r hx
  have received := fun {mine : Bool} {eff : State → State} (on : x.fieldOn = true) (good : frameVerdict false f = .good) (type : mine = true) =>
    (congrArg (fun z : State => z.onReceive f mine eff) hx).trans (State.onReceive_of_good on good type)
  refine ⟨fun on good => ⟨fun motor chan hch silent => ?_, fun ack status link idle => ?_, fun j g ack status link jobs frames token type chan => ?_,
    fun event chan hch => ?_, fun link boot fail up ok => ?_⟩, fun v verdict bad on => ?_, fun v verdict stage => ?_, fun j js jobs on => ?_, fun on up => ?_,
    fun q c b y active runs ctx state going left read => ?_, fun req good chan => ?_⟩
  · have run := (received (eff := fun z => z.fieldStatus f) (mine := fType f == 0x81 || fType f == 0x82) on good (by rw [motor]; rfl)).trans
      (State.fieldStatus_motor motor (by rw [chan]; exact silent))
    refine .of_next (congrArg Host.Outcome.next run) ?_
    subst chan
    simp only [State.modFChan, State.modField, State.fieldAccept, Tab.at_mod_same _ _ _ hch]
    exact ⟨trivial, trivial, trivial, trivial, trivial, trivial⟩
  · exact congrArg Host.Outcome.next ((received on good (by rw [ack]; rfl)).trans (State.fieldAck_idle status link idle))
  · exact congrArg Host.Outcome.next ((received on good (by rw [ack]; rfl)).trans (State.fieldAck_refused status link jobs frames token type chan))
  · subst chan
    exact congrArg Host.Outcome.next ((received on good (by rw [event]; rfl)).trans (State.fieldEvent_channel hch))
  · have run := (received (eff := fun z => z.linkStatus f) (mine := fType f == 0x92) on good (by rw [link]; rfl)).trans (State.linkStatus_quiet boot fail up)
    refine .of_next (congrArg Host.Outcome.next run) ?_
    rw [(State.updateHealth_reports _).field]
    exact ⟨rfl, rfl, rfl, rfl, rfl⟩
  · subst verdict
    exact execFieldFrameDiscard_host hx f on
  · subst verdict
    exact execFieldFrameDiscard_lantern hx f stage
  · have run := execFieldAckTimeout_of_job hx jobs on
    exact ⟨fun early => run.trans (congrArg _ (if_neg (by omega))), fun due again => run.trans (congrArg _ ((if_pos due).trans (if_pos again))),
      fun due spent => run.trans (congrArg _ ((if_pos due).trans (if_neg (by omega))))⟩
  · have run := execFieldLinkDown_eq hx on up
    refine ⟨fun recent few => run.trans (congrArg _ (if_neg (by omega))), fun lost idle => .of_next (run.trans (congrArg _ (if_pos lost))) ?_⟩
    have h := State.fieldLost_idle idle
    rw [h.field, h.lantern]
    exact ⟨rfl, rfl, rfl, rfl⟩
  · have run := execFieldRecordSend_of_one hx active runs ctx state going left
    exact ⟨fun bad => run.trans (congrArg _ (State.sendRecord_of_bad read bad)), fun ok => run.trans (congrArg _ (State.sendRecord_of_good read ok))⟩
  · subst chan
    have asked := fun {kind : Nat} {eff : Bytes → State → State} (same : fld r.payload 0 1 = kind) =>
      (congrArg (fun z : State => z.fieldReq p kind eff) hx).trans (State.fieldReq_of_kind req good same)
    exact ⟨fun kind => congrArg Host.Outcome.next (asked kind), fun kind => congrArg Host.Outcome.next (asked kind),
      fun kind => congrArg Host.Outcome.next (asked kind)⟩

end

section
/-! Lantern, the field die: frames, trips and the loop step (R412, R415 to R423, R427). -/
namespace Sys2Proof.Machine
open Sys2Proof

/-! ## Sending changes Lantern's next SEQ alone (R415) -/

/-- From `s` to `s'` Lantern at most sends frames. -/
def State.Says (s s' : State) : Prop := { s'.lantern with txSeq := s.lantern.txSeq } = s.lantern

namespace State.Says

theorem of_eq {s s' : State} (h : s'.lantern = s.lantern) : s.Says s' := by
  unfold State.Says
  rw [h]

theorem trans {a b c : State} (h : a.Says b) (k : b.Says c) : a.Says c := by
  unfold State.Says at h k ⊢
  exact (congrArg (fun z : Lantern => { z with txSeq := a.lantern.txSeq }) k).trans h

theorem chans {a b : State} (h : a.Says b) : b.lantern.chans = a.lantern.chans := (congrArg Lantern.chans h :)
theorem rxSeq {a b : State} (h : a.Says b) : b.lantern.rxSeq = a.lantern.rxSeq := (congrArg Lantern.rxSeq h :)
theorem boot {a b : State} (h : a.Says b) : b.lantern.boot = a.lantern.boot := (congrArg Lantern.boot h :)
theorem step {a b : State} (h : a.Says b) : b.lantern.step = a.lantern.step := (congrArg Lantern.step h :)
theorem stage {a b : State} (h : a.Says b) : b.lantern.stage = a.lantern.stage := (congrArg Lantern.stage h :)
theorem lchan {a b : State} (h : a.Says b) (j : Nat) : b.lchan j = a.lchan j := congrArg (Tab.at · j) h.chans

end State.Says

theorem State.lanternSend_says (s : State) (type chan : Nat) (payload : Bytes) : s.Says (s.lanternSend type chan payload) := rfl

theorem State.intField_rest (s : State) (n : Nat) (v : Int) : { (s.intField n v).2 with fresh := s.fresh } = s := by
  unfold State.intField
  split
  · rfl
  · rfl

theorem State.intField_out (s : State) (n : Nat) (v : Int) : (s.intField n v).2.out = s.out := (congrArg State.out (s.intField_rest n v) :)

theorem State.intField_lantern (s : State) (n : Nat) (v : Int) : (s.intField n v).2.lantern = s.lantern := (congrArg State.lantern (s.intField_rest n v) :)

theorem State.wholeOf_rest (s : State) (num : Int) (den : Nat) : { (s.wholeOf num den).2 with fresh := s.fresh } = s := by
  unfold State.wholeOf
  split
  · rfl
  · rfl

theorem State.lanternEvent_says (s : State) (ch status : Nat) : s.Says (s.lanternEvent ch status) := by
  have h : s.Says (s.eventPosition ch).2 := by
    unfold State.eventPosition
    split
    · exact .of_eq ((congrArg State.lantern (s.intField_rest _ _) :))
    · exact .of_eq rfl
  exact h.trans (State.lanternSend_says _ _ _ _)

theorem State.lanternAck_says (s : State) (f : Bytes) (status : Nat) : s.Says (s.lanternAck f status) := by
  unfold State.lanternAck
  split
  · exact State.lanternSend_says _ _ _ _
  · exact State.lanternSend_says _ _ _ _

/-! ## The states of a channel (R418, R419) -/

theorem ChanState.tripable_iff {st : ChanState} : st.tripable = true ↔ st = .armed ∨ st = .run ∨ st = .ramp := by
  cases st <;> simp [ChanState.tripable]

theorem ChanState.not_tripable_iff {st : ChanState} : st.tripable = false ↔ st = .off ∨ st = .tripped := by
  cases st <;> simp [ChanState.tripable]

/-! ## A channel after a change (R418, R419) -/

theorem State.lchan_modLChan (s : State) (ch j : Nat) (f : LChan → LChan) :
    (s.modLChan ch f).lchan j = if ch = j ∧ ch < 6 then f (s.lchan ch) else s.lchan j := Tab.at_mod _ _ _ _

theorem State.lchan_modLChan_same {s : State} {ch : Nat} (f : LChan → LChan) (h : ch < 6) : (s.modLChan ch f).lchan ch = f (s.lchan ch) :=
  Tab.at_mod_same _ _ _ h

theorem State.lchan_modLChan_other {s : State} {ch j : Nat} (f : LChan → LChan) (h : j ≠ ch) : (s.modLChan ch f).lchan j = s.lchan j :=
  Tab.at_mod_other _ _ _ _ h.symm

theorem State.lchan_emit (s : State) (o : Output) (j : Nat) : (s.emit o).lchan j = s.lchan j := rfl

/-- A trip puts a channel to rest, and no other (R419). -/
theorem State.tripChan_of_tripable {s : State} {ch : Nat} (status : Nat) (h : ch < 6) (live : (s.lchan ch).state.tripable = true) :
    (s.modLChan ch fun c => c.rest .tripped).Says (s.tripChan ch status) := by
  unfold State.tripChan
  rw [if_pos (by rw [live, decide_eq_true h]; rfl)]
  exact State.lanternEvent_says _ _ _

theorem State.tripChan_of_not {s : State} {ch : Nat} (status : Nat) (still : (s.lchan ch).state.tripable = false) : s.tripChan ch status = s := by
  unfold State.tripChan
  exact if_neg (by rw [still, Bool.false_and]; decide)

theorem State.tripChan_state (s : State) {ch : Nat} (status : Nat) (h : ch < 6) (j : Nat) :
    ((s.tripChan ch status).lchan j).state = if j = ch ∧ (s.lchan j).state.tripable = true then .tripped else (s.lchan j).state := by
  cases live : (s.lchan ch).state.tripable with
  | false =>
    rw [State.tripChan_of_not status live, if_neg]
    rintro ⟨rfl, on⟩
    exact Bool.false_ne_true (live.symm.trans on)
  | true =>
    rw [(State.tripChan_of_tripable status h live).lchan, State.lchan_modLChan]
    by_cases same : ch = j
    · subst same
      rw [if_pos ⟨rfl, h⟩, if_pos ⟨rfl, live⟩]
      rfl
    · rw [if_neg fun e => same e.1, if_neg fun e => same e.1.symm]

/-- Trips of a list of channels, one after another. -/
theorem State.tripAll_state (status : Nat) (chs : List Nat) (h : ∀ ch ∈ chs, ch < 6) (s : State) (j : Nat) :
    ((chs.foldl (fun s ch => s.tripChan ch status) s).lchan j).state =
      if j ∈ chs ∧ (s.lchan j).state.tripable = true then .tripped else (s.lchan j).state := by
  induction chs generalizing s with
  | nil => exact (if_neg fun e => absurd e.1 List.not_mem_nil).symm
  | cons ch chs ih =>
    rw [List.foldl_cons, ih (fun c hc => h c (List.mem_cons_of_mem _ hc)), State.tripChan_state s status (h ch List.mem_cons_self)]
    by_cases same : j = ch ∧ (s.lchan j).state.tripable = true
    · rw [if_pos same, if_neg (show ¬ (j ∈ chs ∧ ChanState.tripped.tripable = true) from fun e => Bool.false_ne_true e.2),
        if_pos ⟨same.1 ▸ List.mem_cons_self, same.2⟩]
    · rw [if_neg same]
      refine ite_of_iff (and_congr_left fun live => ?_)
      rw [List.mem_cons, or_iff_right fun e => same ⟨e, live⟩]

/-- An over-current stays with the channel that it trips. -/
theorem State.overcurrent_of_tripable {s : State} {ch : Nat} (h : ch < 6) (live : (s.lchan ch).state.tripable = true) :
    let s' := (s.modLChan ch fun c => { c with overs := true }).tripChan ch 0x0806
    (s'.lchan ch).state = .tripped ∧ (s'.lchan ch).enable = false ∧ (s'.lchan ch).overs = true ∧ ∀ j, j ≠ ch → s'.lchan j = s.lchan j := by
  have kept : ((s.modLChan ch fun c => { c with overs := true }).lchan ch).state.tripable = true := by
    rw [State.lchan_modLChan_same _ h]
    exact live
  have trip := State.tripChan_of_tripable 0x0806 h kept
  dsimp only
  rw [trip.lchan, State.lchan_modLChan_same _ h, State.lchan_modLChan_same _ h]
  refine ⟨rfl, rfl, rfl, fun j other => ?_⟩
  rw [trip.lchan, State.lchan_modLChan_other _ other, State.lchan_modLChan_other _ other]

/-- The watchdog of a channel in RUN that has had no set-point in time takes it to RAMP, and no other (R418). -/
theorem State.checkWatchdog_of_late {s : State} {ch : Nat} (h : ch < 6) (run : (s.lchan ch).state = .run)
    (late : (s.lchan ch).lastSet + (s.lchan ch).watchdog ≤ s.now) :
    (s.checkWatchdog ch).lchan ch = { s.lchan ch with state := .ramp } ∧ ∀ j, j ≠ ch → (s.checkWatchdog ch).lchan j = s.lchan j := by
  have expired : (s.lchan ch).expired s.now = true := by
    unfold LChan.expired
    rw [run, decide_eq_true late]
    rfl
  have told := State.lanternEvent_says (s.modLChan ch fun c => { c with state := .ramp }) ch 0x0809
  unfold State.checkWatchdog
  rw [if_pos expired, told.lchan]
  exact ⟨State.lchan_modLChan_same _ h, fun j other => (told.lchan j).trans (State.lchan_modLChan_other _ other)⟩

/-- A limit that is not blocked yet blocks its channel and trips it. -/
theorem State.limitTrip_of_tripable {s : State} {ch : Nat} (h : ch < 6) (live : (s.lchan ch).state.tripable = true) (clear : (s.lchan ch).blockP = false) :
    (s.limitTrip ch true).lchan ch = ({ s.lchan ch with blockP := true } : LChan).rest .tripped ∧ ∀ j, j ≠ ch → (s.limitTrip ch true).lchan j = s.lchan j := by
  have kept : ((s.modLChan ch fun c => { c with blockP := true }).lchan ch).state.tripable = true := by
    rw [State.lchan_modLChan_same _ h]
    exact live
  have trip := State.tripChan_of_tripable 0x0805 h kept
  unfold State.limitTrip
  simp only [live, clear, Bool.not_true, Bool.or_self, Bool.false_eq_true, ↓reduceIte]
  refine ⟨?_, fun j other => ?_⟩
  · rw [trip.lchan, State.lchan_modLChan_same _ h, State.lchan_modLChan_same _ h]
  · rw [trip.lchan, State.lchan_modLChan_other _ other, State.lchan_modLChan_other _ other]

/-! ## Frames that Lantern accepts (R415, R418, R420) -/

/-- A frame of a running Lantern that the link unit has sent is accepted and acts. -/
theorem State.onFrame_of_sent {x : State} {f : Bytes} {mine : Bool} {eff : State → State} (stage : x.lantern.stage = .running) (sent : f ∈ x.field.sent)
    (good : frameVerdict true f = .good) (type : mine = true) : x.onFrame f mine eff = eff (x.acceptFrame f) := by
  unfold State.onFrame
  exact if_pos (by rw [stage, good, type, List.contains_iff_mem.mpr sent]; rfl)

theorem State.onFrame_of_unsent {x : State} {f : Bytes} {mine : Bool} {eff : State → State} (unsent : f ∉ x.field.sent) : x.onFrame f mine eff = x := by
  unfold State.onFrame
  exact if_neg fun h => by
    simp only [Bool.and_eq_true, List.contains_iff_mem] at h
    exact unsent h.1.1.2

theorem State.takeSetpoint_of_tripable {y : State} {ch : Nat} (live : (y.lchan ch).state.tripable = true) (sp : Setpoint) :
    y.takeSetpoint ch sp = y.modLChan ch fun c => { c with pending := sp :: (c.pending.filter fun x => x.arrived < y.now).take 1, lastSet := y.now } := by
  rcases ChanState.tripable_iff.mp live with e | e | e
  all_goals simp only [State.takeSetpoint, e]

/-- A set-point for a channel at rest is counted; the event about it changes only what is sent and its time. -/
theorem State.takeSetpoint_of_resting {y : State} {ch : Nat} (h : ch < 6) (rest : (y.lchan ch).state.tripable = false) (sp : Setpoint) :
    ∃ last, (y.takeSetpoint ch sp).lchan ch = { y.lchan ch with discards := (y.lchan ch).discards + 1, lastDiscard := last } := by
  have discards : y.takeSetpoint ch sp = if (y.lchan ch).lastDiscard.all fun d => decide (d + 1000000000 ≤ y.now) then
      ((y.modLChan ch fun c => { c with discards := c.discards + 1 }).modLChan ch fun c => { c with lastDiscard := some y.now }).lanternEvent ch 0x080C
      else y.modLChan ch fun c => { c with discards := c.discards + 1 } := by
    rcases ChanState.not_tripable_iff.mp rest with e | e
    all_goals simp only [State.takeSetpoint, e]
  rw [discards]
  split
  · exact ⟨_, by rw [(State.lanternEvent_says _ _ _).lchan, State.lchan_modLChan_same _ h, State.lchan_modLChan_same _ h]⟩
  · exact ⟨_, State.lchan_modLChan_same _ h⟩

/-- ENABLE of a cooler that no over-current holds arms it. -/
theorem State.arm_cooler {y : State} {ch : Nat} (cooler : 4 ≤ ch) (h : ch < 6) (ok : (y.lchan ch).overs = false) :
    y.arm ch = y.modLChan ch fun c => c.rest .armed := by
  have over_ : ((y.modLChan ch fun c => c.rest .armed).lchan ch).overs = false := by
    rw [State.lchan_modLChan_same _ h]
    exact ok
  simp only [State.arm, State.comparators, Nat.not_lt.mpr cooler, over_, decide_false, Bool.false_and, Bool.false_eq_true, ↓reduceIte]

/-! ## A loop step goes on with every channel (R417) -/

/-- From `c` to `c'` a channel keeps its block, and its state where that is OFF or TRIPPED. -/
def LChan.GoesOn (c c' : LChan) : Prop := (c.state = .off ∨ c.state = .tripped → c'.state = c.state) ∧ c'.block = c.block

/-- From `s` to `s'` every channel goes on, and no step is counted. -/
def State.GoesOn (s s' : State) : Prop := s'.lantern.step = s.lantern.step ∧ ∀ j, (s.lchan j).GoesOn (s'.lchan j)

theorem LChan.GoesOn.of_eq {c c' : LChan} (state : c'.state = c.state) (block : c'.block = c.block) : c.GoesOn c' := ⟨fun _ => state, block⟩

theorem LChan.GoesOn.of_live {c c' : LChan} (live : c.state.tripable = true) (block : c'.block = c.block) : c.GoesOn c' :=
  ⟨fun rest => absurd (live.symm.trans (ChanState.not_tripable_iff.mpr rest)) (by decide), block⟩

theorem LChan.GoesOn.trans {a b c : LChan} (h : a.GoesOn b) (k : b.GoesOn c) : a.GoesOn c := by
  obtain ⟨state, block⟩ := h
  obtain ⟨state', block'⟩ := k
  refine ⟨fun rest => ?_, block'.trans block⟩
  have same := state rest
  exact (state' (same ▸ rest)).trans same

namespace State.GoesOn

theorem trans {a b c : State} (h : a.GoesOn b) (k : b.GoesOn c) : a.GoesOn c := ⟨k.1.trans h.1, fun j => (h.2 j).trans (k.2 j)⟩

theorem of_says {a b : State} (h : a.Says b) : a.GoesOn b := ⟨h.step, fun j => .of_eq (by rw [h.lchan]) (by rw [h.lchan])⟩

theorem refl (a : State) : a.GoesOn a := of_says rfl

theorem modLChan {s : State} {ch : Nat} {f : LChan → LChan} (h : (s.lchan ch).GoesOn (f (s.lchan ch))) : s.GoesOn (s.modLChan ch f) := by
  refine ⟨rfl, fun j => ?_⟩
  rw [State.lchan_modLChan]
  split
  · next same => exact same.1 ▸ h
  · exact .of_eq rfl rfl

theorem ite {a x y : State} {c : Prop} [Decidable c] (hx : c → a.GoesOn x) (hy : a.GoesOn y) : a.GoesOn (if c then x else y) := by
  split
  · next h => exact hx h
  · exact hy

theorem foldl {α : Type} {g : State → α → State} (h : ∀ (s : State) x, s.GoesOn (g s x)) (xs : List α) (s : State) : s.GoesOn (xs.foldl g s) := by
  induction xs generalizing s with
  | nil => exact refl s
  | cons x xs ih => exact (h s x).trans (ih _)

end State.GoesOn

theorem State.tripChan_goesOn (s : State) (ch status : Nat) : s.GoesOn (s.tripChan ch status) := by
  refine .ite (fun live => ?_) (.refl s)
  have trip : (s.lchan ch).state.tripable = true := (Bool.and_eq_true_iff.mp live).1
  exact (State.GoesOn.modLChan (.of_live trip rfl)).trans (.of_says (State.lanternEvent_says _ _ _))

theorem State.limitTrip_goesOn (s : State) (ch : Nat) (positive : Bool) : s.GoesOn (s.limitTrip ch positive) := by
  refine .ite (fun _ => .refl s) (.trans (.modLChan ?_) (State.tripChan_goesOn _ _ _))
  cases positive
  · exact .of_eq rfl rfl
  · exact .of_eq rfl rfl

theorem State.comparators_goesOn (s : State) (ch : Nat) : s.GoesOn (s.comparators ch) := by
  have both : s.GoesOn (if ch < 4 && (s.lchan ch).limNActive then
      (if ch < 4 && (s.lchan ch).limPActive then s.limitTrip ch true else s).limitTrip ch false
    else if ch < 4 && (s.lchan ch).limPActive then s.limitTrip ch true else s) := by
    have first : s.GoesOn (if ch < 4 && (s.lchan ch).limPActive then s.limitTrip ch true else s) :=
      .ite (fun _ => State.limitTrip_goesOn _ _ _) (.refl s)
    exact .ite (fun _ => first.trans (State.limitTrip_goesOn _ _ _)) first
  exact .ite (fun _ => both.trans (State.tripChan_goesOn _ _ _)) both

theorem State.stepTrips_goesOn (s : State) (ch : Nat) : s.GoesOn (s.stepTrips ch) := by
  unfold State.stepTrips
  dsimp only
  split
  · exact (State.comparators_goesOn s ch).trans (State.tripChan_goesOn _ _ _)
  · exact State.comparators_goesOn s ch

theorem State.useSetpoint_goesOn (s : State) (ch : Nat) : s.GoesOn (s.useSetpoint ch) := by
  refine .ite (fun live => ?_) (.modLChan (.of_eq rfl rfl))
  have taken : s.GoesOn (s.modLChan ch fun _ => ((s.lchan ch).takeNewest (decide (ch < 4)) s.now).1) := by
    refine .modLChan (.of_live live ?_)
    unfold LChan.takeNewest
    dsimp only
    split
    · rfl
    · rfl
  exact .ite (fun _ => taken) taken

theorem State.checkWatchdog_goesOn (s : State) (ch : Nat) : s.GoesOn (s.checkWatchdog ch) := by
  refine .ite (fun expired => ?_) (.refl s)
  have run : (s.lchan ch).state = .run := LawfulBEq.eq_of_beq (Bool.and_eq_true_iff.mp expired).1
  exact (State.GoesOn.modLChan (.of_live (by rw [run]; rfl) rfl)).trans (.of_says (State.lanternEvent_says _ _ _))

theorem State.advanceRamp_goesOn {s : State} {ch : Nat} (ramp : (s.lchan ch).state = .ramp) : s.GoesOn (s.advanceRamp ch) := by
  have live : (s.lchan ch).state.tripable = true := by rw [ramp]; rfl
  refine .ite (fun _ => ?_) (.modLChan (.of_live live ?_))
  · exact (State.GoesOn.modLChan (.of_live live rfl)).trans (.of_says (State.lanternEvent_says _ _ _))
  · split
    · rfl
    · rfl

theorem LChan.advanceMotor_block (c : LChan) : c.advanceMotor.block = c.block := by
  unfold LChan.advanceMotor
  split
  · rfl
  · rfl

theorem State.advanceChan_goesOn (s : State) (ch : Nat) : s.GoesOn (s.advanceChan ch) := by
  unfold State.advanceChan
  split
  · next run =>
    refine .modLChan (.of_live (by rw [run]; rfl) ?_)
    split
    · exact LChan.advanceMotor_block _
    · split
      · rfl
      · rfl
  · next ramp => exact State.advanceRamp_goesOn ramp
  all_goals exact .refl s

theorem State.drivePhases_goesOn {s : State} {ch : Nat} {c : LChan} (state : c.state = (s.lchan ch).state) (block : c.block = (s.lchan ch).block) :
    s.GoesOn (s.drivePhases ch c) := by
  refine (State.GoesOn.modLChan (f := fun _ => c) (.of_eq state block)).trans (.of_says (.of_eq ?_))
  exact (congrArg State.lantern (State.wholeOf_rest _ _ _) :).trans (congrArg State.lantern (State.wholeOf_rest _ _ _) :)

theorem State.driveChan_goesOn (s : State) (ch : Nat) : s.GoesOn (s.driveChan ch) := by
  refine .ite (fun _ => .ite (fun _ => .refl s) (.ite (fun _ => ?_) (State.drivePhases_goesOn rfl rfl))) (.refl s)
  have stepped : s.GoesOn (s.modLChan ch fun c => { c with steps := c.pos / 65536 }) := .modLChan (.of_eq rfl rfl)
  exact .ite (fun _ => stepped) stepped

theorem LChan.latch_rereference_goesOn (c : LChan) (i : Option ChanIn) : c.GoesOn (c.latch i).rereference := by
  have latched : c.GoesOn (c.latch i) := by
    unfold LChan.latch
    split
    · exact .of_eq rfl rfl
    · exact .of_eq rfl rfl
  refine latched.trans ?_
  unfold LChan.rereference
  split
  · exact .of_eq rfl rfl
  · exact .of_eq rfl rfl

/-- A loop step of one channel leaves a channel that is OFF or TRIPPED so, and keeps every block. -/
theorem State.stepChan_goesOn (s : State) (ch : Nat) (i : Option ChanIn) : s.GoesOn (s.stepChan ch i) := by
  have latched : s.GoesOn (s.modLChan ch fun c => (c.latch i).rereference) := .modLChan (LChan.latch_rereference_goesOn _ _)
  exact ((((latched.trans (State.stepTrips_goesOn _ _)).trans (State.useSetpoint_goesOn _ _)).trans (State.checkWatchdog_goesOn _ _)).trans
    (State.advanceChan_goesOn _ _)).trans (State.driveChan_goesOn _ _)

/-! ## What Lantern's own commands do -/

section
variable {s x : State} {t ch : Nat} (hx : s.at t = x) (stage : x.lantern.stage = .running)
include hx stage

theorem execOvercurrentTrip_eq (h : ch < 6) :
    execOvercurrentTrip t ch s = .next ((x.modLChan ch fun c => { c with overs := true }).tripChan ch 0x0806) := by
  simp only [execOvercurrentTrip, hx, stage, h, beq_self_eq_true, decide_true, Bool.and_self, ↓reduceIte]

theorem execLimitTrip_positive (h : ch < 4) :
    execLimitTrip t ch true s = .next ((x.modLChan ch fun c => { c with limP := c.activeHigh }).limitTrip ch true) := by
  simp only [execLimitTrip, hx, stage, h, beq_self_eq_true, decide_true, Bool.and_self, ↓reduceIte]

theorem execVfieldUndervoltageTrip_eq :
    execVfieldUndervoltageTrip t s = .next ((List.range 6).foldl (fun s ch => s.tripChan ch 0x080A) x) := by
  simp only [execVfieldUndervoltageTrip, hx, stage, beq_self_eq_true, ↓reduceIte]

theorem execLoopStep_eq (ins : List ChanIn) :
    execLoopStep t ins s = .next ((List.range 6).foldl (fun s ch => s.stepChan ch ins[ch]?)
      (x.modLantern fun y => { y with step := (y.step + 1) % 2 ^ 32 })) := by
  simp only [execLoopStep, hx, stage, beq_self_eq_true, ↓reduceIte]

theorem execWatchdogExpiry_eq : execWatchdogExpiry t ch s = .next (x.checkWatchdog ch) := by
  simp only [execWatchdogExpiry, hx, stage, beq_self_eq_true, ↓reduceIte]

theorem execChannelStatusSend_eq (h : ch < 6) :
    execChannelStatusSend t ch s = .next (if (x.lchan ch).state = .off then x else x.sendChanStatus ch) := by
  simp only [execChannelStatusSend, hx, stage, h, beq_self_eq_true, decide_true, Bool.and_self, Bool.true_and, bne_iff_ne, ne_eq, ite_not]

theorem execLinkStatusSend_eq (mv : Nat) (temp : Int) :
    execLinkStatusSend t mv temp s =
      (let r := (x.modLantern fun y => { y with vfieldMv := mv }).intField 2 temp
       .next (r.2.sendLinkStatus r.1)) := by
  simp only [execLinkStatusSend, hx, stage, beq_self_eq_true, ↓reduceIte]

end

theorem execLanternResetRelease_eq {s x : State} {t mv : Nat} (hx : s.at t = x) (stage : x.lantern.stage = .reset) (high : 3000 < mv) :
    execLanternResetRelease t mv s = .next { x with lantern := { x.lantern with stage := .selftest, vfieldMv := mv } } := by
  simp only [execLanternResetRelease, hx, stage, high, beq_self_eq_true, decide_true, Bool.and_self, ↓reduceIte, State.modLantern]

theorem execLanternSelftestComplete_eq {s x : State} {t : Nat} (hx : s.at t = x) (stage : x.lantern.stage = .selftest) (pass : Bool) :
    execLanternSelftestComplete t pass s =
      (let r := ((x.modLantern fun y => { y with stage := .running, selftestFail := !pass }).modField fun y => { y with sent := [] }).freeBytes 2
       .next (r.2.sendLinkStatus r.1)) := by
  simp only [execLanternSelftestComplete, hx, stage, beq_self_eq_true, ↓reduceIte]

/-- The enables of a list of channels are driven low. -/
theorem State.enablesLow_eq (chs : List Nat) (s : State) :
    chs.foldl (fun s ch => s.emit (.enable ch false)) s = { s with out := s.out ++ chs.map fun ch => .enable ch false } := by
  induction chs generalizing s with
  | nil => simp only [List.foldl_nil, List.map_nil, List.append_nil]
  | cons ch chs ih =>
    rw [List.foldl_cons, ih]
    simp only [State.emit, List.map_cons, List.append_assoc, List.singleton_append]

theorem execLanternResetEntry_eq {s x : State} {t : Nat} (hx : s.at t = x) :
    execLanternResetEntry t s = .next { x with lantern := {}, out := x.out ++ (List.range 6).map fun ch => .enable ch false } := by
  simp only [execLanternResetEntry, hx, State.enablesLow_eq]

/-- LINK_STATUS is one frame more, and moves the next SEQ by one. -/
theorem State.sendLinkStatus_out (s : State) (temp : Bytes) :
    (s.sendLinkStatus temp).out.length = s.out.length + 1 ∧ (s.sendLinkStatus temp).lantern = { s.lantern with txSeq := (s.lantern.txSeq + 1) % 2 ^ 16 } :=
  ⟨List.length_append, rfl⟩

/-! ## The frames of one channel -/

section
variable {s x : State} {t ch : Nat} {f : Bytes} (hx : s.at t = x) (stage : x.lantern.stage = .running) (sent : f ∈ x.field.sent)
  (good : frameVerdict true f = .good)
include hx stage sent good

theorem next_onFrame {mine : Bool} {eff : State → State} (type : mine = true) :
    (.next ((s.at t).onFrame f mine eff) : Out) = .next (eff (x.acceptFrame f)) := by
  rw [hx, State.onFrame_of_sent stage sent good type]

variable (chan : fChan f = ch)
include chan

theorem execMotorSetpoint_eq (type : fType f = 1) :
    execMotorSetpoint t f s = .next ((x.acceptFrame f).takeSetpoint ch
      { target := toSigned 32 (fld f 8 4), vlimit := fld f 0xC 4, alimit := fld f 0x10 4, frame := fld f 0x14 4, tag := fld f 0x18 2, arrived := x.now }) :=
  chan ▸ next_onFrame hx stage sent good (by rw [type]; rfl)

theorem execCoolerSetpoint_eq (type : fType f = 2) :
    execCoolerSetpoint t f s = .next ((x.acceptFrame f).takeSetpoint ch
      { target := fld f 8 2, frame := fld f 0xC 4, tag := fld f 0x10 2, arrived := x.now }) :=
  chan ▸ next_onFrame hx stage sent good (by rw [type]; rfl)

theorem execConfigWrite_eq (type : fType f = 0x10) :
    execConfigWrite t f s = .next (if (x.lchan ch).state = .off then
      ((x.acceptFrame f).modLChan ch fun c => { c with block := putBytes c.block (fld f 8 1) (sub f 0xC 16) }).lanternAck f 0
    else (x.acceptFrame f).lanternAck f 0x0803) := by
  subst chan
  refine (next_onFrame hx stage sent good (by rw [type]; rfl)).trans (congrArg Host.Outcome.next (ite_of_iff beq_iff_eq))

theorem execControlDisable_eq (action : isControl f 0 = true) :
    execControlDisable t f s = .next ((((x.acceptFrame f).modLChan ch fun c =>
      { c.rest .off with use := none, clamped := false, blockP := false, blockN := false }).emit (.enable ch false)).lanternAck f 0) :=
  chan ▸ next_onFrame hx stage sent good action

/-- ENABLE of a channel that is OFF, by its checks (R418, R423). -/
theorem execControlEnable_of_off (action : isControl f 1 = true) (off : (x.lchan ch).state = .off) :
    execControlEnable t f s = .next (if x.lantern.selftestFail = true then (x.acceptFrame f).lanternAck f 0x080D
      else if (!blockOk ch (x.lchan ch).block) = true then (x.acceptFrame f).lanternAck f 0x0802
      else ((x.acceptFrame f).arm ch).lanternAck f 0) := by
  subst chan
  refine (next_onFrame hx stage sent good action).trans (congrArg Host.Outcome.next (if_neg ?_))
  rw [bne_iff_ne]
  exact not_not_intro off

/-- CLEAR_TRIP of a tripped channel (R419). -/
theorem execControlClearTrip_of_tripped (action : isControl f 2 = true) (tripped : (x.lchan ch).state = .tripped) :
    execControlClearTrip t f s = .next (if (x.lchan ch).overs = true then (x.acceptFrame f).lanternAck f 0x0806
      else ((x.acceptFrame f).modLChan ch fun c => { c with state := .armed }).lanternAck f 0) := by
  subst chan
  refine (next_onFrame hx stage sent good action).trans (congrArg Host.Outcome.next (if_neg ?_))
  rw [bne_iff_ne]
  exact not_not_intro tripped

theorem execControlSetPosition_eq (action : isControl f 3 = true) :
    execControlSetPosition t f s = .next (if ch < 4 ∧ (x.lchan ch).state ≠ .run ∧ (x.lchan ch).state ≠ .ramp then
      ((x.acceptFrame f).modLChan ch fun c => { c with reref := some (toSigned 32 (fld f 0xC 4)), pending := [] }).lanternAck f 0
    else (x.acceptFrame f).lanternAck f 0x080E) := by
  subst chan
  refine (next_onFrame hx stage sent good action).trans (congrArg Host.Outcome.next (ite_of_iff ?_))
  rw [Bool.and_eq_true, Bool.and_eq_true, decide_eq_true_eq, bne_iff_ne, bne_iff_ne, and_assoc]
  rfl

end

end Sys2Proof.Machine
end

section
open Sys2Proof Sys2Proof.Machine

/-- Settles O59: what each frame, each trip and each of Lantern's own events leaves. -/
theorem lanternActs : Obligations.LanternActs := by
  intro s x t ch f hx h
  have framed := fun {mine : Bool} {eff : State → State} => next_onFrame (mine := mine) (eff := eff) (f := f) hx
  refine ⟨fun stage sent good chan => ?_, fun stage unsent => ?_, fun stage sent good ack => ?_, fun stage => ?_, fun mv stage high => ?_, fun pass stage => ?_,
    ?_⟩
  · refine ⟨fun sp type hsp => ⟨fun live => ?_, fun rest => ?_⟩, fun type live => ?_, fun type => ⟨fun off => ?_, fun busy => ?_⟩, fun action => ?_,
      fun action off => ?_, fun action tripped => ?_, fun action => ?_⟩
    · have run := execMotorSetpoint_eq hx stage sent good chan type
      rw [← hsp, State.takeSetpoint_of_tripable (y := x.acceptFrame f) live] at run
      refine .of_next run ?_
      rw [State.lchan_modLChan_same _ h]
      exact ⟨rfl, rfl, rfl, rfl, rfl, rfl⟩
    · obtain ⟨last, after⟩ := State.takeSetpoint_of_resting (y := x.acceptFrame f) h rest sp
      have run := execMotorSetpoint_eq hx stage sent good chan type
      rw [← hsp] at run
      refine .of_next run ?_
      rw [after]
      exact ⟨rfl, rfl, rfl, rfl⟩
    · have run := execCoolerSetpoint_eq hx stage sent good chan type
      rw [State.takeSetpoint_of_tripable (y := x.acceptFrame f) live] at run
      refine .of_next run ?_
      rw [State.lchan_modLChan_same _ h]
      exact ⟨rfl, rfl, rfl, rfl, rfl⟩
    · refine .of_next ((execConfigWrite_eq hx stage sent good chan type).trans (congrArg Host.Outcome.next (if_pos off))) ?_
      rw [(State.lanternAck_says _ _ _).lchan, State.lchan_modLChan_same _ h]
      exact ⟨rfl, off⟩
    · exact (execConfigWrite_eq hx stage sent good chan type).trans (congrArg Host.Outcome.next (if_neg busy))
    · refine .of_next (execControlDisable_eq hx stage sent good chan action) ?_
      rw [(State.lanternAck_says _ _ _).lchan, State.lchan_emit, State.lchan_modLChan_same _ h]
      exact ⟨rfl, rfl, rfl, rfl⟩
    · have run := execControlEnable_of_off hx stage sent good chan action off
      refine ⟨fun failed => run.trans (congrArg Host.Outcome.next (if_pos failed)), fun passed bad => ?_, fun passed ok cooler over_ => ?_⟩
      · exact run.trans (congrArg Host.Outcome.next ((if_neg (by rw [passed]; decide)).trans (if_pos (by rw [bad]; rfl))))
      · refine .of_next (run.trans (congrArg Host.Outcome.next ((if_neg (by rw [passed]; decide)).trans (if_neg (by rw [ok]; decide))))) ?_
        rw [State.arm_cooler (y := x.acceptFrame f) cooler h over_, (State.lanternAck_says _ _ _).lchan, State.lchan_modLChan_same _ h]
        exact ⟨rfl, rfl, rfl⟩
    · have run := execControlClearTrip_of_tripped hx stage sent good chan action tripped
      exact ⟨fun over_ => run.trans (congrArg Host.Outcome.next (if_pos over_)), fun clear => run.trans (congrArg Host.Outcome.next (if_neg (by rw [clear]; decide)))⟩
    · have run := execControlSetPosition_eq hx stage sent good chan action
      refine ⟨fun moving => run.trans (congrArg Host.Outcome.next (if_neg ?_)), fun idle steady motor => run.trans (congrArg Host.Outcome.next (if_pos ⟨motor, idle, steady⟩))⟩
      rintro ⟨motor, idle, steady⟩
      rcases moving with e | e | e
      · exact idle e
      · exact steady e
      · omega
  · have idle := fun {mine : Bool} {eff : State → State} =>
      congrArg Host.Outcome.next (β := Out) ((congrArg (fun z : State => z.onFrame f mine eff) hx).trans (State.onFrame_of_unsent unsent))
    exact ⟨idle, idle⟩
  · have told := State.lanternAck_says ((x.acceptFrame f).modLantern fun y => { y with boot := false }) f 0
    exact .of_next (framed stage sent good ack) ⟨told.boot, told.chans⟩
  · refine ⟨fun live => ?_, fun still => ?_, fun motor clear live => ?_, ?_, fun ins => ?_, fun run late => ?_, fun early => ?_, fun on => ?_, fun off => ?_,
      fun mv temp => ?_⟩
    · exact .of_next (execOvercurrentTrip_eq hx stage h) (State.overcurrent_of_tripable h live)
    · have kept : ((x.modLChan ch fun c => { c with overs := true }).lchan ch).state.tripable = false := by
        rw [State.lchan_modLChan_same _ h]
        exact still
      refine .of_next ((execOvercurrentTrip_eq hx stage h).trans (congrArg Host.Outcome.next (State.tripChan_of_not 0x0806 kept))) ⟨?_, rfl⟩
      rw [State.lchan_modLChan_same _ h]
    · refine .of_next (execLimitTrip_positive hx stage motor) ?_
      have same := State.lchan_modLChan_same (s := x) (fun c => { c with limP := c.activeHigh }) h
      obtain ⟨own, others⟩ := State.limitTrip_of_tripable (s := x.modLChan ch fun c => { c with limP := c.activeHigh }) h (by rw [same]; exact live)
        (by rw [same]; exact clear)
      rw [own]
      exact ⟨rfl, rfl, rfl, fun j other => (others j other).trans (State.lchan_modLChan_other _ other)⟩
    · refine .of_next (execVfieldUndervoltageTrip_eq hx stage) fun j hj => ?_
      rw [State.tripAll_state _ _ (fun c hc => List.mem_range.mp hc)]
      exact ite_of_iff (and_iff_right (List.mem_range.mpr hj))
    · have going := State.GoesOn.foldl (fun s c => State.stepChan_goesOn s c ins[c]?) (List.range 6)
        (x.modLantern fun y => { y with step := (y.step + 1) % 2 ^ 32 })
      exact .of_next (execLoopStep_eq hx stage ins) ⟨going.1, fun j _ => going.2 j⟩
    · obtain ⟨own, others⟩ := State.checkWatchdog_of_late h run late
      refine .of_next (execWatchdogExpiry_eq hx stage) ?_
      rw [own]
      exact ⟨rfl, rfl, others⟩
    · refine (execWatchdogExpiry_eq hx stage).trans (congrArg Host.Outcome.next (if_neg fun expired => ?_))
      have late : (x.lchan ch).lastSet + (x.lchan ch).watchdog ≤ x.now := of_decide_eq_true (Bool.and_eq_true_iff.mp expired).2
      omega
    · exact (execChannelStatusSend_eq hx stage h).trans (congrArg Host.Outcome.next (if_neg on))
    · exact (execChannelStatusSend_eq hx stage h).trans (congrArg Host.Outcome.next (if_pos off))
    · refine .of_next (execLinkStatusSend_eq hx stage mv temp) ?_
      obtain ⟨out, lantern⟩ := State.sendLinkStatus_out ((x.modLantern fun y => { y with vfieldMv := mv }).intField 2 temp).2
        ((x.modLantern fun y => { y with vfieldMv := mv }).intField 2 temp).1
      rw [out, lantern, State.intField_out, State.intField_lantern]
      exact ⟨rfl, rfl, rfl, rfl⟩
  · exact execLanternResetRelease_eq hx stage high
  · refine .of_next (execLanternSelftestComplete_eq hx stage pass) ?_
    exact ⟨rfl, rfl, rfl, (State.sendLinkStatus_out _ _).1⟩
  · exact .of_next (execLanternResetEntry_eq hx) ⟨rfl, rfl, rfl⟩

end

section
/-! The peer ports (R71, R393 to R397, R400 to R408): training and loss, shared beacons and counters, accesses and relays. -/
namespace Sys2Proof.Machine
open Sys2Proof

/-! ## PEER_CONFIG (R408) -/

theorem State.peerReq_of_kind {x : State} {p kind : Nat} {r : MbxReq} {f : Bytes → State → State} (req : x.req? p 0x0061 = some r)
    (good : peerReserved r.payload = true) (same : fld r.payload 0 1 = kind) : x.peerReq p kind f = f r.payload x := by
  simp only [State.peerReq, req, good, same, Bool.not_true, Bool.false_eq_true, ↓reduceIte]

section
variable {x : State} {p k : Nat} {b : Bytes} (port : fld b 1 1 = k) (known : k < 3)
include port known

theorem State.portUp_of_up (up : (x.peer.at k).up = true) : x.portUp p b = x.answerPeer p 0 (x.peer.at k).report := by
  simp only [State.portUp, port, up, show ¬ 2 < k from by omega, ↓reduceIte]

theorem State.portUp_of_down (down : (x.peer.at k).up = false) (idle : (x.peer.at k).pair = none) :
    x.portUp p b = (x.modPeer k fun y => { y with
      enabled := true, allowHalf := bit (fld b 2 1) 0, allowTwo := bit (fld b 2 1) 1, since := x.now, pair := some p, failed := false }).startReq p := by
  simp only [State.portUp, port, down, idle, show ¬ 2 < k from by omega, Option.isSome_none, Bool.false_eq_true, ↓reduceIte]

theorem State.portDown_of_used (used : x.graphsOnPort k ≠ []) : x.portDown p b = x.answer p 0x010D := by
  have busy : (x.graphsOnPort k).isEmpty = false := List.isEmpty_eq_false_iff.mpr used
  simp only [State.portDown, port, busy, show ¬ 2 < k from by omega, Bool.not_false, ↓reduceIte]

theorem State.portDown_of_free (free : x.graphsOnPort k = []) :
    x.portDown p b =
      (((((x.answerTraining k 0x0701 (zeros 4)).failPeerItems (x.wiredTo k) 0x0704).modPeer k fun y =>
        { y with enabled := false, up := false, retrain := false, neighbour := 0, lanes := 0, halfRate := false, held := [], recent := [] }).modBlock
          (14 + k) CalBlock.off).updateHealth).answerPeer p 0 := by
  simp only [State.portDown, port, free, show ¬ 2 < k from by omega, List.isEmpty_nil, Bool.not_true, Bool.false_eq_true, ↓reduceIte]

end

section
variable {x : State} {p : Nat} {b : Bytes} (entry : fld b 2 2 ≤ 1023)
include entry

theorem State.setImport_of_clear (clear : bit (fld b 4 1) 0 = false) :
    x.setImport p b =
      (((aGet x.imports (fld b 2 2)).elim ({ x with imports := aErase x.imports (fld b 2 2) } : State) fun e =>
        ({ x with imports := aErase x.imports (fld b 2 2) } : State).endInstance e.graph 0)).answerPeer p 0 := by
  simp only [State.setImport, Nat.not_lt.mpr entry, clear, Bool.not_false, ↓reduceIte]
  cases aGet x.imports (fld b 2 2) <;> rfl

theorem State.setImport_of_unshared (set : bit (fld b 4 1) 0 = true) (unshared : x.sharing? (fld b 5 1) = none) :
    x.setImport p b = x.answer p 0x0706 := by
  simp only [State.setImport, Nat.not_lt.mpr entry, set, unshared, Bool.not_true, Bool.false_eq_true, ↓reduceIte]

theorem State.setImport_of_shared {q : Graph} (set : bit (fld b 4 1) 0 = true) (shared : x.sharing? (fld b 5 1) = some q)
    (named : fld b 8 2 < if bit (fld b 4 1) 1 = true then q.counters.length else q.image.beacons.length) :
    let e : Import := { counter := bit (fld b 4 1) 1, graph := fld b 5 1, mask := fld b 6 1, target := fld b 8 2 }
    x.setImport p b = ({ x with imports := aSet x.imports (fld b 2 2) e } : State).answerPeer p 0 := by
  simp only [State.setImport, Nat.not_lt.mpr entry, set, shared, Nat.not_le.mpr named, Bool.not_true, Bool.false_eq_true, ↓reduceIte]

end

section
variable {x : State} {p : Nat} {b : Bytes} (entry : fld b 6 2 ≤ 1023) (set : bit (fld b 4 1) 2 = true)
include entry set

theorem State.setCtrMap_of_home (home : bits (fld b 4 1) 0 2 = x.straps.module) : x.setCtrMap p b = x.answer p 0x0706 := by
  simp only [State.setCtrMap, Nat.not_lt.mpr entry, set, home, or_true, Bool.not_true, Bool.false_eq_true, ↓reduceIte]
  split <;> rfl

theorem State.setCtrMap_of_shared {q : Graph} (shared : x.sharing? (fld b 1 1) = some q) (named : fld b 2 2 < q.counters.length)
    (away : bits (fld b 4 1) 0 2 ≠ x.straps.module) :
    let m : CtrMap := { graph := fld b 1 1, index := fld b 2 2, home := bits (fld b 4 1) 0 2, imp := fld b 6 2 }
    x.setCtrMap p b = ({ x with ctrMaps := (x.ctrMaps.filter fun y => !(y.graph == m.graph && y.index == m.index)) ++ [m] } : State).answerPeer p 0 := by
  simp only [State.setCtrMap, Nat.not_lt.mpr entry, set, shared, Nat.not_le.mpr named, away, or_self, Bool.not_true, Bool.false_eq_true, ↓reduceIte]

end

/-! ## Training (R394, R406) -/

/-- A change that changes nothing. -/
theorem Tab.mod_eq_self {n : Nat} {α : Type} [Inhabited α] (t : Tab n α) {i : Nat} {f : α → α} (h : f (t.at i) = t.at i) : t.mod i f = t := by
  rw [Tab.mod_congr (g := id) t h]
  unfold Tab.mod
  split
  · exact Vector.set_getElem_self _
  · rfl

/-- The answer to a waiting PORT_UP is a report, with the pair no longer waiting. -/
theorem State.answerTraining_reports (x : State) (k status : Nat) (tail : Bytes) :
    (x.modPeer k fun y => { y with pair := none }).Reports (x.answerTraining k status tail) := by
  unfold State.answerTraining
  split
  · exact State.respond_reports _ _ _ _ _
  · next idle =>
    have same : (x.modPeer k fun y => { y with pair := none }) = x := by
      unfold State.modPeer
      rw [Tab.mod_eq_self x.peer (by rw [← idle])]
    rw [same]
    exact .refl x

section
variable {s x : State} {t k : Nat} (hx : s.at t = x) (active : x.active = true)
include hx active

section
variable (enabled : (x.peer.at k).enabled = true) (down : (x.peer.at k).up = false)
include enabled down

theorem trainingDoneEffect_of_other {n : Nat} (other : n ≠ x.wiredTo k) : trainingDoneEffect t k n 4 false s = x.failPort k 0x0702 := by
  simp only [trainingDoneEffect, hx, active, enabled, down, other, beq_self_eq_true, Bool.true_or, Bool.not_true, Bool.or_self, Bool.false_and,
    Bool.false_eq_true, ne_eq, not_false_eq_true, ↓reduceIte]

/-- Training on four lanes at the full rate with the neighbour that the port is wired to. -/
theorem trainingDoneEffect_of_wired :
    let y := x.modPeer k fun y => { y with
      barred := if y.lost then x.bf.graphs.map (·.1) else y.barred
      up := true, lost := false, failed := false, neighbour := x.wiredTo k, lanes := 4, halfRate := false, retrain := false, lastStatus := 0 }
    trainingDoneEffect t k (x.wiredTo k) 4 false s = (y.answerTraining k 0 (y.peer.at k).report).updateHealth := by
  have two : (4 == 2) = false := rfl
  simp only [trainingDoneEffect, hx, active, enabled, down, two, beq_self_eq_true, Bool.true_or, Bool.not_true, Bool.or_self, Bool.false_and,
    Bool.false_eq_true, ne_eq, not_true_eq_false, ↓reduceIte]

theorem execPeerTrainingTimeout_eq :
    execPeerTrainingTimeout t k s = .next (if (x.peer.at k).since + 1000000000 ≤ x.now then x.failPort k 0x0701 else x) := by
  simp only [execPeerTrainingTimeout, hx, active, enabled, down, Bool.not_false, Bool.and_self, Bool.true_and, decide_eq_true_eq]

end

section
variable (up : (x.peer.at k).up = true)
include up

/-- A replay on a port that does not retrain (R396). -/
theorem flitErrorEffect_of_up (stays : (x.peer.at k).retrain = false) :
    let recent := ((x.peer.at k).recent.filter fun y => decide (x.now < y + 1000000)) ++ [x.now]
    let y := x.modPeer k fun y => { y with replays := satInc 16 y.replays, recent := recent }
    flitErrorEffect t k s = if recent.length ≤ 8 then y else
      (y.modPeer k fun y => { y with retrain := true, retrains := satInc 8 y.retrains, since := x.now, recent := [], lastStatus := 0x070A }).note
        0x070A 7 k := by
  simp only [flitErrorEffect, hx, active, up, stays, Bool.not_true, Bool.or_self, Bool.false_eq_true, ↓reduceIte]

end

theorem execPeerRetrainComplete_of_retrain (retrain : (x.peer.at k).retrain = true) :
    execPeerRetrainComplete t k s = .next ((x.modPeer k fun y => { y with retrain := false }).sendHeld k) := by
  simp only [execPeerRetrainComplete, hx, active, retrain, Bool.and_self, ↓reduceIte]

theorem execPeerRetrainTimeout_of_due {cause : PeerLoss} (due : (x.peer.at k).lossDue x.now cause = true) :
    execPeerRetrainTimeout t ⟨k, cause⟩ s = .next (x.losePeer k) := by
  simp only [execPeerRetrainTimeout, hx, active, due, Bool.and_self, ↓reduceIte]

end

/-- Outputs that leave in order. -/
theorem State.foldl_emit (os : List Output) (s : State) : os.foldl State.emit s = { s with out := s.out ++ os } := by
  induction os generalizing s with
  | nil => simp only [List.foldl_nil, List.append_nil]
  | cons o os ih =>
    rw [List.foldl_cons, ih]
    simp only [State.emit, List.append_assoc, List.singleton_append]

/-! ## Signals, claims and accesses of another module (R71, R397, R400, R402) -/

section
variable {s x : State} {t k : Nat} (hx : s.at t = x) (on : x.portOpen k = true)
include hx on

theorem remoteSignalEffect_of_entry {imp inc : Nat} {e : Import} {q : Graph} {b : ImageBeacon} (entry : x.import? k imp false = some (e, q))
    (beacon : q.image.beacons[e.target]? = some b) : remoteSignalEffect t k imp inc s = (x.signalBeacon b.index inc).endShared imp := by
  simp only [remoteSignalEffect, hx, on, entry, beacon, Bool.not_true, Bool.false_eq_true, ↓reduceIte]

theorem remoteSignalEffect_of_none {imp inc : Nat} (refused : x.import? k imp false = none) :
    remoteSignalEffect t k imp inc s = (x.badImport k).endShared imp := by
  simp only [remoteSignalEffect, hx, on, refused, Bool.not_true, Bool.false_eq_true, ↓reduceIte]

theorem remoteCounterEffect_of_entry {imp v n : Nat} {e : Import} {q : Graph} (entry : x.import? k imp true = some (e, q))
    (counter : q.counters[e.target]? = some n) (good : x.counterBad n = false) :
    remoteCounterEffect t k imp v .clean s = (x.setCounter n (x.counter n + v)).emit (.counterReply k (some (x.counter n))) := by
  simp only [remoteCounterEffect, hx, on, entry, counter, good, State.noteCorrected, reduceCtorEq, or_self, Bool.not_true, Bool.false_eq_true, ↓reduceIte]

theorem peerAccessEffect_of_high {a n : Nat} (high : 0xF_0300_0000 ≤ a) :
    peerAccessEffect t k a n (.read .clean) s = (x.countRefusal (initPeerIn k) 0x0301).emit (.remoteReply k (zeros n) 0x0301 false) := by
  have outside : windowTarget a = none := by
    unfold windowTarget
    rw [if_neg (by omega), if_neg (by omega)]
  simp only [peerAccessEffect, hx, on, outside, Bool.not_true, Bool.false_eq_true, ↓reduceIte]

theorem peerAccessEffect_of_write {a n : Nat} (d : Bytes) (low : a < 0xF_0000_0000) :
    peerAccessEffect t k a n (.write d) s = (x.write (initPeerIn k) a d).2.emit (.remoteReply k [] (x.write (initPeerIn k) a d).1 false) := by
  have inside : windowTarget a = some a := if_pos low
  simp only [peerAccessEffect, hx, on, inside, Bool.not_true, Bool.false_eq_true, ↓reduceIte]

end

/-! ## Requests without a response (R397, R407) -/

/-- The one request of an engine's item, without a response, as its time goes. -/
theorem State.requestTimeout_of_one {x : State} {e tag m : Nat} {it : DmaItem} {q : DmaReq} (drained : (x.mem.dma.at e).draining = [])
    (item : (x.mem.dma.at e).item = some it) (reqs : it.reqs = [q]) (named : q.tag = tag) (far : regionOf q.addr = .peer m) :
    x.requestTimeout e tag = if q.issued + 100000 ≤ x.now then
      x.noResponse m fun y => (y.modDma e fun z => { z with item := some { it with reqs := [] } }).dmaFault e { it with reqs := [] } 0x0708 else x := by
  have remote : remoteAddr q.addr = true := by
    unfold remoteAddr
    rw [far]
  have same : (q.tag == tag) = true := beq_iff_eq.mpr named
  have other : (q.tag != tag) = false := by rw [bne, same]; rfl
  by_cases late : q.issued + 100000 ≤ x.now
  · simp only [State.requestTimeout, drained, item, reqs, same, other, remote, late, far, List.any_nil, List.find?_cons, List.filter_cons, List.filter_nil,
      decide_true, Bool.and_self, Option.map_some, Option.getD_some, Bool.false_eq_true, ↓reduceIte]
  · simp only [State.requestTimeout, drained, item, reqs, same, remote, late, List.any_nil, List.find?_cons, List.find?_nil, decide_false,
      Bool.and_false, Option.map_none, Option.getD_none, Bool.false_eq_true, ↓reduceIte]

section
variable {s x : State} {t : Nat} (hx : s.at t = x) (active : x.active = true)
include hx active

theorem remoteTimeoutEffect_engine (e tag : Nat) : remoteTimeoutEffect t (.engine e) tag s = x.requestTimeout e tag := by
  simp only [remoteTimeoutEffect, hx, active, Bool.not_true, Bool.false_eq_true, ↓reduceIte]

theorem remoteTimeoutEffect_node {i m : Nat} {c : Ctx} (ctx : x.ctx? i = some c) (uses : x.remoteUse i m c = true) (late : c.tStart + 100000 ≤ x.dev)
    (heard : x.silent? m = none) : remoteTimeoutEffect t (.node i) m s = x.unitFault i 0x0708 := by
  simp only [remoteTimeoutEffect, hx, active, ctx, uses, late, State.noResponse, heard, decide_true, Bool.and_self, Bool.not_true, Bool.false_eq_true,
    ↓reduceIte]

/-! ## RELAY_UNIT (R405) -/

theorem relayUnitEffect_of_running {k g : Nat} {y : Relay} {c : Ctx} {q : McGroup} {v : McRecv} (relay : (x.peer.at k).relay = some y)
    (ctx : x.ctx? y.ctx = some c) (group : x.relayGroup? c = some g) (desc : aGet x.bf.groups g = some q) (recv : q.recvs[c.relayRecv]? = some v)
    (state : c.state = .running) (going : c.draining = false) (more : y.overs = false) (stays : (x.peer.at k).retrain = false) :
    relayUnitEffect t k s = if v.delivered ≤ v.taken then x else x.relayOne k y c q v := by
  have run : (NodeState.running != .running) = false := rfl
  simp only [relayUnitEffect, hx, active, relay, ctx, group, desc, recv, state, run, going, more, stays, Option.bind_some, Option.map_some, Bool.not_true,
    Bool.or_self, Bool.false_or, decide_eq_true_eq]

end

end Sys2Proof.Machine
end

section
/-! PORT_DOWN and the index of coded weights (R101, R406): the answer to a waiting PORT_UP reaches host memory before the nodes that use the port are
looked for, and an index of coded weights may stand in host memory. -/
namespace Sys2Proof.Machine
open Sys2Proof

/-- Every entry of the index says the same of its block. -/
def SteadyIndex : Prop := ∀ a b, Config.weightEntry a = Config.weightEntry b

/-- With a steady index what a tile fetches is no matter of what memory holds. -/
theorem State.tileReads_of_steady (steady : SteadyIndex) (s s' : State) : s'.tileReads = s.tileReads := by
  have span : s'.weightSpan = s.weightSpan := by
    funext base total j
    unfold State.weightSpan
    rw [steady (s'.peek (base + 8 * j) 8) (s.peek (base + 8 * j) 8)]
  unfold State.tileReads State.weightReads
  rw [span]

/-- A report changes nothing of what the nodes of a port have in flight, where the index is steady. -/
theorem State.remoteUse_of_steady (steady : SteadyIndex) {s s' : State} (spc : s'.spc = s.spc) (spire : s'.spire = s.spire) (vis : s'.vis = s.vis)
    (bf : s'.bf = s.bf) (straps : s'.straps = s.straps) (relay : ∀ k, (s'.peer.at k).relay = (s.peer.at k).relay) (i m : Nat) (c : Ctx) :
    s'.remoteUse i m c = s.remoteUse i m c := by
  have lanes : s'.laneUses i m = s.laneUses i m := by
    funext core q
    unfold State.laneUses State.lane State.macro?
    rw [spc, spire, State.tileReads_of_steady steady s s']
  unfold State.remoteUse State.wiredTo State.relayGroup?
  rw [lanes, vis, bf, straps, relay]

theorem State.claimsAt_congr {s s' : State} (spire : s'.spire = s.spire) (maps : s'.ctrMaps = s.ctrMaps) (i m : Nat) (c : Ctx) :
    s'.claimsAt i m c = s.claimsAt i m c := by
  unfold State.claimsAt State.mapped?
  rw [spire, maps]

/-- A fold whose steps over a list change nothing. -/
theorem foldl_eq_self_of_mem {α β : Type} {f : α → β → α} {a : α} {xs : List β} (h : ∀ b ∈ xs, f a b = a) : xs.foldl f a = a := by
  induction xs with
  | nil => rfl
  | cons b xs ih =>
    rw [List.foldl_cons, h b List.mem_cons_self]
    exact ih fun c hc => h c (List.mem_cons_of_mem _ hc)

/-- With no item of an engine, the requests in flight to a module are those of the nodes that use it. -/
theorem State.failPeerItems_of_no_item {y : State} {m status : Nat} (items : ∀ e < 15, (y.mem.dma.at e).item = none) :
    y.failPeerItems m status =
      ((y.bf.ctxs.filter fun c => y.remoteUse c.1 m c.2 || y.claimsAt c.1 m c.2).map (·.1)).foldl (fun s i => s.unitFault i status) y := by
  unfold State.failPeerItems
  dsimp only
  rw [foldl_eq_self_of_mem (xs := List.range 15) fun e he => by rw [items e (List.mem_range.mp he)]]

end Sys2Proof.Machine
end

section
open Sys2Proof Sys2Proof.Machine

/-- O57 where every entry of an index of coded weights says the same: then no answer to PORT_UP changes what a node has in flight. All of O57 but that
PORT_DOWN leaves the memory is proved here without a use of `steady`. -/
theorem peersTrainAndShare_of_steady (steady : SteadyIndex) : Obligations.PeersTrainAndShare := by
  intro s x t p k r hx hk
  refine ⟨fun req good => ⟨fun kind port => ⟨fun up => ?_, fun down idle => ?_⟩, fun kind port => ⟨fun used => ?_, fun free items nodes => ?_⟩,
    fun kind entry => ⟨fun clear => ?_, fun set unshared => ?_, fun q set shared named => ?_⟩, fun kind entry set => ⟨fun home => ?_, fun q shared named away => ?_⟩⟩,
    fun active enabled down => ⟨fun n other => ?_, ?_, fun early => ?_, fun late => ?_⟩,
    fun active up => ⟨fun stays few => ?_, fun stays full recent => ?_, fun retrain => ?_, ?_, fun retrain late => ?_, fun retrain late => ?_⟩,
    fun on => ⟨fun imp inc e q b entry beacon => ?_, fun imp inc none => ?_, fun imp v e q n entry counter good => ?_, fun a n high => ?_, fun a n d low => ?_⟩,
    fun e tag it q m active drained item reqs named far => ⟨fun early => ?_, fun late => ?_⟩,
    fun i m c active ctx uses late heard => ?_,
    fun y c g q v relay ctx group desc recv active state going more stays => ⟨fun none => ?_, fun some => ?_⟩⟩
  · exact congrArg Host.Outcome.next ((congrArg (fun z : State => z.peerReq p 0 _) hx).trans ((State.peerReq_of_kind req good kind).trans
      (State.portUp_of_up port hk up)))
  · exact congrArg Host.Outcome.next ((congrArg (fun z : State => z.peerReq p 0 _) hx).trans ((State.peerReq_of_kind req good kind).trans
      (State.portUp_of_down port hk down idle)))
  · exact congrArg Host.Outcome.next ((congrArg (fun z : State => z.peerReq p 1 _) hx).trans ((State.peerReq_of_kind req good kind).trans
      (State.portDown_of_used port hk used)))
  · refine .of_next (congrArg Host.Outcome.next ((congrArg (fun z : State => z.peerReq p 1 _) hx).trans ((State.peerReq_of_kind req good kind).trans
      (State.portDown_of_free port hk free)))) ?_
    have asked := State.answerTraining_reports x k 0x0701 (zeros 4)
    generalize x.answerTraining k 0x0701 (zeros 4) = y at asked ⊢
    have cells : y.mem.cells = x.mem.cells := asked.cells
    have relay : ∀ j, (y.peer.at j).relay = (x.peer.at j).relay := fun j => by
      rw [asked.peer]
      show ((x.peer.mod k _).at j).relay = _
      rw [Tab.at_mod]
      split
      · next same => rw [same.1]
      · rfl
    have uses := State.remoteUse_of_steady (s := x) steady asked.spc asked.spire asked.vis asked.bf asked.straps relay
    have claims := State.claimsAt_congr (s := x) asked.spire asked.ctrMaps
    have none : y.failPeerItems (x.wiredTo k) 0x0704 = y := by
      rw [State.failPeerItems_of_no_item fun e he => by rw [asked.dma]; exact items e he, show y.bf = x.bf from asked.bf]
      simp only [uses, claims, nodes, List.map_nil, List.foldl_nil]
    rw [none]
    have told := (State.updateHealth_reports ((y.modPeer k fun y =>
        { y with enabled := false, up := false, retrain := false, neighbour := 0, lanes := 0, halfRate := false, held := [], recent := [] }).modBlock
          (14 + k) CalBlock.off)).trans (State.respond_reports _ p 0 0 (zeros 4))
    unfold State.answerPeer
    rw [told.peer, told.cells]
    simp only [State.modBlock, State.modPeer, Tab.at_mod_same _ _ _ hk]
    exact ⟨trivial, trivial, trivial, cells⟩
  · refine congrArg Host.Outcome.next ((congrArg (fun z : State => z.peerReq p 2 _) hx).trans ((State.peerReq_of_kind req good kind).trans
      ((State.setImport_of_clear entry clear).trans ?_)))
    dsimp only
    cases aGet x.imports (fld r.payload 2 2) <;> rfl
  · exact congrArg Host.Outcome.next ((congrArg (fun z : State => z.peerReq p 2 _) hx).trans ((State.peerReq_of_kind req good kind).trans
      (State.setImport_of_unshared entry set unshared)))
  · exact congrArg Host.Outcome.next ((congrArg (fun z : State => z.peerReq p 2 _) hx).trans ((State.peerReq_of_kind req good kind).trans
      (State.setImport_of_shared entry set shared named)))
  · exact congrArg Host.Outcome.next ((congrArg (fun z : State => z.peerReq p 3 _) hx).trans ((State.peerReq_of_kind req good kind).trans
      (State.setCtrMap_of_home entry set home)))
  · exact congrArg Host.Outcome.next ((congrArg (fun z : State => z.peerReq p 3 _) hx).trans ((State.peerReq_of_kind req good kind).trans
      (State.setCtrMap_of_shared entry set shared named away)))
  · exact congrArg Host.Outcome.next (trainingDoneEffect_of_other hx active enabled down other)
  · refine .of_next (congrArg Host.Outcome.next (trainingDoneEffect_of_wired hx active enabled down)) ?_
    rw [(State.updateHealth_reports _).peer, (State.answerTraining_reports _ _ _ _).peer]
    simp only [State.modPeer, Tab.at_mod_same _ _ _ hk]
    exact ⟨trivial, trivial, trivial, trivial, trivial⟩
  · exact (execPeerTrainingTimeout_eq hx active enabled down).trans (congrArg Host.Outcome.next (if_neg (Nat.not_le.mpr early)))
  · exact (execPeerTrainingTimeout_eq hx active enabled down).trans (congrArg Host.Outcome.next (if_pos late))
  · have short : (((x.peer.at k).recent.filter fun y => decide (x.now < y + 1000000)) ++ [x.now]).length ≤ 8 := by
      have := List.length_filter_le (fun y => decide (x.now < y + 1000000)) (x.peer.at k).recent
      rw [List.length_append, List.length_singleton]
      omega
    refine .of_next (congrArg Host.Outcome.next ((flitErrorEffect_of_up hx active up stays).trans (if_pos short))) ?_
    simp only [State.modPeer, Tab.at_mod_same _ _ _ hk]
    exact ⟨trivial, stays, up, trivial⟩
  · have long : ¬ (((x.peer.at k).recent.filter fun y => decide (x.now < y + 1000000)) ++ [x.now]).length ≤ 8 := by
      rw [List.filter_eq_self.mpr fun y hy => decide_eq_true (recent y hy), List.length_append, List.length_singleton, full]
      decide
    refine .of_next (congrArg Host.Outcome.next ((flitErrorEffect_of_up hx active up stays).trans (if_neg long))) ?_
    rw [(State.note_reports _ _ _ _ _).peer]
    simp only [State.modPeer, Tab.at_mod_same _ _ _ hk]
    exact ⟨trivial, trivial, trivial, trivial⟩
  · refine .of_next (execPeerRetrainComplete_of_retrain hx active retrain) ?_
    unfold State.sendHeld
    rw [State.foldl_emit]
    simp only [State.modPeer, Tab.at_mod_same _ _ _ hk]
    exact ⟨trivial, trivial, trivial, trivial⟩
  · exact execPeerRetrainTimeout_of_due hx active rfl
  · exact execPeerRetrainTimeout_of_due hx active (by unfold Peer.lossDue; rw [retrain, decide_eq_true late]; rfl)
  · exact execPeerRetrainTimeout_of_due hx active (by unfold Peer.lossDue; rw [retrain, decide_eq_true late]; rfl)
  · exact congrArg Host.Outcome.next (remoteSignalEffect_of_entry hx on entry beacon)
  · exact congrArg Host.Outcome.next (remoteSignalEffect_of_none hx on none)
  · refine .of_next (congrArg Host.Outcome.next (remoteCounterEffect_of_entry hx on entry counter good)) ⟨?_, rfl, fun j other => ?_⟩
    · exact (State.counter_setCounter _ _ _ _).trans (if_pos rfl)
    · exact (State.counter_setCounter _ _ _ _).trans (if_neg (Ne.symm other))
  · exact congrArg Host.Outcome.next (peerAccessEffect_of_high hx on high)
  · exact congrArg Host.Outcome.next (peerAccessEffect_of_write hx on d low)
  · exact congrArg Host.Outcome.next ((remoteTimeoutEffect_engine hx active e tag).trans ((State.requestTimeout_of_one drained item reqs named far).trans
      (if_neg (Nat.not_le.mpr early))))
  · refine congrArg Host.Outcome.next ((remoteTimeoutEffect_engine hx active e tag).trans ((State.requestTimeout_of_one drained item reqs named far).trans
      ((if_pos late).trans ?_)))
    unfold State.noResponse
    cases x.silent? m <;> rfl
  · exact congrArg Host.Outcome.next (remoteTimeoutEffect_node hx active ctx uses late heard)
  · exact congrArg Host.Outcome.next ((relayUnitEffect_of_running hx active relay ctx group desc recv state going more stays).trans (if_pos none))
  · exact congrArg Host.Outcome.next ((relayUnitEffect_of_running hx active relay ctx group desc recv state going more stays).trans
      (if_neg (Nat.not_le.mpr some)))

end

section
/-! A PORT_DOWN that the index of coded weights decides (R101, R402, R406): the state in which an index stands where the answer to PORT_UP goes. -/
namespace Sys2Proof.Machine
open Sys2Proof

/-- A matrix product of 4,097 columns whose coded weights have their index 8 bytes below the host windows: the entry of its second block, which the last
column needs, stands in host memory. -/
def indexDesc : Bytes :=
  leBytes 4 (1 + 16 + 256 + 8 * 65536) ++ leBytes 4 (2 ^ 18) ++ leBytes 4 0 ++ leBytes 2 0 ++ leBytes 2 4096 ++ leBytes 8 scratchBase
    ++ leBytes 8 0x8F_FFFF_FFF8 ++ zeros 8 ++ leBytes 8 (scratchBase + 0x3000) ++ zeros 80

/-- A running node on core 0, its record in the scratchpad. -/
def indexNode : Ctx :=
  { prog := leBytes 4 (4 * 2 ^ 20) ++ zeros 76 ++ leBytes 16 1 ++ zeros 8 ++ leBytes 8 (scratchBase + 0x8000) ++ zeros 144, state := .running }

/-- The lane whose next tile is the last column's. -/
def indexLane : Lane := { macroIx := some 0, runs := [{ first := 128, last := 129 }] }

/-- Port 2 trains for the PORT_UP of pair 1, whose response ring stands at the start of host window 0; pair 0 asks for PORT_DOWN of that port; core 0
is to fetch the last column's tile. -/
def indexState : State :=
  { ({} : State) with
    bf := { ({} : State).bf with ctxs := [(0, indexNode)] }
    spire := [(0, { macros := [(0, { desc := indexDesc })] })]
    spc := ({} : State).spc.mod 0 fun y => { y with lanes := y.lanes.mod 4 fun _ => indexLane }
    peer := ({} : State).peer.mod 2 fun y => { y with pair := some 1 }
    resets := { held := [] }
    watch := { ({} : State).watch with prt := [(0, { valid := true, read := true, write := true, initMask := 0, lastPage := 2 ^ 28 - 1 })] }
    pci := { ({} : State).pci with
      state := .ready, linkUp := true, hokudan := true
      windows := ({} : State).pci.windows.mod 0 fun y => { y with valid := true, base := 0x1_0000, size := 0x1_0000, write := true }
      pairs := (({} : State).pci.pairs.mod 1 fun y => { y with
        enable := true, enabled := true, rspBase := 0x1_0000, cur := some { opcode := 0x61, started := true } }).mod 0 fun y => { y with
        enable := true, enabled := true, rspBase := 0x2_0000, cur := some { opcode := 0x61, payload := [1, 2] ++ zeros 14 } } } }

/-- The macro as its tiles see it, and that tile's stage. -/
def indexView : View := ({ desc := indexDesc } : MacroRun).view
def indexStage : Stage := ({ desc := indexDesc } : MacroRun).stageOf 0 4 { macroIx := 0, tile := 128 }
/-- The state once the waiting PORT_UP is answered. -/
def indexAnswered : State := indexState.answerTraining 2 0x0701 (zeros 4)


theorem any_eraseDups {α : Type} [BEq α] [LawfulBEq α] (xs : List α) (f : α → Bool) : xs.eraseDups.any f = xs.any f := by
  rw [Bool.eq_iff_iff, List.any_eq_true, List.any_eq_true]
  simp only [List.mem_eraseDups]

/-- The last column's weights take the entry in host memory, and the block where it says. -/
theorem State.weightReads_index (x : State) :
    x.weightReads (mAddr indexDesc 0x18) (bTotal indexDesc) 4096 1 = [(0x90_0000_0000, 8), x.weightSpan 0x8F_FFFF_FFF8 4097 1] := by
  have base : mAddr indexDesc 0x18 = 0x8F_FFFF_FFF8 := by decide +kernel
  have total : bTotal indexDesc = 4097 := by decide +kernel
  unfold State.weightReads
  rw [base, total]
  rfl

/-- Of what the tile fetches only that block can lie in window 3. -/
theorem State.tileReads_index (x : State) :
    (x.tileReads indexView indexStage false false false).any (fun r => inWindow 3 (r.1, r.2.1)) = inWindow 3 (x.weightSpan 0x8F_FFFF_FFF8 4097 1) := by
  have comp : mWcomp indexView.d = true := by decide +kernel
  have els : indexView.bEls indexStage.mi indexStage.ni indexStage.ki (tileCols indexView.d indexStage.ni) =
    [(⟨0x8F_FFFF_FFF8, 4096, 1⟩, ⟨0, 0, 1⟩)] := by decide +kernel
  have range : (⟨0x8F_FFFF_FFF8, 4096, 1⟩ : Pos).range = (0x90_0000_0FF8, 1) := by decide +kernel
  have off : 0x90_0000_0FF8 - mAddr indexView.d 0x18 = 4096 := by decide +kernel
  unfold State.tileReads
  simp only [comp, els, range, off, List.map_cons, List.map_nil, List.flatten_cons, List.flatten_nil, Bool.false_eq_true, ↓reduceIte]
  rw [show mAddr indexView.d 0x18 = mAddr indexDesc 0x18 from rfl, show bTotal indexView.d = bTotal indexDesc from rfl, State.weightReads_index]
  simp only [List.any_append, List.any_map, Function.comp_def, any_eraseDups]
  have a : (indexView.aEls indexStage.mi indexStage.ni indexStage.ki).any (fun x => inWindow 3 (x.1.range.1, x.1.range.2)) = false := by decide +kernel
  have aScale : (indexView.aScales indexStage.mi indexStage.ki).any (fun x => inWindow 3 (x.1, 1)) = false := by decide +kernel
  have bScale : (indexView.bScales indexStage.mi indexStage.ki (tileCols indexView.d indexStage.ni)).any (fun x => inWindow 3 (x.1, 1)) = false := by
    decide +kernel
  have table : (indexView.tableEntries indexStage.ni).any (fun x => inWindow 3 (x.1, x.2)) = false := by decide +kernel
  have c : (indexView.cEls indexStage.mi indexStage.ni).any (fun x => inWindow 3 (x.1.range.1, x.1.range.2)) = false := by decide +kernel
  have dest : (indexView.destReads indexStage.mi indexStage.ni).any (fun x => inWindow 3 (x.1, x.2)) = false := by decide +kernel
  have op : ¬ mOp indexView.d = 3 := by decide +kernel
  have entry : inWindow 3 (0x90_0000_0000, 8) = false := by decide
  simp only [a, aScale, bScale, table, c, dest, op, entry, List.any_cons, List.any_nil, Bool.false_or, Bool.or_false, ↓reduceIte]

/-- A lane with no tile in progress and none to fetch has nothing in flight. -/
theorem State.laneUses_of_idle {x : State} {i m core q : Nat} (idle : x.lane core q = {}) : x.laneUses i m core q = false := by
  unfold State.laneUses
  rw [idle]
  rfl

theorem State.laneUses_index {x : State} (lane : x.lane 0 4 = indexLane) (run : x.macro? 0 0 = some { desc := indexDesc }) :
    x.laneUses 0 3 0 4 = inWindow 3 (x.weightSpan 0x8F_FFFF_FFF8 4097 1) := by
  have next : indexLane.toFetch = some (0, 128) := by decide +kernel
  have idle : indexLane.prevs ++ indexLane.tile.toList = [] := rfl
  unfold State.laneUses
  rw [lane]
  simp only [next, idle, run, List.any_nil, Bool.false_or, Option.any_some]
  exact x.tileReads_index

/-- The node uses the module where the span of its block begins in the module's window, and nowhere else. -/
theorem State.remoteUse_index {x : State} (spc : x.spc = indexState.spc) (spire : x.spire = indexState.spire) :
    x.remoteUse 0 3 indexNode = inWindow 3 (x.weightSpan 0x8F_FFFF_FFF8 4097 1) := by
  have running : (indexNode.state == .running) = true := rfl
  have type : indexNode.type = 4 := by decide +kernel
  have cores : indexNode.cores = [0] := by decide +kernel
  have lanes : ∀ q < 4, x.lane 0 q = {} := by
    unfold State.lane
    rw [spc]
    decide +kernel
  have lane : x.lane 0 4 = indexLane := by
    unfold State.lane
    rw [spc]
    decide +kernel
  have run : x.macro? 0 0 = some { desc := indexDesc } := by
    unfold State.macro?
    rw [spire]
    rfl
  simp only [State.remoteUse, running, type, cores, List.any_cons, List.any_nil, show List.range 5 = [0, 1, 2, 3, 4] from rfl, State.laneUses_index lane run,
    State.laneUses_of_idle (lanes 0 (by decide)), State.laneUses_of_idle (lanes 1 (by decide)), State.laneUses_of_idle (lanes 2 (by decide)),
    State.laneUses_of_idle (lanes 3 (by decide)), Bool.true_and, Bool.false_or, Bool.or_false]

theorem regionOf_window {a : Nat} (lo : 0x50_0000_0000 ≤ a) (hi : a < 0x90_0000_0000) : regionOf a = .peer ((a - 0x50_0000_0000) / 0x10_0000_0000) := by
  unfold regionOf
  rw [if_neg (by omega), if_neg (by omega), if_neg (by omega), if_neg (by omega), if_neg (by omega), if_neg (by omega), if_neg (by omega), if_pos ⟨lo, hi⟩]

theorem regionOf_above {a : Nat} (lo : 0x90_0000_0000 ≤ a) (m : Nat) : regionOf a ≠ .peer m := by
  unfold regionOf
  rw [if_neg (by omega), if_neg (by omega), if_neg (by omega), if_neg (by omega), if_neg (by omega), if_neg (by omega), if_neg (by omega), if_neg (by omega)]
  split
  · exact Region.noConfusion
  · split
    · exact Region.noConfusion
    · exact Region.noConfusion

/-- The span of the block begins in window 3 where its entry gives an offset below 8. -/
theorem State.inWindow_index (x : State) :
    inWindow 3 (x.weightSpan 0x8F_FFFF_FFF8 4097 1) = decide ((Config.weightEntry (x.peek 0x90_0000_0000 8)).1 < 8) := by
  show (regionOf (0x8F_FFFF_FFF8 + (Config.weightEntry (x.peek 0x90_0000_0000 8)).1) == .peer 3) = _
  generalize (Config.weightEntry (x.peek 0x90_0000_0000 8)).1 = n
  by_cases low : n < 8
  · rw [regionOf_window (by omega) (by omega), show (0x8F_FFFF_FFF8 + n - 0x50_0000_0000) / 0x10_0000_0000 = 3 from by omega, decide_eq_true low]
    rfl
  · rw [decide_eq_false low]
    exact beq_eq_false_iff_ne.mpr (regionOf_above (by omega) 3)

/-- The node faults, and its record is written, where the answer to PORT_UP has moved the block into the window. -/
theorem failPeerItems_index (moved : indexAnswered.remoteUse 0 3 indexNode = true) : (indexAnswered.failPeerItems 3 0x0704).mem.cells ≠ [] := by
  have ctxs : indexAnswered.bf.ctxs = [(0, indexNode)] := by decide +kernel
  have items : ∀ e < 15, (indexAnswered.mem.dma.at e).item = none := by decide +kernel
  have record : (indexAnswered.unitFault 0 0x0704).mem.cells ≠ [] := by decide +kernel
  rw [State.failPeerItems_of_no_item items, ctxs, List.filter_cons_of_pos (by rw [moved]; rfl), List.filter_nil, List.map_cons,
    List.map_nil, List.foldl_cons, List.foldl_nil]
  dsimp only
  exact record

end Sys2Proof.Machine
end

section
open Sys2Proof Sys2Proof.Machine

/-- O57 is left open, since `Config.weightEntry` has no body: here it fails for one reading of the entries, and `peersTrainAndShare_of_steady` proves it for
another. Of an index whose entries differ it fails: the first 8 bytes of the answer to PORT_UP put the block where the zeros before them did not. -/
theorem not_peersTrainAndShare_of_moving (before : 8 ≤ (Config.weightEntry (zeros 8)).1)
    (after : (Config.weightEntry (leBytes 2 0x61 ++ leBytes 2 8 ++ zeros 4)).1 < 8) : ¬ Obligations.PeersTrainAndShare := by
  intro h
  have zero : indexState.peek 0x90_0000_0000 8 = zeros 8 := by decide +kernel
  have header : indexAnswered.peek 0x90_0000_0000 8 = leBytes 2 0x61 ++ leBytes 2 8 ++ zeros 4 := by decide +kernel
  have used : indexState.remoteUse 0 3 indexNode = false := by
    rw [State.remoteUse_index rfl rfl, State.inWindow_index, zero, decide_eq_false (Nat.not_lt.mpr before)]
  have spc : indexAnswered.spc = indexState.spc := (State.answerTraining_reports indexState 2 0x0701 (zeros 4)).spc
  have spire : indexAnswered.spire = indexState.spire := (State.answerTraining_reports indexState 2 0x0701 (zeros 4)).spire
  have moved : indexAnswered.remoteUse 0 3 indexNode = true := by
    rw [State.remoteUse_index spc spire, State.inWindow_index, header, decide_eq_true after]
  have free : indexState.graphsOnPort 2 = [] := by decide +kernel
  have wired : indexState.wiredTo 2 = 3 := by decide
  obtain ⟨r, req⟩ : ∃ r, indexState.req? 0 0x61 = some r := Option.isSome_iff_exists.mp (by decide +kernel)
  have good : peerReserved r.payload = true ∧ fld r.payload 0 1 = 1 ∧ fld r.payload 1 1 = 2 := by
    have is : indexState.req? 0 0x61 = some { opcode := 0x61, payload := [1, 2] ++ zeros 14 } := by decide +kernel
    obtain rfl := Option.some.inj (req.symm.trans is)
    decide +kernel
  obtain ⟨reserved, kind, port⟩ := good
  have items : ∀ e < 15, (indexState.mem.dma.at e).item = none := by decide +kernel
  have claims : indexState.claimsAt 0 3 indexNode = false := by decide +kernel
  have nodes : (indexState.bf.ctxs.filter fun c => indexState.remoteUse c.1 (indexState.wiredTo 2) c.2 || indexState.claimsAt c.1 (indexState.wiredTo 2) c.2)
      = [] := by
    rw [wired, show indexState.bf.ctxs = [(0, indexNode)] from rfl, List.filter_cons_of_neg (by rw [used, claims]; decide), List.filter_nil]
  obtain ⟨-, down⟩ := ((h indexState indexState 0 0 2 r rfl (by decide)).1 req reserved).2.1 kind port
  obtain ⟨s', run, -, -, -, cells⟩ := down free items nodes
  have effect : exec (.portDown 0 0) indexState = .next (indexState.portDown 0 r.payload) :=
    (congrArg (fun z : State => (.next (z.peerReq 0 1 fun b s => s.portDown 0 b) : Out)) (show indexState.at 0 = indexState from rfl)).trans
      (congrArg Host.Outcome.next (State.peerReq_of_kind req reserved kind))
  obtain rfl := Host.Outcome.next.inj (run.symm.trans effect)
  rw [State.portDown_of_free port (by decide) free, wired] at cells
  unfold State.answerPeer at cells
  rw [(State.respond_reports _ _ _ _ _).cells, (State.updateHealth_reports _).cells] at cells
  exact failPeerItems_index moved cells

end
